-- ==== Sys2Proof/Word.lean ====
section
/-! DEFINITION. The plain bit types of the Nyrek architecture. -/

namespace Sys2Proof

/-- A byte of memory. -/
abbrev Byte := BitVec 8

/-- A special or uniform register (R125, R314). -/
abbrev Word32 := BitVec 32

/-- An instruction word (R7). -/
abbrev Word64 := BitVec 64

/-- An address operand or program counter (R39, R11). -/
abbrev Addr := BitVec 80

/-- One bit for each of a group's 96 lanes, lane 0 in bit 0 (R53, R126). -/
abbrev Mask := BitVec 96

/-- The slice space of one lane: slice s holds bits [4s+3:4s] (R3). -/
abbrev SliceFile := BitVec 2048

/-- The uniform registers k0 to k159 of one group: kN holds bits [32N+31:32N] (R125). -/
abbrev UniformFile := BitVec 5120

end Sys2Proof
end

