-- ==== Sys2Proof/Config.lean ====
section
/-! DEFINITION. What the part fixes (R1) and the values that the manual leaves open. -/

namespace Sys2Proof.Config

/-- Dies of the module (R1). -/
def dies : Nat := 24

/-- Cores of a die (R1). -/
def coresPerDie : Nat := 64

/-- Group slots of a quadrant (R1). -/
def groupSlots : Nat := 16

/-- Register units of a quadrant's slice file (R118). -/
def unitsPerQuadrant : Nat := 32

/-- Entries of the Range-Lock Table of a core (R69). -/
def rltEntries : Nat := 64

/-- Miss-status entries of the general pool and of the reserve (R63). -/
def mseGeneral : Nat := 3968
def mseReserve : Nat := 128

/-- Entries of the Ordered-Atomic Buffer of an L2 slice, the reserve included (R74). -/
def oabEntries : Nat := 64

/-- Greatest number of reconvergence entries of a group, and those kept on chip (R142, R147). -/
def stackLimit : Nat := 16336
def stackOnChip : Nat := 32

/-- Greatest call depth of a lane (R169). -/
def callLimit : Nat := 4096

/-- Cycles after which a ready slot overrides the yield bit (R271). -/
def readyWait : Nat := 256

/-- Clauses between two rotations of a group's paths (R149). -/
def rotateEvery : Nat := 256

/-- Cycles for which give.role's units keep their tag (R130). -/
def tagCycles : Nat := 1024

/-- Cycles of the drain of a tenant (R283). -/
def drainCycles : Nat := 2400000

/-- Cycles of a microsecond at 1.2 GHz (R1). -/
def microsecond : Nat := 1200

/-- Cycles for which both slots of a gathered group stay blocked before it is saved (R152). -/
def gatheredWait : Nat := 4096

/-- Cycles before a thief starts its order again (R275). -/
def stealWait : Nat := 256

/-- Entries of a deque on chip (R273). -/
def dequeOnChip : Nat := 1024

/-- Tasks that one deque holds at most (R273). -/
def dequeLimit : Nat := 1049600

/-- Cycles that a lease must still have to run for a die to use the copy (R105). -/
def leaseGuard : Nat := 16

/-- Bits of precision, beyond the format's own, with which a transcendental result is found before
its one rounding. UNVERIFIED: log entry 13 says what this rests on. -/
def guardBits : Nat := 1200

/-- A value that the manual leaves open, one for each count of State.fresh. It has no body, so no
proof sees which value it is (log entry 5). -/
opaque freeValue : Nat → BitVec 64

/-- The memory controller of its die that serves a 64-byte block of memory, by the block's number: the manual does not say which (log
entry 51). It has no body. -/
opaque controllerOf : Nat → Nat

/-- The bytes that a firmware image, a telemetry snapshot or an attestation report holds are the
firmware's own (R326, R329). It has no body. -/
opaque freeBytes : Nat → List (BitVec 8)

end Sys2Proof.Config
end

