-- ==== Sys2Proof/Syntax.lean ====
section
/-! DEFINITION. The abstract syntax: one constructor of Instr for each row of spec/opcode_table.json. -/

namespace Sys2Proof

/-- A guard: a predicate index and its invert bit (R14). -/
structure Guard where
  inv : Bool
  idx : BitVec 3
  deriving DecidableEq, Repr

/-- What every lane-class and uniform-class word carries (R12, R21, R23, R24). -/
structure Head where
  /-- true for the uniform class -/
  uni : Bool
  w   : BitVec 3
  ga  : Guard
  gb  : Guard
  /-- write-back suppress -/
  sup : Bool
  /-- signal counter -/
  ctr : BitVec 2
  deriving DecidableEq, Repr

/-- A source operand (R15). `uimm` is the immediate of the U-format (R24). -/
inductive Src where
  | slice (start : BitVec 9)
  | ureg (n : BitVec 8)
  | latch (n : BitVec 3)
  | acc (tile : BitVec 3) (row : BitVec 6)
  | imm (v : BitVec 9)
  | uimm (v : BitVec 11)
  deriving DecidableEq, Repr

/-- A register destination (R16). -/
inductive Dst where
  | slice (start : BitVec 9)
  | ureg (n : BitVec 8)
  deriving DecidableEq, Repr

/-- A predicate destination (R16, R162). -/
inductive PDst where
  | p (n : BitVec 3)
  | g (n : BitVec 3)
  deriving DecidableEq, Repr

/-- An agent of the module that can execute a word or wait for one (R10, R86). -/
inductive Agent where
  | none
  /-- a program-counter slot of a group; true is S1 -/
  | slot (gid : Nat) (s1 : Bool)
  /-- a program on a sequencer or engine -/
  | prog (pid : Nat)
  deriving DecidableEq, Repr

/-- What an access does (R51, R53). -/
inductive AccessKind where
  | read | write | atomic | fetch
  deriving DecidableEq, Repr

/-- What another module asks of a home in this one (R109). -/
inductive RemoteAccess where
  | read (len : Nat)
  | write (bytes : List Byte)
  | atomic (op : BitVec 6) (w : BitVec 3) (b b2 : BitVec 64)
  deriving DecidableEq, Repr

/-- An operand triple named by its first uniform register (R15, R65). -/
abbrev Triple := BitVec 8

/-- The scalar register of a sequencer (R25). -/
abbrev SReg := BitVec 4

/-- One constructor per row of the table of operations and events. The first rows are steps of the
device that no word encodes; the others are words of the lane, uniform and sequencer classes. -/
inductive Instr where
  -- steps of the device
  | clauseIssue (cls : BitVec 3) (cnt : BitVec 4) (wait : BitVec 3) (yld : Bool)
  | issueChoice (quad : Nat)
  | readyWaitExpiry (gid : Nat) (s1 : Bool)
  | pathRotation (gid : Nat)
  | faultQueueSpace (die : Nat)
  | tlbWalk (who : Agent) (va : Addr) (kind : AccessKind)
  | pendingRetry (gid : Nat) (s1 : Bool)
  | memAccessComplete (id : Nat)
  | storeReachHome (id : Nat)
  | leaseExpiry (line : Nat)
  | leaseCopyDrop (die : Nat) (line : Nat)
  | oabAdmit (id : Nat)
  | floorAdvance (grid : Nat)
  | carveChangeComplete (core : Nat)
  | claimGrant (quad : Nat)
  | tagExpiry (quad : Nat)
  | sleepExpiry (gid : Nat) (s1 : Bool)
  | futWaitWake (gid : Nat) (s1 : Bool)
  | ringWaitResume (gid : Nat) (s1 : Bool)
  | cpyComplete (id : Nat)
  | tlbinvComplete (id : Nat)
  | tableBankLoad (quad : Nat)
  | matrixOpStart (quad : Nat)
  | rowGroupDone (quad : Nat)
  | engineProgramStart (pid : Nat)
  | engineProgramEnd (pid : Nat)
  | engineFaultDelivery (gid : Nat) (s1 : Bool)
  | engineTranslationStop (id : Nat)
  | stepCallDeliver (ctx : Nat)
  | stepCombinationDone (ctx : Nat)
  | tokenPoll (die : Nat)
  | teamPlacement (die : Nat)
  | gridComplete (grid : Nat)
  | timeSliceSave (die : Nat)
  | tenantDrainDeadline (tenant : Nat)
  | saveSlotRetry (tenant : Nat)
  | tgaFormGroup (lcore : Nat)
  | stealRequest (lcore : Nat)
  | stealServe (victim : Nat)
  | stealRestart (lcore : Nat)
  | gatheredGroupSave (gid : Nat)
  | gatheredGroupRestore (team : Nat)
  | softErrorRewind (gid : Nat) (lane : Nat) (row : Nat)
  | l2TagParityFail (die : Nat) (line : Nat) (slice way : Nat) (eccBad : Bool)
  | waySweepDone (die : Nat) (slice way : Nat)
  | bucketRefill (die : Nat)
  | energyAccount (die : Nat)
  | hostPostedWrite (mbox : Bool) (offset : Nat) (bytes : List Byte)
  | hostRead (mbox : Bool) (offset : Nat) (len : Nat)
  | fabricAck (id : Nat)
  | fabricRetransmit (id : Nat)
  | partcmdQuadrants (die : Nat)
  | partcmdBanks (die : Nat)
  | partcmdL2Ways (die : Nat)
  | partcmdBuckets (die : Nat)
  | mboxFirmwareCmd (code : BitVec 16)
  | mboxDone (result : BitVec 16) (error : Bool) (vectors : BitVec 64) (put : List (Nat × Byte))
  | mboxWindowBase (v : BitVec 64)
  | mboxIntCauseClear (v : BitVec 64)
  -- words whose special-register number or destination gives them a row of their own
  | wrsrFpctl (h : Head) (a : Src)
  | wrsrFpflags (h : Head) (a : Src)
  | rdsrFpflags (h : Head) (d : Dst)
  | rdsrClock0 (h : Head) (d : Dst)
  | wrsrUtrap (h : Head) (word : BitVec 2) (a : Src)
  | maskWrite (h : Head) (beat : BitVec 2) (imm : BitVec 32)
  | mfqheadWrite (h : Head) (a : Src)
  -- integer and logic (R154 to R164)
  | nop (h : Head)
  | mov (h : Head) (d : Dst) (a : Src)
  | movi (h : Head) (d : Dst) (imm : BitVec 32)
  | sel (h : Head) (d : Dst) (a b : Src) (p : Guard)
  | iadd (h : Head) (d : Dst) (a b : Src) (sat sg : Bool)
  | isub (h : Head) (d : Dst) (a b : Src) (sat sg : Bool)
  | imul (h : Head) (d : Dst) (a b : Src) (sg : Bool)
  | imulh (h : Head) (d : Dst) (a b : Src) (sg : Bool)
  | imad (h : Head) (d : Dst) (a b c : Src)
  | imin (h : Head) (d : Dst) (a b : Src) (sg : Bool)
  | imax (h : Head) (d : Dst) (a b : Src) (sg : Bool)
  | iabs (h : Head) (d : Dst) (a : Src) (sat : Bool)
  | shl (h : Head) (d : Dst) (a b : Src)
  | shr (h : Head) (d : Dst) (a b : Src)
  | sar (h : Head) (d : Dst) (a b : Src)
  | rot (h : Head) (d : Dst) (a b : Src)
  | and (h : Head) (d : Dst) (a b : Src)
  | or (h : Head) (d : Dst) (a b : Src)
  | xor (h : Head) (d : Dst) (a b : Src)
  | not (h : Head) (d : Dst) (a : Src)
  | lop3 (h : Head) (d : Dst) (a b : Src) (table : BitVec 8)
  | bfx (h : Head) (d : Dst) (a b : Src) (sg : Bool)
  | bfi (h : Head) (d : Dst) (a b c : Src)
  | popc (h : Head) (d : Dst) (a : Src)
  | clz (h : Head) (d : Dst) (a : Src)
  | brev (h : Head) (d : Dst) (a : Src)
  | lea (h : Head) (d : Dst) (a b : Src) (sh : BitVec 3) (sg : Bool)
  | isetp (h : Head) (p : PDst) (a b : Src) (cond : BitVec 4) (sg : Bool)
  | iaddi (h : Head) (d : Dst) (a : Src) (imm : BitVec 27)
  -- across lanes (R161 to R163)
  | shfl (h : Head) (d : Dst) (a b : Src) (mode : BitVec 4)
  | vote (h : Head) (p : PDst) (a : Src) (mode : BitVec 4)
  | voteBallot (h : Head) (k : BitVec 8) (a : Src)
  | redx (h : Head) (d : Dst) (a : Src) (op : BitVec 4) (rm : BitVec 3) (sg : Bool)
  -- floating point (R192 to R197)
  | fadd (h : Head) (d : Dst) (a b : Src) (rm : BitVec 3)
  | fsub (h : Head) (d : Dst) (a b : Src) (rm : BitVec 3)
  | fmul (h : Head) (d : Dst) (a b : Src) (rm : BitVec 3)
  | ffma (h : Head) (d : Dst) (a b c : Src)
  | fmin (h : Head) (d : Dst) (a b : Src)
  | fmax (h : Head) (d : Dst) (a b : Src)
  | fsetp (h : Head) (p : PDst) (a b : Src) (cond : BitVec 4)
  | fdiv (h : Head) (d : Dst) (a b : Src) (rm : BitVec 3)
  | fsqrt (h : Head) (d : Dst) (a : Src) (rm : BitVec 3)
  | frcp (h : Head) (d : Dst) (a : Src) (rm : BitVec 3)
  | frsq (h : Head) (d : Dst) (a : Src) (rm : BitVec 3)
  | fex2 (h : Head) (d : Dst) (a : Src) (rm : BitVec 3)
  | flg2 (h : Head) (d : Dst) (a : Src) (rm : BitVec 3)
  | fsin (h : Head) (d : Dst) (a : Src) (rm : BitVec 3)
  | fcos (h : Head) (d : Dst) (a : Src) (rm : BitVec 3)
  | frnd (h : Head) (d : Dst) (a : Src) (exact : Bool) (rm : BitVec 3)
  | fcls (h : Head) (d : Dst) (a : Src)
  -- conversions, blocks and tables (R199 to R208)
  | fcvt (h : Head) (d : Dst) (a : Src) (df sf : BitVec 3) (sat : Bool) (rm : BitVec 3)
  | icvt (h : Head) (d : Dst) (a : Src) (df sw : BitVec 3) (sg : Bool) (rm : BitVec 3)
  | fcvti (h : Head) (d : Dst) (a : Src) (sf : BitVec 3) (sg : Bool) (rm : BitVec 3)
  | blkq (h : Head) (d : BitVec 9) (a : BitVec 9) (b : Option Src) (ef sf : BitVec 3) (rm : BitVec 3)
  | blkdq (h : Head) (d : BitVec 9) (a b : Src) (df ef : BitVec 3) (rm : BitVec 3)
  | bscale (h : Head) (d : Dst) (a : Src) (ef sf : BitVec 3)
  | srnd (h : Head) (d : Dst) (a : Src) (view : BitVec 3) (df sf : BitVec 3)
  | pack (h : Head) (d a : BitVec 9) (mode : BitVec 4) (sg : Bool) (sw : BitVec 3)
  | unpack (h : Head) (d a : BitVec 9) (sg : Bool) (sw : BitVec 3)
  | tbld (h : Head) (k : Triple) (mask : BitVec 4) (sp : BitVec 3)
  | tbind (h : Head)
  | teval (h : Head) (d : Dst) (a : Src) (t : BitVec 2) (rm : BitVec 3)
  -- lazy values (R215 to R220)
  | lzdraw (h : Head) (view : BitVec 3) (a b : Src)
  | lzcmp (h : Head) (p : BitVec 3) (view : BitVec 3) (b : Src) (fixed : Bool)
  | lzcmpExt (h : Head) (view : BitVec 3) (b : Src)
  | lzval (h : Head) (d : Dst) (view : BitVec 3) (rm : BitVec 3)
  -- memory (R70 to R84)
  | ld (h : Head) (d : Dst) (a b : Src) (sp : BitVec 3) (pol : BitVec 2) (disp : BitVec 11)
  | st (h : Head) (a b : Src) (sp : BitVec 3) (pol : BitVec 2) (disp : BitVec 11)
  | ldu (h : Head) (d : Dst) (a : Src) (sp : BitVec 3) (pol : BitVec 2) (disp : BitVec 6)
  | gth (h : Head) (d : Dst) (a b : Src) (sp : BitVec 3) (pol : BitVec 2) (disp : BitVec 6)
  | sct (h : Head) (data : BitVec 9) (a b : Src) (sp : BitVec 3) (pol : BitVec 2) (disp : BitVec 6)
  | atom (h : Head) (d : Dst) (a b : Src) (sp : BitVec 3) (pol : BitVec 2) (op : BitVec 6)
  | atomo (h : Head) (d : Dst) (a b : Src) (pol : BitVec 2) (op : BitVec 6)
  | atomoFin (h : Head)
  | fence (h : Head) (pred succ : BitVec 4) (scope : BitVec 3)
  | cpy (h : Head) (dk ak : Triple) (len : Src) (ssp : BitVec 3) (pol : BitVec 2) (dsp : BitVec 3)
  | cpyCont (h : Head) (dk ak : Triple) (len : BitVec 8) (ssp : BitVec 3) (pol : BitVec 2) (dsp : BitVec 3)
  | pref (h : Head) (a b : Src) (sp : BitVec 3) (pol : BitVec 2) (disp : BitVec 6)
  | cmntWb (h : Head) (a b : Src) (sp : BitVec 3) (disp : BitVec 6)
  | cmntInv (h : Head) (a b : Src) (sp : BitVec 3) (disp : BitVec 6)
  | cmntL2wb (h : Head) (a b : Src) (sp : BitVec 3) (disp : BitVec 6)
  | cmntL2inv (h : Head) (a b : Src) (sp : BitVec 3) (disp : BitVec 6)
  | spill (h : Head) (n1 : BitVec 9) (a : Src) (f : BitVec 9) (pol : BitVec 2) (disp : BitVec 6)
  | fill (h : Head) (n1 : BitVec 9) (a : Src) (f : BitVec 9) (pol : BitVec 2) (disp : BitVec 6)
  | ringPush (h : Head) (a : Triple) (b : Src) (sp : BitVec 3) (pol : BitVec 2)
  | ringPop (h : Head) (d : Dst) (a : Triple) (sp : BitVec 3) (pol : BitVec 2)
  | futFill (h : Head) (a b : Src) (sp : BitVec 3) (pol : BitVec 2)
  | futWait (h : Head) (d : Dst) (a : Src) (sp : BitVec 3) (pol : BitVec 2)
  -- control (R166 to R176)
  | bra (h : Head) (target : BitVec 22) (reconv : BitVec 16) (hint : Bool)
  | braUniform (h : Head) (target : BitVec 22) (reconv : BitVec 16) (hint : Bool)
  | brx (h : Head) (a : Src) (reconv : BitVec 16) (hint ug : Bool)
  | call (h : Head) (target : BitVec 22) (reconv : BitVec 16) (hint : Bool)
  | callUniform (h : Head) (target : BitVec 22) (reconv : BitVec 16) (hint : Bool)
  | callx (h : Head) (a : Src) (reconv : BitVec 16) (hint ug : Bool)
  | ret (h : Head)
  | exit (h : Head)
  | exitUniform (h : Head)
  | yield (h : Head)
  | barArrive (h : Head) (a b : Src)
  | barWait (h : Head) (a : Src)
  | barSync (h : Head) (a b : Src)
  | sleep (h : Head) (a : Src)
  | trap (h : Head) (a : Src)
  | bkpt (h : Head) (a : Src)
  | rtt (h : Head)
  | rttSub (h : Head) (a : Src)
  | rttSkip (h : Head)
  -- engines, matrix feed, stepper, tasks, system (R226 to R237, R295 to R315)
  | forkMx (h : Head) (d : BitVec 8) (a : Triple) (b : BitVec 8) (n : BitVec 3)
  | forkCp (h : Head) (d : BitVec 8) (a : Triple) (b : BitVec 8) (n : BitVec 3)
  | forkCl (h : Head) (d : BitVec 8) (a : Triple) (b : BitVec 8) (n : BitVec 3)
  | rdv (h : Head) (d : Dst) (a : Src)
  | mfeedDat (h : Head) (tile : BitVec 2) (row : BitVec 6) (a b : Src)
  | mfeedScl (h : Head) (tile : BitVec 2) (row : BitVec 6) (a b : Src)
  | mfeedBand (h : Head) (tile : BitVec 2) (a b : Src)
  | mfeedQ (h : Head) (tile : BitVec 2) (row : BitVec 6) (a : BitVec 9) (b : Src)
  | mwm (h : Head) (d : Dst) (tile : BitVec 3)
  | stepLdtab (h : Head) (a : Triple) (sp : BitVec 3)
  | stepBind (h : Head) (a : Triple) (sp : BitVec 3)
  | stepRun (h : Head) (a : Triple) (sp : BitVec 3)
  | stepWait (h : Head)
  | stepDone (h : Head)
  | stepQry (h : Head) (d : Triple) (t : Src)
  | stepStat (h : Head) (d : Triple) (sp : BitVec 3)
  | stepStop (h : Head)
  | spawn (h : Head) (a : Src) (f : BitVec 9)
  | spawnUniform (h : Head) (a b : BitVec 8)
  | tend (h : Head)
  | claim (h : Head) (n : Src)
  | give (h : Head) (n : Src)
  | giveRole (h : Head) (n r : Src)
  | regionBegin (h : Head)
  | regionEnd (h : Head)
  | digestRd (h : Head) (d : Dst) (n : BitVec 2)
  | digestFold (h : Head) (a : Src)
  | rdsr (h : Head) (d : Dst) (num : BitVec 11)
  | wrsr (h : Head) (num : BitVec 11) (a : Src)
  | sysLaunch (h : Head) (a : Triple) (b : Src) (sp : BitVec 3)
  | sysTlbinv (h : Head) (a : Triple) (b : BitVec 8) (sc : BitVec 3)
  | sysCarve (h : Head) (a : BitVec 8)
  | sysHalt (h : Head) (a : BitVec 8)
  | sysReplay (h : Head) (a : BitVec 8)
  | sysEfail (h : Head) (a : BitVec 8)
  | sysDebug (h : Head) (a b : BitVec 8)
  | sysSlice (h : Head) (a b : BitVec 8)
  -- sequencer words (R301, R302, R233, R235, R303 to R308)
  | smov (d a : SReg)
  | smovi (d : SReg) (imm : BitVec 32)
  | sadd (d a b : SReg)
  | saddi (d a : SReg) (imm : BitVec 32)
  | ssub (d a b : SReg)
  | smul (d a b : SReg)
  | sshl (d a b : SReg)
  | sshr (d a b : SReg)
  | sand (d a b : SReg)
  | sor (d a b : SReg)
  | scmp (d a b : SReg) (cond : BitVec 3)
  | sbra (a b : SReg) (cond : BitVec 3) (imm : BitVec 32)
  | sloop (d : SReg) (imm : BitVec 32)
  | ssig (sp : BitVec 4) (a : SReg) (imm : BitVec 32)
  | mma (fmt : BitVec 4) (at_ : BitVec 2) (reuse : Bool) (acc : BitVec 3) (b c : SReg) (k : BitVec 6)
  | mzero (acc : BitVec 3)
  | mwaitAt (at_ : BitVec 2)
  | mwaitAcc (acc : BitVec 3)
  | mrel (at_ : BitVec 2)
  | mbscale (acc : BitVec 3) (f : SReg)
  | cld (w : BitVec 3) (d a n x : SReg) (dsp ssp : BitVec 3) (pol : BitVec 2)
  | cst (w : BitVec 3) (d a n x : SReg) (dsp ssp : BitVec 3) (pol : BitVec 2)
  | cgth (w : BitVec 3) (d a n x : SReg) (dsp ssp : BitVec 3) (pol : BitVec 2)
  | csct (w : BitVec 3) (d a n x : SReg) (dsp ssp : BitVec 3) (pol : BitVec 2)
  | cacc (w : BitVec 3) (d a n x : SReg) (dsp ssp : BitVec 3) (pol : BitVec 2) (tile : BitVec 3)
  | ccoll (w : BitVec 3) (d a n x : SReg) (dsp ssp : BitVec 3) (pol : BitVec 2) (op scope : BitVec 3)
  | cwait (w : BitVec 3) (a n : SReg) (ssp : BitVec 3) (pol : BitVec 2)
  | cfill (w : BitVec 3) (d a n : SReg) (dsp : BitVec 3) (pol : BitVec 2)
  -- steps that end asynchronous work
  | lazyInstructionComplete (id : Nat)
  | copyOperationComplete (id : Nat)
  | fabricRemoteAccess (access : RemoteAccess) (addr : Nat)
  -- operations and steps without operands (mailbox rows of R326; reset R329; R330; R142; R301)
  | mboxNop
  | mboxAttest
  | mboxTelemetry
  | resetBoot
  | thermalTrip
  | join
  | snop
  | send
  deriving DecidableEq, Repr

end Sys2Proof
end

