-- ==== Sys2Proof/Machine/State.lean ====
section
/-! DEFINITION. The machine's state as plain data, the ways a step can stop, and the state after reset. -/

namespace Sys2Proof.Machine

/-- One value for each lane of a group. -/
abbrev Lanes (α : Type) := Vector α 96

/-- A table by number. -/
abbrev Tab (α : Type) := List (Nat × α)

/-- Memory in its canonical form: addresses rising, no byte that is zero (log entry 1). A key below 2^56 is a physical
address (R47); a core's SRAM scratchpad and a die's scratchpad have keys above (R55, R62). -/
abbrev Memory := List Host.Cell

/-- The six address spaces (R39). -/
inductive Space where
  | lp | sc | cl | ds | g | ro
  deriving DecidableEq, Repr

/-! ### Groups -/

/-- Why a slot does not issue (R141, R288). -/
inductive SlotWait where
  | ready
  | claim (need : Nat)
  | futWait
  | ringPush (res : Word32)
  | ringPop (res : Word32)
  | bar (id : Nat)
  | step
  | cpyCont (tag : Nat) (target : Addr)
  | parked (die : Nat) (seq : Word32)
  | pending
  | feed
  | tbld
  /-- a lazy instruction whose completion may trap (R281) -/
  | lazy
  /-- a word that reads accumulator rows of these tiles, issued while an operation on one of them runs (R236) -/
  | acc (tiles : List Nat)
  /-- a spawn for whose tasks the deque has no room (R273) -/
  | spawn
  /-- a step.qry whose elements have still to perform: its fence ends it (R258) -/
  | written (fence : Nat)
  | other
  | empty
  deriving DecidableEq, Repr

/-- What a memory instruction does to the bytes it names (chapter 04). -/
inductive MemOp where
  | load | store
  | atomic (op : BitVec 6)
  | ordered (op : BitVec 6)
  | prefetch
  | maint (op : BitVec 2)
  | spill (first count : Nat)
  | fill (first count : Nat)
  | futFill | futWait
  | ringPush | ringPop
  deriving DecidableEq, Repr

/-- A memory instruction with its captured operands (R65): what a retry, a replay or a resumed wait needs. -/
structure MemReq where
  /-- number of the instruction, which its accesses carry -/
  id    : Nat
  instr : Instr
  op    : MemOp
  space : Space
  w     : BitVec 3
  pol   : BitVec 2
  /-- the destination, none where it is suppressed -/
  dst   : Option Dst
  /-- the latch that the result also goes to -/
  latch : Option (BitVec 3)
  /-- the word leaves a result for R18 -/
  res   : Bool
  /-- one access for the whole group (R71, R24), made by this lane -/
  once  : Option Nat
  ctr   : BitVec 2
  /-- the base and the effective address (R65, R287) -/
  base  : Lanes Addr
  ea    : Lanes Addr
  data  : Lanes (BitVec 64)
  data2 : Lanes (BitVec 64)
  /-- the slices that a spill stores -/
  wide : Lanes SliceFile
  issued : Mask
  /-- the lanes to whose program order the accesses belong (R86) -/
  agents : Mask
  /-- a ring's reservation; its slot accesses have been made, and its publish step has not (R83) -/
  ring : Option Word32
  touched : Bool
  /-- bytes that lanes of the instruction have loaded: the lanes still to perform read the same (R68) -/
  seen : List (Nat × Byte)
  /-- its next access, to another module, has been acknowledged there (R109) -/
  acked : Bool
  deriving DecidableEq, Repr

/-- What an mfeed writes into its tile (R228). -/
structure Feed where
  data : Tab (BitVec 1024)
  scales : Tab (BitVec 256)
  band : Option (BitVec 16)
  /-- flags that it raises when it completes (R186, R229) -/
  flags : BitVec 6
  deriving DecidableEq, Repr

/-- A program-counter slot (R139, R288). -/
structure Slot where
  pc     : Addr
  /-- address of the header of the clause being issued -/
  header : Addr
  cls    : BitVec 3
  /-- words of the clause still to issue; 0 when a header is next -/
  left   : Nat
  /-- position of the next word in its clause (R18) -/
  pos    : Nat
  /-- which latches hold a result of an earlier position of this clause (R18) -/
  fresh  : BitVec 8
  /-- the clause's yield bit, or a yield in it (R8, R173) -/
  yld    : Bool
  /-- a yield instruction places the slot last for one choice (R173) -/
  back   : Bool
  owned  : Mask
  mask   : Mask
  /-- lanes that a rejection or a page fault left to perform (R52, R64) -/
  unfinished : Mask
  /-- lanes that alone execute the next word again after rtt (R134) -/
  redo   : Option Mask
  wait   : SlotWait
  age    : Nat
  req    : Option MemReq
  /-- counter of the word that the slot waits in (R19) -/
  wctr   : BitVec 2
  /-- an operand that a blocked word has read (R295) -/
  capt   : Option Word32
  /-- lanes whose call frames a call or ret that a page fault has stopped has written or read, with the return addresses (R169, R170) -/
  frames : List (Nat × Addr)
  /-- an mfeed that has passed its checks and waits for its rows: tile, format word, and what it writes (R228) -/
  feed   : Option (BitVec 2 × Word32 × Feed)
  /-- cycle until which a sleep holds the slot (R173) -/
  sleep  : Nat
  /-- cycle since which the slot has been ready (R271) -/
  readyAt : Nat
  /-- barrier arrivals not yet waited for: id, and whether the phase arrived in has completed (R174) -/
  arrived : List (Nat × Bool)
  /-- last capture of sr.clock0 (R313) -/
  clock  : Word64
  /-- the path was handed over by a rotation (R149) -/
  rotated : Bool
  /-- the path may begin at the word after a join, and its page did not translate when the slot took it (R146) -/
  afterJoin : Bool
  deriving DecidableEq, Repr

/-- An entry of the reconvergence stack (R142). -/
structure Reconv where
  join     : Option Addr
  expected : Mask
  arrived  : Mask
  pathPc   : Addr
  path     : Mask
  /-- lanes of the entry that were inactive in their slot (R126) -/
  idle     : Mask
  trapLevel : Bool
  rotated  : Bool
  deriving DecidableEq, Repr

/-- The registers that describe the last trap (R279). -/
structure TrapRegs where
  cause : Word32
  dst   : Word32
  inst  : Word64
  pc    : Addr
  mask  : Mask
  deriving DecidableEq, Repr

/-- The trap frame (R280). -/
structure Frame where
  s0 : Slot
  s1 : Slot
  faultS1 : Bool
  latches : Lanes (BitVec 512)
  height : Nat
  /-- lanes that rtt passes over or executes again as one instruction (R67, R134) -/
  whole  : Bool
  res    : Bool
  issued : Mask
  deriving DecidableEq, Repr

/-- An open idempotent region (R290). -/
structure Region where
  pc     : Addr
  header : Addr
  cls    : BitVec 3
  left   : Nat
  yld    : Bool
  owned  : Mask
  mask   : Mask
  height : Nat
  srctr  : Lanes Word32
  cdepth : Lanes (BitVec 13)
  digest : Lanes (BitVec 128)
  spawns : Lanes Word32
  /-- lengths of the lanes' effect logs when the region began (R292) -/
  logs   : Lanes Nat
  rows   : BitVec 8
  escaped : Bool
  deriving DecidableEq, Repr

/-- An effect kept back until the lane's index retires (R292). -/
inductive Effect where
  | atomic (op : BitVec 6) (w : BitVec 3) (space : Space) (addr : Addr) (data data2 : BitVec 64)
  | ordered (op : BitVec 6) (w : BitVec 3) (addr : Addr) (data : BitVec 64)
  | futFill (space : Space) (addr : Addr) (data : BitVec 64)
  | push (space : Space) (desc : Addr) (w : BitVec 3) (data : BitVec 64)
  | spawn (entry : Addr) (arg : BitVec 256) (idx : BitVec 128)
  deriving DecidableEq, Repr

/-- The accesses of these lanes that issued before the spawn of a task: the task's own follow them (R310). -/
structure Prior where
  gid : Nat
  die : Nat
  lanes : Mask
  /-- no later number than this was given out before the spawn -/
  last : Nat
  deriving DecidableEq, Repr

/-- A task in a deque (R150, R273). -/
structure Task where
  grid : Nat
  entry : Addr
  arg : BitVec 256
  idx : BitVec 128
  /-- what its spawn left outstanding, if anything -/
  after : Option Prior := none
  deriving DecidableEq, Repr

/-- What a load or atomic in flight will still write when it completes (R18, R122): the bits of its result that no later word
has written since, in these lanes. -/
structure Late where
  acc   : Nat
  s1    : Bool
  lanes : Mask
  dst   : Option Dst
  bits  : BitVec 64
  /-- the bits of the element that the access loads: all, or one piece of an element that is performed in pieces (R66) -/
  part  : BitVec 64
  latch : Option (BitVec 3)
  w     : BitVec 3
  /-- issued in trap mode (R133) -/
  trap  : Bool
  deriving DecidableEq, Repr

/-- A group of 96 lanes (R136 to R151). A management core is a group that runs in supervisor mode (R10, R314). -/
structure Group where
  die    : Nat
  core   : Nat
  quad   : Nat
  gslot  : Nat
  tenant : Nat
  sup    : Bool
  grid   : Nat
  /-- key of its team; none for a gathered group or a management core -/
  team   : Option Nat
  teamNo : Word32
  index  : Word32
  role   : Nat
  lcore  : Nat
  born   : Nat
  prio   : Nat
  weight : Nat
  halted : Bool
  /-- stopped for a save (R285), and a save that has found no slot (R284) -/
  saving : Bool
  stalled : Bool
  /-- of a gathered group that is saved while it waits: the bytes that it waits on (R152) -/
  watch : Option (List (Nat × Byte))
  /-- its tables are being loaded after a restore (R209) -/
  bindWait : Bool
  lidx   : Lanes (BitVec 128)
  retiredIdx : Mask
  h      : Nat
  evicted : Bool
  slices : Lanes SliceFile
  k      : UniformFile
  preds  : Vector Mask 7
  g      : BitVec 7
  latches : Lanes (BitVec 512)
  latchW : BitVec 24
  /-- slices 480 to 511 and k144 to k151 of the bank that names do not reach now: the trap bank outside trap mode, the
  interrupted registers in it (R133) -/
  shadowSl : Lanes (BitVec 128)
  shadowK : BitVec 256
  trapMode : Bool
  frame  : Option Frame
  treg   : TrapRegs
  utrap  : Addr
  s0     : Slot
  s1     : Slot
  /-- true when S1 issued less recently (R141) -/
  lastS0 : Bool
  /-- clauses since the last rotation, and whose turn is next (R149) -/
  rotCount : Nat
  rotTurn : Bool
  stack  : List Reconv
  c      : Vector Nat 3
  fpctl  : Word32
  fpflags : Word32
  srstrm : BitVec 24
  srctr  : Lanes Word32
  cdepth : Lanes (BitVec 13)
  spawns : Lanes Word32
  lpbase : Addr
  late   : List Late
  efa    : Addr
  efh    : Word32
  callhi : Word32
  callh  : Word64
  callg  : Word64
  /-- the bound bank of tables: bank and generation (R208) -/
  bank   : Bool
  bankGen : Nat
  tsrc   : Vector (Option (Addr × Space)) 4
  agkey  : BitVec 128
  det    : Bool
  region : Option Region
  digest : Lanes (BitVec 128)
  effects : Lanes (List Effect)
  /-- the tasks of a gathered group, by lane (R150, R294) -/
  tasks  : List Task
  /-- a digest replay of the lane is in progress (R294) -/
  replayed : Mask
  /-- a transfer that the device makes for the whole group has stopped on a page fault: the die and number of its record
  (R52) -/
  parkedAll : Option (Nat × Word32)
  /-- transfers of stack entries that are still to make: the entry, and whether it is written (R147) -/
  owed : List (Nat × Bool)
  /-- cycle since which both slots of a gathered group are blocked (R152) -/
  blockedAt : Option Nat
  deriving DecidableEq, Repr

/-! ### Teams, grids, tasks -/

/-- A barrier (R174). -/
structure Barrier where
  phase : Bool
  arrivals : Nat
  /-- expected count, fixed by the phase's first arrival; 0 with `all` set for every unretired group -/
  expected : Nat
  all : Bool
  deriving DecidableEq, Repr

/-- A placed team (R138). -/
structure Team where
  grid : Nat
  num : Nat
  die : Nat
  clu : Nat
  groups : List Nat
  roles : Nat
  /-- first byte of the team's range in each core's scratchpad, and its size (R42, R56) -/
  scBase : List Nat
  scSize : Nat
  bars : Vector Barrier 16
  ctx : Option Nat
  placedAt : Nat
  deriving DecidableEq, Repr

/-- A dependence token (R263). -/
structure Token where
  addr : Addr
  signal : Bool
  target : Word32
  deriving DecidableEq, Repr

/-- A launch record with its argument words, as the grid queue keeps it (R263, R264). -/
structure LaunchRec where
  entry : Addr
  roles : Nat
  cls : Nat
  prio : Nat
  det : Bool
  hard : Bool
  groups : Nat
  teams : Nat
  budgets : List Nat
  taskBudget : Nat
  scratch : Nat
  dscratch : Nat
  args : List Word32
  tokens : List Token
  deriving DecidableEq, Repr

/-- Where an effect comes from: the lane's group as it was. -/
structure Source where
  gid : Nat
  lane : Nat
  die : Nat
  core : Nat
  tenant : Nat
  grid : Nat
  team : Option Nat
  sup : Bool
  lpbase : Addr
  pc : Addr
  /-- its logical core (R293) -/
  lcore : Nat
  deriving DecidableEq, Repr

/-- A retired index with its digest and what a replay needs (R294). -/
structure Retiree where
  idx : BitVec 128
  digest : BitVec 128
  task : Option Task
  src : Source
  effects : List Effect
  escaped : Bool
  deriving DecidableEq, Repr

structure LateEffect where
  src : Source
  eff : Effect
  /-- the index whose effect it is (R116) -/
  idx : BitVec 128
  /-- an effect on another module: the number of its flit, and whether it has been acknowledged (R109) -/
  flit : Option (Nat × Bool)
  deriving DecidableEq, Repr

/-- A grid in a die's queue (R265, R266). -/
structure Grid where
  num : Word32
  die : Nat
  tenant : Nat
  record : LaunchRec
  eligible : Bool
  /-- tokens whose read, or whose add, has not translated and waits for a replay, with the numbers of the records (R265, R266) -/
  tokenStops : List (Nat × Word32)
  waitSince : Nat
  ds : Option Nat
  placed : Nat
  ended : Nat
  /-- every group that the grid has had -/
  gids : List Nat
  /-- tasks pushed and not ended (R266) -/
  tasks : Nat
  /-- the floor as the home slices know it: none when every index has retired (R73, R116) -/
  floor : Option (BitVec 128)
  /-- team lanes below `low` have all retired, those of `retired` have too; tasks that have not retired (R73, R270) -/
  low : Nat
  retired : List Nat
  liveTasks : List (BitVec 128)
  /-- the Spinel table's words as the grid found them (R293) -/
  spinel : List Word32
  /-- retired indices whose digests the floor has not passed (R294) -/
  digests : List Retiree
  /-- effects that an index's retirement has released and a full ring still holds back (R292) -/
  late : List LateEffect
  /-- the index whose task runs again alone (R294) -/
  again : Option Retiree
  /-- its signal tokens that have had their add at its completion (R266) -/
  signalled : Nat
  deriving DecidableEq, Repr

/-- A logical core's deque (R273) and its steal state (R275, R276). -/
structure Deque where
  tasks : List Task
  /-- number of the entry after the last: the entries are numbered as they are appended -/
  tail : Nat
  version : Nat
  /-- versions of other deques that this thief has seen -/
  seen : List (Nat × Nat)
  /-- presented versions at which a request in deterministic mode has been served (R276) -/
  served : List Nat
  deriving DecidableEq, Repr

/-- A thief's round: victims still to ask, the request in flight with the version it presents, and the cycle at which
an empty round began to wait, with the number of pushes that its die had seen (R275). -/
structure Thief where
  left : List Nat
  req : Option (Nat × Nat)
  arrivedAt : Nat
  emptyAt : Option (Nat × Nat)
  deriving DecidableEq, Repr

/-! ### Memory system -/

/-- Whose a store is, as far as the memory system needs it: the number that it waits under; the group and lanes to whose
program order it belongs, or the engine agent that made it, with the group that started it (R86, R110); the core that issued
it; its tenant and its cache policy. -/
structure Writer where
  id : Nat
  gid : Nat
  agents : Mask
  /-- number of the program, copy or stepper run -/
  eng : Option Nat
  /-- its class of R92: none where no fence orders it -/
  cls : BitVec 4
  die : Nat
  core : Nat
  tenant : Nat
  pol : BitVec 2
  deriving DecidableEq, Repr

/-- A store of one lane, or a piece of one (R66), on its way to its point of coherence (R95, R100). -/
structure StoreRec where
  id : Nat
  /-- number of the instruction -/
  parent : Nat
  gid : Nat
  agents : Mask
  die : Nat
  core : Nat
  tenant : Nat
  space : Space
  pol : BitVec 2
  keys : List Nat
  bytes : List Byte
  /-- the slot that issued it, in trap mode or not, and the address that it names (R299) -/
  s1 : Bool
  trap : Bool
  va : Addr
  ctr : BitVec 2
  /-- lines for which its instruction holds a miss-status entry while it is outstanding, and those of them whose entry is of
  the reserve (R63, R64) -/
  mse : List Nat
  reserve : List Nat
  deriving DecidableEq, Repr

/-- A load or atomic of one lane, or one for the whole group, that has issued and not completed (R63, R85); Group.late holds
what its completion writes. -/
structure Acc where
  id : Nat
  /-- number of the instruction -/
  parent : Nat
  gid : Nat
  agents : Mask
  die : Nat
  core : Nat
  tenant : Nat
  op : MemOp
  space : Space
  w : BitVec 3
  pol : BitVec 2
  keys : List Nat
  /-- first bit of the element that it loads (R66) -/
  off : Nat
  data : BitVec 64
  data2 : BitVec 64
  ctr : BitVec 2
  mse : List Nat
  reserve : List Nat
  /-- bytes that another lane of its instruction has loaded (R68) -/
  got : List (Nat × Byte)
  /-- an ordered atomic: in the Ordered-Atomic Buffer of its slice; or rejected there, with its age (R64, R74) -/
  admitted : Bool
  /-- admitted into the buffer's reserved entry (R74) -/
  inReserve : Bool
  rejected : Bool
  age : Nat
  /-- logical index of the lane (R73) -/
  idx : BitVec 128
  grid : Nat
  /-- the slot that issued it, in trap mode or not, and the address that it names (R299) -/
  s1 : Bool
  trap : Bool
  va : Addr
  deriving DecidableEq, Repr

/-- A fence whose successors still wait: `waits` are the accesses of its predecessor set, upon which its counter falls (R75,
R95); `more` are what its successors wait for beside them (R102, R107). -/
structure FenceRec where
  id : Nat
  gid : Nat
  lanes : Mask
  succ : BitVec 4
  scope : BitVec 3
  waits : List Nat
  more : List Nat
  /-- its counter has fallen -/
  counted : Bool
  ctr : BitVec 2
  /-- the slot, in trap mode or not, whose word is over with it (R258) -/
  ends : Option (Bool × Bool)
  deriving DecidableEq, Repr

/-- A lane of a gathered group whose accesses still wait for those before its task's spawn (R310). -/
structure Follower where
  gid : Nat
  lanes : Mask
  prior : Prior
  deriving DecidableEq, Repr

/-- A sys.tlbinv that has not completed (R49, R315): the writes it orders, the range of its tenant, and its die, none for the
whole module. -/
structure TlbInv where
  fence : FenceRec
  tenant : Nat
  lo : Nat
  log : Nat
  die : Option Nat
  deriving DecidableEq, Repr

/-- A lazy operation whose result is settled and not yet written (R221, R281). -/
structure LazyOp where
  id : Nat
  gid : Nat
  s1 : Bool
  instr : Instr
  lanes : Mask
  /-- outcome or rounded value by lane -/
  vals : Lanes (BitVec 64)
  view : BitVec 3
  views : Lanes (BitVec 256)
  /-- flags by lane (R217) -/
  flags : Lanes (BitVec 6)
  /-- the latch that an lzval or srnd writes -/
  latch : BitVec 3
  /-- the slot waits at the word for the trap that completion may take (R281) -/
  hold : Bool
  ctr : BitVec 2
  trap : Bool
  deriving DecidableEq, Repr

/-- A line in a core's L1 (R55, R58). -/
structure L1Line where
  line : Nat
  way : Nat
  valid : BitVec 4
  dirty : BitVec 4
  data : BitVec 1024
  tenant : Nat
  lp : Bool
  /-- the group and lanes whose lane-private stores are in its dirty sectors -/
  owner : Nat × Mask
  stamp : Nat
  deriving DecidableEq, Repr

/-- A line in its home L2 slice (R60, R320). `mask` names the bytes that stores have put there and no write-back has taken to
memory; every other byte of a valid sector holds what memory holds. -/
structure L2Line where
  line : Nat
  die : Nat
  slice : Nat
  way : Nat
  valid : BitVec 4
  dirty : BitVec 4
  mask : BitVec 128
  data : BitVec 1024
  tenant : Nat
  kept : Bool
  /-- bytes that other accesses than .keep have rewritten since it was marked kept (R59) -/
  rewritten : BitVec 128
  stamp : Nat
  deriving DecidableEq, Repr

/-- A lease on a line, and the copy of it in the L2 of the die that holds it (R61, R105). -/
structure Lease where
  line : Nat
  die : Nat
  expiry : Nat
  /-- the die still holds its copy -/
  copy : Bool
  data : BitVec 1024
  slice : Nat
  way : Nat
  tenant : Nat
  kept : Bool
  stamp : Nat
  deriving DecidableEq, Repr

/-- A store that has performed at its home die and not yet at .mod (R106): what other dies still read. -/
structure Held where
  w : Writer
  line : Nat
  die : Nat
  old : List (Nat × Byte)
  until_ : Nat
  /-- groups and lanes that have read it at its home, with the class of the access that did (R97) -/
  readers : List (Nat × Mask × BitVec 4)
  deriving DecidableEq, Repr

/-- A cached translation (R48, R50). -/
structure TlbEntry where
  tenant : Nat
  base : Nat
  log2 : Nat
  phys : Nat
  perms : BitVec 4
  dirty : Bool
  /-- where the leaf lies and the low word that the walker read (R50) -/
  pte : Nat
  low : Word64
  deriving DecidableEq, Repr

/-- Who holds a range lock (R69, R113). -/
inductive LockOwner where
  | copy (id : Nat)
  | step (ctx : Nat)
  deriving DecidableEq, Repr

/-- An entry of a Range-Lock Table (R69); a stepper's entry has a part open to loads and a part lifted while a call is
outstanding (R115). -/
structure Lock where
  owner : LockOwner
  tenant : Nat
  space : Space
  lo : Nat
  len : Nat
  write : Bool
  deriving DecidableEq, Repr

/-- A fault record of a die's memory fault queue (R53). -/
structure FaultRec where
  addr : Addr
  cause : BitVec 8
  kind : BitVec 8
  tenant : Nat
  core : Nat
  place : BitVec 8
  mask : Mask
  seq : Word32
  deriving DecidableEq, Repr

/-! ### Engines -/

/-- A program on a matrix sequencer (0), Copy Engine (1) or Collective Engine (2) (R296, R297). -/
structure Prog where
  eng : Nat
  die : Nat
  core : Nat
  quad : Nat
  gid : Nat
  s1 : Bool
  team : Option Nat
  grid : Nat
  tenant : Nat
  handle : Word32
  pc : Addr
  header : Addr
  left : Nat
  s : Vector Addr 16
  running : Bool
  /-- send has been executed (R298) -/
  sent : Bool
  ended : Bool
  status : Word32
  ctr : BitVec 2
  /-- a translation failed: the die and number of its record (R300) -/
  stopped : Option (Nat × Word32)
  stopVa : Addr
  /-- forked in trap mode (R299) -/
  trap : Bool
  /-- the fork's earlier accesses that must perform before it starts (R111) -/
  after : List Nat
  /-- quadrant and slots of the fork, as a fault record names them (R53, R300) -/
  place : BitVec 8
  deriving DecidableEq, Repr

/-- What a copy operation moves (R76, R304 to R308). -/
inductive CopyKind where
  | block (rows spitch dpitch : Nat)
  | gather | scatter
  | acc (tile row quad pitch : Nat)
  | fill (v : BitVec 64)
  | coll (op scope : BitVec 3) (tag : Word32) (parts kind root : Nat)
  deriving DecidableEq, Repr

/-- An engine operation or cpy that has issued and not completed (R303). -/
structure CopyOp where
  id : Nat
  /-- the program, or none for a cpy -/
  pid : Option Nat
  gid : Nat
  s1 : Bool
  die : Nat
  core : Nat
  tenant : Nat
  team : Option Nat
  grid : Nat
  sup : Bool
  kind : CopyKind
  w : BitVec 3
  count : Nat
  dst : Addr
  dspace : Space
  src : Addr
  sspace : Space
  /-- address of the index list, and the indices once they have been read (R305) -/
  idx : Addr
  idxs : Option (List Nat)
  pol : BitVec 2
  ctr : BitVec 2
  cont : Bool
  /-- rows of an accumulator tile that a drain has read (R114) -/
  rows : List (BitVec 3072)
  /-- what it writes, element by element, once every source has been read (R76, R304) -/
  data : Option (List (List Byte))
  /-- elements that it has written (R300) -/
  wrote : Nat
  /-- its bytes have been written, and it waits until they have performed (R112) -/
  moved : Bool
  /-- a translation failed: the die and number of its record (R300) -/
  stopped : Option (Nat × Word32)
  stopVa : Addr
  trap : Bool
  /-- accesses of the issuing slot that must perform first (R111) -/
  after : List Nat
  /-- quadrant and slots of the fork or cpy (R300) -/
  place : BitVec 8
  deriving DecidableEq, Repr

/-- An engine fault recorded and not delivered (R299). -/
structure EngineFault where
  gid : Nat
  s1 : Bool
  detail : BitVec 8
  addr : Addr
  handle : Word32
  ctr : BitVec 2
  cont : Bool
  /-- the fork or cpy was issued in trap mode -/
  trap : Bool
  /-- where the fork or cpy was issued, for a record after the group has retired -/
  die : Nat
  core : Nat
  tenant : Nat
  place : BitVec 8
  deriving DecidableEq, Repr

/-- An A-staging tile (R223). -/
structure Staging where
  rows : Tab (BitVec 1024)
  scales : Tab (BitVec 256)
  band : BitVec 16
  dataFill : BitVec 64
  scaleFill : BitVec 64
  bandFed : Bool
  word : Option Word32
  deriving DecidableEq, Repr

/-- An accumulator tile (R223): row r as 96 words of 32 bits. -/
structure AccTile where
  rows : Tab (BitVec 3072)
  watermark : Nat
  issued : BitVec 16
  deriving DecidableEq, Repr

/-- An operation of the matrix unit (R231). -/
inductive MxKind where
  | mma (fmt : BitVec 4) (word : Word32) (b c : Addr) (n : Nat) (rows : Tab (BitVec 1024)) (scales : Tab (BitVec 256)) (band : BitVec 16)
  | zero
  | bscale (f : List Word32)
  deriving DecidableEq, Repr

structure MxOp where
  kind : MxKind
  tile : Nat
  /-- row groups already finished -/
  group : Nat
  team : Nat
  deriving DecidableEq, Repr

/-- A matrix operation that the sequencer has reached and the unit has not started (R231). -/
structure MxWait where
  pid : Nat
  instr : Instr
  deriving DecidableEq, Repr

/-- The matrix unit of a quadrant (R223, R224). -/
structure MxUnit where
  holder : Option Nat
  staging : Vector Staging 4
  acc : Vector AccTile 8
  /-- operand latch: staging tile and format (R234) -/
  latch : Option (Nat × BitVec 4)
  op : Option MxOp
  next : Option MxWait
  deriving DecidableEq, Repr

/-- A function table (R206): the 2,052 words of its image, none listed where it was never loaded, and the source it was
last loaded from (R209). -/
structure Table where
  words : List Word32
  src : Option (Addr × Space)
  deriving DecidableEq, Repr

/-- A tbld that waits for its image (R208). -/
structure TblWait where
  gid : Nat
  s1 : Bool
  mask : BitVec 4
  space : Space
  addr : Addr
  ctr : BitVec 2
  /-- the lanes to whose program order the loads belong (R71), and whether the word was issued in trap mode -/
  agents : Mask
  trap : Bool
  /-- the four sources of a restored group, instead of the mask and the address (R209) -/
  srcs : Option (Vector (Option (Addr × Space)) 4)
  deriving DecidableEq, Repr

/-- A blocked claim: its group and slot, the units that it asks for, and whether it was issued in trap mode (R130). -/
structure Claim where
  gid : Nat
  s1 : Bool
  units : Nat
  trap : Bool
  deriving DecidableEq, Repr

/-- A quadrant (R271, R130, R208). -/
structure Quad where
  /-- the slot that issued the last clause, and whether it may keep the port (R271) -/
  last : Option (Nat × Bool)
  keep : Bool
  /-- that slot has not stopped inside its clause since (R11) -/
  holds : Bool
  /-- blocked claims, oldest first -/
  claims : List Claim
  /-- units tagged by give.role: team, role, count, cycle of expiry -/
  tags : List (Nat × Nat × Nat × Nat)
  tables : Vector (Vector Table 4) 2
  bank : Bool
  gen : Nat
  loads : List TblWait
  mx : MxUnit
  deriving DecidableEq, Repr

/-- A core (R55, R58, R63, R69, R268). -/
structure CoreSt where
  carve : Nat
  carveTo : Option Nat
  /-- the group whose sys.carve is in progress, and its counter (R57, R315) -/
  carveBy : Option (Nat × BitVec 2)
  rlt : List Lock
  l1 : List L1Line
  tlb : List TlbEntry
  ecbud : BitVec 16
  /-- fork sequences of the four matrix sequencers and of the Copy Engine (R297) -/
  seqs : Vector (BitVec 16) 5
  thief : Thief
  /-- the logical core from which its Task Gatherer last formed a group (R293) -/
  tgaLast : Option Nat
  deriving DecidableEq, Repr

/-- A way sweep of an L2 slice (R320). -/
structure Sweep where
  slice : Nat
  way : Nat
  tenant : Nat
  deriving DecidableEq, Repr

/-- A die. -/
structure Die where
  leaselen : BitVec 4
  quantum : BitVec 24
  dqbase : Addr
  mfqbase : Addr
  mfqhead : BitVec 12
  mfqtail : BitVec 12
  mfqSeq : Word32
  mfqWait : List FaultRec
  partbase : Addr
  /-- where the die's own partition table lies: the base under which it was last applied (R314, R317; log entry 19) -/
  partTable : Addr
  partbusy : Bool
  parterror : Bool
  partcmd : BitVec 10
  quadOwner : Tab (BitVec 8)
  quadNext : Tab (BitVec 8)
  bankOwner : Tab (BitVec 8)
  bankNext : Tab (BitVec 8)
  ways : Tab (BitVec 24)
  shared : Tab (BitVec 24)
  buckets : Tab (BitVec 64)
  coeffs : Vector Word32 8
  coeffsNext : Vector Word32 8
  sweeps : List Sweep
  tokens : Tab Nat
  /-- windows of 1 µs whose buckets have been refilled, and whose activity has been accounted (R322) -/
  window : Nat
  accounted : Nat
  tlb : List TlbEntry
  reserveBase : Nat
  reserveSize : Nat
  queue : List Nat
  counter : BitVec 27
  cleSeq : BitVec 16
  polledAt : Nat
  /-- pushes onto the deques of its logical cores (R275) -/
  pushes : Nat
  /-- a time slice in progress: the team that is saved, and the grid of the team that takes its room, with that team's number where it is a
  saved one (R269) -/
  slicing : Option (Nat × Nat × Option Nat)
  deriving DecidableEq, Repr

/-- A tenant. -/
structure Tenant where
  agkey : BitVec 128
  ptroot : BitVec 56
  csabase : Addr
  csasize : BitVec 16
  csacount : BitVec 16
  dgmode : BitVec 2
  dglog : Addr
  /-- entries of the log that the device has written or compared (log entry 47) -/
  dgpos : Nat
  debug : Bool
  inSlice : Bool
  drainAt : Option Nat
  deriving DecidableEq, Repr

/-! ### The tableau stepper -/

/-- A loaded tableau (R240). -/
structure Tableau where
  s : Nat
  kind : Nat
  p : Nat
  q : Nat
  d : Nat
  fsal : Bool
  c : List Word64
  a : List Word64
  ai : List Word64
  b : List Word64
  bh : List Word64
  beta : List Word64
  deriving DecidableEq, Repr

/-- A binding (R242, R243). -/
structure Binding where
  state : Addr
  space : Space
  fp32 : Bool
  n : Nat
  deriv : Addr
  input : Addr
  work : Addr
  event : Addr
  atol : Word64
  rtol : Word64
  m : Nat
  role : Nat
  deriving DecidableEq, Repr

/-- A combination of the step (R245, R254, R257, R260). -/
inductive StepOp where
  | fsal
  | input (i : Nat)
  | zero (i : Nat)
  | newtonInput (i m : Nat)
  | residual (i m : Nat)
  | update (i m : Nat)
  | slot (i : Nat)
  | implInput (i : Nat)
  | candidate
  | accept
  | trial (th : Word64)
  | truncate (th : Word64)
  deriving DecidableEq, Repr

/-- A call of the step (R249). -/
inductive StepCall where
  | rhs (i part m : Nat)
  | solve (i m : Nat)
  | eventRef
  | eventCand
  | eventTrial (th : Word64)
  deriving DecidableEq, Repr

/-- Where a running context stands: a combination in flight, a call to deliver, or a call outstanding. -/
inductive StepPhase where
  | off
  | comb (o : StepOp)
  | call (c : StepCall)
  | out (c : StepCall)
  deriving DecidableEq, Repr

inductive StepState where
  | idle | running | stopped
  deriving DecidableEq, Repr

/-- A retained step (R257). -/
structure Retained where
  ts : Word64
  hs : Word64
  tEnd : Word64
  thetaMax : Word64
  deriving DecidableEq, Repr

/-- The search for an event's root (R260): weights are powers of two, by the count of halvings. -/
structure Illinois where
  ta : Word64
  tb : Word64
  ga : List Word64
  gb : List Word64
  wa : Nat
  wb : Nat
  lastB : Option Bool
  trials : Nat
  deriving DecidableEq, Repr

/-- A context of a cluster's stepper (R238, R239). -/
structure StepCtx where
  team : Nat
  tenant : Nat
  /-- the number of the agent that it is, under which its stores wait (R110) -/
  agent : Nat
  st : StepState
  tab : Option Tableau
  bind : Option Binding
  status : BitVec 8
  event : BitVec 8
  accepted : Word32
  rejected : Word32
  /-- calls delivered in the run; the number of the outstanding call is one less (R249) -/
  calls : Word32
  limit : Word32
  t : Word64
  tEnd : Word64
  h : Word64
  hs : Word64
  /-- h before the attempt in progress (R261) -/
  hOld : Word64
  clamped : Bool
  /-- no attempt of the run has ended; the last attempt was rejected (R245) -/
  first : Bool
  prevRejected : Bool
  phase : StepPhase
  /-- groups of the outstanding call that have not done step.done; those that have not taken it (R250) -/
  owing : List Nat
  toTake : List Nat
  /-- accesses that must perform before a group counts as done (R115) -/
  settling : List Nat
  nrm : Option Word64
  gref : Option (List Word64)
  gnew : List Word64
  ill : Option Illinois
  retained : Option Retained
  /-- ranges that the outstanding call opens: its input to loads, its output to loads and stores (R115) -/
  openIn : Option (Addr × Nat)
  openOut : Option (Addr × Nat)
  stopReq : Bool
  /-- core, group and slot that started the run -/
  run : Option (Nat × Nat × Bool)
  /-- quadrant and slots of that step.run (R300) -/
  place : BitVec 8
  /-- a translation failed: the die and number of its record (R300) -/
  stopped : Option (Nat × Word32)
  deriving DecidableEq, Repr

/-! ### Saved teams -/

/-- A saved team or gathered group (R285, R286): the slot of the save area that holds its record, and what the record's
layout leaves to the device. -/
structure Saved where
  key : Nat
  team : Option Team
  groups : List (Nat × Group)
  grid : Nat
  tenant : Nat
  die : Nat
  slotAddr : Addr
  ctx : Option StepCtx
  /-- matrix units by quadrant of the cluster, 4c + q -/
  units : List (Nat × MxUnit)
  /-- programs of its matrix sequencers, by number, with that quadrant -/
  progs : List (Nat × Nat × Prog)
  /-- tbld words that wait for their images -/
  loads : List TblWait
  waitSince : Nat
  /-- saved at the end of its tenant's slice (R283) -/
  drained : Bool
  /-- a gathered group saved because it was blocked: what its waits looked at, as it was (R152) -/
  watch : Option (List (Nat × Byte))
  /-- counters of its groups that fell while it was saved -/
  settled : List (Nat × BitVec 2)
  deriving DecidableEq, Repr

/-! ### Host, fabric, boot -/

/-- The Ulugal mailbox (R326). -/
structure Mailbox where
  winBase : BitVec 20
  go : Bool
  /-- the firmware has taken the command and not finished it -/
  taken : Bool
  command : BitVec 16
  args : Vector Word64 4
  done : Bool
  error : Bool
  result : BitVec 16
  cause : Word64
  mask : Word64
  /-- vectors that the mask holds back -/
  heldBack : Word64
  area : Tab Byte
  /-- vectors sent, in order -/
  vectors : List Nat
  deriving DecidableEq, Repr

/-- A posted write of the host that has arrived (R108); once it has performed at its home, the number that it waits under
until it has performed at .mod scope. -/
structure Posted where
  id : Option Nat
  addr : Nat
  bytes : List Byte
  deriving DecidableEq, Repr

/-- A store or atomic to a remote module in flight (R109, R327): an atomic's access stays in State.accs until it is
acknowledged. -/
structure Flit where
  id : Nat
  parent : Nat
  gid : Nat
  agents : Mask
  /-- the program or copy that made it -/
  eng : Option Nat
  die : Nat
  core : Nat
  tenant : Nat
  retries : Nat
  keys : List Nat
  bytes : List Byte
  s1 : Bool
  trap : Bool
  va : Addr
  ctr : BitVec 2
  mse : List Nat
  reserve : List Nat
  deriving DecidableEq, Repr

/-- The boot's progress (R329). -/
inductive BootPhase where
  | rom
  | images (n : Nat)
  | trained
  | diesUp
  | running
  | failed
  deriving DecidableEq, Repr

/-! ### Turns -/

/-- What comes about next where the manual leaves the order to timing (log entry 4): a step of the device, the next word
of an agent, or cycles in which nothing else happens. -/
inductive Turn where
  | ev (i : Instr)
  | go (a : Agent)
  | tick (n : Nat)
  deriving DecidableEq, Repr

/-- The whole module. -/
structure State where
  now : Word64
  mem : Memory
  l2 : List L2Line
  stores : List StoreRec
  accs : List Acc
  fences : List FenceRec
  followers : List Follower
  tlbinvs : List TlbInv
  lazies : List LazyOp
  leases : List Lease
  held : List Held
  posted : List Posted
  hostData : List (List Byte)
  flits : List Flit
  /-- values returned to other modules; stores and atomics of theirs that have performed at their home and not yet at .mod
  scope; those acknowledged (R109) -/
  remoteData : List (List Byte)
  remoteWait : List Nat
  remoteAcks : List Nat
  /-- the exported window: its first physical address and its size (R47) -/
  expBase : Nat
  expSize : Nat
  groups : Tab Group
  teams : Tab Team
  grids : Tab Grid
  saved : List Saved
  deques : Tab Deque
  progs : Tab Prog
  copies : List CopyOp
  efaults : List EngineFault
  ctxs : Tab StepCtx
  quads : Tab Quad
  cores : Tab CoreSt
  dies : Tab Die
  tenants : Tab Tenant
  spinbase : Addr
  mbox : Mailbox
  boot : BootPhase
  measured : Vector (BitVec 512) 4
  /-- images whose verification failed, as reported on the Ulugal port (R329) -/
  reports : List Nat
  tripped : Bool
  /-- ranges of the die scratchpad: die, first byte, length, grid (R62) -/
  dsAlloc : List (Nat × Nat × Nat × Nat)
  /-- the agent whose word is running (log entry 4) -/
  cur : Agent
  turns : List Turn
  /-- advances at each use of a free value (log entry 5) -/
  fresh : Nat
  /-- number of the next record (log entry 4) -/
  seqNo : Nat
  deriving DecidableEq, Repr

/-- How a run can stop. -/
inductive Fault where
  /-- A lane, uniform or sequencer word was executed while no agent that can issue it is named: raised by every meaning of
  such a word. Safe: the machine stops where the hardware has no such event. -/
  | noIssuer
  deriving DecidableEq, Repr

/-- Why a step is refused. -/
inductive Refusal where
  /-- The instruction has no meaning yet: raised by the dispatch alone. Safe: nothing can be proved of it. -/
  | notModelled (mnemonic : String)
  deriving DecidableEq, Repr

/-! ### Reset -/

def Slot.reset : Slot :=
  { pc := 0#80, header := 0#80, cls := 0#3, left := 0, pos := 0, fresh := 0#8, yld := false, back := false,
    owned := 0#96, mask := 0#96, unfinished := 0#96, redo := none, wait := .empty, age := 0, req := none, wctr := 0#2, capt := none, frames := [], feed := none,
    sleep := 0, readyAt := 0, arrived := [], clock := 0#64, rotated := false, afterJoin := false }

def Staging.reset : Staging :=
  { rows := [], scales := [], band := 0#16, dataFill := 0#64, scaleFill := 0#64, bandFed := false, word := none }

def AccTile.reset : AccTile := { rows := [], watermark := 64, issued := 0#16 }

/-- The values of R224, which the unit has when a team takes it. -/
def MxUnit.reset : MxUnit :=
  { holder := none, staging := Vector.replicate 4 Staging.reset, acc := Vector.replicate 8 AccTile.reset, latch := none,
    op := none, next := none }

def Quad.reset : Quad :=
  { last := none, keep := false, holds := false, claims := [], tags := [],
    tables := Vector.replicate 2 (Vector.replicate 4 { words := [], src := none }), bank := false, gen := 0, loads := [],
    mx := MxUnit.reset }

def Thief.reset : Thief := { left := [], req := none, arrivedAt := 0, emptyAt := none }

def CoreSt.reset : CoreSt :=
  { carve := 4, carveTo := none, carveBy := none, rlt := [], l1 := [], tlb := [], ecbud := 1024#16,
    seqs := Vector.replicate 5 0#16, thief := Thief.reset, tgaLast := none }

def Die.reset : Die :=
  { leaselen := 11#4, quantum := 4000#24, dqbase := 0#80, mfqbase := 0#80, mfqhead := 0#12, mfqtail := 0#12,
    mfqSeq := 0#32, mfqWait := [], partbase := 0#80, partTable := 0#80, partbusy := false, parterror := false, partcmd := 0#10,
    quadOwner := [], quadNext := [], bankOwner := [], bankNext := [], ways := [], shared := [], buckets := [],
    coeffs := Vector.replicate 8 0#32, coeffsNext := Vector.replicate 8 0#32, sweeps := [], tokens := [],
    window := 0, accounted := 0, tlb := [], reserveBase := 0, reserveSize := 0, queue := [], counter := 0#27,
    cleSeq := 0#16, polledAt := 0, pushes := 0, slicing := none }

def Tenant.reset : Tenant :=
  { agkey := 0#128, ptroot := 0#56, csabase := 0#80, csasize := 0#16, csacount := 0#16, dgmode := 0#2, dglog := 0#80, dgpos := 0,
    debug := false, inSlice := true, drainAt := none }

def Deque.reset : Deque := { tasks := [], tail := 0, version := 0, seen := [], served := [] }

def Mailbox.reset : Mailbox :=
  { winBase := 0#20, go := false, taken := false, command := 0#16, args := Vector.replicate 4 0#64, done := false, error := false,
    result := 0#16, cause := 0#64, mask := BitVec.allOnes 64, heldBack := 0#64, area := [], vectors := [] }

/-- The module right after reset. A quadrant, core, die, tenant, deque that a table does not list has the reset value
above; registers whose reset value the manual does not state are those of log entry 2. -/
def State.reset : State :=
  { now := 0#64, mem := [], l2 := [], stores := [], accs := [], fences := [], followers := [], tlbinvs := [], lazies := [], leases := [], held := [],
    posted := [], hostData := [], flits := [], remoteData := [], remoteWait := [], remoteAcks := [], expBase := 0, expSize := 0, groups := [], teams := [], grids := [], saved := [],
    deques := [], progs := [], copies := [], efaults := [], ctxs := [], quads := [], cores := [], dies := [],
    tenants := [], spinbase := 0#80, mbox := Mailbox.reset, boot := .rom, measured := Vector.replicate 4 0#512, reports := [],
    tripped := false, dsAlloc := [], cur := .none, turns := [], fresh := 0, seqNo := 0 }

end Sys2Proof.Machine
end

