-- ==== Sys2Proof/Machine/Bits.lean ====
section
/-! DEFINITION. Bit fields, lane masks, tables by number and bytes. -/

namespace Sys2Proof.Machine

/-! ### Fields of a wide value -/

/-- The `w` bits of `x` from bit `start` up. -/
def getField {n : Nat} (x : BitVec n) (start w : Nat) : BitVec w := x.extractLsb' start w

/-- `x` with the `w` bits from bit `start` replaced by `v`. -/
def setField {n w : Nat} (x : BitVec n) (start : Nat) (v : BitVec w) : BitVec n :=
  (x &&& ~~~((BitVec.allOnes w).setWidth n <<< start)) ||| (v.setWidth n <<< start)

/-- R124: zero-extension and sign-extension of a `w`-bit value. -/
def zext {w : Nat} (x : BitVec w) (n : Nat) : BitVec n := x.setWidth n

def sext {w : Nat} (x : BitVec w) (n : Nat) : BitVec n := x.signExtend n

def ext {w : Nat} (sg : Bool) (x : BitVec w) (n : Nat) : BitVec n := if sg then sext x n else zext x n

/-- The value of a W-bit pattern: two's complement for .s, unsigned otherwise (R155). -/
def val {w : Nat} (sg : Bool) (x : BitVec w) : Int := if sg then x.toInt else (x.toNat : Int)

/-! ### Lanes -/

abbrev Lane := Fin 96

def allLanes : List Lane := List.finRange 96

/-- The mask of the lanes for which `p` holds. -/
def maskOf (p : Lane → Bool) : Mask :=
  allLanes.foldr (fun i m => if p i then m ||| (1#96 <<< i.val) else m) 0#96

/-- The lanes of a mask, lowest first. -/
def lanesOf (m : Mask) : List Lane := allLanes.filter fun i => m.getLsbD i.val

/-- The lowest-numbered lane of a mask. -/
def lowest? (m : Mask) : Option Lane := allLanes.find? fun i => m.getLsbD i.val

def oneLane (l : Nat) : Mask := 1#96 <<< l

/-- A value for every lane: `f l` for the lanes of `m`, the old one elsewhere (R6). -/
def setLanes {α : Type} (v : Lanes α) (m : Mask) (f : Lane → α) : Lanes α :=
  Vector.ofFn fun l => if m.getLsbD l.val then f l else v[l]

def constLanes {α : Type} (a : α) : Lanes α := Vector.ofFn fun _ => a

def beatMask (b : Nat) : Mask := 0xFFFFFFFF#96 <<< (32 * b)

/-! ### Tables by number -/

def tget {α : Type} (t : Tab α) (k : Nat) : Option α :=
  match t with
  | [] => none
  | (k', v) :: r => if k' = k then some v else tget r k

def tset {α : Type} (t : Tab α) (k : Nat) (v : α) : Tab α :=
  match t with
  | [] => [(k, v)]
  | (k', v') :: r =>
    if k < k' then (k, v) :: (k', v') :: r
    else if k = k' then (k, v) :: r
    else (k', v') :: tset r k v

def tdel {α : Type} (t : Tab α) (k : Nat) : Tab α := t.filter fun p => p.1 ≠ k

def tkeys {α : Type} (t : Tab α) : List Nat := t.map Prod.fst

/-! ### Bytes -/

/-- The bytes of a value, least significant first (R66). -/
def toBytes {w : Nat} (x : BitVec w) (n : Nat) : List Byte :=
  (List.range n).map fun i => x.extractLsb' (8 * i) 8

/-- The number that a list of bytes holds, least significant first. -/
def natOfBytes : List Byte → Nat
  | [] => 0
  | b :: r => b.toNat + 256 * natOfBytes r

def ofBytes (bs : List Byte) (w : Nat) : BitVec w := BitVec.ofNat w (natOfBytes bs)

def natBytes (x n : Nat) : List Byte := (List.range n).map fun i => BitVec.ofNat 8 (x / 256 ^ i)

/-! ### Lists -/

/-- The numbers from `a` up, `n` of them. -/
def upFrom (a n : Nat) : List Nat := (List.range n).map (a + ·)

def setNth {α : Type} (l : List α) (i : Nat) (v : α) : List α := l.set i v

def insertSorted (x : Nat) : List Nat → List Nat
  | [] => [x]
  | y :: r => if x < y then x :: y :: r else if x = y then y :: r else y :: insertSorted x r

end Sys2Proof.Machine
end

