-- ==== Sys2Proof/Machine/Formats.lean ====
section
/-! DEFINITION. The number formats, and the one rounding of an exact value into a format (R177 to R185). -/

namespace Sys2Proof.Machine

/-- The floating-point formats in the order of R199. -/
inductive Format where
  | f64 | f32 | f16 | bf16 | e5m2 | e4m3 | e2m1 | e3m5
  deriving DecidableEq, Repr

def Format.ofCode (c : BitVec 3) : Format :=
  match c.toNat with
  | 0 => .f64 | 1 => .f32 | 2 => .f16 | 3 => .bf16 | 4 => .e5m2 | 5 => .e4m3 | 6 => .e2m1 | _ => .e3m5

/-- The format that a width code selects in opcodes 0x20 to 0x30 (R13). -/
def Format.ofW (w : BitVec 3) : Format :=
  match w.toNat with
  | 2 => .bf16 | 3 => .f16 | 5 => .f32 | _ => .f64

/-- Exponent bits, bias, mantissa bits (R177). -/
def Format.eBits : Format → Nat
  | .f64 => 11 | .f32 => 8 | .f16 => 5 | .bf16 => 8 | .e5m2 => 5 | .e4m3 => 4 | .e2m1 => 2 | .e3m5 => 3

def Format.bias : Format → Int
  | .f64 => 1023 | .f32 => 127 | .f16 => 15 | .bf16 => 127 | .e5m2 => 15 | .e4m3 => 7 | .e2m1 => 1 | .e3m5 => 3

def Format.mBits : Format → Nat
  | .f64 => 52 | .f32 => 23 | .f16 => 10 | .bf16 => 7 | .e5m2 => 2 | .e4m3 => 3 | .e2m1 => 1 | .e3m5 => 5

def Format.hasInf : Format → Bool
  | .e4m3 | .e2m1 | .e3m5 => false
  | _ => true

def Format.signed : Format → Bool
  | .e3m5 => false
  | _ => true

/-- Formats to which flush applies (R187). -/
def Format.wide : Format → Bool
  | .f64 | .f32 | .f16 | .bf16 => true
  | _ => false

/-- Bits below the sign. -/
def Format.body (f : Format) : Nat := f.eBits + f.mBits

def Format.bits (f : Format) : Nat := f.body + (if f.signed then 1 else 0)

/-- The least exponent of a normal value (R177). -/
def Format.eMin (f : Format) : Int := 1 - f.bias

/-- The code of the largest finite magnitude (R177). -/
def Format.maxCode (f : Format) : Nat :=
  match f with
  | .e4m3 => 0x7E | .e2m1 => 7 | .e3m5 => 0xFF
  | _ => (2 ^ f.eBits - 1) * 2 ^ f.mBits - 1

/-- The canonical NaN (R184, R185); the formats without one give zero. -/
def Format.canonNaN : Format → Nat
  | .f64 => 0x7FF8000000000000 | .f32 => 0x7FC00000 | .f16 => 0x7E00 | .bf16 => 0x7FC0 | .e5m2 => 0x7E | .e4m3 => 0x7F
  | .e2m1 => 0 | .e3m5 => 0

/-- The code of +∞, for a format that has it. -/
def Format.infCode (f : Format) : Nat := (2 ^ f.eBits - 1) * 2 ^ f.mBits

def pow2 (e : Int) : Rat := if e ≥ 0 then (2 ^ e.toNat : Nat) else mkRat 1 (2 ^ (-e).toNat)

/-- A value read from its bits: the sign of a zero is kept. -/
inductive FVal where
  | nan (sig : Bool)
  | inf (neg : Bool)
  | fin (neg : Bool) (mag : Rat)
  deriving DecidableEq, Repr

/-- The magnitude of a code without its sign bit (R177 to R179). -/
def Format.magOf (f : Format) (c : Nat) : Rat :=
  let e := c / 2 ^ f.mBits
  let m := c % 2 ^ f.mBits
  if e = 0 then (m : Rat) * pow2 (f.eMin - f.mBits)
  else ((2 ^ f.mBits + m : Nat) : Rat) * pow2 (e - f.bias - f.mBits)

def Format.maxMag (f : Format) : Rat := f.magOf f.maxCode

/-- The value of a bit pattern (R177 to R179). -/
def decodeF (f : Format) (x : Nat) : FVal :=
  let c := x % 2 ^ f.body
  let neg := f.signed && x / 2 ^ f.body % 2 = 1
  match f with
  | .e4m3 => if c = 0x7F then .nan false else .fin neg (f.magOf c)
  | .e2m1 | .e3m5 => .fin neg (f.magOf c)
  | _ =>
    if c / 2 ^ f.mBits = 2 ^ f.eBits - 1 then
      let m := c % 2 ^ f.mBits
      if m = 0 then .inf neg else .nan (m < 2 ^ (f.mBits - 1))
    else .fin neg (f.magOf c)

/-- The bits of a sign and a code. -/
def packF (f : Format) (neg : Bool) (c : Nat) : Nat := if neg && f.signed then 2 ^ f.body + c else c

/-! ### Flags -/

/-- Flags in the bit order of sr.fpflags (R186). -/
abbrev FFlags := BitVec 6

def fNone : FFlags := 0#6
def fNv : FFlags := 1#6
def fDz : FFlags := 2#6
def fOf : FFlags := 4#6
def fUf : FFlags := 8#6
def fNx : FFlags := 16#6
def fLzx : FFlags := 32#6

/-! ### Exact results -/

/-- An exact real result: `more` says that the magnitude lies above `q` by less than any format can tell apart
(an irrational result, found from below). -/
inductive Exact where
  | nan
  | inf (neg : Bool)
  | real (neg : Bool) (q : Rat) (more : Bool)
  deriving DecidableEq, Repr

/-- Rounding modes by name (R17). -/
inductive RMode where
  | rne | rz | ru | rd | sr
  deriving DecidableEq, Repr

def RMode.ofCode (c : BitVec 3) : RMode :=
  match c.toNat with
  | 2 => .rz | 3 => .ru | 4 => .rd | 5 => .sr | _ => .rne

/-- The integer k with 2^k ≤ q < 2^(k+1), for q > 0. -/
def ilog2 (q : Rat) : Int :=
  let k : Int := (Nat.log2 q.num.toNat : Int) - (Nat.log2 q.den : Int)
  if q < pow2 k then k - 1 else k

/-- The decision of a lazy comparison u < x, for x in (0, 1): the digits of x against digit i of the value (R217). Gives the
outcome, whether it stayed undecided at 64 digits, and the number of digits examined. A threshold that ends with its 64th digit stays
undecided where all digits agree, as the loop of R217 has it (log entry 58). -/
def lzDecide (d : Nat → Nat) (more : Bool) (i : Nat) (x : Rat) : Nat → Bool × Bool × Nat
  | 0 => (false, true, i)
  | fuel + 1 =>
    if x = 0 ∧ !more then (false, false, i)
    else
      let y := x * 16
      let xi := y.floor.toNat
      if d i < xi then (true, false, i + 1)
      else if xi < d i then (false, false, i + 1)
      else lzDecide d more (i + 1) (y - xi) fuel

/-- What a stochastic rounding asks: is u < f (R183)? -/
abbrev Oracle := Rat → Bool → Bool × Bool × Nat

/-- Does the magnitude go up from the lower neighbour? `n` is the lower neighbour in units, `fr` the rest. -/
def roundUp? (m : RMode) (neg : Bool) (n : Nat) (fr : Rat) (more : Bool) (o : Oracle) : Bool × Bool :=
  if fr = 0 ∧ !more then (false, false)
  else
    match m with
    | .rne => (decide (fr > 1 / 2) || (decide (fr = 1 / 2) && (more || n % 2 = 1)), false)
    | .rz => (false, false)
    | .ru => (!neg, false)
    | .rd => (neg, false)
    | .sr => let r := o fr more; (r.1, r.2.1)

/-- The magnitude rounded at a fixed exponent: units of 2^t. -/
def roundAt (m : RMode) (neg : Bool) (q : Rat) (more : Bool) (t : Int) (o : Oracle) : Nat × Bool × Bool :=
  let sc := q / pow2 t
  let n := sc.floor.toNat
  let fr := sc - n
  let u := roundUp? m neg n fr more o
  (n + (if u.1 then 1 else 0), decide (fr ≠ 0) || more, u.2)

/-- A rounded result: its bits and the flags it raises. -/
structure Rounded where
  bits : Nat
  flags : FFlags
  deriving DecidableEq, Repr

/-- The code of a magnitude of `n` units of 2^t, where t = max(e, eMin) − mantissa bits. -/
def codeOf (f : Format) (n : Nat) (e : Int) : Nat :=
  if n < 2 ^ f.mBits then n else (e + f.bias).toNat * 2 ^ f.mBits + (n - 2 ^ f.mBits)

/-- The result of an overflow (R182): ±∞ or the largest finite value. -/
def overflowTo (f : Format) (m : RMode) (neg : Bool) : Nat :=
  let toMax := !f.hasInf || (match m with | .rz => true | .ru => neg | .rd => !neg | _ => false)
  packF f neg (if toMax then f.maxCode else f.infCode)

/-- round_F of a finite exact value (R182, R183, R184); `ftz` flushes a subnormal result of a wide format (R187). -/
def roundReal (f : Format) (m : RMode) (ftz : Bool) (neg : Bool) (q : Rat) (more : Bool) (o : Oracle) : Rounded :=
  if q = 0 ∧ !more then { bits := packF f neg 0, flags := fNone }
  else if neg && !f.signed then { bits := 0, flags := fNv }
  else
    let e0 : Int := if q = 0 then f.eMin - 4096 else ilog2 q
    let e := max e0 f.eMin
    let m := if m = .sr ∧ q > f.maxMag then .rne else m
    let r := roundAt m neg q more (e - f.mBits) o
    let inexact := r.2.1
    let lzx := if r.2.2 then fLzx else fNone
    let v : Rat := (r.1 : Rat) * pow2 (e - f.mBits)
    let nx := if inexact then fNx else fNone
    if v > f.maxMag ∨ (!f.hasInf ∧ q > f.maxMag) then { bits := overflowTo f m neg, flags := fOf ||| fNx }
    else
      let tiny : Bool :=
        match m with
        | .sr => decide (q < pow2 f.eMin)
        | _ =>
          let u := roundAt m neg q more (e0 - f.mBits) o
          decide ((u.1 : Rat) * pow2 (e0 - f.mBits) < pow2 f.eMin)
      let uf := if tiny && inexact then fUf else fNone
      if ftz && f.wide && decide (v < pow2 f.eMin) && decide (r.1 ≠ 0) then
        { bits := packF f neg 0, flags := fUf ||| fNx ||| lzx }
      else { bits := packF f neg (codeOf f r.1 e), flags := nx ||| uf ||| lzx }

/-- round_F of any exact result, for the instructions that write a wide format (R182, R185). -/
def roundTo (f : Format) (m : RMode) (ftz : Bool) (x : Exact) (o : Oracle) : Rounded :=
  match x with
  | .nan => { bits := f.canonNaN, flags := fNone }
  | .inf neg => { bits := packF f neg f.infCode, flags := fNone }
  | .real neg q more => roundReal f m ftz neg q more o

/-- An oracle for modes that are not stochastic. -/
def noOracle : Oracle := fun _ _ => (false, false, 0)

/-- round_rne without flush, as atomics, engines and the stepper round (R72, R189, R246). -/
def rneTo (f : Format) (x : Exact) : Nat := (roundTo f .rne false x noOracle).bits

/-! ### Reading inputs and exact operations -/

/-- An input under the flush rule (R187): a subnormal becomes a zero of its sign. -/
def flushIn (f : Format) (ftz : Bool) (v : FVal) : FVal :=
  match v with
  | .fin neg q => if ftz && f.wide && decide (q < pow2 f.eMin) then .fin neg 0 else v
  | _ => v

def FVal.isNaN : FVal → Bool | .nan _ => true | _ => false
def FVal.isSig : FVal → Bool | .nan s => s | _ => false
def FVal.isInf : FVal → Bool | .inf _ => true | _ => false
def FVal.neg? : FVal → Bool | .nan _ => false | .inf n => n | .fin n _ => n
def FVal.isZero : FVal → Bool | .fin _ q => q = 0 | _ => false

/-- The signed value of a finite number. -/
def FVal.real : FVal → Rat
  | .fin neg q => if neg then -q else q
  | _ => 0

def FVal.negate : FVal → FVal
  | .nan s => .nan s | .inf n => .inf (!n) | .fin n q => .fin (!n) q

/-- A signed rational as an exact result; a zero takes the given sign. -/
def exactOf (x : Rat) (zeroNeg : Bool) : Exact := if x = 0 then .real zeroNeg 0 false else .real (decide (x < 0)) x.abs false

/-- a + b (R182, R193): the sign of an exact zero sum. -/
def fAdd (m : RMode) (a b : FVal) : Exact × FFlags :=
  match a, b with
  | .nan s, y => (.nan, if s || y.isSig then fNv else fNone)
  | x, .nan s => (.nan, if s || x.isSig then fNv else fNone)
  | .inf x, .inf y => if x = y then (.inf x, fNone) else (.nan, fNv)
  | .inf x, _ => (.inf x, fNone)
  | _, .inf y => (.inf y, fNone)
  | .fin x p, .fin y q =>
    let zn := if x = y ∧ p = 0 ∧ q = 0 then x else decide (m = .rd)
    (exactOf ((FVal.fin x p).real + (FVal.fin y q).real) zn, fNone)

def fMul (a b : FVal) : Exact × FFlags :=
  match a, b with
  | .nan s, y => (.nan, if s || y.isSig then fNv else fNone)
  | x, .nan s => (.nan, if s || x.isSig then fNv else fNone)
  | .inf x, .inf y => (.inf (x != y), fNone)
  | .inf x, .fin y q => if q = 0 then (.nan, fNv) else (.inf (x != y), fNone)
  | .fin x p, .inf y => if p = 0 then (.nan, fNv) else (.inf (x != y), fNone)
  | .fin x p, .fin y q => (.real (x != y) (p * q) false, fNone)

/-- a × b + c, rounded once by the caller; ∞ × 0 is invalid even beside a quiet NaN (R194). -/
def fFma (m : RMode) (a b c : FVal) : Exact × FFlags :=
  let inv := (a.isInf && b.isZero) || (a.isZero && b.isInf)
  if a.isNaN || b.isNaN || c.isNaN then
    (.nan, if inv || a.isSig || b.isSig || c.isSig then fNv else fNone)
  else
    match fMul a b with
    | (.nan, f) => (.nan, f)
    | (.inf x, _) =>
      match c with
      | .inf y => if x = y then (.inf x, fNone) else (.nan, fNv)
      | _ => (.inf x, fNone)
    | (.real x p _, _) =>
      match c with
      | .inf y => (.inf y, fNone)
      | .fin y q =>
        let zn := if x = y ∧ p = 0 ∧ q = 0 then x else decide (m = .rd)
        (exactOf ((if x then -p else p) + (FVal.fin y q).real) zn, fNone)
      | .nan _ => (.nan, fNone)

def fDiv (a b : FVal) : Exact × FFlags :=
  match a, b with
  | .nan s, y => (.nan, if s || y.isSig then fNv else fNone)
  | x, .nan s => (.nan, if s || x.isSig then fNv else fNone)
  | .inf _, .inf _ => (.nan, fNv)
  | .inf x, .fin y _ => (.inf (x != y), fNone)
  | .fin x _, .inf y => (.real (x != y) 0 false, fNone)
  | .fin x p, .fin y q =>
    if q = 0 then (if p = 0 then (.nan, fNv) else (.inf (x != y), fDz))
    else (.real (x != y) (p / q) false, fNone)

end Sys2Proof.Machine
end

