-- ==== Sys2Proof/Machine/Agate.lean ====
section
/-! DEFINITION. The Agate function and lazy-uniform values (R210 to R212, R217). -/

namespace Sys2Proof.Machine

/-- One round of R212. -/
def agateRound (i : Nat) (x : Word32 × Word32 × Word32 × Word32) : Word32 × Word32 × Word32 × Word32 :=
  let (x0, x1, x2, x3) := x
  let r := if i % 2 = 0 then (16, 12) else (8, 7)
  let a := x0 + x1
  let d := (x3 ^^^ a).rotateLeft r.1
  let c := x2 + d
  let b := (x1 ^^^ c).rotateLeft r.2
  (b, c, d, a)

/-- Word n of a key, K0 lowest. -/
def keyWord (key : BitVec 128) (n : Nat) : Word32 := key.extractLsb' (32 * n) 32

/-- A 64-bit digit block (R212). -/
def agate (key : BitVec 128) (stream : BitVec 24) (counter : Word32) (j : Nat) : Word64 :=
  let x0 := keyWord key 0 ^^^ 0x9E3779B9#32
  let x1 := keyWord key 1 ^^^ counter
  let x2 := keyWord key 2 ^^^ (stream.setWidth 32 + BitVec.ofNat 32 (j * 2 ^ 24))
  let x3 := keyWord key 3 ^^^ 0x243F6A88#32
  let r := (List.range 8).foldl (fun x i => agateRound i x) (x0, x1, x2, x3)
  (r.1 + x0) ++ (r.2.2.1 + x2)

/-- Digit i of a position (R211). -/
def digitAt (key : BitVec 128) (stream : BitVec 24) (counter : Word32) (i : Nat) : Nat :=
  ((agate key stream counter (i / 16)).extractLsb' (60 - 4 * (i % 16)) 4).toNat

/-! ### Views -/

/-- A view's 64 slices (R210). -/
abbrev View := BitVec 256

def View.counter (v : View) : Word32 := getField v 224 32
def View.stream (v : View) : BitVec 24 := getField v 200 24
def View.count (v : View) : Nat := (getField v 192 8).toNat

/-- R210: a count above 48 is malformed. -/
def View.malformed (v : View) : Bool := 48 < v.count

/-- d_i: a stored digit, or the position's (R211). -/
def View.digit (key : BitVec 128) (v : View) (i : Nat) : Nat :=
  if i < v.count then (getField v (4 * i) 4).toNat else digitAt key v.stream v.counter i

/-- The view with digits stored up to `n`, at most 48 (R217, R219). -/
def View.extend (key : BitVec 128) (v : View) (n : Nat) : View :=
  let n := min n 48
  if n ≤ v.count then v
  else
    let v' := (List.range 48).foldl
      (fun (u : View) i => if v.count ≤ i ∧ i < n then setField u (4 * i) (BitVec.ofNat 4 (v.digit key i)) else u) v
    setField v' 192 (BitVec.ofNat 8 n)

/-- lzdraw's view (R216). -/
def View.fresh (stream : BitVec 24) (counter : Word32) : View := counter ++ stream ++ 0#8 ++ 0#192

/-- u < x for a view and x in (0, 1): outcome, undecided, digits examined (R217). -/
def View.less (key : BitVec 128) (v : View) (x : Rat) (more : Bool) : Bool × Bool × Nat := lzDecide (v.digit key) more 0 x 64

end Sys2Proof.Machine
end

