-- ==== Sys2Proof/WellFormed.lean ====
section
/-! DEFINITION. Which instructions the manual admits: the checks of R13 to R34 that a word's own bits decide. -/

namespace Sys2Proof

/-- The width in bits of a width code (R13). -/
def wBits (w : BitVec 3) : Nat :=
  match w.toNat with
  | 0 => 4 | 1 => 8 | 2 => 12 | 3 => 16 | 4 => 24 | 5 => 32 | 6 => 48 | _ => 64

/-- The width in bits of a width code in opcodes 0x20 to 0x30, where code 2 is BF16 (R13). -/
def fBits (w : BitVec 3) : Nat := if w = 2#3 then 16 else wBits w

/-- Width codes that are floating-point formats (R13). -/
def isFloatW (w : BitVec 3) : Bool := w = 2#3 || w = 3#3 || w = 5#3 || w = 7#3

/-- Width codes that have .s and .n types (R155). -/
def isIntW (w : BitVec 3) : Bool := w = 1#3 || w = 3#3 || w = 5#3 || w = 7#3

/-- Width codes of memory elements (R21, R66). -/
def isMemW (w : BitVec 3) : Bool := !(w = 0#3 || w = 2#3)

/-- The width of a conversion's format code (R199). -/
def fmtBits (f : BitVec 3) : Nat :=
  match f.toNat with
  | 0 => 64 | 1 => 32 | 2 => 16 | 3 => 16 | 6 => 4 | _ => 8

/-- The width code of a conversion's format (R199). -/
def fmtW (f : BitVec 3) : BitVec 3 :=
  match f.toNat with
  | 0 => 7#3 | 1 => 5#3 | 2 => 3#3 | 3 => 3#3 | 6 => 0#3 | _ => 1#3

/-- A uniform register index that can hold `n` bits: R15 and R16 in the lane class, R24 (even pairs) in the
uniform class, a triple when n is 80 (R65). -/
def uregOk (uni : Bool) (n : Nat) (k : BitVec 8) : Bool :=
  if n ≤ 32 then k.toNat ≤ 159
  else if n ≤ 64 then k.toNat ≤ 158 && (!uni || k.toNat % 2 = 0)
  else k.toNat ≤ 157

/-- A source of `n` bits (R15; in the uniform class a k register, R24). -/
def srcOk (h : Head) (n : Nat) (s : Src) : Bool :=
  match s with
  | .slice _ => !h.uni
  | .ureg k => uregOk h.uni n k
  | .latch _ => !h.uni
  | .acc _ _ => !h.uni && n = 32
  | .imm _ => !h.uni
  | .uimm _ => false

/-- Source B, which in the uniform class may be the 11-bit immediate (R24). -/
def srcBOk (h : Head) (n : Nat) (s : Src) : Bool :=
  match s with
  | .uimm _ => h.uni
  | _ => srcOk h n s

def Src.isAcc : Src → Bool | .acc _ _ => true | _ => false
def Src.isSlice : Src → Bool | .slice _ => true | _ => false
def Src.isUreg : Src → Bool | .ureg _ => true | _ => false
def Src.isLatch : Src → Bool | .latch _ => true | _ => false

/-- An immediate in lo to hi, or a source of another kind (R128, R173 to R175). -/
def immIn (s : Src) (lo hi : Int) : Bool :=
  match s with
  | .imm v => lo ≤ v.toInt && v.toInt ≤ hi
  | .uimm v => lo ≤ v.toInt && v.toInt ≤ hi
  | _ => true

/-- An immediate or a uniform register. -/
def immOrK (s : Src) : Bool :=
  match s with
  | .imm _ => true | .uimm _ => true | .ureg _ => true | _ => false

/-- A destination of `n` bits; with write-back suppress the field is zero (R16, R18). -/
def dstOk (h : Head) (n : Nat) (d : Dst) : Bool :=
  match d with
  | .slice s => !h.uni && (!h.sup || s = 0#9)
  | .ureg k => uregOk h.uni n k && !h.sup

/-- A predicate destination: p in the lane class, g in the uniform class (R16, R24). -/
def pdstOk (h : Head) (p : PDst) : Bool :=
  match p with
  | .p _ => !h.uni && !h.sup
  | .g _ => h.uni && !h.sup

/-- Data width of a word of both classes: 32 or 64 bits in the uniform class (R24). -/
def wOk (h : Head) : Bool := !h.uni || (!h.sup && (h.w = 5#3 || h.w = 7#3))

def lane (h : Head) : Bool := !h.uni

/-- No operand width, no suppress. -/
def plain (h : Head) : Bool := h.w = 0#3 && !h.sup

def g7 : Guard := ⟨false, 7#3⟩

/-- Both guards name p7 or g7 without inversion. -/
def unguarded (h : Head) : Bool := h.ga = g7 && h.gb = g7

/-- R295: in the lane class the guards are p7 and there is no suppress. -/
def onceOk (h : Head) : Bool := (h.uni || unguarded h) && !h.sup

/-- Rounding codes 000 to 101 (R17). -/
def rmOk (rm : BitVec 3) : Bool := rm.toNat ≤ 5

/-- A displacement of the lane class has 6 bits (R21). -/
def dispOk (h : Head) (d : BitVec 11) : Bool := h.uni || (d.setWidth 6).signExtend 11 = d

/-- The address operand of the M-format (R21). -/
def addrOk (h : Head) (a : Src) : Bool := srcOk h 80 a && (a.isSlice || a.isUreg)

/-- An offset or index: no accumulator fragment (R70). -/
def offOk (h : Head) (b : Src) : Bool := srcOk h 32 b && !b.isAcc

def spaceAny (s : BitVec 3) : Bool := s.toNat ≤ 5
def spaceW (s : BitVec 3) : Bool := s.toNat ≤ 4
def spaceChip (s : BitVec 3) : Bool := 1 ≤ s.toNat && s.toNat ≤ 4
def spaceXl (s : BitVec 3) : Bool := s = 0#3 || s = 4#3 || s = 5#3
def spaceGro (s : BitVec 3) : Bool := s = 4#3 || s = 5#3

/-- The operation codes of atom with their width (R72). -/
def atomOk (w : BitVec 3) (op : BitVec 6) : Bool :=
  op.toNat ≤ 0xB || (op = 0x10#6 && w = 5#3) || (op = 0x11#6 && w = 7#3)

/-- The operand of .cas names a pair (R72). -/
def casOk (h : Head) (b : Src) : Bool :=
  match b with
  | .slice _ => !h.uni
  | .ureg k => if h.w = 5#3 then k.toNat ≤ 158 else k.toNat % 2 = 0 && k.toNat ≤ 156
  | _ => false

/-- The operation codes of atomo that touch memory (R73). -/
def atomoOk (w : BitVec 3) (op : BitVec 6) : Bool :=
  (1 ≤ op.toNat && op.toNat ≤ 8) || (op = 0x10#6 && w = 5#3) || (op = 0x11#6 && w = 7#3)

/-- K-counts of each element format (R26). -/
def kOk (fmt : BitVec 4) (k : BitVec 6) : Bool :=
  match fmt.toNat with
  | 0 => k.toNat ≤ 31 | 1 => k.toNat ≤ 31
  | 2 => k.toNat ≤ 15 | 3 => k.toNat ≤ 15 | 4 => k.toNat ≤ 15
  | 5 => k.toNat ≤ 7 | 6 => k.toNat ≤ 7
  | _ => false

def int2 (h : Head) (d : Dst) (a b : Src) : Bool :=
  wOk h && dstOk h (wBits h.w) d && srcOk h (wBits h.w) a && srcBOk h (wBits h.w) b

def int1 (h : Head) (d : Dst) (a : Src) : Bool :=
  wOk h && dstOk h (wBits h.w) d && srcOk h (wBits h.w) a

def flt2 (h : Head) (d : Dst) (a b : Src) : Bool :=
  wOk h && isFloatW h.w && dstOk h (fBits h.w) d && srcOk h (fBits h.w) a && srcBOk h (fBits h.w) b

def flt1 (h : Head) (d : Dst) (a : Src) (rm : BitVec 3) : Bool :=
  lane h && isFloatW h.w && dstOk h (fBits h.w) d && srcOk h (fBits h.w) a && rmOk rm

def mem1 (h : Head) (a : Src) (sp : Bool) : Bool := isMemW h.w && addrOk h a && sp

def cmntOk (h : Head) (a b : Src) (sp : BitVec 3) : Bool :=
  lane h && !h.sup && mem1 h a (spaceXl sp) && offOk h b

def barOk (h : Head) (a : Src) : Bool :=
  plain h && srcOk h 32 a && immOrK a && immIn a 0 15

def forkOk (h : Head) (d : BitVec 8) (a : Triple) (b : BitVec 8) (n : BitVec 3) : Bool :=
  h.w = 5#3 && onceOk h && d.toNat ≤ 159 && a.toNat ≤ 157 && b.toNat ≤ 159 && b.toNat + 3 * n.toNat ≤ 160

def feedOk (h : Head) (a b : Src) : Bool :=
  lane h && h.w = 5#3 && !h.sup && srcOk h 32 a && !a.isAcc && srcOk h 32 b && !b.isAcc

def sysK (h : Head) (a b : BitVec 8) : Bool :=
  plain h && onceOk h && a.toNat ≤ 159 && b.toNat ≤ 159

def copyW (w : BitVec 3) : Bool := isMemW w

/-- Well-formed instructions. Steps of the device are no words and are always well formed. A set signedness bit at widths 4, 12, 24 and 48,
which have no .s type, is taken as .s is (R17 does not say; DESIGN CHOICE, log entry 65). -/
def Instr.wf : Instr → Bool
  | .clauseIssue cls _ wait yld =>
    cls.toNat ≤ 3 && (cls.toNat ≤ 1 || (wait = 0#3 && !yld))
  | .wrsrFpctl h a | .wrsrFpflags h a | .mfqheadWrite h a =>
    h.w = 5#3 && !h.sup && srcOk h 32 a
  | .wrsrUtrap h word a => h.w = 5#3 && !h.sup && srcOk h 32 a && word.toNat ≤ 2
  | .rdsrFpflags h d | .rdsrClock0 h d => h.w = 5#3 && wOk h && dstOk h 32 d
  | .maskWrite h beat _ => h.uni && h.w = 5#3 && !h.sup && beat.toNat ≤ 2
  | .nop h => plain h
  | .mov h d a => int1 h d a
  | .movi h d imm =>
    wOk h && dstOk h (wBits h.w) d &&
      (if h.uni then !(h.w = 5#3 && match d with | .ureg k => 157 ≤ k.toNat | _ => false)
       else (imm.setWidth 22).signExtend 32 = imm)
  | .sel h d a b _ => wOk h && dstOk h (wBits h.w) d && srcOk h (wBits h.w) a && srcBOk h (wBits h.w) b
  | .iadd h d a b sat _ | .isub h d a b sat _ => int2 h d a b && (!sat || isIntW h.w)
  | .imul h d a b _ | .imulh h d a b _ | .imin h d a b _ | .imax h d a b _ => int2 h d a b
  | .imad h d a b c => int2 h d a b && srcOk h (wBits h.w) c
  | .iabs h d a sat => int1 h d a && (!sat || isIntW h.w)
  | .shl h d a b | .shr h d a b | .sar h d a b | .rot h d a b
  | .and h d a b | .or h d a b | .xor h d a b => int2 h d a b
  | .not h d a | .popc h d a | .clz h d a | .brev h d a => int1 h d a
  | .lop3 h d a b _ =>
    wOk h && dstOk h (wBits h.w) d && srcOk h (wBits h.w) a && srcOk h (wBits h.w) b
  | .bfx h d a b _ => wOk h && dstOk h (wBits h.w) d && srcOk h (wBits h.w) a && srcBOk h 16 b
  | .bfi h d a b c =>
    wOk h && dstOk h (wBits h.w) d && srcOk h (wBits h.w) a && srcBOk h (wBits h.w) b && srcOk h 16 c
  | .lea h d a b _ _ => wOk h && dstOk h 80 d && addrOk h a && srcOk h (wBits h.w) b
  | .isetp h p a b cond _ =>
    wOk h && pdstOk h p && srcOk h (wBits h.w) a && srcBOk h (wBits h.w) b && cond.toNat ≤ 5
  | .iaddi h d a imm => int1 h d a && (h.uni || (imm.setWidth 22).signExtend 27 = imm)
  | .shfl h d a b mode =>
    lane h && dstOk h (wBits h.w) d && srcOk h (wBits h.w) a && srcOk h 32 b && mode.toNat ≤ 3
  | .vote h _ a mode => lane h && !h.sup && srcOk h (wBits h.w) a && mode.toNat ≤ 2
  | .voteBallot h k a => lane h && !h.sup && h.w = 5#3 && k.toNat ≤ 157 && srcOk h 32 a
  | .redx h d a op rm sg =>
    lane h &&
      (if op = 6#4 then isFloatW h.w && rm.toNat ≤ 4 && !sg && dstOk h (fBits h.w) d && srcOk h (fBits h.w) a
       else op.toNat ≤ 5 && rm = 0#3 && (op.toNat ≤ 2 || !sg) && dstOk h (wBits h.w) d && srcOk h (wBits h.w) a)
  | .fadd h d a b rm | .fsub h d a b rm | .fmul h d a b rm => flt2 h d a b && rmOk rm
  | .ffma h d a b c => flt2 h d a b && srcOk h (fBits h.w) c
  | .fmin h d a b | .fmax h d a b => flt2 h d a b
  | .fsetp h p a b cond =>
    wOk h && isFloatW h.w && pdstOk h p && srcOk h (fBits h.w) a && srcBOk h (fBits h.w) b && cond.toNat ≤ 13
  | .fdiv h d a b rm => lane h && flt2 h d a b && rmOk rm
  | .fsqrt h d a rm | .frcp h d a rm | .frsq h d a rm | .fex2 h d a rm | .flg2 h d a rm
  | .fsin h d a rm | .fcos h d a rm => flt1 h d a rm
  | .frnd h d a _ rm => flt1 h d a rm
  | .fcls h d a => flt1 h d a 0#3
  | .fcvt h d a df sf _ rm =>
    wOk h && h.w = fmtW df && dstOk h (fmtBits df) d && srcOk h (fmtBits sf) a && rmOk rm
  | .icvt h d a df sw _ rm =>
    wOk h && h.w = fmtW df && dstOk h (fmtBits df) d && isIntW sw && srcOk h (wBits sw) a && rmOk rm
  | .fcvti h d a sf _ rm =>
    lane h && isIntW h.w && sf.toNat ≤ 3 && dstOk h (wBits h.w) d && srcOk h (fmtBits sf) a && rmOk rm
  | .blkq h d _ b ef sf rm =>
    lane h && 4 ≤ ef.toNat && ef.toNat ≤ 6 && 1 ≤ sf.toNat && sf.toNat ≤ 3 &&
      h.w = (if ef = 6#3 then 5#3 else 7#3) && (!h.sup || d = 0#9) && rmOk rm &&
      (match b with | none => true | some b => srcOk h 8 b)
  | .blkdq h d a b df ef rm =>
    lane h && 1 ≤ df.toNat && df.toNat ≤ 3 && 4 ≤ ef.toNat && ef.toNat ≤ 6 && h.w = fmtW df &&
      (!h.sup || d = 0#9) && srcOk h (if ef = 6#3 then 32 else 64) a && srcOk h 8 b && rmOk rm
  | .bscale h d a ef sf =>
    lane h && h.w = 1#3 && 4 ≤ ef.toNat && ef.toNat ≤ 6 && sf.toNat ≤ 3 && dstOk h 8 d && srcOk h (fmtBits sf) a
  | .srnd h d a _ df sf => lane h && h.w = fmtW df && dstOk h (fmtBits df) d && srcOk h (fmtBits sf) a
  | .pack h d _ mode sg sw =>
    lane h && wBits h.w < wBits sw && (mode = 1#4 || (mode = 0#4 && !sg)) && (!h.sup || d = 0#9)
  | .unpack h d _ _ sw => lane h && wBits sw < wBits h.w && (!h.sup || d = 0#9)
  | .tbld h k mask sp => lane h && plain h && k.toNat ≤ 157 && mask ≠ 0#4 && spaceGro sp
  | .tbind h => lane h && plain h
  | .teval h d a _ rm => flt1 h d a rm && h.w ≠ 7#3
  | .lzdraw h _ a b => lane h && h.w = 5#3 && !h.sup && srcOk h 32 a && srcOk h 32 b
  | .lzcmp h _ _ b _ => lane h && (h.w = 5#3 || h.w = 7#3) && !h.sup && srcOk h (wBits h.w) b
  | .lzcmpExt h _ b => lane h && h.w = 5#3 && !h.sup && srcOk h 32 b && !b.isAcc && immIn b 1 48
  | .lzval h d _ rm => lane h && (h.w = 5#3 || h.w = 7#3) && dstOk h (wBits h.w) d && rm.toNat ≤ 4
  | .ld h d a b sp _ disp =>
    wOk h && mem1 h a (spaceAny sp) && dstOk h (wBits h.w) d && dispOk h disp &&
      (if h.uni then b = .imm 0#9 else offOk h b)
  | .st h a b sp _ disp =>
    wOk h && !h.sup && mem1 h a (spaceW sp) && srcOk h (wBits h.w) b && dispOk h disp
  | .ldu h d a sp _ _ => lane h && mem1 h a (spaceAny sp) && dstOk h (wBits h.w) d
  | .gth h d a b sp _ _ => lane h && mem1 h a (spaceAny sp) && dstOk h (wBits h.w) d && offOk h b
  | .sct h _ a b sp _ _ => lane h && !h.sup && mem1 h a (spaceW sp) && offOk h b
  | .atom h d a b sp _ op =>
    wOk h && (h.w = 5#3 || h.w = 7#3) && mem1 h a (spaceChip sp) && dstOk h (wBits h.w) d && atomOk h.w op &&
      (if op = 9#6 then casOk h b else srcOk h (wBits h.w) b)
  | .atomo h d a b _ op =>
    lane h && (h.w = 5#3 || h.w = 7#3) && addrOk h a && dstOk h (wBits h.w) d && atomoOk h.w op && srcOk h (wBits h.w) b
  | .atomoFin h => lane h && (h.w = 5#3 || h.w = 7#3) && !h.sup
  | .fence h pred succ scope => plain h && pred ≠ 0#4 && succ ≠ 0#4 && scope.toNat ≤ 5
  | .cpy h dk ak len ssp _ dsp =>
    lane h && !h.sup && isMemW h.w && dk.toNat ≤ 157 && ak.toNat ≤ 157 && immOrK len && srcOk h 32 len &&
      immIn len 0 255 && 1 ≤ ssp.toNat && ssp.toNat ≤ 5 && spaceChip dsp
  | .cpyCont h dk ak len ssp _ dsp =>
    lane h && !h.sup && isMemW h.w && dk.toNat ≤ 157 && ak.toNat ≤ 157 && len.toNat ≤ 158 &&
      unguarded h && h.ctr = 0#2 && 1 ≤ ssp.toNat && ssp.toNat ≤ 5 && spaceChip dsp
  | .pref h a b sp _ _ => cmntOk h a b sp
  | .cmntWb h a b sp _ | .cmntInv h a b sp _ | .cmntL2wb h a b sp _ | .cmntL2inv h a b sp _ => cmntOk h a b sp
  | .spill h _ a _ _ _ | .fill h _ a _ _ _ => lane h && plain h && addrOk h a
  | .ringPush h a b sp _ => lane h && !h.sup && isMemW h.w && a.toNat ≤ 157 && srcOk h (wBits h.w) b && spaceChip sp
  | .ringPop h d a sp _ => lane h && isMemW h.w && a.toNat ≤ 157 && dstOk h (wBits h.w) d && spaceChip sp
  | .futFill h a b sp _ => lane h && !h.sup && h.w = 7#3 && addrOk h a && srcOk h 64 b && spaceChip sp
  | .futWait h d a sp _ => lane h && h.w = 7#3 && addrOk h a && dstOk h 64 d && spaceChip sp
  | .bra h _ _ _ => lane h && plain h
  | .braUniform h _ reconv _ => h.w = 1#3 && !h.sup && (!h.uni || reconv = 0#16)
  | .brx h a _ _ ug | .callx h a _ _ ug => lane h && !h.sup && h.w = (if ug then 1#3 else 0#3) && srcOk h 32 a
  | .call h _ _ _ => lane h && plain h
  | .callUniform h _ _ _ => h.w = 1#3 && !h.sup
  | .ret h => plain h
  | .join => true
  | .exit h => lane h && plain h
  | .exitUniform h => h.uni && plain h
  | .yield h => plain h
  | .barArrive h a b | .barSync h a b => barOk h a && srcBOk h 32 b && immOrK b && immIn b 0 255
  | .barWait h a => barOk h a
  | .sleep h a => plain h && srcOk h 32 a && (immOrK a || a.isSlice) && immIn a 0 255
  | .trap h a | .bkpt h a => plain h && srcOk h 32 a && immOrK a && immIn a 0 255
  | .rtt h | .rttSkip h => plain h
  | .rttSub h a => plain h && srcOk h 32 a
  | .forkMx h d a b n | .forkCp h d a b n | .forkCl h d a b n => forkOk h d a b n
  | .rdv h d a => h.w = 5#3 && onceOk h && dstOk h 32 d && srcOk h 32 a && (a.isSlice || a.isUreg)
  | .mfeedDat h _ _ a b | .mfeedScl h _ _ a b | .mfeedBand h _ a b => feedOk h a b
  | .mfeedQ h _ _ _ b => lane h && h.w = 5#3 && !h.sup && srcOk h 32 b && !b.isAcc
  | .mwm h d _ => lane h && h.w = 5#3 && !h.sup && dstOk h 32 d
  | .stepLdtab h a sp | .stepBind h a sp | .stepRun h a sp =>
    plain h && onceOk h && a.toNat ≤ 157 && spaceGro sp
  | .stepWait h | .stepDone h | .stepStop h => plain h && onceOk h
  | .stepQry h d t => h.w = 7#3 && onceOk h && d.toNat ≤ 157 && srcOk h 64 t && (t.isSlice || t.isUreg)
  | .stepStat h d sp => plain h && onceOk h && d.toNat ≤ 157 && spaceChip sp
  | .spawn h a _ => lane h && h.w = 5#3 && !h.sup && srcOk h 32 a && !a.isAcc
  | .spawnUniform h a b => h.uni && h.w = 5#3 && !h.sup && a.toNat ≤ 159 && b.toNat ≤ 152
  | .tend h => plain h
  | .claim h n | .give h n => plain h && unguarded h && srcOk h 32 n && immOrK n && immIn n 1 3
  | .giveRole h n r =>
    plain h && unguarded h && srcOk h 32 n && immOrK n && immIn n 1 3 && srcBOk h 32 r && immOrK r && immIn r 0 3
  | .regionBegin h | .regionEnd h => plain h && unguarded h && h.ctr = 0#2
  | .digestRd h d _ => lane h && h.w = 5#3 && dstOk h 32 d
  | .digestFold h a => lane h && (h.w = 5#3 || h.w = 7#3) && !h.sup && srcOk h (wBits h.w) a
  | .rdsr h d num =>
    h.w = 5#3 && wOk h && dstOk h 32 d && num ≠ 0x021#11 && num ≠ 0x010#11
  | .wrsr h num a =>
    h.w = 5#3 && !h.sup && srcOk h 32 a && num ≠ 0x020#11 && num ≠ 0x021#11 && num ≠ 0x030#11 &&
      num ≠ 0x031#11 && num ≠ 0x032#11 && num ≠ 0x11B#11
  | .sysLaunch h a b sp =>
    plain h && onceOk h && a.toNat ≤ 157 && spaceGro sp &&
      (match b with | .ureg k => decide (k.toNat ≤ 159) | x => !h.uni && decide (x = .imm 0#9))
  | .sysTlbinv h a b sc => plain h && onceOk h && a.toNat ≤ 157 && b.toNat ≤ 159 && (sc = 3#3 || sc = 4#3)
  | .sysCarve h a | .sysHalt h a | .sysReplay h a | .sysEfail h a => sysK h a 0#8
  | .sysDebug h a b | .sysSlice h a b => sysK h a b
  | .scmp _ _ _ cond => cond.toNat ≤ 6
  | .sbra _ _ cond _ => cond.toNat ≤ 6
  | .ssig sp _ _ => 1 ≤ sp.toNat && sp.toNat ≤ 4
  | .mma fmt _ _ _ _ _ k => kOk fmt k
  | .cld w _ _ _ _ dsp ssp _ | .cgth w _ _ _ _ dsp ssp _ =>
    copyW w && 1 ≤ dsp.toNat && dsp.toNat ≤ 3 && 1 ≤ ssp.toNat && ssp.toNat ≤ 5
  | .cst w _ _ _ _ dsp ssp _ | .csct w _ _ _ _ dsp ssp _ =>
    copyW w && dsp = 4#3 && 1 ≤ ssp.toNat && ssp.toNat ≤ 3
  | .cacc w _ _ _ _ dsp ssp _ _ => w = 5#3 && spaceChip dsp && ssp = 0#3
  | .ccoll w _ _ _ _ dsp ssp _ op scope =>
    (dsp = 3#3 || dsp = 4#3) && (ssp = 3#3 || ssp = 4#3) && (scope = 4#3 || scope = 5#3) && copyW w &&
      (op = 4#3 || (op.toNat ≤ 3 && (w = 5#3 || w = 7#3)))
  | .cwait w _ _ ssp _ => w = 5#3 && 1 ≤ ssp.toNat && ssp.toNat ≤ 5
  | .cfill w _ _ _ dsp _ => copyW w && spaceChip dsp
  | _ => true

end Sys2Proof
end

