-- ==== Sys2Proof/Decode.lean ====
section
/-! DEFINITION. The decoder of the four engine classes and, after it, the encoder (R7, R12 to R32). A word is cut
into the fields that all formats share; a decoded word is accepted exactly when it is well formed and encodes
back to itself, so that every field that R12 to R32 require to be zero is checked in one place. -/

namespace Sys2Proof

/-- Why a word is no instruction (R33). -/
inductive Reject where
  /-- an illegal header, or a word that is no header where one must stand -/
  | illegalHeader
  /-- an opcode, code, field or operand that the class does not define -/
  | illegalInstruction
  deriving DecidableEq, Repr

/-- The fields of a lane-class or uniform-class word. `m` is [45:14], `c` is [13:3], `s` is [2], `r` is [1:0]. -/
structure Fields where
  op : BitVec 7
  w  : BitVec 3
  ga : BitVec 4
  gb : BitVec 4
  m  : BitVec 32
  c  : BitVec 11
  s  : Bool
  r  : BitVec 2
  deriving DecidableEq, Repr

def Fields.pack (f : Fields) : Word64 :=
  f.op ++ f.w ++ f.ga ++ f.gb ++ f.m ++ f.c ++ BitVec.ofBool f.s ++ f.r

def Fields.unpack (x : Word64) : Fields where
  op := x.extractLsb' 57 7
  w  := x.extractLsb' 54 3
  ga := x.extractLsb' 50 4
  gb := x.extractLsb' 46 4
  m  := x.extractLsb' 14 32
  c  := x.extractLsb' 3 11
  s  := x.getLsbD 2
  r  := x.extractLsb' 0 2

/-- The V-format's D, A and B (R12), and the U-format's D, A, B and C (R24). -/
def Fields.d (f : Fields) : BitVec 10 := f.m.extractLsb' 22 10
def Fields.a (f : Fields) : BitVec 11 := f.m.extractLsb' 11 11
def Fields.b (f : Fields) : BitVec 11 := f.m.extractLsb' 0 11
def Fields.ud (f : Fields) : BitVec 8 := f.m.extractLsb' 24 8
def Fields.ua (f : Fields) : BitVec 8 := f.m.extractLsb' 16 8
def Fields.ub (f : Fields) : BitVec 8 := f.m.extractLsb' 8 8
def Fields.uc (f : Fields) : BitVec 8 := f.m.extractLsb' 0 8

def Guard.dec (g : BitVec 4) : Guard := ⟨g.getLsbD 3, g.extractLsb' 0 3⟩
def Guard.enc (g : Guard) : BitVec 4 := BitVec.ofBool g.inv ++ g.idx

def Src.dec (x : BitVec 11) : Src :=
  match (x.extractLsb' 9 2).toNat with
  | 0 => .slice (x.extractLsb' 0 9)
  | 1 => if x.getLsbD 8 then .latch (x.extractLsb' 0 3) else .ureg (x.extractLsb' 0 8)
  | 2 => .acc (x.extractLsb' 6 3) (x.extractLsb' 0 6)
  | _ => .imm (x.extractLsb' 0 9)

def Src.enc : Src → BitVec 11
  | .slice s => 0#2 ++ s
  | .ureg k => 0b010#3 ++ k
  | .latch n => 0b01100000#8 ++ n
  | .acc t r => 0b10#2 ++ t ++ r
  | .imm v => 0b11#2 ++ v
  | .uimm v => v

def Dst.dec (x : BitVec 10) : Dst :=
  if x.getLsbD 9 then .ureg (x.extractLsb' 0 8) else .slice (x.extractLsb' 0 9)

def Dst.enc : Dst → BitVec 10
  | .slice s => 0#1 ++ s
  | .ureg k => 0b10#2 ++ k

/-- The k index of a uniform-class operand field. -/
def Src.kOf : Src → BitVec 8 | .ureg k => k | _ => 0#8
def Dst.kOf : Dst → BitVec 8 | .ureg k => k | _ => 0#8

/-- The fields of a lane-class word (V- and M-formats). -/
def laneF (op : BitVec 7) (h : Head) (d : BitVec 10) (a b c : BitVec 11) : Fields :=
  ⟨op, h.w, h.ga.enc, h.gb.enc, d ++ a ++ b, c, h.sup, h.ctr⟩

/-- The fields of a uniform-class word (R24). -/
def uniF (op : BitVec 7) (h : Head) (d a b c : BitVec 8) (imm : BitVec 11) (sel : Bool) : Fields :=
  ⟨op, h.w, h.ga.enc, h.gb.enc, d ++ a ++ b ++ c, imm, sel, h.ctr⟩

/-- The modifier field (R17). -/
def mods (rm : BitVec 3) (sub : BitVec 4) (sg : Bool) (aux : BitVec 3) : BitVec 11 :=
  rm ++ sub ++ BitVec.ofBool sg ++ aux

/-- The modifier bits of the U-format's C (R24). -/
def umods (rm : BitVec 3) (sub : BitVec 4) (sg : Bool) : BitVec 8 := rm ++ sub ++ BitVec.ofBool sg

/-- A word of operands D, A, B with modifiers, in either class. In the uniform class the auxiliary bits stay in
word bits [5:3] (R295) and an immediate B takes the immediate field. -/
def arithF (op : BitVec 7) (h : Head) (d : Dst) (a b : Src) (rm : BitVec 3) (sub : BitVec 4) (sg : Bool)
    (aux : BitVec 3) : Fields :=
  if h.uni then
    match b with
    | .uimm v => uniF op h d.kOf a.kOf 0#8 (umods rm sub sg) v true
    | _ => uniF op h d.kOf a.kOf b.kOf (umods rm sub sg) (0#8 ++ aux) false
  else laneF op h d.enc a.enc b.enc (mods rm sub sg aux)

/-- A word with a source C, in either class. -/
def threeF (op : BitVec 7) (h : Head) (d : Dst) (a b c : Src) : Fields :=
  if h.uni then
    match b with
    | .uimm v => uniF op h d.kOf a.kOf 0#8 c.kOf v true
    | _ => uniF op h d.kOf a.kOf b.kOf c.kOf 0#11 false
  else laneF op h d.enc a.enc b.enc c.enc

def z : Src := .slice 0#9
def zk (h : Head) : Src := if h.uni then .ureg 0#8 else .slice 0#9
def zd (h : Head) : Dst := if h.uni then .ureg 0#8 else .slice 0#9

/-- The memory fields [13:3] (R21). -/
def memC (sp : BitVec 3) (pol : BitVec 2) (disp : BitVec 6) : BitVec 11 := sp ++ pol ++ disp

/-- A memory word in either class (R21, UM of R24). -/
def memF (op : BitVec 7) (h : Head) (d : Dst) (a b : Src) (sp : BitVec 3) (pol : BitVec 2) (low : BitVec 11) : Fields :=
  if h.uni then uniF op h d.kOf a.kOf b.kOf (sp ++ pol ++ 0#3) low false
  else laneF op h d.enc a.enc b.enc (memC sp pol (low.setWidth 6))

/-- The B-format (R23). -/
def braF (op : BitVec 7) (h : Head) (target : BitVec 22) (reconv : BitVec 16) (hint : Bool) : Fields :=
  ⟨op, h.w, h.ga.enc, h.gb.enc, target ++ reconv.extractLsb' 6 10, reconv.extractLsb' 0 6 ++ 0#5, hint, h.ctr⟩

/-- The variant of the B-format of brx and callx (R23). -/
def brxF (op : BitVec 7) (h : Head) (a : Src) (reconv : BitVec 16) (hint : Bool) : Fields :=
  ⟨op, h.w, h.ga.enc, h.gb.enc, a.enc ++ 0#11 ++ reconv.extractLsb' 6 10, reconv.extractLsb' 0 6 ++ 0#5, hint, h.ctr⟩

/-- A word that takes only a sub-operation and at most the operands A and B (R29, R295). -/
def onceF (op : BitVec 7) (h : Head) (d : Dst) (a b : Src) (sub : BitVec 4) (aux : BitVec 3) : Fields :=
  arithF op h d a b 0#3 sub false aux

/-- rdsr and wrsr (R313). -/
def srF (op : BitVec 7) (h : Head) (d : Dst) (a : Src) (num : BitVec 11) : Fields :=
  if h.uni then uniF op h d.kOf a.kOf 0#8 0#8 num false else laneF op h d.enc a.enc num 0#11

def PDst.idx : PDst → BitVec 3 | .p n => n | .g n => n
def PDst.isG : PDst → Bool | .p _ => false | .g _ => true

/-- A predicate-writing comparison (R16, R24). -/
def cmpF (op : BitVec 7) (h : Head) (p : PDst) (a b : Src) (cond : BitVec 4) (sg : Bool) : Fields :=
  arithF op h (if h.uni then .ureg (0#5 ++ p.idx) else .slice (0#6 ++ p.idx)) a b 0#3 cond sg 0#3

/-- A conversion: in the uniform class the format and width codes stay in word bits [10:8] and [5:3], and .sat and the signedness stand in
C (R24, R200). -/
def cvtF (op : BitVec 7) (h : Head) (d : Dst) (a : Src) (rm hi : BitVec 3) (b7 b6 : Bool) (lo : BitVec 3) : Fields :=
  if h.uni then uniF op h d.kOf a.kOf 0#8 (umods rm (0#3 ++ BitVec.ofBool b7) b6) (mods 0#3 (hi ++ 0#1) false lo) false
  else laneF op h d.enc a.enc 0#11 (mods rm (hi ++ BitVec.ofBool b7) b6 lo)

def viewSlice (v : BitVec 3) : BitVec 9 := v ++ 0#6
def kSrc (k : BitVec 8) : Src := .ureg k

/-- The S-format (R25). -/
def sF (op : BitVec 7) (d a b : SReg) (cond : BitVec 3) (imm : BitVec 32) : Word64 :=
  op ++ d ++ a ++ b ++ cond ++ 0#7 ++ imm ++ 0#3

/-- The X-format (R26). -/
def xF (op : BitVec 7) (fmt : BitVec 4) (t : BitVec 2) (reuse : Bool) (acc : BitVec 3) (b c : SReg) (k : BitVec 6) :
    Word64 :=
  op ++ fmt ++ t ++ BitVec.ofBool reuse ++ acc ++ b ++ c ++ k ++ 0#33

/-- The Y-format (R27). -/
def yF (op w : BitVec 7) (d a n x : SReg) (dsp ssp : BitVec 3) (pol : BitVec 2) (tile red scope : BitVec 3) : Word64 :=
  op ++ w.setWidth 3 ++ d ++ a ++ n ++ x ++ dsp ++ ssp ++ pol ++ tile ++ red ++ scope ++ 0#21

/-- The fields of a group's word; none for the steps of the device and for sequencer words. -/
def Instr.fields : Instr → Option Fields
  | .wrsrFpctl h a => some (srF 0x7C#7 h (zd h) a 0x020#11)
  | .wrsrFpflags h a => some (srF 0x7C#7 h (zd h) a 0x021#11)
  | .rdsrFpflags h d => some (srF 0x7B#7 h d (zk h) 0x021#11)
  | .rdsrClock0 h d => some (srF 0x7B#7 h d (zk h) 0x010#11)
  | .wrsrUtrap h word a => some (srF 0x7C#7 h (zd h) a (0b000001100#9 ++ word))
  | .mfqheadWrite h a => some (srF 0x7C#7 h (zd h) a 0x11B#11)
  | .maskWrite h beat imm =>
    some ⟨0x02#7, h.w, h.ga.enc, h.gb.enc, (157#8 + beat.setWidth 8) ++ 0#3 ++ imm.extractLsb' 11 21,
      imm.extractLsb' 0 11, false, h.ctr⟩
  | .nop h => some (onceF 0x00#7 h (zd h) (zk h) (zk h) 0#4 0#3)
  | .mov h d a => some (arithF 0x01#7 h d a (zk h) 0#3 0#4 false 0#3)
  | .movi h d imm =>
    some (if h.uni then
        ⟨0x02#7, h.w, h.ga.enc, h.gb.enc, d.kOf ++ 0#3 ++ imm.extractLsb' 11 21, imm.extractLsb' 0 11, false, h.ctr⟩
      else ⟨0x02#7, h.w, h.ga.enc, h.gb.enc, d.enc ++ 0#11 ++ imm.extractLsb' 11 11, imm.extractLsb' 0 11, h.sup, h.ctr⟩)
  | .sel h d a b p =>
    some (if h.uni then arithF 0x03#7 h d a b 0#3 p.enc false 0#3
      else arithF 0x03#7 h d a b 0#3 (0#3 ++ BitVec.ofBool p.inv) false p.idx)
  | .iadd h d a b sat sg => some (arithF 0x04#7 h d a b 0#3 (0#3 ++ BitVec.ofBool sat) sg 0#3)
  | .isub h d a b sat sg => some (arithF 0x05#7 h d a b 0#3 (0#3 ++ BitVec.ofBool sat) sg 0#3)
  | .imul h d a b sg => some (arithF 0x06#7 h d a b 0#3 0#4 sg 0#3)
  | .imulh h d a b sg => some (arithF 0x07#7 h d a b 0#3 0#4 sg 0#3)
  | .imad h d a b c => some (threeF 0x08#7 h d a b c)
  | .imin h d a b sg => some (arithF 0x09#7 h d a b 0#3 0#4 sg 0#3)
  | .imax h d a b sg => some (arithF 0x0A#7 h d a b 0#3 0#4 sg 0#3)
  | .iabs h d a sat => some (arithF 0x0B#7 h d a (zk h) 0#3 (0#3 ++ BitVec.ofBool sat) true 0#3)
  | .shl h d a b => some (arithF 0x0C#7 h d a b 0#3 0#4 false 0#3)
  | .shr h d a b => some (arithF 0x0D#7 h d a b 0#3 0#4 false 0#3)
  | .sar h d a b => some (arithF 0x0E#7 h d a b 0#3 0#4 true 0#3)
  | .rot h d a b => some (arithF 0x0F#7 h d a b 0#3 0#4 false 0#3)
  | .and h d a b => some (arithF 0x10#7 h d a b 0#3 0#4 false 0#3)
  | .or h d a b => some (arithF 0x11#7 h d a b 0#3 0#4 false 0#3)
  | .xor h d a b => some (arithF 0x12#7 h d a b 0#3 0#4 false 0#3)
  | .not h d a => some (arithF 0x13#7 h d a (zk h) 0#3 0#4 false 0#3)
  | .lop3 h d a b t =>
    some (if h.uni then uniF 0x14#7 h d.kOf a.kOf b.kOf 0#8 (t ++ 0#3) false
      else laneF 0x14#7 h d.enc a.enc b.enc (0b110#3 ++ t))
  | .bfx h d a b sg => some (arithF 0x15#7 h d a b 0#3 0#4 sg 0#3)
  | .bfi h d a b c => some (threeF 0x16#7 h d a b c)
  | .popc h d a => some (arithF 0x17#7 h d a (zk h) 0#3 0#4 false 0#3)
  | .clz h d a => some (arithF 0x18#7 h d a (zk h) 0#3 0#4 false 0#3)
  | .brev h d a => some (arithF 0x19#7 h d a (zk h) 0#3 0#4 false 0#3)
  | .lea h d a b sh sg =>
    some (if h.uni then arithF 0x1A#7 h d a b 0#3 (0#1 ++ sh) sg 0#3 else arithF 0x1A#7 h d a b 0#3 0#4 sg sh)
  | .isetp h p a b cond sg => some (cmpF 0x1B#7 h p a b cond sg)
  | .iaddi h d a imm =>
    some (if h.uni then
        ⟨0x1F#7, h.w, h.ga.enc, h.gb.enc, d.kOf ++ a.kOf ++ imm.extractLsb' 11 16, imm.extractLsb' 0 11, false, h.ctr⟩
      else ⟨0x1F#7, h.w, h.ga.enc, h.gb.enc, d.enc ++ a.enc ++ imm.extractLsb' 11 11, imm.extractLsb' 0 11, h.sup, h.ctr⟩)
  | .shfl h d a b mode => some (arithF 0x1C#7 h d a b 0#3 mode false 0#3)
  | .vote h p a mode =>
    some (laneF 0x1D#7 h (0#7 ++ p.idx) a.enc 0#11 (mods 0#3 mode false (0#2 ++ BitVec.ofBool p.isG)))
  | .voteBallot h k a => some (laneF 0x1D#7 h (Dst.enc (.ureg k)) a.enc 0#11 (mods 0#3 3#4 false 0#3))
  | .redx h d a op rm sg => some (arithF 0x1E#7 h d a (zk h) rm op sg 0#3)
  | .fadd h d a b rm => some (arithF 0x20#7 h d a b rm 0#4 false 0#3)
  | .fsub h d a b rm => some (arithF 0x21#7 h d a b rm 0#4 false 0#3)
  | .fmul h d a b rm => some (arithF 0x22#7 h d a b rm 0#4 false 0#3)
  | .ffma h d a b c => some (threeF 0x23#7 h d a b c)
  | .fmin h d a b => some (arithF 0x24#7 h d a b 0#3 0#4 false 0#3)
  | .fmax h d a b => some (arithF 0x25#7 h d a b 0#3 0#4 false 0#3)
  | .fsetp h p a b cond => some (cmpF 0x26#7 h p a b cond false)
  | .fdiv h d a b rm => some (arithF 0x27#7 h d a b rm 0#4 false 0#3)
  | .fsqrt h d a rm => some (arithF 0x28#7 h d a (zk h) rm 0#4 false 0#3)
  | .frcp h d a rm => some (arithF 0x29#7 h d a (zk h) rm 0#4 false 0#3)
  | .frsq h d a rm => some (arithF 0x2A#7 h d a (zk h) rm 0#4 false 0#3)
  | .fex2 h d a rm => some (arithF 0x2B#7 h d a (zk h) rm 0#4 false 0#3)
  | .flg2 h d a rm => some (arithF 0x2C#7 h d a (zk h) rm 0#4 false 0#3)
  | .fsin h d a rm => some (arithF 0x2D#7 h d a (zk h) rm 0#4 false 0#3)
  | .fcos h d a rm => some (arithF 0x2E#7 h d a (zk h) rm 0#4 false 0#3)
  | .frnd h d a exact rm => some (arithF 0x2F#7 h d a (zk h) rm (0#3 ++ BitVec.ofBool exact) false 0#3)
  | .fcls h d a => some (arithF 0x30#7 h d a (zk h) 0#3 0#4 false 0#3)
  | .fcvt h d a df sf sat rm => some (cvtF 0x31#7 h d a rm df sat false sf)
  | .icvt h d a df sw sg rm => some (cvtF 0x32#7 h d a rm df false sg sw)
  | .fcvti h d a sf sg rm => some (cvtF 0x33#7 h d a rm 0#3 false sg sf)
  | .blkq h d a b ef sf rm =>
    some (laneF 0x34#7 h (0#1 ++ d) (0#2 ++ a) ((b.getD z).enc) (mods rm (ef ++ BitVec.ofBool b.isSome) false sf))
  | .blkdq h d a b df ef rm =>
    some (laneF 0x35#7 h (0#1 ++ d) a.enc b.enc (mods rm (df ++ 0#1) false ef))
  | .bscale h d a ef sf => some (cvtF 0x36#7 h d a 0#3 ef false false sf)
  | .srnd h d a view df sf =>
    some (laneF 0x37#7 h d.enc a.enc (0#2 ++ viewSlice view) (mods 0#3 (df ++ 0#1) false sf))
  | .pack h d a mode sg sw => some (laneF 0x38#7 h (0#1 ++ d) (0#2 ++ a) 0#11 (mods 0#3 mode sg sw))
  | .unpack h d a sg sw => some (laneF 0x39#7 h (0#1 ++ d) (0#2 ++ a) 0#11 (mods 0#3 0#4 sg sw))
  | .tbld h k mask sp =>
    some (laneF 0x3A#7 h 0#10 (Src.enc (.ureg k)) (0b1100000#7 ++ mask) (mods 0#3 0#4 false sp))
  | .tbind h => some (laneF 0x3B#7 h 0#10 0#11 0#11 0#11)
  | .teval h d a t rm => some (laneF 0x3C#7 h d.enc a.enc 0#11 (mods rm 0#4 false (0#1 ++ t)))
  | .lzdraw h view a b => some (laneF 0x3D#7 h (0#1 ++ viewSlice view) a.enc b.enc 0#11)
  | .lzcmp h p view b fixed =>
    some (laneF 0x3E#7 h (0#7 ++ p) (0#2 ++ viewSlice view) b.enc (mods 0#3 0#4 false (0#2 ++ BitVec.ofBool fixed)))
  | .lzcmpExt h view b => some (laneF 0x3E#7 h 0#10 (0#2 ++ viewSlice view) b.enc (mods 0#3 1#4 false 0#3))
  | .lzval h d view rm => some (laneF 0x3F#7 h d.enc (0#2 ++ viewSlice view) 0#11 (mods rm 0#4 false 0#3))
  | .ld h d a b sp pol disp => some (memF 0x40#7 h d a (if h.uni then z else b) sp pol disp)
  | .st h a b sp pol disp => some (memF 0x41#7 h (zd h) a b sp pol disp)
  | .ldu h d a sp pol disp => some (laneF 0x42#7 h d.enc a.enc 0#11 (memC sp pol disp))
  | .gth h d a b sp pol disp => some (laneF 0x47#7 h d.enc a.enc b.enc (memC sp pol disp))
  | .sct h data a b sp pol disp => some (laneF 0x48#7 h (0#1 ++ data) a.enc b.enc (memC sp pol disp))
  | .atom h d a b sp pol op => some (memF 0x43#7 h d a b sp pol (0#5 ++ op))
  | .atomo h d a b pol op => some (laneF 0x44#7 h d.enc a.enc b.enc (memC 4#3 pol op))
  | .atomoFin h => some (laneF 0x44#7 h 0#10 0#11 0#11 (memC 4#3 0#2 0x3F#6))
  | .fence h pred succ scope =>
    some ⟨0x45#7, h.w, h.ga.enc, h.gb.enc, pred ++ succ ++ scope ++ 0#21, 0#11, false, h.ctr⟩
  | .cpy h dk ak len ssp pol dsp =>
    some (laneF 0x46#7 h (Dst.enc (.ureg dk)) (Src.enc (.ureg ak)) len.enc (ssp ++ pol ++ dsp ++ 0#3))
  | .cpyCont h dk ak len ssp pol dsp =>
    some (laneF 0x46#7 h (Dst.enc (.ureg dk)) (Src.enc (.ureg ak)) (Src.enc (.ureg len)) (ssp ++ pol ++ dsp ++ 4#3))
  | .pref h a b sp pol disp => some (laneF 0x49#7 h 0#10 a.enc b.enc (memC sp pol disp))
  | .cmntWb h a b sp disp => some (laneF 0x4A#7 h 0#10 a.enc b.enc (memC sp 0#2 disp))
  | .cmntInv h a b sp disp => some (laneF 0x4A#7 h 0#10 a.enc b.enc (memC sp 1#2 disp))
  | .cmntL2wb h a b sp disp => some (laneF 0x4A#7 h 0#10 a.enc b.enc (memC sp 2#2 disp))
  | .cmntL2inv h a b sp disp => some (laneF 0x4A#7 h 0#10 a.enc b.enc (memC sp 3#2 disp))
  | .spill h n1 a f pol disp => some (laneF 0x4B#7 h (0#1 ++ n1) a.enc (0#2 ++ f) (memC 0#3 pol disp))
  | .fill h n1 a f pol disp => some (laneF 0x4C#7 h (0#1 ++ n1) a.enc (0#2 ++ f) (memC 0#3 pol disp))
  | .ringPush h a b sp pol => some (laneF 0x4D#7 h 0#10 (Src.enc (.ureg a)) b.enc (memC sp pol 0#6))
  | .ringPop h d a sp pol => some (laneF 0x4D#7 h d.enc (Src.enc (.ureg a)) 0#11 (memC sp pol 1#6))
  | .futFill h a b sp pol => some (laneF 0x4E#7 h 0#10 a.enc b.enc (memC sp pol 0#6))
  | .futWait h d a sp pol => some (laneF 0x4E#7 h d.enc a.enc 0#11 (memC sp pol 1#6))
  | .bra h t rc hint => some (braF 0x60#7 h t rc hint)
  | .braUniform h t rc hint => some (braF 0x60#7 h t rc hint)
  | .brx h a rc hint _ => some (brxF 0x61#7 h a rc hint)
  | .call h t rc hint => some (braF 0x62#7 h t rc hint)
  | .callUniform h t rc hint => some (braF 0x62#7 h t rc hint)
  | .callx h a rc hint _ => some (brxF 0x63#7 h a rc hint)
  | .ret h => some (onceF 0x64#7 h (zd h) (zk h) (zk h) 0#4 0#3)
  | .join => some ⟨0x65#7, 0#3, 7#4, 7#4, 0#32, 0#11, false, 0#2⟩
  | .exit h => some (onceF 0x66#7 h (zd h) (zk h) (zk h) 0#4 0#3)
  | .exitUniform h => some (onceF 0x66#7 h (zd h) (zk h) (zk h) 0#4 0#3)
  | .yield h => some (onceF 0x67#7 h (zd h) (zk h) (zk h) 0#4 0#3)
  | .barArrive h a b => some (onceF 0x68#7 h (zd h) a b 0#4 0#3)
  | .barWait h a => some (onceF 0x68#7 h (zd h) a (zk h) 1#4 0#3)
  | .barSync h a b => some (onceF 0x68#7 h (zd h) a b 2#4 0#3)
  | .sleep h a => some (onceF 0x69#7 h (zd h) a (zk h) 0#4 0#3)
  | .trap h a => some (onceF 0x6A#7 h (zd h) a (zk h) 0#4 0#3)
  | .bkpt h a => some (onceF 0x6C#7 h (zd h) a (zk h) 0#4 0#3)
  | .rtt h => some (onceF 0x6B#7 h (zd h) (zk h) (zk h) 0#4 0#3)
  | .rttSub h a => some (onceF 0x6B#7 h (zd h) a (zk h) 1#4 0#3)
  | .rttSkip h => some (onceF 0x6B#7 h (zd h) (zk h) (zk h) 2#4 0#3)
  | .forkMx h d a b n => some (onceF 0x70#7 h (.ureg d) (.ureg a) (.ureg b) 0#4 n)
  | .forkCp h d a b n => some (onceF 0x70#7 h (.ureg d) (.ureg a) (.ureg b) 1#4 n)
  | .forkCl h d a b n => some (onceF 0x70#7 h (.ureg d) (.ureg a) (.ureg b) 2#4 n)
  | .rdv h d a => some (onceF 0x71#7 h d a (zk h) 0#4 0#3)
  | .mfeedDat h t r a b => some (laneF 0x72#7 h (0#2 ++ t ++ r) a.enc b.enc (mods 0#3 0#4 false 0#3))
  | .mfeedScl h t r a b => some (laneF 0x72#7 h (0#2 ++ t ++ r) a.enc b.enc (mods 0#3 1#4 false 0#3))
  | .mfeedBand h t a b => some (laneF 0x72#7 h (0#2 ++ t ++ 0#6) a.enc b.enc (mods 0#3 2#4 false 0#3))
  | .mfeedQ h t r a b => some (laneF 0x72#7 h (0#2 ++ t ++ r) (0#2 ++ a) b.enc (mods 0#3 3#4 false 0#3))
  | .mwm h d t => some (laneF 0x73#7 h d.enc (0b11000000#8 ++ t) 0#11 0#11)
  | .stepLdtab h a sp => some (onceF 0x74#7 h (zd h) (.ureg a) (zk h) 0#4 sp)
  | .stepBind h a sp => some (onceF 0x74#7 h (zd h) (.ureg a) (zk h) 1#4 sp)
  | .stepRun h a sp => some (onceF 0x74#7 h (zd h) (.ureg a) (zk h) 2#4 sp)
  | .stepWait h => some (onceF 0x74#7 h (zd h) (zk h) (zk h) 3#4 0#3)
  | .stepDone h => some (onceF 0x74#7 h (zd h) (zk h) (zk h) 4#4 0#3)
  | .stepQry h d t => some (onceF 0x74#7 h (.ureg d) t (zk h) 5#4 0#3)
  | .stepStat h d sp => some (onceF 0x74#7 h (.ureg d) (zk h) (zk h) 6#4 sp)
  | .stepStop h => some (onceF 0x74#7 h (zd h) (zk h) (zk h) 7#4 0#3)
  | .spawn h a f => some (laneF 0x75#7 h 0#10 a.enc (0#2 ++ f) 0#11)
  | .spawnUniform h a b => some (uniF 0x75#7 h 0#8 a b 0#8 0#11 false)
  | .tend h => some (onceF 0x76#7 h (zd h) (zk h) (zk h) 0#4 0#3)
  | .claim h n => some (onceF 0x77#7 h (zd h) n (zk h) 0#4 0#3)
  | .give h n => some (onceF 0x78#7 h (zd h) n (zk h) 0#4 0#3)
  | .giveRole h n r => some (onceF 0x78#7 h (zd h) n r 1#4 0#3)
  | .regionBegin h => some (onceF 0x79#7 h (zd h) (zk h) (zk h) 0#4 0#3)
  | .regionEnd h => some (onceF 0x79#7 h (zd h) (zk h) (zk h) 1#4 0#3)
  | .digestRd h d n => some (laneF 0x7A#7 h d.enc (0b110000000#9 ++ n) 0#11 0#11)
  | .digestFold h a => some (laneF 0x7A#7 h 0#10 a.enc 0#11 (mods 0#3 1#4 false 0#3))
  | .rdsr h d num => some (srF 0x7B#7 h d (zk h) num)
  | .wrsr h num a => some (srF 0x7C#7 h (zd h) a num)
  | .sysLaunch h a b sp => some (onceF 0x7D#7 h (zd h) (.ureg a) b 0#4 sp)
  | .sysTlbinv h a b sc => some (onceF 0x7D#7 h (zd h) (.ureg a) (.ureg b) 1#4 sc)
  | .sysCarve h a => some (onceF 0x7D#7 h (zd h) (.ureg a) (zk h) 2#4 0#3)
  | .sysHalt h a => some (onceF 0x7D#7 h (zd h) (.ureg a) (zk h) 3#4 0#3)
  | .sysReplay h a => some (onceF 0x7D#7 h (zd h) (.ureg a) (zk h) 4#4 0#3)
  | .sysEfail h a => some (onceF 0x7D#7 h (zd h) (.ureg a) (zk h) 5#4 0#3)
  | .sysDebug h a b => some (onceF 0x7D#7 h (zd h) (.ureg a) (.ureg b) 6#4 0#3)
  | .sysSlice h a b => some (onceF 0x7D#7 h (zd h) (.ureg a) (.ureg b) 7#4 0#3)
  | _ => none

/-- The word of an instruction, as its engine class fetches it; none for the steps of the device. Fields that an operation does not use are
zero (R27; log entry 8). -/
def encode (i : Instr) : Option Word64 :=
  match i with
  | .clauseIssue cls cnt wait yld =>
    some (0b111111#6 ++ cls ++ cnt ++ wait.extractLsb' 2 1 ++ wait.extractLsb' 1 1 ++ wait.extractLsb' 0 1 ++
      BitVec.ofBool yld ++ 0#47)
  | .snop => some (sF 0x00#7 0#4 0#4 0#4 0#3 0#32)
  | .smov d a => some (sF 0x01#7 d a 0#4 0#3 0#32)
  | .smovi d imm => some (sF 0x02#7 d 0#4 0#4 0#3 imm)
  | .sadd d a b => some (sF 0x03#7 d a b 0#3 0#32)
  | .saddi d a imm => some (sF 0x04#7 d a 0#4 0#3 imm)
  | .ssub d a b => some (sF 0x05#7 d a b 0#3 0#32)
  | .smul d a b => some (sF 0x06#7 d a b 0#3 0#32)
  | .sshl d a b => some (sF 0x07#7 d a b 0#3 0#32)
  | .sshr d a b => some (sF 0x08#7 d a b 0#3 0#32)
  | .sand d a b => some (sF 0x09#7 d a b 0#3 0#32)
  | .sor d a b => some (sF 0x0A#7 d a b 0#3 0#32)
  | .scmp d a b cond => some (sF 0x0B#7 d a b cond 0#32)
  | .sbra a b cond imm => some (sF 0x0C#7 0#4 a b cond imm)
  | .sloop d imm => some (sF 0x0D#7 d 0#4 0#4 0#3 imm)
  | .send => some (sF 0x0E#7 0#4 0#4 0#4 0#3 0#32)
  | .ssig sp a imm => some (sF 0x0F#7 sp a 0#4 0#3 imm)
  | .mma fmt t reuse acc b c k => some (xF 0x20#7 fmt t reuse acc b c k)
  | .mzero acc => some (xF 0x21#7 0#4 0#2 false acc 0#4 0#4 0#6)
  | .mwaitAt t => some (xF 0x22#7 0#4 t false 0#3 0#4 0#4 0#6)
  | .mwaitAcc acc => some (xF 0x22#7 0#4 0#2 true acc 0#4 0#4 0#6)
  | .mrel t => some (xF 0x23#7 0#4 t false 0#3 0#4 0#4 0#6)
  | .mbscale acc f => some (xF 0x24#7 0#4 0#2 false acc f 0#4 0#6)
  | .cld w d a n x dsp ssp pol => some (yF 0x20#7 (w.setWidth 7) d a n x dsp ssp pol 0#3 0#3 0#3)
  | .cst w d a n x dsp ssp pol => some (yF 0x21#7 (w.setWidth 7) d a n x dsp ssp pol 0#3 0#3 0#3)
  | .cgth w d a n x dsp ssp pol => some (yF 0x22#7 (w.setWidth 7) d a n x dsp ssp pol 0#3 0#3 0#3)
  | .csct w d a n x dsp ssp pol => some (yF 0x23#7 (w.setWidth 7) d a n x dsp ssp pol 0#3 0#3 0#3)
  | .cacc w d a n x dsp ssp pol tile => some (yF 0x24#7 (w.setWidth 7) d a n x dsp ssp pol tile 0#3 0#3)
  | .ccoll w d a n x dsp ssp pol op scope => some (yF 0x25#7 (w.setWidth 7) d a n x dsp ssp pol 0#3 op scope)
  | .cwait w a n ssp pol => some (yF 0x26#7 (w.setWidth 7) 0#4 a n 0#4 0#3 ssp pol 0#3 0#3 0#3)
  | .cfill w d a n dsp pol => some (yF 0x27#7 (w.setWidth 7) d a n 0#4 dsp 0#3 pol 0#3 0#3 0#3)
  | i => (Instr.fields i).map Fields.pack

/-- A header word without its checks (R7). -/
def parseHeader (x : Word64) : Instr :=
  .clauseIssue (x.extractLsb' 55 3) (x.extractLsb' 51 4)
    (x.extractLsb' 50 1 ++ x.extractLsb' 49 1 ++ x.extractLsb' 48 1) (x.getLsbD 47)

def isHeader (x : Word64) : Bool := x.extractLsb' 58 6 = 0b111111#6

def headL (f : Fields) : Head := ⟨false, f.w, Guard.dec f.ga, Guard.dec f.gb, f.s, f.r⟩
def headU (f : Fields) : Head := ⟨true, f.w, Guard.dec f.ga, Guard.dec f.gb, false, f.r⟩

/-- rdsr by register number (R313; the table gives three numbers a row of their own). -/
def parseRdsr (h : Head) (d : Dst) (num : BitVec 11) : Instr :=
  if num = 0x021#11 then .rdsrFpflags h d else if num = 0x010#11 then .rdsrClock0 h d else .rdsr h d num

/-- wrsr by register number. -/
def parseWrsr (h : Head) (a : Src) (num : BitVec 11) : Instr :=
  if num = 0x020#11 then .wrsrFpctl h a
  else if num = 0x021#11 then .wrsrFpflags h a
  else if num = 0x030#11 ∨ num = 0x031#11 ∨ num = 0x032#11 then .wrsrUtrap h (num.extractLsb' 0 2) a
  else if num = 0x11B#11 then .mfqheadWrite h a
  else .wrsr h num a

/-- A lane-class word without its checks (R28, R29). -/
def parseLane (f : Fields) : Option Instr :=
  let h := headL f
  let d := Dst.dec f.d; let a := Src.dec f.a; let b := Src.dec f.b; let c := Src.dec f.c
  let rm := f.c.extractLsb' 8 3; let sub := f.c.extractLsb' 4 4; let sg := f.c.getLsbD 3; let aux := f.c.extractLsb' 0 3
  let hi := f.c.extractLsb' 5 3; let b7 := f.c.getLsbD 4
  let sat := f.c.getLsbD 4
  let p := f.d.extractLsb' 0 3
  let sp := f.c.extractLsb' 8 3; let pol := f.c.extractLsb' 6 2; let disp := f.c.extractLsb' 0 6
  let av := f.a.extractLsb' 6 3; let bv := f.b.extractLsb' 6 3; let dv := f.d.extractLsb' 6 3
  let as := f.a.extractLsb' 0 9; let bs := f.b.extractLsb' 0 9; let ds := f.d.extractLsb' 0 9
  let ak := f.a.extractLsb' 0 8; let bk := f.b.extractLsb' 0 8; let dk := f.d.extractLsb' 0 8
  let hb : Head := { h with sup := false }
  let target := f.m.extractLsb' 10 22
  let rc := f.m.extractLsb' 0 10 ++ f.c.extractLsb' 5 6
  let ug := h.w = 1#3
  match f.op.toNat with
  | 0x00 => some (.nop h)
  | 0x01 => some (.mov h d a)
  | 0x02 => some (.movi h d ((f.b ++ f.c).signExtend 32))
  | 0x03 => some (.sel h d a b ⟨sat, aux⟩)
  | 0x04 => some (.iadd h d a b sat sg)
  | 0x05 => some (.isub h d a b sat sg)
  | 0x06 => some (.imul h d a b sg)
  | 0x07 => some (.imulh h d a b sg)
  | 0x08 => some (.imad h d a b c)
  | 0x09 => some (.imin h d a b sg)
  | 0x0A => some (.imax h d a b sg)
  | 0x0B => some (.iabs h d a sat)
  | 0x0C => some (.shl h d a b)
  | 0x0D => some (.shr h d a b)
  | 0x0E => some (.sar h d a b)
  | 0x0F => some (.rot h d a b)
  | 0x10 => some (.and h d a b)
  | 0x11 => some (.or h d a b)
  | 0x12 => some (.xor h d a b)
  | 0x13 => some (.not h d a)
  | 0x14 => some (.lop3 h d a b (f.c.extractLsb' 0 8))
  | 0x15 => some (.bfx h d a b sg)
  | 0x16 => some (.bfi h d a b c)
  | 0x17 => some (.popc h d a)
  | 0x18 => some (.clz h d a)
  | 0x19 => some (.brev h d a)
  | 0x1A => some (.lea h d a b aux sg)
  | 0x1B => some (.isetp h (.p p) a b sub sg)
  | 0x1C => some (.shfl h d a b sub)
  | 0x1D => if sub = 3#4 then some (.voteBallot h dk a)
            else some (.vote h (if f.c.getLsbD 0 then .g p else .p p) a sub)
  | 0x1E => some (.redx h d a sub rm sg)
  | 0x1F => some (.iaddi h d a ((f.b ++ f.c).signExtend 27))
  | 0x20 => some (.fadd h d a b rm)
  | 0x21 => some (.fsub h d a b rm)
  | 0x22 => some (.fmul h d a b rm)
  | 0x23 => some (.ffma h d a b c)
  | 0x24 => some (.fmin h d a b)
  | 0x25 => some (.fmax h d a b)
  | 0x26 => some (.fsetp h (.p p) a b sub)
  | 0x27 => some (.fdiv h d a b rm)
  | 0x28 => some (.fsqrt h d a rm)
  | 0x29 => some (.frcp h d a rm)
  | 0x2A => some (.frsq h d a rm)
  | 0x2B => some (.fex2 h d a rm)
  | 0x2C => some (.flg2 h d a rm)
  | 0x2D => some (.fsin h d a rm)
  | 0x2E => some (.fcos h d a rm)
  | 0x2F => some (.frnd h d a sat rm)
  | 0x30 => some (.fcls h d a)
  | 0x31 => some (.fcvt h d a hi aux b7 rm)
  | 0x32 => some (.icvt h d a hi aux sg rm)
  | 0x33 => some (.fcvti h d a aux sg rm)
  | 0x34 => some (.blkq h ds as (if b7 then some b else none) hi aux rm)
  | 0x35 => some (.blkdq h ds a b hi aux rm)
  | 0x36 => some (.bscale h d a hi aux)
  | 0x37 => some (.srnd h d a bv hi aux)
  | 0x38 => some (.pack h ds as sub sg aux)
  | 0x39 => some (.unpack h ds as sg aux)
  | 0x3A => some (.tbld h ak (f.b.extractLsb' 0 4) aux)
  | 0x3B => some (.tbind h)
  | 0x3C => some (.teval h d a (f.c.extractLsb' 0 2) rm)
  | 0x3D => some (.lzdraw h dv a b)
  | 0x3E => if sub = 1#4 then some (.lzcmpExt h av b) else some (.lzcmp h p av b (f.c.getLsbD 0))
  | 0x3F => some (.lzval h d av rm)
  | 0x40 => some (.ld h d a b sp pol (disp.signExtend 11))
  | 0x41 => some (.st h a b sp pol (disp.signExtend 11))
  | 0x42 => some (.ldu h d a sp pol disp)
  | 0x43 => some (.atom h d a b sp pol disp)
  | 0x44 => if disp = 0x3F#6 then some (.atomoFin h) else some (.atomo h d a b pol disp)
  | 0x45 => some (.fence h (f.m.extractLsb' 28 4) (f.m.extractLsb' 24 4) (f.m.extractLsb' 21 3))
  | 0x46 => if f.c.getLsbD 2 then some (.cpyCont h dk ak bk sp pol (f.c.extractLsb' 3 3))
            else some (.cpy h dk ak b sp pol (f.c.extractLsb' 3 3))
  | 0x47 => some (.gth h d a b sp pol disp)
  | 0x48 => some (.sct h ds a b sp pol disp)
  | 0x49 => some (.pref h a b sp pol disp)
  | 0x4A => match pol.toNat with
            | 0 => some (.cmntWb h a b sp disp)
            | 1 => some (.cmntInv h a b sp disp)
            | 2 => some (.cmntL2wb h a b sp disp)
            | _ => some (.cmntL2inv h a b sp disp)
  | 0x4B => some (.spill h ds a bs pol disp)
  | 0x4C => some (.fill h ds a bs pol disp)
  | 0x4D => if disp = 0#6 then some (.ringPush h ak b sp pol) else some (.ringPop h d ak sp pol)
  | 0x4E => if disp = 0#6 then some (.futFill h a b sp pol) else some (.futWait h d a sp pol)
  | 0x60 => if ug then some (.braUniform hb target rc h.sup) else some (.bra hb target rc h.sup)
  | 0x61 => some (.brx hb (Src.dec (f.m.extractLsb' 21 11)) rc h.sup ug)
  | 0x62 => if ug then some (.callUniform hb target rc h.sup) else some (.call hb target rc h.sup)
  | 0x63 => some (.callx hb (Src.dec (f.m.extractLsb' 21 11)) rc h.sup ug)
  | 0x64 => some (.ret h)
  | 0x65 => some .join
  | 0x66 => some (.exit h)
  | 0x67 => some (.yield h)
  | 0x68 => match sub.toNat with
            | 0 => some (.barArrive h a b)
            | 1 => some (.barWait h a)
            | 2 => some (.barSync h a b)
            | _ => none
  | 0x69 => some (.sleep h a)
  | 0x6A => some (.trap h a)
  | 0x6B => match sub.toNat with
            | 0 => some (.rtt h)
            | 1 => some (.rttSub h a)
            | 2 => some (.rttSkip h)
            | _ => none
  | 0x6C => some (.bkpt h a)
  | 0x70 => match sub.toNat with
            | 0 => some (.forkMx h dk ak bk aux)
            | 1 => some (.forkCp h dk ak bk aux)
            | 2 => some (.forkCl h dk ak bk aux)
            | _ => none
  | 0x71 => some (.rdv h d a)
  | 0x72 => match sub.toNat with
            | 0 => some (.mfeedDat h (f.d.extractLsb' 6 2) (f.d.extractLsb' 0 6) a b)
            | 1 => some (.mfeedScl h (f.d.extractLsb' 6 2) (f.d.extractLsb' 0 6) a b)
            | 2 => some (.mfeedBand h (f.d.extractLsb' 6 2) a b)
            | 3 => some (.mfeedQ h (f.d.extractLsb' 6 2) (f.d.extractLsb' 0 6) as b)
            | _ => none
  | 0x73 => some (.mwm h d (f.a.extractLsb' 0 3))
  | 0x74 => match sub.toNat with
            | 0 => some (.stepLdtab h ak aux)
            | 1 => some (.stepBind h ak aux)
            | 2 => some (.stepRun h ak aux)
            | 3 => some (.stepWait h)
            | 4 => some (.stepDone h)
            | 5 => some (.stepQry h dk a)
            | 6 => some (.stepStat h dk aux)
            | 7 => some (.stepStop h)
            | _ => none
  | 0x75 => some (.spawn h a bs)
  | 0x76 => some (.tend h)
  | 0x77 => some (.claim h a)
  | 0x78 => if sub = 1#4 then some (.giveRole h a b) else some (.give h a)
  | 0x79 => if sub = 1#4 then some (.regionEnd h) else some (.regionBegin h)
  | 0x7A => if sub = 1#4 then some (.digestFold h a) else some (.digestRd h d (f.a.extractLsb' 0 2))
  | 0x7B => some (parseRdsr h d f.b)
  | 0x7C => some (parseWrsr h a f.b)
  | 0x7D => match sub.toNat with
            | 0 => some (.sysLaunch h ak b aux)
            | 1 => some (.sysTlbinv h ak bk aux)
            | 2 => some (.sysCarve h ak)
            | 3 => some (.sysHalt h ak)
            | 4 => some (.sysReplay h ak)
            | 5 => some (.sysEfail h ak)
            | 6 => some (.sysDebug h ak bk)
            | 7 => some (.sysSlice h ak bk)
            | _ => none
  | _ => none

/-- A uniform-class word without its checks (R24, R30). -/
def parseUni (f : Fields) : Option Instr :=
  let h := headU f
  let d : Dst := .ureg f.ud; let a : Src := .ureg f.ua; let c : Src := .ureg f.uc
  let b : Src := if f.s then .uimm f.c else .ureg f.ub
  let rm := f.uc.extractLsb' 5 3; let sub := f.uc.extractLsb' 1 4; let sg := f.uc.getLsbD 0; let aux := f.c.extractLsb' 0 3
  let sat := f.uc.getLsbD 1
  let p := f.ud.extractLsb' 0 3
  let sp := f.uc.extractLsb' 5 3; let pol := f.uc.extractLsb' 3 2
  let imm32 := f.m.extractLsb' 0 21 ++ f.c
  let target := f.m.extractLsb' 10 22
  let rc := f.m.extractLsb' 0 10 ++ f.c.extractLsb' 5 6
  match f.op.toNat with
  | 0x00 => some (.nop h)
  | 0x01 => some (.mov h d a)
  | 0x02 => if h.w = 5#3 ∧ 157 ≤ f.ud.toNat then some (.maskWrite h ((f.ud - 157#8).setWidth 2) imm32)
            else some (.movi h d imm32)
  | 0x03 => some (.sel h d a b ⟨f.uc.getLsbD 4, f.uc.extractLsb' 1 3⟩)
  | 0x04 => some (.iadd h d a b sat sg)
  | 0x05 => some (.isub h d a b sat sg)
  | 0x06 => some (.imul h d a b sg)
  | 0x07 => some (.imulh h d a b sg)
  | 0x08 => some (.imad h d a b c)
  | 0x09 => some (.imin h d a b sg)
  | 0x0A => some (.imax h d a b sg)
  | 0x0B => some (.iabs h d a sat)
  | 0x0C => some (.shl h d a b)
  | 0x0D => some (.shr h d a b)
  | 0x0E => some (.sar h d a b)
  | 0x0F => some (.rot h d a b)
  | 0x10 => some (.and h d a b)
  | 0x11 => some (.or h d a b)
  | 0x12 => some (.xor h d a b)
  | 0x13 => some (.not h d a)
  | 0x14 => some (.lop3 h d a b (f.c.extractLsb' 3 8))
  | 0x15 => some (.bfx h d a b sg)
  | 0x16 => some (.bfi h d a b c)
  | 0x17 => some (.popc h d a)
  | 0x18 => some (.clz h d a)
  | 0x19 => some (.brev h d a)
  | 0x1A => some (.lea h d a b (f.uc.extractLsb' 1 3) sg)
  | 0x1B => some (.isetp h (.g p) a b sub sg)
  | 0x1F => some (.iaddi h d a (f.m.extractLsb' 0 16 ++ f.c))
  | 0x20 => some (.fadd h d a b rm)
  | 0x21 => some (.fsub h d a b rm)
  | 0x22 => some (.fmul h d a b rm)
  | 0x23 => some (.ffma h d a b c)
  | 0x24 => some (.fmin h d a b)
  | 0x25 => some (.fmax h d a b)
  | 0x26 => some (.fsetp h (.g p) a b sub)
  | 0x31 => some (.fcvt h d a (f.c.extractLsb' 5 3) aux sat rm)
  | 0x32 => some (.icvt h d a (f.c.extractLsb' 5 3) aux sg rm)
  | 0x40 => some (.ld h d a (.imm 0#9) sp pol f.c)
  | 0x41 => some (.st h a b sp pol f.c)
  | 0x43 => some (.atom h d a b sp pol (f.c.extractLsb' 0 6))
  | 0x45 => some (.fence h (f.m.extractLsb' 28 4) (f.m.extractLsb' 24 4) (f.m.extractLsb' 21 3))
  | 0x60 => some (.braUniform h target rc f.s)
  | 0x62 => some (.callUniform h target rc f.s)
  | 0x64 => some (.ret h)
  | 0x66 => some (.exitUniform h)
  | 0x67 => some (.yield h)
  | 0x68 => match sub.toNat with
            | 0 => some (.barArrive h a b)
            | 1 => some (.barWait h a)
            | 2 => some (.barSync h a b)
            | _ => none
  | 0x69 => some (.sleep h a)
  | 0x6A => some (.trap h a)
  | 0x6B => match sub.toNat with
            | 0 => some (.rtt h)
            | 1 => some (.rttSub h a)
            | 2 => some (.rttSkip h)
            | _ => none
  | 0x6C => some (.bkpt h a)
  | 0x70 => match sub.toNat with
            | 0 => some (.forkMx h f.ud f.ua f.ub aux)
            | 1 => some (.forkCp h f.ud f.ua f.ub aux)
            | 2 => some (.forkCl h f.ud f.ua f.ub aux)
            | _ => none
  | 0x71 => some (.rdv h d a)
  | 0x74 => match sub.toNat with
            | 0 => some (.stepLdtab h f.ua aux)
            | 1 => some (.stepBind h f.ua aux)
            | 2 => some (.stepRun h f.ua aux)
            | 3 => some (.stepWait h)
            | 4 => some (.stepDone h)
            | 5 => some (.stepQry h f.ud a)
            | 6 => some (.stepStat h f.ud aux)
            | 7 => some (.stepStop h)
            | _ => none
  | 0x75 => some (.spawnUniform h f.ua f.ub)
  | 0x76 => some (.tend h)
  | 0x77 => some (.claim h a)
  | 0x78 => if sub = 1#4 then some (.giveRole h a b) else some (.give h a)
  | 0x79 => if sub = 1#4 then some (.regionEnd h) else some (.regionBegin h)
  | 0x7B => some (parseRdsr h d f.c)
  | 0x7C => some (parseWrsr h a f.c)
  | 0x7D => match sub.toNat with
            | 0 => some (.sysLaunch h f.ua b aux)
            | 1 => some (.sysTlbinv h f.ua f.ub aux)
            | 2 => some (.sysCarve h f.ua)
            | 3 => some (.sysHalt h f.ua)
            | 4 => some (.sysReplay h f.ua)
            | 5 => some (.sysEfail h f.ua)
            | 6 => some (.sysDebug h f.ua f.ub)
            | 7 => some (.sysSlice h f.ua f.ub)
            | _ => none
  | _ => none

/-- The scalar control block, shared by both sequencer classes (R25, R301). -/
def parseScalar (x : Word64) : Option Instr :=
  let d := x.extractLsb' 53 4; let a := x.extractLsb' 49 4; let b := x.extractLsb' 45 4
  let cond := x.extractLsb' 42 3; let imm := x.extractLsb' 3 32
  match (x.extractLsb' 57 7).toNat with
  | 0x00 => some .snop
  | 0x01 => some (.smov d a)
  | 0x02 => some (.smovi d imm)
  | 0x03 => some (.sadd d a b)
  | 0x04 => some (.saddi d a imm)
  | 0x05 => some (.ssub d a b)
  | 0x06 => some (.smul d a b)
  | 0x07 => some (.sshl d a b)
  | 0x08 => some (.sshr d a b)
  | 0x09 => some (.sand d a b)
  | 0x0A => some (.sor d a b)
  | 0x0B => some (.scmp d a b cond)
  | 0x0C => some (.sbra a b cond imm)
  | 0x0D => some (.sloop d imm)
  | 0x0E => some .send
  | 0x0F => some (.ssig d a imm)
  | _ => none

/-- A matrix-sequencer word without its checks (R26, R31, R235). -/
def parseMatrix (x : Word64) : Option Instr :=
  let fmt := x.extractLsb' 53 4; let t := x.extractLsb' 51 2; let reuse := x.getLsbD 50
  let acc := x.extractLsb' 47 3; let b := x.extractLsb' 43 4; let c := x.extractLsb' 39 4; let k := x.extractLsb' 33 6
  match (x.extractLsb' 57 7).toNat with
  | 0x20 => some (.mma fmt t reuse acc b c k)
  | 0x21 => some (.mzero acc)
  | 0x22 => if reuse then some (.mwaitAcc acc) else some (.mwaitAt t)
  | 0x23 => some (.mrel t)
  | 0x24 => some (.mbscale acc b)
  | _ => parseScalar x

/-- A copy-sequencer word without its checks (R27, R32). -/
def parseCopy (x : Word64) : Option Instr :=
  let w := x.extractLsb' 54 3; let d := x.extractLsb' 50 4; let a := x.extractLsb' 46 4
  let n := x.extractLsb' 42 4; let xx := x.extractLsb' 38 4
  let dsp := x.extractLsb' 35 3; let ssp := x.extractLsb' 32 3; let pol := x.extractLsb' 30 2
  let tile := x.extractLsb' 27 3; let red := x.extractLsb' 24 3; let sc := x.extractLsb' 21 3
  match (x.extractLsb' 57 7).toNat with
  | 0x20 => some (.cld w d a n xx dsp ssp pol)
  | 0x21 => some (.cst w d a n xx dsp ssp pol)
  | 0x22 => some (.cgth w d a n xx dsp ssp pol)
  | 0x23 => some (.csct w d a n xx dsp ssp pol)
  | 0x24 => some (.cacc w d a n xx dsp ssp pol tile)
  | 0x25 => some (.ccoll w d a n xx dsp ssp pol red sc)
  | 0x26 => some (.cwait w a n ssp pol)
  | 0x27 => some (.cfill w d a n dsp pol)
  | _ => parseScalar x

/-- A word of an engine class without its checks. -/
def parse (cls : BitVec 3) (x : Word64) : Option Instr :=
  match cls.toNat with
  | 0 => parseLane (Fields.unpack x)
  | 1 => parseUni (Fields.unpack x)
  | 2 => parseMatrix x
  | 3 => parseCopy x
  | _ => none

/-- A word at an instruction position of a clause of class `cls` (R33). -/
def decode (cls : BitVec 3) (x : Word64) : Except Reject Instr :=
  match parse cls x with
  | none => .error .illegalInstruction
  | some i => if i.wf ∧ encode i = some x then .ok i else .error .illegalInstruction

/-- A word at a header position (R7, R9). -/
def decodeHeader (x : Word64) : Except Reject Instr :=
  if isHeader x ∧ (parseHeader x).wf ∧ encode (parseHeader x) = some x then .ok (parseHeader x)
  else .error .illegalHeader

/-- The eight bytes of a word, least significant first (R66). -/
def wordBytes (x : Word64) : List Byte := (List.range 8).map (fun i => x.extractLsb' (8 * i) 8)

/-- The word of eight bytes, least significant first. -/
def bytesWord (bs : List Byte) : Word64 :=
  bs.foldr (fun b acc => (acc <<< 8) ||| b.setWidth 64) 0#64

/-- The instruction read from the bits `w` of the host's numbering: a header followed by a word gives the word in the
header's class; a header alone gives its clause issue; any other word is read in the lane class. -/
def decodeTableWord (nbits w : Nat) : Option Instr :=
  let x := bytesWord (wordBytes (BitVec.ofNat 64 w))
  let y := bytesWord (wordBytes (BitVec.ofNat 64 (w / 2 ^ 64)))
  if isHeader x then
    if nbits ≤ 64 then (decodeHeader x).toOption
    else
      match decodeHeader x with
      | .ok (.clauseIssue cls _ _ _) => (decode cls y).toOption
      | _ => none
  else (decode 0#3 x).toOption

end Sys2Proof
end

