-- ==== Sys2Proof/Machine/Mem.lean ====
section
/-! DEFINITION. Memory as a sorted list of bytes, its canonical form, and where each address has its home. -/

namespace Sys2Proof.Machine

/-- What a byte that nothing has written reads as (log entry 1). -/
def unlisted : Byte := 0#8

/-- The byte at a key. -/
def memGet (m : Memory) (a : Nat) : Byte :=
  match m with
  | [] => unlisted
  | (k, v) :: r => if k = a then v else memGet r a

/-- Memory with one byte written; the canonical form is kept. -/
def memPut (m : Memory) (a : Nat) (v : Byte) : Memory :=
  match m with
  | [] => if v = unlisted then [] else [(a, v)]
  | (k, x) :: r =>
    if a < k then (if v = unlisted then (k, x) :: r else (a, v) :: (k, x) :: r)
    else if a = k then (if v = unlisted then r else (a, v) :: r)
    else (k, x) :: memPut r a v

/-- Every key of the memory is above `lo`, keys rise, and no byte is the unlisted one. -/
def memWfFrom (lo : Nat) (m : Memory) : Bool :=
  match m with
  | [] => true
  | (k, v) :: r => decide (lo ≤ k) && decide (v ≠ unlisted) && memWfFrom (k + 1) r

/-- The canonical form of memory. -/
def Memory.wf (m : Memory) : Bool := memWfFrom 0 m

def memGets (m : Memory) (ks : List Nat) : List Byte := ks.map (memGet m)

def memPuts (m : Memory) (ks : List Nat) (vs : List Byte) : Memory :=
  (ks.zip vs).foldl (fun m p => memPut m p.1 p.2) m

/-! ### Keys -/

/-- The key of byte `off` of a core's SRAM scratchpad (R55). -/
def sramKey (die core off : Nat) : Nat := 2 ^ 56 + (die * 64 + core) * 2 ^ 20 + off

/-- The part of a die's scratchpad in which offset `off` lies: units of 256 bytes go round the 32 parts (R62). -/
def dsPart (off : Nat) : Nat := off / 2 ^ 8 % 32

/-- The place of an offset in its part. -/
def dsPlace (off : Nat) : Nat := off / 2 ^ 13 * 2 ^ 8 + off % 2 ^ 8

/-- The key of byte `off` of a die's scratchpad: the parts of 1 MiB follow each other (R62). -/
def dsKey (die off : Nat) : Nat := 2 ^ 57 + die * 2 ^ 25 + dsPart off * 2 ^ 20 + dsPlace off

/-- The offset in its die's scratchpad of the byte at a key. -/
def dsOffset (k : Nat) : Nat :=
  let x := (k - 2 ^ 57) % 2 ^ 25
  x % 2 ^ 20 / 2 ^ 8 * 2 ^ 13 + x / 2 ^ 20 * 2 ^ 8 + x % 2 ^ 8

/-- The line of a key: 128 bytes (R60). -/
def lineOf (k : Nat) : Nat := k / 128

/-- A key that lies behind the L2 (R61). -/
def isGlobal (k : Nat) : Bool := k < 2 ^ 56

/-- The window of a physical address (R47). -/
def window (k : Nat) : Nat := k / 2 ^ 52

/-- The die of a physical address's home (R61); a remote module has none in this module. -/
def homeDie (k : Nat) : Option Nat :=
  if k < 2 ^ 56 then
    match window k with
    | 0 => some (k / 2 ^ 36 % 32)
    | 2 => some 0
    | _ => none
  else if k < 2 ^ 57 then some ((k - 2 ^ 56) / 2 ^ 20 / 64)
  else some ((k - 2 ^ 57) / 2 ^ 25)

/-- H(x) of R61. -/
def sliceHash (x : Nat) : Nat :=
  (x / 2 ^ 7 % 32) ^^^ (x / 2 ^ 12 % 32) ^^^ (x / 2 ^ 17 % 32) ^^^ (x / 2 ^ 22 % 32) ^^^ (x / 2 ^ 27 % 32)

/-- The byte of a 128-byte line. -/
def lineByte (d : BitVec 1024) (o : Nat) : Byte := d.extractLsb' (8 * o) 8

def setLineByte (d : BitVec 1024) (o : Nat) (v : Byte) : BitVec 1024 := setField d (8 * o) v

/-- The sector of a byte in its line (R60). -/
def sectorOf (k : Nat) : Nat := k % 128 / 32

end Sys2Proof.Machine
end

