-- ==== Sys2Proof/Machine/Hier.lean ====
section
/-! DEFINITION. The memory hierarchy: home L2 slices, leased copies, the L1, and the bytes that an agent reads. -/

namespace Sys2Proof.Machine

/-! ### Parts of the module by number -/

def coreKey (die core : Nat) : Nat := die * 64 + core
def quadKey (die core quad : Nat) : Nat := (die * 64 + core) * 4 + quad

def State.core (s : State) (die core : Nat) : CoreSt := (tget s.cores (coreKey die core)).getD CoreSt.reset
def State.setCore (s : State) (die core : Nat) (c : CoreSt) : State := { s with cores := tset s.cores (coreKey die core) c }
def State.quad (s : State) (die core quad : Nat) : Quad := (tget s.quads (quadKey die core quad)).getD Quad.reset
def State.setQuad (s : State) (die core quad : Nat) (q : Quad) : State :=
  { s with quads := tset s.quads (quadKey die core quad) q }
def State.die (s : State) (d : Nat) : Die := (tget s.dies d).getD Die.reset
def State.setDie (s : State) (d : Nat) (x : Die) : State := { s with dies := tset s.dies d x }
def State.tenant (s : State) (t : Nat) : Tenant := (tget s.tenants t).getD Tenant.reset
def State.setTenant (s : State) (t : Nat) (x : Tenant) : State := { s with tenants := tset s.tenants t x }
def State.deque (s : State) (l : Nat) : Deque := (tget s.deques l).getD Deque.reset
def State.setDeque (s : State) (l : Nat) (x : Deque) : State := { s with deques := tset s.deques l x }

/-- The line whose byte o is `f o`. -/
def lineFrom (f : Nat → Byte) : BitVec 1024 :=
  (List.range 128).foldr (fun o acc => (acc <<< 8) ||| (f o).setWidth 1024) 0#1024

/-! ### The home -/

/-- The physical address of a byte (R47): a striped unit lies in its die's striped reserve. -/
def keyOfPhys (s : State) (pa : Nat) : Nat :=
  if window pa = 1 then
    let x := pa % 2 ^ 52
    let u := x / 4096
    let d := u % 24
    d * 2 ^ 36 + (s.die d).reserveBase + u / 24 * 4096 + x % 4096
  else pa

/-- The home slice of a key on its die (R61): a unit of the striped reserve is hashed by its stripe address. -/
def homeSlice (s : State) (k : Nat) : Nat :=
  let d := k / 2 ^ 36 % 32
  let off := k % 2 ^ 36
  let x := s.die d
  if window k = 0 ∧ x.reserveBase ≤ off ∧ off < x.reserveBase + x.reserveSize then
    let o := off - x.reserveBase
    sliceHash ((o / 4096 * 24 + d) * 4096 + o % 4096)
  else sliceHash k

def State.l2Line? (s : State) (line : Nat) : Option L2Line := s.l2.find? fun e => e.line = line

/-- The byte at its point of coherence, as the agents of the home die read it (R61, R100): what stores have put into the home
slice, and memory's byte where they have put none. -/
def homeByte (s : State) (k : Nat) : Byte :=
  match s.l2Line? (lineOf k) with
  | some e => if e.mask.getLsbD (k % 128) then lineByte e.data (k % 128) else memGet s.mem k
  | none => memGet s.mem k

/-- The value that a byte had before the stores that have not performed at .mod (R106): the oldest one's. -/
def heldByte? (s : State) (k : Nat) : Option Byte :=
  (s.held.find? fun h => h.line = lineOf k && (tget h.old k).isSome).bind fun h => tget h.old k

/-- The byte that an agent of die `d` reads at the home (R106). -/
def homeByteFrom (s : State) (d k : Nat) : Byte :=
  if homeDie k = some d then homeByte s k else (heldByte? s k).getD (homeByte s k)

def homeLine (s : State) (d line : Nat) : BitVec 1024 :=
  lineFrom fun o => homeByteFrom s d (line * 128 + o)

/-- The bytes at `n` consecutive keys, at their home. -/
def homeBytes (s : State) (d k n : Nat) : List Byte := (upFrom k n).map (homeByteFrom s d)

def homeNat (s : State) (d k n : Nat) : Nat := natOfBytes (homeBytes s d k n)

/-! ### Write-back and removal of home lines (R60, R79) -/

/-- The sectors whose bytes are all named by a mask. -/
def wholeSectors (m : BitVec 128) : BitVec 4 :=
  (List.range 4).foldl (fun (b : BitVec 4) i => if m.extractLsb' (32 * i) 32 = BitVec.allOnes 32 then b ||| (1#4 <<< i) else b) 0#4

/-! ### Bandwidth (R322) -/

/-- The bucket of a tenant at the controller that serves a 64-byte block. -/
def bucketOf (block tenant : Nat) : Nat := Config.controllerOf block % 8 * 64 + tenant

def Die.strict (d : Die) (bucket : Nat) : Bool := ((tget d.buckets bucket).getD 0#64).getLsbD 32

/-- The buckets whose tokens a tenant may spend on a transfer: its own, and where that is not strict the other non-strict ones of the
controller in ascending tenant order. -/
def Die.lenders (d : Die) (block tenant : Nat) : List Nat :=
  let own := bucketOf block tenant
  if d.strict own then [own]
  else own :: ((List.range 64).map (bucketOf block)).filter fun b => b ≠ own && !d.strict b

/-- A transfer of 64 bytes spends one token, where one is left; a die to which no section of buckets has been applied keeps none. -/
def Die.spend (d : Die) (tenant block : Nat) : Option Die :=
  if d.buckets.isEmpty then some d
  else ((d.lenders block tenant).find? fun b => decide (0 < (tget d.tokens b).getD 0)).map fun b =>
    { d with tokens := tset d.tokens b ((tget d.tokens b).getD 0 - 1) }

/-- The transfers of a line's blocks: the die after them, and whether each found its token. -/
def Die.spends (d : Die) (tenant : Nat) : List Nat → Die × Bool
  | [] => (d, true)
  | b :: r => match d.spend tenant b with
    | some d => d.spends tenant r
    | none => ((d.spends tenant r).1, false)

/-- The blocks of 64 bytes of a line in which a sector is named. -/
def blocksOf (line : Nat) (sectors : BitVec 4) : List Nat :=
  ([0, 1].filter fun h => sectors.extractLsb' (2 * h) 2 ≠ 0#2).map fun h => 2 * line + h

/-- Transfers between the memory of a line's die and its L2. -/
def transfer (s : State) (tenant line : Nat) (sectors : BitVec 4) : State :=
  let d := (homeDie (line * 128)).getD 0
  if (s.die d).buckets.isEmpty then s else s.setDie d ((s.die d).spends tenant (blocksOf line sectors)).1

/-- The sectors of a line that its home slice lacks (R60). -/
def missing (s : State) (line : Nat) : BitVec 4 :=
  match s.l2Line? line with
  | some e => ~~~(e.valid ||| wholeSectors e.mask)
  | none => 15#4

/-- The dirty sectors of a line go to memory, by byte mask; the line stays. -/
def l2WriteBack (s : State) (line : Nat) : State :=
  match s.l2Line? line with
  | none => s
  | some e =>
    let ks := (upFrom (line * 128) 128).filter fun k => e.mask.getLsbD (k % 128)
    let s := transfer s e.tenant line e.dirty
    { s with mem := memPuts s.mem ks (ks.map fun k => lineByte e.data (k % 128)),
             l2 := s.l2.map fun x => if x.line = line then
               { x with valid := x.valid ||| wholeSectors x.mask, dirty := 0#4, mask := 0#128 } else x }

/-- Drops an L2 line without writing it back. -/
def l2Drop (s : State) (line : Nat) : State := { s with l2 := s.l2.filter fun x => x.line ≠ line }

/-! ### Ways of an L2 slice (R59, R60, R320; log entry 12) -/

/-- The ways of a tenant's mask, and of the shared pool, in a slice (R317). -/
def wayMask (d : Die) (slice tenant : Nat) : BitVec 24 := (tget d.ways (slice * 64 + tenant)).getD 0#24
def poolMask (d : Die) (slice : Nat) : BitVec 24 := (tget d.shared slice).getD 0xFFFFFF#24

def waySwept (d : Die) (slice way : Nat) : Bool := d.sweeps.any fun e => e.slice = slice && e.way = way

/-- Ways in which a tenant's lines may allocate: its mask, or the pool where that is empty, without those being swept. -/
def allowedWays (s : State) (d slice tenant : Nat) : List Nat :=
  let x := s.die d
  let own := wayMask x slice tenant
  let m := if own = 0#24 then poolMask x slice else own
  (List.range 24).filter fun w => m.getLsbD w && !waySwept x slice w

/-- What a way of a set holds: a home line, or a leased copy. -/
structure Resident where
  line : Nat
  way : Nat
  kept : Bool
  stamp : Nat
  leased : Bool
  deriving DecidableEq, Repr

/-- The lines that a die's slice holds in the set of a line: sets are numbered by the low bits of the line. -/
def residents (s : State) (d slice line : Nat) : List Resident :=
  ((s.l2.filter fun e => e.die = d && e.slice = slice && e.line % 1024 = line % 1024).map fun e =>
      ⟨e.line, e.way, e.kept, e.stamp, false⟩) ++
    ((s.leases.filter fun e => e.copy && e.die = d && e.slice = slice && e.line % 1024 = line % 1024).map fun e =>
      ⟨e.line, e.way, e.kept, e.stamp, true⟩)

/-- The order in which lines are replaced: kept lines last, and the least recently used first (R59). -/
def Resident.before (a b : Resident) : Bool := if a.kept ≠ b.kept then b.kept else decide (a.stamp < b.stamp)

def firstOut : List Resident → Option Resident
  | [] => none
  | r :: l => match firstOut l with | none => some r | some x => some (if x.before r then x else r)

/-- The way of `ws` that a line takes, with the line that leaves it: a way that holds nothing, else that of the first line to go; none
where there is no way. -/
def wayIn (s : State) (d slice line : Nat) (ws : List Nat) : Option (Nat × Option Resident) :=
  let here := residents s d slice line
  match ws.find? fun w => here.all fun r => r.way ≠ w with
  | some w => some (w, none)
  | none => (firstOut (here.filter fun r => ws.contains r.way)).map fun r => (r.way, some r)

/-- The way that a tenant's line takes. -/
def l2Way (s : State) (d slice tenant line : Nat) : Option (Nat × Option Resident) :=
  wayIn s d slice line (allowedWays s d slice tenant)

/-- A line leaves its way: a home line's dirty sectors go to memory first, a leased copy is dropped. -/
def l2Evict (s : State) (d : Nat) : Option Resident → State
  | none => s
  | some r =>
    if r.leased then { s with leases := s.leases.map fun l => if l.line = r.line ∧ l.die = d then { l with copy := false } else l }
    else l2Drop (l2WriteBack s r.line) r.line

/-- May one more line of a set be kept: fewer than half of the tenant's ways hold kept lines (R59). -/
def keepRoom (s : State) (d slice tenant line : Nat) : Bool :=
  let ws := allowedWays s d slice tenant
  decide (2 * (((residents s d slice line).filter fun r => r.kept && ws.contains r.way).length + 1) ≤ ws.length)

/-- The place in the order of replacement that a fill takes (R59). -/
def fillStamp (s : State) (pol : BitVec 2) : Nat := if pol = 1#2 then 0 else s.now.toNat

/-- A home line takes its place in the L2, holding nothing yet. -/
def l2Place (s : State) (tenant : Nat) (pol : BitVec 2) (line : Nat) : State :=
  if (s.l2Line? line).isSome then s
  else
    let d := (homeDie (line * 128)).getD 0
    let slice := homeSlice s (line * 128)
    match l2Way s d slice tenant line with
    | none => s
    | some (w, out) =>
      let e : L2Line :=
        { line := line, die := d, slice := slice, way := w, valid := 0#4, dirty := 0#4, mask := 0#128, data := 0#1024,
          tenant := tenant, kept := pol = 2#2 && keepRoom s d slice tenant line, rewritten := 0#128, stamp := fillStamp s pol }
      let s := l2Evict s d out
      { s with l2 := s.l2 ++ [e] }

/-- A line of a way that is being swept first moves, into the tenant's remaining ways or into the shared pool (R320); where neither has a
way left it goes to memory, and the state is without it. -/
def l2Move (s : State) (tenant : Nat) (e : L2Line) : State × Option Nat :=
  let x := s.die e.die
  if waySwept x e.slice e.way then
    let rest := allowedWays s e.die e.slice tenant
    let pool := (List.range 24).filter fun w => (poolMask x e.slice).getLsbD w && !waySwept x e.slice w
    match wayIn s e.die e.slice e.line (if rest.isEmpty then pool else rest) with
    | some (w, out) => (l2Evict s e.die out, some w)
    | none => (l2Drop (l2WriteBack s e.line) e.line, none)
  else (s, some e.way)

/-- A line of the L2 in use: a .keep access marks it where there is room; the mark goes when other accesses have rewritten it in
whole (R59). `rew` names the bytes written. -/
def L2Line.touch (e : L2Line) (room : Bool) (now : Nat) (pol : BitVec 2) (rew : BitVec 128) : L2Line :=
  let o := if pol = 2#2 then 0#128 else e.rewritten ||| rew
  { e with stamp := now, kept := if pol = 2#2 then e.kept || room else e.kept && decide (o ≠ BitVec.allOnes 128), rewritten := o }

/-- A byte written at its home: in the home L2 slice for module memory, by byte mask and without a read of memory (R60); in place for
on-chip memory, the host window and a remote module, and where the tenant has no way. -/
def homePut (s : State) (tenant : Nat) (pol : BitVec 2) (k : Nat) (v : Byte) : State :=
  if isGlobal k && window k = 0 then
    let s := l2Place s tenant pol (lineOf k)
    match s.l2Line? (lineOf k) with
    | some e =>
      let bit : BitVec 128 := 1#128 <<< (k % 128)
      let room := keepRoom s e.die e.slice tenant e.line
      match l2Move s tenant e with
      | (s, none) => { s with mem := memPut s.mem k v }
      | (s, some w) =>
        let e' : L2Line :=
          { e.touch room (if pol = 1#2 then e.stamp else s.now.toNat) pol bit with
              way := w, data := setLineByte e.data (k % 128) v, mask := e.mask ||| bit, dirty := e.dirty ||| (1#4 <<< sectorOf k) }
        { s with l2 := s.l2.map fun x => if x.line = lineOf k then e' else x }
    | none => { s with mem := memPut s.mem k v }
  else { s with mem := memPut s.mem k v }

def homePuts (s : State) (tenant : Nat) (pol : BitVec 2) (ks : List Nat) (vs : List Byte) : State :=
  (ks.zip vs).foldl (fun s p => homePut s tenant pol p.1 p.2) s

/-- A read of a line at its home brings into the slice the sectors that it lacks (R60). -/
def l2Fill (s : State) (tenant : Nat) (pol : BitVec 2) (line : Nat) : State :=
  if isGlobal (line * 128) && window (line * 128) = 0 then
    let s := transfer (l2Place s tenant pol line) tenant line (missing s line)
    match s.l2Line? line with
    | none => s
    | some e =>
      let room := keepRoom s e.die e.slice tenant e.line
      let have_ := fun o : Nat => e.mask.getLsbD o || e.valid.getLsbD (o / 32)
      let data := lineFrom fun o => if have_ o then lineByte e.data o else memGet s.mem (line * 128 + o)
      let e' : L2Line :=
        { e.touch room (if e.valid = 0#4 ∨ pol = 1#2 then e.stamp else s.now.toNat) pol 0#128 with valid := 15#4, data := data }
      { s with l2 := s.l2.map fun x => if x.line = line then e' else x }
  else s

/-! ### Leases (R105, R106) -/

def leaseLive (s : State) (l : Lease) : Bool := l.copy && decide (s.now.toNat + Config.leaseGuard < l.expiry)

/-- The length of the leases that a key's home grants: 2^n cycles, n from its die's sr.leaselen, whose four bits hold 16 as 0. The setting of another module is a
free value from 9 to 16 (R105; log entry 10). -/
def leaseBits (s : State) (k : Nat) : Nat × State :=
  match homeDie k with
  | some hd => (if (s.die hd).leaselen = 0#4 then 16 else (s.die hd).leaselen.toNat, s)
  | none => (9 + (Config.freeValue s.fresh).toNat % 8, { s with fresh := s.fresh + 1 })

/-- Lines whose home is on another die are cached under a lease: fetches the line where no usable copy is held, into a way of the
tenant's share (R61). The home grants its full lease length always (log entry 33); it grants none while a store on the line is held
back, and no copy is made where the tenant has no way. Another module's reads (a die beyond the module's) take no way here. -/
def leaseFetch (s : State) (d tenant : Nat) (pol : BitVec 2) (k : Nat) : State :=
  let ln := lineOf k
  if !isGlobal k || homeDie k = some d then s
  else if s.leases.any fun l => l.line = ln && l.die = d && leaseLive s l then
    { s with leases := s.leases.map fun l => if l.line = ln ∧ l.die = d then
        { l with stamp := if pol = 1#2 then l.stamp else s.now.toNat, kept := l.kept || (pol = 2#2 && keepRoom s d l.slice tenant ln) } else l }
  else if s.held.any fun h => h.line = ln then s
  else
    let s := l2Fill s tenant pol ln
    let slice := homeSlice s k
    let s := { s with leases := s.leases.map fun l => if l.line = ln ∧ l.die = d then { l with copy := false } else l }
    match (if Config.dies ≤ d then some (0, none) else l2Way s d slice tenant ln) with
    | none => s
    | some (w, out) =>
      let (n, s) := leaseBits s k
      let kept := pol = 2#2 && keepRoom s d slice tenant ln
      let s := l2Evict s d out
      let l : Lease := { line := ln, die := d, expiry := s.now.toNat + 2 ^ n, copy := true, data := homeLine s d ln, slice := slice,
                         way := w, tenant := tenant, kept := kept, stamp := fillStamp s pol }
      { s with leases := (s.leases.filter fun x => !(x.line = ln && x.die = d)) ++ [l] }

/-- The byte that the die's L2 gives an agent of die `d` (R105). -/
def dieByte (s : State) (d k : Nat) : Byte :=
  if homeDie k = some d then homeByte s k
  else
    match s.leases.find? fun l => l.line = lineOf k && l.die = d && leaseLive s l with
    | some l => lineByte l.data (k % 128)
    | none => homeByteFrom s d k

/-- The die's L2 is read at a key: the home's line, or a leased copy (R60, R61). -/
def l2Read (s : State) (d tenant : Nat) (pol : BitVec 2) (k : Nat) : State :=
  if homeDie k = some d then l2Fill s tenant pol (lineOf k) else leaseFetch s d tenant pol k

/-- Stores of the device itself belong to nobody's program order. -/
def Writer.device (id tenant : Nat) : Writer :=
  { id := id, gid := 0, agents := 0#96, eng := none, cls := 0#4, die := Config.dies, core := 0, tenant := tenant, pol := 0#2 }

/-- Whose the device's own lane-private stores for a group are. -/
def Group.deviceWriter (g : Group) (gid : Nat) (lanes : Mask) : Writer :=
  { Writer.device 0 g.tenant with gid := gid, agents := lanes, die := g.die, core := g.core }

/-- A store performs at its home (R100, R106): at .die scope at once; where a lease on the line has not expired, or an earlier store on
the line is still held back, other dies go on reading the old bytes until it has. -/
def storeBy (s : State) (w : Writer) (ks : List Nat) (vs : List Byte) : State :=
  let leased := fun k => isGlobal k &&
    ((s.leases.any fun l => l.line = lineOf k && s.now.toNat < l.expiry) || s.held.any fun h => h.line = lineOf k)
  let lines := ((ks.filter leased).map lineOf).eraseDups
  let hs := lines.map fun ln =>
    { w := w, line := ln, die := (homeDie (ln * 128)).getD Config.dies,
      old := (ks.filter fun k => lineOf k = ln).foldl (fun t k => tset t k (homeByte s k)) [],
      until_ := (s.leases.filter fun l => l.line = ln).foldl (fun m l => max m l.expiry) 0, readers := [] : Held }
  let s := { s with held := s.held ++ hs }
  homePuts s w.tenant w.pol ks vs

/-- A store of the device performs at its home. -/
def storeHome (s : State) (id tenant : Nat) (ks : List Nat) (vs : List Byte) : State := storeBy s (Writer.device id tenant) ks vs

/-- The byte of a key that a reader on die `d` finds at its home or under a lease, where it sees the stores of `own` too, though they are
held back from others of its die: what the first later store that it does not see has replaced (R90, R106). -/
def viewByte (s : State) (own : Held → Bool) (d k : Nat) : Byte :=
  let hs := s.held.filter fun h => h.line = lineOf k && (tget h.old k).isSome
  if homeDie k = some d then homeByte s k
  else if !hs.any own then dieByte s d k
  else
    match (hs.reverse.takeWhile fun h => !own h).getLast? with
    | none => homeByte s k
    | some h => (tget h.old k).getD (homeByte s k)

/-- The byte with which a core's L1 is filled: the stores of the core itself are in it (R58). -/
def coreByte (s : State) (die core k : Nat) : Byte := viewByte s (fun h => h.w.die = die && h.w.core = core) die k

/-! ### What reaches the homes from outside (R108, R109) -/

/-- A physical address of the module's own memory (R47). -/
def ownMemory (s : State) (pa : Nat) : Bool :=
  decide (window pa = 0 ∧ pa / 2 ^ 41 = 0 ∧ pa / 2 ^ 36 < Config.dies ∧ pa % 2 ^ 36 < 48 * 2 ^ 30) ||
    decide (window pa = 1 ∧ (pa % 2 ^ 52 / 4096 / 24 + 1) * 4096 ≤ (s.die (pa % 2 ^ 52 / 4096 % 24)).reserveSize)

/-- What the host reaches through BAR0: the module's memory, the host window and other modules (R47, R325). -/
def hostReaches (s : State) (pa : Nat) : Bool := ownMemory s pa || decide (2 ≤ window pa)

/-- Keys and values of the bytes of a physical range that the host reaches. -/
def hostBytes (s : State) (pa : Nat) (bs : List Byte) : List (Nat × Byte) :=
  (((upFrom pa bs.length).zip bs).filter fun p => hostReaches s p.1).map fun p => (keyOfPhys s p.1, p.2)

/-- Posted writes of the host perform in the order of their arrival, each at .mod scope before the next at any (R108). -/
def drainPosted (s : State) : List Posted → State
  | [] => { s with posted := [] }
  | p :: rest =>
    let s1 : State := match p.id with
      | some _ => s
      | none => let b := hostBytes s p.addr p.bytes
                storeHome { s with seqNo := s.seqNo + 1 } s.seqNo 0 (b.map Prod.fst) (b.map Prod.snd)
    let n := p.id.getD s.seqNo
    if s1.held.any fun h => h.w.id = n then { s1 with posted := { p with id := some n } :: rest } else drainPosted s1 rest

/-- What other modules stored is acknowledged once it has performed at .mod scope (R109), and the host's writes go on. -/
def settleOutside (s : State) : State :=
  let late := fun n : Nat => s.held.any fun h => h.w.id = n
  let s := { s with remoteWait := s.remoteWait.filter late, remoteAcks := s.remoteAcks ++ s.remoteWait.filter fun n => !late n }
  drainPosted s s.posted

/-! ### The L1 (R55, R58, R59) -/

def State.l1Line? (s : State) (die core line : Nat) : Option L1Line := (s.core die core).l1.find? fun e => e.line = line

/-- Ways that the L1 may use now: those that keep their role while a carve-out change is in progress (R57). -/
def l1Ways (c : CoreSt) : List Nat :=
  let m := match c.carveTo with | some t => max t c.carve | none => c.carve
  upFrom m (8 - m)

def hasL1 (s : State) (die core : Nat) : Bool := !(l1Ways (s.core die core)).isEmpty

/-- Writes an L1 line's dirty sectors to their home (R58, R79). The write-back is made in one step (log entry 60). -/
def l1WriteBackLine (s : State) (die core : Nat) (e : L1Line) : State :=
  let ks := (upFrom (e.line * 128) 128).filter fun k => e.dirty.getLsbD (sectorOf k)
  storeBy s { Writer.device 0 e.tenant with gid := e.owner.1, agents := e.owner.2, die := die, core := core } ks
    (ks.map fun k => lineByte e.data (k % 128))

def l1Update (s : State) (die core : Nat) (e : L1Line) : State :=
  let c := s.core die core
  s.setCore die core { c with l1 := c.l1.map fun x => if x.line = e.line then e else x }

def l1Remove (s : State) (die core line : Nat) : State :=
  let c := s.core die core
  s.setCore die core { c with l1 := c.l1.filter fun x => x.line ≠ line }

def l1WriteBack (s : State) (die core line : Nat) : State :=
  match s.l1Line? die core line with
  | none => s
  | some e => l1Update (l1WriteBackLine s die core e) die core { e with dirty := 0#4 }

/-- The dirty sectors of some lines of a core go home; the lines stay. -/
def l1Flush (s : State) (die core : Nat) (p : L1Line → Bool) : State :=
  ((s.core die core).l1.filter fun e => p e && e.dirty ≠ 0#4).foldl (fun s e => l1WriteBack s die core e.line) s

/-- A core's copy of a line is dropped; its dirty sectors go home first (R58). -/
def l1Drop (s : State) (die core line : Nat) : State := l1Remove (l1WriteBack s die core line) die core line

/-- The lines of these bytes leave the core's L1, as an atomic there asks (R58). -/
def l1Drops (s : State) (die core : Nat) (ks : List Nat) : State :=
  ((ks.filter isGlobal).map lineOf).eraseDups.foldl (fun s ln => l1Drop s die core ln) s

/-- Makes room for a line and puts it into the L1, holding no sector yet: a way of its set that holds nothing, or the least recently
used line, written back first (R59). A streaming fill is the next victim. -/
def l1Alloc (s : State) (die core tenant line : Nat) (pol : BitVec 2) (lp : Bool) : State :=
  let ways := l1Ways (s.core die core)
  let set := line % 1024
  let here := (s.core die core).l1.filter fun e => e.line % 1024 = set
  let mk := fun w : Nat =>
    ({ line := line, way := w, valid := 0#4, dirty := 0#4, data := 0#1024, tenant := tenant, lp := lp, owner := (0, 0#96),
       stamp := if pol = 1#2 && !lp then 0 else s.now.toNat } : L1Line)
  match ways.find? fun w => here.all fun e => e.way ≠ w with
  | some w =>
    let c := s.core die core
    s.setCore die core { c with l1 := c.l1 ++ [mk w] }
  | none =>
    match (here.filter fun e => ways.contains e.way).foldl (fun (b : Option L1Line) e =>
        match b with | none => some e | some x => if e.stamp < x.stamp then some e else some x) none with
    | none => s
    | some v =>
      let s := l1WriteBackLine s die core v
      let c := s.core die core
      s.setCore die core { c with l1 := (c.l1.filter fun x => x.line ≠ v.line) ++ [mk v.way] }

/-- A sector of a line of the L1 is fetched from the die's L2 (R55). -/
def L1Line.fillSector (e : L1Line) (s : State) (die core sector : Nat) : L1Line :=
  { e with valid := e.valid ||| (1#4 <<< sector),
           data := lineFrom fun o => if o / 32 = sector then coreByte s die core (e.line * 128 + o) else lineByte e.data o }

/-- The place in the order of replacement of a line in use: a streaming fill goes to the front of the order, and a streaming hit leaves
the line where it is (R59; log entry 16). -/
def useStamp (now : Nat) (strm fill : Bool) (old : Nat) : Nat := if !strm then now else if fill then 0 else old

/-- Does an access of this space and policy use the L1 (R55, R58, R59)? -/
def usesL1 (s : State) (die core : Nat) (sp : Space) (pol : BitVec 2) : Bool :=
  hasL1 s die core && (match sp with | .lp => true | .g | .ro => pol ≠ 3#2 | _ => false)

/-- Brings the sector of a key to where a load reads it: the L2 of the die, and the L1. -/
def fetchFor (s : State) (die core tenant : Nat) (sp : Space) (pol : BitVec 2) (k : Nat) : State :=
  let strm := decide (pol = 1#2 ∧ sp ≠ .lp)
  if !isGlobal k then s
  else if usesL1 s die core sp pol then
    match s.l1Line? die core (lineOf k) with
    | some e =>
      if e.valid.getLsbD (sectorOf k) then l1Update s die core { e with stamp := useStamp s.now.toNat strm false e.stamp }
      else
        let s := l2Read s die tenant pol k
        l1Update s die core { e.fillSector s die core (sectorOf k) with stamp := useStamp s.now.toNat strm true e.stamp }
    | none =>
      let s := l1Alloc (l2Read s die tenant pol k) die core tenant (lineOf k) pol (decide (sp = .lp))
      match s.l1Line? die core (lineOf k) with
      | some e => l1Update s die core (e.fillSector s die core (sectorOf k))
      | none => s
  else l2Read s die tenant pol k

/-- The byte that an access of this space and policy finds. -/
def hierByte (s : State) (die core : Nat) (sp : Space) (pol : BitVec 2) (k : Nat) : Byte :=
  if !isGlobal k then memGet s.mem k
  else if usesL1 s die core sp pol then
    match s.l1Line? die core (lineOf k) with
    | some e => if e.valid.getLsbD (sectorOf k) then lineByte e.data (k % 128) else dieByte s die k
    | none => dieByte s die k
  else dieByte s die k

/-- The owner of a line's dirty sectors after a lane-private store of a writer. -/
def L1Line.ownedBy (e : L1Line) (w : Writer) : Nat × Mask := (w.gid, if e.owner.1 = w.gid then e.owner.2 ||| w.agents else w.agents)

/-- The core's own copy of a line takes a store's bytes when their sector is present (R58); a lane-private store makes it dirty. -/
def l1Patch (s : State) (die core : Nat) (k : Nat) (v : Byte) (lp : Option Writer) : State :=
  match s.l1Line? die core (lineOf k) with
  | none => s
  | some e =>
    if e.valid.getLsbD (sectorOf k) then
      let e := { e with data := setLineByte e.data (k % 128) v, stamp := s.now.toNat }
      l1Update s die core (match lp with
        | some w => { e with dirty := e.dirty ||| (1#4 <<< sectorOf k), lp := true, owner := e.ownedBy w }
        | none => e)
    else s

def l1Patches (s : State) (die core : Nat) (ks : List Nat) (vs : List Byte) : State :=
  (ks.zip vs).foldl (fun s p => l1Patch s die core p.1 p.2 none) s

/-- Is the sector of a key in the core's L1? -/
def l1Holds (s : State) (die core k : Nat) : Bool :=
  match s.l1Line? die core (lineOf k) with
  | some e => e.valid.getLsbD (sectorOf k)
  | none => false

/-- Must the memory of the home die be read for a load of this key: neither the core's L1, nor a leased copy, nor the home slice has its
sector. -/
def readsMemory (s : State) (die core : Nat) (sp : Space) (pol : BitVec 2) (k : Nat) : Bool :=
  isGlobal k && window k = 0 && !(usesL1 s die core sp pol && l1Holds s die core k) &&
    !(homeDie k ≠ some die && s.leases.any fun l => l.line = lineOf k && l.die = die && leaseLive s l) &&
    (missing s (lineOf k)).getLsbD (sectorOf k)

/-- A load whose bytes must come from memory waits at a controller where its tenant's bucket is empty (R322). -/
def fillWaits (s : State) (die core tenant : Nat) (sp : Space) (pol : BitVec 2) (ks : List Nat) : Bool :=
  ((ks.filter (readsMemory s die core sp pol)).map lineOf).eraseDups.any fun ln =>
    !((s.die ((homeDie (ln * 128)).getD 0)).spends tenant (blocksOf ln (missing s ln))).2

/-- An agent of a core has read bytes: the stores to them that have not performed at .mod scope count among its predecessor accesses, those
that it has read at their home, and those of its own core that it has found in the L1 (R97). -/
def noteRead (s : State) (d core gid : Nat) (agents : Mask) (cls : BitVec 4) (ks : List Nat) : State :=
  { s with held := s.held.map fun h =>
      let seen := fun k => (tget h.old k).isSome && (h.die = d || (h.w.die = d && h.w.core = core && l1Holds s d core k))
      if ks.any seen then { h with readers := h.readers ++ [(gid, agents, cls)] } else h }

/-- A .lp store: write-back in the L1; written through where the core has none (R55, R58). -/
def lpPut (s : State) (w : Writer) (k : Nat) (v : Byte) : State :=
  if hasL1 s w.die w.core then
    let s := fetchFor s w.die w.core w.tenant .lp 0#2 k
    if l1Holds s w.die w.core k then l1Patch s w.die w.core k v (some w) else storeBy s w [k] [v]
  else storeBy s w [k] [v]

def lpPuts (s : State) (w : Writer) (ks : List Nat) (vs : List Byte) : State :=
  (ks.zip vs).foldl (fun s p => lpPut s w p.1 p.2) s

def lpBytes (s : State) (die core : Nat) (ks : List Nat) : List Byte := ks.map (hierByte s die core .lp 0#2)

/-- A fence or an acquire drops every .g and .ro line of the core's L1 (R101). -/
def l1Invalidate (s : State) (die core : Nat) : State :=
  let c := s.core die core
  s.setCore die core { c with l1 := c.l1.filter fun e => e.lp }

end Sys2Proof.Machine
end

