-- ==== Sys2Proof/Machine/Xlate.lean ====
section
/-! DEFINITION. Translation: page tables, leaves, TLBs, accessed and dirty bits, page faults (R43 to R51). -/

namespace Sys2Proof.Machine

/-- Causes of a page fault (R51). -/
inductive PageFault where
  | notValid | read | write | execute | user | malformed | physRange
  deriving DecidableEq, Repr

def PageFault.code : PageFault → BitVec 8
  | .notValid => 0x01#8 | .read => 0x02#8 | .write => 0x03#8 | .execute => 0x04#8
  | .user => 0x05#8 | .malformed => 0x06#8 | .physRange => 0x07#8

/-- The index of an address in the table of a level (R43). -/
def levelIndex (va : Addr) (level : Nat) : Nat :=
  if level = 0 then va.toNat / 2 ^ 72 else va.toNat / 2 ^ (72 - 12 * level) % 4096

/-- The size of an entry's region, as a power of two (R43). -/
def regionLog (level : Nat) : Nat := 72 - 12 * level

/-- Trailing ones of a frame field, at most 21 counted (R45). -/
def trailingOnes (f : Nat) : Nat := ((List.range 21).takeWhile fun i => f / 2 ^ i % 2 = 1).length

/-- The base of a leaf's page (R45). -/
def leafBase (f n : Nat) : Nat := f / 2 ^ (n + 1) * 2 ^ (n + 1) * 2 ^ 11

/-- The checks of R47 on a leaf's page: none where it is good. -/
def placementFault (s : State) (base log placement : Nat) : Option PageFault :=
  let w := window base
  let last := base + 2 ^ log - 1
  if w ≠ placement then some .malformed
  else if w = 0 then
    if base / 2 ^ 41 % 2 ^ 11 ≠ 0 ∨ base / 2 ^ 36 % 32 ≥ Config.dies ∨ last % 2 ^ 36 ≥ 48 * 2 ^ 30 then some .malformed else none
  else if w = 1 then
    let units := upFrom (base % 2 ^ 52 / 4096) (min (2 ^ log / 4096) (24 * 2))
    let tail := upFrom (last % 2 ^ 52 / 4096 - min (2 ^ log / 4096 - 1) 47) (min (2 ^ log / 4096) 48)
    if (units ++ tail).any fun u => (s.die (u % 24)).reserveSize < (u / 24 + 1) * 4096 then some .physRange else none
  else if w ≤ 3 then none
  else some .malformed

/-- One entry of a table at physical address `pa`, read at its home (R44, R48) by an agent of a die; a walk that follows a failed
compare-and-set reads what that found there, which is the coherence-latest value (R50; log entry 59). -/
def readEntry (s : State) (die : Nat) (again : Bool) (pa : Nat) : Word64 × Word64 :=
  let k := keyOfPhys s pa
  let word := fun k : Nat => BitVec.ofNat 64 (natOfBytes ((upFrom k 8).map (if again then homeByte s else homeByteFrom s die)))
  (word k, word (k + 8))

/-- What a walk finds: a fault, or a leaf with the address of its entry. -/
inductive WalkResult where
  | fault (c : PageFault)
  | leaf (pte : Nat) (low : Word64) (level : Nat)
  deriving DecidableEq, Repr

/-- A walk from a level's table down (R43 to R46). `fuel` counts the levels left. -/
def walkFrom (s : State) (die : Nat) (again : Bool) (va : Addr) (table level : Nat) : Nat → WalkResult
  | 0 => .fault .malformed
  | fuel + 1 =>
    let pa := table + 16 * levelIndex va level
    let e := readEntry s die again pa
    let low := e.1
    if !low.getLsbD 0 then .fault .notValid
    else if low.extractLsb' 56 8 ≠ 0#8 ∨ low.getLsbD 10 ∨ e.2.extractLsb' 16 48 ≠ 0#48 then .fault .malformed
    else if low.getLsbD 1 then .leaf pa low level
    else if low.extractLsb' 2 9 ≠ 0#9 ∨ low.extractLsb' 11 5 ≠ 0#5 then .fault .malformed
    else if level = 5 then .fault .malformed
    else walkFrom s die again va ((low.extractLsb' 11 45).toNat * 2 ^ 11) (level + 1) fuel

/-- The translation that a leaf gives, checked (R45, R46, R47). Where several checks fail, the layout is reported before not-valid: the
manual gives no order (log entry 59). -/
def leafEntry (s : State) (tenant : Nat) (va : Addr) (pte : Nat) (low : Word64) (level : Nat) : Except PageFault TlbEntry :=
  let f := (low.extractLsb' 11 45).toNat
  let n := trailingOnes f
  if n > 20 then .error .malformed
  else
    let log := 12 + n
    let base := leafBase f n
    match placementFault s base log (low.extractLsb' 8 2).toNat with
    | some c => .error c
    | none =>
      if log < regionLog level ∧ va.toNat % 2 ^ regionLog level ≥ 2 ^ log then .error .notValid
      else
        .ok { tenant := tenant, base := va.toNat / 2 ^ log * 2 ^ log, log2 := log, phys := base,
              perms := low.extractLsb' 2 4, dirty := low.getLsbD 7, pte := pte, low := low }

/-- Permissions in a cached entry: bit 0 read, 1 write, 2 execute, 3 user (R44). Where several are missing, user is reported before the
others, and write before read: the manual gives no order (log entry 59). -/
def permFault (e : TlbEntry) (sup : Bool) (k : AccessKind) : Option PageFault :=
  if !sup && !e.perms.getLsbD 3 then some .user
  else
    match k with
    | .read => if e.perms.getLsbD 0 then none else some .read
    | .write => if e.perms.getLsbD 1 then none else some .write
    | .atomic => if !e.perms.getLsbD 1 then some .write else if !e.perms.getLsbD 0 then some .read else none
    | .fetch => if e.perms.getLsbD 2 then none else some .execute

def tlbHit (l : List TlbEntry) (tenant : Nat) (va : Addr) : Option TlbEntry :=
  l.find? fun e => e.tenant = tenant && va.toNat / 2 ^ e.log2 * 2 ^ e.log2 = e.base

/-- Caches a translation; the oldest entry leaves a full TLB (R48). -/
def tlbAdd (l : List TlbEntry) (cap : Nat) (e : TlbEntry) : List TlbEntry :=
  let l := l.filter fun x => !(x.tenant = e.tenant && x.base = e.base && x.log2 = e.log2)
  (if l.length < cap then l else l.drop 1) ++ [e]

def cacheEntry (s : State) (die core : Nat) (e : TlbEntry) : State :=
  let c := s.core die core
  let s := s.setCore die core { c with tlb := tlbAdd c.tlb 512 e }
  let d := s.die die
  s.setDie die { d with tlb := tlbAdd d.tlb 32768 e }

/-- A compare-and-set of an entry's low word at its home (R50): none when the entry has changed. Like every atomic it is held back for
other dies while a lease on its line runs (R106). -/
def casEntry (s : State) (pte : Nat) (old new : Word64) : Option State :=
  let k := keyOfPhys s pte
  if BitVec.ofNat 64 (natOfBytes ((upFrom k 8).map (homeByte s))) = old then
    some (storeHome s 0 0 (upFrom k 8) (toBytes new 8))
  else none

/-- A walk, or with `again` one that follows a failed compare-and-set: none where its own fails (R49, R50). The accessed bit is set
where it is clear, and the dirty bit where a write needs it, before the entry is cached. -/
def walkOnce (s : State) (die core tenant : Nat) (sup : Bool) (va : Addr) (k : AccessKind) (again : Bool) :
    Option (State × Except PageFault TlbEntry) :=
  match walkFrom s die again va (s.tenant tenant).ptroot.toNat 0 6 with
  | .fault c => some (s, .error c)
  | .leaf pte low level =>
    match leafEntry s tenant va pte low level with
    | .error c => some (s, .error c)
    | .ok e =>
      match permFault e sup k with
      | some c => some (s, .error c)
      | none =>
        let new := low ||| (if k = .write ∨ k = .atomic then 0xC0#64 else 0x40#64)
        (if low = new then some s else casEntry s pte low new).map fun s =>
          let e := { e with low := new, dirty := new.getLsbD 7 }
          (cacheEntry s die core e, .ok e)

/-- A walk with its effects. Where the entry has changed since it was read, the walker drops the translation and walks again (R50). -/
def walk (s : State) (die core tenant : Nat) (sup : Bool) (va : Addr) (k : AccessKind) : State × Except PageFault TlbEntry :=
  match walkOnce s die core tenant sup va k false with
  | some r => r
  | none => (walkOnce s die core tenant sup va k true).getD (s, .error .notValid)

/-- A translation leaves both TLBs of a core and its die. -/
def uncache (s : State) (die core : Nat) (e : TlbEntry) : State :=
  let other := fun x : TlbEntry => !(x.tenant = e.tenant && x.base = e.base && x.log2 = e.log2)
  let c := s.core die core
  let s := s.setCore die core { c with tlb := c.tlb.filter other }
  let d := s.die die
  s.setDie die { d with tlb := d.tlb.filter other }

/-- Sets the dirty bit before a write performs (R50); where the entry has changed, the translation is dropped and walked
again. -/
def dirtyFor (s : State) (die core tenant : Nat) (sup : Bool) (va : Addr) (k : AccessKind) (e : TlbEntry) :
    State × Except PageFault TlbEntry :=
  if e.dirty || k = .read || k = .fetch then (s, .ok e)
  else
    let new := e.low ||| 0x80#64
    match casEntry s e.pte e.low new with
    | some s =>
      let e := { e with dirty := true, low := new }
      (cacheEntry s die core e, .ok e)
    | none => walk (uncache s die core e) die core tenant sup va k

/-- The translation of one address (R48): core TLB, die TLB, walk; permissions; dirty bit. -/
def lookup (s : State) (die core tenant : Nat) (sup : Bool) (va : Addr) (k : AccessKind) : State × Except PageFault TlbEntry :=
  match tlbHit (s.core die core).tlb tenant va, tlbHit (s.die die).tlb tenant va with
  | some e, _ =>
    match permFault e sup k with
    | some c => (s, .error c)
    | none => dirtyFor s die core tenant sup va k e
  | none, some e =>
    match permFault e sup k with
    | some c => (s, .error c)
    | none => dirtyFor (cacheEntry s die core e) die core tenant sup va k e
  | none, none =>
    walk s die core tenant sup va k

/-- The physical key of one byte under a translation. -/
def entryKey (s : State) (e : TlbEntry) (va : Addr) : Nat := keyOfPhys s (e.phys + va.toNat % 2 ^ e.log2)

/-- The translation among those of one instruction in whose page an address falls. -/
def pageOf (found : List TlbEntry) (va : Addr) : Option TlbEntry :=
  found.find? fun e => va.toNat / 2 ^ e.log2 * 2 ^ e.log2 = e.base

/-- The keys of bytes of virtual memory, with the translations that the instruction has made before and those that it makes now: one for
each page (R48). -/
def xlatePages (s : State) (die core tenant : Nat) (sup : Bool) (k : AccessKind) (found : List TlbEntry) :
    List Addr → State × List TlbEntry × Except (PageFault × Addr) (List Nat)
  | [] => (s, found, .ok [])
  | va :: r =>
    match pageOf found va with
    | some e =>
      match xlatePages s die core tenant sup k found r with
      | (s, f, .ok ks) => (s, f, .ok (entryKey s e va :: ks))
      | x => x
    | none =>
      match lookup s die core tenant sup va k with
      | (s, .error c) => (s, found, .error (c, va))
      | (s, .ok e) =>
        match xlatePages s die core tenant sup k (found ++ [e]) r with
        | (s, f, .ok ks) => (s, f, .ok (entryKey s e va :: ks))
        | x => x

/-- The keys of the bytes of one access. -/
def xlateBytes (s : State) (die core tenant : Nat) (sup : Bool) (k : AccessKind) (vas : List Addr) :
    State × Except (PageFault × Addr) (List Nat) :=
  let x := xlatePages s die core tenant sup k [] vas
  (x.1, x.2.2)

/-- Drops the translations of a tenant whose pages meet a range (R49). -/
def tlbDrop (l : List TlbEntry) (tenant lo log : Nat) : List TlbEntry :=
  l.filter fun e => !(e.tenant = tenant && e.base < lo + 2 ^ log && lo < e.base + 2 ^ e.log2)

end Sys2Proof.Machine
end

