-- ==== Sys2Proof/Machine/Ops.lean ====
section
/-! DEFINITION. Groups, slots and their registers; the reconvergence stack; fault records; taking a trap, halting, and
returning from a trap. -/

namespace Sys2Proof.Machine

abbrev Out := Host.Outcome State Fault Refusal

/-! ### Groups and slots -/

def State.group? (s : State) (gid : Nat) : Option Group := tget s.groups gid
def State.setGroup (s : State) (gid : Nat) (g : Group) : State := { s with groups := tset s.groups gid g }

def State.modGroup (s : State) (gid : Nat) (f : Group → Group) : State :=
  match s.group? gid with
  | some g => s.setGroup gid (f g)
  | none => s

def Group.slot (g : Group) (s1 : Bool) : Slot := if s1 then g.s1 else g.s0
def Group.setSlot (g : Group) (s1 : Bool) (sl : Slot) : Group := if s1 then { g with s1 := sl } else { g with s0 := sl }
def Group.modSlot (g : Group) (s1 : Bool) (f : Slot → Slot) : Group := g.setSlot s1 (f (g.slot s1))

/-- The slot that a word issued in or outside trap mode belongs to: frozen where a trap has come since (R280). -/
def Group.slotIn (g : Group) (s1 trap : Bool) : Slot :=
  match g.frame with
  | some fr => if trap = g.trapMode then g.slot s1 else if s1 then fr.s1 else fr.s0
  | none => g.slot s1

def Group.modSlotIn (g : Group) (s1 trap : Bool) (f : Slot → Slot) : Group :=
  match g.frame with
  | some fr =>
    if trap = g.trapMode then g.modSlot s1 f
    else { g with frame := some (if s1 then { fr with s1 := f fr.s1 } else { fr with s0 := f fr.s0 }) }
  | none => g.modSlot s1 f

def State.modSlot (s : State) (gid : Nat) (s1 : Bool) (f : Slot → Slot) : State := s.modGroup gid fun g => g.modSlot s1 f

def Slot.isEmpty (sl : Slot) : Bool := sl.owned = 0#96

/-- The lanes that are live, waiting or parked (R140). -/
def Group.liveMask (g : Group) : Mask :=
  g.stack.foldl (fun m e => m ||| e.path ||| e.arrived) (g.s0.owned ||| g.s1.owned)

/-- No word of the group goes on: it is halted, stopped for a save, parked whole, or evicted (R52, R131, R282, R285). -/
def Group.frozen (g : Group) : Bool := g.halted || g.saving || g.parkedAll.isSome || g.evicted

/-- The allocation in slices (R117). -/
def Group.alloc (g : Group) : Nat := 128 * (1 + g.h)

/-- The slot passes its word: the next word of the clause, or the header that follows it. `res` says whether the word left
a result in its latch (R18). -/
def Slot.advance (sl : Slot) (res : Bool) : Slot :=
  { sl with pc := sl.pc + 8#80, left := sl.left - 1, pos := sl.pos + 1,
            fresh := if res then sl.fresh ||| (1#8 <<< (sl.pos % 8)) else sl.fresh &&& ~~~(1#8 <<< (sl.pos % 8)),
            redo := none, unfinished := 0#96, req := none, wctr := 0#2, capt := none, frames := [], feed := none, age := 0,
            wait := .ready }

/-- The header that follows the clause being issued (R11). -/
def Slot.nextHeader (sl : Slot) : Addr := sl.pc + 8#80 * BitVec.ofNat 80 sl.left

/-- The slot goes to a header (R11). -/
def Slot.jump (sl : Slot) (dest : Addr) : Slot :=
  { sl with pc := dest, left := 0, pos := 0, redo := none, unfinished := 0#96, req := none, wctr := 0#2, capt := none, frames := [],
            feed := none, age := 0, wait := .ready }

/-- The latch that the word at this position writes (R18). -/
def Slot.latchNo (sl : Slot) : Nat := sl.pos % 8

/-! ### Register files -/

/-- Slices outside the file read nothing; a k register by its index (R125); k157 to k159 are the slot's mask (R126). -/
def Group.kreg (g : Group) (sl : Slot) (n : Nat) : Word32 :=
  if 157 ≤ n ∧ n ≤ 159 then sl.mask.extractLsb' (32 * (n - 157)) 32 else getField g.k (32 * n) 32

/-- kN and its successors as one value of `w` bits (R15, R65). -/
def Group.kread (g : Group) (sl : Slot) (n w : Nat) : BitVec w :=
  if n + 3 ≤ 157 then getField g.k (32 * n) w
  else (g.kreg sl (n + 2) ++ (g.kreg sl (n + 1) ++ g.kreg sl n)).setWidth w

/-- A write of one k register: k157 to k159 write the slot's mask, within its owned set (R126). -/
def Group.kset (g : Group) (s1 : Bool) (n : Nat) (v : Word32) : Group :=
  if 157 ≤ n then
    g.modSlot s1 fun sl => { sl with mask := setField sl.mask (32 * (n - 157)) v &&& sl.owned }
  else { g with k := setField g.k (32 * n) v }

/-! ### Late results (R122): a write in program order takes from those in flight what it covers -/

/-- Bits of a result at slice `st` that slices `start` to `start + n - 1` hold; the trap window is another bank for an access
of the other mode (R133). -/
def sliceCover (st start n : Nat) (sameBank : Bool) : BitVec 64 :=
  (List.range 16).foldl (fun (b : BitVec 64) i =>
    if start ≤ st + i ∧ st + i < start + n ∧ (sameBank ∨ st + i < 480) then b ||| (0xF#64 <<< (4 * i)) else b) 0#64

/-- Bits of a result at kK that `w` bits from kN up hold. -/
def kCover (k n w : Nat) (sameBank : Bool) : BitVec 64 :=
  (List.range 64).foldl (fun (b : BitVec 64) i =>
    if 32 * n ≤ 32 * k + i ∧ 32 * k + i < 32 * n + w ∧ (sameBank ∨ k + i / 32 < 144 ∨ 152 ≤ k + i / 32) then b ||| (1#64 <<< i) else b) 0#64

/-- The parts of a late result in the lanes that a write reaches, and in the others. -/
def Late.split (x : Late) (m : Mask) (f : Late → Late) : List Late :=
  if x.lanes &&& m = 0#96 then [x]
  else f { x with lanes := x.lanes &&& m } :: (if x.lanes &&& ~~~m = 0#96 then [] else [{ x with lanes := x.lanes &&& ~~~m }])

def Group.cutSlices (g : Group) (m : Mask) (start n : Nat) : Group :=
  { g with late := g.late.flatMap fun x =>
      match x.dst with
      | some (.slice st) => x.split m fun y => { y with bits := y.bits &&& ~~~(sliceCover st.toNat start n (x.trap = g.trapMode)) }
      | _ => [x] }

def Group.cutK (g : Group) (n w : Nat) : Group :=
  { g with late := g.late.map fun x =>
      match x.dst with
      | some (.ureg k) => { x with bits := x.bits &&& ~~~(kCover k.toNat n w (x.trap = g.trapMode)) }
      | _ => x }

def Group.cutLatch (g : Group) (m : Mask) (n : Nat) : Group :=
  { g with late := g.late.flatMap fun x =>
      if x.trap = g.trapMode ∧ x.latch = some (BitVec.ofNat 3 n) then x.split m fun y => { y with latch := none } else [x] }

/-- Bits from kN up, as they land. -/
def Group.kput {w : Nat} (g : Group) (s1 : Bool) (n : Nat) (v : BitVec w) : Group :=
  let one := fun (g : Group) (i : Nat) =>
    let bits := min 32 (w - 32 * i)
    let old := g.kreg (g.slot s1) (n + i)
    let m : Word32 := (BitVec.allOnes 32) >>> (32 - bits)
    g.kset s1 (n + i) ((old &&& ~~~m) ||| ((v.extractLsb' (32 * i) 32) &&& m))
  (List.range ((w + 31) / 32)).foldl one g

/-- A write of `w` bits from kN up: only the bits it covers (R16). -/
def Group.kwrite {w : Nat} (g : Group) (s1 : Bool) (n : Nat) (v : BitVec w) : Group := (g.cutK n w).kput s1 n v

def Group.sliceRead (g : Group) (l : Lane) (start w : Nat) : BitVec w := getField g.slices[l] (4 * start) w

/-- Slices as they land in the lanes of `m`; their rows are marked for an open region (R290). -/
def Group.slicePut {w : Nat} (g : Group) (m : Mask) (start : Nat) (f : Lane → BitVec w) : Group :=
  { g with slices := setLanes g.slices m fun l => setField g.slices[l] (4 * start) (f l),
           region := g.region.map fun r =>
             { r with rows := r.rows ||| (List.range 8).foldl (fun b i =>
                 if start / 64 ≤ i ∧ i ≤ (start + (w + 3) / 4 - 1) / 64 ∧ w ≠ 0 then b ||| (1#8 <<< i) else b) 0#8 } }

/-- A write of slices in the lanes of `m`. -/
def Group.sliceWrite {w : Nat} (g : Group) (m : Mask) (start : Nat) (f : Lane → BitVec w) : Group :=
  (g.cutSlices m start ((w + 3) / 4)).slicePut m start f

/-- A predicate of one lane: p7 is true (R127). -/
def Group.pred (g : Group) (n : BitVec 3) (l : Lane) : Bool :=
  if h : n.toNat < 7 then (g.preds[n.toNat]'h).getLsbD l.val else true

/-- The lanes in which a predicate is true. -/
def Group.predMask (g : Group) (n : BitVec 3) : Mask := if h : n.toNat < 7 then g.preds[n.toNat]'h else BitVec.allOnes 96

/-- A uniform predicate: g7 is true (R127). -/
def Group.gpred (g : Group) (n : BitVec 3) : Bool := if n = 7#3 then true else g.g.getLsbD n.toNat

def Group.setPred (g : Group) (n : BitVec 3) (m vals : Mask) : Group :=
  if h : n.toNat < 7 then { g with preds := g.preds.set n.toNat (((g.preds[n.toNat]'h) &&& ~~~m) ||| (vals &&& m)) h } else g

def Group.setGpred (g : Group) (n : BitVec 3) (v : Bool) : Group :=
  if n = 7#3 then g
  else { g with g := if v then g.g ||| (1#7 <<< n.toNat) else g.g &&& ~~~(1#7 <<< n.toNat) }

def Group.latchRead (g : Group) (l : Lane) (n : BitVec 3) (w : Nat) : BitVec w :=
  (getField g.latches[l] (64 * n.toNat) 64).setWidth w

def Group.latchPut {w : Nat} (g : Group) (m : Mask) (n : Nat) (wc : BitVec 3) (f : Lane → BitVec w) : Group :=
  { g with latches := setLanes g.latches m fun l => setField g.latches[l] (64 * n) ((f l).setWidth 64),
           latchW := setField g.latchW (3 * n) wc }

/-- The whole result goes to the latch, zero-extended to 64 bits (R18). Of a result that is wider, and of the eight elements of a block word, it
keeps the low 64 bits (log entry 9). -/
def Group.latchWrite {w : Nat} (g : Group) (m : Mask) (n : Nat) (wc : BitVec 3) (f : Lane → BitVec w) : Group :=
  (g.cutLatch m n).latchPut m n wc f

/-! ### Guards and issued lanes -/

/-- Guards of a lane-class word (R14). -/
def Group.guardMask (g : Group) (a : Guard) : Mask := if a.inv then ~~~(g.predMask a.idx) else g.predMask a.idx

/-- Guards of a uniform-class word (R24). -/
def Group.gguard (g : Group) (a : Guard) : Bool := (g.gpred a.idx) != a.inv

/-- The lanes of a lane-class word that issue (R6, R14); after a trap, only those to execute again (R134). -/
def Group.issuedLanes (g : Group) (sl : Slot) (h : Head) : Mask :=
  let m := sl.mask &&& g.guardMask h.ga &&& g.guardMask h.gb
  match sl.redo with
  | some r => m &&& r
  | none => m

/-- Does a uniform-class word act (R24)? -/
def Group.uniIssues (g : Group) (h : Head) : Bool := g.gguard h.ga && g.gguard h.gb

/-- The lanes that a uniform-class word's trap names (R278). -/
def Slot.uniMask (sl : Slot) : Mask := if sl.mask = 0#96 then 1#96 else sl.mask

/-- The lane that a uniform-class access belongs to (R40, R86, R295). -/
def Slot.uniLane (sl : Slot) : Lane := (lowest? sl.mask).getD 0

/-! ### Signal counters (R19) -/

def Group.ctr (g : Group) (c : BitVec 2) : Nat :=
  match c.toNat with
  | 1 => g.c[0] | 2 => g.c[1] | 3 => g.c[2] | _ => 0

def Group.setCtr (g : Group) (c : BitVec 2) (n : Nat) : Group :=
  match c.toNat with
  | 1 => { g with c := g.c.set 0 n } | 2 => { g with c := g.c.set 1 n } | 3 => { g with c := g.c.set 2 n } | _ => g

def Group.ctrUp (g : Group) (c : BitVec 2) : Group := g.setCtr c (g.ctr c + 1)
def Group.ctrDown (g : Group) (c : BitVec 2) : Group := g.setCtr c (g.ctr c - 1)

def State.ctrUp (s : State) (gid : Nat) (c : BitVec 2) : State := s.modGroup gid fun g => g.ctrUp c
def State.ctrDown (s : State) (gid : Nat) (c : BitVec 2) : State := s.modGroup gid fun g => g.ctrDown c

/-- A counter falls, of a group that may be saved: then it has fallen when the group is restored (R285). -/
def State.settleCtr (s : State) (gid : Nat) (c : BitVec 2) : State :=
  match s.group? gid with
  | some _ => s.ctrDown gid c
  | none =>
    { s with saved := s.saved.map fun (x : Saved) => if x.groups.any fun g => g.1 = gid then { x with settled := x.settled ++ [(gid, c)] } else x }

/-! ### The device's own accesses to the virtual space (log entry 7) -/

/-- Keys of device-owned bytes in a tenant's tree, with the supervisor's rights; none where they do not translate. -/
def devKeys (s : State) (die tenant : Nat) (va : Addr) (n : Nat) (k : AccessKind) : State × Option (List Nat) :=
  match xlateBytes s die 0 tenant true k ((List.range n).map fun i => va + BitVec.ofNat 80 i) with
  | (s, .ok ks) => (s, some ks)
  | (s, .error _) => (s, none)

def devRead (s : State) (die tenant : Nat) (va : Addr) (n : Nat) : State × Option (List Byte) :=
  match devKeys s die tenant va n .read with
  | (s, some ks) => (s, some (ks.map (homeByteFrom s die)))
  | (s, none) => (s, none)

def devWrite (s : State) (die tenant : Nat) (va : Addr) (bs : List Byte) : State :=
  match devKeys s die tenant va bs.length .write with
  | (s, some ks) => storeHome s 0 tenant ks bs
  | (s, none) => s

/-! ### The memory fault queue (R53) -/

def FaultRec.bytes (r : FaultRec) : List Byte :=
  toBytes r.addr 10 ++ [r.cause, r.kind, BitVec.ofNat 8 r.tenant, BitVec.ofNat 8 (r.core % 64), r.place, 0#8] ++
    toBytes r.mask 12 ++ toBytes r.seq 4

def Die.mfqFull (d : Die) : Bool := d.mfqtail + 1#12 = d.mfqhead

/-- Writes a record at the tail of a die's queue: none where the queue is full or its page does not translate. -/
def putRecord (s : State) (die : Nat) (r : FaultRec) : Option State :=
  let d := s.die die
  if d.mfqFull then none
  else
    match devKeys s die 0 (d.mfqbase + BitVec.ofNat 80 (32 * d.mfqtail.toNat)) 32 .write with
    | (s, some ks) =>
      let s := storeHome s 0 0 ks r.bytes
      let d := s.die die
      some (s.setDie die { d with mfqtail := d.mfqtail + 1#12 })
    | (_, none) => none

/-- Appends a record, or keeps it until it can be written: no fault is lost. The record's number is given here, in order. -/
def appendRecord (s : State) (die : Nat) (r : FaultRec) : State × Word32 :=
  let d := s.die die
  let r := { r with seq := d.mfqSeq }
  let s := s.setDie die { d with mfqSeq := d.mfqSeq + 1#32 }
  let d := s.die die
  let wait := s.setDie die { d with mfqWait := d.mfqWait ++ [r] }
  (if d.mfqWait.isEmpty then (putRecord s die r).getD wait else wait, r.seq)

/-- Byte 14 of a record: quadrant, both slots, slot, group slot (R53). -/
def placeByte (g : Group) (both s1 : Bool) : BitVec 8 :=
  BitVec.ofNat 8 (g.quad * 64 + (if both then 32 else 0) + (if s1 then 16 else 0) + g.gslot % 16)

/-! ### Traps (chapter 17) -/

/-- What a word that traps reports (R278, R279). -/
structure TrapInfo where
  cause : BitVec 8
  detail : BitVec 8
  mask : Mask
  /-- every lane of the word is left unperformed (R67, R215, R227): rtt executes it whole again -/
  whole : Bool
  /-- the word leaves a result in its latch (R18) -/
  res : Bool
  deriving DecidableEq, Repr

/-- The record of a halted group (R53, R282). -/
def haltRecord (g : Group) (cause : BitVec 8) (pc : Addr) (mask : Mask) : FaultRec :=
  { addr := pc, cause := cause, kind := 6#8, tenant := g.tenant, core := g.core, place := placeByte g false false, mask := mask, seq := 0#32 }

/-- The group halts: no slot issues again, and a record of kind 6 is appended (R282). -/
def haltGroup (s : State) (gid : Nat) (cause : BitVec 8) (pc : Addr) (mask : Mask) : State :=
  match s.group? gid with
  | none => s
  | some g =>
    let s := s.setGroup gid { g with halted := true }
    (appendRecord s g.die (haltRecord g cause pc mask)).1

/-- The registers of the trap window and k144 to k151 change places with their bank (R133). -/
def Group.swapBanks (g : Group) : Group :=
  { g with slices := Vector.ofFn fun l : Lane => setField g.slices[l] 1920 g.shadowSl[l],
           shadowSl := Vector.ofFn fun l : Lane => getField g.slices[l] 1920 128,
           k := setField g.k (32 * 144) g.shadowK,
           shadowK := getField g.k (32 * 144) 256 }

/-- The group with its own registers in their places, and its trap bank beside them. -/
def Group.own (g : Group) : Group := if g.trapMode then g.swapBanks else g

/-- Taking a trap (R280): the frame and the trap registers are recorded, trap mode begins, and S0 starts at the handler
with every lane that has not exited. A trap in trap mode, or without a handler, halts the group (R282). -/
def takeTrap (s : State) (gid : Nat) (s1 : Bool) (t : TrapInfo) (dst : Word32) (inst : Word64) (issued : Mask) : State :=
  match s.group? gid with
  | none => s
  | some g =>
    let pc := (g.slot s1).pc
    let tr : TrapRegs :=
      { cause := (0#16 ++ t.detail ++ t.cause), dst := dst, inst := inst, pc := pc, mask := t.mask }
    let g := { g with treg := tr }
    if g.trapMode || g.utrap = 0#80 then haltGroup (s.setGroup gid g) gid t.cause pc t.mask
    else
      let fr : Frame := { s0 := g.s0, s1 := g.s1, faultS1 := s1, latches := g.latches, height := g.stack.length,
                          whole := t.whole, res := t.res, issued := issued }
      let live := g.liveMask
      let g := g.swapBanks
      s.setGroup gid
        { g with trapMode := true, frame := some fr,
                 s0 := { (Slot.reset.jump g.utrap) with owned := live, mask := live, wait := .ready,
                                                        readyAt := s.now.toNat, clock := g.s0.clock },
                 s1 := { Slot.reset with clock := g.s1.clock } }

/-- The slot to resume with after rtt (R176): at the faulting word for the trapped lanes or the whole instruction, or
past it. -/
def resumeSlot (fr : Frame) (tr : TrapRegs) (skip : Bool) : Slot :=
  let sl := if fr.faultS1 then fr.s1 else fr.s0
  if sl.left = 0 then sl
  else if skip then sl.advance fr.res
  else if fr.whole then sl
  else { sl with redo := some tr.mask }

/-- Leaving trap mode (R176): slots, with their last captures of the clock (R313), masks and latches as they stood at the trap, the stack cut to its height, the banks in
their places again. The handler's writes to the latches of trapped lanes (rtt.sub) are in `latches`. -/
def leaveTrap (s : State) (gid : Nat) (g : Group) (fr : Frame) (skip : Bool) (latches : Lanes (BitVec 512)) : State :=
  let sl := resumeSlot fr g.treg skip
  let g := g.swapBanks
  s.setGroup gid
    { g with trapMode := false, frame := none, latches := latches,
             s0 := { (if fr.faultS1 then fr.s0 else sl) with clock := g.s0.clock },
             s1 := { (if fr.faultS1 then sl else fr.s1) with clock := g.s1.clock },
             stack := g.stack.drop (g.stack.length - fr.height) }

/-- rtt is a fault inside the handler when trap-level entries remain or the issuing slot does not own every lane of the
trap level that has not exited (R176). -/
def rttFaults (g : Group) (s1 : Bool) (fr : Frame) : Bool :=
  decide (fr.height < g.stack.length) || !(g.slot (!s1)).isEmpty

/-! ### Page faults (R52) -/

/-- A slot, one that a trap has frozen where `trap` says so, is parked at its word with the lanes left to perform, and one record is
appended. -/
def parkSlotIn (s : State) (gid : Nat) (s1 trap : Bool) (va : Addr) (c : PageFault) (kind : BitVec 8) (unfinished : Mask) : State :=
  match s.group? gid with
  | none => s
  | some g =>
    let (s, seq) := appendRecord s g.die
      { addr := va, cause := c.code, kind := kind, tenant := g.tenant, core := g.core,
        place := placeByte g false s1, mask := unfinished, seq := 0#32 }
    s.modGroup gid fun g' => g'.modSlotIn s1 trap fun sl => { sl with wait := .parked g.die seq, unfinished := unfinished }

/-- The slot is parked at its word. -/
def parkSlot (s : State) (gid : Nat) (s1 : Bool) (va : Addr) (c : PageFault) (kind : BitVec 8) (unfinished : Mask) : State :=
  match s.group? gid with
  | none => s
  | some g => parkSlotIn s gid s1 g.trapMode va c kind unfinished

/-- Both slots are parked where they stand by a transfer that the device makes for the whole group. -/
def parkGroup (s : State) (gid : Nat) (s1 : Bool) (va : Addr) (c : PageFault) (kind : BitVec 8) (mask : Mask) : State :=
  match s.group? gid with
  | none => s
  | some g =>
    let (s, seq) := appendRecord s g.die
      { addr := va, cause := c.code, kind := kind, tenant := g.tenant, core := g.core,
        place := placeByte g true s1, mask := mask, seq := 0#32 }
    s.modGroup gid fun g => { g with parkedAll := some (g.die, seq) }

/-! ### Code addresses -/

/-- The word at a code address, without side effects: none where it does not translate (R11). -/
def peekWord (s : State) (g : Group) (a : Addr) : Option Word64 :=
  match xlateBytes s g.die g.core g.tenant g.sup .fetch ((List.range 8).map fun i => a + BitVec.ofNat 80 i) with
  | (s', .ok ks) => some (ofBytes (ks.map (homeByteFrom s' g.die)) 64)
  | (_, .error _) => none

/-- Where a control transfer lands (R11): on a header, on another word, or where the fetch faults. -/
inductive Landing where
  | header
  | bad
  | fault (c : PageFault)
  deriving DecidableEq, Repr

def landing (s : State) (g : Group) (a : Addr) : Landing :=
  match xlateBytes s g.die g.core g.tenant g.sup .fetch ((List.range 8).map fun i => a + BitVec.ofNat 80 i) with
  | (s', .ok ks) => if isHeader (ofBytes (ks.map (homeByteFrom s' g.die)) 64) then .header else .bad
  | (_, .error e) => .fault e.1

def landsOnHeader (s : State) (g : Group) (a : Addr) : Bool := landing s g a = .header

/-- R23: the first word of a reconvergence clause is a join. -/
def joinWord : Word64 := 0xCA1DC00000000000#64

/-- Does a reconvergence address hold a join clause? A page that does not translate is taken to hold one, so that the entry is pushed
unchecked: R23 says nothing of it (DESIGN CHOICE, log entry 61). -/
def joinsAt (s : State) (g : Group) (a : Addr) : Bool :=
  match peekWord s g (a + 8#80) with
  | some x => x = joinWord
  | none => true

/-! ### Free values (log entry 5) -/

/-- A value that the manual leaves open. -/
def State.free (s : State) : BitVec 64 × State := (Config.freeValue s.fresh, { s with fresh := s.fresh + 1 })

/-- The number of the next record. -/
def State.nextId (s : State) : Nat × State := (s.seqNo, { s with seqNo := s.seqNo + 1 })

end Sys2Proof.Machine
end

