-- ==== Sys2Proof/Machine/Operands.lean ====
section
/-! DEFINITION. Operands: their widths and ranges, reading sources, writing destinations, and the checks that every lane
or uniform word passes before it acts (R12 to R34). -/

namespace Sys2Proof.Machine

/-- What a lane-class or uniform-class word names: its sources with their widths in bits, further slice ranges in slices,
its destination, whether it leaves a result in its latch, whether it must end or begin its clause. -/
structure Shape where
  head : Head
  srcs : List (Src × Nat)
  ranges : List (BitVec 9 × Nat)
  dst : Option (Dst × Nat)
  pdst : Option PDst
  res : Bool
  control : Bool
  first : Bool
  /-- a lane-class branch of kind 001, whose guards name g (R23) -/
  ug : Bool
  deriving DecidableEq, Repr

/-- A word without a destination. -/
def shapeM (h : Head) (srcs : List (Src × Nat)) : Shape :=
  { head := h, srcs := srcs, ranges := [], dst := none, pdst := none, res := false, control := false, first := false,
    ug := false }

/-- A word with one register result of `n` bits. -/
def shapeV (h : Head) (d : Dst) (n : Nat) (srcs : List (Src × Nat)) : Shape :=
  { shapeM h srcs with dst := some (d, n), res := true }

def shapeP (h : Head) (p : PDst) (srcs : List (Src × Nat)) : Shape := { shapeM h srcs with pdst := some p }

def shapeC (h : Head) (srcs : List (Src × Nat)) : Shape := { shapeM h srcs with control := true }

def ksrc (k : BitVec 8) (n : Nat) : Src × Nat := (.ureg k, n)

/-- The first slice of a lazy view (R135). -/
def viewStart (v : BitVec 3) : BitVec 9 := v ++ 0#6

/-- B of an atomic: a pair for .cas (R72). -/
def casBits (h : Head) (op : BitVec 6) : Nat := if op = 9#6 then 2 * wBits h.w else wBits h.w

/-- Data slices of a block of eight elements (R202). -/
def blockBits (ef : BitVec 3) : Nat := if ef = 6#3 then 32 else 64

/-- The source format's eight elements (R202, R203). -/
def blockSrc (sf : BitVec 3) : Nat := 8 * (fmtBits sf / 4)

/-- The operands of every lane-class and uniform-class word; none for the other instructions. A fill has no result, as a store has none (R18;
log entry 9). -/
def wordShape : Instr → Option Shape
  | .wrsrFpctl h a | .wrsrFpflags h a | .mfqheadWrite h a => some (shapeM h [(a, 32)])
  | .wrsrUtrap h _ a => some (shapeM h [(a, 32)])
  | .rdsrFpflags h d | .rdsrClock0 h d => some (shapeV h d 32 [])
  | .maskWrite h _ _ => some (shapeM h [])
  | .nop h => some (shapeM h [])
  | .mov h d a | .iabs h d a _ | .not h d a | .popc h d a | .clz h d a | .brev h d a => some (shapeV h d (wBits h.w) [(a, wBits h.w)])
  | .movi h d _ => some (shapeV h d (wBits h.w) [])
  | .sel h d a b _ => some (shapeV h d (wBits h.w) [(a, wBits h.w), (b, wBits h.w)])
  | .iadd h d a b _ _ | .isub h d a b _ _ => some (shapeV h d (wBits h.w) [(a, wBits h.w), (b, wBits h.w)])
  | .imul h d a b _ | .imulh h d a b _ | .imin h d a b _ | .imax h d a b _ =>
    some (shapeV h d (wBits h.w) [(a, wBits h.w), (b, wBits h.w)])
  | .imad h d a b c => some (shapeV h d (wBits h.w) [(a, wBits h.w), (b, wBits h.w), (c, wBits h.w)])
  | .shl h d a b | .shr h d a b | .sar h d a b | .rot h d a b | .and h d a b | .or h d a b | .xor h d a b =>
    some (shapeV h d (wBits h.w) [(a, wBits h.w), (b, wBits h.w)])
  | .lop3 h d a b _ => some (shapeV h d (wBits h.w) [(a, wBits h.w), (b, wBits h.w)])
  | .bfx h d a b _ => some (shapeV h d (wBits h.w) [(a, wBits h.w), (b, 16)])
  | .bfi h d a b c => some (shapeV h d (wBits h.w) [(a, wBits h.w), (b, wBits h.w), (c, 16)])
  | .lea h d a b _ _ => some (shapeV h d 80 [(a, 80), (b, wBits h.w)])
  | .isetp h p a b _ _ => some (shapeP h p [(a, wBits h.w), (b, wBits h.w)])
  | .iaddi h d a _ => some (shapeV h d (wBits h.w) [(a, wBits h.w)])
  | .shfl h d a b _ => some (shapeV h d (wBits h.w) [(a, wBits h.w), (b, 32)])
  | .vote h p a _ => some (shapeP h p [(a, wBits h.w)])
  | .voteBallot h k a => some { shapeM h [(a, 32)] with dst := some (.ureg k, 32) }
  | .redx h d a op _ _ =>
    let n := if op = 6#4 then fBits h.w else wBits h.w
    some (shapeV h d n [(a, n)])
  | .fadd h d a b _ | .fsub h d a b _ | .fmul h d a b _ | .fdiv h d a b _ =>
    some (shapeV h d (fBits h.w) [(a, fBits h.w), (b, fBits h.w)])
  | .ffma h d a b c => some (shapeV h d (fBits h.w) [(a, fBits h.w), (b, fBits h.w), (c, fBits h.w)])
  | .fmin h d a b | .fmax h d a b => some (shapeV h d (fBits h.w) [(a, fBits h.w), (b, fBits h.w)])
  | .fsetp h p a b _ => some (shapeP h p [(a, fBits h.w), (b, fBits h.w)])
  | .fsqrt h d a _ | .frcp h d a _ | .frsq h d a _ | .fex2 h d a _ | .flg2 h d a _ | .fsin h d a _ | .fcos h d a _ =>
    some (shapeV h d (fBits h.w) [(a, fBits h.w)])
  | .frnd h d a _ _ | .fcls h d a => some (shapeV h d (fBits h.w) [(a, fBits h.w)])
  | .fcvt h d a df sf _ _ => some (shapeV h d (fmtBits df) [(a, fmtBits sf)])
  | .icvt h d a df sw _ _ => some (shapeV h d (fmtBits df) [(a, wBits sw)])
  | .fcvti h d a sf _ _ => some (shapeV h d (wBits h.w) [(a, fmtBits sf)])
  | .blkq h d a b ef sf _ =>
    let srcs := match b with | some b => [(b, 8)] | none => []
    some { shapeV h (.slice d) (blockBits ef) srcs with
             ranges := (a, blockSrc sf) :: (if h.sup then [] else [(d, blockBits ef / 4 + 2)]) }
  | .blkdq h d a b df ef _ =>
    some { shapeV h (.slice d) (8 * fmtBits df) [(a, blockBits ef), (b, 8)] with
             ranges := if h.sup then [] else [(d, 2 * fmtBits df)] }
  | .bscale h d a _ sf => some (shapeV h d 8 [(a, fmtBits sf)])
  | .srnd h d a v df sf => some { shapeV h d (fmtBits df) [(a, fmtBits sf)] with ranges := [(viewStart v, 64)] }
  | .pack h d a _ _ sw => some { shapeV h (.slice d) (wBits h.w) [] with
      ranges := [(a, 8 * (wBits sw / 4))] ++ (if h.sup then [] else [(d, 8 * (wBits h.w / 4))]) }
  | .unpack h d a _ sw => some { shapeV h (.slice d) (wBits h.w) [] with
      ranges := [(a, 8 * (wBits sw / 4))] ++ (if h.sup then [] else [(d, 8 * (wBits h.w / 4))]) }
  | .tbld h k _ _ => some (shapeM h [ksrc k 80])
  | .tbind h => some (shapeM h [])
  | .teval h d a _ _ => some (shapeV h d (fBits h.w) [(a, fBits h.w)])
  | .lzdraw h v a b => some { shapeM h [(a, 32), (b, 32)] with ranges := [(viewStart v, 64)] }
  | .lzcmp h p v b _ => some { shapeP h (.p p) [(b, wBits h.w)] with ranges := [(viewStart v, 64)] }
  | .lzcmpExt h v b => some { shapeM h [(b, 32)] with ranges := [(viewStart v, 64)] }
  | .lzval h d v _ => some { shapeV h d (wBits h.w) [] with ranges := [(viewStart v, 64)] }
  | .ld h d a b _ _ _ => some (shapeV h d (wBits h.w) [(a, 80), (b, 32)])
  | .st h a b _ _ _ => some (shapeM h [(a, 80), (b, wBits h.w)])
  | .ldu h d a _ _ _ => some (shapeV h d (wBits h.w) [(a, 80)])
  | .gth h d a b _ _ _ => some (shapeV h d (wBits h.w) [(a, 80), (b, 32)])
  | .sct h data a b _ _ _ => some (shapeM h [(.slice data, wBits h.w), (a, 80), (b, 32)])
  | .atom h d a b _ _ op => some (shapeV h d (wBits h.w) [(a, 80), (b, casBits h op)])
  | .atomo h d a b _ _ => some (shapeV h d (wBits h.w) [(a, 80), (b, wBits h.w)])
  | .atomoFin h => some (shapeM h [])
  | .fence h _ _ _ => some (shapeM h [])
  | .cpy h dk ak len _ _ _ => some (shapeM h [ksrc dk 80, ksrc ak 80, (len, 32)])
  | .cpyCont h dk ak len _ _ _ => some (shapeC h [ksrc dk 80, ksrc ak 80, (.ureg len, 64)])
  | .pref h a b _ _ _ => some (shapeM h [(a, 80), (b, 32)])
  | .cmntWb h a b _ _ | .cmntInv h a b _ _ | .cmntL2wb h a b _ _ | .cmntL2inv h a b _ _ => some (shapeM h [(a, 80), (b, 32)])
  | .spill h n1 a f _ _ => some { shapeM h [(a, 80)] with ranges := [(f, n1.toNat + 1)] }
  | .fill h n1 a f _ _ => some { shapeM h [(a, 80)] with ranges := [(f, n1.toNat + 1)] }
  | .ringPush h a b _ _ => some (shapeM h [ksrc a 80, (b, wBits h.w)])
  | .ringPop h d a _ _ => some (shapeV h d (wBits h.w) [ksrc a 80])
  | .futFill h a b _ _ => some (shapeM h [(a, 80), (b, 64)])
  | .futWait h d a _ _ => some (shapeV h d 64 [(a, 80)])
  | .bra h _ _ _ | .call h _ _ _ => some (shapeC h [])
  | .braUniform h _ _ _ | .callUniform h _ _ _ => some { shapeC h [] with ug := true }
  | .brx h a _ _ ug | .callx h a _ _ ug => some { shapeC h [(a, 32)] with ug := ug }
  | .ret h => some (shapeC h [])
  | .join => some (shapeM ⟨false, 0#3, g7, g7, false, 0#2⟩ [])
  | .exit h | .exitUniform h => some (shapeC h [])
  | .yield h => some (shapeM h [])
  | .barArrive h a b | .barSync h a b => some (shapeM h [(a, 32), (b, 32)])
  | .barWait h a => some (shapeM h [(a, 32)])
  | .sleep h a | .trap h a | .bkpt h a => some (shapeM h [(a, 32)])
  | .rtt h | .rttSkip h => some (shapeC h [])
  | .rttSub h a => some (shapeC h (if a.isAcc || a.isLatch then [(a, 32)] else []))
  | .forkMx h d a _ _ | .forkCp h d a _ _ | .forkCl h d a _ _ =>
    some { shapeM h [ksrc a 80] with dst := some (.ureg d, 32), res := true }
  | .rdv h d a => some (shapeV h d 32 [(a, 32)])
  | .mfeedDat h _ _ a b | .mfeedScl h _ _ a b | .mfeedBand h _ a b => some (shapeM h [(a, 32), (b, 32)])
  | .mfeedQ h _ _ a b => some { shapeM h [(b, 32)] with ranges := [(a, 64)] }
  | .mwm h d _ => some (shapeV h d 32 [])
  | .stepLdtab h a _ | .stepBind h a _ | .stepRun h a _ => some (shapeM h [ksrc a 80])
  | .stepWait h | .stepDone h | .stepStop h => some (shapeM h [])
  | .stepQry h d t => some (shapeM h [ksrc d 80, (t, 64)])
  | .stepStat h d _ => some (shapeM h [ksrc d 80])
  | .spawn h a f => some { shapeM h [(a, 32)] with ranges := [(f, 64)] }
  | .spawnUniform h a _ => some (shapeM h [ksrc a 32])
  | .tend h => some (shapeM h [])
  | .claim h n | .give h n => some (shapeM h [(n, 32)])
  | .giveRole h n r => some (shapeM h [(n, 32), (r, 32)])
  | .regionBegin h => some { shapeM h [] with first := true }
  | .regionEnd h => some (shapeM h [])
  | .digestRd h d _ => some (shapeV h d 32 [])
  | .digestFold h a => some (shapeM h [(a, wBits h.w)])
  | .rdsr h d _ => some (shapeV h d 32 [])
  | .wrsr h _ a => some (shapeM h [(a, 32)])
  | .sysLaunch h a b _ => some (shapeM h [ksrc a 80, (b, 32)])
  | .sysTlbinv h a b _ => some (shapeM h [ksrc a 80, ksrc b 32])
  | .sysCarve h a | .sysHalt h a | .sysReplay h a | .sysEfail h a => some (shapeM h [ksrc a 32])
  | .sysDebug h a b | .sysSlice h a b => some (shapeM h [ksrc a 32, ksrc b 32])
  | _ => none

/-! ### Checks on operands -/

/-- A slice operand of `n` slices lies in the allocation, or in the trap window in trap mode (R15, R117, R133). -/
def sliceOk (g : Group) (start n : Nat) : Bool :=
  decide (start + n ≤ 512) && (decide (start + n ≤ g.alloc) || (g.trapMode && decide (480 ≤ start)))

def slicesOf (bits : Nat) : Nat := bits / 4

def srcInRange (g : Group) (p : Src × Nat) : Bool :=
  match p.1 with
  | .slice st => sliceOk g st.toNat (slicesOf p.2)
  | _ => true

def dstInRange (g : Group) (sup : Bool) (d : Option (Dst × Nat)) : Bool :=
  match d with
  | some (.slice st, n) => sup || sliceOk g st.toNat (slicesOf n)
  | _ => true

/-- A latch source needs an earlier position of the clause that left a result (R18). -/
def latchOk (sl : Slot) (p : Src × Nat) : Bool :=
  match p.1 with
  | .latch n => sl.fresh.getLsbD n.toNat
  | _ => true

/-- The trap causes by name (R278). -/
def cIllegalHeader : BitVec 8 := 0x01#8
def cIllegalInstruction : BitVec 8 := 0x02#8
def cPrivilege : BitVec 8 := 0x03#8
def cOperandRange : BitVec 8 := 0x04#8
def cFormatIllegal : BitVec 8 := 0x05#8
def cFormatDivergence : BitVec 8 := 0x06#8
def cAddressRange : BitVec 8 := 0x07#8
def cAlignment : BitVec 8 := 0x08#8
def cRangeLock : BitVec 8 := 0x09#8
def cFloat : BitVec 8 := 0x0A#8
def cLazyState : BitVec 8 := 0x0B#8
def cRingDescriptor : BitVec 8 := 0x0C#8
def cFutureRefill : BitVec 8 := 0x0D#8
def cOrderedAfterFinish : BitVec 8 := 0x0E#8
def cBudgetLimit : BitVec 8 := 0x0F#8
def cReconvOverflow : BitVec 8 := 0x10#8
def cCallOverflow : BitVec 8 := 0x11#8
def cNoTeam : BitVec 8 := 0x12#8
def cBarrierState : BitVec 8 := 0x13#8
def cMatrixNotHeld : BitVec 8 := 0x14#8
def cStepperState : BitVec 8 := 0x15#8
def cLaunchRecord : BitVec 8 := 0x16#8
def cTaskIndex : BitVec 8 := 0x17#8
def cRegionState : BitVec 8 := 0x18#8
def cTaskFault : BitVec 8 := 0x19#8
def cSoftware : BitVec 8 := 0x20#8
def cBreakpoint : BitVec 8 := 0x21#8
def cEngineFault : BitVec 8 := 0x30#8
def cSoftError : BitVec 8 := 0x31#8

/-- Special registers that exist, by number (R314). -/
def srDefined (n : Nat) : Bool :=
  n ≤ 0x012 || (0x014 ≤ n && n ≤ 0x017) || (0x020 ≤ n && n ≤ 0x023) || (0x030 ≤ n && n ≤ 0x040) ||
    (0x044 ≤ n && n ≤ 0x04F) || (0x060 ≤ n && n ≤ 0x064) || (0x100 ≤ n && n ≤ 0x120)

/-- Special registers of the trap window (R133). -/
def srTrapOnly (n : Nat) : Bool := 0x044 ≤ n && n ≤ 0x04F

/-- Special registers that a wrsr may write (R314). -/
def srWritable (sup : Bool) (n : Nat) : Bool :=
  (n = 0x00A && sup) || (0x020 ≤ n && n ≤ 0x023) || (0x030 ≤ n && n ≤ 0x032) || (0x044 ≤ n && n ≤ 0x04F) ||
    (0x100 ≤ n && n ≤ 0x11B) || (0x11D ≤ n && n ≤ 0x120)

/-- Privileged special registers (R313). -/
def srPrivileged (n : Nat) : Bool := 0x100 ≤ n && n ≤ 0x1FF

/-- A number that an rdsr of the group takes as illegal-instruction (R313). -/
def srReadIllegal (g : Group) (n : Nat) : Bool := !srDefined n || (srTrapOnly n && !g.trapMode)

def srWriteIllegal (g : Group) (n : Nat) : Bool := srReadIllegal g n || !srWritable g.sup n

/-- The special-register number that a word reads or writes. -/
def srNumber : Instr → Option (Nat × Bool)
  | .rdsr _ _ n => some (n.toNat, false)
  | .wrsr _ n _ => some (n.toNat, true)
  | .mfqheadWrite _ _ => some (0x11B, true)
  | _ => none

/-- Sub-operations of sys that only supervisor mode may issue (R315). -/
def sysPrivileged : Instr → Bool
  | .sysTlbinv _ _ _ _ | .sysCarve _ _ | .sysHalt _ _ | .sysReplay _ _ | .sysEfail _ _ | .sysDebug _ _ _ | .sysSlice _ _ _ => true
  | _ => false

/-- Values of sys operands outside their ranges (R315), read from k registers. -/
def sysOperandBad (g : Group) (sl : Slot) : Instr → Bool
  | .sysTlbinv _ _ b sc =>
    let v := g.kreg sl b.toNat
    let n := (v.extractLsb' 0 7).toNat
    decide (n < 12 ∨ 80 < n) || (sc = 3#3 && decide ((v.extractLsb' 8 5).toNat ≥ Config.dies))
  | .sysCarve _ a =>
    let v := g.kreg sl a.toNat
    let m := (v.extractLsb' 16 4).toNat
    decide ((v.extractLsb' 0 11).toNat ≥ 1536 ∨ m < 2 ∨ 8 < m)
  | .sysDebug _ a _ => decide (64 ≤ (g.kreg sl a.toNat).toNat)
  | .sysSlice _ a b => decide (64 ≤ (g.kreg sl a.toNat).toNat ∨ 1 < (g.kreg sl b.toNat).toNat)
  | .sysLaunch h _ b _ =>
    match b with
    | .ureg k => let die := (g.kreg sl k.toNat).toNat; if g.sup then decide (Config.dies ≤ die) else !h.uni || decide (die ≠ 0)
    | _ => g.sup
  | _ => false

/-- The first fault that a word's own fields give, in the order of R34: illegal-instruction, privilege, operand-range. -/
def wordFault (g : Group) (sl : Slot) (i : Instr) (sh : Shape) : Option (BitVec 8) :=
  if (sh.control && decide (sl.left ≠ 1)) || (sh.first && decide (sl.pos ≠ 0)) || !(sh.srcs.all (latchOk sl)) then
    some cIllegalInstruction
  else if (match srNumber i with
           | some (n, wr) => if wr then srWriteIllegal g n else srReadIllegal g n
           | none => false) || sysOperandBad g sl i then some cIllegalInstruction
  else if (sysPrivileged i || (match srNumber i with | some (n, _) => srPrivileged n | none => false)) && !g.sup then
    some cPrivilege
  else if !(sh.srcs.all (srcInRange g)) || !(sh.ranges.all fun r => sliceOk g r.1.toNat r.2) || !(dstInRange g sh.head.sup sh.dst) then
    some cOperandRange
  else none

/-! ### Lanes that execute -/

/-- The lanes in which a word executes: in the uniform class the one lane that stands for the group, if both guards hold. -/
def execLanes (g : Group) (sl : Slot) (h : Head) : Mask :=
  if h.uni then (if g.uniIssues h then oneLane (sl.uniLane).val else 0#96) else g.issuedLanes sl h

/-- The lanes that a lane-independent trap of the word names (R278). -/
def trapLanes (g : Group) (sl : Slot) (sh : Shape) : Mask :=
  if sh.head.uni then sl.uniMask
  else if sh.ug then (if g.uniIssues sh.head then sl.mask else 0#96)
  else g.issuedLanes sl sh.head

/-- sr.tdst of a word (R279). -/
def tdstOf (sh : Shape) : Word32 :=
  let start := fun (d : Dst) => match d with | .slice s => s | .ureg k => k.setWidth 9
  match sh.pdst with
  | some (.p n) => 3#2 ++ 0#20 ++ 0#1 ++ n.setWidth 9
  | some (.g n) => 3#2 ++ 0#20 ++ 1#1 ++ n.setWidth 9
  | none =>
    if sh.head.sup then 0#2 ++ sh.head.w ++ 0#27
    else
      match sh.dst with
      | some (.slice s, _) => 1#2 ++ sh.head.w ++ 0#18 ++ start (.slice s)
      | some (.ureg k, _) => 2#2 ++ sh.head.w ++ 0#18 ++ start (.ureg k)
      | none => 0#32

/-- The word traps: R280 with the registers of R279 taken from the word. -/
def trapWord (s : State) (gid : Nat) (s1 : Bool) (i : Instr) (sh : Shape) (cause detail : BitVec 8) (mask : Mask) (whole : Bool) :
    State :=
  match s.group? gid with
  | none => s
  | some g =>
    takeTrap s gid s1 { cause := cause, detail := detail, mask := mask, whole := whole, res := sh.res } (tdstOf sh)
      ((encode i).getD 0#64) (trapLanes g (g.slot s1) sh)

/-! ### The matrix unit's holder (R224) -/

def Src.isAccSrc (p : Src × Nat) : Bool := match p.1 with | .acc _ _ => true | _ => false

/-- Words that use the quadrant's matrix unit. -/
def usesMatrix (i : Instr) (sh : Shape) : Bool :=
  sh.srcs.any Src.isAccSrc ||
    match i with
    | .mfeedDat _ _ _ _ _ | .mfeedScl _ _ _ _ _ | .mfeedBand _ _ _ _ | .mfeedQ _ _ _ _ _ | .mwm _ _ _ | .forkMx _ _ _ _ _ => true
    | _ => false

/-- A program forked to a quadrant's sequencer that has not ended. -/
def Prog.onSequencer (p : Prog) (die core quad : Nat) : Bool :=
  p.eng = 0 && !p.ended && quadKey p.die p.core p.quad = quadKey die core quad

/-- The unit at the values of R224, for a holder: its fork queue is empty. -/
def emptyUnit (s : State) (die core quad : Nat) (holder : Option Nat) : State :=
  { s.setQuad die core quad { s.quad die core quad with mx := { MxUnit.reset with holder := holder } } with
    progs := s.progs.filter fun p => !p.2.onSequencer die core quad }

/-- A unit loses its holder: what was forked to its sequencer and has not ended is gone, and the counters of those forks fall. -/
def resetUnit (s : State) (die core quad : Nat) : State :=
  (s.progs.filter fun p => p.2.onSequencer die core quad).foldl (fun s p => s.settleCtr p.2.gid p.2.ctr) (emptyUnit s die core quad none)

/-- The word's use of the unit: the cause of its trap, or the state in which the group's team holds the unit. -/
def takeMatrix (s : State) (g : Group) : Except (BitVec 8) State :=
  match g.team with
  | none => .error cNoTeam
  | some t =>
    let q := s.quad g.die g.core g.quad
    match q.mx.holder with
    | some x => if x = t then .ok s else .error cMatrixNotHeld
    | none => .ok (emptyUnit s g.die g.core g.quad (some t))

/-- The accumulator tiles that a word reads. -/
def accTiles (sh : Shape) : List Nat := sh.srcs.filterMap fun p => match p.1 with | .acc t _ => some t.toNat | _ => none

/-- The unit works on a tile that the word reads: the word has issued and waits, and no later operation on the tile starts before it has
taken its row (R236). -/
def accBusy (s : State) (g : Group) (sh : Shape) : Bool :=
  match (s.quad g.die g.core g.quad).mx.op with
  | some op => (accTiles sh).contains op.tile
  | none => false

/-- Every lane or uniform word: the slot whose turn it is, the checks of R34 in their order, the hold on the matrix unit, and
then what the word does. -/
def gate (i : Instr) (s : State) (k : State → Nat → Bool → Group → Slot → Shape → Out) : Out :=
  match s.cur with
  | .slot gid s1 =>
    match s.group? gid, wordShape i with
    | some g, some sh =>
      let sl := g.slot s1
      match wordFault g sl i sh with
      | some c => .next (trapWord s gid s1 i sh c 0#8 (trapLanes g sl sh) false)
      | none =>
        if usesMatrix i sh && decide (execLanes g sl sh.head ≠ 0#96) then
          match takeMatrix s g with
          | .error c => .next (trapWord s gid s1 i sh c 0#8 (trapLanes g sl sh) false)
          | .ok s =>
            if accBusy s g sh then .next (s.modSlot gid s1 fun x => { x with wait := .acc (accTiles sh) }) else k s gid s1 g sl sh
        else k s gid s1 g sl sh
    | _, _ => .fault .noIssuer
  | _ => .fault .noIssuer

/-! ### Reading sources -/

/-- Column `l` of an accumulator row of the group's quadrant (R15, R236). -/
def accWord (s : State) (g : Group) (tile row : Nat) (l : Lane) : Word32 :=
  let u := (s.quad g.die g.core g.quad).mx
  match u.acc[tile]? with
  | some t => getField ((tget t.rows row).getD 0#3072) (32 * l.val) 32
  | none => 0#32

/-- A source operand of `w` bits in one lane (R15, R24). -/
def readSrc (s : State) (g : Group) (sl : Slot) (l : Lane) (x : Src) (w : Nat) : BitVec w :=
  match x with
  | .slice st => g.sliceRead l st.toNat w
  | .ureg k => g.kread sl k.toNat w
  | .latch n => g.latchRead l n w
  | .acc t r => (accWord s g t.toNat r.toNat l).setWidth w
  | .imm v => v.signExtend w
  | .uimm v => v.signExtend w

/-- A value that a once-only word reads: a uniform operand itself, a slice of the lowest issued lane (R295). -/
def readOnce (s : State) (g : Group) (sl : Slot) (m : Mask) (x : Src) (w : Nat) : BitVec w :=
  readSrc s g sl ((lowest? m).getD sl.uniLane) x w

/-- The 80-bit address of a triple (R65). -/
def readTriple (g : Group) (sl : Slot) (k : BitVec 8) : Addr := (g.kread sl k.toNat 96).setWidth 80

/-- An 80-bit address operand (R21, R65). -/
def readAddr (s : State) (g : Group) (sl : Slot) (l : Lane) (x : Src) : Addr :=
  match x with
  | .ureg k => readTriple g sl k
  | _ => readSrc s g sl l x 80

/-! ### Writing results -/

/-- Writes a register result in the lanes of `m`: the destination unless suppressed, a uniform destination from the lowest
lane (R16), and the latch in the lane class (R18). -/
def Group.putResult {w : Nat} (g : Group) (s1 : Bool) (sh : Shape) (m : Mask) (udst : Bool) (f : Lane → BitVec w) : Group :=
  let n := (g.slot s1).latchNo
  let g1 :=
    if sh.head.sup then g
    else
      match sh.dst with
      | some (.slice st, _) => g.sliceWrite m st.toNat f
      | some (.ureg k, _) =>
        match lowest? m with
        | some l => if udst then g.kwrite s1 k.toNat (f l) else g
        | none => g
      | none => g
  if sh.head.uni then g1 else g1.latchWrite m n sh.head.w f

/-- The word is done: the slot goes on to the next word. -/
def Group.done (g : Group) (s1 : Bool) (sh : Shape) : Group := g.modSlot s1 fun sl => sl.advance sh.res

/-- A word that computes one register result in each lane and cannot trap. -/
def runV {w : Nat} (i : Instr) (s : State) (f : State → Group → Slot → Mask → Lane → BitVec w) : Out :=
  gate i s fun s gid s1 g sl sh =>
    let m := execLanes g sl sh.head
    .next (s.setGroup gid ((g.putResult s1 sh m true (f s g sl m)).done s1 sh))

/-- A word that writes one predicate: p in every executing lane, g once (R16, R159). -/
def runP (i : Instr) (s : State) (f : State → Group → Slot → Lane → Bool) : Out :=
  gate i s fun s gid s1 g sl sh =>
    let m := execLanes g sl sh.head
    let g1 :=
      match sh.pdst, lowest? m with
      | some (.p n), _ => g.setPred n m (maskOf (f s g sl))
      | some (.g n), some l => g.setGpred n (f s g sl l)
      | _, _ => g
    .next (s.setGroup gid (g1.done s1 sh))

end Sys2Proof.Machine
end

