-- ==== Sys2Proof/Machine/Access.lean ====
section
/-! DEFINITION. Accesses of lanes: spaces and their limits, range locks, translation, miss-status entries, issue, retry and
completion (R39, R40, R63 to R69, R85 to R91). -/

namespace Sys2Proof.Machine

/-! ### Spaces (R39) -/

def Space.ofCode (c : BitVec 3) : Space :=
  match c.toNat with
  | 0 => .lp | 1 => .sc | 2 => .cl | 3 => .ds | 4 => .g | _ => .ro

def Space.code : Space → Nat
  | .lp => 0 | .sc => 1 | .cl => 2 | .ds => 3 | .g => 4 | .ro => 5

/-- Spaces that the page tables map. -/
def Space.mapped : Space → Bool
  | .lp | .g | .ro => true
  | _ => false

/-- Element size in bytes (R66). -/
def elemSize (w : BitVec 3) : Nat := wBits w / 8

def State.teamOf (s : State) (g : Group) : Option Team := g.team.bind (tget s.teams)

/-- The die-scratchpad range of a grid on a die: first byte and length (R62). -/
def State.dsRange (s : State) (die grid : Nat) : Nat × Nat :=
  match s.dsAlloc.find? fun a => a.1 = die && a.2.2.2 = grid with
  | some a => (a.2.1, a.2.2.1)
  | none => (0, 0)

/-- The limits of R39 for `n` bytes at an address. A lane-private element whose last bytes pass offset 2^24 is outside, though R39 names
the limit for its address alone (DESIGN CHOICE, log entry 59). -/
def inSpace (s : State) (team : Option Team) (die grid : Nat) (sp : Space) (ea : Addr) (n : Nat) : Bool :=
  let size := match team with | some t => t.scSize | none => 0
  match sp with
  | .lp => decide (ea.toNat + n ≤ 2 ^ 24)
  | .sc => decide (ea.toNat < 2 ^ 20 ∧ ea.toNat + n ≤ size)
  | .cl => decide (ea.toNat < 2 ^ 23 ∧ ea.toNat % 2 ^ 20 + n ≤ size)
  | .ds => decide (ea.toNat < 2 ^ 25 ∧ ea.toNat + n ≤ (s.dsRange die grid).2)
  | .g | .ro => true

/-- The keys of `n` bytes of an unmapped space. -/
def chipKeys (s : State) (team : Option Team) (die core grid : Nat) (sp : Space) (ea : Addr) (n : Nat) : List Nat :=
  let base := fun c : Nat => match team with | some t => t.scBase.getD c 0 | none => 0
  match sp with
  | .sc => upFrom (sramKey die core (base (core % 8) + ea.toNat)) n
  | .cl =>
    let c := ea.toNat / 2 ^ 20 % 8
    upFrom (sramKey die (core / 8 * 8 + c) (base c + ea.toNat % 2 ^ 20)) n
  | .ds => (upFrom ((s.dsRange die grid).1 + ea.toNat) n).map (dsKey die)
  | _ => []

/-- R40: where a lane's private byte lies. -/
def lpAddr (base : Addr) (lane : Nat) (o : Addr) : Addr :=
  base + BitVec.ofNat 80 (o.toNat / 4 * 384 + lane * 4 + o.toNat % 4)

/-- The virtual addresses of `n` bytes of a mapped space. -/
def byteAddrs (base : Addr) (lane : Nat) (sp : Space) (ea : Addr) (n : Nat) : List Addr :=
  (List.range n).map fun i =>
    if sp = .lp then lpAddr base lane (ea + BitVec.ofNat 80 i) else ea + BitVec.ofNat 80 i

/-! ### Range locks (R69) -/

/-- A .cl address on the issuing core is compared as the .sc address with the same offset. -/
def lockPlace (core : Nat) (sp : Space) (a : Nat) : Space × Nat :=
  if sp = .cl && a / 2 ^ 20 % 8 = core % 8 then (.sc, a % 2 ^ 20) else (sp, a)

/-- Two ranges share a byte. -/
def meets (a n b m : Nat) : Bool := decide (0 < n ∧ 0 < m ∧ a < b + m ∧ b < a + n)

/-- A range, as a place and a length, with the bytes of another cut out. -/
def cutRange (b m : Nat) (r : Nat × Nat) : List (Nat × Nat) :=
  if meets r.1 r.2 b m then [(r.1, b - r.1), (b + m, r.1 + r.2 - (b + m))].filter fun x => x.2 ≠ 0 else [r]

/-- The parts of a stepper's entry that the outstanding call opens to an access of this kind (R115): those in the entry's own place. -/
def callOpens (s : State) (core : Nat) (l : Lock) (write : Bool) : List (Nat × Nat) :=
  match l.owner with
  | .copy _ => []
  | .step c =>
    match tget s.ctxs c with
    | none => []
    | some x =>
      let rs := (match x.openOut with | some r => [r] | none => []) ++
        (match x.openIn with | some r => if write then [] else [r] | none => [])
      (rs.filter fun r => (lockPlace core l.space r.1.toNat).1 = (lockPlace core l.space l.lo).1).map fun r =>
        ((lockPlace core l.space r.1.toNat).2, r.2)

/-- Does an access of `n` bytes take range-lock (R69)? -/
def lockHit (s : State) (die core tenant : Nat) (write : Bool) (sp : Space) (ea : Addr) (n : Nat) : Bool :=
  let p := lockPlace core sp ea.toNat
  (s.core die core).rlt.any fun l =>
    let q := lockPlace core l.space l.lo
    l.tenant = tenant && q.1 = p.1 && (l.write || write) && meets p.2 n q.2 l.len &&
      (let both := (max p.2 q.2, min (p.2 + n) (q.2 + l.len) - max p.2 q.2)
       !((callOpens s core l write).foldl (fun rs o => rs.flatMap (cutRange o.1 o.2)) [both]).isEmpty)

/-! ### Kinds of operation -/

def MemOp.kind : MemOp → AccessKind
  | .store | .spill _ _ => .write
  | .atomic _ | .ordered _ | .futFill | .ringPush | .ringPop => .atomic
  | _ => .read

/-- The kind byte of a fault record (R53). -/
def kindByte : AccessKind → BitVec 8
  | .read => 0#8 | .write => 1#8 | .atomic => 2#8 | .fetch => 3#8

/-- Classes of R92: r, w, a, e from the high bit down. -/
def MemOp.classes : MemOp → BitVec 4
  | .load | .ringPop => 8#4
  | .store | .ringPush => 4#4
  | .atomic _ | .ordered _ | .futFill => 14#4
  | .futWait => 10#4
  | _ => 0#4

/-- Bytes that one lane's element takes. -/
def MemReq.bytes (r : MemReq) : Nat :=
  match r.op with
  | .spill _ n | .fill _ n => (n + 1) / 2
  | _ => elemSize r.w

/-- Lanes that make an access of their own. -/
def MemReq.makers (r : MemReq) (todo : Mask) : Mask :=
  match r.once with
  | some l => if todo = 0#96 then 0#96 else oneLane l
  | none => todo

/-- The lanes that one maker stands for: itself, or the whole mask. -/
def MemReq.stands (r : MemReq) (todo : Mask) (l : Nat) : Mask := if r.once.isSome then todo else oneLane l

/-! ### Checks before any access (R67) -/

/-- The lanes that break a limit, are misaligned, or meet a range lock (`lock` says whether the access is checked, and
whether it writes): the first kind that occurs. -/
def memTrap (s : State) (g : Group) (r : MemReq) (n align : Nat) (lock : Option Bool) (m : Mask) : Option (BitVec 8 × Mask) :=
  let team := s.teamOf g
  let whole := fun x : Mask => if x = 0#96 then x else r.stands m ((lowest? x).getD 0).val ||| x
  let bad := fun p : Lane → Bool => whole (r.makers m &&& maskOf p)
  let space := bad fun l => !inSpace s team g.die g.grid r.space r.ea[l] n
  if space ≠ 0#96 then some (cAddressRange, space)
  else
    let al := bad fun l => decide (r.ea[l].toNat % align ≠ 0)
    if al ≠ 0#96 then some (cAlignment, al)
    else
      let lk := match lock with
        | some wr => bad fun l => lockHit s g.die g.core g.tenant wr r.space r.ea[l] n
        | none => 0#96
      if lk ≠ 0#96 then some (cRangeLock, lk) else none

/-! ### Translation of the lanes (R48, R52) -/

/-- Keys by lane, and the lanes that fault with the address of the lowest of them and its cause (R53). -/
structure Xlated where
  keys : List (Nat × List Nat)
  faulted : Mask
  first : Option (Addr × PageFault)

/-- One lane's bytes, with the translations that the instruction has made so far (R48). -/
def lanePages (s : State) (g : Group) (sp : Space) (k : AccessKind) (found : List TlbEntry) (lane : Nat) (ea : Addr) (n : Nat) :
    State × List TlbEntry × Except (PageFault × Addr) (List Nat) :=
  if sp.mapped then xlatePages s g.die g.core g.tenant g.sup k found (byteAddrs g.lpbase lane sp ea n)
  else (s, found, .ok (chipKeys s (s.teamOf g) g.die g.core g.grid sp ea n))

/-- The address that a fault record gives for a lane's element: its first byte's (R53). -/
def faultVa (g : Group) (sp : Space) (lane : Nat) (ea : Addr) : Addr := (byteAddrs g.lpbase lane sp ea 1).headD 0#80

def laneKeys (s : State) (g : Group) (sp : Space) (k : AccessKind) (lane : Nat) (ea : Addr) (n : Nat) :
    State × Except (PageFault × Addr) (List Nat) :=
  match lanePages s g sp k [] lane ea n with
  | (s, _, .ok ks) => (s, .ok ks)
  | (s, _, .error (c, _)) => (s, .error (c, faultVa g sp lane ea))

def xlateFrom (s : State) (g : Group) (sp : Space) (k : AccessKind) (ea : Lanes Addr) (n : Nat) (found : List TlbEntry) :
    List Lane → State × Xlated
  | [] => (s, { keys := [], faulted := 0#96, first := none })
  | l :: r =>
    match lanePages s g sp k found l.val ea[l] n with
    | (s, found, .ok ks) =>
      let (s, x) := xlateFrom s g sp k ea n found r
      (s, { x with keys := (l.val, ks) :: x.keys })
    | (s, found, .error (c, _)) =>
      let (s, x) := xlateFrom s g sp k ea n found r
      (s, { x with faulted := x.faulted ||| oneLane l.val, first := some (faultVa g sp l.val ea[l], c) })

/-- The lanes of one instruction in ascending order (R48). -/
def xlateLanes (s : State) (g : Group) (sp : Space) (k : AccessKind) (ea : Lanes Addr) (n : Nat) (ls : List Lane) : State × Xlated :=
  xlateFrom s g sp k ea n [] ls

/-! ### Miss-status entries (R63, R64) -/

/-- The lines for which an access of these bytes holds an entry (R54, R63). -/
def entryLines (s : State) (die core : Nat) (sp : Space) (ks : List Nat) : List Nat :=
  match sp with
  | .sc => []
  | .cl => ((ks.filter fun k => (k - 2 ^ 56) / 2 ^ 20 % 64 ≠ core).map lineOf).eraseDups
  | .lp => ((ks.filter fun k => !(hasL1 s die core && l1Holds s die core k)).map lineOf).eraseDups
  | _ => (ks.map lineOf).eraseDups

/-- The entries that a core's requests hold: one for each line of an instruction while an access of it there is outstanding, with whether
it is of the reserve. -/
def heldEntries (s : State) (die core : Nat) : List (Nat × Nat × Bool) :=
  let mk := fun (d c parent : Nat) (mse res : List Nat) =>
    if d = die ∧ c = core then mse.map fun ln => (parent, ln, res.contains ln) else []
  ((s.accs.flatMap fun a => mk a.die a.core a.parent a.mse a.reserve) ++ (s.stores.flatMap fun a => mk a.die a.core a.parent a.mse a.reserve) ++
    s.flits.flatMap fun a => mk a.die a.core a.parent a.mse a.reserve).eraseDups

/-- Entries of the general pool and of the reserve that a core has free. -/
def freeEntries (s : State) (die core : Nat) : Nat × Nat :=
  let h := heldEntries s die core
  let res := (h.filter fun e => e.2.2).length
  (Config.mseGeneral - (h.length - res), Config.mseReserve - res)

/-- Has the core an entry of the general pool free, for a transfer that the device makes for a group (R63)? -/
def entryFree (s : State) (die core : Nat) : Bool := decide (0 < (freeEntries s die core).1)

/-- The lanes that find entries, in ascending order, with the lines that each has an entry for and those of them in the reserve; the
others are rejected. `held` are the lines that the instruction holds already. A lane whose element crosses into a line that finds no
entry takes none, and a later lane may then take what is left (DESIGN CHOICE, log entry 59). -/
def grantEntries (lines : Nat → List Nat) (held : List (Nat × Bool)) (gen res : Nat) :
    List (Nat × List Nat) → List (Nat × List Nat × List Nat × List Nat) × Mask
  | [] => ([], 0#96)
  | (l, ks) :: r =>
    let has := fun x => held.any fun h => h.1 = x
    let want := (lines l).filter fun x => !has x
    if want.length ≤ gen + res then
      let fromGen := min want.length gen
      let new := want.zipIdx.map fun x => (x.1, decide (fromGen ≤ x.2))
      let all := held ++ new
      let (ok, no) := grantEntries lines all (gen - fromGen) (res - (want.length - fromGen)) r
      ((l, ks, lines l, (lines l).filter fun x => all.any fun h => h.1 = x && h.2) :: ok, no)
    else
      let (ok, no) := grantEntries lines held gen res r
      (ok, no ||| oneLane l)

/-- A memory word that waits with rejected lanes, or an ordered atomic that its slice has rejected: its place in the order in which the
reserve is given (R64, R74). -/
structure Claimant where
  quad : Nat
  age : Nat
  id : Nat
  deriving DecidableEq, Repr

/-- A slot whose memory word waits for entries. -/
def Slot.claimant (sl : Slot) (quad : Nat) : Option Claimant :=
  match sl.wait, sl.req with
  | .pending, some r | .ringPush _, some r | .ringPop _, some r | .futWait, some r =>
    if 8 ≤ sl.age then some ⟨quad, sl.age, r.id⟩ else none
  | _, _ => none

/-- The eligible instructions of a core that can try again. -/
def claimants (s : State) (die core : Nat) : List Claimant :=
  ((s.groups.filter fun p => p.2.die = die && p.2.core = core && !p.2.frozen).flatMap fun p =>
    [p.2.s0, p.2.s1].filterMap fun sl => sl.claimant p.2.quad) ++
  (s.accs.filter fun a => a.die = die && a.core = core && a.rejected && decide (8 ≤ a.age)).map fun a =>
    ⟨match s.group? a.gid with | some g => g.quad | none => 0, a.age, a.parent⟩

/-- Within a quadrant the oldest comes first; between quadrants the highest age, and then the lower quadrant. -/
def Claimant.before (a b : Claimant) : Bool :=
  if a.age ≠ b.age then decide (b.age < a.age)
  else if a.quad ≠ b.quad then decide (a.quad < b.quad)
  else decide (a.id < b.id)

/-- May the claimant draw on the core's reserve (R64)? Its age is 8 or more, and no other instruction of the core comes before it. -/
def drawsReserve (s : State) (die core : Nat) (me : Claimant) : Bool :=
  decide (8 ≤ me.age) && (claimants s die core).all fun c => c.id = me.id || !c.before me

def mayReserve (s : State) (s1 : Bool) (g : Group) (r : MemReq) : Bool := drawsReserve s g.die g.core ⟨g.quad, (g.slot s1).age, r.id⟩

/-- The lanes of a word that find entries now, with what they hold, and the lanes that are rejected (R63, R64). `ks` are the lanes' keys. -/
def askEntries (s : State) (s1 : Bool) (g : Group) (r : MemReq) (ks : List (Nat × List Nat)) :
    List (Nat × List Nat × List Nat × List Nat) × Mask :=
  let lines := fun l => match ks.find? fun p => p.1 = l with
    | some p => entryLines s g.die g.core r.space p.2
    | none => []
  let fr := freeEntries s g.die g.core
  let mine := ((heldEntries s g.die g.core).filter fun e => e.1 = r.id).map Prod.snd
  grantEntries lines mine fr.1 (if mayReserve s s1 g r then fr.2 else 0) ks

/-- The word's slot waits with rejected lanes, one cycle older (R64). -/
def waitEntries (s : State) (gid : Nat) (s1 : Bool) (wait : SlotWait) (r : MemReq) (todo : Mask) : State :=
  s.modSlot gid s1 fun sl => { sl with wait := wait, unfinished := todo, age := min 15 (sl.age + 1), req := some r }

/-! ### Late results (R133) -/

/-- A write that was issued in or outside trap mode reaches the registers that its names reached then. -/
def Group.inBank (g : Group) (trap : Bool) (f : Group → Group) : Group :=
  if g.trapMode = trap then f g
  else
    match g.frame with
    | some fr =>
      let x := f { g.swapBanks with latches := fr.latches }
      { x.swapBanks with latches := g.latches, frame := some { fr with latches := x.latches } }
    | none => { (f g.swapBanks).swapBanks with latches := g.latches }

/-- A write takes its place in program order among the late results. -/
def Group.cutFor (g : Group) (x : Late) : Group :=
  let g :=
    match x.dst with
    | some (.slice st) => g.cutSlices x.lanes st.toNat (wBits x.w / 4)
    | some (.ureg k) => g.cutK k.toNat (wBits x.w)
    | none => g
  match x.latch with | some b => g.cutLatch x.lanes b.toNat | none => g

/-- What an element's access in flight, or the accesses of its pieces, will write joins the late results. -/
def Group.expect (g : Group) (xs : List Late) : Group :=
  let g := match xs with | x :: _ => g.cutFor x | [] => g
  { g with late := g.late ++ xs.filter fun x => x.dst.isSome || x.latch.isSome }

/-- The bits of a value that still land, in one part of a late result. -/
def Group.land {n : Nat} (g : Group) (v : BitVec n) (x : Late) : Group :=
  g.inBank x.trap fun g =>
    let mix := fun old : BitVec n => (old &&& ~~~(x.bits.setWidth n)) ||| (v &&& x.bits.setWidth n)
    let g :=
      match x.dst with
      | some (.slice st) => g.slicePut x.lanes st.toNat fun l => mix (g.sliceRead l st.toNat n)
      | some (.ureg k) => g.kput x.s1 k.toNat (mix (g.kread (g.slot x.s1) k.toNat n))
      | none => g
    match x.latch with
    | some b => g.latchPut x.lanes b.toNat x.w fun l =>
        (g.latchRead l b 64 &&& ~~~x.part) ||| (v.setWidth 64 &&& x.part)
    | none => g

/-- A value that a word of a slot, issued in or outside trap mode, has received goes to its lane's destination and latch. -/
def Group.receiveIn {n : Nat} (g : Group) (s1 trap : Bool) (r : MemReq) (lane : Nat) (v : BitVec n) : Group :=
  let dst := match r.dst with
    | some (.ureg k) => if lowest? r.issued = some (Fin.ofNat 96 lane) then some (.ureg k) else none
    | d => d
  let x : Late := { acc := 0, s1 := s1, lanes := oneLane lane, dst := dst, bits := BitVec.allOnes 64, part := BitVec.allOnes 64, latch := r.latch, w := r.w,
                    trap := trap }
  (g.cutFor x).land v x

def Group.receive {n : Nat} (g : Group) (s1 : Bool) (r : MemReq) (lane : Nat) (v : BitVec n) : Group := g.receiveIn s1 g.trapMode r lane v

/-- A loaded value goes to its lanes' destination and latch (R18, R70). -/
def Group.deliver {n : Nat} (g : Group) (acc : Nat) (v : BitVec n) : Group :=
  (g.late.filter fun x => x.acc = acc).foldl (fun g x => g.land v x) { g with late := g.late.filter fun x => x.acc ≠ acc }

/-! ### What a lane reads (R88, R90, R106) -/

/-- The latest of the agent's own stores to a byte that has not reached its home. -/
def ownStore (s : State) (gid : Nat) (agents : Mask) (before k : Nat) : Option Byte :=
  s.stores.foldl (fun b r =>
    if r.gid = gid && r.agents &&& agents ≠ 0#96 && decide (r.parent < before) then
      match (r.keys.zip r.bytes).find? fun p => p.1 = k with | some p => some p.2 | none => b
    else b) none

/-- Has the agent itself a store to the byte that other dies do not read yet? -/
def ownHeld (s : State) (gid : Nat) (agents : Mask) (k : Nat) : Bool :=
  s.held.any fun h => h.w.gid = gid && h.w.agents &&& agents ≠ 0#96 && (tget h.old k).isSome

/-- A held store of the agent's own. -/
def Held.ofAgent (gid : Nat) (agents : Mask) (h : Held) : Bool := h.w.gid = gid && h.w.agents &&& agents ≠ 0#96

/-- The byte that an agent of a die reads at its home: its own store at once, another's as R106 says. -/
def agentByte (s : State) (gid : Nat) (agents : Mask) (die k : Nat) : Byte :=
  if ownHeld s gid agents k then viewByte s (Held.ofAgent gid agents) die k else homeByteFrom s die k

/-- The byte that lanes of a group find by way of the caches, once their earlier stores have reached their homes: the L1's where it holds
the byte, for it has the core's own stores (R58). -/
def groupByte (s : State) (gid : Nat) (agents : Mask) (die core : Nat) (sp : Space) (pol : BitVec 2) (k : Nat) : Byte :=
  if !isGlobal k || (usesL1 s die core sp pol && l1Holds s die core k) then hierByte s die core sp pol k
  else viewByte s (Held.ofAgent gid agents) die k

def readKey (s : State) (a : Acc) (k : Nat) : Byte :=
  match tget a.got k with
  | some v => v
  | none => (ownStore s a.gid a.agents a.parent k).getD (groupByte s a.gid a.agents a.die a.core a.space a.pol k)

/-! ### Atomics (R72) -/

def atomFormat (op : BitVec 6) : Format := if op = 0x11#6 then .f64 else .f32

/-- .fadd of R72. -/
def atomFadd (f : Format) (x y : Nat) : Nat := rneTo f (fAdd .rne (decodeF f x) (decodeF f y)).1

/-- The new value of a location; `b2` is B_new of .cas. -/
def atomNew {w : Nat} (op : BitVec 6) (old b b2 : BitVec w) : BitVec w :=
  match op.toNat with
  | 0x00 => b
  | 0x01 => old + b
  | 0x02 => if old.toInt ≤ b.toInt then old else b
  | 0x03 => if old ≤ b then old else b
  | 0x04 => if b.toInt ≤ old.toInt then old else b
  | 0x05 => if b ≤ old then old else b
  | 0x06 => old &&& b
  | 0x07 => old ||| b
  | 0x08 => old ^^^ b
  | 0x09 => if old = b then b2 else old
  | 0x0A => if b ≤ old then 0#w else old + 1#w
  | 0x0B => if old = 0#w ∨ b < old then b else old - 1#w
  | _ => BitVec.ofNat w (atomFadd (atomFormat op) old.toNat b.toNat)

/-- Whose an access is, and a store. -/
def Acc.writer (a : Acc) : Writer :=
  { id := a.id, gid := a.gid, agents := a.agents, eng := none, cls := a.op.classes, die := a.die, core := a.core, tenant := a.tenant,
    pol := a.pol }

def StoreRec.writer (r : StoreRec) : Writer :=
  { id := r.id, gid := r.gid, agents := r.agents, eng := none, cls := 4#4, die := r.die, core := r.core, tenant := r.tenant, pol := r.pol }

/-- An atomic applied at its home: the old value, and the state after. Any copy of the line in the issuing core's L1 is dropped, its
lane-private sectors having gone home (R58). -/
def applyAtom (s : State) (x : Writer) (op : BitVec 6) (w : BitVec 3) (ks : List Nat) (b b2 : BitVec 64) : BitVec 64 × State :=
  let n := wBits w
  let s := l1Drops s x.die x.core ks
  let s := noteRead s ((homeDie (ks.headD 0)).getD Config.dies) x.core x.gid x.agents x.cls ks
  let old : BitVec n := ofBytes (ks.map (homeByte s)) n
  let new := atomNew op old (b.setWidth n) (b2.setWidth n)
  (old.setWidth 64, storeBy s x ks (toBytes new (elemSize w)))

/-! ### The Garnet digest (R294) -/

def digestFoldWord (d : BitVec 128) (w : Word32) : BitVec 128 :=
  let x := (d.extractLsb' 0 32, d.extractLsb' 32 32 ^^^ w, d.extractLsb' 64 32, d.extractLsb' 96 32)
  let y := agateRound 1 (agateRound 0 x)
  y.2.2.2 ++ y.2.2.1 ++ y.2.1 ++ y.1

/-- The five words of one access. -/
def digestAccess (d : BitVec 128) (ea : Addr) (sp : Space) (w : BitVec 3) (v : BitVec 64) : BitVec 128 :=
  [ea.extractLsb' 0 32, ea.extractLsb' 32 32,
   BitVec.ofNat 32 ((ea.extractLsb' 64 16).toNat + 2 ^ 16 * sp.code + 2 ^ 19 * w.toNat),
   v.extractLsb' 0 32, v.extractLsb' 32 32].foldl digestFoldWord d

/-- The digest of an index that has done nothing. -/
def digestStart (i : BitVec 128) : BitVec 128 :=
  let w := fun n : Nat => i.extractLsb' (32 * n) 32
  (w 0 ^^^ 0x243F6A88#32) ++ w 1 ++ w 2 ++ (w 3 ^^^ 0x9E3779B9#32)

/-- Operations that fold into the digest. -/
def MemOp.digests : MemOp → Bool
  | .store | .atomic _ | .ordered _ | .ringPush => true
  | _ => false

/-! ### Completion of an instruction (R19, R85) -/

/-- Does an access of the instruction remain? -/
def State.reqOpen (s : State) (id : Nat) : Bool :=
  (s.accs.any fun a => a.parent = id) || (s.stores.any fun r => r.parent = id) || (s.flits.any fun x => x.parent = id) ||
    s.groups.any fun p =>
      let of := fun sl : Slot => match sl.req with | some r => decide (r.id = id) | none => false
      of p.2.s0 || of p.2.s1 || (match p.2.frame with | some fr => of fr.s0 || of fr.s1 | none => false)

/-- The counter falls when the last access of the instruction has completed. -/
def State.reqDone (s : State) (gid : Nat) (ctr : BitVec 2) (id : Nat) : State :=
  if ctr = 0#2 || s.reqOpen id then s else s.ctrDown gid ctr

/-! ### Fences (R92 to R107) -/

/-- Has what goes by a number performed at a scope, for the agents of a die (R95)? A store at its home has, for the agents of the home
die; for those of another, which may hold a leased copy, and at .mod and .sys, once it is held back no longer (R106); one to another
module once it is acknowledged (R109). An engine operation has once it has completed and its stores have performed. -/
def performed (s : State) (die scope n : Nat) : Bool :=
  !(s.accs.any fun a => a.id = n) && !(s.stores.any fun r => r.id = n) && !(s.flits.any fun x => x.id = n || x.eng = some n) &&
    !(s.copies.any fun c => c.id = n) && !(s.progs.any fun p => p.1 = n && !p.2.ended) &&
    !(s.held.any fun h => (h.w.id = n || h.w.eng = some n) && (decide (4 ≤ scope) || h.die ≠ die))

/-- A fence of scope .clu or wider with r or a in its successor set drops the L1's shared lines (R101, R107). -/
def fenceDrops (scope : BitVec 3) (succ : BitVec 4) : Bool := decide (2 ≤ scope.toNat) && succ &&& 10#4 ≠ 0#4

/-- Have these performed at the fence's scope? -/
def fenceMet (s : State) (f : FenceRec) (ids : List Nat) : Bool :=
  ids.all (performed s (match s.group? f.gid with | some g => g.die | none => 0) f.scope.toNat)

/-- The slot that has waited for a fence goes on. -/
def FenceRec.release (f : FenceRec) (s : State) : State :=
  match f.ends with
  | none => s
  | some w => s.modGroup f.gid fun g => g.modSlotIn w.1 w.2 fun sl => if sl.wait = .written f.id then sl.advance false else sl

/-- A fence's counter falls once its predecessor set has performed; it is over, and its successors go on, once what else they wait for
has too. -/
def settleFence (s : State) (f : FenceRec) : State :=
  if !fenceMet s f f.waits then s
  else
    let s : State := if f.counted then s else
      State.ctrDown { s with fences := s.fences.map fun (x : FenceRec) => if x.id = f.id then { x with counted := true } else x } f.gid f.ctr
    if !fenceMet s f f.more then s
    else
      let s := f.release { s with fences := s.fences.filter fun x => x.id ≠ f.id }
      match s.group? f.gid with
      | some g => if fenceDrops f.scope f.succ then l1Invalidate s g.die g.core else s
      | none => s

/-! ### What a task follows (R310) -/

/-- Do accesses of these lanes wait for those before their tasks' spawns? -/
def heldBack (s : State) (gid : Nat) (m : Mask) : Bool := s.followers.any fun a => a.gid = gid && a.lanes &&& m ≠ 0#96

/-- Have the agents' accesses up to a number performed at a scope, as a release asks (R81, R83, R84, R310), with the stores of third agents
that they have read (R97), and with what the agents' tasks follow? -/
def released (s : State) (gid die : Nat) (agents : Mask) (scope last : Nat) : Bool :=
  let mine := fun (x : Nat) (m : Mask) (n : Nat) => x = gid && m &&& agents ≠ 0#96 && decide (n ≤ last)
  !(s.stores.any fun r => mine r.gid r.agents r.parent) && !(s.accs.any fun a => mine a.gid a.agents a.parent) &&
  !(s.flits.any fun f => mine f.gid f.agents f.parent) &&
  !(s.held.any fun h => (mine h.w.gid h.w.agents h.w.id || h.readers.any fun x => mine x.1 x.2.1 0) && (decide (4 ≤ scope) || h.die ≠ die)) &&
  !heldBack s gid agents

/-- What a task spawned now by these lanes must follow. -/
def priorOf (s : State) (gid die : Nat) (lanes : Mask) : Option Prior :=
  if released s gid die lanes 4 s.seqNo then none else some { gid := gid, die := die, lanes := lanes, last := s.seqNo - 1 }

/-- What a task follows has performed: its lane goes on, as an acquire at .mod scope does. -/
def settleFollower (s : State) (a : Follower) : State :=
  if !released s a.prior.gid a.prior.die a.prior.lanes 4 a.prior.last then s
  else
    let s := { s with followers := s.followers.filter fun x => x ≠ a }
    match s.group? a.gid with
    | some g => l1Invalidate s g.die g.core
    | none => s

/-- Every fence goes as far as it can, and so does every task that waits for what came before its spawn. -/
def settleFences (s : State) : State :=
  let s := s.fences.foldl settleFence s
  s.followers.foldl settleFollower s

/-! ### Issue (R52, R63 to R67) -/

/-- The digests of the lanes that proceed, kept in a deterministic-mode grid (R294, R312). -/
def Group.noteAccess (g : Group) (r : MemReq) (m : Mask) : Group :=
  if g.det && r.op.digests then
    { g with digest := setLanes g.digest m fun l => digestAccess g.digest[l] r.ea[l] r.space r.w r.data[l] }
  else g

/-- Bytes that a spill writes in one lane: the slices in nibbles, the unused nibble kept (R80). -/
def spillBytes (v : SliceFile) (n : Nat) (old : List Byte) : List Byte :=
  natBytes (natOfBytes old / 2 ^ (4 * n) * 2 ^ (4 * n) + v.toNat % 2 ^ (4 * n)) ((n + 1) / 2)

/-- The single-copy atomic pieces of an element, each with its first byte (R66): the element where its width and address allow it, else
the aligned halves of a 48-bit one, else bytes. -/
def pieces (w : BitVec 3) (ea : Addr) (ks : List Nat) : List (Nat × List Nat) :=
  if w ≠ 4#3 ∧ w ≠ 6#3 ∧ ea.toNat % elemSize w = 0 then [(0, ks)]
  else if w = 6#3 ∧ ea.toNat % 2 = 0 then (List.range 3).map fun i => (2 * i, (ks.drop (2 * i)).take 2)
  else ks.zipIdx.map fun p => (p.2, [p.1])

/-- The bits of an element that a piece holds; the last one's reach to the top, for a latch is zero there (R18). -/
def pieceBits (w : BitVec 3) (p : Nat × List Nat) : BitVec 64 :=
  if p.1 + p.2.length = elemSize w then BitVec.allOnes 64 <<< (8 * p.1)
  else (BitVec.allOnes 64 >>> (64 - 8 * p.2.length)) <<< (8 * p.1)

/-- One maker's access, once it has its translation and entries. -/
def issueOne (s : State) (gid : Nat) (s1 : Bool) (r : MemReq) (todo : Mask) (x : Nat × List Nat × List Nat × List Nat) : State :=
  match s.group? gid with
  | none => s
  | some g =>
    let (l, ks, mse, res) := x
    let lane : Lane := Fin.ofNat 96 l
    let stands := r.stands todo l
    let agents := if r.once.isSome then r.agents else stands
    let ps := match r.op with | .load | .store => pieces r.w r.ea[lane] ks | _ => [(0, ks)]
    let first := s.seqNo
    let s' := { s with seqNo := s.seqNo + ps.length }
    match r.op with
    | .store =>
      { s' with stores := s.stores ++ ps.zipIdx.map fun p =>
          ({ id := first + p.2, parent := r.id, gid := gid, agents := agents, die := g.die, core := g.core, tenant := g.tenant,
             space := r.space, pol := r.pol, keys := p.1.2, bytes := toBytes (r.data[lane] >>> (8 * p.1.1)) p.1.2.length, s1 := s1,
             trap := g.trapMode, va := r.ea[lane], ctr := r.ctr, mse := mse, reserve := res } : StoreRec) }
    | .spill _ n =>
      let old := ks.map (groupByte s gid agents g.die g.core .lp 0#2)
      lpPuts s' (g.deviceWriter gid agents) ks (spillBytes r.wide[lane] n old)
    | .fill first n =>
      let s := ks.foldl (fun s k => fetchFor s g.die g.core g.tenant .lp 0#2 k) s'
      let v := natOfBytes (ks.map (groupByte s gid agents g.die g.core .lp 0#2))
      s.modGroup gid fun g => g.sliceWrite stands first fun _ => BitVec.ofNat (4 * n) v
    | _ =>
      let dst := match r.dst with
        | some (.ureg k) => if r.once.isSome || decide (lowest? r.issued = some lane) then some (.ureg k) else none
        | d => d
      let s := s'.setGroup gid (g.expect (ps.zipIdx.map fun p =>
        { acc := first + p.2, s1 := s1, lanes := stands, dst := dst, bits := pieceBits r.w p.1, part := pieceBits r.w p.1,
          latch := r.latch, w := r.w, trap := g.trapMode }))
      { s with accs := s.accs ++ ps.zipIdx.map fun p =>
          ({ id := first + p.2, parent := r.id, gid := gid, agents := agents, die := g.die, core := g.core, tenant := g.tenant, op := r.op,
             space := r.space, w := r.w, pol := r.pol, keys := p.1.2, off := 8 * p.1.1, data := r.data[lane], data2 := r.data2[lane],
             ctr := r.ctr, mse := mse, reserve := res, got := r.seen.filter fun x => p.1.2.contains x.1, admitted := false,
             inReserve := false, rejected := false, age := 0, idx := g.lidx[lane], grid := g.grid, s1 := s1, trap := g.trapMode, va := r.ea[lane] } : Acc) }

/-- Bytes that lanes of the instruction stored before, and that a lower lane performed later leaves as they are (R68). -/
def storedBefore (s : State) (g : Group) (r : MemReq) (todo : Mask) (lane : Nat) : List Nat :=
  let above := r.issued &&& ~~~todo &&& maskOf fun l => decide (lane < l.val)
  if above = 0#96 || r.once.isSome then []
  else (xlateLanes s g r.space r.op.kind r.ea r.bytes (lanesOf above)).2.keys.flatMap Prod.snd

/-- A store that is made after its instruction was split keeps its bytes off those that higher lanes have stored. -/
def keepBelow (s : State) (g : Group) (r : MemReq) (todo : Mask) (first : Nat) : State :=
  if r.op = .store ∧ todo ≠ r.issued then
    { s with stores := s.stores.map fun x =>
        if first ≤ x.id ∧ x.parent = r.id then
          let gone := storedBefore s g r todo ((lowest? x.agents).getD 0).val
          let kv := (x.keys.zip x.bytes).filter fun p => !gone.contains p.1
          { x with keys := kv.map Prod.fst, bytes := kv.map Prod.snd }
        else x }
  else s

/-- The lanes of `todo` are translated, take their entries and issue; lanes that fault park the slot, and rejected lanes
stay pending (R52, R64). The age stays where the reserve has served the word in part. -/
def memIssue (s : State) (gid : Nat) (s1 : Bool) (r : MemReq) (todo : Mask) : State :=
  match s.group? gid with
  | none => s
  | some g =>
    let (s, x) := xlateLanes s g r.space r.op.kind r.ea r.bytes (lanesOf (r.makers todo))
    let mine := ((heldEntries s g.die g.core).filter fun e => e.1 = r.id).map Prod.snd
    let (ok, no) := askEntries s s1 g r x.keys
    let full := fun m : Mask => if m ≠ 0#96 && r.once.isSome then todo else m
    let okMask := ok.foldl (fun m p => m ||| r.stands todo p.1) 0#96
    let s := s.modGroup gid fun g => g.noteAccess r (if r.once.isSome then okMask &&& r.makers todo else okMask)
    let first := s.seqNo
    let s := keepBelow (ok.foldl (fun s p => issueOne s gid s1 r todo p) s) g r todo first
    let left := full x.faulted ||| full no
    let drew := ok.any fun p => p.2.2.2.any fun ln => !mine.any fun e => e.1 = ln
    let older := fun sl : Slot => if no = 0#96 ∨ drew then sl.age else min 15 (sl.age + 1)
    match x.first with
    | some (va, c) =>
      let s := parkSlot s gid s1 va c (kindByte r.op.kind) (full x.faulted)
      s.modSlot gid s1 fun sl => { sl with req := some r, unfinished := left, age := older sl }
    | none =>
      if left = 0#96 then
        let s := s.modSlot gid s1 fun sl => sl.advance r.res
        s.reqDone gid r.ctr r.id
      else
        s.modSlot gid s1 fun sl => { sl with wait := .pending, unfinished := left, age := older sl, req := some r }

end Sys2Proof.Machine
end

