-- ==== Sys2Proof/Machine/Uses.lean ====
section
/-! DEFINITION. What a word reads and writes by name, and the interlocks between words (R122, R125, R133). -/

namespace Sys2Proof.Machine

/-- Slices, uniform registers and latches. -/
structure Uses where
  slices : List (Nat × Nat)
  uregs : List (Nat × Nat)
  latches : List Nat

def Uses.join (a b : Uses) : Uses := ⟨a.slices ++ b.slices, a.uregs ++ b.uregs, a.latches ++ b.latches⟩

def srcUses (p : Src × Nat) : Uses :=
  match p.1 with
  | .slice st => ⟨[(st.toNat, slicesOf p.2)], [], []⟩
  | .ureg k => ⟨[], [(k.toNat, (p.2 + 31) / 32)], []⟩
  | .latch n => ⟨[], [], [n.toNat]⟩
  | _ => ⟨[], [], []⟩

def dstUses (d : Dst × Nat) : Uses :=
  match d.1 with
  | .slice st => ⟨[(st.toNat, slicesOf d.2)], [], []⟩
  | .ureg k => ⟨[], [(k.toNat, (d.2 + 31) / 32)], []⟩

/-- The number under which a banked register is counted that names do not reach now (R133). -/
def otherBank (n : Nat) : Nat := 1000 + n

/-- Registers that a word reaches beside its operand fields. -/
def extraUses : Instr → Uses
  | .forkMx _ _ _ b n | .forkCp _ _ _ b n | .forkCl _ _ _ b n => ⟨[], [(b.toNat, 3 * n.toNat)], []⟩
  | .spawnUniform _ _ b => ⟨[], [(b.toNat, 8)], []⟩
  | .stepWait _ => ⟨[], [(8, 8)], []⟩
  | .rttSub _ a => srcUses (a, 80)
  | .rdsr _ _ n | .wrsr _ n _ =>
    if 0x044 ≤ n.toNat ∧ n.toNat ≤ 0x047 then ⟨[(otherBank 480, 32)], [], []⟩
    else if 0x048 ≤ n.toNat ∧ n.toNat ≤ 0x04F then ⟨[], [(otherBank 144, 8)], []⟩
    else ⟨[], [], []⟩
  | _ => ⟨[], [], []⟩

/-- Everything that a word reads by name: lop3 reads its destination too (R158). -/
def wordReads (i : Instr) (sh : Shape) : Uses :=
  let srcs := sh.srcs.foldl (fun u p => u.join (srcUses p)) (extraUses i)
  let srcs := srcs.join ⟨sh.ranges.map fun r => (r.1.toNat, r.2), [], []⟩
  match i, sh.dst with
  | .lop3 _ _ _ _ _, some d => srcs.join (dstUses d)
  | _, _ => srcs

/-- Everything that a word reads or writes by name. -/
def wordUses (i : Instr) (sh : Shape) (latch : Nat) : Uses :=
  let srcs := wordReads i sh
  let dst := match sh.dst with | some d => if sh.head.sup then ⟨[], [], []⟩ else dstUses d | none => ⟨[], [], []⟩
  (srcs.join dst).join ⟨[], [], if sh.res && !sh.head.uni then [latch] else []⟩

def rangesMeet (a b : List (Nat × Nat)) : Bool := a.any fun x => b.any fun y => meets x.1 x.2 y.1 y.2

def Uses.meets (a b : Uses) : Bool :=
  rangesMeet a.slices b.slices || rangesMeet a.uregs b.uregs || a.latches.any fun n => b.latches.contains n

/-- The number under which a register between `lo` and `hi` is counted for a word of this or of the other mode. -/
def bankPlace (same : Bool) (lo hi n : Nat) : Nat := if !same && decide (lo ≤ n ∧ n < hi) then otherBank n else n

/-- Registers named in the other mode, under the numbers that they have in this one; its latches are others (R133, R280). -/
def Uses.inBank (same : Bool) (u : Uses) : Uses :=
  let each := fun (lo hi : Nat) (l : List (Nat × Nat)) => l.flatMap fun r => (upFrom r.1 r.2).map fun n => (bankPlace same lo hi n, 1)
  if same then u else ⟨each 480 512 u.slices, each 144 152 u.uregs, []⟩

/-- What a part of a late result will still write: one issued on the other side of a trap writes the banked registers that names do not
reach now (R133). -/
def lateUses (same : Bool) (x : Late) : Uses :=
  let place := bankPlace same
  Uses.join (match x.dst with
   | some (.slice st) =>
     ⟨((List.range (slicesOf (wBits x.w))).filter fun i => x.bits.extractLsb' (4 * i) 4 ≠ 0#4).map fun i =>
       (place 480 512 (st.toNat + i), 1), [], []⟩
   | some (.ureg k) =>
     ⟨[], ((List.range ((wBits x.w + 31) / 32)).filter fun i => (x.bits.setWidth (wBits x.w)).extractLsb' (32 * i) 32 ≠ 0#32).map fun i =>
       (place 144 152 (k.toNat + i), 1), []⟩
   | none => ⟨[], [], []⟩)
    ⟨[], [], match x.latch with | some n => if same then [n.toNat] else [] | none => []⟩

/-- What a lazy instruction in flight, issued in this or in the other mode, will write. -/
def lazyUses (same : Bool) (o : LazyOp) : Uses :=
  let d := match (wordShape o.instr).bind Shape.dst with | some d => dstUses d | none => ⟨[], [], []⟩
  (d.join ⟨[((viewStart o.view).toNat, 64)], [], [o.latch.toNat]⟩).inBank same

/-- The faulting word of a trap frame, where it is a word with operands and was not an engine fault's. -/
def faultShape (g : Group) (fr : Frame) : Option Shape :=
  let sl := if fr.faultS1 then fr.s1 else fr.s0
  if sl.left = 0 || g.treg.cause.extractLsb' 0 8 = cEngineFault then none
  else
    match decode sl.cls g.treg.inst with
    | .ok i => wordShape i
    | .error _ => none

/-- What rtt.sub writes: the faulting word's destination, as it stood outside trap mode (R133, R176). -/
def subUses (g : Group) : Uses :=
  match (g.frame.bind fun fr => faultShape g fr) with
  | some sh => match sh.dst with | some d => if sh.head.sup then ⟨[], [], []⟩ else (dstUses d).inBank false | none => ⟨[], [], []⟩
  | none => ⟨[], [], []⟩

/-- A uniform register is one for the group, whichever lanes and slot write it (R125); a slice or latch is one for each lane. A late write
of k157 to k159 changes the lanes of every word that follows. -/
def usesClash (sameLanes : Bool) (late word : Uses) : Bool :=
  rangesMeet late.uregs word.uregs || (sameLanes && late.meets { word with uregs := [] }) ||
    late.uregs.any fun r => decide (157 < r.1 + r.2 ∧ r.1 < otherBank 0)

/-- The predicate that a lazy instruction in flight will write. -/
def lazyPred (o : LazyOp) : Option (BitVec 3) :=
  match (wordShape o.instr).bind Shape.pdst with | some (.p n) => some n | _ => none

/-- Does a word name a lane predicate: in its guards, as a selector, or as its destination? -/
def namesPred (i : Instr) (sh : Shape) (n : BitVec 3) : Bool :=
  (!sh.head.uni && (sh.head.ga.idx = n || sh.head.gb.idx = n)) || sh.pdst = some (.p n) ||
    (match i with | .sel _ _ _ _ p => p.idx = n | _ => false)

/-- The lanes whose registers a word reaches: shfl reads those of any lane (R165), and rtt.sub writes those of the trapped lanes. -/
def readLanes (sl : Slot) : Instr → Mask
  | .shfl _ _ _ _ _ | .rttSub _ _ => BitVec.allOnes 96
  | _ => sl.mask

/-- The word in which a slot waits after it has issued, and what it writes at its end; none where the slot waits for nothing, or before its
word issues. -/
def Slot.waitingWord (s : State) (g : Group) (sl : Slot) : Option Instr :=
  match sl.req with
  | some r => some r.instr
  | none =>
    let issued := match sl.wait with
      | .step | .acc _ | .feed | .tbld | .cpyCont _ _ => true
      | .other => sl.capt.isSome
      | _ => false
    if issued then (peekWord s g sl.pc).bind fun x => (decode sl.cls x).toOption else none

/-- Does a word meet one in which the other slot waits: it reads or writes what that will write, or writes what that has still to read
(R122, R125)? -/
def meetsWaiting (s : State) (g : Group) (other : Slot) (same : Bool) (i : Instr) (sh : Shape) : Bool :=
  match other.waitingWord s g with
  | none => false
  | some w =>
    match wordShape w with
    | none => false
    | some wsh =>
      let extra := match w with | .stepWait _ => extraUses w | _ => ⟨[], [], []⟩
      let writes := extra.join (match wsh.dst with | some d => if wsh.head.sup then ⟨[], [], []⟩ else dstUses d | none => ⟨[], [], []⟩)
      let reads := match other.wait with | .acc _ => wordReads w wsh | _ => ⟨[], [], []⟩
      let mine := match sh.dst with | some d => if sh.head.sup then ⟨[], [], []⟩ else dstUses d | none => ⟨[], [], []⟩
      usesClash same writes { wordUses i sh 0 with latches := [] } || usesClash false reads mine

/-- The interlock of R122: the word reads a register that an earlier load or atomic will still write, names one that an earlier lazy
instruction will write, or meets a word in which the other slot waits. -/
def interlocked (s : State) (gid : Nat) (s1 : Bool) (g : Group) (i : Instr) (sh : Shape) : Bool :=
  let sl := g.slot s1
  let r := wordReads i sh
  let sub := match i with | .rttSub _ _ => subUses g | _ => ⟨[], [], []⟩
  let u := (wordUses i sh sl.latchNo).join sub
  let same := fun m : Mask => decide (m &&& readLanes sl i ≠ 0#96)
  let names := fun n : BitVec 3 => namesPred i sh n || (match i, g.frame.bind (faultShape g) with
    | .rttSub _ _, some fsh => decide (fsh.pdst = some (.p n)) | _, _ => false)
  (g.late.any fun x => usesClash (same x.lanes) (lateUses (x.trap = g.trapMode) x) r) ||
    (s.lazies.any fun o => o.gid = gid &&
      (usesClash (same o.lanes) (lazyUses (o.trap = g.trapMode) o) u ||
        (same o.lanes && match lazyPred o with | some n => names n | none => false))) ||
    meetsWaiting s g (g.slot (!s1)) (same (g.slot (!s1)).mask) i sh

/-- Does the word in which a slot waits still reach slices at or above `lo` (R129)? -/
def wordAbove (s : State) (g : Group) (lo : Nat) (sl : Slot) : Bool :=
  match (sl.waitingWord s g).bind fun i => (wordShape i).map fun sh => wordUses i sh 0 with
  | some u => u.slices.any fun r => decide (lo < r.1 + r.2)
  | none => false

end Sys2Proof.Machine
end

