-- ==== Sys2Proof/Machine/Memory.lean ====
section
/-! DEFINITION. Loads, stores, atomics, fences, cache maintenance, spills and fills (R70 to R80), and the completion of
accesses. -/

namespace Sys2Proof.Machine

/-! ### From a word to its accesses -/

/-- disp × size (R65). -/
def dispOf {n : Nat} (disp : BitVec n) (size : Nat) : Addr := disp.signExtend 80 * BitVec.ofNat 80 size

/-- B as a signed 32-bit offset. -/
def offsetOf (s : State) (g : Group) (sl : Slot) (b : Src) (l : Lane) : Addr := (readSrc s g sl l b 32).signExtend 80

/-- The lanes for which a memory word acts: a uniform-class word acts for the lanes of R86. -/
def memLanes (sl : Slot) (h : Head) (m : Mask) : Mask := if h.uni then (if m = 0#96 then 0#96 else sl.uniMask) else m

/-- The operand that names a word's base, where it is not a uniform triple of a ring. -/
def baseSrc : Instr → Option Src
  | .ld _ _ a _ _ _ _ | .st _ a _ _ _ _ | .ldu _ _ a _ _ _ | .gth _ _ a _ _ _ _ | .sct _ _ a _ _ _ _ | .atom _ _ a _ _ _ _
  | .atomo _ _ a _ _ _ | .spill _ _ a _ _ _ | .fill _ _ a _ _ _ | .futFill _ a _ _ _ | .futWait _ _ a _ _ => some a
  | _ => none

/-- The captured operands of a word (R65). `once` is the lane that makes the one access of an ldu or a uniform word. -/
def mkReq (i : Instr) (s : State) (g : Group) (sl : Slot) (sh : Shape) (op : MemOp) (sp : Space) (pol : BitVec 2) (once : Bool) (m : Mask)
    (ea : Lane → Addr) (data data2 : Lane → BitVec 64) (wide : Lane → SliceFile) : MemReq :=
  let h := sh.head
  let one := once || h.uni
  { id := s.seqNo, instr := i, op := op, space := sp, w := h.w, pol := pol,
    dst := if h.sup then none else sh.dst.map Prod.fst,
    latch := if h.uni || !sh.res then none else some (BitVec.ofNat 3 sl.latchNo), res := sh.res,
    once := if one then some (if h.uni then sl.uniLane else (lowest? m).getD 0).val else none, ctr := h.ctr,
    base := Vector.ofFn fun l => match baseSrc i with | some a => readAddr s g sl (if once then (lowest? m).getD 0 else l) a | none => ea l,
    ea := Vector.ofFn ea, data := Vector.ofFn data, data2 := Vector.ofFn data2, wide := Vector.ofFn wide, issued := m,
    agents := if one then (if sl.mask = 0#96 then 1#96 else sl.mask) else m, ring := none, touched := false, seen := [], acked := false }

/-- The number of the instruction is taken and its counter rises. -/
def startReq (s : State) (gid : Nat) (r : MemReq) : State := s.nextId.2.ctrUp gid r.ctr

/-- The device's bytes in the lane-private memory of the lanes of `m`, translated; a lane that faults parks the group (R52). The record of
a fault on call frames or spawn counts is of kind 0 or 1, as the access itself is: the device spills and fills of kind 4 are those of R132
and R147 (DESIGN CHOICE, log entry 59). -/
def deviceKeys (s : State) (gid : Nat) (s1 : Bool) (g : Group) (k : AccessKind) (place : Lane → Addr) (n : Nat) (m : Mask) :
    State × List (Nat × List Nat) × Bool :=
  let (s, x) := xlateLanes s g .lp k (Vector.ofFn place) n (lanesOf m)
  match x.first with
  | some (va, c) => (parkGroup s gid s1 va c (kindByte k) x.faulted, x.keys, true)
  | none => (s, x.keys, false)

/-! ### Effect logs (R292) -/

/-- An entry of an effect log as the device lays it out in lane-private memory: the layout is no part of the manual, and what the
device replays is Group.effects (DESIGN CHOICE, log entry 64). -/
def Effect.bytes : Effect → List Byte
  | .atomic op w sp ea d d2 =>
    [1#8, op.setWidth 8, w.setWidth 8, BitVec.ofNat 8 sp.code] ++ toBytes ea 10 ++ toBytes d 8 ++ toBytes d2 8 ++ [0#8, 0#8]
  | .ordered op w ea d => [2#8, op.setWidth 8, w.setWidth 8, 4#8] ++ toBytes ea 10 ++ toBytes d 8 ++ List.replicate 10 0#8
  | .futFill sp ea d => [3#8, 0#8, 7#8, BitVec.ofNat 8 sp.code] ++ toBytes ea 10 ++ toBytes d 8 ++ List.replicate 10 0#8
  | .push sp ea w d => [4#8, 0#8, w.setWidth 8, BitVec.ofNat 8 sp.code] ++ toBytes ea 10 ++ toBytes d 8 ++ List.replicate 10 0#8
  | .spawn ea _ i => [5#8, 0#8, 0#8, 0#8] ++ toBytes ea 10 ++ toBytes i 16 ++ [0#8, 0#8]

/-- The lanes of a word, inside an open region, whose effects go to their logs: in deterministic mode, where the word has no
destination and the lane's log has room. -/
def loggedLanes (g : Group) (m : Mask) (returns : Bool) : Mask :=
  if g.region.isSome && g.det && !returns then m &&& maskOf fun l => decide (g.effects[l].length < 2048) else 0#96

/-- The effects of a word's lanes `m` inside an open region: `log` of them are appended to their lanes' logs, and the others perform at
once and mark the group escaped. A page fault on a log parks the group, and says so. -/
def regionEffect (s : State) (gid : Nat) (s1 : Bool) (g : Group) (m log : Mask) (e : Lane → Effect) : State × Group × Bool :=
  match g.region with
  | none => (s, g, false)
  | some rg =>
    let (s, ks, parked) := deviceKeys s gid s1 g .write (fun l => BitVec.ofNat 80 (0xFD0000 + 32 * g.effects[l].length)) 32 log
    if parked then (s, g, true)
    else
      let s := ks.foldl (fun s p => lpPuts s (g.deviceWriter gid (oneLane p.1)) p.2 (e (Fin.ofNat 96 p.1)).bytes) s
      let g := { g with effects := setLanes g.effects log fun l => g.effects[l] ++ [e l] }
      (s, if log = m then g else { g with region := some { rg with escaped := true } }, false)

/-- The old value of a logged effect does not exist yet: the latch holds a free value in its lanes. -/
def logLatch (s : State) (gid : Nat) (s1 : Bool) (sh : Shape) (log : Mask) (g : Group) : State :=
  let g := if sh.res && !sh.head.uni then
      g.latchWrite log (g.slot s1).latchNo sh.head.w fun l => Config.freeValue (s.fresh + l.val)
    else g
  { s.setGroup gid g with fresh := s.fresh + 96 }

/-- The start of an operation on memory whose effects may go to the lanes' logs: `perform` does the rest for the lanes that perform at
once. A logged atomic folds into its lane's digest where it stands in program order; a logged push has no slot yet, and does not (R294; log
entry 24). -/
def withRegion (s : State) (gid : Nat) (s1 : Bool) (g : Group) (sh : Shape) (r : MemReq) (e : Lane → Effect)
    (perform : State → MemReq → State) : Out :=
  let mk := r.makers r.issued
  let log := loggedLanes g mk (!sh.head.sup && sh.dst.isSome)
  match regionEffect s gid s1 g mk log e with
  | (s, _, true) => .next s
  | (s, g, false) =>
    let now := if r.once.isSome then (if log = 0#96 then r.issued else 0#96) else r.issued &&& ~~~log
    let g := if r.op = .ringPush then g else g.noteAccess r log
    let s := if log = 0#96 then s.setGroup gid g else logLatch s gid s1 sh log g
    if now = 0#96 then .next (s.modGroup gid fun g => g.done s1 sh)
    else
      let r := { r with issued := now, agents := if r.once.isSome then r.agents else r.agents &&& now }
      .next (perform (startReq s gid r) r)

/-- The slices that a spill stores, as it first issues (R65). -/
def spillData (g : Group) (op : MemOp) (l : Lane) : SliceFile :=
  match op with
  | .spill first n => (g.sliceRead l first (4 * n)).setWidth 2048
  | _ => 0#2048

/-- A word of the memory family: checks, then issue. `extra` is a further per-lane trap after those of R67. -/
def memWord (i : Instr) (s : State) (op : MemOp) (sp : Space) (pol : BitVec 2) (once : Bool) (align : Nat) (lock : Option Bool)
    (ea : State → Group → Slot → Mask → Lane → Addr) (data data2 : State → Group → Slot → Lane → BitVec 64)
    (extra : Group → Mask → Option (BitVec 8 × Mask)) (log : Option (MemReq → Lane → Effect)) : Out :=
  gate i s fun s gid s1 g sl sh =>
    let m := memLanes sl sh.head (execLanes g sl sh.head)
    if m = 0#96 then .next (s.setGroup gid (g.done s1 sh))
    else
      let r := mkReq i s g sl sh op sp pol once m (ea s g sl m) (data s g sl) (data2 s g sl) (spillData g op)
      match memTrap s g r r.bytes align lock m, extra g m with
      | some (c, t), _ => .next (trapWord s gid s1 i sh c 0#8 t true)
      | none, some (c, t) => .next (trapWord s gid s1 i sh c 0#8 t true)
      | none, none =>
        match log with
        | some e => withRegion s gid s1 g sh r (e r) fun s r => memIssue s gid s1 r r.issued
        | none => .next (memIssue (startReq (s.setGroup gid g) gid r) gid s1 r m)

def noData (_ : State) (_ : Group) (_ : Slot) (_ : Lane) : BitVec 64 := 0#64
def noExtra (_ : Group) (_ : Mask) : Option (BitVec 8 × Mask) := none

/-! ### Loads and stores (R70, R71) -/

def execLd (h : Head) (d : Dst) (a b : Src) (sp : BitVec 3) (pol : BitVec 2) (disp : BitVec 11) (s : State) : Out :=
  memWord (.ld h d a b sp pol disp) s .load (Space.ofCode sp) pol false 1 (some false)
    (fun s g sl _ l => readAddr s g sl l a + offsetOf s g sl b l + dispOf disp (elemSize h.w)) noData noData noExtra none

def execSt (h : Head) (a b : Src) (sp : BitVec 3) (pol : BitVec 2) (disp : BitVec 11) (s : State) : Out :=
  memWord (.st h a b sp pol disp) s .store (Space.ofCode sp) pol false 1 (some true)
    (fun s g sl _ l => readAddr s g sl l a + dispOf disp (elemSize h.w))
    (fun s g sl l => (readSrc s g sl l b (wBits h.w)).setWidth 64) noData noExtra none

/-- ldu: one access; a slice address is the lowest issued lane's (R71). -/
def execLdu (h : Head) (d : Dst) (a : Src) (sp : BitVec 3) (pol : BitVec 2) (disp : BitVec 6) (s : State) : Out :=
  memWord (.ldu h d a sp pol disp) s .load (Space.ofCode sp) pol true 1 (some false)
    (fun s g sl m _ => readAddr s g sl ((lowest? m).getD 0) a + dispOf disp (elemSize h.w)) noData noData noExtra none

def execGth (h : Head) (d : Dst) (a b : Src) (sp : BitVec 3) (pol : BitVec 2) (disp : BitVec 6) (s : State) : Out :=
  memWord (.gth h d a b sp pol disp) s .load (Space.ofCode sp) pol false 1 (some false)
    (fun s g sl _ l => readAddr s g sl l a + offsetOf s g sl b l * BitVec.ofNat 80 (elemSize h.w) + dispOf disp (elemSize h.w))
    noData noData noExtra none

def execSct (h : Head) (data : BitVec 9) (a b : Src) (sp : BitVec 3) (pol : BitVec 2) (disp : BitVec 6) (s : State) : Out :=
  memWord (.sct h data a b sp pol disp) s .store (Space.ofCode sp) pol false 1 (some true)
    (fun s g sl _ l => readAddr s g sl l a + offsetOf s g sl b l * BitVec.ofNat 80 (elemSize h.w) + dispOf disp (elemSize h.w))
    (fun _ g _ l => (g.sliceRead l data.toNat (wBits h.w)).setWidth 64) noData noExtra none

/-! ### Atomics (R72, R73) -/

/-- B_new of a .cas pair. -/
def casNew (s : State) (g : Group) (sl : Slot) (l : Lane) (b : Src) (w : Nat) : BitVec w :=
  match b with
  | .slice st => g.sliceRead l (st.toNat + w / 4) w
  | .ureg k => g.kread sl (k.toNat + w / 32) w
  | x => readSrc s g sl l x w

def execAtom (h : Head) (d : Dst) (a b : Src) (sp : BitVec 3) (pol : BitVec 2) (op : BitVec 6) (s : State) : Out :=
  memWord (.atom h d a b sp pol op) s (.atomic op) (Space.ofCode sp) pol false (elemSize h.w) (some true)
    (fun s g sl _ l => readAddr s g sl l a)
    (fun s g sl l => (readSrc s g sl l b (wBits h.w)).setWidth 64)
    (fun s g sl l => if op = 9#6 then (casNew s g sl l b (wBits h.w)).setWidth 64 else 0#64) noExtra
    (some fun r l => .atomic op h.w r.space r.ea[l] r.data[l] r.data2[l])

/-- The lanes whose index has retired (R73). -/
def finished (g : Group) (m : Mask) : Option (BitVec 8 × Mask) :=
  let t := m &&& g.retiredIdx
  if t = 0#96 then none else some (cOrderedAfterFinish, t)

def execAtomo (h : Head) (d : Dst) (a b : Src) (pol : BitVec 2) (op : BitVec 6) (s : State) : Out :=
  memWord (.atomo h d a b pol op) s (.ordered op) .g pol false (elemSize h.w) (some true)
    (fun s g sl _ l => readAddr s g sl l a)
    (fun s g sl l => (readSrc s g sl l b (wBits h.w)).setWidth 64) noData finished
    (some fun r l => .ordered op h.w r.ea[l] r.data[l])

/-! ### Fences (R75, R92 to R107) -/

/-- The predecessor set of a fence of lanes `m` (R75, R92): their accesses of the classes of P; the stores of third agents that
such accesses have read (R97); and with e in P the engine operations of the group, those that have ended with stores still held back
among them (R107, R112). Effects that stand in the lanes' effect log (R292) are not among them (log entry 25). -/
def fenceWaits (s : State) (gid : Nat) (m : Mask) (pred : BitVec 4) : List Nat :=
  let mine := fun (x : Nat) (k : Mask) (c : BitVec 4) => x = gid && k &&& m ≠ 0#96 && c &&& pred ≠ 0#4
  ((s.accs.filter fun a => mine a.gid a.agents a.op.classes).map Acc.id) ++
  ((s.stores.filter fun r => mine r.gid r.agents 4#4).map StoreRec.id) ++
  ((s.flits.filter fun x => x.eng.isNone && mine x.gid x.agents 4#4 && !s.accs.any fun a => a.id = x.id).map Flit.id) ++
  ((s.held.filter fun h => mine h.w.gid h.w.agents h.w.cls || h.readers.any fun x => mine x.1 x.2.1 x.2.2).map fun h => h.w.id) ++
  (if pred &&& 1#4 = 0#4 then [] else
    ((s.copies.filter fun c => c.pid.isNone && c.gid = gid).map CopyOp.id) ++
    ((s.progs.filter fun p => p.2.gid = gid && !p.2.ended).map Prod.fst) ++
    ((s.held.filter fun h => h.w.eng.isSome && h.w.gid = gid).map fun h => h.w.id) ++
    ((s.flits.filter fun x => x.eng.isSome && x.gid = gid).map Flit.id))

/-- What the successors of a fence of .clu and wider with w or a in P wait for beside its predecessor set: every store and atomic that any
group issued on the core before it (R102, R107). -/
def fenceMore (s : State) (g : Group) (pred : BitVec 4) (scope : BitVec 3) : List Nat :=
  let on := fun (d c : Nat) => d = g.die && c = g.core
  if scope.toNat < 2 || pred &&& 6#4 = 0#4 then []
  else
    ((s.accs.filter fun a => on a.die a.core && a.op.classes &&& 6#4 ≠ 0#4).map Acc.id) ++
    ((s.stores.filter fun r => on r.die r.core).map StoreRec.id) ++
    ((s.flits.filter fun x => x.eng.isNone && on x.die x.core).map Flit.id) ++
    ((s.held.filter fun h => h.w.eng.isNone && h.w.cls ≠ 0#4 && on h.w.die h.w.core).map fun h => h.w.id)

def execFence (h : Head) (pred succ : BitVec 4) (scope : BitVec 3) (s : State) : Out :=
  gate (.fence h pred succ scope) s fun s gid s1 g sl sh =>
    let m := memLanes sl h (execLanes g sl h)
    if m = 0#96 then .next (s.setGroup gid (g.done s1 sh))
    else
      let f : FenceRec := { id := s.seqNo, gid := gid, lanes := m, succ := succ, scope := scope,
                            waits := fenceWaits s gid m pred, more := fenceMore s g pred scope, counted := false, ctr := h.ctr, ends := none }
      let s := (s.setGroup gid (g.done s1 sh)).nextId.2.ctrUp gid h.ctr
      .next (settleFences { s with fences := s.fences ++ [f] })

/-! ### Prefetch and cache maintenance (R78, R79) -/

/-- The keys of the `n` bytes of one lane's element, with the translations that the word has made so far (R48); none where the lane is
dropped (R78, R79). -/
def softKeys (s : State) (g : Group) (sp : Space) (found : List TlbEntry) (lane : Nat) (ea : Addr) (n : Nat) :
    State × List TlbEntry × Option (List Nat) :=
  if !inSpace s none g.die g.grid sp ea n then (s, found, none)
  else
    match lanePages s g sp .read found lane ea n with
    | (s, found, .ok ks) => (s, found, some ks)
    | (s, found, .error _) => (s, found, none)

/-- The lanes whose elements translate, with their keys. -/
def softLanes (g : Group) (sp : Space) (n : Nat) (ea : Lane → Addr) : State → List TlbEntry → List Lane → State × List (Nat × List Nat)
  | s, _, [] => (s, [])
  | s, found, l :: r =>
    match softKeys s g sp found l.val (ea l) n with
    | (s, found, some ks) => let x := softLanes g sp n ea s found r; (x.1, (l.val, ks) :: x.2)
    | (s, found, none) => softLanes g sp n ea s found r

/-- A word that acts on the lines of its lanes and never traps. -/
def lineWord (i : Instr) (s : State) (sp : Space) (n : Nat) (a b : Src) (disp : BitVec 6) (act : State → Group → Nat → State) : Out :=
  gate i s fun s gid s1 g sl sh =>
    let m := execLanes g sl sh.head
    let x := softLanes g sp 1 (fun l => readAddr s g sl l a + offsetOf s g sl b l + dispOf disp n) s [] (lanesOf m)
    .next ((x.2.foldl (fun s p => act s g (p.2.headD 0)) x.1).setGroup gid (g.done s1 sh))

/-- The lanes that find entries of the general pool go on their way, and the others are dropped (R64, R78). A prefetch belongs to no
agent's order (R92). -/
def prefIssue (s : State) (gid : Nat) (g : Group) (sp : Space) (w : BitVec 3) (pol : BitVec 2) (ks : List (Nat × List Nat)) : State :=
  let lines := fun l => match ks.find? fun p => p.1 = l with | some p => entryLines s g.die g.core sp p.2 | none => []
  let ok := (grantEntries lines [] (freeEntries s g.die g.core).1 0 ks).1
  { s with seqNo := s.seqNo + 1 + ok.length,
           accs := s.accs ++ ok.zipIdx.map fun p =>
             ({ id := s.seqNo + 1 + p.2, parent := s.seqNo, gid := gid, agents := 0#96, die := g.die, core := g.core, tenant := g.tenant,
                op := .prefetch, space := sp, w := w, pol := pol, keys := p.1.2.1, off := 0, data := 0#64, data2 := 0#64, ctr := 0#2,
                mse := p.1.2.2.1, reserve := p.1.2.2.2, got := [], admitted := false, inReserve := false, rejected := false, age := 0,
                idx := 0#128, grid := g.grid, s1 := false, trap := g.trapMode, va := 0#80 } : Acc) }

def execPref (h : Head) (a b : Src) (sp : BitVec 3) (pol : BitVec 2) (disp : BitVec 6) (s : State) : Out :=
  gate (.pref h a b sp pol disp) s fun s gid s1 g sl sh =>
    let m := execLanes g sl sh.head
    let n := elemSize h.w
    let x := softLanes g (Space.ofCode sp) n (fun l => readAddr s g sl l a + offsetOf s g sl b l + dispOf disp n) s [] (lanesOf m)
    .next ((prefIssue x.1 gid g (Space.ofCode sp) h.w pol x.2).setGroup gid (g.done s1 sh))

/-- A prefetch fills the lines of its element (R78): L1 and L2, or L2 alone for .nol1 and .keep, which marks it. -/
def prefFill (s : State) (a : Acc) : State :=
  ((a.keys.map lineOf).eraseDups).foldl (fun s ln =>
    let k := ln * 128
    if a.pol = 2#2 ∨ a.pol = 3#2 then l2Read s a.die a.tenant a.pol k
    else (List.range 4).foldl (fun s i => fetchFor s a.die a.core a.tenant a.space a.pol (k + 32 * i)) s) s

def execCmntWb (h : Head) (a b : Src) (sp : BitVec 3) (disp : BitVec 6) (s : State) : Out :=
  lineWord (.cmntWb h a b sp disp) s (Space.ofCode sp) (elemSize h.w) a b disp
    fun s g k => l1WriteBack s g.die g.core (lineOf k)

def execCmntInv (h : Head) (a b : Src) (sp : BitVec 3) (disp : BitVec 6) (s : State) : Out :=
  lineWord (.cmntInv h a b sp disp) s (Space.ofCode sp) (elemSize h.w) a b disp
    fun s g k => l1Remove (l1WriteBack s g.die g.core (lineOf k)) g.die g.core (lineOf k)

def execCmntL2wb (h : Head) (a b : Src) (sp : BitVec 3) (disp : BitVec 6) (s : State) : Out :=
  lineWord (.cmntL2wb h a b sp disp) s (Space.ofCode sp) (elemSize h.w) a b disp fun s _ k => l2WriteBack s (lineOf k)

def execCmntL2inv (h : Head) (a b : Src) (sp : BitVec 3) (disp : BitVec 6) (s : State) : Out :=
  lineWord (.cmntL2inv h a b sp disp) s (Space.ofCode sp) (elemSize h.w) a b disp
    fun s _ k => l2Drop (l2WriteBack s (lineOf k)) (lineOf k)

/-! ### Spill and fill (R80) -/

def execSpill (h : Head) (n1 : BitVec 9) (a : Src) (f : BitVec 9) (pol : BitVec 2) (disp : BitVec 6) (s : State) : Out :=
  memWord (.spill h n1 a f pol disp) s (.spill f.toNat (n1.toNat + 1)) .lp pol false 1 none
    (fun s g sl _ l => readAddr s g sl l a + dispOf disp 4) noData noData noExtra none

def execFill (h : Head) (n1 : BitVec 9) (a : Src) (f : BitVec 9) (pol : BitVec 2) (disp : BitVec 6) (s : State) : Out :=
  memWord (.fill h n1 a f pol disp) s (.fill f.toNat (n1.toNat + 1)) .lp pol false 1 none
    (fun s g sl _ l => readAddr s g sl l a + dispOf disp 4) noData noData noExtra none

/-! ### Completions -/

def shareKey (a b : List Nat) : Bool := a.any fun k => b.contains k

/-- Do two accesses of one agent, or of one instruction, meet at a byte? -/
def samePlace (gid : Nat) (ag : Mask) (parent : Nat) (ks : List Nat) (gid' : Nat) (ag' : Mask) (parent' : Nat) (ks' : List Nat) :
    Bool :=
  gid = gid' && (ag &&& ag' ≠ 0#96 || parent = parent') && shareKey ks ks'

/-- The floor of a grid: the lowest index that has not retired (R73). -/
def State.floorOf (s : State) (grid : Nat) : Option (BitVec 128) := (tget s.grids grid).bind fun g => g.floor

/-- Does an access reach the host window (R47)? -/
def toHost (ks : List Nat) : Bool := ks.any fun k => isGlobal k && window k = 2

/-- Does it reach another module (R47)? -/
def isRemote (ks : List Nat) : Bool := ks.any fun k => isGlobal k && window k = 3

/-- The lanes of a load's instruction that have not taken their values: those in flight, and those that wait to issue. -/
def instrAgents (s : State) (a : Acc) : Mask :=
  let waiting := fun sl : Slot => match sl.req with | some r => if r.id = a.parent then r.issued else 0#96 | none => 0#96
  let slots := match s.group? a.gid with
    | some g => [g.s0, g.s1] ++ (match g.frame with | some fr => [fr.s0, fr.s1] | none => [])
    | none => []
  slots.foldl (fun m sl => m ||| waiting sl)
    ((s.accs.filter fun x => x.parent = a.parent).foldl (fun m x => m ||| x.agents) 0#96)

/-- May the value of a load be that of other lanes too: it is one access for several lanes, or other lanes of its instruction load some of
its bytes or have yet to issue (R68)? -/
def sharedLoad (s : State) (a : Acc) : Bool :=
  decide (a.agents &&& (a.agents - 1#96) ≠ 0#96) || (s.accs.any fun x => x.parent = a.parent && x.id ≠ a.id && shareKey x.keys a.keys) ||
    (instrAgents s a &&& ~~~(s.accs.filter fun x => x.parent = a.parent).foldl (fun m x => m ||| x.agents) 0#96) ≠ 0#96

/-- Has an agent of the lanes `ag` a store of its own to bytes of the load on its way, or held back from the load's die? What lanes share
is not read from such a store, for it is visible to its own agent alone (R90, R100, R106). -/
def storeUnderWay (s : State) (a : Acc) (ag : Mask) : Bool :=
  (s.stores.any fun r => decide (r.parent < a.parent) && samePlace a.gid ag a.parent a.keys r.gid r.agents r.parent r.keys) ||
    s.held.any fun h => h.w.gid = a.gid && h.w.agents &&& ag ≠ 0#96 && h.die ≠ a.die && a.keys.any fun k => (tget h.old k).isSome

/-- May an access take its value now? A load waits for the agent's earlier accesses to the same bytes (R88), and one whose value several
lanes share for their stores there too (R68); an atomic for every earlier load and atomic of the agent (R89), for its earlier stores to the
same bytes and, where both reach the host, to others (R108), and for lower lanes of its instruction at the same bytes (R68); an ordered
atomic also for its admission and for its index to be the floor (R73). A load or prefetch waits for its tokens too (R322). The accesses of a
task follow those before its spawn (R310). -/
def accDue (s : State) (a : Acc) : Bool :=
  let shared := (match a.op with | .load => true | _ => false) && sharedLoad s a
  let ag := if shared then instrAgents s a else a.agents
  let earlier := s.accs.filter fun x => decide (x.id < a.id) && x.gid = a.gid
  let mine := earlier.filter fun x => x.agents &&& a.agents ≠ 0#96
  let meet := earlier.any fun x => samePlace a.gid ag a.parent a.keys x.gid x.agents x.parent x.keys
  let inFlight := s.flits.any fun r => decide (r.id < a.id) && samePlace a.gid ag a.parent a.keys r.gid r.agents r.parent r.keys
  let ownPending := inFlight || s.stores.any fun r => decide (r.id < a.id) &&
    (samePlace a.gid a.agents a.parent a.keys r.gid r.agents r.parent r.keys ||
      (r.gid = a.gid && r.agents &&& a.agents ≠ 0#96 && toHost r.keys && toHost a.keys))
  match a.op with
  | .atomic _ => !heldBack s a.gid a.agents && mine.isEmpty && !meet && !ownPending
  | .ordered _ =>
    !heldBack s a.gid a.agents && a.admitted && decide (s.floorOf a.grid = some a.idx) && mine.isEmpty && !ownPending &&
      !(s.accs.any fun x => (match x.op with | .ordered _ => true | _ => false) && x.grid = a.grid && x.idx = a.idx && decide (x.id < a.id))
  | .prefetch => !fillWaits s a.die a.core a.tenant a.space a.pol a.keys
  | _ => !heldBack s a.gid ag && !fillWaits s a.die a.core a.tenant a.space a.pol a.keys && !meet && !inFlight && !(shared && storeUnderWay s a ag)

/-- A .nol1 load has read past a line of the core's L1: an older copy leaves it, so that no later load of the agent runs
backwards (R88). -/
def dropStale (s : State) (a : Acc) (vs : List Byte) : State :=
  if a.pol = 3#2 && isGlobal (a.keys.headD (2 ^ 57)) then
    (a.keys.zip vs).foldl (fun s p =>
      match s.l1Line? a.die a.core (lineOf p.1) with
      | some e => if !e.lp && lineByte e.data (p.1 % 128) ≠ p.2 then l1Remove s a.die a.core (lineOf p.1) else s
      | none => s) s
  else s

/-- The bytes that a load has read are those that its instruction's other lanes read there (R68). -/
def shareLoaded (s : State) (a : Acc) (vs : List (Nat × Byte)) : State :=
  let note := fun sl : Slot => { sl with req := sl.req.map fun (r : MemReq) => if r.id = a.parent then { r with seen := r.seen ++ vs } else r }
  let s := { s with accs := s.accs.map fun (x : Acc) =>
    if x.parent = a.parent then { x with got := x.got ++ vs.filter fun (p : Nat × Byte) => x.keys.contains p.1 } else x }
  s.modGroup a.gid fun g =>
    { g with s0 := note g.s0, s1 := note g.s1, frame := g.frame.map fun (f : Frame) => { f with s0 := note f.s0, s1 := note f.s1 } }

/-- An access is over: its value goes to its destination and latch, and its counter may fall. -/
def accDone (s : State) (a : Acc) (v : BitVec 64) : State :=
  let s := { s with accs := s.accs.filter fun x => x.id ≠ a.id }
  let s := s.modGroup a.gid fun g => g.deliver a.id ((v <<< a.off).setWidth (wBits a.w))
  settleFences (s.reqDone a.gid a.ctr a.parent)

/-- An atomic is applied at its home and completes. -/
def atomDone (s : State) (a : Acc) (op : BitVec 6) : State :=
  let (v, s) := applyAtom s a.writer op a.w a.keys a.data a.data2
  accDone s a v

/-- A load completes: the bytes come through the caches that its space and policy use. -/
def loadDone (s : State) (a : Acc) : State :=
  let s := ((a.keys.map (· / 32)).eraseDups).foldl (fun s q => fetchFor s a.die a.core a.tenant a.space a.pol (32 * q)) s
  let vs := a.keys.map (readKey s a)
  let s := noteRead (dropStale s a vs) a.die a.core a.gid a.agents a.op.classes a.keys
  accDone (shareLoaded s a (a.keys.zip vs)) a (ofBytes vs 64)

/-- An atomic or load to another module leaves for it, and its access stays until it is answered (R109). -/
def accFlit (a : Acc) : Flit :=
  { id := a.id, parent := a.parent, gid := a.gid, agents := a.agents, eng := none, die := a.die, core := a.core, tenant := a.tenant,
    retries := 0, keys := a.keys, bytes := [], s1 := a.s1, trap := a.trap, va := a.va, ctr := a.ctr, mse := a.mse, reserve := a.reserve }

/-- Must a load go to another module: neither the L1 nor a lease has a copy of some byte there? -/
def remoteMiss (s : State) (a : Acc) : Bool :=
  a.keys.any fun k => isRemote [k] && !(usesL1 s a.die a.core a.space a.pol && l1Holds s a.die a.core k) &&
    !s.leases.any fun l => l.line = lineOf k && l.die = a.die && leaseLive s l

/-- An access that its home has answered completes. -/
def accAnswered (s : State) (a : Acc) : State :=
  match a.op with
  | .atomic op | .ordered op => atomDone s a op
  | _ => loadDone s a

/-- A load or atomic completes: its value is taken, and goes to its destination (R63, R85); a prefetch fills its lines. -/
def execMemAccessComplete (id : Nat) (s : State) : Out :=
  match s.accs.find? fun a => a.id = id with
  | none => .next s
  | some a =>
    if !accDue s a || s.flits.any fun x => x.id = id then .next s
    else
      let away := match a.op with | .atomic _ | .ordered _ => isRemote a.keys | _ => remoteMiss s a
      match a.op with
      | .prefetch => .next { prefFill s a with accs := s.accs.filter fun x => x.id ≠ id }
      | _ => .next (if away then { s with flits := s.flits ++ [accFlit a] } else accAnswered s a)

/-- May a store reach its home now? Every earlier load and atomic of the agent has taken its value (R89, R91); stores to one
byte keep their order, and lanes of one instruction theirs (R68, R88); stores to the host keep program order (R108). A task's stores follow the accesses before its spawn (R310). -/
def storeDue (s : State) (r : StoreRec) : Bool :=
  !heldBack s r.gid r.agents &&
  !(s.accs.any fun a => decide (a.id < r.id) && a.gid = r.gid && a.agents &&& r.agents ≠ 0#96) &&
  !(s.stores.any fun q => decide (q.id < r.id) &&
      (samePlace r.gid r.agents r.parent r.keys q.gid q.agents q.parent q.keys ||
        (q.gid = r.gid && q.agents &&& r.agents ≠ 0#96 && toHost q.keys && toHost r.keys)))

/-- A store reaches its point of coherence (R95, R100), or leaves for a remote module (R109). -/
def execStoreReachHome (id : Nat) (s : State) : Out :=
  match s.stores.find? fun r => r.id = id with
  | none => .next s
  | some r =>
    if !storeDue s r then .next s
    else
      let s := { s with stores := s.stores.filter fun x => x.id ≠ id }
      if isRemote r.keys && !(r.space = .lp && hasL1 s r.die r.core) then
        .next { s with flits := s.flits ++ [
          { id := r.id, parent := r.parent, gid := r.gid, agents := r.agents, eng := none, die := r.die, core := r.core, tenant := r.tenant,
            retries := 0, keys := r.keys, bytes := r.bytes, s1 := r.s1, trap := r.trap, va := r.va, ctr := r.ctr, mse := r.mse,
            reserve := r.reserve }] }
      else
        let s :=
          if r.space = .lp then lpPuts s r.writer r.keys r.bytes
          else l1Patches (storeBy s r.writer r.keys r.bytes) r.die r.core r.keys r.bytes
        .next (settleFences (s.reqDone r.gid r.ctr r.parent))

/-- The last lease on a line has run out: the stores that it held perform at .mod scope (R106). -/
def execLeaseExpiry (line : Nat) (s : State) : Out :=
  if s.leases.any fun l => l.line = line && decide (s.now.toNat < l.expiry) then .next s
  else
    .next (settleFences
      (settleOutside { s with leases := s.leases.filter fun l => l.line ≠ line, held := s.held.filter fun h => h.line ≠ line }))

/-- A die drops a copy whose lease has at most 16 cycles to run (R105). -/
def execLeaseCopyDrop (die line : Nat) (s : State) : Out :=
  .next { s with leases := s.leases.map fun l =>
    if l.die = die && l.line = line && !leaseLive s l then { l with copy := false } else l }

/-- The slice where an ordered atomic has its home. -/
def accSlice (s : State) (a : Acc) : Option Nat × Nat :=
  let k := a.keys.headD 0
  (homeDie k, homeSlice s k)

/-- An ordered atomic arrives at its home slice (R73, R74): it is admitted where one of the 63 general entries is free, or the reserved one
for the floor's index, and gives up its miss-status entries; else it is rejected to its core, which tries again for it under R64: it ages,
and needs an entry of the general pool, or of the reserve when its turn has come. The word's slot does not wait for that (log entry 62). -/
def execOabAdmit (id : Nat) (s : State) : Out :=
  match s.accs.find? fun a => a.id = id with
  | none => .next s
  | some a =>
    let here := s.accs.filter fun x => x.admitted && decide (accSlice s x = accSlice s a)
    let floor := decide (s.floorOf a.grid = some a.idx)
    let twin := floor && here.any fun x => x.grid = a.grid && x.idx = a.idx
    let general := decide ((here.filter fun x => !x.inReserve).length < Config.oabEntries - 1)
    let room := general || (floor && here.all fun x => !x.inReserve)
    let fr := freeEntries s a.die a.core
    let me : Claimant := ⟨match s.group? a.gid with | some g => g.quad | none => 0, a.age, a.parent⟩
    let entry := !a.rejected || decide (0 < fr.1) || (drawsReserve s a.die a.core me && decide (0 < fr.2))
    let put := fun f : Acc → Acc => Host.Outcome.next { s with accs := s.accs.map fun x => if x.id = id then f x else x }
    match a.op with
    | .ordered _ =>
      if a.admitted || twin then .next s
      else if room && entry then put fun x => { x with admitted := true, inReserve := !general, rejected := false, mse := [], reserve := [], age := 0 }
      else put fun x => { x with rejected := true, mse := [], reserve := [], age := min 15 (x.age + 1) }
    | _ => .next s

end Sys2Proof.Machine
end

