-- ==== Sys2Proof/Machine/Sync.lean ====
section
/-! DEFINITION. Rings and futures (R81 to R84). -/

namespace Sys2Proof.Machine

/-- A ring descriptor (R82). -/
structure Ring where
  base : Addr
  log : Nat
  zero : Byte
  size : Nat
  pushRes : Word32
  tail : Word32
  popRes : Word32
  head : Word32
  deriving DecidableEq, Repr

def Ring.ofBytes (bs : List Byte) : Ring :=
  let at_ := fun (i n : Nat) => (bs.drop i).take n
  let w := fun i : Nat => Sys2Proof.Machine.ofBytes (at_ i 4) 32
  { base := Sys2Proof.Machine.ofBytes (at_ 0 10) 80, log := natOfBytes (at_ 10 1), zero := bs.getD 11 0#8, size := natOfBytes (at_ 12 4),
    pushRes := w 16, tail := w 20, popRes := w 24, head := w 28 }

def Ring.count (r : Ring) : Nat := 2 ^ r.log

/-- The descriptors that R83 refuses. -/
def Ring.bad (r : Ring) (elem : Nat) : Bool := decide (20 < r.log ∨ r.size = 0 ∨ r.size < 96 * elem ∨ r.zero ≠ 0#8)

/-- The address of a lane's element in slot n (R83). -/
def Ring.elem (r : Ring) (n : Word32) (lane size : Nat) : Addr :=
  r.base + BitVec.ofNat 80 (n.toNat % r.count * r.size + lane * size)

/-- The natural scope of a space, by its code (R81, R93, R104). A store to a remote module has performed at .sys when it has at any scope,
so that .mod stands for .sys here (R109). -/
def naturalScope (sp : Space) : Nat := match sp with | .sc => 1 | .cl => 2 | .ds => 3 | _ => 4

/-- The natural scope of a space reaches beyond the core, so that an acquire drops the L1's shared lines (R81, R101). -/
def naturalDrops (sp : Space) : Bool := decide (sp ≠ .sc)

/-- The descriptor's keys, in the group's translation. -/
def ringKeys (s : State) (g : Group) (r : MemReq) : State × Except (PageFault × Addr) (List Nat) :=
  laneKeys s g r.space .atomic 0 r.ea[0] 32

def readRing (s : State) (ks : List Nat) : Ring := Ring.ofBytes (ks.map (homeByte s))

/-- Whose the accesses of a waiting word are. -/
def MemReq.writer (r : MemReq) (gid : Nat) (g : Group) (agents : Mask) : Writer :=
  { id := r.id, gid := gid, agents := agents, eng := none, cls := r.op.classes, die := g.die, core := g.core, tenant := g.tenant,
    pol := r.pol }

/-! ### Entries and other modules (R63, R64, R109) -/

/-- A waiting word's access to another module leaves for it, holding its miss-status entries until it is answered. -/
def sendWait (s : State) (gid : Nat) (s1 : Bool) (g : Group) (r : MemReq) (ok : List (Nat × List Nat × List Nat × List Nat)) : State :=
  { s with flits := s.flits ++ [
      { id := r.id, parent := r.id, gid := gid, agents := r.agents, eng := none, die := g.die, core := g.core, tenant := g.tenant, retries := 0,
        keys := ok.flatMap fun p => p.2.1, bytes := [], s1 := s1, trap := g.trapMode, va := r.ea[(lowest? r.issued).getD 0], ctr := r.ctr,
        mse := (ok.flatMap fun p => p.2.2.1).eraseDups, reserve := (ok.flatMap fun p => p.2.2.2).eraseDups }] }

/-- The next access of a word that waits at a ring or a future, to the bytes `ks` of the lanes `todo`: the lanes that perform it now, or the
state in which the word waits on. Lanes without a miss-status entry are rejected (with `whole`, all of them); what goes to another module is
sent there and performs once it is answered. -/
def reach (s : State) (gid : Nat) (s1 : Bool) (g : Group) (r : MemReq) (wait : SlotWait) (whole : Bool) (todo : Mask) (ks : List (Nat × List Nat)) :
    Except State Mask :=
  let all := ks.foldl (fun m p => m ||| oneLane p.1) 0#96
  let away := isRemote (ks.flatMap Prod.snd)
  if r.acked then .ok all
  else if s.flits.any fun f => f.id = r.id then .error s
  else
    let (ok, no) := askEntries s s1 g r ks
    if no ≠ 0#96 && (whole || away || ok.isEmpty) then .error (waitEntries s gid s1 wait r todo)
    else if away then .error ((sendWait s gid s1 g r ok).modSlot gid s1 fun sl => { sl with wait := wait, unfinished := todo, req := some r, age := 0 })
    else .ok (all &&& ~~~no)

/-- One counter of the descriptor is advanced at its home, atomically. -/
def bumpRing (s : State) (r : MemReq) (gid : Nat) (g : Group) (ks : List Nat) (off : Nat) (v : Word32) : State :=
  let s := noteRead (l1Drops s g.die g.core ks) ((homeDie (ks.headD 0)).getD Config.dies) g.core gid r.agents r.op.classes ks
  storeBy s (r.writer gid g r.agents) ((ks.drop off).take 4) (toBytes (v + 1#32) 4)

/-- The slot waits at its ring word with a reservation. -/
def ringWait (r : MemReq) (n : Word32) : SlotWait := match r.op with | .ringPush => .ringPush n | _ => .ringPop n

/-- A word that has started traps after all: no lane has performed anything, and its counter falls again. -/
def trapStarted (s : State) (gid : Nat) (s1 : Bool) (sh : Shape) (r : MemReq) (cause : BitVec 8) (m : Mask) : State :=
  (trapWord (s.modSlot gid s1 fun sl => { sl with req := none, unfinished := 0#96, wait := .ready }) gid s1 r.instr sh cause 0#8 m
    true).ctrDown gid r.ctr

/-- The start of a ring word: the descriptor is read and checked, the whole slot array is checked, and a slot is reserved
(R83). -/
def ringStart (s : State) (gid : Nat) (s1 : Bool) (sh : Shape) (r : MemReq) : State :=
  match s.group? gid with
  | none => s
  | some g =>
    match ringKeys s g r with
    | (s, .error (c, va)) =>
      let s := parkSlot s gid s1 va c (kindByte r.op.kind) r.issued
      s.modSlot gid s1 fun sl => { sl with req := some r }
    | (s, .ok ks) =>
      match reach s gid s1 g r .pending true r.issued [(0, ks)] with
      | .error s => s
      | .ok _ =>
      let d := readRing s ks
      let push := decide (r.op = .ringPush)
      if d.bad (elemSize r.w) then trapStarted s gid s1 sh r cRingDescriptor r.issued
      else
        let n := d.count * d.size
        if !inSpace s (s.teamOf g) g.die g.grid r.space d.base n then trapStarted s gid s1 sh r cAddressRange r.issued
        else if lockHit s g.die g.core g.tenant push r.space d.base n then trapStarted s gid s1 sh r cRangeLock r.issued
        else
          let res := if push then d.pushRes else d.popRes
          let s := bumpRing s r gid g ks (if push then 16 else 24) res
          s.modSlot gid s1 fun sl => { sl with wait := ringWait r res, unfinished := 0#96, age := 0, req := some { r with ring := some res, acked := false } }

def ringWord (i : Instr) (s : State) (op : MemOp) (sp : BitVec 3) (pol : BitVec 2) (a : Triple)
    (data : State → Group → Slot → Lane → BitVec 64) : Out :=
  gate i s fun s gid s1 g sl sh =>
    let m := execLanes g sl sh.head
    if m = 0#96 then .next (s.setGroup gid (g.done s1 sh))
    else
      let r := { mkReq i s g sl sh op (Space.ofCode sp) pol false m (fun _ => readTriple g sl a) (data s g sl) (fun _ => 0#64) (fun _ => 0#2048) with
                   agents := m }
      let whole := { r with once := some ((lowest? m).getD 0).val }
      match memTrap s g whole 32 8 (some true) m with
      | some (c, t) => .next (trapWord s gid s1 i sh c 0#8 t true)
      | none =>
        if op = .ringPush then
          withRegion s gid s1 g sh r (fun l => .push r.space (readTriple g sl a) r.w r.data[l]) fun s r => ringStart s gid s1 sh r
        else .next (ringStart (startReq s gid r) gid s1 sh r)

def execRingPush (h : Head) (a : Triple) (b : Src) (sp : BitVec 3) (pol : BitVec 2) (s : State) : Out :=
  ringWord (.ringPush h a b sp pol) s .ringPush sp pol a fun s g sl l => (readSrc s g sl l b (wBits h.w)).setWidth 64

def execRingPop (h : Head) (d : Dst) (a : Triple) (sp : BitVec 3) (pol : BitVec 2) (s : State) : Out :=
  ringWord (.ringPop h d a sp pol) s .ringPop sp pol a noData

/-- The lanes' elements of the reserved slot. -/
def ringEas (r : MemReq) (d : Ring) (n : Word32) : Lanes Addr := Vector.ofFn fun l => d.elem n l.val (elemSize r.w)

/-- The slot accesses of a ring word, ordered after the lanes' earlier accesses (the word issues only once those have performed): writes
for push, which the core's L1 takes where it holds the line (R58), and reads for pop; lanes that fault park the slot after its
reservation, and lanes without a miss-status entry try again. -/
def ringTouch (s : State) (gid : Nat) (s1 : Bool) (g : Group) (r : MemReq) (d : Ring) (n : Word32) (todo : Mask) : State :=
  let push := decide (r.op = .ringPush)
  let (s, x) := xlateLanes s g r.space (if push then .write else .read) (ringEas r d n) (elemSize r.w) (lanesOf todo)
  match reach s gid s1 g r (ringWait r n) false todo x.keys with
  | .error s => s
  | .ok ok =>
    let keys := x.keys.filter fun p => ok.getLsbD p.1
    let s :=
      if push then
        let s := keys.foldl (fun s p =>
          let bs := toBytes r.data[Fin.ofNat 96 p.1] p.2.length
          l1Patches (storeBy s (r.writer gid g (oneLane p.1)) p.2 bs) g.die g.core p.2 bs) s
        s.modGroup gid fun g => g.noteAccess { r with ea := ringEas r d n } ok
      else
        keys.foldl (fun s p =>
          let v : BitVec 64 := ofBytes (p.2.map (agentByte s gid (oneLane p.1) g.die)) 64
          (noteRead s g.die g.core gid (oneLane p.1) r.op.classes p.2).modGroup gid fun g => g.receive s1 r p.1 (v.setWidth (wBits r.w))) s
    let left := todo &&& ~~~ok
    let r := { r with acked := false }
    match x.first with
    | some (va, c) =>
      let s := parkSlot s gid s1 va c (if push then 1#8 else 0#8) x.faulted
      s.modSlot gid s1 fun sl => { sl with req := some r, unfinished := left }
    | none =>
      if left = 0#96 then s.modSlot gid s1 fun sl => { sl with req := some { r with touched := true }, unfinished := 0#96, age := 0 }
      else waitEntries s gid s1 (ringWait r n) r left

/-- The instruction is complete: the slot goes on, and its counter falls. -/
def finishWait (s : State) (gid : Nat) (s1 : Bool) (r : MemReq) : State :=
  (s.modSlot gid s1 fun sl => sl.advance r.res).reqDone gid r.ctr r.id

/-- An acquire at the natural scope of a space. -/
def naturalAcquire (s : State) (g : Group) (sp : Space) : State :=
  if naturalDrops sp then l1Invalidate s g.die g.core else s

/-- A ring word goes on: its slot accesses once the ring has room or data, then its publish step in the order of the
reservations (R83). -/
def execRingWaitResume (gid : Nat) (s1 : Bool) (s : State) : Out :=
  match s.group? gid with
  | none => .next s
  | some g =>
    let sl := g.slot s1
    match sl.wait, sl.req with
    | .ringPush n, some r | .ringPop n, some r =>
      if g.frozen then .next s
      else
        match ringKeys s g r with
        | (s, .error (c, va)) =>
          let s := parkSlot s gid s1 va c (kindByte r.op.kind) r.issued
          .next (s.modSlot gid s1 fun x => { x with req := some r, unfinished := sl.unfinished })
        | (s', .ok ks) =>
          let d := readRing s' ks
          let push := decide (r.op = .ringPush)
          let todo := if sl.unfinished = 0#96 then r.issued else sl.unfinished
          if !r.touched then
            if (if push then decide ((n - d.head).toNat < d.count) else decide (0 < (d.tail - n).toInt)) then
              .next (ringTouch s' gid s1 g r d n todo)
            else .next s
          else if (if push then decide (d.tail = n) && released s' gid g.die r.agents (naturalScope r.space) r.id else decide (d.head = n)) then
            match reach s' gid s1 g r (ringWait r n) true r.issued [(0, ks)] with
            | .error s => .next (s.modSlot gid s1 fun sl => { sl with unfinished := 0#96 })
            | .ok _ =>
              let s := bumpRing s' r gid g ks (if push then 20 else 28) n
              let s := if push then s else naturalAcquire s g r.space
              .next (settleFences (finishWait s gid s1 r))
          else .next s
    | _, _ => .next s

/-! ### Futures (R84) -/

def futFull (bs : List Byte) : Bool := ((ofBytes bs 64 : BitVec 64)).getLsbD 63

/-- The lanes whose future is full, or would be filled by a lower lane of the same instruction. -/
def refills (s : State) (seen : List (List Nat)) : List (Nat × List Nat) → Mask
  | [] => 0#96
  | (l, ks) :: r =>
    let hit := futFull (ks.map (homeByte s)) || seen.contains ks
    (if hit then oneLane l else 0#96) ||| refills s (ks :: seen) r

/-- The fills of a word's lanes, all or none (R67, R84). A lane that does not translate may yet be found full, so that none fills until
all translate (log entry 63): the replay judges them all. An atomic's line leaves the core's L1 (R58). -/
def futFillIssue (s : State) (gid : Nat) (s1 : Bool) (sh : Shape) (r : MemReq) : State :=
  match s.group? gid with
  | none => s
  | some g =>
    let (s, x) := xlateLanes s g r.space .atomic r.ea 8 (lanesOf r.issued)
    match reach s gid s1 g r .pending true r.issued x.keys with
    | .error s => s
    | .ok _ =>
    let t := refills s [] x.keys
    if t ≠ 0#96 then trapStarted s gid s1 sh r cFutureRefill t
    else
      match x.first with
      | some (va, c) =>
        let s := parkSlot s gid s1 va c 2#8 x.faulted
        s.modSlot gid s1 fun sl => { sl with req := some { r with acked := false } }
      | none =>
        let s := x.keys.foldl (fun s p =>
          let v : BitVec 64 := r.data[Fin.ofNat 96 p.1] ||| (1#64 <<< 63)
          storeBy (l1Drops s g.die g.core p.2) (r.writer gid g (oneLane p.1)) p.2 (toBytes v 8)) s
        finishWait s gid s1 r

def execFutFill (h : Head) (a b : Src) (sp : BitVec 3) (pol : BitVec 2) (s : State) : Out :=
  gate (.futFill h a b sp pol) s fun s gid s1 g sl sh =>
    let m := execLanes g sl h
    if m = 0#96 then .next (s.setGroup gid (g.done s1 sh))
    else
      let r := mkReq (.futFill h a b sp pol) s g sl sh .futFill (Space.ofCode sp) pol false m (fun l => readAddr s g sl l a)
        (fun l => readSrc s g sl l b 64) (fun _ => 0#64) fun _ => 0#2048
      match memTrap s g r 8 8 (some true) m with
      | some (c, t) => .next (trapWord s gid s1 (.futFill h a b sp pol) sh c 0#8 t true)
      | none =>
        withRegion s gid s1 g sh r (fun l => .futFill r.space r.ea[l] r.data[l]) fun s r => futFillIssue s gid s1 sh r

/-- The futures of a wait's lanes; a lane that does not translate parks the slot. -/
def futCheck (s : State) (gid : Nat) (s1 : Bool) (g : Group) (r : MemReq) : State × Option (List (Nat × List Nat)) :=
  let (s, x) := xlateLanes s g r.space .read r.ea 8 (lanesOf r.issued)
  match x.first with
  | some (va, c) =>
    let s := parkSlot s gid s1 va c 0#8 x.faulted
    (s.modSlot gid s1 fun sl => { sl with req := some r }, none)
  | none => (s, some x.keys)

def execFutWait (h : Head) (d : Dst) (a : Src) (sp : BitVec 3) (pol : BitVec 2) (s : State) : Out :=
  gate (.futWait h d a sp pol) s fun s gid s1 g sl sh =>
    let m := execLanes g sl h
    if m = 0#96 then .next (s.setGroup gid (g.done s1 sh))
    else
      let r := mkReq (.futWait h d a sp pol) s g sl sh .futWait (Space.ofCode sp) pol false m (fun l => readAddr s g sl l a) (fun _ => 0#64) (fun _ => 0#64) fun _ => 0#2048
      match memTrap s g r 8 8 (some false) m with
      | some (c, t) => .next (trapWord s gid s1 (.futWait h d a sp pol) sh c 0#8 t true)
      | none =>
        match futCheck (startReq s gid r) gid s1 g r with
        | (s, none) => .next s
        | (s, some _) => .next (s.modSlot gid s1 fun sl => { sl with wait := .futWait, req := some r })

/-- Have the lanes of a word that waits earlier accesses to these bytes on their way (R88, R90)? -/
def earlierThere (s : State) (gid : Nat) (r : MemReq) (ks : List (Nat × List Nat)) : Bool :=
  let there := fun (x parent : Nat) (m : Mask) (keys : List Nat) =>
    x = gid && m &&& r.issued ≠ 0#96 && decide (parent ≠ r.id) && ks.any fun p => shareKey keys p.2
  (s.stores.any fun x => there x.gid x.parent x.agents x.keys) || (s.accs.any fun x => there x.gid x.parent x.agents x.keys) ||
    s.flits.any fun x => there x.gid x.parent x.agents x.keys

/-- A wait ends once every issued lane's future is full: the payloads go to D, with acquire order (R84). -/
def execFutWaitWake (gid : Nat) (s1 : Bool) (s : State) : Out :=
  match s.group? gid with
  | none => .next s
  | some g =>
    let sl := g.slot s1
    match sl.wait, sl.req with
    | .futWait, some r =>
      if g.frozen then .next s
      else
        match futCheck s gid s1 g r with
        | (s, none) => .next s
        | (s', some ks) =>
          let word := fun p : Nat × List Nat => p.2.map (agentByte s' gid (oneLane p.1) g.die)
          if (ks.all fun p => futFull (word p)) && !earlierThere s' gid r ks then
            match reach s' gid s1 g r .futWait true r.issued ks with
            | .error s => .next s
            | .ok _ =>
              let s := ks.foldl (fun s p =>
                let v : BitVec 64 := ofBytes (word p) 64 &&& ~~~(1#64 <<< 63)
                (noteRead s g.die g.core gid (oneLane p.1) r.op.classes p.2).modGroup gid fun g => g.receive s1 r p.1 v) s'
              .next (settleFences (finishWait (naturalAcquire s g r.space) gid s1 r))
          else .next s
    | _, _ => .next s

/-- A word whose lanes are pending, or whose page fault the supervisor has answered, goes on for them with its captured
operands (R52, R64). -/
def resumeReq (s : State) (gid : Nat) (s1 : Bool) (r : MemReq) (todo : Mask) : State :=
  match r.op, r.ring, wordShape r.instr with
  | .ringPush, none, some sh | .ringPop, none, some sh => ringStart s gid s1 sh r
  | .ringPush, some n, _ | .ringPop, some n, _ => s.modSlot gid s1 fun sl => { sl with wait := ringWait r n }
  | .futFill, _, some sh => futFillIssue s gid s1 sh r
  | .futWait, _, _ => s.modSlot gid s1 fun sl => { sl with wait := .futWait, unfinished := 0#96 }
  | _, _, _ => memIssue s gid s1 r todo

/-- The access of a waiting word to another module has failed for good: the word is over, and what it would have returned is free (R109; log
entry 54). -/
def failWait (s : State) (gid : Nat) (s1 trap : Bool) (r : MemReq) : State :=
  let returns := match r.op with | .ringPop | .futWait => true | _ => false
  let s := if returns then
      (lanesOf r.issued).foldl (fun s l =>
        let (v, s) := s.free
        s.modGroup gid fun g => g.receiveIn s1 trap r l.val (v.setWidth (wBits r.w))) s
    else s
  (s.modGroup gid fun g => g.modSlotIn s1 trap fun sl => sl.advance r.res).reqDone gid r.ctr r.id

/-- Pending lanes try again (R64). -/
def execPendingRetry (gid : Nat) (s1 : Bool) (s : State) : Out :=
  match s.group? gid with
  | none => .next s
  | some g =>
    let sl := g.slot s1
    match sl.wait, sl.req with
    | .pending, some r => if g.frozen then .next s else .next (resumeReq s gid s1 r sl.unfinished)
    | _, _ => .next s

/-- The slot's word that waits for another module is answered (R109): it performs, where its ring or future lets it. -/
def resumeWait (s : State) (gid : Nat) (s1 : Bool) : Out :=
  match s.group? gid with
  | none => .next s
  | some g =>
    match (g.slot s1).wait with
    | .ringPush _ | .ringPop _ => execRingWaitResume gid s1 s
    | .futWait => execFutWaitWake gid s1 s
    | .pending => execPendingRetry gid s1 s
    | _ => .next s

end Sys2Proof.Machine
end

