-- ==== Sys2Proof/Machine/Stack.lean ====
section
/-! DEFINITION. Paths of a group: the reconvergence stack, divergence, joins, exits from paths, and the part of the stack in
lane-private memory (R142 to R149). -/

namespace Sys2Proof.Machine

/-! ### Paths -/

/-- A slot that begins a path at a header; its idle lanes stay inactive. -/
def Slot.path (pc : Addr) (lanes idle : Mask) (now : Nat) : Slot :=
  { Slot.reset.jump pc with owned := lanes, mask := lanes &&& ~~~idle, readyAt := now }

/-- A slot takes a path; what belongs to the slot itself stays: its barrier arrivals, its last clock, and whether its last clause
yielded (R8). -/
def Group.setPath (g : Group) (s1 : Bool) (sl : Slot) : Group :=
  g.setSlot s1 { sl with arrived := (g.slot s1).arrived, clock := (g.slot s1).clock, yld := if sl.left = 0 then (g.slot s1).yld else sl.yld,
                         back := (g.slot s1).back }

/-- The slot at a path's first word: a header, or the word after the join that stands first in its clause (R146). Where the page does not
translate, that is found out when the fetch has been replayed. -/
def Slot.begin (sl : Slot) (s : State) (g : Group) : Slot :=
  match peekWord s g sl.pc with
  | none => { sl with afterJoin := true }
  | some w =>
    let sl := { sl with afterJoin := false }
    if isHeader w then sl
    else
      match (peekWord s g (sl.pc - 16#80)).map decodeHeader with
      | some (.ok (.clauseIssue cls cnt _ yld)) =>
        { sl with header := sl.pc - 16#80, cls := cls, left := cnt.toNat, pos := 1, yld := yld }
      | none => { sl with afterJoin := true }
      | _ => sl

/-- A path that continues at an address. -/
def pathSlot (s : State) (g : Group) (pc : Addr) (lanes idle : Mask) : Slot := (Slot.path pc lanes idle s.now.toNat).begin s g

/-- Entries of the level at which the group runs: those of its trap handler in trap mode (R142). -/
def Group.atLevel (g : Group) (e : Reconv) : Bool := e.trapLevel = g.trapMode

/-- An entry with only a path part. -/
def pathEntry (g : Group) (pc : Addr) (lanes idle : Mask) (rot : Bool) : Reconv :=
  { join := none, expected := 0#96, arrived := 0#96, pathPc := pc, path := lanes, idle := idle, trapLevel := g.trapMode, rotated := rot }

/-- An entry with only a join part. -/
def joinEntry (g : Group) (r : Addr) (expected : Mask) : Reconv :=
  { join := some r, expected := expected, arrived := 0#96, pathPc := 0#80, path := 0#96, idle := 0#96,
    trapLevel := g.trapMode, rotated := false }

/-- The topmost path part of the level leaves the stack; an entry left with neither part is removed (R146). -/
def takePath (level : Reconv → Bool) : List Reconv → Option (Reconv × List Reconv)
  | [] => none
  | e :: r =>
    if level e && e.path ≠ 0#96 then
      some (e, if e.join.isSome then { e with path := 0#96, pathPc := 0#80 } :: r else r)
    else (takePath level r).map fun x => (x.1, e :: x.2)

/-- Each empty slot takes the topmost path part (R146). -/
def fillSlots (s : State) (g : Group) : Group :=
  [false, true].foldl (fun g s1 =>
    if (g.slot s1).isEmpty then
      match takePath g.atLevel g.stack with
      | some (e, st) => { g.setPath s1 { pathSlot s g e.pathPc e.path (e.idle &&& e.path) with rotated := e.rotated } with stack := st }
      | none => g
    else g) g

/-- The entries from the top down (R145, R146): empty ones go, covered ones are released. `above` holds those already
examined, the last first. The entry that goes in above a released one takes its place on a full stack too (log entry 27). -/
def examineFrom (s : State) (s1 : Bool) (above : List Reconv) (g : Group) : List Reconv → Group
  | [] => { g with stack := above.reverse }
  | e :: r =>
    if !g.atLevel e then { g with stack := above.reverse ++ e :: r }
    else
      match e.join with
      | none => if e.path = 0#96 then examineFrom s s1 above g r else examineFrom s s1 (e :: above) g r
      | some j =>
        if e.expected = 0#96 && e.arrived = 0#96 && e.path = 0#96 then examineFrom s s1 above g r
        else if e.expected &&& ~~~e.arrived ≠ 0#96 then examineFrom s s1 (e :: above) g r
        else
          let pc := j + 16#80
          let rest := { e with join := none, expected := 0#96, arrived := 0#96 }
          let keep := if e.path = 0#96 then above else rest :: above
          if e.arrived = 0#96 then examineFrom s s1 keep g r
          else if (g.slot s1).isEmpty then examineFrom s s1 keep (g.setPath s1 (pathSlot s g pc e.arrived e.idle)) r
          else if (g.slot (!s1)).isEmpty then examineFrom s s1 keep (g.setPath (!s1) (pathSlot s g pc e.arrived e.idle)) r
          else if e.path = 0#96 then examineFrom s s1 ({ rest with path := e.arrived, pathPc := pc } :: above) g r
          else examineFrom s s1 (rest :: pathEntry g pc e.arrived (e.idle &&& e.arrived) false :: above) g r

/-- R145 and R146 after a join or an exit of a slot. -/
def examine (s : State) (s1 : Bool) (g : Group) : Group := fillSlots s (examineFrom s s1 [] g g.stack)

/-- Lanes leave a slot; a slot without lanes is empty. -/
def Group.leaveSlot (g : Group) (s1 : Bool) (m : Mask) : Group :=
  g.modSlot s1 fun sl =>
    if sl.owned &&& ~~~m = 0#96 then { Slot.reset with arrived := sl.arrived, clock := sl.clock, yld := sl.yld, back := sl.back } else { sl with owned := sl.owned &&& ~~~m, mask := sl.mask &&& ~~~m }

/-- Lanes leave the expected mask of every entry (R145). -/
def Group.unexpect (g : Group) (m : Mask) : Group :=
  { g with stack := g.stack.map fun e => { e with expected := e.expected &&& ~~~m } }

/-- A join at a header: the entry that it names, with its lanes parked; none where the join does nothing (R144). -/
def arriveAt (level : Reconv → Bool) (x : Addr) (o active : Mask) : List Reconv → Option (Mask × List Reconv)
  | [] => none
  | e :: r =>
    if level e && decide (e.join = some x) && e.expected &&& o ≠ 0#96 then
      some (e.expected, { e with arrived := e.arrived ||| (o &&& e.expected), idle := e.idle ||| (o &&& e.expected &&& ~~~active) } :: r)
    else (arriveAt level x o active r).map fun p => (p.1, e :: p.2)

/-! ### Splits (R143, R148) -/

/-- A class of lanes with one target. -/
abbrev Class := Addr × Mask

/-- The lanes of a mask by target, in the order of the lowest lane of each (R148). -/
def classesOf (target : Lane → Addr) : List Lane → List Class
  | [] => []
  | l :: r =>
    let rest := classesOf target r
    match rest.find? fun c => c.1 = target l with
    | some c => (c.1, c.2 ||| oneLane l.val) :: rest.filter fun x => x.1 ≠ c.1
    | none => (target l, oneLane l.val) :: rest

/-- A class put in the order of the lowest lanes. -/
def insertClass (c : Class) : List Class → List Class
  | [] => [c]
  | x :: r =>
    if ((lowest? c.2).getD 0).val ≤ ((lowest? x.2).getD 0).val then c :: x :: r else x :: insertClass c r

/-- Adds the lanes that did not issue as one further class, with the fall-through as its target. -/
def addClass (c : Class) (cs : List Class) : List Class := if c.2 = 0#96 then cs else insertClass c cs

/-- Entries that a split pushes, besides a join entry. -/
def splitPushes (g : Group) (s1 : Bool) (cs : List Class) : Nat :=
  if (g.slot (!s1)).isEmpty then cs.length - 2 else cs.length - 1

/-- The classes take their paths: the first stays in the slot with the slot's inactive lanes, the second takes the other slot
if that is empty, the others are pushed, the lowest on top (R148). -/
def splitPaths (g : Group) (s1 : Bool) (now : Nat) (inactive : Mask) : List Class → Group
  | [] => g
  | c :: cs =>
    let g := g.modSlot s1 fun sl => { sl.jump c.1 with owned := c.2 ||| inactive, mask := c.2 }
    let (g, cs) :=
      match cs with
      | d :: r =>
        if (g.slot (!s1)).isEmpty then (g.setPath (!s1) (Slot.path d.1 d.2 0#96 now), r) else (g, cs)
      | [] => (g, cs)
    { g with stack := cs.map (fun c => pathEntry g c.1 c.2 0#96 false) ++ g.stack }

/-- The number of live paths, of the handler alone in trap mode (R149). -/
def Group.paths (g : Group) : Nat :=
  (if g.s0.isEmpty then 0 else 1) + (if g.s1.isEmpty then 0 else 1) + (g.stack.filter fun e => g.atLevel e && e.path ≠ 0#96).length

/-- Would `n` further entries pass the limit of R147? -/
def Group.overflows (g : Group) (n : Nat) : Bool := decide (Config.stackLimit < g.stack.length + n)

/-! ### The part in lane-private memory (R147) -/

def Reconv.bytes (e : Reconv) : List Byte :=
  toBytes e.pathPc 10 ++ toBytes (e.join.getD 0#80) 10 ++ toBytes e.path 12 ++ toBytes e.expected 12 ++ toBytes e.arrived 12 ++
    [(if e.trapLevel then 1#8 else 0#8) ||| (if e.join.isSome then 2#8 else 0#8) ||| (if e.rotated then 4#8 else 0#8)] ++
    List.replicate 327 0#8

/-- An entry as its bytes give it; which lanes were idle is no part of the layout (log entry 27). -/
def Reconv.ofBytes (idle : Mask) (bs : List Byte) : Reconv :=
  let m := fun i : Nat => Sys2Proof.Machine.ofBytes ((bs.drop i).take 12) 96
  let a := fun i : Nat => Sys2Proof.Machine.ofBytes ((bs.drop i).take 10) 80
  let f := bs.getD 56 0#8
  { pathPc := a 0, join := if f.getLsbD 1 then some (a 10) else none, path := m 20, expected := m 32, arrived := m 44, idle := idle,
    trapLevel := f.getLsbD 0, rotated := f.getLsbD 2 }

/-- The place of entry j, counted from the bottom. -/
def entryAddr (g : Group) (j : Nat) : Addr := g.lpbase + BitVec.ofNat 80 ((0x3FC000 + j) * 384)

/-- One entry is written to memory, or read from it; a page fault parks the group, with no lane named in its record (DESIGN CHOICE, log
entry 59). Says whether the transfer was made. -/
def transferEntry (s : State) (gid : Nat) (j : Nat) (write : Bool) : State × Bool :=
  match s.group? gid with
  | none => (s, true)
  | some g =>
    let at_ := g.stack.length - 1 - j
    match (if j < g.stack.length then g.stack[at_]? else none) with
    | none => (s, true)
    | some e =>
      match xlateBytes s g.die g.core g.tenant g.sup (if write then .write else .read)
          ((List.range 384).map fun i => entryAddr g j + BitVec.ofNat 80 i) with
      | (s, .error (c, va)) => (parkGroup s gid false va c 4#8 0#96, false)
      | (s, .ok ks) =>
        if write then (lpPuts s (g.deviceWriter gid (BitVec.allOnes 96)) ks e.bytes, true)
        else
          let s := ks.foldl (fun s k => fetchFor s g.die g.core g.tenant .lp 0#2 k) s
          let e' := Reconv.ofBytes e.idle (lpBytes s g.die g.core ks)
          (s.modGroup gid fun g => { g with stack := g.stack.set at_ e' }, true)

/-- The transfers that a group's stack is owed, in order, up to one that parks the group. -/
def stackTransfers (s : State) (gid : Nat) : List (Nat × Bool) → State
  | [] => s.modGroup gid fun g => { g with owed := [] }
  | t :: r =>
    match transferEntry s gid t.1 t.2 with
    | (s, true) => stackTransfers s gid r
    | (s, false) => s.modGroup gid fun g => { g with owed := t :: r }

/-- What a change of the stack asks for: entries that are new below the on-chip 32, or that have changed there, are written; then those
that come back on chip are read. -/
def stackOwes (old now : List Reconv) : List (Nat × Bool) :=
  let now := now.reverse
  let was := old.reverse
  let below := now.length - Config.stackOnChip
  let wasBelow := was.length - Config.stackOnChip
  (((now.take (max below wasBelow)).zipIdx.filter fun x => decide (wasBelow ≤ x.2) || decide (was[x.2]? ≠ some x.1)).map
      fun x => (x.2, true)) ++
    ((upFrom below (wasBelow - below)).filter fun j => decide (j < now.length)).map fun j => (j, false)

/-- The entries below the on-chip 32 are read where they are kept, for a word that looks at the whole stack; a page fault parks the group, and
says so. -/
def readBelow (s : State) (gid : Nat) : List Nat → State × Bool
  | [] => (s, true)
  | j :: r =>
    match transferEntry s gid j false with
    | (s, true) => readBelow s gid r
    | (s, false) => (s, false)

/-- A word goes on with the group's stack as it stands on chip and in memory. -/
def withStack (s : State) (gid : Nat) (k : State → Group → Out) : Out :=
  match s.group? gid with
  | none => .next s
  | some g =>
    match readBelow s gid (List.range (g.stack.length - Config.stackOnChip)) with
    | (s, false) => .next s
    | (s, true) => match s.group? gid with | some g => k s g | none => .next s

/-- A group takes a new form, and its stack's part in memory follows. -/
def State.putPaths (s : State) (gid : Nat) (g : Group) : State :=
  let old := match s.group? gid with | some o => o.stack | none => g.stack
  stackTransfers (s.setGroup gid g) gid (g.owed ++ stackOwes old g.stack)

end Sys2Proof.Machine
end

