-- ==== Sys2Proof/Machine/Life.lean ====
section
/-! DEFINITION. The end of lanes, tasks, groups and teams: retiring indices, releasing effects, barriers' completion, and
returning resources (R73, R117 to R130, R139, R140, R150, R172, R174, R270, R292). -/

namespace Sys2Proof.Machine

/-! ### Units of a quadrant (R118, R130) -/

/-- Units that a group occupies: its base block, and its extension units unless they are evicted. -/
def Group.units (g : Group) : Nat := 1 + (if g.evicted then 0 else g.h)

def State.onQuad (s : State) (die core quad : Nat) : List (Nat × Group) :=
  s.groups.filter fun p => p.2.die = die && p.2.core = core && p.2.quad = quad && !p.2.sup

def freeUnits (s : State) (die core quad : Nat) : Nat :=
  Config.unitsPerQuadrant - ((s.onQuad die core quad).map fun p => p.2.units).foldl (· + ·) 0

/-- Units tagged by give.role for a team and role, or for any; a tag lasts for 1,024 cycles (R130). -/
def taggedUnits (s : State) (q : Quad) (of : Option (Nat × Nat)) : Nat :=
  ((q.tags.filter fun t => decide (s.now.toNat < t.2.2.2) &&
      match of with | some (team, role) => t.1 = team && t.2.1 = role | none => true).map
    fun t => t.2.2.1).foldl (· + ·) 0

def untaggedUnits (s : State) (die core quad : Nat) : Nat :=
  freeUnits s die core quad - taggedUnits s (s.quad die core quad) none

/-! ### Deques (R273) -/

/-- A spilled entry as the device lays it out: the layout is no part of the manual, and what a take or a steal gives is Deque.tasks
(DESIGN CHOICE, log entry 64). -/
def Task.bytes (t : Task) : List Byte := natBytes t.grid 6 ++ toBytes t.entry 10 ++ toBytes t.arg 32 ++ toBytes t.idx 16

/-- Entry n of a deque goes to the logical core's part of the region at sr.dqbase. -/
def spillTask (s : State) (lcore n : Nat) (t : Task) : State :=
  let die := lcore / 64
  devWrite s die 0 ((s.die die).dqbase + BitVec.ofNat 80 (2 ^ 26 * lcore + 64 * (n % 2 ^ 20))) t.bytes

/-- Tasks appended at a deque's tail, as one operation; those that find the 1,024 entries on chip in use spill. -/
def appendTasks (s : State) (lcore : Nat) (ts : List Task) : State :=
  let d := s.deque lcore
  let s := s.setDeque lcore { d with tasks := d.tasks ++ ts, tail := d.tail + ts.length, version := d.version + 1 }
  ((ts.zipIdx).filter fun x => decide (Config.dequeOnChip ≤ d.tasks.length + x.2)).foldl (fun s x => spillTask s lcore (d.tail + x.2) x.1) s

/-- Tasks are pushed: the thieves of the die hear of it (R275). -/
def pushTasks (s : State) (lcore : Nat) (ts : List Task) : State :=
  let s := appendTasks s lcore ts
  s.setDie (lcore / 64) { s.die (lcore / 64) with pushes := (s.die (lcore / 64)).pushes + 1 }

def dequeRoom (s : State) (lcore n : Nat) : Bool := decide ((s.deque lcore).tasks.length + n ≤ Config.dequeLimit)

/-- The index of a task that a parent spawns as its j-th (R270): none beyond the sixth level or the 65,535th child. -/
def childIndex (parent : BitVec 128) (j : Nat) : Option (BitVec 128) :=
  if 65534 < j then none
  else
    match [5, 4, 3, 2, 1, 0].find? fun f => parent.extractLsb' (16 * f) 16 = 0#16 with
    | some f => some (setField parent (16 * f) (BitVec.ofNat 16 (j + 1)))
    | none => none

/-! ### Effect logs (R292) -/

def sourceOf (gid : Nat) (g : Group) (l : Lane) : Source :=
  { gid := gid, lane := l.val, die := g.die, core := g.core, tenant := g.tenant, grid := g.grid, team := g.team, sup := g.sup,
    lpbase := g.lpbase, pc := g.s0.pc, lcore := g.lcore }

/-- Keys of an effect's location. -/
def sourceKeys (s : State) (x : Source) (sp : Space) (k : AccessKind) (ea : Addr) (n : Nat) : State × Option (List Nat) :=
  if sp.mapped then
    match xlateBytes s x.die x.core x.tenant x.sup k (byteAddrs x.lpbase x.lane sp ea n) with
    | (s, .ok ks) => (s, some ks)
    | (s, .error _) => (s, none)
  else (s, some (chipKeys s (x.team.bind (tget s.teams)) x.die x.core x.grid sp ea n))

/-- Whose an effect that is released is. -/
def Source.writer (x : Source) (cls : BitVec 4) : Writer :=
  { id := 0, gid := x.gid, agents := oneLane x.lane, eng := none, cls := cls, die := x.die, core := x.core, tenant := x.tenant, pol := 0#2 }

/-- What becomes of an effect that is released: it performs, waits, faults, or must first be answered by another module, where these bytes
are. -/
inductive Released where
  | done | waits | fault
  | away (ks : List Nat)
  deriving DecidableEq, Repr

/-- A push of one lane's element: a slot of its own, or a wait for room. -/
def releasePush (s : State) (x : Source) (acked : Bool) (sp : Space) (desc : Addr) (w : BitVec 3) (data : BitVec 64) : State × Released :=
  match sourceKeys s x sp .atomic desc 32 with
  | (s, none) => (s, .fault)
  | (s, some ks) =>
    let d := readRing s ks
    let n := d.pushRes
    if d.bad (elemSize w) then (s, .fault)
    else if !(decide ((n - d.head).toNat < d.count) && decide (d.tail = n)) then (s, .waits)
    else if isRemote ks && !acked then (s, .away ks)
    else
      match sourceKeys s x sp .write (d.elem n x.lane (elemSize w)) (elemSize w) with
      | (s, none) => (s, .fault)
      | (s, some es) =>
        let put := fun s ks bs => storeBy s (x.writer 4#4) ks bs
        let s := l1Patches (put s es (toBytes data (elemSize w))) x.die x.core es (toBytes data (elemSize w))
        let s := put (l1Drops s x.die x.core ks) ((ks.drop 16).take 4) (toBytes (n + 1#32) 4)
        (put s ((ks.drop 20).take 4) (toBytes (n + 1#32) 4), .done)

/-- An atomic that is released, on its way to its home. -/
def releaseAcc (s : State) (x : Source) (op : MemOp) (sp : Space) (w : BitVec 3) (ea : Addr) (ks : List Nat) (data data2 : BitVec 64) (idx : BitVec 128) :
    State :=
  let (id, s) := s.nextId
  { s with accs := s.accs ++ [
      { id := id, parent := id, gid := x.gid, agents := oneLane x.lane, die := x.die, core := x.core, tenant := x.tenant, op := op, space := sp,
        w := w, pol := 0#2, keys := ks, off := 0, data := data, data2 := data2, ctr := 0#2, mse := [], reserve := [], got := [],
        admitted := false, inReserve := false, rejected := false, age := 0, idx := idx, grid := x.grid, s1 := false, trap := false, va := ea }] }

/-- One effect performs, a release once the lane's accesses before it have. An atomic goes on its way, to perform after the lane's earlier
accesses as any atomic does (R89), an ordered one to the buffer of its home. `acked` says that another module has answered (R109). -/
def releaseOne (s : State) (x : Source) (acked : Bool) (idx : BitVec 128) (e : Effect) : State × Released :=
  match e with
  | .atomic op w sp ea data data2 =>
    match sourceKeys s x sp .atomic ea (elemSize w) with
    | (s, none) => (s, .fault)
    | (s, some ks) => (releaseAcc s x (.atomic op) sp w ea ks data data2 idx, .done)
  | .ordered op w ea data =>
    match sourceKeys s x .g .atomic ea (elemSize w) with
    | (s, none) => (s, .fault)
    | (s, some ks) => (releaseAcc s x (.ordered op) .g w ea ks data 0#64 idx, .done)
  | .futFill sp ea data =>
    match sourceKeys s x sp .atomic ea 8 with
    | (s, none) => (s, .fault)
    | (s, some ks) =>
      if !released s x.gid x.die (oneLane x.lane) (naturalScope sp) s.seqNo then (s, .waits)
      else if isRemote ks && !acked then (s, .away ks)
      else if futFull (ks.map (homeByte s)) then (s, .fault)
      else (storeBy (l1Drops s x.die x.core ks) (x.writer 14#4) ks (toBytes (data ||| (1#64 <<< 63)) 8), .done)
  | .push sp desc w data =>
    if released s x.gid x.die (oneLane x.lane) (naturalScope sp) s.seqNo then releasePush s x acked sp desc w data else (s, .waits)
  | .spawn entry arg i =>
    if dequeRoom s x.lcore 1 then
      (pushTasks s x.lcore [{ grid := x.grid, entry := entry, arg := arg, idx := i, after := priorOf s x.gid x.die (oneLane x.lane) }], .done)
    else (s, .waits)

/-- An effect's flit leaves for another module. -/
def sendEffect (s : State) (x : Source) (ks : List Nat) : Nat × State :=
  let (id, s) := s.nextId
  (id, { s with flits := s.flits ++ [
      { id := id, parent := id, gid := x.gid, agents := oneLane x.lane, eng := none, die := x.die, core := x.core, tenant := x.tenant, retries := 0,
        keys := ks, bytes := [], s1 := false, trap := false, va := 0#80, ctr := 0#2, mse := [], reserve := [] }] })

/-- A fault at release halts the group with cause task-fault (R292). -/
def releaseFault (s : State) (x : Source) : State :=
  match s.group? x.gid with
  | some g => haltGroup s x.gid cTaskFault (g.slot false).pc (oneLane x.lane)
  | none =>
    (appendRecord s x.die
      { addr := x.pc, cause := cTaskFault, kind := 6#8, tenant := x.tenant, core := x.core, place := 0#8,
        mask := oneLane x.lane, seq := 0#32 }).1

def State.modGrid (s : State) (grid : Nat) (f : Grid → Grid) : State :=
  match tget s.grids grid with
  | some g => { s with grids := tset s.grids grid (f g) }
  | none => s

/-- A lane's log performs in program order; what must wait stays with the grid, and what follows it too. -/
def releaseLog (s : State) (x : Source) (idx : BitVec 128) : List Effect → State
  | [] => s
  | e :: r =>
    let keep := fun (s : State) (flit : Option (Nat × Bool)) =>
      s.modGrid x.grid fun g => { g with late := g.late ++ ⟨x, e, idx, flit⟩ :: r.map fun e => ⟨x, e, idx, none⟩ }
    match releaseOne s x false idx e with
    | (s, .done) => releaseLog s x idx r
    | (_, .waits) => keep s none
    | (s, .away ks) => let (n, s) := sendEffect s x ks; keep s (some (n, false))
    | (s, .fault) => releaseFault s x

/-! ### Retiring indices (R73, R270) -/

/-- The number of a team lane among its grid's. -/
def laneNo (idx : BitVec 128) : Nat := (idx.extractLsb' 96 32).toNat

/-- Team lanes below `low` have all retired. -/
def foldRetired (low : Nat) : List Nat → Nat × List Nat
  | [] => (low, [])
  | x :: r => if x = low then foldRetired (low + 1) r else (low, x :: r)

/-- An index retires: it leaves the grid's account, and in record and verify modes its digest is kept for the log. A team lane that
retires again after a rewind (R294) has left it. -/
def Grid.retire (g : Grid) (team verify : Bool) (r : Retiree) : Grid :=
  let g :=
    if team then
      if laneNo r.idx < g.low ∨ g.retired.contains (laneNo r.idx) then g else
      let (low, rest) := foldRetired g.low (insertSorted (laneNo r.idx) g.retired)
      { g with low := low, retired := rest }
    else { g with liveTasks := g.liveTasks.filter fun i => i ≠ r.idx }
  if verify && g.record.det then { g with digests := g.digests ++ [r] } else g

/-- The tasks that a log spawns join the grid's account. -/
def Grid.expectKids (g : Grid) (log : List Effect) : Grid :=
  let kids := log.filterMap fun e => match e with | .spawn _ _ i => some i | _ => none
  { g with liveTasks := g.liveTasks ++ kids, tasks := g.tasks + kids.length }

/-- The tasks of a log that is discarded leave the account (R294). -/
def Grid.dropKids (g : Grid) (log : List Effect) : Grid :=
  let kids := log.filterMap fun e => match e with | .spawn _ _ i => some i | _ => none
  { g with liveTasks := g.liveTasks.filter fun i => !kids.contains i, tasks := g.tasks - kids.length }

/-- A lane's log is emptied; a region that is open has kept none of it. -/
def Group.clearLog (g : Group) (l : Lane) : Group :=
  { g with effects := setLanes g.effects (oneLane l.val) fun _ => [],
           region := g.region.map fun r => { r with logs := setLanes r.logs (oneLane l.val) fun _ => 0 } }

/-- The index of a lane retires and its log is released, or kept for the comparison of its digest (R292, R294). A lane whose index has
retired before releases what it has logged since; in a replay of another lane's region that is the same log again, and it is dropped. -/
def retireLane (s : State) (gid : Nat) (l : Lane) : State :=
  match s.group? gid with
  | none => s
  | some g =>
    let x := sourceOf gid g l
    let log := g.effects[l]
    if g.sup then s
    else if g.retiredIdx.getLsbD l.val then
      if log.isEmpty then s
      else if g.replayed ≠ 0#96 then s.setGroup gid (g.clearLog l)
      else releaseLog ((s.setGroup gid (g.clearLog l)).modGrid g.grid fun gr => gr.expectKids log) x g.lidx[l] log
    else
      let mode := (s.tenant g.tenant).dgmode
      let keep := mode = 2#2 && g.det
      let ret : Retiree :=
        { idx := g.lidx[l], digest := g.digest[l], task := if g.team.isSome then none else g.tasks[l.val]?, src := x,
          effects := if keep then log else [], escaped := match g.region with | some r => r.escaped | none => false }
      let s := s.setGroup gid { g.clearLog l with retiredIdx := g.retiredIdx ||| oneLane l.val }
      let s := s.modGrid g.grid fun gr => (gr.expectKids log).retire g.team.isSome (decide (mode ≠ 0#2)) ret
      if keep then s else releaseLog s x g.lidx[l] log

def retireLanes (s : State) (gid : Nat) (m : Mask) : State := (lanesOf m).foldl (fun s l => retireLane s gid l) s

/-- The lowest of some indices. -/
def lowestIdx (l : List (BitVec 128)) : Option (BitVec 128) :=
  l.foldl (fun (b : Option (BitVec 128)) i => match b with | none => some i | some x => some (if i < x then i else x)) none

/-- The indices of a grid that have not retired: the lowest team lane, and the tasks. -/
def Grid.unretired (g : Grid) : List (BitVec 128) :=
  (if g.low < g.record.teams * g.record.groups * 96 then [BitVec.ofNat 128 (g.low * 2 ^ 96)] else []) ++ g.liveTasks

def Effect.isOrdered : Effect → Bool
  | .ordered _ _ _ _ => true
  | _ => false

/-- The floor as the home slices come to know it: the lowest index that has not retired, or whose ordered atomics have not all been applied
(R73, R116): those in flight, those that wait behind a full ring or deque, and those that wait for the comparison of their digest. -/
def computeFloor (s : State) (grid : Nat) (g : Grid) : Option (BitVec 128) :=
  lowestIdx (g.unretired ++
    (s.accs.filterMap fun a => match a.op with
      | .ordered _ => if a.grid = grid then some a.idx else none
      | _ => none) ++
    ((g.late.filter fun e => e.eff.isOrdered).map fun e => e.idx) ++
    ((g.digests.filter fun r => r.effects.any Effect.isOrdered).map fun r => r.idx))

/-! ### Barriers (R174) -/

def Group.mapSlots (g : Group) (f : Slot → Slot) : Group :=
  { g with s0 := f g.s0, s1 := f g.s1, frame := g.frame.map fun fr => { fr with s0 := f fr.s0, s1 := f fr.s1 } }

def Group.anySlot (g : Group) (p : Slot → Bool) : Bool :=
  p g.s0 || p g.s1 || (match g.frame with | some fr => p fr.s0 || p fr.s1 | none => false)

/-- Has the phase in which the slot last arrived at the barrier completed? -/
def Slot.arrival (sl : Slot) (id : Nat) : Option Bool := tget sl.arrived id

/-- A slot whose wait at a barrier is over. -/
def Slot.barDone (sl : Slot) : Bool :=
  match sl.wait with
  | .bar id => decide (sl.arrival id = some true)
  | _ => false

/-- The wait ends: the arrival is used up, and the slot goes on. -/
def Slot.barRelease (sl : Slot) : Slot :=
  match sl.wait with
  | .bar id => if sl.barDone then { sl.advance false with arrived := tdel sl.arrived id } else sl
  | _ => sl

/-- Every slot of a group whose barrier wait is over goes on, with the order and the invalidation of an acquire. -/
def releaseBars (s : State) (gid : Nat) : State :=
  match s.group? gid with
  | none => s
  | some g =>
    let slots := [g.s0, g.s1] ++ (match g.frame with | some fr => [fr.s0, fr.s1] | none => [])
    let due := slots.filter Slot.barDone
    if due.isEmpty then s
    else
      let s := s.setGroup gid (g.mapSlots Slot.barRelease)
      let s := due.foldl (fun s sl => s.ctrDown gid sl.wctr) s
      l1Invalidate s g.die g.core

/-- A phase of the barrier completes when its arrivals reach its count. -/
def settleBar (s : State) (tid id : Nat) : State :=
  match tget s.teams tid with
  | none => s
  | some t =>
    if h : id < 16 then
      let b := t.bars[id]
      if 0 < b.arrivals ∧ (if b.all then t.groups.length else b.expected) ≤ b.arrivals then
        let b' : Barrier := { phase := !b.phase, arrivals := 0, expected := 0, all := false }
        let s := { s with teams := tset s.teams tid { t with bars := t.bars.set id b' } }
        t.groups.foldl (fun s gid =>
          let s := s.modGroup gid fun g => g.mapSlots fun sl =>
            { sl with arrived := sl.arrived.map fun a => if a.1 = id then (id, true) else a }
          releaseBars s gid) s
      else s
    else s

def settleBars (s : State) (tid : Nat) : State := (List.range 16).foldl (fun s id => settleBar s tid id) s

/-! ### Waits that end -/

/-- The slots of one number that satisfy `p` change: the group's own, and the one that a trap froze (R280). -/
def State.modWaiting (s : State) (gid : Nat) (s1 : Bool) (p : Slot → Bool) (f : Slot → Slot) : State :=
  s.modGroup gid fun g =>
    let on := fun sl : Slot => if p sl then f sl else sl
    let g := g.modSlot s1 on
    { g with frame := g.frame.map fun fr => if s1 then { fr with s1 := on fr.s1 } else { fr with s0 := on fr.s0 } }

/-- A wait of a slot is over: the slot goes on past its word, and the word's counter falls. -/
def State.endWait (s : State) (gid : Nat) (s1 : Bool) (p : SlotWait → Bool) (res : Bool) (ctr : BitVec 2) : State :=
  (s.modWaiting gid s1 (fun sl => p sl.wait) fun sl => sl.advance res).ctrDown gid ctr

/-! ### A stepper's run ends (R238, R250, R251) -/

/-- The entries of an owner leave a core's Range-Lock Table (R69). -/
def dropLocks (s : State) (die core : Nat) (o : LockOwner) : State :=
  let c := s.core die core
  s.setCore die core { c with rlt := c.rlt.filter fun l => l.owner ≠ o }

/-- The die of a context. -/
def ctxDie (c : Nat) : Nat := c / 32

/-- The words that a group finds in k8 to k15, and its call registers (R249). -/
def putCall (g : Group) (s1 : Bool) (k : List Word32) (callhi : Word32) (h g' : Word64) : Group :=
  let g := (k.zipIdx).foldl (fun g x => g.kwrite s1 (8 + x.2) x.1) g
  { g with callhi := callhi, callh := h, callg := g' }

/-- Routine 3: the run is over. -/
def putOver (g : Group) (s1 : Bool) : Group :=
  putCall g s1 [3#32, 0#32, 0#32, 0#32, 0#32, 0#32, 0#32, 0#32] 0#32 0#64 0#64

/-- A slot that waits in step.wait receives its record, and goes on with acquire order (R115, R250). -/
def giveCall (s : State) (gid : Nat) (w : Bool × Bool) (put : Group → Group) : State :=
  match s.group? gid with
  | none => s
  | some g =>
    let ctr := (g.slotIn w.1 w.2).wctr
    (l1Invalidate (s.setGroup gid ((put g).modSlotIn w.1 w.2 fun sl => sl.advance false)) g.die g.core).ctrDown gid ctr

/-- The slots in which a group waits in step.wait, each with whether it runs in trap mode: a frozen one may be among them. -/
def Group.stepWaits (g : Group) : List (Bool × Bool) :=
  (if g.trapMode then [(false, true), (true, true), (false, false), (true, false)] else [(false, false), (true, false)]).filter fun w =>
    decide ((g.slotIn w.1 w.2).wait = .step)

/-- The slots of a team that wait in step.wait, with their groups. -/
def stepWaiters (s : State) (tid : Nat) : List (Nat × Bool × Bool) :=
  match tget s.teams tid with
  | none => []
  | some t => t.groups.flatMap fun gid =>
    match s.group? gid with
    | some g => g.stepWaits.map fun w => (gid, w)
    | none => []

/-- A context whose run has stopped: what was outstanding is dropped. -/
def StepCtx.end (x : StepCtx) (status event : BitVec 8) : StepCtx :=
  { x with st := .stopped, status := status, event := event, phase := .off, owing := [], toTake := [], settling := [],
           openIn := none, openOut := none, stopReq := false, run := none, stopped := none, ill := none }

/-- Is the group of the serving role that a context's binding names (R239)? -/
def StepCtx.serves (x : StepCtx) (g : Group) : Bool := match x.bind with | some b => b.role = g.role | none => false

/-- Every serving group of a context that waits receives routine 3 (R250, R251). -/
def callOver (s : State) (x : StepCtx) : State :=
  ((stepWaiters s x.team).filter fun w => match s.group? w.1 with | some g => x.serves g | none => false).foldl
    (fun s w => giveCall s w.1 w.2 fun g => putOver g w.2.1) s

/-- A run stops: its status and event are kept, its locks are released, what was outstanding is dropped, and every waiting serving
group receives routine 3 (R251). -/
def stopRun (s : State) (c : Nat) (status event : BitVec 8) : State :=
  match tget s.ctxs c with
  | none => s
  | some x =>
    let s := match x.run with
      | some r => dropLocks s (ctxDie c) r.1 (.step c)
      | none => s
    callOver { s with ctxs := tset s.ctxs c (x.end status event) } x

/-- A serving group retires: a run of its team's context stops. -/
def servingLost (s : State) (tid role : Nat) : State :=
  match (tget s.teams tid).bind Team.ctx with
  | none => s
  | some c =>
    match tget s.ctxs c with
    | none => s
    | some x =>
      if x.st = .running && (match x.bind with | some b => b.role = role | none => false) then stopRun s c 0x08#8 0xFF#8 else s

/-! ### Changes of owner (R319) -/

/-- Is an owner byte one that tenant `t` may stay under? -/
def ownerAdmits (o : BitVec 8) (t : Nat) : Bool := o = 0xFF#8 || decide ((o.extractLsb' 0 6).toNat = t)

/-- The new owner of a quadrant, once no group of another tenant is resident; the matrix state is reset. -/
def settleQuad (s : State) (die : Nat) (p : Nat × BitVec 8) : State :=
  if (s.onQuad die (p.1 / 4) (p.1 % 4)).any fun g => !ownerAdmits p.2 g.2.tenant then s
  else
    let d := s.die die
    let s := s.setDie die { d with quadOwner := tset d.quadOwner p.1 p.2, quadNext := tdel d.quadNext p.1 }
    resetUnit s die (p.1 / 4) (p.1 % 4)

/-- Does a team of a tenant that `o` does not let in hold bytes of bank `b` of a core? -/
def bankTaken (s : State) (die core b : Nat) (o : BitVec 8) : Bool :=
  s.teams.any fun t =>
    let base := t.2.scBase.getD (core % 8) 0
    t.2.die = die && t.2.clu = core / 8 && decide (0 < t.2.scSize ∧ base < (b + 1) * 2 ^ 17 ∧ b * 2 ^ 17 < base + t.2.scSize) &&
      (match tget s.grids t.2.grid with | some gr => !ownerAdmits o gr.tenant | none => true)

def settleBank (s : State) (die : Nat) (p : Nat × BitVec 8) : State :=
  if bankTaken s die (p.1 / 8) (p.1 % 8) p.2 then s
  else
    let d := s.die die
    s.setDie die { d with bankOwner := tset d.bankOwner p.1 p.2, bankNext := tdel d.bankNext p.1 }

/-- Every change of owner that nothing delays any more takes effect. -/
def settleOwners (s : State) : State :=
  s.dies.foldl (fun s d =>
    let s := d.2.quadNext.foldl (fun s p => settleQuad s d.1 p) s
    d.2.bankNext.foldl (fun s p => settleBank s d.1 p) s) s

/-! ### Groups and teams end (R140, R224) -/

/-- The matrix unit of a quadrant is free again, at the values of R224 and with an empty fork queue, once no group of the team that held it
is there. -/
def freeMatrix (s : State) (die core quad : Nat) (tid : Nat) : State :=
  if (s.onQuad die core quad).any fun p => p.2.team = some tid then s
  else if (s.quad die core quad).mx.holder = some tid then resetUnit s die core quad
  else s

/-- The scratchpad bytes of a team, core by core: first key and length. -/
def scratchRanges (t : Team) : List (Nat × Nat) :=
  (List.range 8).map fun c => (sramKey t.die (8 * t.clu + c) (t.scBase.getD c 0), t.scSize)

/-- Stores and atomics to a team's scratchpad that have not performed are gone with it (R340). -/
def dropScratch (s : State) (t : Team) : State :=
  let there := fun ks : List Nat => ks.any fun k => (scratchRanges t).any fun r => decide (r.1 ≤ k ∧ k < r.1 + r.2)
  { s with stores := s.stores.filter fun r => !there r.keys, accs := s.accs.filter fun a => !there a.keys }

/-- A team whose groups have all retired ends: its scratchpad, its barriers and its context are free. -/
def endTeam (s : State) (tid : Nat) : State :=
  match tget s.teams tid with
  | none => s
  | some t =>
    if t.groups.isEmpty then
      let s := match t.ctx with
        | some c => { stopRun s c 0x04#8 0xFF#8 with ctxs := tdel (stopRun s c 0x04#8 0xFF#8).ctxs c }
        | none => s
      { dropScratch s t with teams := tdel s.teams tid }.modGrid t.grid fun g => { g with ended := g.ended + 1 }
    else s

/-- A group without a live, waiting or parked lane retires: its units return untagged and its slot is free. -/
def retireGroup (s : State) (gid : Nat) : State :=
  match s.group? gid with
  | none => s
  | some g =>
    if g.liveMask ≠ 0#96 || g.halted then s
    else
      let s := { s with groups := tdel s.groups gid }
      let s := s.modGrid g.grid fun gr =>
        { gr with digests := gr.digests.map fun r =>
            if r.src.gid = gid then { r with digest := g.digest[(Fin.ofNat 96 r.src.lane : Lane)] } else r }
      match g.team with
      | none => settleOwners s
      | some tid =>
        let s := match tget s.teams tid with
          | some t => { s with teams := tset s.teams tid { t with groups := t.groups.filter fun x => x ≠ gid } }
          | none => s
        let s := servingLost (freeMatrix s g.die g.core g.quad tid) tid g.role
        settleOwners (endTeam (settleBars s tid) tid)

/-- The tasks of gathered lanes end. -/
def endTasks (s : State) (g : Group) (m : Mask) : State :=
  if g.team.isSome || g.sup then s
  else s.modGrid g.grid fun gr => { gr with tasks := gr.tasks - (lanesOf m).length }

/-- Lanes exit from a slot (R145, R172): they leave it and every expected mask, the stack is examined, their indices retire,
and a group without lanes retires. The slot has already passed its word. -/
def exitLanes (s : State) (gid : Nat) (s1 : Bool) (m : Mask) : State :=
  match s.group? gid with
  | none => s
  | some g =>
    let s := endTasks s g m
    let s := retireLanes s gid m
    match s.group? gid with
    | none => s
    | some g =>
      let g := examine s s1 ((g.leaveSlot s1 m).unexpect m)
      let s := s.putPaths gid g
      retireGroup s gid

/-- atomo.fin (R73): touches no memory; the lanes' indices retire. -/
def execAtomoFin (h : Head) (s : State) : Out :=
  gate (.atomoFin h) s fun s gid s1 g sl sh =>
    let m := execLanes g sl h
    match finished g m with
    | some (c, t) => .next (trapWord s gid s1 (.atomoFin h) sh c 0#8 t true)
    | none => .next (retireLanes (s.setGroup gid (g.done s1 sh)) gid m)

end Sys2Proof.Machine
end

