-- ==== Sys2Proof/Machine/Engines.lean ====
section
/-! DEFINITION. Programs on the engines: forking and joining them, their start and end, their faults, and the scalar block
that both sequencer classes share (R230, R295 to R302). -/

namespace Sys2Proof.Machine

/-! ### Programs -/

def State.prog? (s : State) (pid : Nat) : Option Prog := tget s.progs pid
def State.setProg (s : State) (pid : Nat) (p : Prog) : State := { s with progs := tset s.progs pid p }

/-- Two programs run on one engine (R297). -/
def sameEngine (a b : Prog) : Bool :=
  a.eng = b.eng && a.die = b.die && (a.eng = 2 || a.core = b.core && (a.eng = 1 || a.quad = b.quad))

/-- Programs that an engine runs at once, and the length of its queue (R297). -/
def engineLimits (eng : Nat) : Nat × Nat := match eng with | 0 => (1, 4) | 1 => (8, 8) | _ => (16, 64)

def engineRunning (s : State) (p : Prog) : Nat := (s.progs.filter fun x => sameEngine p x.2 && x.2.running && !x.2.ended).length
def engineQueued (s : State) (p : Prog) : List Nat :=
  (s.progs.filter fun x => sameEngine p x.2 && !x.2.running && !x.2.ended).map Prod.fst

/-- The engine's class of clauses (R10). -/
def Prog.cls (p : Prog) : BitVec 3 := if p.eng = 0 then 2#3 else 3#3

/-- Accesses of a slot's lanes that have not performed (R111); a prefetch belongs to no lane. -/
def pendingOf (s : State) (gid : Nat) (m : Mask) : List Nat :=
  ((s.accs.filter fun a => a.gid = gid && a.agents &&& m ≠ 0#96).map Acc.id) ++
    ((s.stores.filter fun r => r.gid = gid && r.agents &&& m ≠ 0#96).map StoreRec.id) ++
    ((s.flits.filter fun x => x.gid = gid && x.agents &&& m ≠ 0#96).map Flit.id)

def stillPending (s : State) (ids : List Nat) : Bool :=
  ids.any fun n => (s.accs.any fun a => a.id = n) || (s.stores.any fun r => r.id = n) || s.flits.any fun x => x.id = n

/-! ### Engines as agents (R110, R112) -/

/-- An engine agent's stores: those of an operation by number, for the agent that a program, a copy or a run of the stepper is. -/
def engineWriter (id agent gid die core tenant : Nat) (pol : BitVec 2) : Writer :=
  { id := id, gid := gid, agents := 0#96, eng := some agent, cls := 1#4, die := die, core := core, tenant := tenant, pol := pol }

/-- A copy of the line in the core's L1 that is not lane-private is dropped (R110, R112). -/
def l1Shed (s : State) (die core : Nat) (ks : List Nat) : State :=
  ((ks.filter isGlobal).map lineOf).eraseDups.foldl (fun s ln =>
    match s.l1Line? die core ln with
    | some e => if e.lp then s else l1Remove s die core ln
    | none => s) s

/-- An engine writes bytes at their home; the forking core's L1 drops its copy of the lines. What goes to another module travels to it
(R109). -/
def engineStore (s : State) (w : Writer) (va : Addr) (ks : List Nat) (bs : List Byte) : State :=
  if isRemote ks then
    { s with seqNo := s.seqNo + 1, flits := s.flits ++ [
        { id := s.seqNo, parent := w.id, gid := w.gid, agents := 0#96, eng := w.eng, die := w.die, core := w.core, tenant := w.tenant,
          retries := 0, keys := ks, bytes := bs, s1 := false, trap := false, va := va, ctr := 0#2, mse := [], reserve := [] }] }
  else l1Shed (storeBy s w ks bs) w.die w.core ks

/-- Has the agent itself a store to the byte that other dies do not read yet? -/
def engineHeld (s : State) (agent k : Nat) : Bool := s.held.any fun h => h.w.eng = some agent && (tget h.old k).isSome

/-- What an engine reads at a key: never the L1, and its own stores at once, those that travel to another module among them (R110). -/
def engineByte (s : State) (agent die k : Nat) : Byte :=
  if !isGlobal k then memGet s.mem k
  else
    match (s.flits.filter fun f => f.eng = some agent).foldl (fun (o : Option Byte) f => (tget (f.keys.zip f.bytes) k).or o) none with
    | some v => v
    | none => if engineHeld s agent k then homeByte s k else dieByte s die k

/-- An engine reads bytes, by way of its die's L2 (R60, R61). -/
def engineRead (s : State) (w : Writer) (ks : List Nat) : State × List Byte :=
  let s := (ks.filter isGlobal).foldl (fun s k => l2Read s w.die w.tenant w.pol k) s
  (s, ks.map (engineByte s (w.eng.getD 0) w.die))

/-- The stores of an agent that have still to perform: those held back from other dies, and those on their way to another module. -/
def agentStores (s : State) (agent : Nat) : List Nat :=
  ((s.held.filter fun h => h.w.eng = some agent).map fun h => h.w.id) ++ ((s.flits.filter fun x => x.eng = some agent).map Flit.id)

/-- Everything that an agent has stored has performed for the agents of a die. -/
def agentLanded (s : State) (die agent : Nat) : Bool :=
  !(s.flits.any fun x => x.eng = some agent) && !(s.held.any fun h => h.w.eng = some agent && h.die ≠ die)

/-- The stores of an operation have performed at the engine's natural scope: for the agents of its die (R110, R112). -/
def landed (s : State) (die id : Nat) : Bool :=
  !(s.flits.any fun x => x.eng.isSome && x.parent = id) && !(s.held.any fun h => h.w.eng.isSome && h.w.id = id && h.die ≠ die)

/-! ### Engine faults (R299) -/

/-- The details of R299. -/
def dIllegalHeader : BitVec 8 := 0x01#8
def dIllegalInstruction : BitVec 8 := 0x02#8
def dAddressRange : BitVec 8 := 0x07#8
def dAlignment : BitVec 8 := 0x08#8
def dMatrixNotHeld : BitVec 8 := 0x14#8
def dFormatMismatch : BitVec 8 := 0x40#8
def dFabric : BitVec 8 := 0x41#8
def dEndedBySupervisor : BitVec 8 := 0x42#8
def dCollectiveMismatch : BitVec 8 := 0x43#8

/-- The operations of a program stop, and their locks are released. -/
def dropOps (s : State) (pid : Nat) : State :=
  let mine := s.copies.filter fun c => c.pid = some pid
  let s := mine.foldl (fun s c => dropLocks s c.die c.core (.copy c.id)) s
  { s with copies := s.copies.filter fun c => c.pid ≠ some pid,
           quads := s.quads.map fun q =>
             (q.1, { q.2 with mx := { q.2.mx with next := match q.2.mx.next with
               | some w => if w.pid = pid then none else some w
               | none => none } }) }

/-- A program that has faulted, and its fault (R299). -/
def Prog.failed (p : Prog) (detail : BitVec 8) : Prog :=
  { p with ended := true, running := false, status := (p.status &&& 0x10000#32) ||| (0#16 ++ detail ++ 1#8), stopped := none }

def Prog.fault (p : Prog) (detail : BitVec 8) (addr : Addr) : EngineFault :=
  { gid := p.gid, s1 := p.s1, detail := detail, addr := addr, handle := p.handle, ctr := p.ctr, cont := false, trap := p.trap,
    die := p.die, core := p.core, tenant := p.tenant, place := p.place }

/-- A program faults: it ends, its operations stop, its counter settles, and the fault waits for the slot that forked it. -/
def progFault (s : State) (pid : Nat) (detail : BitVec 8) (addr : Addr) : State :=
  match s.prog? pid with
  | none => s
  | some p =>
    let s := dropOps s pid
    let s := s.setProg pid (p.failed detail)
    let f := p.fault detail addr
    settleFences ({ s with efaults := s.efaults ++ [f] }.settleCtr p.gid p.ctr)

/-- A translation of an engine fails: the access stops, and a record of kind 5 is appended (R300). -/
def stopRecord (s : State) (die core tenant : Nat) (place : BitVec 8) (va : Addr) (c : PageFault) : State × Word32 :=
  appendRecord s die
    { addr := va, cause := c.code, kind := 5#8, tenant := tenant, core := core, place := place, mask := 0#96, seq := 0#32 }

def stopProg (s : State) (pid : Nat) (va : Addr) (c : PageFault) : State :=
  match s.prog? pid with
  | none => s
  | some p =>
    let (s, seq) := stopRecord s p.die p.core p.tenant p.place va c
    s.setProg pid { p with stopped := some (p.die, seq), stopVa := va }

/-- The fault that is delivered at a word: it is taken off the list, its registers are set, and the group traps there. -/
def deliverFault (s : State) (gid : Nat) (s1 : Bool) (f : EngineFault) (dst : Word32) (word : Word64) (res : Bool) : State :=
  let rec once : List EngineFault → List EngineFault
    | [] => []
    | x :: r => if x = f then r else x :: once r
  let s := { s with efaults := once s.efaults }
  match s.group? gid with
  | none => s
  | some g =>
    let sl := g.slot s1
    let s := s.setGroup gid { g with efa := f.addr, efh := f.handle }
    takeTrap s gid s1 { cause := cEngineFault, detail := f.detail, mask := sl.mask, whole := true, res := res } dst word sl.mask

/-- Does the clause of a header name the fault's counter? -/
def headerWaits (x : Word64) (ctr : BitVec 2) : Bool :=
  match decodeHeader x with
  | .ok (.clauseIssue _ _ wait _) => ctr ≠ 0#2 && wait.getLsbD (ctr.toNat - 1)
  | _ => false

/-- The fault that the slot takes at the word where it stands (R299): at a header, unless its clause waits for the fault's
counter; at the first word of such a clause. -/
def dueFault (s : State) (gid : Nat) (s1 : Bool) : Option EngineFault :=
  match s.group? gid with
  | none => none
  | some g =>
    let sl := g.slot s1
    let at_ := if sl.left = 0 then sl.pc else sl.header
    if sl.isEmpty || !(sl.wait = .ready || sl.wait = .other) || (sl.left ≠ 0 && sl.pos ≠ 0) then none
    else
      s.efaults.find? fun f => f.gid = gid && f.s1 = s1 && f.trap = g.trapMode &&
        (let named := match peekWord s g at_ with | some x => headerWaits x f.ctr | none => false
         if sl.left = 0 then !named else named)

/-- ENGINE_FAULT_DELIVERY: at the word where the slot stands, or a record where the slot owns no lane or the group has
retired. -/
def execEngineFaultDelivery (gid : Nat) (s1 : Bool) (s : State) : Out :=
  match dueFault s gid s1 with
  | some f =>
    match s.group? gid with
    | none => .next s
    | some g =>
      let sl := g.slot s1
      let word := (peekWord s g sl.pc).getD 0#64
      let sh := match (if sl.left = 0 then .error .illegalHeader else decode sl.cls word) with
        | .ok i => wordShape i
        | .error _ => none
      .next (deliverFault s gid s1 f (match sh with | some x => tdstOf x | none => 0#32) word
        (match sh with | some x => x.res | none => false))
  | none =>
    let gone := match s.group? gid with
      | some g => (g.slot s1).isEmpty && !(match g.frame with | some fr => !(if s1 then fr.s1 else fr.s0).isEmpty | none => false)
      | none => !(s.saved.any fun x => x.groups.any fun g => g.1 = gid)
    match s.efaults.find? fun f => f.gid = gid && f.s1 = s1 with
    | some f =>
      if !gone then .next s
      else
        let s := { s with efaults := s.efaults.filter fun x => x ≠ f }
        let regs := match s.group? gid with | some g => (g.treg.pc, g.treg.mask) | none => (0#80, 0#96)
        .next (appendRecord s f.die
          { addr := regs.1, cause := cEngineFault, kind := 6#8, tenant := f.tenant, core := f.core, place := f.place, mask := regs.2,
            seq := 0#32 }).1
    | none => .next s

/-! ### fork and rdv (R296 to R298) -/

/-- A program as a fork describes it. -/
def mkProg (s : State) (gid : Nat) (s1 : Bool) (g : Group) (sl : Slot) (h : Head) (eng : Nat) (seq : BitVec 16) (a b : BitVec 8)
    (n : Nat) : Prog :=
  let quad : BitVec 2 := if eng = 0 then BitVec.ofNat 2 g.quad else 0#2
  { eng := eng, die := g.die, core := g.core, quad := g.quad, gid := gid, s1 := s1, team := g.team, grid := g.grid,
    tenant := g.tenant, handle := BitVec.ofNat 2 eng ++ quad ++ BitVec.ofNat 6 g.core ++ 0#6 ++ seq, pc := readTriple g sl a,
    header := readTriple g sl a, left := 0,
    s := Vector.ofFn fun i : Fin 16 => if i.val < n then readTriple g sl (b + BitVec.ofNat 8 (3 * i.val)) else 0#80,
    running := false, sent := false, ended := false, status := 0#32, ctr := h.ctr, stopped := none, stopVa := 0#80, trap := g.trapMode,
    after := pendingOf s gid sl.owned, place := placeByte g false s1 }

/-- The engine's fork sequence, and the state with it advanced. -/
def takeSeq (s : State) (g : Group) (eng : Nat) : BitVec 16 × State :=
  if eng = 2 then
    let d := s.die g.die
    (d.cleSeq, s.setDie g.die { d with cleSeq := d.cleSeq + 1#16 })
  else
    let c := s.core g.die g.core
    let i : Fin 5 := if eng = 1 then 4 else Fin.ofNat 5 (g.quad % 4)
    (c.seqs[i], s.setCore g.die g.core { c with seqs := c.seqs.set i (c.seqs[i] + 1#16) })

def forkWord (i : Instr) (h : Head) (eng : Nat) (a b : BitVec 8) (n : BitVec 3) (s : State) : Out :=
  gate i s fun s gid s1 g sl sh =>
    let m := execLanes g sl h
    if m = 0#96 then .next (s.setGroup gid (g.done s1 sh))
    else
      let (seq, s') := takeSeq s g eng
      let p := mkProg s gid s1 g sl h eng seq a b n.toNat
      if (engineLimits eng).2 ≤ (engineQueued s p).length then .next (s.modSlot gid s1 fun x => { x with wait := .other })
      else
        let (pid, s') := s'.nextId
        let g := ((g.putResult s1 sh m true fun _ => p.handle).ctrUp h.ctr).done s1 sh
        .next ((s'.setGroup gid g).setProg pid p)

def execForkMx (h : Head) (d : BitVec 8) (a : Triple) (b : BitVec 8) (n : BitVec 3) (s : State) : Out :=
  forkWord (.forkMx h d a b n) h 0 a b n s
def execForkCp (h : Head) (d : BitVec 8) (a : Triple) (b : BitVec 8) (n : BitVec 3) (s : State) : Out :=
  forkWord (.forkCp h d a b n) h 1 a b n s
def execForkCl (h : Head) (d : BitVec 8) (a : Triple) (b : BitVec 8) (n : BitVec 3) (s : State) : Out :=
  forkWord (.forkCl h d a b n) h 2 a b n s

/-- A queued program starts (R111, R230, R297). -/
def execEngineProgramStart (pid : Nat) (s : State) : Out :=
  match s.prog? pid with
  | none => .next s
  | some p =>
    let first := decide ((engineQueued s p).head? = some pid)
    let room := decide (engineRunning s p < (engineLimits p.eng).1)
    if p.running || p.ended || !first || !room || stillPending s p.after then .next s
    else .next (s.setProg pid { p with running := true })

/-- Every operation of a program has completed. -/
def opsDone (s : State) (pid : Nat) (p : Prog) : Bool :=
  !(s.copies.any fun c => c.pid = some pid) && landed s p.die pid &&
    (p.eng ≠ 0 || (let u := (s.quad p.die p.core p.quad).mx; u.op.isNone && u.next.isNone))

/-- A program that has executed send ends once its operations have completed (R298, R301). -/
def execEngineProgramEnd (pid : Nat) (s : State) : Out :=
  match s.prog? pid with
  | none => .next s
  | some p =>
    if !p.running || p.ended || !p.sent || !opsDone s pid p then .next s
    else .next (settleFences ((s.setProg pid { p with ended := true, running := false }).settleCtr p.gid p.ctr))

/-- The program that a handle names for a group: among the last 32,768 forks that its team made to that engine (R298). -/
def findProg (s : State) (gid : Nat) (g : Group) (hd : Word32) : Option Prog :=
  let engine := fun p : Prog => p.handle.extractLsb' 28 4 = hd.extractLsb' 28 4 &&
    (p.eng = 2 || decide (p.handle.extractLsb' 22 6 = hd.extractLsb' 22 6))
  let mine := s.progs.filter fun p => p.2.team = g.team && (g.team.isSome || p.2.gid = gid) && engine p.2
  let last := mine.drop (mine.length - 32768)
  (last.reverse.find? fun p => p.2.handle = hd).map Prod.snd

/-- rdv: the fault of its program is delivered here; a program that has not ended holds the slot. -/
def execRdv (h : Head) (d : Dst) (a : Src) (s : State) : Out :=
  gate (.rdv h d a) s fun s gid s1 g sl sh =>
    let m := execLanes g sl h
    if m = 0#96 then .next (s.setGroup gid (g.done s1 sh))
    else
      let hd := sl.capt.getD (readOnce s g sl m a 32)
      match s.efaults.find? fun f => f.gid = gid && f.s1 = s1 && f.handle = hd && f.trap = g.trapMode with
      | some f => .next (deliverFault s gid s1 f (tdstOf sh) ((encode (.rdv h d a)).getD 0#64) sh.res)
      | none =>
        let finish := fun v : Word32 =>
          .next (naturalAcquire (s.setGroup gid ((g.putResult s1 sh m true fun _ => v).done s1 sh)) g .g)
        match findProg s gid g hd with
        | none => finish 2#32
        | some p =>
          if p.ended then finish p.status
          else .next (s.modSlot gid s1 fun x => { x with wait := .other, capt := some hd })

/-! ### Sequencer words -/

/-- The program whose turn it is. -/
def progGate (s : State) (k : Nat → Prog → Out) : Out :=
  match s.cur with
  | .prog pid =>
    match s.prog? pid with
    | some p => k pid p
    | none => .fault .noIssuer
  | _ => .fault .noIssuer

/-- The program passes its word. -/
def Prog.next (p : Prog) : Prog := { p with pc := p.pc + 8#80, left := p.left - 1 }

def Prog.reg (p : Prog) (r : SReg) : Addr := p.s[(Fin.ofNat 16 r.toNat)]
def Prog.setReg (p : Prog) (r : SReg) (v : Addr) : Prog := { p with s := p.s.set (Fin.ofNat 16 r.toNat) v }

def seqWord (s : State) (f : Prog → Prog) : Out := progGate s fun pid p => .next (s.setProg pid (f p).next)

/-- The conditions of R25. -/
def seqCond (c : BitVec 3) (a b : Addr) : Bool :=
  match c.toNat with
  | 0 => a = b | 1 => a ≠ b | 2 => a.toInt < b.toInt | 3 => b.toInt ≤ a.toInt | 4 => a < b | 5 => b ≤ a | _ => true

/-- The word at a code address of a program, without side effects. -/
def progPeek (s : State) (p : Prog) (a : Addr) : Option Word64 :=
  match xlateBytes s p.die p.core p.tenant false .fetch ((List.range 8).map fun i => a + BitVec.ofNat 80 i) with
  | (s', .ok ks) => some (ofBytes (ks.map (homeByteFrom s' p.die)) 64)
  | (_, .error _) => none

/-- A branch of a program, which ends its clause and lands on a header: where it lands is looked at first (R11, R34, R301). -/
def seqBranch (s : State) (pid : Nat) (p : Prog) (taken : Bool) (imm : BitVec 32) : Out :=
  let dest := p.header + 8#80 * imm.signExtend 80
  if taken && (match progPeek s p dest with | some x => !isHeader x | none => false) then .next (progFault s pid dIllegalHeader 0#80)
  else if p.left ≠ 1 then .next (progFault s pid dIllegalInstruction 0#80)
  else if !taken then .next (s.setProg pid p.next)
  else .next (s.setProg pid { p with pc := dest, left := 0 })

def execSnop (s : State) : Out := seqWord s id
def execSmov (d a : SReg) (s : State) : Out := seqWord s fun p => p.setReg d (p.reg a)
def execSmovi (d : SReg) (imm : BitVec 32) (s : State) : Out := seqWord s fun p => p.setReg d (imm.signExtend 80)
def execSadd (d a b : SReg) (s : State) : Out := seqWord s fun p => p.setReg d (p.reg a + p.reg b)
def execSaddi (d a : SReg) (imm : BitVec 32) (s : State) : Out := seqWord s fun p => p.setReg d (p.reg a + imm.signExtend 80)
def execSsub (d a b : SReg) (s : State) : Out := seqWord s fun p => p.setReg d (p.reg a - p.reg b)
def execSmul (d a b : SReg) (s : State) : Out := seqWord s fun p => p.setReg d (p.reg a * p.reg b)
def execSshl (d a b : SReg) (s : State) : Out := seqWord s fun p => p.setReg d (p.reg a <<< ((p.reg b).toNat % 128))
def execSshr (d a b : SReg) (s : State) : Out := seqWord s fun p => p.setReg d (p.reg a >>> ((p.reg b).toNat % 128))
def execSand (d a b : SReg) (s : State) : Out := seqWord s fun p => p.setReg d (p.reg a &&& p.reg b)
def execSor (d a b : SReg) (s : State) : Out := seqWord s fun p => p.setReg d (p.reg a ||| p.reg b)

def execScmp (d a b : SReg) (cond : BitVec 3) (s : State) : Out :=
  seqWord s fun p => p.setReg d (if seqCond cond (p.reg a) (p.reg b) then 1#80 else 0#80)

def execSbra (a b : SReg) (cond : BitVec 3) (imm : BitVec 32) (s : State) : Out :=
  progGate s fun pid p => seqBranch s pid p (seqCond cond (p.reg a) (p.reg b)) imm

def execSloop (d : SReg) (imm : BitVec 32) (s : State) : Out :=
  progGate s fun pid p =>
    let p := p.setReg d (p.reg d - 1#80)
    seqBranch s pid p (decide (p.reg d ≠ 0#80)) imm

def execSend (s : State) : Out :=
  progGate s fun pid p =>
    if p.left ≠ 1 then .next (progFault s pid dIllegalInstruction 0#80)
    else .next (s.setProg pid { p.next with sent := true })

/-- The keys of a program's access, checked: an engine fault, a translation that fails, or the keys. -/
inductive EngKeys where
  | bad (detail : BitVec 8)
  | stop (c : PageFault) (va : Addr)
  | ok (ks : List Nat)

/-- `n` bytes at an address of a space, for an engine (R39, R303). -/
def engineKeys (s : State) (team : Option Nat) (die core grid tenant : Nat) (sup : Bool) (sp : Space) (k : AccessKind) (ea : Addr)
    (n : Nat) : State × EngKeys :=
  let t := team.bind (tget s.teams)
  if !inSpace s t die grid sp ea n then (s, .bad dAddressRange)
  else if sp.mapped then
    match xlateBytes s die core tenant sup k ((List.range n).map fun i => ea + BitVec.ofNat 80 i) with
    | (s, .ok ks) => (s, .ok ks)
    | (s, .error (c, va)) => (s, .stop c va)
  else (s, .ok (chipKeys s t die core grid sp ea n))

/-- ssig: a release store once every earlier operation of the program has completed and no lock covers its word (R302). -/
def execSsig (sp : BitVec 4) (a : SReg) (imm : BitVec 32) (s : State) : Out :=
  progGate s fun pid p =>
    let ea := p.reg a
    let space := Space.ofCode (sp.setWidth 3)
    if ea.toNat % 4 ≠ 0 then .next (progFault s pid dAlignment ea)
    else
      match engineKeys s p.team p.die p.core p.grid p.tenant false space .write ea 4 with
      | (s, .bad d) => .next (progFault s pid d ea)
      | (s', .stop c va) => .next (stopProg s' pid va c)
      | (s', .ok ks) =>
        if !opsDone s pid p || lockHit s p.die p.core p.tenant false space ea 4 then .next s
        else .next ((engineStore s' (engineWriter pid pid p.gid p.die p.core p.tenant 0#2) ea ks (toBytes imm 4)).setProg pid p.next)

end Sys2Proof.Machine
end

