-- ==== Sys2Proof/Machine/Flags.lean ====
section
/-! DEFINITION. Floating-point control: rounding mode, flush, flags and traps, and the pipeline of the instructions that
raise flags (R17, R186, R187, R191, R198). -/

namespace Sys2Proof.Machine

/-- The mode that a rounding field selects (R17). -/
def fpMode (g : Group) (rm : BitVec 3) : RMode := RMode.ofCode (if rm = 0#3 then g.fpctl.extractLsb' 0 3 else rm)

/-- As fpMode, where stochastic rounding is not available and rounds as RNE (R163, R220). -/
def fpModeNoSr (g : Group) (rm : BitVec 3) : RMode := if fpMode g rm = .sr then .rne else fpMode g rm

def ftzOn (g : Group) : Bool := g.fpctl.getLsbD 14

/-- Enabled floating-point traps in the order of sr.fpflags; masked in trap mode (R186, R280). -/
def trapEnables (g : Group) : FFlags := if g.trapMode then 0#6 else g.fpctl.extractLsb' 8 6

/-- Flags ORed into sr.fpflags (R186). -/
def Group.raise (g : Group) (f : FFlags) : Group := { g with fpflags := g.fpflags ||| f.setWidth 32 }

/-- The transient lazy value of a lane's e-th rounding (R198). -/
def srOracle (g : Group) (l : Lane) (e : Nat) : Oracle :=
  fun f more => lzDecide (digitAt g.agkey g.srstrm (g.srctr[l] + BitVec.ofNat 32 e)) more 0 f 64

/-- The lanes' counters advance by the values that each rounds (R198). -/
def Group.advanceSr (g : Group) (m : Mask) (n : Nat) : Group :=
  { g with srctr := setLanes g.srctr m fun l => g.srctr[l] + BitVec.ofNat 32 n }

/-- The flags of the lanes of a mask together. -/
def orFlags (m : Mask) (f : Lane → FFlags) : FFlags := (lanesOf m).foldl (fun a l => a ||| f l) 0#6

/-- The lanes that take a floating-point trap (R186). -/
def flagTraps (g : Group) (m : Mask) (f : Lane → FFlags) : Mask := m &&& maskOf fun l => (f l &&& trapEnables g) ≠ 0#6

/-- A word that raises flags: every issued lane's flags are ORed in; the lanes that do not trap complete; a uniform result
only when none traps; stochastic counters advance in the lanes that complete; then the trap, or the next word (R134, R186,
R191, R198). `put` writes the results for a mask, told whether a uniform destination is written. -/
def finishF (i : Instr) (s : State) (gid : Nat) (s1 : Bool) (g : Group) (sh : Shape) (m : Mask) (fl : Lane → FFlags) (adv : Nat)
    (put : Group → Mask → Bool → Group) : Out :=
  let t := flagTraps g m fl
  let ok := m &&& ~~~t
  let g1 := ((put g ok (decide (t = 0#96))).raise (orFlags m fl)).advanceSr ok adv
  if t = 0#96 then .next (s.setGroup gid (g1.done s1 sh))
  else
    .next (trapWord (s.setGroup gid g1) gid s1 i sh cFloat ((orFlags t fl &&& trapEnables g).setWidth 8)
      (if sh.head.uni then (g.slot s1).uniMask else t) false)

/-- A value with the flags it raises. -/
abbrev FRes (w : Nat) := BitVec w × FFlags

/-- A word with one register result in each lane, which may raise flags; `adv` values are rounded per lane when the mode is
stochastic. -/
def runF {w : Nat} (i : Instr) (s : State) (rm : BitVec 3) (adv : Nat) (f : State → Group → Slot → Lane → FRes w) : Out :=
  gate i s fun s gid s1 g sl sh =>
    let m := execLanes g sl sh.head
    let r : Lanes (FRes w) := Vector.ofFn fun l => if m.getLsbD l.val then f s g sl l else (0#w, fNone)
    finishF i s gid s1 g sh m (fun l => r[l].2) (if fpMode g rm = .sr then adv else 0)
      fun g k u => g.putResult s1 sh k u fun l => r[l].1

/-! ### Reading floating-point sources -/

/-- A source's bits in a format; an integer immediate is converted exactly (R15, R24). -/
def readBitsF (s : State) (g : Group) (sl : Slot) (l : Lane) (x : Src) (f : Format) : Nat :=
  let imm := fun v : Int => (roundReal f .rne false (decide (v < 0)) (v.natAbs : Nat) false noOracle).bits
  match x with
  | .imm v => imm v.toInt
  | .uimm v => imm v.toInt
  | _ => (readSrc s g sl l x f.bits).toNat

/-- A source's value under the flush rule (R187). -/
def readF (s : State) (g : Group) (sl : Slot) (l : Lane) (x : Src) (f : Format) : FVal :=
  flushIn f (ftzOn g) (decodeF f (readBitsF s g sl l x f))

/-- The rounded result of an exact one, in the lane's mode. -/
def roundIn {w : Nat} (g : Group) (f : Format) (m : RMode) (l : Lane) (e : Nat) (x : Exact × FFlags) : FRes w :=
  let r := roundTo f m (ftzOn g) x.1 (srOracle g l e)
  (BitVec.ofNat w r.bits, x.2 ||| r.flags)

end Sys2Proof.Machine
end

