-- ==== Sys2Proof/Machine/Copy.lean ====
section
/-! DEFINITION. Copies: cpy, and the copy-class operations of the Copy and Collective Engines (R76, R77, R111 to R114, R303 to
R308). -/

namespace Sys2Proof.Machine

/-! ### Elements and ranges -/

/-- One element: where it goes and where it comes from. -/
abbrev Move := Addr × Addr

def at_ (a : Addr) (n : Nat) : Addr := a + BitVec.ofNat 80 n

/-- The elements of an operation in their order; the source of a fill or drain is not an address. -/
def CopyOp.moves (c : CopyOp) : List Move :=
  let e := elemSize c.w
  match c.kind with
  | .block rows sp dp =>
    (List.range (max rows 1)).flatMap fun i => (List.range c.count).map fun j => (at_ c.dst (i * dp + j * e), at_ c.src (i * sp + j * e))
  | .gather => ((c.idxs.getD []).zipIdx).map fun x => (at_ c.dst (x.2 * e), at_ c.src (x.1 * e))
  | .scatter => ((c.idxs.getD []).zipIdx).map fun x => (at_ c.dst (x.1 * e), at_ c.src (x.2 * e))
  | .acc _ _ _ pitch => (List.range c.count).flatMap fun i => (List.range 96).map fun j => (at_ c.dst (i * pitch + 4 * j), 0#80)
  | .fill _ | .coll _ _ _ _ _ _ => (List.range c.count).map fun j => (at_ c.dst (j * e), at_ c.src (j * e))

/-- The hull of places of `e` bytes: its first byte and its length. -/
def hull (e : Nat) : List Addr → Option (Nat × Nat)
  | [] => none
  | a :: r =>
    let lo := r.foldl (fun m x => min m x.toNat) a.toNat
    let hi := r.foldl (fun m x => max m (x.toNat + e)) (a.toNat + e)
    some (lo, hi - lo)

/-- Does the operation read memory for its elements? -/
def CopyKind.reads : CopyKind → Bool
  | .acc _ _ _ _ | .fill _ => false
  | _ => true

/-- Entries of the Range-Lock Table that the elements take: a read-lock and a write-lock on their hulls (R69). -/
def CopyOp.locks (c : CopyOp) : List Lock :=
  let e := elemSize c.w
  let mk := fun (sp : Space) (write : Bool) (h : Option (Nat × Nat)) =>
    match h with
    | some (lo, n) => [({ owner := .copy c.id, tenant := c.tenant, space := sp, lo := lo, len := n, write := write } : Lock)]
    | none => []
  (if c.kind.reads then mk c.sspace false (hull e (c.moves.map Prod.snd)) else []) ++
    mk c.dspace true (hull e (c.moves.map Prod.fst))

/-- An entry of this kind on a range would meet one that is there (R113). -/
def lockMeets (s : State) (die core : Nat) (l : Lock) : Bool :=
  lockHit s die core l.tenant l.write l.space (BitVec.ofNat 80 l.lo) l.len

/-- The entries are registered, where none conflicts and there is room for all. -/
def takeLocks (s : State) (die core : Nat) (ls : List Lock) : Option State :=
  let c := s.core die core
  if ls.any (lockMeets s die core) || decide (Config.rltEntries < c.rlt.length + ls.length) then none
  else some (s.setCore die core { c with rlt := c.rlt ++ ls })

/-! ### Keys and data -/

/-- The keys of every element on one side: a first failure, or all. -/
def moveKeys (s : State) (c : CopyOp) (sp : Space) (k : AccessKind) : List Addr → State × Except (BitVec 8 × Addr ⊕ PageFault × Addr) (List (List Nat))
  | [] => (s, .ok [])
  | a :: r =>
    match engineKeys s c.team c.die c.core c.grid c.tenant c.sup sp k a (elemSize c.w) with
    | (s, .bad d) => (s, .error (.inl (d, a)))
    | (s, .stop f va) => (s, .error (.inr (f, va)))
    | (s, .ok ks) =>
      match moveKeys s c sp k r with
      | (s, .error e) => (s, .error e)
      | (s, .ok kss) => (s, .ok (ks :: kss))

/-- The first element that lies outside its space (R39). -/
def outside? (s : State) (c : CopyOp) : Option Addr :=
  let t := c.team.bind (tget s.teams)
  let ok := fun sp a => inSpace s t c.die c.grid sp a (elemSize c.w)
  (c.moves.find? fun m => !ok c.dspace m.1 || (c.kind.reads && !ok c.sspace m.2)).map fun m =>
    if c.kind.reads && !ok c.sspace m.2 then m.2 else m.1

/-- The agent that an operation belongs to, and whose its stores are. -/
def CopyOp.agent (c : CopyOp) : Nat := c.pid.getD c.id
def CopyOp.writer (c : CopyOp) : Writer := engineWriter c.id c.agent c.gid c.die c.core c.tenant c.pol

/-- The bytes of a drained row element: column j of a row that the drain has read (R306). -/
def drained (c : CopyOp) (i : Nat) : List Byte := toBytes (getField (c.rows.getD (i / 96) 0#3072) (32 * (i % 96)) 32) 4

/-- The bytes of the elements of one side, read through the die's L2. -/
def readMoves (s : State) (c : CopyOp) : List (List Nat) → State × List (List Byte)
  | [] => (s, [])
  | ks :: r =>
    let x := engineRead s c.writer ks
    let y := readMoves x.1 c r
    (y.1, x.2 :: y.2)

/-- The data of every element, read before any byte is written (R76, R304). -/
def moveData (s : State) (c : CopyOp) (srcs : List (List Nat)) : State × List (List Byte) :=
  match c.kind with
  | .acc _ _ _ _ => (s, (List.range (96 * c.count)).map fun i => drained c i)
  | .fill v => (s, (List.range c.count).map fun _ => toBytes v (elemSize c.w))
  | _ => readMoves s c srcs

/-! ### Completion, faults and stops -/

/-- A copy is over: its locks go, its counter falls, and a cpy.cont slot resumes at its continuation (R77). -/
def copyDone (s : State) (c : CopyOp) : State :=
  let s := dropLocks { s with copies := s.copies.filter fun x => x.id ≠ c.id } c.die c.core (.copy c.id)
  let s := if c.pid.isSome then s else s.settleCtr c.gid c.ctr
  let s :=
    if c.cont then
      s.modWaiting c.gid c.s1 (fun sl => match sl.wait with | .cpyCont t _ => t = c.id | _ => false) fun sl =>
        match sl.wait with | .cpyCont _ dest => sl.jump dest | _ => sl
    else s
  settleFences s

/-- A copy faults: its program's fault, or a fault of the cpy's slot (R299). -/
def copyFault (s : State) (c : CopyOp) (detail : BitVec 8) (addr : Addr) : State :=
  match c.pid with
  | some pid => progFault s pid detail addr
  | none =>
    let f : EngineFault :=
      { gid := c.gid, s1 := c.s1, detail := detail, addr := addr, handle := 0xFFFFFFFF#32, ctr := c.ctr, cont := c.cont, trap := c.trap,
        die := c.die, core := c.core, tenant := c.tenant, place := c.place }
    copyDone { s with efaults := s.efaults ++ [f] } c

/-- A translation of a copy fails: it stops, and a record of kind 5 is appended (R300). -/
def copyStop (s : State) (c : CopyOp) (f : PageFault) (va : Addr) : State :=
  let (s, seq) := stopRecord s c.die c.core c.tenant c.place va f
  { s with copies := s.copies.map fun x => if x.id = c.id then { x with stopped := some (c.die, seq), stopVa := va } else x }

def State.modCopy (s : State) (id : Nat) (f : CopyOp → CopyOp) : State :=
  { s with copies := s.copies.map fun x => if x.id = id then f x else x }

/-- The bytes have been written: the operation is over once they have performed at its natural scope (R112). -/
def finishCopy (s : State) (c : CopyOp) : State := if landed s c.die c.id then copyDone s c else s.modCopy c.id fun x => { x with moved := true }

/-- The elements that an operation has still to write, each with its bytes. -/
def CopyOp.writes (c : CopyOp) : List (Addr × List Byte) := ((c.moves.map Prod.fst).zip (c.data.getD [])).drop c.wrote

/-- Elements are written at their home in order, each translated when its turn comes; `n` have been written. A translation that fails stops the
operation at that element (R300). -/
def putMoves (s : State) (c : CopyOp) (n : Nat) : List (Addr × List Byte) → State
  | [] => finishCopy s c
  | w :: r =>
    match engineKeys s c.team c.die c.core c.grid c.tenant c.sup c.dspace .write w.1 (elemSize c.w) with
    | (s, .bad d) => copyFault s c d w.1
    | (s, .stop f va) => copyStop (s.modCopy c.id fun x => { x with wrote := n }) c f va
    | (s, .ok ks) => putMoves (engineStore s c.writer w.1 ks w.2) c (n + 1) r

/-- The elements move: every source is translated and read, then the destination's elements are written. All of them move in one step, so
far as they translate: what other cores see meanwhile is all old or all new, where the hardware may give them any mix by bytes (R113; DESIGN
CHOICE, log entry 33). -/
def moveAll (s : State) (c : CopyOp) : State :=
  if c.data.isSome then putMoves s c c.wrote c.writes
  else
    match (if c.kind.reads then moveKeys s c c.sspace .read (c.moves.map Prod.snd) else (s, .ok [])) with
    | (s, .error (.inl (d, a))) => copyFault s c d a
    | (s, .error (.inr (f, va))) => copyStop s c f va
    | (s, .ok src) =>
      let (s, data) := moveData s c src
      let c := { c with data := some data, wrote := 0 }
      putMoves (s.modCopy c.id fun _ => c) c 0 c.writes

/-! ### cpy (R76, R77) -/

def copyOfGroup (s : State) (gid : Nat) (s1 : Bool) (g : Group) (sl : Slot) (h : Head) (dk ak : Triple) (len : Nat)
    (ssp dsp : BitVec 3) (pol : BitVec 2) (cont : Bool) : CopyOp :=
  { id := s.seqNo, pid := none, gid := gid, s1 := s1, die := g.die, core := g.core, tenant := g.tenant, team := g.team,
    grid := g.grid, sup := g.sup, kind := .block 1 0 0, w := h.w, count := len, dst := readTriple g sl dk,
    dspace := Space.ofCode dsp, src := readTriple g sl ak, sspace := Space.ofCode ssp, idx := 0#80, idxs := some [],
    pol := pol, ctr := h.ctr, cont := cont, rows := [], data := none, wrote := 0, moved := false,
    stopped := none, stopVa := 0#80, trap := g.trapMode, after := pendingOf s gid sl.owned, place := placeByte g false s1 }

/-- A cpy that issues: the range checks, the entries of the Range-Lock Table, and then the slot goes on or waits for the
continuation. -/
def cpyIssue (i : Instr) (s : State) (gid : Nat) (s1 : Bool) (g : Group) (sl : Slot) (sh : Shape) (c : CopyOp)
    (cont : Option Addr) : Out :=
  if (outside? s c).isSome then .next (trapWord s gid s1 i sh cAddressRange 0#8 (trapLanes g sl sh) true)
  else
    match takeLocks s g.die g.core c.locks with
    | none => .next (s.modSlot gid s1 fun x => { x with wait := .other })
    | some s =>
      let s := s.nextId.2
      let s := { s with copies := s.copies ++ [c] }
      match cont with
      | some dest => .next (s.setGroup gid (g.modSlot s1 fun x => { x with wait := .cpyCont c.id dest }))
      | none => .next (s.setGroup gid ((g.ctrUp c.ctr).done s1 sh))

def execCpy (h : Head) (dk ak : Triple) (len : Src) (ssp : BitVec 3) (pol : BitVec 2) (dsp : BitVec 3) (s : State) : Out :=
  let i := Instr.cpy h dk ak len ssp pol dsp
  gate i s fun s gid s1 g sl sh =>
    let m := execLanes g sl h
    if m = 0#96 then .next (s.setGroup gid (g.done s1 sh))
    else cpyIssue i s gid s1 g sl sh (copyOfGroup s gid s1 g sl h dk ak (readOnce s g sl m len 32).toNat ssp dsp pol false) none

def execCpyCont (h : Head) (dk ak : Triple) (len : BitVec 8) (ssp : BitVec 3) (pol : BitVec 2) (dsp : BitVec 3) (s : State) : Out :=
  let i := Instr.cpyCont h dk ak len ssp pol dsp
  gate i s fun s gid s1 g sl sh =>
    let off := g.kreg sl (len.toNat + 1)
    let dest := sl.header + off.signExtend 80
    if off.extractLsb' 0 3 ≠ 0#3 then .next (trapWord s gid s1 i sh cIllegalInstruction 0#8 (trapLanes g sl sh) true)
    else if execLanes g sl h = 0#96 then .next (s.modSlot gid s1 fun x => x.jump dest)
    else cpyIssue i s gid s1 g sl sh (copyOfGroup s gid s1 g sl h dk ak (g.kreg sl len.toNat).toNat ssp dsp pol true) (some dest)

/-- CPY_COMPLETE: the copy's bytes move once the slot's earlier accesses have performed (R111), and it is over once they have. -/
def execCpyComplete (id : Nat) (s : State) : Out :=
  match s.copies.find? fun c => c.id = id with
  | none => .next s
  | some c =>
    if c.pid.isSome || c.stopped.isSome || stillPending s c.after then .next s
    else if c.moved then .next (finishCopy s c)
    else .next (moveAll s c)

/-! ### Copy-class words (R303 to R308) -/

/-- An operation as a program's word names it. -/
def copyOfProg (s : State) (pid : Nat) (p : Prog) (w : BitVec 3) (kind : CopyKind) (count : Nat) (dst src idx : Addr)
    (dsp ssp : BitVec 3) (pol : BitVec 2) (idxs : Option (List Nat)) : CopyOp :=
  { id := s.seqNo, pid := some pid, gid := p.gid, s1 := p.s1, die := p.die, core := p.core, tenant := p.tenant, team := p.team,
    grid := p.grid, sup := false, kind := kind, w := w, count := count, dst := dst, dspace := Space.ofCode dsp, src := src,
    sspace := Space.ofCode ssp, idx := idx, idxs := idxs, pol := pol, ctr := 0#2, cont := false, rows := [], data := none, wrote := 0, moved := false,
    stopped := none, stopVa := 0#80, trap := p.trap, after := [], place := p.place }

/-- Has the program a collective that has not completed? Its later accesses wait for that (R308). -/
def inCollective (s : State) (pid : Nat) : Bool :=
  s.copies.any fun c => c.pid = some pid && match c.kind with | .coll _ _ _ _ _ _ => true | _ => false

/-- The operation issues with its locks, and the program goes on; a conflict, or a collective under way, holds the program at the word. -/
def copyIssue (s : State) (pid : Nat) (p : Prog) (c : CopyOp) (locks : List Lock) : Out :=
  if c.count = 0 then .next (s.setProg pid p.next)
  else if inCollective s pid then .next s
  else
    match takeLocks s p.die p.core locks with
    | none => .next s
    | some s => .next ({ s.nextId.2 with copies := s.copies ++ [c] }.setProg pid p.next)

/-- Row fields of sX (R304). -/
def rowCount (x : Addr) : Nat := (x.extractLsb' 0 16).toNat
def srcPitch (x : Addr) : Nat := (x.extractLsb' 16 32).toNat
def dstPitch (x : Addr) : Nat := (x.extractLsb' 48 32).toNat

def blockWord (s : State) (w : BitVec 3) (d a n x : SReg) (dsp ssp : BitVec 3) (pol : BitVec 2) : Out :=
  progGate s fun pid p =>
    let r := p.reg x
    let c := copyOfProg s pid p w (.block (rowCount r) (srcPitch r) (dstPitch r)) (p.reg n).toNat (p.reg d) (p.reg a) 0#80 dsp ssp pol (some [])
    match outside? s c with
    | some bad => .next (progFault s pid dAddressRange bad)
    | none => copyIssue s pid p c c.locks

def execCld (w : BitVec 3) (d a n x : SReg) (dsp ssp : BitVec 3) (pol : BitVec 2) (s : State) : Out := blockWord s w d a n x dsp ssp pol
def execCst (w : BitVec 3) (d a n x : SReg) (dsp ssp : BitVec 3) (pol : BitVec 2) (s : State) : Out := blockWord s w d a n x dsp ssp pol

/-- The read-lock on an index list (R305). -/
def listLock (c : CopyOp) : Lock :=
  { owner := .copy c.id, tenant := c.tenant, space := c.sspace, lo := c.idx.toNat, len := 4 * c.count, write := false }

def indexWord (s : State) (w : BitVec 3) (kind : CopyKind) (d a n x : SReg) (dsp ssp : BitVec 3) (pol : BitVec 2) : Out :=
  progGate s fun pid p =>
    let c := copyOfProg s pid p w kind (p.reg n).toNat (p.reg d) (p.reg a) (p.reg x) dsp ssp pol none
    if c.count = 0 then .next (s.setProg pid p.next)
    else if c.idx.toNat % 4 ≠ 0 then .next (progFault s pid dAlignment c.idx)
    else
      match (List.range c.count).find? fun i =>
          !inSpace s (p.team.bind (tget s.teams)) p.die p.grid c.sspace (at_ c.idx (4 * i)) 4 with
      | some i => .next (progFault s pid dAddressRange (at_ c.idx (4 * i)))
      | none => copyIssue s pid p c [listLock c]

def execCgth (w : BitVec 3) (d a n x : SReg) (dsp ssp : BitVec 3) (pol : BitVec 2) (s : State) : Out :=
  indexWord s w .gather d a n x dsp ssp pol
def execCsct (w : BitVec 3) (d a n x : SReg) (dsp ssp : BitVec 3) (pol : BitVec 2) (s : State) : Out :=
  indexWord s w .scatter d a n x dsp ssp pol

/-- cacc: the operand rules in the order of R306, the holder of the unit, and then the drain. -/
def execCacc (w : BitVec 3) (d a n x : SReg) (dsp ssp : BitVec 3) (pol : BitVec 2) (tile : BitVec 3) (s : State) : Out :=
  progGate s fun pid p =>
    let v := p.reg a
    let row := (v.extractLsb' 0 6).toNat
    let quad := (v.extractLsb' 8 2).toNat
    let count := (p.reg n).toNat
    let pitch := (p.reg x).toNat
    let c := copyOfProg s pid p w (.acc tile.toNat row quad pitch) count (p.reg d) 0#80 0#80 dsp ssp pol (some [])
    if v.extractLsb' 6 2 ≠ 0#2 ∨ v.extractLsb' 10 70 ≠ 0#70 ∨ count < 1 ∨ 64 < count ∨ 64 < row + count ∨ pitch < 384 then
      .next (progFault s pid dIllegalInstruction 0#80)
    else if pitch % 4 ≠ 0 then .next (progFault s pid dAlignment 0#80)
    else if c.dst.toNat % 4 ≠ 0 then .next (progFault s pid dAlignment c.dst)
    else
      match outside? s c with
      | some bad => .next (progFault s pid dAddressRange bad)
      | none =>
        if p.team.isNone || (s.quad p.die p.core quad).mx.holder ≠ p.team then .next (progFault s pid dMatrixNotHeld 0#80)
        else copyIssue s pid p c c.locks

def execCfill (w : BitVec 3) (d a n : SReg) (dsp : BitVec 3) (pol : BitVec 2) (s : State) : Out :=
  progGate s fun pid p =>
    let c := copyOfProg s pid p w (.fill ((p.reg a).setWidth 64)) (p.reg n).toNat (p.reg d) 0#80 0#80 dsp dsp pol (some [])
    match outside? s c with
    | some bad => .next (progFault s pid dAddressRange bad)
    | none => copyIssue s pid p c c.locks

/-- cwait: the program waits at the word until it is at least sN (R307). -/
def execCwait (_w : BitVec 3) (a n : SReg) (ssp : BitVec 3) (_pol : BitVec 2) (s : State) : Out :=
  progGate s fun pid p =>
    let ea := p.reg a
    if ea.toNat % 4 ≠ 0 then .next (progFault s pid dAlignment ea)
    else
      match engineKeys s p.team p.die p.core p.grid p.tenant false (Space.ofCode ssp) .read ea 4 with
      | (s, .bad d) => .next (progFault s pid d ea)
      | (s, .stop c va) => .next (stopProg s pid va c)
      | (s', .ok ks) =>
        let v : Word32 := ofBytes (ks.map fun k => if engineHeld s' pid k then homeByte s' k else homeByteFrom s' p.die k) 32
        if (p.reg n).extractLsb' 0 32 ≤ v ∧ !inCollective s pid then .next (s'.setProg pid p.next) else .next s

/-- ccoll: on a Collective Engine only; the participant waits for the others (R308). -/
def execCcoll (w : BitVec 3) (d a n x : SReg) (dsp ssp : BitVec 3) (pol : BitVec 2) (op scope : BitVec 3) (s : State) : Out :=
  progGate s fun pid p =>
    let v := p.reg x
    let parts := (v.extractLsb' 32 8).toNat
    let kind := (v.extractLsb' 40 2).toNat
    let c := copyOfProg s pid p w (.coll op scope (v.extractLsb' 0 32) parts kind (v.extractLsb' 48 11).toNat) (p.reg n).toNat
      (p.reg d) (p.reg a) 0#80 dsp ssp pol (some [])
    if p.eng ≠ 2 ∨ parts = 0 ∨ (scope = 4#3 ∧ 24 < parts) ∨ kind = 3 ∨ v.extractLsb' 42 6 ≠ 0#6 ∨ v.extractLsb' 59 21 ≠ 0#21 ∨
        ((op = 4#3) ≠ (kind = 2)) then
      .next (progFault s pid dIllegalInstruction 0#80)
    else
      match outside? s c with
      | some bad => .next (progFault s pid dAddressRange bad)
      | none =>
        copyIssue s pid p c c.locks

/-! ### Completion of engine operations -/

/-- The next row of a drain: its row, once the tile's watermark exceeds it (R114); none once every row has been read. -/
def drainNext (s : State) (c : CopyOp) : Option (Option (BitVec 3072)) :=
  match c.kind with
  | .acc tile row quad _ =>
    if c.count ≤ c.rows.length then none
    else
      let t := (s.quad c.die c.core quad).mx.acc[(Fin.ofNat 8 tile)]
      let n := row + c.rows.length
      some (if n < t.watermark then some ((tget t.rows n).getD 0#3072) else none)
  | _ => none

/-- The index list is read, and the locks of the indexed elements replace its lock once they are free (R305). -/
def readIndices (s : State) (c : CopyOp) : State :=
  match moveKeys s { c with w := 5#3 } c.sspace .read ((List.range c.count).map fun i => at_ c.idx (4 * i)) with
  | (s, .error (.inl (d, a))) => copyFault s c d a
  | (s, .error (.inr (f, va))) => copyStop s c f va
  | (s', .ok ks) =>
    let (s', vs) := readMoves s' c ks
    let c' := { c with idxs := some (vs.map natOfBytes) }
    match outside? s' c' with
    | some bad => copyFault s' c dAddressRange bad
    | none =>
      match takeLocks (dropLocks s' c.die c.core (.copy c.id)) c.die c.core c'.locks with
      | none => s
      | some s => s.modCopy c.id fun _ => c'

/-- A participant of a collective: what all must agree on. -/
structure CollKey where
  kind : CopyKind
  w : BitVec 3
  count : Nat
  deriving DecidableEq, Repr

/-- The participants of an operation's collective: one tenant's, at its scope, with its tag, whose result has not been formed. -/
def participants (s : State) (c : CopyOp) : List CopyOp :=
  match c.kind with
  | .coll _ scope tag _ _ _ =>
    s.copies.filter fun x => x.tenant = c.tenant && x.data.isNone &&
      match x.kind with | .coll _ sc tg _ _ _ => sc = scope && tg = tag | _ => false
  | _ => []

/-- One element of the reduction (R190): the value and whether an operation was invalid. -/
def reduceElem (op : BitVec 3) (w : Nat) (xs : List Nat) : Nat × Bool :=
  match op.toNat, xs with
  | _, [] => (0, false)
  | 0, x :: r =>
    let f : Format := if w = 64 then .f64 else .f32
    let vs := (x :: r).map (decodeF f)
    if vs.any FVal.isNaN then (f.canonNaN, vs.any FVal.isSig)
    else
      let pos := vs.any fun v => v = .inf false
      let neg := vs.any fun v => v = .inf true
      if pos && neg then (f.canonNaN, true)
      else if pos || neg then (packF f neg f.infCode, false)
      else
        let sum := vs.foldl (fun a v => a + v.real) 0
        (rneTo f (exactOf sum (vs.all fun v => v = .fin true 0)), false)
  | 1, x :: r => ((x :: r).foldl (· + ·) 0 % 2 ^ w, false)
  | 2, x :: r => (r.foldl (fun a b => if (BitVec.ofNat w a).toInt ≤ (BitVec.ofNat w b).toInt then a else b) x, false)
  | 3, x :: r => (r.foldl (fun a b => if (BitVec.ofNat w b).toInt ≤ (BitVec.ofNat w a).toInt then a else b) x, false)
  | _, x :: _ => (x, false)

/-- The sources of all participants, translated; the first that stops says which. -/
def collKeys (s : State) : List CopyOp → State × Except (CopyOp × (BitVec 8 × Addr ⊕ PageFault × Addr)) (List (CopyOp × List (List Nat)))
  | [] => (s, .ok [])
  | c :: r =>
    match moveKeys s c c.sspace .read (c.moves.map Prod.snd) with
    | (s, .error e) => (s, .error (c, e))
    | (s, .ok src) =>
      match collKeys s r with
      | (s, .error e) => (s, .error e)
      | (s, .ok xs) => (s, .ok ((c, src) :: xs))

/-- Number of the die's participant in root's numbering; the module itself is number 0 (R308). -/
def isRoot (root : Nat) (c : CopyOp) : Bool := decide (root = c.die)

/-- The elements of every participant's source. -/
def collRead (s : State) : List (CopyOp × List (List Nat)) → State × List (CopyOp × List Nat)
  | [] => (s, [])
  | x :: r =>
    let d := readMoves s x.1 x.2
    let y := collRead d.1 r
    (y.1, (x.1, d.2.map natOfBytes) :: y.2)

/-- What a collective gives, element by element, and whether an operation on one was invalid. -/
def collResult (op : BitVec 3) (kind root : Nat) (data : List (CopyOp × List Nat)) : List (Nat × Bool) :=
  let n := match data with | x :: _ => x.1.count | [] => 0
  let w := match data with | x :: _ => wBits x.1.w | [] => 0
  let rootData := (data.find? fun x => isRoot root x.1).map Prod.snd
  (List.range n).map fun i => if kind = 2 then ((rootData.getD []).getD i 0, false) else reduceElem op w (data.map fun x => x.2.getD i 0)

/-- A participant takes the result, which it then writes; of a reduction only the root writes it. -/
def collTake (s : State) (kind root : Nat) (r : List (Nat × Bool)) (c : CopyOp) : State :=
  let bytes := if kind = 1 && !isRoot root c then [] else r.map fun v => natBytes v.1 (wBits c.w / 8)
  let s := match c.pid.bind s.prog?, c.pid with
    | some p, some pid => if r.any Prod.snd then s.setProg pid { p with status := p.status ||| 0x10000#32 } else s
    | _, _ => s
  let c := { c with data := some bytes, wrote := 0 }
  putMoves (s.modCopy c.id fun _ => c) c 0 c.writes

/-- A collective is formed: every participant's source is read, and each takes the result. -/
def collMove (s : State) (op : BitVec 3) (kind root : Nat) (ps : List CopyOp) : State :=
  match collKeys s ps with
  | (s, .error (c, .inl (d, a))) => copyFault s c d a
  | (s, .error (c, .inr (f, va))) => copyStop s c f va
  | (s, .ok xs) =>
    let (s, data) := collRead s xs
    ps.foldl (fun s c => collTake s kind root (collResult op kind root data) c) s

/-- Everything that a participant's program did before its collective has completed, and its stores have performed for every die (R308). -/
def priorDone (s : State) (x : CopyOp) : Bool :=
  !(s.copies.any fun y => y.pid = x.pid && decide (y.id < x.id)) && agentLanded s Config.dies x.agent

/-- The collective of an operation completes once all its participants have arrived, with what they did before it, or fails at each of them
(R308). -/
def collStep (s : State) (c : CopyOp) : State :=
  match c.kind with
  | .coll op _ _ parts kind root =>
    let ps := participants s c
    let differ := ps.any fun x => decide ((⟨x.kind, x.w, x.count⟩ : CollKey) ≠ ⟨c.kind, c.w, c.count⟩)
    let whole := decide (ps.length = parts)
    if differ || decide (parts < ps.length) || (whole && kind ≠ 0 && !(ps.any (isRoot root))) then
      ps.foldl (fun s x => copyFault s x dCollectiveMismatch 0#80) s
    else if whole && ps.all fun x => x.stopped.isNone && priorDone s x then collMove s op kind root ps
    else s
  | _ => s

/-- COPY_OPERATION_COMPLETE: the next thing that an engine operation does. -/
def execCopyOperationComplete (id : Nat) (s : State) : Out :=
  match s.copies.find? fun c => c.id = id with
  | none => .next s
  | some c =>
    if c.pid.isNone || c.stopped.isSome then .next s
    else if c.moved then .next (finishCopy s c)
    else
      match c.kind, c.data with
      | .coll _ _ _ _ _ _, none => .next (collStep s c)
      | _, _ =>
        if c.idxs.isNone then .next (readIndices s c)
        else
          match drainNext s c with
          | none => .next (moveAll s c)
          | some none => .next s
          | some (some row) => .next (s.modCopy c.id fun x => { x with rows := x.rows ++ [row] })

end Sys2Proof.Machine
end

