-- ==== Sys2Proof/Machine/Alu.lean ====
section
/-! DEFINITION. The arithmetic of the integer and logic instructions on W-bit values (R154 to R163). -/

namespace Sys2Proof.Machine

variable {w : Nat}

/-- sat(x) of R155. -/
def satTo (w : Nat) (sg : Bool) (x : Int) : BitVec w :=
  let lo : Int := if sg then -(2 ^ (w - 1)) else 0
  let hi : Int := if sg then 2 ^ (w - 1) - 1 else 2 ^ w - 1
  BitVec.ofInt w (max lo (min hi x))

def aluAdd (sat sg : Bool) (a b : BitVec w) : BitVec w := if sat then satTo w sg (val sg a + val sg b) else a + b

def aluSub (sat sg : Bool) (a b : BitVec w) : BitVec w := if sat then satTo w sg (val sg a - val sg b) else a - b

/-- The high half of the exact 2W-bit product. -/
def aluMulh (sg : Bool) (a b : BitVec w) : BitVec w := BitVec.ofInt w (val sg a * val sg b / 2 ^ w)

def aluMin (sg : Bool) (a b : BitVec w) : BitVec w := if val sg a ≤ val sg b then a else b

def aluMax (sg : Bool) (a b : BitVec w) : BitVec w := if val sg a ≥ val sg b then a else b

def aluAbs (sat : Bool) (a : BitVec w) : BitVec w :=
  let x : Int := (val true a).natAbs
  if sat then satTo w true x else BitVec.ofInt w x

/-- Counts are whole unsigned W-bit values (R155). -/
def aluShl (a n : BitVec w) : BitVec w := if n.toNat < w then a <<< n.toNat else 0#w

def aluShr (a n : BitVec w) : BitVec w := if n.toNat < w then a >>> n.toNat else 0#w

def aluSar (a n : BitVec w) : BitVec w :=
  if n.toNat < w then a.sshiftRight n.toNat else if val true a < 0 then BitVec.allOnes w else 0#w

def aluRot (a n : BitVec w) : BitVec w := a.rotateLeft (n.toNat % w)

def popCount (a : BitVec w) : Nat := ((List.range w).filter fun i => a.getLsbD i).length

/-- The index of the highest one bit below `n`, plus one; 0 when there is none. -/
def topBit (a : BitVec w) : Nat → Nat
  | 0 => 0
  | n + 1 => if a.getLsbD n then n + 1 else topBit a n

def aluClz (a : BitVec w) : BitVec w := BitVec.ofNat w (w - topBit a w)

def aluPopc (a : BitVec w) : BitVec w := BitVec.ofNat w (popCount a)

def aluBrev (a : BitVec w) : BitVec w := a.reverse

/-- R156: position p, length n, and the length m that fits. -/
def fieldLen (w : Nat) (ctl : BitVec 16) : Nat × Nat :=
  let p := (ctl.extractLsb' 0 8).toNat
  let n := (ctl.extractLsb' 8 8).toNat
  (p, if p < w then min n (w - p) else 0)

def aluBfx (sg : Bool) (a : BitVec w) (ctl : BitVec 16) : BitVec w :=
  let (p, m) := fieldLen w ctl
  if m = 0 then 0#w else ext sg (a.extractLsb' p m) w

def aluBfi (a b : BitVec w) (ctl : BitVec 16) : BitVec w :=
  let (p, m) := fieldLen w ctl
  if m = 0 then a else setField a p (b.setWidth m)

/-- R157: bit i of the result is bit 4a + 2b + d of the table. -/
def aluLop3 (a b d : BitVec w) (t : BitVec 8) : BitVec w :=
  let pick := fun (n : Nat) (x y z : BitVec w) => if t.getLsbD n then x &&& y &&& z else 0#w
  pick 0 (~~~a) (~~~b) (~~~d) ||| pick 1 (~~~a) (~~~b) d ||| pick 2 (~~~a) b (~~~d) ||| pick 3 (~~~a) b d |||
    pick 4 a (~~~b) (~~~d) ||| pick 5 a (~~~b) d ||| pick 6 a b (~~~d) ||| pick 7 a b d

/-- The conditions of isetp (R159). -/
def intCond (c : BitVec 4) (x y : Int) : Bool :=
  match c.toNat with
  | 0 => x = y | 1 => x ≠ y | 2 => x < y | 3 => x ≤ y | 4 => x > y | _ => x ≥ y

/-- Neighbours of a list combined in pairs (R163). -/
def pairUp {α : Type} (op : α → α → α) : List α → List α
  | a :: b :: r => op a b :: pairUp op r
  | l => l

/-- The fixed tree of R163 over 96 values. -/
def reduce96 {α : Type} (op : α → α → α) (zero : α) (v : Lanes α) : α :=
  let beat := fun b : Nat =>
    let l := (v.toList.drop (32 * b)).take 32
    (pairUp op (pairUp op (pairUp op (pairUp op (pairUp op l))))).headD zero
  op (op (beat 0) (beat 1)) (beat 2)

/-- The integer nodes of redx: code, and the identity (R163). -/
def redOp (op : BitVec 4) (sg : Bool) (a b : BitVec w) : BitVec w :=
  match op.toNat with
  | 0 => a + b | 1 => aluMin sg a b | 2 => aluMax sg a b | 3 => a &&& b | 4 => a ||| b | _ => a ^^^ b

def redIdentity (w : Nat) (op : BitVec 4) (sg : Bool) : BitVec w :=
  match op.toNat with
  | 1 => if sg then BitVec.intMax w else BitVec.allOnes w
  | 2 => if sg then BitVec.intMin w else 0#w
  | 3 => BitVec.allOnes w
  | _ => 0#w

end Sys2Proof.Machine
end

