-- ==== Sys2Proof/Machine/Integer.lean ====
section
/-! DEFINITION. Integer, logic and address instructions (R153 to R160, R164). -/

namespace Sys2Proof.Machine

/-- One result from one source of W bits. -/
def intUn {n : Nat} (i : Instr) (s : State) (w : Nat) (a : Src) (f : BitVec w → BitVec n) : Out :=
  runV i s fun s g sl _ l => f (readSrc s g sl l a w)

/-- One result from two sources of W bits. -/
def intBin (i : Instr) (s : State) (w : Nat) (a b : Src) (f : BitVec w → BitVec w → BitVec w) : Out :=
  runV i s fun s g sl _ l => f (readSrc s g sl l a w) (readSrc s g sl l b w)

/-- The destination's old contents, read with the sources (R157). -/
def readDst (g : Group) (sl : Slot) (l : Lane) (d : Dst) (w : Nat) : BitVec w :=
  match d with
  | .slice st => g.sliceRead l st.toNat w
  | .ureg k => g.kread sl k.toNat w

/-- nop: nothing but the next word (R160). -/
def execNop (h : Head) (s : State) : Out :=
  gate (.nop h) s fun s gid s1 g _ sh => .next (s.setGroup gid (g.done s1 sh))

def execMov (h : Head) (d : Dst) (a : Src) (s : State) : Out := intUn (.mov h d a) s (wBits h.w) a id

def execMovi (h : Head) (d : Dst) (imm : BitVec 32) (s : State) : Out :=
  runV (.movi h d imm) s fun _ _ _ _ _ => imm.signExtend (wBits h.w)

/-- The select predicate is a lane predicate, or g in the uniform class (R160, R164). -/
def selPred (g : Group) (uni : Bool) (p : Guard) (l : Lane) : Bool :=
  (if uni then g.gpred p.idx else g.pred p.idx l) != p.inv

def execSel (h : Head) (d : Dst) (a b : Src) (p : Guard) (s : State) : Out :=
  runV (.sel h d a b p) s fun s g sl _ l =>
    if selPred g h.uni p l then readSrc s g sl l a (wBits h.w) else readSrc s g sl l b (wBits h.w)

def execIadd (h : Head) (d : Dst) (a b : Src) (sat sg : Bool) (s : State) : Out :=
  intBin (.iadd h d a b sat sg) s (wBits h.w) a b (aluAdd sat sg)

def execIsub (h : Head) (d : Dst) (a b : Src) (sat sg : Bool) (s : State) : Out :=
  intBin (.isub h d a b sat sg) s (wBits h.w) a b (aluSub sat sg)

def execImul (h : Head) (d : Dst) (a b : Src) (sg : Bool) (s : State) : Out :=
  intBin (.imul h d a b sg) s (wBits h.w) a b fun x y => x * y

def execImulh (h : Head) (d : Dst) (a b : Src) (sg : Bool) (s : State) : Out :=
  intBin (.imulh h d a b sg) s (wBits h.w) a b (aluMulh sg)

def execImad (h : Head) (d : Dst) (a b c : Src) (s : State) : Out :=
  runV (.imad h d a b c) s fun s g sl _ l =>
    readSrc s g sl l a (wBits h.w) * readSrc s g sl l b (wBits h.w) + readSrc s g sl l c (wBits h.w)

def execImin (h : Head) (d : Dst) (a b : Src) (sg : Bool) (s : State) : Out :=
  intBin (.imin h d a b sg) s (wBits h.w) a b (aluMin sg)

def execImax (h : Head) (d : Dst) (a b : Src) (sg : Bool) (s : State) : Out :=
  intBin (.imax h d a b sg) s (wBits h.w) a b (aluMax sg)

def execIabs (h : Head) (d : Dst) (a : Src) (sat : Bool) (s : State) : Out :=
  intUn (.iabs h d a sat) s (wBits h.w) a (aluAbs sat)

def execShl (h : Head) (d : Dst) (a b : Src) (s : State) : Out := intBin (.shl h d a b) s (wBits h.w) a b aluShl

def execShr (h : Head) (d : Dst) (a b : Src) (s : State) : Out := intBin (.shr h d a b) s (wBits h.w) a b aluShr

def execSar (h : Head) (d : Dst) (a b : Src) (s : State) : Out := intBin (.sar h d a b) s (wBits h.w) a b aluSar

def execRot (h : Head) (d : Dst) (a b : Src) (s : State) : Out := intBin (.rot h d a b) s (wBits h.w) a b aluRot

def execAnd (h : Head) (d : Dst) (a b : Src) (s : State) : Out :=
  intBin (.and h d a b) s (wBits h.w) a b fun x y => x &&& y

def execOr (h : Head) (d : Dst) (a b : Src) (s : State) : Out :=
  intBin (.or h d a b) s (wBits h.w) a b fun x y => x ||| y

def execXor (h : Head) (d : Dst) (a b : Src) (s : State) : Out :=
  intBin (.xor h d a b) s (wBits h.w) a b fun x y => x ^^^ y

def execNot (h : Head) (d : Dst) (a : Src) (s : State) : Out := intUn (.not h d a) s (wBits h.w) a fun x => ~~~x

def execLop3 (h : Head) (d : Dst) (a b : Src) (table : BitVec 8) (s : State) : Out :=
  runV (.lop3 h d a b table) s fun s g sl _ l =>
    aluLop3 (readSrc s g sl l a (wBits h.w)) (readSrc s g sl l b (wBits h.w)) (readDst g sl l d (wBits h.w)) table

def execBfx (h : Head) (d : Dst) (a b : Src) (sg : Bool) (s : State) : Out :=
  runV (.bfx h d a b sg) s fun s g sl _ l => aluBfx sg (readSrc s g sl l a (wBits h.w)) (readSrc s g sl l b 16)

def execBfi (h : Head) (d : Dst) (a b c : Src) (s : State) : Out :=
  runV (.bfi h d a b c) s fun s g sl _ l =>
    aluBfi (readSrc s g sl l a (wBits h.w)) (readSrc s g sl l b (wBits h.w)) (readSrc s g sl l c 16)

def execPopc (h : Head) (d : Dst) (a : Src) (s : State) : Out := intUn (.popc h d a) s (wBits h.w) a aluPopc

def execClz (h : Head) (d : Dst) (a : Src) (s : State) : Out := intUn (.clz h d a) s (wBits h.w) a aluClz

def execBrev (h : Head) (d : Dst) (a : Src) (s : State) : Out := intUn (.brev h d a) s (wBits h.w) a aluBrev

/-- lea (R158): an address plus an index scaled by 2^sh, modulo 2^80. -/
def execLea (h : Head) (d : Dst) (a b : Src) (sh : BitVec 3) (sg : Bool) (s : State) : Out :=
  runV (.lea h d a b sh sg) s fun s g sl _ l =>
    readAddr s g sl l a + (ext sg (readSrc s g sl l b (wBits h.w)) 80 <<< sh.toNat)

/-- isetp (R159). -/
def execIsetp (h : Head) (p : PDst) (a b : Src) (cond : BitVec 4) (sg : Bool) (s : State) : Out :=
  runP (.isetp h p a b cond sg) s fun s g sl l =>
    intCond cond (val sg (readSrc s g sl l a (wBits h.w))) (val sg (readSrc s g sl l b (wBits h.w)))

def execIaddi (h : Head) (d : Dst) (a : Src) (imm : BitVec 27) (s : State) : Out :=
  intUn (.iaddi h d a imm) s (wBits h.w) a fun x => x + imm.signExtend (wBits h.w)

/-- A write of k157 to k159 by a uniform movi (R126): from the slot's next word, within its owned set. -/
def execMaskWrite (h : Head) (beat : BitVec 2) (imm : BitVec 32) (s : State) : Out :=
  gate (.maskWrite h beat imm) s fun s gid s1 g _ sh =>
    let g1 := if g.uniIssues h then g.kset s1 (157 + beat.toNat) imm else g
    .next (s.setGroup gid (g1.done s1 sh))

/-- shfl (R161): the source lane that B selects, or the lane itself where it lies outside 0 to 95. -/
def shflLane (mode : BitVec 4) (l : Lane) (b : BitVec 32) : Lane :=
  let j : Int :=
    match mode.toNat with
    | 0 => b.toNat
    | 1 => (l.val : Int) - b.toNat
    | 2 => (l.val : Int) + b.toNat
    | _ => (l.val ^^^ b.toNat : Nat)
  if h : 0 ≤ j ∧ j < 96 then ⟨j.toNat, by omega⟩ else l

def execShfl (h : Head) (d : Dst) (a b : Src) (mode : BitVec 4) (s : State) : Out :=
  runV (.shfl h d a b mode) s fun s g sl _ l =>
    readSrc s g sl (shflLane mode l (readSrc s g sl l b 32)) a (wBits h.w)

/-- vote (R162): any 0, all 1, uni 2. -/
def voteValue {w : Nat} (mode : BitVec 4) (m : Mask) (v : Lane → BitVec w) : Bool :=
  match mode.toNat with
  | 0 => (lanesOf m).any fun l => v l ≠ 0#w
  | 1 => (lanesOf m).all fun l => v l ≠ 0#w
  | _ => (lanesOf m).all fun l => (lanesOf m).all fun l' => v l = v l'

def execVote (h : Head) (p : PDst) (a : Src) (mode : BitVec 4) (s : State) : Out :=
  gate (.vote h p a mode) s fun s gid s1 g sl sh =>
    let m := execLanes g sl h
    let r := voteValue mode m fun l => readSrc s g sl l a (wBits h.w)
    let g1 :=
      match p with
      | .p n => g.setPred n m (maskOf fun _ => r)
      | .g n => if m = 0#96 then g else g.setGpred n r
    .next (s.setGroup gid (g1.done s1 sh))

/-- vote.ballot (R162): the truth bits of the beats, in three k registers. -/
def execVoteBallot (h : Head) (k : BitVec 8) (a : Src) (s : State) : Out :=
  gate (.voteBallot h k a) s fun s gid s1 g sl sh =>
    let m := execLanes g sl h
    let b := m &&& maskOf fun l => readSrc s g sl l a 32 ≠ 0#32
    let g1 := if m = 0#96 then g else g.kwrite s1 k.toNat b
    .next (s.setGroup gid (g1.done s1 sh))

end Sys2Proof.Machine
end

