-- ==== Sys2Proof/Machine/Transc.lean ====
section
/-! DEFINITION. Roots and transcendental functions: exact where a result is rational, else found from below in fixed point
with Config.guardBits fraction bits, so that the one rounding of R193 follows (log entry 13 says what this rests on). -/

namespace Sys2Proof.Machine

/-- The fraction bits of the fixed point. -/
def fxBits : Nat := Config.guardBits

/-- ⌊√n⌋, bit by bit from bit k − 1 down. -/
def isqrtFrom (n acc : Nat) : Nat → Nat
  | 0 => acc
  | k + 1 =>
    let c := acc + 2 ^ k
    isqrtFrom n (if c * c ≤ n then c else acc) k

def isqrt (n : Nat) : Nat := isqrtFrom n 0 (Nat.log2 n / 2 + 1)

/-- ⌊n^(1/m)⌋, bit by bit. -/
def irootFrom (m n acc : Nat) : Nat → Nat
  | 0 => acc
  | k + 1 =>
    let c := acc + 2 ^ k
    irootFrom m n (if c ^ m ≤ n then c else acc) k

def iroot (m n : Nat) : Nat := irootFrom m n 0 (Nat.log2 n / m + 1)

/-- √q for q ≥ 0: the root in units of 2^−s, with s so large that 700 bits of the root are kept. -/
def sqrtRat (q : Rat) : Rat × Bool :=
  if q = 0 then (0, false)
  else
    let s := (700 - ilog2 q / 2).toNat
    let n := (q * pow2 (2 * s)).floor.toNat
    let r := isqrt n
    let v := (r : Rat) * pow2 (-(s : Int))
    (v, decide (v * v ≠ q))

/-- q^(1/m) for q > 0, in the same way. -/
def rootRat (m : Nat) (q : Rat) : Rat × Bool :=
  let s := (700 - ilog2 q / m).toNat
  let n := (q * pow2 (m * s)).floor.toNat
  let r := iroot m n
  let v := (r : Rat) * pow2 (-(s : Int))
  (v, decide (v ^ m ≠ q))

/-! ### Series in fixed point -/

/-- Σ t^(2k+1)/(2k+1) in units of 2^−b, for t in units of 2^−b, |t| < 1: artanh from its series; `sg` alternates for
arctan. -/
def oddSeries (b : Nat) (alt : Bool) (t2 : Nat) (p : Nat) (k : Nat) : Nat → Int
  | 0 => 0
  | fuel + 1 =>
    if p = 0 then 0
    else
      let term : Int := (p / (2 * k + 1) : Nat)
      let rest := oddSeries b alt t2 (p * t2 / 2 ^ b) (k + 1) fuel
      if alt then term - rest else term + rest

def atanhFx (b t : Nat) : Nat := (oddSeries b false (t * t / 2 ^ b) t 0 (b + 2)).toNat

def atanFx (b t : Nat) : Nat := (oddSeries b true (t * t / 2 ^ b) t 0 (b + 2)).toNat

/-- ln 2 = 2 artanh(1/3), and π = 16 arctan(1/5) − 4 arctan(1/239). -/
def ln2Fx (b : Nat) : Nat := 2 * atanhFx b (2 ^ b / 3)

def piFx (b : Nat) : Nat := 16 * atanFx b (2 ^ b / 5) - 4 * atanFx b (2 ^ b / 239)

/-- Σ t^k / k! in units of 2^−b. -/
def expSeries (b t p k : Nat) : Nat → Nat
  | 0 => 0
  | fuel + 1 => if p = 0 then 0 else p + expSeries b t (p * t / 2 ^ b / (k + 1)) (k + 1) fuel

/-- e^t for t in [0, 1), in units of 2^−b. -/
def expFx (b t : Nat) : Nat := expSeries b t (2 ^ b) 0 (b + 2)

/-- The alternating series of sin and cos: Σ (−1)^k t^(2k+i) / (2k+i)!. -/
def trigSeries (b t2 p k : Nat) : Nat → Int
  | 0 => 0
  | fuel + 1 => if p = 0 then 0 else (p : Int) - trigSeries b t2 (p * t2 / 2 ^ b / ((k + 1) * (k + 2))) (k + 2) fuel

def sinFx (b t : Nat) : Int := trigSeries b (t * t / 2 ^ b) t 1 (b + 2)

def cosFx (b t : Nat) : Int := trigSeries b (t * t / 2 ^ b) (2 ^ b) 0 (b + 2)

/-- A fixed-point magnitude as an irrational result found from below: 64 last places of it are given up. -/
def belowFx (b : Nat) (neg : Bool) (m : Nat) : Exact := .real neg ((m - 2 ^ 64 : Nat) * pow2 (-(b : Int))) true

/-! ### The functions of R193, R194 on finite values -/

/-- 2^a. Below 2^−4000 every result rounds alike, the 64 digits of a stochastic comparison among them (R183). -/
def exp2Exact (a : Rat) : Exact :=
  if a = 0 then .real false 1 false
  else if a ≥ 1100 then .real false (pow2 1100) false
  else if a ≤ -4000 then .real false (pow2 (-4001)) true
  else
    let n := a.floor
    let f := a - n
    if f = 0 then .real false (pow2 n) false
    else if a.abs < pow2 (-400) then (if a > 0 then .real false 1 true else .real false (1 - pow2 (-390)) true)
    else
      let b := fxBits
      let t := (f * ln2Fx b).floor.toNat
      match belowFx b false (expFx b t) with
      | .real s q m => .real s (q * pow2 n) m
      | x => x

/-- log2 a for a > 0. -/
def log2Exact (a : Rat) : Exact :=
  let e := ilog2 a
  let m := a / pow2 e
  if m = 1 then .real (decide (e < 0)) (if e < 0 then (-e : Int) else e) false
  else
    let b := fxBits
    let z := ((m - 1) / (m + 1) * pow2 b).floor.toNat
    let l := 2 * atanhFx b z * 2 ^ b / ln2Fx b
    let v : Int := e * 2 ^ b + l
    belowFx b (decide (v < 0)) v.natAbs

/-- The quadrant of |a|, and the rest in [0, π/2), in units of 2^−fxBits. -/
def reduceTrig (a : Rat) : Nat × Nat :=
  let b := fxBits
  let big := b + 1100
  let half := piFx big / 2
  let x := (a * pow2 big).floor.toNat
  (x / half % 4, x % half / 2 ^ 1100)

def sinExact (neg : Bool) (a : Rat) : Exact :=
  if a = 0 then .real neg 0 false
  else if a < pow2 (-300) then .real neg (a * (1 - pow2 (-500))) true
  else
    let b := fxBits
    let r := reduceTrig a
    let v := if r.1 % 2 = 0 then sinFx b r.2 else cosFx b r.2
    belowFx b (neg != decide (r.1 ≥ 2)) v.natAbs

def cosExact (a : Rat) : Exact :=
  if a = 0 then .real false 1 false
  else if a < pow2 (-300) then .real false (1 - pow2 (-500)) true
  else
    let b := fxBits
    let r := reduceTrig a
    let v := if r.1 % 2 = 0 then cosFx b r.2 else sinFx b r.2
    belowFx b (decide (r.1 = 1 ∨ r.1 = 2)) v.natAbs

/-- The unary functions with the special inputs of R194. -/
inductive UnFn where
  | sqrt | rcp | rsq | ex2 | lg2 | sin | cos
  deriving DecidableEq, Repr

def fUn (fn : UnFn) (a : FVal) : Exact × FFlags :=
  match a with
  | .nan s => (.nan, if s then fNv else fNone)
  | .inf neg =>
    match fn with
    | .sqrt => if neg then (.nan, fNv) else (.inf false, fNone)
    | .rcp => (.real neg 0 false, fNone)
    | .rsq => if neg then (.nan, fNv) else (.real false 0 false, fNone)
    | .ex2 => if neg then (.real false 0 false, fNone) else (.inf false, fNone)
    | .lg2 => if neg then (.nan, fNv) else (.inf false, fNone)
    | .sin | .cos => (.nan, fNv)
  | .fin neg q =>
    if q = 0 then
      match fn with
      | .sqrt => (.real neg 0 false, fNone)
      | .rcp | .rsq => (.inf neg, fDz)
      | .ex2 => (.real false 1 false, fNone)
      | .lg2 => (.inf true, fDz)
      | .sin => (.real neg 0 false, fNone)
      | .cos => (.real false 1 false, fNone)
    else
      match fn with
      | .sqrt => if neg then (.nan, fNv) else let r := sqrtRat q; (.real false r.1 r.2, fNone)
      | .rcp => (.real neg (1 / q) false, fNone)
      | .rsq => if neg then (.nan, fNv) else let r := sqrtRat (1 / q); (.real false r.1 r.2, fNone)
      | .ex2 => (exp2Exact (if neg then -q else q), fNone)
      | .lg2 => if neg then (.nan, fNv) else (log2Exact q, fNone)
      | .sin => (sinExact neg q, fNone)
      | .cos => (cosExact q, fNone)

end Sys2Proof.Machine
end

