-- ==== Sys2Proof/Machine/Float.lean ====
section
/-! DEFINITION. Floating-point arithmetic, comparison and classification (R191 to R197), and redx (R163). -/

namespace Sys2Proof.Machine

/-- The format of a word of opcodes 0x20 to 0x30 (R13). -/
def fmtOf (h : Head) : Format := Format.ofW h.w

def fltBin (i : Instr) (s : State) (h : Head) (a b : Src) (rm : BitVec 3) (op : RMode → FVal → FVal → Exact × FFlags) : Out :=
  runF (w := fBits h.w) i s rm 1 fun s g sl l =>
    roundIn g (fmtOf h) (fpMode g rm) l 0
      (op (fpMode g rm) (readF s g sl l a (fmtOf h)) (readF s g sl l b (fmtOf h)))

def fltUn (i : Instr) (s : State) (h : Head) (a : Src) (rm : BitVec 3) (fn : UnFn) : Out :=
  runF (w := fBits h.w) i s rm 1 fun s g sl l =>
    roundIn g (fmtOf h) (fpMode g rm) l 0 (fUn fn (readF s g sl l a (fmtOf h)))

def execFadd (h : Head) (d : Dst) (a b : Src) (rm : BitVec 3) (s : State) : Out :=
  fltBin (.fadd h d a b rm) s h a b rm fAdd

def execFsub (h : Head) (d : Dst) (a b : Src) (rm : BitVec 3) (s : State) : Out :=
  fltBin (.fsub h d a b rm) s h a b rm fun m x y => fAdd m x y.negate

def execFmul (h : Head) (d : Dst) (a b : Src) (rm : BitVec 3) (s : State) : Out :=
  fltBin (.fmul h d a b rm) s h a b rm fun _ x y => fMul x y

def execFdiv (h : Head) (d : Dst) (a b : Src) (rm : BitVec 3) (s : State) : Out :=
  fltBin (.fdiv h d a b rm) s h a b rm fun _ x y => fDiv x y

/-- ffma takes its rounding from sr.fpctl (R192). -/
def execFfma (h : Head) (d : Dst) (a b c : Src) (s : State) : Out :=
  runF (w := fBits h.w) (.ffma h d a b c) s 0#3 1 fun s g sl l =>
    roundIn g (fmtOf h) (fpMode g 0#3) l 0
      (fFma (fpMode g 0#3) (readF s g sl l a (fmtOf h)) (readF s g sl l b (fmtOf h)) (readF s g sl l c (fmtOf h)))

def execFsqrt (h : Head) (d : Dst) (a : Src) (rm : BitVec 3) (s : State) : Out := fltUn (.fsqrt h d a rm) s h a rm .sqrt
def execFrcp (h : Head) (d : Dst) (a : Src) (rm : BitVec 3) (s : State) : Out := fltUn (.frcp h d a rm) s h a rm .rcp
def execFrsq (h : Head) (d : Dst) (a : Src) (rm : BitVec 3) (s : State) : Out := fltUn (.frsq h d a rm) s h a rm .rsq
def execFex2 (h : Head) (d : Dst) (a : Src) (rm : BitVec 3) (s : State) : Out := fltUn (.fex2 h d a rm) s h a rm .ex2
def execFlg2 (h : Head) (d : Dst) (a : Src) (rm : BitVec 3) (s : State) : Out := fltUn (.flg2 h d a rm) s h a rm .lg2
def execFsin (h : Head) (d : Dst) (a : Src) (rm : BitVec 3) (s : State) : Out := fltUn (.fsin h d a rm) s h a rm .sin
def execFcos (h : Head) (d : Dst) (a : Src) (rm : BitVec 3) (s : State) : Out := fltUn (.fcos h d a rm) s h a rm .cos

/-- frnd: an integral value of the same format, ⌊a⌋ or ⌈a⌉ as round() chooses; only .x raises inexact (R193). -/
def frndBits (g : Group) (f : Format) (exact : Bool) (m : RMode) (l : Lane) (v : FVal) : Nat × FFlags :=
  match v with
  | .nan s => (f.canonNaN, if s then fNv else fNone)
  | .inf neg => (packF f neg f.infCode, fNone)
  | .fin neg q =>
    let r := roundAt m neg q false 0 (srOracle g l 0)
    let lzx := if r.2.2 then fLzx else fNone
    let nx := if exact && r.2.1 then fNx else fNone
    ((roundReal f .rne false neg (r.1 : Rat) false noOracle).bits, nx ||| lzx)

def execFrnd (h : Head) (d : Dst) (a : Src) (exact : Bool) (rm : BitVec 3) (s : State) : Out :=
  runF (w := fBits h.w) (.frnd h d a exact rm) s rm 1 fun s g sl l =>
    let r := frndBits g (fmtOf h) exact (fpMode g rm) l (readF s g sl l a (fmtOf h))
    (BitVec.ofNat _ r.1, r.2)

/-! ### Minimum, maximum, comparison, class -/

/-- The order of R195, in which −0 lies below +0. -/
def fLess (a b : FVal) : Bool :=
  match a, b with
  | .nan _, _ | _, .nan _ => false
  | .inf x, y => x && !(y matches .inf true)
  | x, .inf y => !y && !(x matches .inf false)
  | .fin x p, .fin y q =>
    let u := (FVal.fin x p).real
    let v := (FVal.fin y q).real
    decide (u < v) || (decide (p = 0 ∧ q = 0) && x && !y)

/-- minimumNumber and maximumNumber (R195): the bits chosen. -/
def fMinMax (f : Format) (max : Bool) (xa xb : Nat) (a b : FVal) : Nat × FFlags :=
  let fl := if a.isSig || b.isSig then fNv else fNone
  match a.isNaN, b.isNaN with
  | true, true => (f.canonNaN, fl)
  | true, false => (xb, fl)
  | false, true => (xa, fl)
  | false, false => (if (if max then fLess a b else fLess b a) then xb else xa, fl)

/-- The bits of a flushed input (R187). -/
def flushedBits (f : Format) (ftz : Bool) (x : Nat) : Nat :=
  match flushIn f ftz (decodeF f x) with
  | .fin neg q => if q = 0 then packF f neg 0 else x
  | _ => x

def fltMinMax (i : Instr) (s : State) (h : Head) (a b : Src) (max : Bool) : Out :=
  runF (w := fBits h.w) i s 1#3 0 fun s g sl l =>
    let f := fmtOf h
    let xa := flushedBits f (ftzOn g) (readBitsF s g sl l a f)
    let xb := flushedBits f (ftzOn g) (readBitsF s g sl l b f)
    let r := fMinMax f max xa xb (decodeF f xa) (decodeF f xb)
    (BitVec.ofNat _ r.1, r.2)

def execFmin (h : Head) (d : Dst) (a b : Src) (s : State) : Out := fltMinMax (.fmin h d a b) s h a b false
def execFmax (h : Head) (d : Dst) (a b : Src) (s : State) : Out := fltMinMax (.fmax h d a b) s h a b true

/-- The comparison of two ordered values: equality takes +0 and −0 as equal. -/
def fEq (a b : FVal) : Bool :=
  match a, b with
  | .inf x, .inf y => x = y
  | .fin x p, .fin y q => (FVal.fin x p).real = (FVal.fin y q).real
  | _, _ => false

/-- fsetp's conditions and invalid flag (R196). -/
def fCond (c : BitVec 4) (a b : FVal) : Bool × FFlags :=
  let un := a.isNaN || b.isNaN
  let sig := a.isSig || b.isSig
  let lt := !un && !fEq a b && fLess a b
  let gt := !un && !fEq a b && fLess b a
  let eq := !un && fEq a b
  let quietInv := decide (2 ≤ c.toNat ∧ c.toNat ≤ 5) && un
  let v :=
    match c.toNat with
    | 0 => eq | 1 => !eq | 2 => lt | 3 => lt || eq | 4 => gt | 5 => gt || eq
    | 6 => un || eq | 7 => !un && !eq
    | 8 => un || lt | 9 => un || lt || eq | 10 => un || gt | 11 => un || gt || eq
    | 12 => !un | _ => un
  (v, if sig || quietInv then fNv else fNone)

def execFsetp (h : Head) (p : PDst) (a b : Src) (cond : BitVec 4) (s : State) : Out :=
  gate (.fsetp h p a b cond) s fun s gid s1 g sl sh =>
    let m := execLanes g sl h
    let r : Lanes (Bool × FFlags) := Vector.ofFn fun l =>
      if m.getLsbD l.val then fCond cond (readF s g sl l a (fmtOf h)) (readF s g sl l b (fmtOf h)) else (false, fNone)
    finishF (.fsetp h p a b cond) s gid s1 g sh m (fun l => r[l].2) 0 fun g k u =>
      match p, lowest? k with
      | .p n, _ => g.setPred n k (maskOf fun l => r[l].1)
      | .g n, some l => if u then g.setGpred n r[l].1 else g
      | .g _, none => g

/-- The class of a value (R197). -/
def fClass (f : Format) (v : FVal) : Nat :=
  match v with
  | .nan true => 0
  | .nan false => 1
  | .inf neg => if neg then 2 else 9
  | .fin neg q =>
    if q = 0 then (if neg then 5 else 6)
    else if q < pow2 f.eMin then (if neg then 4 else 7)
    else (if neg then 3 else 8)

/-- fcls reads A's bits as they stand (R197). -/
def execFcls (h : Head) (d : Dst) (a : Src) (s : State) : Out :=
  runV (.fcls h d a) s fun s g sl _ l =>
    BitVec.ofNat (fBits h.w) (2 ^ fClass (fmtOf h) (decodeF (fmtOf h) (readBitsF s g sl l a (fmtOf h))))

/-! ### redx (R163) -/

/-- One fadd node: bits and flags. -/
def faddNode (g : Group) (f : Format) (m : RMode) (x y : Nat × FFlags) : Nat × FFlags :=
  let ex := fAdd m (flushIn f (ftzOn g) (decodeF f x.1)) (flushIn f (ftzOn g) (decodeF f y.1))
  let r := roundTo f m (ftzOn g) ex.1 noOracle
  (r.bits, x.2 ||| y.2 ||| ex.2 ||| r.flags)

def execRedx (h : Head) (d : Dst) (a : Src) (op : BitVec 4) (rm : BitVec 3) (sg : Bool) (s : State) : Out :=
  if op = 6#4 then
    gate (.redx h d a op rm sg) s fun s gid s1 g sl sh =>
      let m := execLanes g sl h
      let f := fmtOf h
      let v : Lanes (Nat × FFlags) := Vector.ofFn fun l =>
        if m.getLsbD l.val then (readBitsF s g sl l a f, fNone) else (packF f true 0, fNone)
      let r := reduce96 (faddNode g f (fpModeNoSr g rm)) (packF f true 0, fNone) v
      if m = 0#96 then .next (s.setGroup gid (g.done s1 sh))
      else
        finishF (.redx h d a op rm sg) s gid s1 g sh m (fun _ => r.2) 0
          fun g k u => g.putResult s1 sh k u fun _ => BitVec.ofNat (fBits h.w) r.1
  else
    runV (.redx h d a op rm sg) s fun s g sl m _ =>
      reduce96 (redOp op sg) (redIdentity (wBits h.w) op sg)
        (Vector.ofFn fun l => if m.getLsbD l.val then readSrc s g sl l a (wBits h.w) else redIdentity (wBits h.w) op sg)

end Sys2Proof.Machine
end

