-- ==== Sys2Proof/Machine/Convert.lean ====
section
/-! DEFINITION. Conversions, block scaling, packing and explicit stochastic rounding (R199 to R205). -/

namespace Sys2Proof.Machine

/-! ### Conversions -/

/-- A value rounded into any format: R182 for the wide formats, R184 for the narrow ones; flush applies to wide results. -/
def convTo (f : Format) (m : RMode) (ftz : Bool) (v : FVal) (o : Oracle) : Rounded :=
  match v with
  | .nan sig => { bits := f.canonNaN, flags := if sig || f = .e2m1 || f = .e3m5 then fNv else fNone }
  | .inf neg =>
    if f.hasInf then { bits := packF f neg f.infCode, flags := fNone }
    else if !f.signed && neg then { bits := 0, flags := fNv }
    else { bits := packF f neg f.maxCode, flags := fNv }
  | .fin neg q => roundReal f m ftz neg q false o

/-- The .sat form of fcvt (R200). -/
def satInf (f : Format) (r : Rounded) : Rounded :=
  if f.hasInf && decide (r.bits % 2 ^ f.body = f.infCode) then
    { bits := r.bits - f.infCode + f.maxCode, flags := r.flags ||| fOf ||| fNx }
  else r

def resF (w : Nat) (r : Rounded) : FRes w := (BitVec.ofNat w r.bits, r.flags)

def execFcvt (h : Head) (d : Dst) (a : Src) (df sf : BitVec 3) (sat : Bool) (rm : BitVec 3) (s : State) : Out :=
  runF (w := fmtBits df) (.fcvt h d a df sf sat rm) s rm 1 fun s g sl l =>
    let x := readF s g sl l a (Format.ofCode sf)
    let r := convTo (Format.ofCode df) (fpMode g rm) (ftzOn g) x (srOracle g l 0)
    resF _ (if sat && !x.isNaN then satInf (Format.ofCode df) r else r)

def execIcvt (h : Head) (d : Dst) (a : Src) (df sw : BitVec 3) (sg : Bool) (rm : BitVec 3) (s : State) : Out :=
  runF (w := fmtBits df) (.icvt h d a df sw sg rm) s rm 1 fun s g sl l =>
    let x := val sg (readSrc s g sl l a (wBits sw))
    resF _ (convTo (Format.ofCode df) (fpMode g rm) (ftzOn g) (.fin (decide (x < 0)) (x.natAbs : Nat)) (srOracle g l 0))

/-- fcvti (R200): the integer that the mode chooses, clamped to the destination's range with nv. -/
def toInt (w : Nat) (sg : Bool) (m : RMode) (v : FVal) (o : Oracle) : FRes w :=
  let lo : Int := if sg then -(2 ^ (w - 1)) else 0
  let hi : Int := if sg then 2 ^ (w - 1) - 1 else 2 ^ w - 1
  match v with
  | .nan _ => (0#w, fNv)
  | .inf neg => (BitVec.ofInt w (if neg then lo else hi), fNv)
  | .fin neg q =>
    let r := roundAt m neg q false 0 o
    let n : Int := if neg then -(r.1 : Int) else r.1
    let lzx := if r.2.2 then fLzx else fNone
    if n < lo then (BitVec.ofInt w lo, fNv ||| lzx)
    else if hi < n then (BitVec.ofInt w hi, fNv ||| lzx)
    else (BitVec.ofInt w n, (if r.2.1 then fNx else fNone) ||| lzx)

def execFcvti (h : Head) (d : Dst) (a : Src) (sf : BitVec 3) (sg : Bool) (rm : BitVec 3) (s : State) : Out :=
  runF (w := wBits h.w) (.fcvti h d a sf sg rm) s rm 1 fun s g sl l =>
    toInt _ sg (fpMode g rm) (readF s g sl l a (Format.ofCode sf)) (srOracle g l 0)

/-! ### Blocks -/

/-- S(m) of R201, for a finite magnitude. -/
def blockScale (ef : Format) (m : Rat) : Nat :=
  if m = 0 then 0
  else if m > (63 / 2 : Rat) * ef.maxMag then 0xFF
  else ((List.range 256).find? fun c => decide (ef.maxMag * Format.e3m5.magOf c ≥ m)).getD 0xFF

/-- S of a value's magnitude; a NaN gives zero. -/
def scaleOf (ef : Format) (v : FVal) : Nat :=
  match v with
  | .nan _ => 0
  | .inf _ => 0xFF
  | .fin _ q => blockScale ef q

def execBscale (h : Head) (d : Dst) (a : Src) (ef sf : BitVec 3) (s : State) : Out :=
  runF (w := 8) (.bscale h d a ef sf) s 1#3 0 fun s g sl l =>
    let x := readF s g sl l a (Format.ofCode sf)
    (BitVec.ofNat 8 (scaleOf (Format.ofCode ef) x), if x.isNaN then fNv else fNone)

/-- Element i of a block, at the source format's width (R202). -/
def blockElem (g : Group) (l : Lane) (a : BitVec 9) (f : Format) (i : Nat) : FVal :=
  flushIn f (ftzOn g) (decodeF f (g.sliceRead l (a.toNat + i * (f.bits / 4)) f.bits).toNat)

/-- The largest scale among the elements: S is monotone, so it is the scale of the largest magnitude (R202). -/
def maxScale (ef : Format) (xs : List FVal) : Nat := xs.foldl (fun m x => max m (scaleOf ef x)) 0

/-- One quantised element of a block (R202). -/
def quantOne (ef : Format) (m : RMode) (scale : Nat) (x : FVal) (o : Oracle) : Rounded :=
  if x.isNaN then { bits := ef.canonNaN, flags := fNv }
  else if scale = 0 then { bits := packF ef x.neg? 0, flags := if x.isZero then fNone else fNv }
  else
    match x with
    | .fin neg q => convTo ef m false (.fin neg (q / Format.e3m5.magOf scale)) o
    | v => convTo ef m false v o

/-- The elements of a block packed, element 0 lowest, with the flags of all (R202). -/
def packElems (bits : Nat) (rs : List Rounded) : Nat × FFlags :=
  rs.foldr (fun r acc => (r.bits + 2 ^ bits * acc.1, r.flags ||| acc.2)) (0, fNone)

/-- The scale that blkq finds in a lane (R202). The manual states no largest magnitude where every element is a NaN: the
scale is then a free value. -/
def foundScale (s : State) (l : Lane) (f : Format) (xs : List FVal) : Nat :=
  if xs.all FVal.isNaN then (Config.freeValue (s.fresh + l.val)).toNat % 256 else maxScale f xs

/-- The latch takes the element word; the scale is the second result, at slice D + W/4 (R18, R202). -/
def execBlkq (h : Head) (d a : BitVec 9) (b : Option Src) (ef sf rm : BitVec 3) (s : State) : Out :=
  gate (.blkq h d a b ef sf rm) s fun s gid s1 g sl sh =>
    let m := execLanes g sl h
    let f := Format.ofCode ef
    let elems := fun l : Lane => (List.range 8).map (blockElem g l a (Format.ofCode sf))
    let r : Lanes (Nat × FFlags × Nat) := Vector.ofFn fun l =>
      if m.getLsbD l.val then
        let xs := elems l
        let sc := match b with
          | some x => (readSrc s g sl l x 8).toNat
          | none => foundScale s l f xs
        let p := packElems f.bits (xs.zipIdx.map fun x => quantOne f (fpMode g rm) sc x.1 (srOracle g l x.2))
        (p.1, p.2, sc)
      else (0, fNone, 0)
    let s := if b = none ∧ ((lanesOf m).any fun l => (elems l).all FVal.isNaN) then { s with fresh := s.fresh + 96 } else s
    finishF (.blkq h d a b ef sf rm) s gid s1 g sh m (fun l => r[l].2.1) (if fpMode g rm = .sr then 8 else 0)
      fun g k u =>
        let g := g.putResult s1 sh k u fun l => BitVec.ofNat (blockBits ef) r[l].1
        if h.sup then g
        else g.sliceWrite k (d.toNat + blockBits ef / 4) fun l => BitVec.ofNat 8 r[l].2.2

/-- One dequantised element (R203). -/
def dequantOne (df ef : Format) (m : RMode) (ftz : Bool) (scale code : Nat) (o : Oracle) : Rounded :=
  match decodeF ef code with
  | .fin neg q => convTo df m ftz (.fin neg (q * Format.e3m5.magOf scale)) o
  | .inf neg => if scale = 0 then { bits := df.canonNaN, flags := fNv } else convTo df m ftz (.inf neg) o
  | v => convTo df m ftz v o

def execBlkdq (h : Head) (d : BitVec 9) (a b : Src) (df ef : BitVec 3) (rm : BitVec 3) (s : State) : Out :=
  runF (w := 8 * fmtBits df) (.blkdq h d a b df ef rm) s rm 8 fun s g sl l =>
    let e := Format.ofCode ef
    let f := Format.ofCode df
    let x := (readSrc s g sl l a (blockBits ef)).toNat
    let sc := (readSrc s g sl l b 8).toNat
    let p := packElems f.bits ((List.range 8).map fun i =>
      dequantOne f e (fpMode g rm) (ftzOn g) sc (x / 2 ^ (e.bits * i) % 2 ^ e.bits) (srOracle g l i))
    (BitVec.ofNat _ p.1, p.2)

/-! ### Packing (R204) -/

/-- Eight elements of `n` bits from consecutive places, each through `f`, as one value. -/
def mapElems (n k : Nat) (x : Nat) (f : BitVec n → BitVec k) : BitVec (8 * k) :=
  BitVec.ofNat _ ((List.range 8).foldr (fun i acc =>
    (f (BitVec.ofNat n (x / 2 ^ (n * i)))).toNat + 2 ^ k * acc) 0)

/-- pack: mode 0 truncates, mode 1 clamps (signed or unsigned). -/
def packOne {n : Nat} (k : Nat) (mode : BitVec 4) (sg : Bool) (x : BitVec n) : BitVec k :=
  if mode = 0#4 then x.setWidth k else satTo k sg (val sg x)

def execPack (h : Head) (d a : BitVec 9) (mode : BitVec 4) (sg : Bool) (sw : BitVec 3) (s : State) : Out :=
  runV (.pack h d a mode sg sw) s fun _ g _ _ l =>
    mapElems (wBits sw) (wBits h.w) (g.sliceRead l a.toNat (8 * wBits sw)).toNat (packOne (wBits h.w) mode sg)

def execUnpack (h : Head) (d a : BitVec 9) (sg : Bool) (sw : BitVec 3) (s : State) : Out :=
  runV (.unpack h d a sg sw) s fun _ g _ _ l =>
    mapElems (wBits sw) (wBits h.w) (g.sliceRead l a.toNat (8 * wBits sw)).toNat fun x => ext sg x (wBits h.w)

end Sys2Proof.Machine
end

