-- ==== Sys2Proof/Machine/Matrix.lean ====
section
/-! DEFINITION. The matrix engine: feeding staging tiles, the operations of the matrix unit, and the words of its sequencer
(R180, R188, R189, R223 to R237). -/

namespace Sys2Proof.Machine

/-! ### Format words (R188) -/

/-- Fields of a format word. -/
def fwElem (w : Word32) : Nat := (w.extractLsb' 0 4).toNat
def fwBlock (w : Word32) : Nat := (w.extractLsb' 4 2).toNat
def fwBand (w : Word32) : Bool := w.getLsbD 8

/-- Does a format word keep R188? -/
def fwLegal (w : Word32) : Bool :=
  let e := fwElem w
  let b := fwBlock w
  decide (w.extractLsb' 11 21 = 0#21 ∧ w.extractLsb' 9 2 ≠ 3#2 ∧ w.extractLsb' 6 2 = 0#2 ∧ b ≠ 3 ∧ e ≤ 6) &&
    decide (e = 0 → b = 1) && decide (e = 5 ∨ e = 6 → b = 0) && (decide (e ≠ 1 ∧ e ≠ 4) || (decide (b = 0) && !fwBand w))

/-- Bits of an element of a format code, and the K-step (R223). -/
def elBits (e : Nat) : Nat := match e with | 0 | 1 => 4 | 2 | 3 | 4 => 8 | _ => 16
def kStep (e : Nat) : Nat := 1024 / elBits e

/-- Elements of a block; 0 without blocks. -/
def blockSize (w : Word32) : Nat := match fwBlock w with | 1 => 8 | 2 => 32 | _ => 0

/-- Blocks per row (R223). -/
def blocksPerRow (w : Word32) : Nat := if blockSize w = 0 then 0 else kStep (fwElem w) / blockSize w

def elFormat (e : Nat) : Format := match e with | 0 => .e2m1 | 2 => .e4m3 | 3 => .e5m2 | 5 => .bf16 | _ => .f16

/-- An integer format: INT4 or INT8. -/
def elInt (e : Nat) : Bool := e = 1 || e = 4

/-! ### Feeding (R226 to R229) -/

/-- A tile of a unit by number. -/
def MxUnit.at_ (u : MxUnit) (t : BitVec 2) : Staging := u.staging[(Fin.ofNat 4 t.toNat)]
def MxUnit.setAt (u : MxUnit) (t : BitVec 2) (x : Staging) : MxUnit := { u with staging := u.staging.set (Fin.ofNat 4 t.toNat) x }
def MxUnit.tile (u : MxUnit) (t : Nat) : AccTile := u.acc[(Fin.ofNat 8 t)]
def MxUnit.setTile (u : MxUnit) (t : Nat) (x : AccTile) : MxUnit := { u with acc := u.acc.set (Fin.ofNat 8 t) x }

/-- The rows that a feed at row N writes, each with its beat (R228). -/
def feedRows (m : Mask) (n : Nat) : List (Nat × Nat) :=
  ([0, 1, 2].filter fun b => decide (m &&& beatMask b ≠ 0#96 ∧ n + b ≤ 63)).map fun b => (n + b, b)

/-- A beat's row of `w`-bit words; lanes that do not issue, and words from `cap` on, are zero. -/
def beatRow (n w cap : Nat) (m : Mask) (b : Nat) (f : Lane → BitVec w) : BitVec n :=
  (List.range 32).foldl (fun acc i =>
    let l : Lane := Fin.ofNat 96 (32 * b + i)
    if m.getLsbD l.val && decide (i < cap) then setField acc (w * i) (f l) else acc) 0#n

/-- Every row that the feed writes is clear (R228). -/
def canFeed (x : Staging) (f : Feed) : Bool :=
  f.data.all (fun r => !x.dataFill.getLsbD r.1) && f.scales.all (fun r => !x.scaleFill.getLsbD r.1) &&
    !(f.band.isSome && x.bandFed)

/-- All the writes of a feed land together. -/
def Staging.feed (x : Staging) (w : Word32) (f : Feed) : Staging :=
  { rows := f.data.foldl (fun t r => tset t r.1 r.2) x.rows,
    scales := f.scales.foldl (fun t r => tset t r.1 r.2) x.scales,
    band := f.band.getD x.band,
    dataFill := f.data.foldl (fun m r => m ||| (1#64 <<< r.1)) x.dataFill,
    scaleFill := f.scales.foldl (fun m r => m ||| (1#64 <<< r.1)) x.scaleFill,
    bandFed := x.bandFed || f.band.isSome,
    word := some (x.word.getD w) }

/-- Is a tile full (R228)? -/
def Staging.full (x : Staging) : Bool :=
  match x.word with
  | none => false
  | some w =>
    decide (x.dataFill = BitVec.allOnes 64) && (blockSize w = 0 || decide (x.scaleFill = BitVec.allOnes 64)) &&
      (!fwBand w || x.bandFed)

/-- The checks of R227 on the issued lanes. -/
def feedTrap (x : Staging) (m : Mask) (fw : Lane → Word32) (fits : Word32 → Bool) : Option (BitVec 8 × Mask) :=
  match lowest? m with
  | none => none
  | some l0 =>
    let w0 := fw l0
    let div := m &&& maskOf fun l => fw l ≠ w0
    if div ≠ 0#96 then some (cFormatDivergence, div)
    else if !fwLegal w0 || !fits w0 then some (cFormatIllegal, m)
    else match x.word with
      | some w => if w ≠ w0 then some (cFormatDivergence, m) else none
      | none => none

/-- The end of an mfeed: its writes land together, and its flags are raised, once the slot's earlier accesses have performed (R111) and its rows are clear. Meanwhile
the slot waits with what it has read, and the word's counter is up. `after` is the group as the feed leaves it. -/
def feedLand (s : State) (gid : Nat) (s1 : Bool) (after : Group) (sh : Shape) (tile : BitVec 2) (w0 : Word32) (f : Feed) : Out :=
  let sl := after.slot s1
  let q := s.quad after.die after.core after.quad
  let x := q.mx.at_ tile
  if stillPending s (pendingOf s gid sl.owned) || !canFeed x f then
    let g := if sl.feed.isSome then after else after.ctrUp sh.head.ctr
    .next (s.setGroup gid (g.modSlot s1 fun sl => { sl with wait := .feed, feed := some (tile, w0, f) }))
  else
    let g := if sl.feed.isSome then after.ctrDown sh.head.ctr else after
    .next ((s.setGroup gid ((g.raise f.flags).done s1 sh)).setQuad g.die g.core g.quad { q with mx := q.mx.setAt tile (x.feed w0 f) })

/-- An mfeed: the vote of its issued lanes, and then what `f` gives for the format word, with the group as it leaves it; or a trap. One that
has passed its checks before goes on from there. -/
def feedWith (i : Instr) (tile : BitVec 2) (b : Src) (fits : Word32 → Bool)
    (f : State → Nat → Bool → Group → Slot → Shape → Mask → Word32 → Except State (State × Group × Feed)) (s : State) : Out :=
  gate i s fun s gid s1 g sl sh =>
    let m := execLanes g sl sh.head
    match sl.feed, lowest? m with
    | some x, _ => feedLand s gid s1 g sh x.1 x.2.1 x.2.2
    | none, none => .next (s.setGroup gid (g.done s1 sh))
    | none, some l0 =>
      let fw := fun l => readSrc s g sl l b 32
      match feedTrap ((s.quad g.die g.core g.quad).mx.at_ tile) m fw fits with
      | some (c, t) => .next (trapWord s gid s1 i sh c 0#8 t true)
      | none =>
        match f s gid s1 g sl sh m (fw l0) with
        | .error s => .next s
        | .ok (s, after, x) => feedLand s gid s1 after sh tile (fw l0) x

/-- mfeed.dat, mfeed.scl and mfeed.band. -/
def feedWord (i : Instr) (tile : BitVec 2) (b : Src) (fits : Word32 → Bool)
    (f : State → Group → Slot → Mask → Word32 → Feed) (s : State) : Out :=
  feedWith i tile b fits (fun s _ _ g sl _ m w => .ok (s, g, f s g sl m w)) s

def execMfeedDat (h : Head) (tile : BitVec 2) (row : BitVec 6) (a b : Src) (s : State) : Out :=
  feedWord (.mfeedDat h tile row a b) tile b (fun _ => true) (fun s g sl m _ =>
    { data := (feedRows m row.toNat).map fun r => (r.1, beatRow 1024 32 32 m r.2 fun l => readSrc s g sl l a 32),
      scales := [], band := none, flags := 0#6 }) s

def execMfeedScl (h : Head) (tile : BitVec 2) (row : BitVec 6) (a b : Src) (s : State) : Out :=
  feedWord (.mfeedScl h tile row a b) tile b (fun w => decide (fwBlock w ≠ 0)) (fun s g sl m w =>
    { data := [], band := none, flags := 0#6,
      scales := (feedRows m row.toNat).map fun r =>
        (r.1, beatRow 256 8 (blocksPerRow w) m r.2 fun l => (readSrc s g sl l a 32).extractLsb' 0 8) }) s

def execMfeedBand (h : Head) (tile : BitVec 2) (a b : Src) (s : State) : Out :=
  feedWord (.mfeedBand h tile a b) tile b fwBand (fun s g sl m _ =>
    { data := [], scales := [], flags := 0#6,
      band := (lowest? m).map fun l => (readSrc s g sl l a 32).extractLsb' 0 16 }) s

/-- The rounding that a format word selects (R188). -/
def fwRound (w : Word32) : RMode := match (w.extractLsb' 9 2).toNat with | 1 => .rz | 2 => .sr | _ => .rne

/-- mfeed.q quantises 8 values of each issued lane as blkq.e2m1.f32 does, and feeds element word and scale (R229). -/
def execMfeedQ (h : Head) (tile : BitVec 2) (row : BitVec 6) (a : BitVec 9) (b : Src) (s : State) : Out :=
  let i := Instr.mfeedQ h tile row a b
  feedWith i tile b (fun w => decide (fwElem w = 0)) (fun s gid s1 g sl sh m w =>
    let md := fwRound w
    let elems := fun l : Lane => (List.range 8).map (blockElem g l a .f32)
    let r : Lanes (Nat × FFlags × Nat) := Vector.ofFn fun l =>
      if m.getLsbD l.val then
        let xs := elems l
        let sc := foundScale s l .e2m1 xs
        let p := packElems 4 (xs.zipIdx.map fun x => quantOne .e2m1 md sc x.1 (srOracle g l x.2))
        (p.1, p.2, sc)
      else (0, fNone, 0)
    let s := if (lanesOf m).any fun l => (elems l).all FVal.isNaN then { s with fresh := s.fresh + 96 } else s
    let fl := fun l : Lane => r[l].2.1
    let t := flagTraps g m fl
    let g1 := g.advanceSr (m &&& ~~~t) (if md = .sr then 8 else 0)
    if t ≠ 0#96 then
      .error (trapWord (s.setGroup gid (g1.raise (orFlags m fl))) gid s1 i sh cFloat ((orFlags t fl &&& trapEnables g).setWidth 8)
        (if sh.head.uni then sl.uniMask else t) true)
    else
      let rows := feedRows m row.toNat
      .ok (s, g1,
        { data := rows.map fun x => (x.1, beatRow 1024 32 32 m x.2 fun l => BitVec.ofNat 32 r[l].1),
          scales := rows.map fun x => (x.1, beatRow 256 8 32 m x.2 fun l => BitVec.ofNat 8 r[l].2.2), band := none, flags := orFlags m fl })) s

/-- mwm: issue count and watermark of a tile (R237). -/
def execMwm (h : Head) (d : Dst) (tile : BitVec 3) (s : State) : Out :=
  gate (.mwm h d tile) s fun s gid s1 g sl sh =>
    let m := execLanes g sl h
    let t := (s.quad g.die g.core g.quad).mx.tile tile.toNat
    let v : Word32 := t.issued ++ 0#9 ++ BitVec.ofNat 7 t.watermark
    .next (s.setGroup gid ((g.putResult s1 sh m true fun _ => v).done s1 sh))

/-! ### Values and sums (R180, R189) -/

/-- A product, exact: ∞ × 0 is a NaN. -/
def mulV (a b : FVal) : FVal :=
  match (fMul a b).1 with
  | .nan => .nan false
  | .inf n => .inf n
  | .real n q _ => .fin n q

/-- The exact sum of a list, as R189 values it. -/
def sumV (xs : List FVal) : Exact :=
  let pos := xs.any fun x => x matches .inf false
  let neg := xs.any fun x => x matches .inf true
  if xs.any FVal.isNaN || (pos && neg) then .nan
  else if pos then .inf false
  else if neg then .inf true
  else exactOf (xs.foldl (fun a x => a + x.real) 0) (xs.all fun x => x.isZero && x.neg?)

/-- An element with its scales (R180). An infinite or NaN band scale makes a NaN. -/
def scaledV (e : Nat) (code : Nat) (scale : Option Nat) (band : Option (BitVec 16)) : FVal :=
  let el := decodeF (elFormat e) code
  let v := match scale with
    | some c => mulV el (.fin false (Format.e3m5.magOf c))
    | none => el
  match band with
  | none => v
  | some b =>
    match decodeF .bf16 b.toNat with
    | .fin n q => mulV v (.fin n q)
    | _ => .nan false

/-- The layout of a column of B (R232): data bytes of a segment, bytes of a segment, and the column pitch. -/
def segData (w : Word32) : Nat := 8 * elBits (fwElem w)
def segBytes (w : Word32) : Nat := segData w + (if blockSize w = 0 then 0 else 64 / blockSize w)
def colPitch (w : Word32) : Nat := kStep (fwElem w) / 64 * segBytes w

/-- The code of element k of a column, and the code of its block's scale. -/
def colElem (w : Word32) (col : List Byte) (k : Nat) : Nat :=
  let bits := elBits (fwElem w)
  let at_ := k / 64 * segBytes w + k % 64 * bits / 8
  if bits = 4 then (col.getD at_ 0#8).toNat / (if k % 2 = 0 then 1 else 16) % 16
  else if bits = 8 then (col.getD at_ 0#8).toNat
  else (col.getD at_ 0#8).toNat + 256 * (col.getD (at_ + 1) 0#8).toNat

def colScale (w : Word32) (col : List Byte) (k : Nat) : Option Nat :=
  if blockSize w = 0 then none
  else some (col.getD (k / 64 * segBytes w + segData w + k % 64 / blockSize w) 0#8).toNat

/-- The code of element k of a data row of A, and its block's scale. -/
def rowElem (w : Word32) (row : BitVec 1024) (k : Nat) : Nat :=
  let bits := elBits (fwElem w)
  (getField row (bits * k) 16).toNat % 2 ^ bits

def rowScale (w : Word32) (sc : BitVec 256) (k : Nat) : Option Nat :=
  if blockSize w = 0 then none else some (getField sc (8 * (k / blockSize w)) 8).toNat

/-- The value of a two's-complement code. -/
def intCode (bits c : Nat) : Int := if c < 2 ^ (bits - 1) then c else c - 2 ^ bits

/-- One accumulator element of an mma (R189, R233). -/
def mmaElem (w : Word32) (n : Nat) (old : Word32) (row : BitVec 1024) (sc : BitVec 256) (bandA : BitVec 16) (col : List Byte)
    (bandB : BitVec 16) : Word32 :=
  let e := fwElem w
  if elInt e then
    let bits := elBits e
    old + BitVec.ofInt 32 ((List.range n).foldl (fun a k => a + intCode bits (rowElem w row k) * intCode bits (colElem w col k)) 0)
  else
    let band := fun b => if fwBand w then some b else none
    let ps := (List.range n).map fun k =>
      mulV (scaledV e (rowElem w row k) (rowScale w sc k) (band bandA)) (scaledV e (colElem w col k) (colScale w col k) (band bandB))
    BitVec.ofNat 32 (rneTo .f32 (sumV (decodeF .f32 old.toNat :: ps)))

/-- One element of an mbscale (R235). -/
def mbscaleElem (old f : Word32) : Word32 :=
  BitVec.ofNat 32 (rneTo .f32 (fMul (decodeF .f32 old.toNat) (decodeF .f32 f.toNat)).1)

/-- A row of 96 words. -/
def rowOf (f : Nat → Word32) : BitVec 3072 := (List.range 96).foldl (fun a j => setField a (32 * j) (f j)) 0#3072

/-! ### The unit's operations (R231 to R235) -/

/-- The quadrant of a key. -/
def quadDie (k : Nat) : Nat := k / 256
def quadCore (k : Nat) : Nat := k / 4 % 64

/-- An operand in .sc under the checks of R233: bits [79:20] zero and every byte in the team's allocation, then alignment. -/
def scOperand (s : State) (p : Prog) (ea : Addr) (n align : Nat) : Option (BitVec 8) :=
  if !inSpace s (p.team.bind (tget s.teams)) p.die p.grid .sc ea n then some dAddressRange
  else if ea.toNat % align ≠ 0 then some dAlignment
  else none

/-- An operation of the unit waits while a write-lock covers bytes that it reads (R113). -/
def scLocked (s : State) (p : Prog) (ea : Addr) (n : Nat) : Bool := lockHit s p.die p.core p.tenant false .sc ea n

/-- Does a word that has issued wait to read a row of a tile (R236)? -/
def rowWaits (s : State) (quad tile : Nat) : Bool :=
  s.groups.any fun g => quadKey g.2.die g.2.core g.2.quad = quad &&
    g.2.anySlot fun sl => match sl.wait with | .acc ts => ts.contains tile | _ => false

/-- The tile that a matrix operation works on. -/
def opTile : Instr → Nat
  | .mzero acc | .mbscale acc _ | .mma _ _ _ acc _ _ _ => acc.toNat
  | _ => 0

/-- Bytes of a team's core scratchpad. -/
def scBytes (s : State) (die core team grid : Nat) (ea : Addr) (n : Nat) : List Byte :=
  memGets s.mem (chipKeys s (tget s.teams team) die core grid .sc ea n)

/-- An operation issues: its tile's watermark becomes 0, and its issue count rises (R231). -/
def startOp (s : State) (quad pid : Nat) (p : Prog) (kind : MxKind) (tile team : Nat) (latch : Option (Nat × BitVec 4)) : State :=
  let q := (tget s.quads quad).getD Quad.reset
  let t := q.mx.tile tile
  let mx := { (q.mx.setTile tile { t with watermark := 0, issued := t.issued + 1#16 }) with
    op := some { kind := kind, tile := tile, group := 0, team := team }, next := none, latch := latch }
  { s with quads := tset s.quads quad { q with mx := mx } }.setProg pid p.next

/-- MATRIX_OP_START: the operation that the sequencer has reached issues when the unit is free and, for an mma, the staging
tile is full, no word that issued before waits for the tile's rows, and no write-lock covers its operands; an operand that breaks a check
faults the program. -/
def execMatrixOpStart (quad : Nat) (s : State) : Out :=
  let q := (tget s.quads quad).getD Quad.reset
  match q.mx.next, q.mx.op with
  | some w, none =>
    match s.prog? w.pid with
    | none => .next s
    | some p =>
      let team := q.mx.holder.getD 0
      if rowWaits s quad (opTile w.instr) then .next s
      else
      match w.instr with
      | .mzero acc => .next (startOp s quad w.pid p .zero acc.toNat team q.mx.latch)
      | .mbscale acc f =>
        let ea := p.reg f
        match scOperand s p ea 256 4 with
        | some d => .next (progFault s w.pid d ea)
        | none =>
          if scLocked s p ea 256 then .next s
          else
          let bs := scBytes s (quadDie quad) (quadCore quad) team p.grid ea 256
          .next (startOp s quad w.pid p (.bscale ((List.range 64).map fun i => ofBytes ((bs.drop (4 * i)).take 4) 32)) acc.toNat team
            q.mx.latch)
      | .mma fmt t reuse acc b c k =>
        let x := q.mx.at_ t
        match x.word with
        | none => .next s
        | some fw =>
          if !x.full then .next s
          else if fmt.toNat ≠ fwElem fw then .next (progFault s w.pid dFormatMismatch 0#80)
          else
            match scOperand s p (p.reg b) (96 * colPitch fw) 8 with
            | some d => .next (progFault s w.pid d (p.reg b))
            | none =>
              match (if fwBand fw then scOperand s p (p.reg c) 2 2 else none) with
              | some d => .next (progFault s w.pid d (p.reg c))
              | none =>
                if scLocked s p (p.reg b) (96 * colPitch fw) || (fwBand fw && scLocked s p (p.reg c) 2) then .next s
                else
                let n := if k = 0#6 then kStep (fwElem fw) else 8 * k.toNat
                .next (startOp s quad w.pid p (.mma fmt fw (p.reg b) (p.reg c) n x.rows x.scales x.band) acc.toNat team
                  (if reuse then some (t.toNat, fmt) else none))
      | _ => .next s
  | _, _ => .next s

/-- The new words of a row (R233, R235). -/
def opRow (s : State) (quad : Nat) (op : MxOp) (grid i : Nat) (old : BitVec 3072) : BitVec 3072 :=
  match op.kind with
  | .zero => 0#3072
  | .bscale f => rowOf fun j => mbscaleElem (getField old (32 * j) 32) (f.getD i 0#32)
  | .mma _ fw b c n rows scales band =>
    let bandB : BitVec 16 := if fwBand fw then ofBytes (scBytes s (quadDie quad) (quadCore quad) op.team grid c 2) 16 else 0#16
    rowOf fun j =>
      mmaElem fw n (getField old (32 * j) 32) ((tget rows i).getD 0#1024) ((tget scales i).getD 0#256) band
        (scBytes s (quadDie quad) (quadCore quad) op.team grid (b + BitVec.ofNat 80 (j * colPitch fw)) (colPitch fw)) bandB

/-- ROW_GROUP_DONE: eight rows of the running operation are final, and the watermark rises by 8 (R231). -/
def execRowGroupDone (quad : Nat) (s : State) : Out :=
  let q := (tget s.quads quad).getD Quad.reset
  match q.mx.op with
  | none => .next s
  | some op =>
    let grid := match tget s.teams op.team with | some t => t.grid | none => 0
    let t := q.mx.tile op.tile
    let rows := (upFrom (8 * op.group) 8).foldl
      (fun rs i => tset rs i (opRow s quad op grid i ((tget t.rows i).getD 0#3072))) t.rows
    let t := { t with rows := rows, watermark := t.watermark + 8 }
    let mx := { (q.mx.setTile op.tile t) with op := if op.group < 7 then some { op with group := op.group + 1 } else none }
    .next { s with quads := tset s.quads quad { q with mx := mx } }

/-! ### Sequencer words (R231, R233, R235) -/

/-- A matrix operation is reached: it waits for the unit. -/
def reachOp (i : Instr) (s : State) : Out :=
  progGate s fun pid p =>
    let q := s.quad p.die p.core p.quad
    match q.mx.next with
    | some _ => .next s
    | none => .next (s.setQuad p.die p.core p.quad { q with mx := { q.mx with next := some { pid := pid, instr := i } } })

def execMma (fmt : BitVec 4) (t : BitVec 2) (reuse : Bool) (acc : BitVec 3) (b c : SReg) (k : BitVec 6) (s : State) : Out :=
  reachOp (.mma fmt t reuse acc b c k) s
def execMzero (acc : BitVec 3) (s : State) : Out := reachOp (.mzero acc) s
def execMbscale (acc : BitVec 3) (f : SReg) (s : State) : Out := reachOp (.mbscale acc f) s

def execMwaitAt (t : BitVec 2) (s : State) : Out :=
  progGate s fun pid p =>
    if ((s.quad p.die p.core p.quad).mx.at_ t).full then .next (s.setProg pid p.next) else .next s

def execMwaitAcc (acc : BitVec 3) (s : State) : Out :=
  progGate s fun pid p =>
    match (s.quad p.die p.core p.quad).mx.op with
    | some o => if o.tile = acc.toNat then .next s else .next (s.setProg pid p.next)
    | none => .next (s.setProg pid p.next)

/-- mrel: an operation that has issued holds its own copy of the tile, so none that waits needs it here (R231, R235). -/
def execMrel (t : BitVec 2) (s : State) : Out :=
  progGate s fun pid p =>
    let q := s.quad p.die p.core p.quad
    let x := q.mx.at_ t
    let x := { x with dataFill := 0#64, scaleFill := 0#64, bandFed := false, word := none }
    let latch := match q.mx.latch with
      | some y => if y.1 = t.toNat then none else some y
      | none => none
    .next ((s.setQuad p.die p.core p.quad { q with mx := { (q.mx.setAt t x) with latch := latch } }).setProg pid p.next)

end Sys2Proof.Machine
end

