-- ==== Sys2Proof/Machine/Stepper.lean ====
section
/-! DEFINITION. The tableau stepper: contexts, tableaux, bindings, runs, calls, Newton iterations, dense output and events
(R115, R238 to R262, R309, R339). -/

namespace Sys2Proof.Machine

/-! ### FP64 scalars -/

def val64 (x : Word64) : FVal := decodeF .f64 x.toNat
def rat64 (x : Word64) : Rat := (val64 x).real
def fin64 (x : Word64) : Bool := match val64 x with | .fin _ _ => true | _ => false
def zero64 (x : Word64) : Bool := (val64 x).isZero
def nan64 (x : Word64) : Bool := (val64 x).isNaN
def inf64 (x : Word64) : Bool := (val64 x).isInf
def neg64 (x : Word64) : Bool := (val64 x).neg?
def round64 (e : Exact) : Word64 := BitVec.ofNat 64 (rneTo .f64 e)
/-- round_rne of a real number. -/
def rne64 (q : Rat) : Word64 := round64 (exactOf q false)
def fvalRat (q : Rat) : FVal := .fin (decide (q < 0)) q.abs
/-- h_s times an exact coefficient: a zero coefficient stays zero where h_s is infinite (R246). -/
def coef (hs : Word64) (q : Rat) : FVal := if q = 0 then fvalRat 0 else mulV (val64 hs) (fvalRat q)
/-- round_rne(t + q × h_s). -/
def stepTime (t hs : Word64) (q : Rat) : Word64 := round64 (sumV [val64 t, coef hs q])
/-- round_rne(h_s × q). -/
def scaled (hs : Word64) (q : Rat) : Word64 := round64 (sumV [coef hs q])

/-! ### Tableaux (R240, R241) -/

def Tableau.A (t : Tableau) (i j : Nat) : Rat := rat64 (t.a.getD (i * t.s + j) 0#64)
def Tableau.AI (t : Tableau) (i j : Nat) : Rat := rat64 (t.ai.getD (i * t.s + j) 0#64)
def Tableau.B (t : Tableau) (j : Nat) : Rat := rat64 (t.b.getD j 0#64)
/-- b_j − b̂_j, exact. -/
def Tableau.DB (t : Tableau) (j : Nat) : Rat := t.B j - rat64 (t.bh.getD j 0#64)
/-- The diagonal coefficient of a stage, nonzero for an implicit one. -/
def Tableau.diag (t : Tableau) (i : Nat) : Rat := if t.kind = 2 then t.AI i i else t.A i i
/-- The dense weight b_i(θ). -/
def Tableau.dense (t : Tableau) (i : Nat) (th : Rat) : Rat :=
  (List.range (t.d + 1)).foldl (fun a m => a + rat64 (t.beta.getD (i * (t.d + 1) + m) 0#64) * th ^ m) 0
/-- Derivative slots: s, or 2s for a split tableau. -/
def Tableau.slots (t : Tableau) : Nat := if t.kind = 2 then 2 * t.s else t.s
/-- The slot of a stage's (implicit) derivative. -/
def Tableau.slot (t : Tableau) (i : Nat) : Nat := if t.kind = 2 then t.s + i else i

/-- Header fields within their values, from the eight bytes of word 0. -/
def headerOk (h : List Byte) : Bool :=
  let f := fun i => (h.getD i 0#8).toNat
  decide (1 ≤ f 0 ∧ f 0 ≤ 16 ∧ f 1 ≤ 2 ∧ 1 ≤ f 2 ∧ f 2 ≤ 15 ∧ f 3 < f 2 ∧ f 4 ≤ 5 ∧ f 5 < 2 ∧ f 6 = 0 ∧ f 7 = 0)

/-- Words of a descriptor after its header. -/
def descWords (h : List Byte) : Nat :=
  let f := fun i => (h.getD i 0#8).toNat
  let s := f 0
  s + (if f 1 = 2 then 2 * s * s else s * s) + s + (if f 3 = 0 then 0 else s) + (if f 4 = 0 then 0 else s * (f 4 + 1))

/-- A descriptor's arrays. -/
def mkTableau (h : List Byte) (ws : List Word64) : Tableau :=
  let f := fun i => (h.getD i 0#8).toNat
  let s := f 0
  let m := if f 1 = 2 then 2 else 1
  let r1 := ws.drop s
  let r2 := r1.drop (m * s * s)
  let r3 := r2.drop s
  let r4 := if f 3 = 0 then r3 else r3.drop s
  { s := s, kind := f 1, p := f 2, q := f 3, d := f 4, fsal := decide (f 5 = 1), c := ws.take s, a := r1.take (s * s),
    ai := if m = 2 then (r1.drop (s * s)).take (s * s) else [], b := r2.take s, bh := if f 3 = 0 then [] else r3.take s,
    beta := if f 4 = 0 then [] else r4.take (s * (f 4 + 1)) }

/-- Is a matrix zero above its diagonal, and on it where `strict`? -/
def lowerTri (s : Nat) (m : Nat → Nat → Rat) (strict : Bool) : Bool :=
  (List.range s).all fun i => (List.range s).all fun j => !(decide (i < j) || (strict && i = j)) || decide (m i j = 0)

/-- The rules of R241 on the coefficients. -/
def Tableau.legal (t : Tableau) (ws : List Word64) : Bool :=
  ws.all fin64 && lowerTri t.s t.A (decide (t.kind ≠ 1)) && (t.kind ≠ 2 || lowerTri t.s t.AI false) &&
    (!t.fsal || (t.kind = 0 && decide (rat64 (t.c.getD (t.s - 1) 0#64) = 1) &&
      (List.range t.s).all fun j => decide (t.A (t.s - 1) j = t.B j)))

/-! ### Bindings (R242, R243) -/

def Binding.e (b : Binding) : Nat := if b.fp32 then 4 else 8
def Binding.fmt (b : Binding) : Format := if b.fp32 then .f32 else .f64
/-- Vector `i` of a region. -/
def Binding.vec (b : Binding) (base : Addr) (i : Nat) : Addr := base + BitVec.ofNat 80 (i * b.n * b.e)
/-- The five regions: first address and bytes. -/
def Binding.regions (b : Binding) (slots : Nat) : List (Addr × Nat) :=
  [(b.state, b.n * b.e), (b.deriv, slots * b.n * b.e), (b.input, b.n * b.e), (b.work, 4 * b.n * b.e), (b.event, b.m * b.e)]

def bytesNat (bs : List Byte) (at_ n : Nat) : Nat := natOfBytes ((bs.drop at_).take n)

/-- The binding that a record names, where its fields are within their values. -/
def mkBinding (roles : Nat) (inCl : Addr → Nat → Bool) (r : List Byte) : Option Binding :=
  let n := bytesNat r
  let ad := fun o => BitVec.ofNat 80 (n o 10)
  let b : Binding :=
    { state := ad 0, space := Space.ofCode (BitVec.ofNat 3 (n 10 1)), fp32 := decide (n 11 1 = 1), n := n 12 4, deriv := ad 16, input := ad 26,
      work := ad 36, event := ad 64, atol := BitVec.ofNat 64 (n 48 8), rtol := BitVec.ofNat 64 (n 56 8), m := n 74 1, role := n 75 1 }
  let bases := [b.state, b.deriv, b.input, b.work, b.event]
  let tolOk := fun x => fin64 x && (zero64 x || !neg64 x)
  if (n 10 1 = 2 ∨ n 10 1 = 4) ∧ n 11 1 ≤ 1 ∧ 1 ≤ b.n ∧ n 46 2 = 0 ∧ n 76 4 = 0 ∧ tolOk b.atol ∧ tolOk b.rtol ∧ b.m ≤ 16 ∧
      b.role < roles ∧ (bases.all fun a => decide (a.toNat % b.e = 0)) ∧
      (n 10 1 = 4 ∨ ((bases.all fun a => decide (a.toNat < 2 ^ 23)) ∧
        ((b.regions 0).all fun x => decide (x.2 = 0) || inCl x.1 x.2))) then some b
  else none

/-! ### Reading and writing vectors (R246) -/

abbrev Xl (α : Type) := State × Except (PageFault × Addr) α

/-- Keys of bytes of the binding's space. -/
def bindKeys (s : State) (c core : Nat) (x : StepCtx) (b : Binding) (k : AccessKind) (a : Addr) (n : Nat) : Xl (List Nat) :=
  if b.space = .cl then
    let t := tget s.teams x.team
    (s, .ok (chipKeys s t (ctxDie c) core (match t with | some t => t.grid | none => 0) .cl a n))
  else xlateBytes s (ctxDie c) core x.tenant false k ((List.range n).map fun i => a + BitVec.ofNat 80 i)

def chunks (e : Nat) (bs : List Byte) (n : Nat) : List Nat := (List.range n).map fun i => natOfBytes ((bs.drop (e * i)).take e)

/-- Whose a context's accesses are: the agent that it is, for the group that started its run or that gave the word, under a number of
their own. -/
def StepCtx.writer (x : StepCtx) (id gid c core : Nat) : Writer := engineWriter id x.agent gid (ctxDie c) core x.tenant 0#2

/-- The group for which a context's run acts. -/
def StepCtx.runner (x : StepCtx) : Nat := match x.run with | some r => r.2.1 | none => 0

/-- The codes of `n` elements, read at the memory that holds them. -/
def readVec (s : State) (c core : Nat) (x : StepCtx) (b : Binding) (a : Addr) (n : Nat) : Xl (List Nat) :=
  match bindKeys s c core x b .read a (n * b.e) with
  | (s, .error e) => (s, .error e)
  | (s, .ok ks) =>
    let (s, bs) := engineRead s (x.writer s.seqNo x.runner c core) ks
    (s, .ok (chunks b.e bs n))

/-- A context writes bytes at their homes for a group; other dies see them as R106 says. -/
def StepCtx.store (x : StepCtx) (s : State) (gid c core : Nat) (a : Addr) (ks : List Nat) (bs : List Byte) : State :=
  let (n, s) := s.nextId
  engineStore s (x.writer n gid c core) a ks bs

/-- Elements are written at their homes. -/
def writeVec (s : State) (gid c core : Nat) (x : StepCtx) (b : Binding) (a : Addr) (vs : List Nat) : Xl Unit :=
  match bindKeys s c core x b .write a (vs.length * b.e) with
  | (s, .error e) => (s, .error e)
  | (s, .ok ks) => (x.store s gid c core a ks (vs.flatMap fun v => natBytes v b.e), .ok ())

def readVecs (s : State) (c core : Nat) (x : StepCtx) (b : Binding) : List (FVal × Addr) → Xl (List (FVal × List Nat))
  | [] => (s, .ok [])
  | (q, a) :: r =>
    match readVec s c core x b a b.n with
    | (s, .error e) => (s, .error e)
    | (s, .ok v) =>
      match readVecs s c core x b r with
      | (s, .error e) => (s, .error e)
      | (s, .ok vs) => (s, .ok ((q, v) :: vs))

/-- One element of a combination: terms whose coefficient is zero are left out (R246). -/
def combElem (f : Format) (ts : List (FVal × List Nat)) (i : Nat) : Nat :=
  let xs := (ts.filter fun t => !t.1.isZero).map fun t => mulV t.1 (decodeF f (t.2.getD i 0))
  if xs.isEmpty then 0 else rneTo f (sumV xs)

/-- What one assignment of a combination does. -/
inductive Asg where
  | copy (dst src : Addr)
  | lin (dst : Addr) (terms : List (FVal × Addr))

def runAsg (s : State) (gid c core : Nat) (x : StepCtx) (b : Binding) : Asg → Xl Unit
  | .copy d a =>
    match readVec s c core x b a b.n with
    | (s, .error e) => (s, .error e)
    | (s, .ok v) => writeVec s gid c core x b d v
  | .lin d ts =>
    match readVecs s c core x b ts with
    | (s, .error e) => (s, .error e)
    | (s, .ok vs) => writeVec s gid c core x b d ((List.range b.n).map (combElem b.fmt vs))

def runAsgs (s : State) (gid c core : Nat) (x : StepCtx) (b : Binding) : List Asg → Xl Unit
  | [] => (s, .ok ())
  | a :: r =>
    match runAsg s gid c core x b a with
    | (s, .error e) => (s, .error e)
    | (s, .ok _) => runAsgs s gid c core x b r

/-! ### The combinations of a step (R245, R254, R257, R260, R261) -/

/-- A term whose coefficient is one, or minus one. -/
def one : FVal := fvalRat 1
def minusOne : FVal := fvalRat (-1)

/-- y and the derivatives of the stages before `i`, with their coefficients. -/
def histTerms (t : Tableau) (b : Binding) (hs : Word64) (i : Nat) : List (FVal × Addr) :=
  (one, b.state) :: (List.range i).flatMap fun j =>
    if t.kind = 2 then [(coef hs (t.A i j), b.vec b.deriv j), (coef hs (t.AI i j), b.vec b.deriv (t.s + j))]
    else [(coef hs (t.A i j), b.vec b.deriv j)]

/-- The stages' derivatives under weights. -/
def stageTerms (t : Tableau) (b : Binding) (w : Nat → FVal) : List (FVal × Addr) :=
  (List.range t.s).flatMap fun j =>
    if t.kind = 2 then [(w j, b.vec b.deriv j), (w j, b.vec b.deriv (t.s + j))] else [(w j, b.vec b.deriv j)]

/-- The terms of y_new, and of ỹ(θ), from the state at the step's start. -/
def newTerms (t : Tableau) (b : Binding) (start : Addr) (hs : Word64) : List (FVal × Addr) :=
  (one, start) :: stageTerms t b fun j => coef hs (t.B j)
def denseTerms (t : Tableau) (b : Binding) (start : Addr) (hs : Word64) (th : Rat) : List (FVal × Addr) :=
  (one, start) :: stageTerms t b fun j => coef hs (t.dense j th)

def planOf (x : StepCtx) (t : Tableau) (b : Binding) (o : StepOp) : List Asg :=
  let hs := x.hs
  let work := b.vec b.work
  let k := fun i => b.vec b.deriv (t.slot i)
  let withZ := fun i => histTerms t b hs i ++ [(coef hs (t.diag i), work 1)]
  match o with
  | .fsal => [.copy (b.vec b.deriv 0) (b.vec b.deriv (t.s - 1))]
  | .input i => [.lin b.input (histTerms t b hs i)]
  | .zero _ => [.lin (work 1) []]
  | .newtonInput i _ => [.lin b.input (withZ i)]
  | .residual i _ => [.lin b.input [(one, work 1), (minusOne, k i)]]
  | .update i _ => [.lin (work 1) [(one, work 1), (minusOne, k i)]]
  | .slot i => [.lin (k i) [(one, work 1)]]
  | .implInput i => [.lin b.input (withZ i)]
  | .candidate => [.lin (work 0) (newTerms t b b.state hs)]
  | .accept => [.copy (work 2) b.state, .copy b.state (work 0)]
  | .trial th => [.lin (work 0) (denseTerms t b b.state hs (rat64 th))]
  | .truncate th =>
    [.copy (work 2) b.state,
     .lin b.state (if rat64 th = 1 then newTerms t b (work 2) hs else denseTerms t b (work 2) hs (rat64 th))]

/-! ### Norms and the controller (R247, R248, R254) -/

/-- u(n) of R247. -/
def normU (e w : Word64) : Word64 :=
  if zero64 e then 0#64
  else if zero64 w then 0x7FF0000000000000#64
  else
    match val64 e, val64 w with
    | .nan _, _ | _, .nan _ => 0x7FF8000000000000#64
    | .inf _, .inf _ => 0x7FF8000000000000#64
    | .inf _, _ => 0x7FF0000000000000#64
    | _, .inf _ => 0#64
    | .fin _ p, .fin _ q => rne64 ((p / q) * (p / q))

def add64 (a b : Word64) : Word64 := round64 (fAdd .rne (val64 a) (val64 b)).1

def pairSums : List Word64 → List Word64
  | a :: b :: r => add64 a b :: pairSums r
  | l => l

/-- The tree sum of a block of 64. -/
def blockSum (v : List Word64) : Word64 :=
  ((pairSums (pairSums (pairSums (pairSums (pairSums (pairSums (v ++ List.replicate (64 - v.length) 0#64)))))))).headD 0#64

/-- R247's procedure on the pairs e(n), w(n). -/
def normOf (us : List Word64) : Word64 :=
  let n := us.length
  let sum := (List.range ((n + 63) / 64)).foldl (fun a i => add64 a (blockSum ((us.drop (64 * i)).take 64))) 0#64
  match val64 sum with
  | .nan _ => 0x7FF8000000000000#64
  | .inf _ => 0x7FF0000000000000#64
  | .fin _ q =>
    let r := sqrtRat (q / (n : Nat))
    round64 (.real false r.1 r.2)

/-- The greater magnitude of two; a NaN has none. -/
def maxMagV (a b : FVal) : FVal :=
  match a, b with
  | .nan _, _ | _, .nan _ => .nan false
  | .inf _, _ | _, .inf _ => .inf false
  | .fin _ p, .fin _ q => .fin false (max p q)

/-- w(n) := round(atol + rtol × m). -/
def weightOf (b : Binding) (m : FVal) : Word64 := round64 (sumV [val64 b.atol, mulV (val64 b.rtol) m])

/-- nrm of a Newton correction (R254). -/
def newtonNorm (b : Binding) (delta y : List Nat) : Word64 :=
  normOf ((List.range b.n).map fun i =>
    let d := decodeF b.fmt (delta.getD i 0)
    let yi := decodeF b.fmt (y.getD i 0)
    normU (match d with | .nan _ => 0x7FF8000000000000#64 | v => round64 (sumV [v])) (weightOf b (maxMagV yi yi)))

/-- err of a candidate (R247). -/
def errNorm (t : Tableau) (b : Binding) (hs : Word64) (ks : List (List Nat)) (y yNew : List Nat) : Word64 :=
  normOf ((List.range b.n).map fun i =>
    let ts := (List.range t.slots).map fun j => mulV (coef hs (t.DB (j % t.s))) (decodeF b.fmt ((ks.getD j []).getD i 0))
    normU (round64 (sumV ts)) (weightOf b (maxMagV (decodeF b.fmt (y.getD i 0)) (decodeF b.fmt (yNew.getD i 0)))))

def c09 : Word64 := 0x3FECCCCCCCCCCCCD#64
def c02 : Word64 := 0x3FC999999999999A#64
def cKappa : Word64 := 0x3F9EB851EB851EB8#64

/-- R248: does err accept the step, and the next h. -/
def control (err hs : Word64) (q : Nat) : Bool × Word64 :=
  if nan64 err || inf64 err then (false, scaled hs (rat64 c02))
  else
    let fac : Rat :=
      if zero64 err then 4
      else
        let r := rootRat (q + 1) (1 / rat64 err)
        let r := round64 (.real false r.1 r.2)
        if inf64 r then 4 else
          let f := rne64 (rat64 c09 * rat64 r)
          if inf64 f then 4 else min 4 (max (rat64 c02) (rat64 f))
    (decide (rat64 err ≤ 1), scaled hs fac)

/-- What a Newton iteration decides. -/
inductive Newton where
  | converged | fail | more
  deriving DecidableEq, Repr

def newtonNext (m : Nat) (prev : Option Word64) (nrm : Word64) : Newton :=
  if nan64 nrm then .fail
  else if zero64 nrm then .converged
  else
    let last := if 15 ≤ m then Newton.fail else .more
    match prev with
    | none => last
    | some p =>
      if m < 2 || inf64 p then last
      else if inf64 nrm then .fail
      else
        let rho := rne64 (rat64 nrm / rat64 p)
        if inf64 rho || decide (1 ≤ rat64 rho) then .fail
        else
          let v := rne64 (rat64 rho * rat64 nrm / (1 - rat64 rho))
          if !inf64 v && decide (rat64 v ≤ rat64 cKappa) then .converged else last

/-! ### Progress of a run -/

def setCtx (s : State) (c : Nat) (x : StepCtx) : State := { s with ctxs := tset s.ctxs c x }

/-- The first phase of a stage. -/
def stagePhase (t : Tableau) (i : Nat) : StepPhase := if t.diag i = 0 then .comb (.input i) else .comb (.zero i)
def nextStage (t : Tableau) (i : Nat) : StepPhase := if i + 1 < t.s then stagePhase t (i + 1) else .comb .candidate

/-- An attempt begins: its step size, and the first stage (R245). -/
def beginAttempt (s : State) (c : Nat) (x : StepCtx) (t : Tableau) : State :=
  let up := decide (rat64 x.t < rat64 x.tEnd)
  let reach := inf64 x.h ||
    (if up then decide (rat64 x.tEnd ≤ rat64 x.t + rat64 x.h) else decide (rat64 x.t + rat64 x.h ≤ rat64 x.tEnd))
  let hs := if reach then rne64 (rat64 x.tEnd - rat64 x.t) else x.h
  let t1 := stepTime x.t hs 1
  let x := { x with hs := hs, hOld := x.h, clamped := reach, nrm := none, ill := none }
  if !inf64 t1 && decide (rat64 t1 = rat64 x.t) then stopRun (setCtx s c x) c 0x05#8 0xFF#8
  else
    let ph :=
      if t.fsal && !x.first then (if x.prevRejected then nextStage t 0 else .comb .fsal) else stagePhase t 0
    setCtx s c { x with phase := ph }

/-- The end of the step in progress. -/
def stepEnd (x : StepCtx) : Word64 := if x.clamped then x.tEnd else stepTime x.t x.hs 1

/-- A rejected attempt: the next begins with a new h. -/
def rejectStep (s : State) (c : Nat) (x : StepCtx) (t : Tableau) (h : Word64) : State :=
  beginAttempt s c { x with rejected := x.rejected + 1#32, h := h, first := false, prevRejected := true } t

/-- An accepted candidate goes to its event calls, or is taken over. -/
def acceptPhase (x : StepCtx) (b : Binding) : StepPhase :=
  if b.m = 0 then .comb .accept else if x.gref.isNone then .call .eventRef else .call .eventCand

/-! ### Events (R259, R260) -/

def armed (ref : Word64) : Bool := !zero64 ref
/-- changes(e, a, c). -/
def changes (ref a c : Word64) : Bool := armed ref && !zero64 a && (zero64 c || neg64 c != neg64 a)

def lowestChange (ref a c : List Word64) : Option Nat :=
  (List.range ref.length).find? fun e => changes (ref.getD e 0#64) (a.getD e 0#64) (c.getD e 0#64)

def half (n : Nat) : Rat := pow2 (-(n : Int))

/-- θc of one function: the secant, rounded once. -/
def secant (l : Illinois) (ga gb : Word64) : Word64 :=
  let wa := half l.wa * rat64 ga
  let wb := half l.wb * rat64 gb
  rne64 (rat64 l.ta + (rat64 l.tb - rat64 l.ta) * wa / (wa - wb))

/-- The head of the search: the root is found, or the next trial. -/
def locate (x : StepCtx) (l : Illinois) : StepCtx :=
  let ref := x.gref.getD []
  let g := fun (v : List Word64) e => v.getD e 0#64
  if 64 ≤ l.trials ∨ rat64 l.tb - rat64 l.ta ≤ pow2 (-40) then
    { x with ill := some l, event := BitVec.ofNat 8 ((lowestChange ref l.ga l.gb).getD 0), phase := .comb (.truncate l.tb) }
  else
    let cs := ((List.range ref.length).filter fun e =>
        changes (g ref e) (g l.ga e) (g l.gb e) && fin64 (g l.ga e) && fin64 (g l.gb e)).map
      fun e => secant l (g l.ga e) (g l.gb e)
    let best := cs.foldl (fun (m : Option Word64) v =>
      match m with | none => some v | some w => if rat64 v < rat64 w then some v else some w) none
    let mid := rne64 ((rat64 l.ta + rat64 l.tb) / 2)
    let tc := match best with
      | none => mid
      | some v => if rat64 v ≤ rat64 l.ta ∨ rat64 l.tb ≤ rat64 v then mid else v
    { x with ill := some { l with trials := l.trials + 1 }, phase := .comb (.trial tc) }

/-- A trial's values are known. -/
def afterTrial (x : StepCtx) (l : Illinois) (tc : Word64) (gc : List Word64) : StepCtx :=
  let ref := x.gref.getD []
  let hit := (List.range ref.length).filter fun e => changes (ref.getD e 0#64) (l.ga.getD e 0#64) (gc.getD e 0#64)
  if hit.any fun e => !zero64 (gc.getD e 0#64) then
    locate x { l with tb := tc, gb := gc, wa := if l.lastB = some true then l.wa + 1 else l.wa, wb := 0, lastB := some true }
  else
    match hit with
    | e :: _ => { x with event := BitVec.ofNat 8 e, phase := .comb (.truncate tc) }
    | [] => locate x { l with ta := tc, ga := gc, wb := if l.lastB = some false then l.wb + 1 else l.wb, wa := 0, lastB := some false }

/-- The values that the event routine wrote, as FP64. -/
def eventValues (b : Binding) (v : List Nat) : List Word64 :=
  v.map fun x => match decodeF b.fmt x with
    | .nan _ => 0x7FF8000000000000#64
    | .inf n => if n then 0xFFF0000000000000#64 else 0x7FF0000000000000#64
    | .fin n q => round64 (.real n q false)

/-! ### Calls (R249, R250) -/

/-- What a call names: routine, stage, part, iteration, its t, its bases, the elements of its output, and γ's stage. -/
structure CallInfo where
  routine : Nat
  stage : Nat
  part : Nat
  iter : Nat
  t : Word64
  input : Addr
  output : Addr
  outN : Nat
  g : Word64

def callInfo (x : StepCtx) (t : Tableau) (b : Binding) (k : StepCall) : CallInfo :=
  let ti := fun i => stepTime x.t x.hs (rat64 (t.c.getD i 0#64))
  let g := fun i => if t.diag i = 0 then 0#64 else scaled x.hs (t.diag i)
  match k with
  | .rhs i part m =>
    { routine := 0, stage := i, part := part, iter := m, t := ti i, input := b.input,
      output := b.vec b.deriv (if part = 1 then i else t.slot i), outN := b.n, g := g i }
  | .solve i m =>
    { routine := 1, stage := i, part := 0, iter := m, t := ti i, input := b.input, output := b.vec b.deriv (t.slot i), outN := b.n, g := g i }
  | .eventRef => { routine := 2, stage := 0, part := 0, iter := 0, t := x.t, input := b.state, output := b.event, outN := b.m, g := 0#64 }
  | .eventCand =>
    { routine := 2, stage := 0, part := 0, iter := 0, t := stepEnd x, input := b.vec b.work 0, output := b.event, outN := b.m, g := 0#64 }
  | .eventTrial th =>
    { routine := 2, stage := 0, part := 0, iter := 0, t := stepTime x.t x.hs (rat64 th), input := b.vec b.work 0,
      output := b.event, outN := b.m, g := 0#64 }

def callWords (n : Nat) (x : StepCtx) (i : CallInfo) : List Word32 :=
  let lo := fun (w : Word64) => w.extractLsb' 0 32
  let hi := fun (w : Word64) => w.extractLsb' 32 32
  [BitVec.ofNat 32 (n * 2 ^ 20 + i.iter * 2 ^ 16 + i.part * 2 ^ 12 + i.stage * 2 ^ 8 + i.routine), x.calls - 1#32, lo i.t, hi i.t,
   i.input.extractLsb' 0 32, i.input.extractLsb' 32 32, i.output.extractLsb' 0 32, i.output.extractLsb' 32 32]

/-- The outstanding call's record, as a group finds it (R249). -/
def putRecordOf (c : Nat) (x : StepCtx) (q : CallInfo) (s1 : Bool) (g : Group) : Group :=
  putCall g s1 (callWords (c % 4) x q) (q.output.extractLsb' 64 16 ++ q.input.extractLsb' 64 16) x.hs q.g

/-- The first waiting slot of each group to which a call goes. -/
def takers (ws : List (Nat × Bool × Bool)) : List Nat → List (Nat × Bool × Bool)
  | [] => []
  | gid :: r => (ws.find? fun w => w.1 = gid).toList ++ takers ws r

/-- STEP_CALL_DELIVER: the call goes to every unretired group of the serving role, once what the context has written for it has performed
for the agents of its cluster (R115); without such a group the run stops. Groups that wait in step.wait have it at once. -/
def execStepCallDeliver (c : Nat) (s : State) : Out :=
  match tget s.ctxs c with
  | none => .next s
  | some x =>
    match x.phase, x.tab, x.bind, tget s.teams x.team with
    | .call k, some t, some b, some team =>
      let gs := team.groups.filter fun gid => match s.group? gid with | some g => g.role = b.role | none => false
      if gs.isEmpty then .next (stopRun s c 0x08#8 0xFF#8)
      else if !agentLanded s (ctxDie c) x.agent then .next s
      else
        let i := callInfo x t b k
        let now := takers (stepWaiters s x.team) gs
        let x := { x with phase := .out k, owing := gs, toTake := gs.filter fun gid => !now.any fun w => w.1 = gid, settling := [],
                          calls := x.calls + 1#32, openIn := some (i.input, b.n * b.e), openOut := some (i.output, i.outN * b.e) }
        .next (now.foldl (fun s w => giveCall s w.1 w.2 (putRecordOf c x i w.2.1)) (setCtx s c x))
    | _, _, _, _ => .next s

/-! ### The stepper's own steps -/

/-- A combination access does not translate: the combination parks with a record of kind 5 (R300). -/
def ctxPark (s : State) (c : Nat) (x : StepCtx) (e : PageFault × Addr) : State :=
  let r := x.run.getD (0, 0, false)
  let (s, seq) := stopRecord s (ctxDie c) r.1 x.tenant x.place e.2 e.1
  setCtx s c { x with stopped := some (ctxDie c, seq) }

/-- A combination has been formed: what follows (R245, R248, R254, R260, R261). -/
def afterComb (s : State) (c core : Nat) (x : StepCtx) (t : Tableau) (b : Binding) (y : List Nat) (o : StepOp) : State :=
  let go := fun p => setCtx s c { x with phase := p }
  let part := if t.kind = 2 then 2 else 0
  match o with
  | .fsal => go (nextStage t 0)
  | .input i => go (.call (.rhs i part 0))
  | .zero i => setCtx s c { x with nrm := none, phase := .comb (.newtonInput i 1) }
  | .newtonInput i m => go (.call (.rhs i part m))
  | .residual i m => go (.call (.solve i m))
  | .slot i => if t.kind = 2 then go (.comb (.implInput i)) else go (nextStage t i)
  | .implInput i => go (.call (.rhs i 1 0))
  | .trial th => go (.call (.eventTrial th))
  | .update i m =>
    match readVec s c core x b (b.vec b.deriv (t.slot i)) b.n with
    | (s, .error e) => ctxPark s c x e
    | (s, .ok d) =>
      let nrm := newtonNorm b d y
      match newtonNext m x.nrm nrm with
      | .converged => setCtx s c { x with nrm := some nrm, phase := .comb (.slot i) }
      | .more => setCtx s c { x with nrm := some nrm, phase := .comb (.newtonInput i (m + 1)) }
      | .fail => rejectStep s c x t (scaled x.hs (1 / 2))
  | .candidate =>
    match readVecs s c core x b ((List.range t.slots).map fun j => (one, b.vec b.deriv j)) with
    | (s, .error e) => ctxPark s c x e
    | (s, .ok ks) =>
      match readVec s c core x b (b.vec b.work 0) b.n with
      | (s, .error e) => ctxPark s c x e
      | (s, .ok yn) =>
        if t.q = 0 then
          if yn.any fun v => match decodeF b.fmt v with | .fin _ _ => false | _ => true then stopRun s c 0x07#8 0xFF#8
          else setCtx s c { x with phase := acceptPhase x b }
        else
          let d := control (errNorm t b x.hs (ks.map Prod.snd) y yn) x.hs t.q
          if d.1 then setCtx s c { x with h := d.2, phase := acceptPhase x b } else rejectStep s c x t d.2
  | .accept =>
    let te := stepEnd x
    let x := { x with
      accepted := x.accepted + 1#32, t := te, first := false, prevRejected := false,
      retained := some { ts := x.t, hs := x.hs, tEnd := te, thetaMax := 0x3FF0000000000000#64 } }
    if rat64 te = rat64 x.tEnd then stopRun (setCtx s c x) c 0x02#8 0xFF#8
    else if x.limit ≠ 0#32 ∧ x.limit ≤ x.accepted then stopRun (setCtx s c x) c 0x06#8 0xFF#8
    else beginAttempt s c x t
  | .truncate th =>
    let te := if rat64 th = 1 then stepEnd x else stepTime x.t x.hs (rat64 th)
    stopRun (setCtx s c
      { x with accepted := x.accepted + 1#32, t := te, h := x.hOld,
               retained := some { ts := x.t, hs := x.hs, tEnd := te, thetaMax := th } }) c 0x03#8 x.event

/-- A call has completed: what follows. -/
def afterCall (s : State) (c core : Nat) (x : StepCtx) (t : Tableau) (b : Binding) (k : StepCall) : State :=
  let x' := { x with openIn := none, openOut := none, settling := [] }
  if x.stopReq then stopRun s c 0x04#8 0xFF#8
  else
    let events := fun (f : State → StepCtx → List Word64 → State) =>
      match readVec s c core x b b.event b.m with
      | (s, .error e) => ctxPark s c x e
      | (s, .ok v) =>
        let g := eventValues b v
        if g.any nan64 then stopRun s c 0x07#8 0xFF#8 else f s x' g
    match k with
    | .rhs i part m =>
      if m ≠ 0 then setCtx s c { x' with phase := .comb (.residual i m) }
      else if part = 2 then setCtx s c { x' with phase := .call (.rhs i 1 0) }
      else setCtx s c { x' with phase := nextStage t i }
    | .solve i m => setCtx s c { x' with phase := .comb (.update i m) }
    | .eventRef => events fun s x g => setCtx s c { x with gref := some g, phase := .call .eventCand }
    | .eventCand => events fun s x g =>
      let ref := x.gref.getD []
      match lowestChange ref ref g with
      | some _ =>
        setCtx s c (locate { x with gnew := g }
          { ta := 0#64, tb := 0x3FF0000000000000#64, ga := ref, gb := g, wa := 0, wb := 0, lastB := none, trials := 0 })
      | none =>
        let ref' := (List.range ref.length).map fun e => if zero64 (g.getD e 0#64) then ref.getD e 0#64 else g.getD e 0#64
        setCtx s c { x with gref := some ref', gnew := g, phase := .comb .accept }
    | .eventTrial th => events fun s x g =>
      match x.ill with
      | some l => setCtx s c (afterTrial x l th g)
      | none => s

/-- The scope at which a group's accesses perform before its step.done counts (R115). -/
def Binding.scope (b : Binding) : Nat := if b.space = .cl then 2 else 4

/-- STEP_COMBINATION_DONE: the combination in flight is formed; or the outstanding call, done by every group, completes. -/
def execStepCombinationDone (c : Nat) (s : State) : Out :=
  match tget s.ctxs c with
  | none => .next s
  | some x =>
    match x.tab, x.bind, x.run with
    | some t, some b, some r =>
      if x.stopped.isSome || x.st ≠ .running then .next s
      else
        match x.phase with
        | .comb o =>
          match readVec s c r.1 x b b.state b.n with
          | (s, .error e) => .next (ctxPark s c x e)
          | (s, .ok y) =>
            match runAsgs s x.runner c r.1 x b (planOf x t b o) with
            | (s, .error e) => .next (ctxPark s c x e)
            | (s, .ok _) => .next (afterComb s c r.1 x t b y o)
        | .out k =>
          if x.owing.isEmpty && x.settling.all (performed s (ctxDie c) b.scope) then .next (afterCall s c r.1 x t b k) else .next s
        | _ => .next s
    | _, _, _ => .next s

/-! ### The sub-operations (R238, R239, R309) -/

def StepCtx.new (team tenant agent : Nat) : StepCtx :=
  { team := team, tenant := tenant, agent := agent, st := .idle, tab := none, bind := none, status := 0#8, event := 0xFF#8, accepted := 0#32,
    rejected := 0#32, calls := 0#32, limit := 0#32, t := 0#64, tEnd := 0#64, h := 0#64, hs := 0#64, hOld := 0#64,
    clamped := false, first := true, prevRejected := false, phase := .off, owing := [], toTake := [], settling := [],
    nrm := none, gref := none, gnew := [], ill := none, retained := none, openIn := none, openOut := none, stopReq := false,
    run := none, place := 0#8, stopped := none }

/-- The context without a run, with a status (R239, R257). -/
def StepCtx.fresh (x : StepCtx) (status : BitVec 8) : StepCtx :=
  { StepCtx.new x.team x.tenant x.agent with tab := x.tab, bind := x.bind, status := status }

/-- The team's context, taken at its first use; none while all four of the cluster are held (R238). -/
def takeCtx (s : State) (tid : Nat) (t : Team) (g : Group) : Option (State × Nat × StepCtx) :=
  match t.ctx with
  | some c => (tget s.ctxs c).map fun x => (s, c, x)
  | none =>
    let base := (t.die * 8 + t.clu) * 4
    match (upFrom base 4).find? fun c => (tget s.ctxs c).isNone with
    | none => none
    | some c =>
      let (agent, s) := s.nextId
      let x := StepCtx.new tid g.tenant agent
      some (setCtx { s with teams := tset s.teams tid { t with ctx := some c } } c x, c, x)

/-- A step word: it acts once, for a team, on its context; the slot waits for a free context, and, where the word is an engine
instruction, for its earlier accesses (R111, R295, R339). -/
def stepWord (i : Instr) (h : Head) (engine : Bool) (s : State)
    (k : State → Nat → Bool → Group → Slot → Shape → Nat → StepCtx → Out) : Out :=
  gate i s fun s gid s1 g sl sh =>
    if execLanes g sl h = 0#96 then .next (s.setGroup gid (g.done s1 sh))
    else
      let hold := Host.Outcome.next (s.modSlot gid s1 fun x => { x with wait := .other })
      match g.team, s.teamOf g with
      | some tid, some t =>
        if engine && stillPending s (pendingOf s gid sl.owned) then hold
        else
          match takeCtx s tid t g with
          | none => hold
          | some (s, c, x) => k s gid s1 g sl sh c x
      | _, _ => .next (trapWord s gid s1 i sh cNoTeam 0#8 (trapLanes g sl sh) true)

def stepTrap (s : State) (gid : Nat) (s1 : Bool) (i : Instr) (g : Group) (sl : Slot) (sh : Shape) (cause : BitVec 8) : Out :=
  .next (trapWord s gid s1 i sh cause 0#8 (trapLanes g sl sh) true)

/-- What a read of a record or descriptor gives. -/
inductive StepRead where
  | trap (cause : BitVec 8)
  | park (e : PageFault × Addr)
  | ok (bs : List Byte)

/-- Loads in the program order of the issuing slot's active lanes, under R67 and R52. The word waits for the lanes' earlier accesses. -/
def recordRead (s : State) (gid : Nat) (g : Group) (agents : Mask) (sp : Space) (a : Addr) (n : Nat) : State × StepRead :=
  if lockHit s g.die g.core g.tenant false sp a n then (s, .trap cRangeLock)
  else
    match laneKeys s g sp .read 0 a n with
    | (s, .error e) => (s, .park e)
    | (s, .ok ks) =>
      let s := ks.foldl (fun s k => fetchFor s g.die g.core g.tenant sp 0#2 k) s
      (noteRead s g.die g.core gid agents 8#4 ks, .ok (ks.map (groupByte s gid agents g.die g.core sp 0#2)))

/-- The same of a record or descriptor that must be aligned to 8 bytes. -/
def stepRead (s : State) (gid : Nat) (g : Group) (agents : Mask) (sp : Space) (a : Addr) (n : Nat) : State × StepRead :=
  if a.toNat % 8 ≠ 0 then (s, .trap cAlignment) else recordRead s gid g agents sp a n

/-- A sub-operation that reads a record: a Running context traps; the read's faults; then `f`. -/
def stepReading (s : State) (gid : Nat) (s1 : Bool) (i : Instr) (g : Group) (sl : Slot) (sh : Shape) (x : StepCtx)
    (sp : BitVec 3) (a : Addr) (n : Nat) (f : State → List Byte → Out) : Out :=
  if x.st = .running then stepTrap s gid s1 i g sl sh cStepperState
  else
    match stepRead s gid g sl.uniMask (Space.ofCode sp) a n with
    | (s, .trap c) => stepTrap s gid s1 i g sl sh c
    | (s, .park e) => .next (parkSlot s gid s1 e.2 e.1 0#8 (trapLanes g sl sh))
    | (s, .ok bs) => f s bs

def words64 (bs : List Byte) : List Word64 := (List.range (bs.length / 8)).map fun i => BitVec.ofNat 64 (bytesNat bs (8 * i) 8)

def execStepLdtab (h : Head) (a : Triple) (sp : BitVec 3) (s : State) : Out :=
  let i := Instr.stepLdtab h a sp
  stepWord i h true s fun s gid s1 g sl sh c x =>
    let addr := readTriple g sl a
    stepReading s gid s1 i g sl sh x sp addr 8 fun s hd =>
      let finish := fun (s : State) (tab : Option Tableau) =>
        Host.Outcome.next ((setCtx s c { x.fresh (if tab.isSome then 0#8 else 0x10#8) with tab := tab }).setGroup gid (g.done s1 sh))
      if !headerOk hd then finish s none
      else
        stepReading s gid s1 i g sl sh x sp (addr + 8#80) (8 * descWords hd) fun s bs =>
          let t := mkTableau hd (words64 bs)
          finish s (if t.legal (words64 bs) then some t else none)

def execStepBind (h : Head) (a : Triple) (sp : BitVec 3) (s : State) : Out :=
  let i := Instr.stepBind h a sp
  stepWord i h true s fun s gid s1 g sl sh c x =>
    stepReading s gid s1 i g sl sh x sp (readTriple g sl a) 80 fun s r =>
      let roles := match s.teamOf g with | some t => t.roles | none => 0
      let b := mkBinding roles (fun a n => inSpace s (s.teamOf g) g.die g.grid .cl a n) r
      .next ((setCtx s c { x.fresh (if b.isSome then 0#8 else 0x11#8) with bind := b }).setGroup gid (g.done s1 sh))

/-- Do two of the regions share a byte? -/
def regionsMeet : List (Addr × Nat) → Bool
  | [] => false
  | r :: rs => (rs.any fun q => meets r.1.toNat r.2 q.1.toNat q.2) || regionsMeet rs

/-- The checks of R244. -/
def runLegal (s : State) (g : Group) (x : StepCtx) (r : List Byte) : Bool :=
  let w := words64 r
  let t0 := w.getD 0 0#64
  let te := w.getD 1 0#64
  let h0 := w.getD 2 0#64
  match x.tab, x.bind with
  | some t, some b =>
    !regionsMeet (b.regions t.slots) &&
      (b.space ≠ .cl || (b.regions t.slots).all fun q => decide (q.2 = 0) || inSpace s (s.teamOf g) g.die g.grid .cl q.1 q.2) &&
      fin64 t0 && fin64 te && fin64 h0 && !zero64 h0 &&
      (decide (rat64 te = rat64 t0) || (neg64 h0 = decide (rat64 te < rat64 t0))) &&
      (b.m = 0 || t.d ≠ 0) && decide (bytesNat r 28 4 = 0)
  | _, _ => false

/-- A slot that waits in step.wait traps there: its group is not of the serving role (R239). A frozen one, or one whose group does not go
on now, does so when it issues its word again. -/
def refuseWait (s : State) (gid : Nat) (w : Bool × Bool) : State :=
  match s.group? gid with
  | none => s
  | some g =>
    let ctr := (g.slotIn w.1 w.2).wctr
    let s := (s.setGroup gid (g.modSlotIn w.1 w.2 fun sl => { sl with wait := .ready, wctr := 0#2, readyAt := s.now.toNat })).ctrDown gid ctr
    let sl := g.slot w.1
    match (peekWord s g sl.pc).map (decode sl.cls) with
    | some (.ok i) =>
      match wordShape i with
      | some sh => if g.frozen || w.2 ≠ g.trapMode then s else trapWord s gid w.1 i sh cStepperState 0#8 (trapLanes g sl sh) true
      | none => s
    | _ => s

/-- When a context becomes Running, the waits of groups that are not of its serving role trap. -/
def checkRoles (s : State) (tid role : Nat) : State :=
  ((stepWaiters s tid).filter fun w => match s.group? w.1 with | some g => decide (g.role ≠ role) | none => false).foldl
    (fun s w => refuseWait s w.1 w.2) s

/-- The write locks of a run on its context's regions (R241, R243). -/
def StepCtx.runLocks (x : StepCtx) (c tenant : Nat) : List Lock :=
  match x.bind, x.tab with
  | some b, some t => (b.regions t.slots).map fun q =>
      { owner := .step c, tenant := tenant, space := b.space, lo := q.1.toNat, len := q.2, write := true }
  | _, _ => []

def execStepRun (h : Head) (a : Triple) (sp : BitVec 3) (s : State) : Out :=
  let i := Instr.stepRun h a sp
  stepWord i h true s fun s gid s1 g sl sh c x =>
    stepReading s gid s1 i g sl sh x sp (readTriple g sl a) 32 fun s r =>
      let w := words64 r
      let t0 := w.getD 0 0#64
      let te := w.getD 1 0#64
      let h0 := w.getD 2 0#64
      let x0 := x.fresh 0#8
      let done := fun s : State => Host.Outcome.next (s.modGroup gid fun g => g.done s1 sh)
      if !runLegal s g x r then done (stopRun (setCtx s c x0) c 0x12#8 0xFF#8)
      else if rat64 te = rat64 t0 then done (stopRun (setCtx s c { x0 with t := t0, h := h0 }) c 0x02#8 0xFF#8)
      else
        match x.tab, x.bind with
        | some t, some b =>
          match takeLocks s g.die g.core (x.runLocks c g.tenant) with
          | none => .next (s.modSlot gid s1 fun y => { y with wait := .other })
          | some s =>
            let x1 := { x0 with st := .running, status := 1#8, t := t0, tEnd := te, h := h0, limit := BitVec.ofNat 32 (bytesNat r 24 4),
                                run := some (g.core, gid, s1), place := placeByte g false s1 }
            let s := (setCtx s c x1).modGroup gid fun g => g.done s1 sh
            .next (beginAttempt (checkRoles s x.team b.role) c x1 t)
        | _, _ => done s

/-- A group that is not of the bound serving role (R239). -/
def wrongRole (x : StepCtx) (g : Group) : Bool := match x.bind with | some b => b.role ≠ g.role | none => false

/-- step.wait: the call or the end of the run is taken with acquire order, or the slot blocks. -/
def execStepWait (h : Head) (s : State) : Out :=
  let i := Instr.stepWait h
  stepWord i h false s fun s gid s1 g sl sh c x =>
    let take := fun (s : State) (put : Group → Group) => Host.Outcome.next (l1Invalidate (s.setGroup gid ((put g).done s1 sh)) g.die g.core)
    let hold := Host.Outcome.next ((s.modSlot gid s1 fun y => { y with wait := .step, wctr := h.ctr }).ctrUp gid h.ctr)
    if wrongRole x g then stepTrap s gid s1 i g sl sh cStepperState
    else
      match x.st, x.phase, x.tab, x.bind with
      | .stopped, _, _, _ => take s fun g => putOver g s1
      | .running, .out k, some t, some b =>
        if x.toTake.contains gid then
          take (setCtx s c { x with toTake := x.toTake.filter fun y => y ≠ gid }) (putRecordOf c x (callInfo x t b k) s1)
        else hold
      | _, _, _, _ => hold

/-- step.done: the group's accesses must still perform before it counts (R115, R250). -/
def execStepDone (h : Head) (s : State) : Out :=
  let i := Instr.stepDone h
  stepWord i h false s fun s gid s1 g sl sh c x =>
    if wrongRole x g || x.st ≠ .running || !(x.owing.contains gid) || x.toTake.contains gid then
      stepTrap s gid s1 i g sl sh cStepperState
    else
      let w := fenceWaits s gid (BitVec.allOnes 96) 14#4
      let s := setCtx s c { x with owing := x.owing.filter fun y => y ≠ gid, settling := x.settling ++ w }
      .next (s.setGroup gid (g.done s1 sh))

/-- θ of a query, or the stored y (R258); none where the query traps. -/
def queryTheta (x : StepCtx) (t : Tableau) (at_ : Word64) : Option (Option Rat) :=
  match x.retained with
  | none => none
  | some r =>
    if x.st = .running || t.d = 0 || !fin64 at_ then none
    else if rat64 at_ = rat64 r.tEnd then some none
    else
      let th := (rat64 at_ - rat64 r.ts) / rat64 r.hs
      if th < 0 ∨ rat64 r.thetaMax < th then none else some (some th)

/-- A word whose context has written bytes for it acquires once these and every earlier write of the context have performed at a scope (R115):
its counter falls with its own, and what the group's lanes do next waits for all, and so does the slot where it blocks. -/
def stepAcquire (s : State) (gid : Nat) (g : Group) (ctr : BitVec 2) (scope : BitVec 3) (agent first : Nat) (ends : Option Bool) : State :=
  let (n, s) := s.nextId
  let more := agentStores s agent
  let f : FenceRec := { id := n, gid := gid, lanes := BitVec.allOnes 96, succ := 15#4, scope := scope, waits := more.filter fun x => decide (first ≤ x),
                        more := more, counted := false, ctr := ctr, ends := ends.map fun s1 => (s1, g.trapMode) }
  let s := { s with fences := s.fences ++ [f] }.ctrUp gid ctr
  settleFences (match ends with
    | some s1 => s.modSlot gid s1 fun y => { y with wait := .written n }
    | none => s)

def execStepQry (h : Head) (d : Triple) (a : Src) (s : State) : Out :=
  let i := Instr.stepQry h d a
  stepWord i h true s fun s gid s1 g sl sh c x =>
    let dst := readTriple g sl d
    let m := execLanes g sl h
    match x.tab, x.bind with
    | some t, some b =>
        match queryTheta x t (readOnce s g sl m a 64) with
        | none => stepTrap s gid s1 i g sl sh cStepperState
        | some th =>
          if dst.toNat % b.e ≠ 0 ∨ !inSpace s (s.teamOf g) g.die g.grid b.space dst (b.n * b.e) ∨
              ((b.regions t.slots).any fun q => meets dst.toNat (b.n * b.e) q.1.toNat q.2) then
            stepTrap s gid s1 i g sl sh cStepperState
          else
            let hs := match x.retained with | some r => r.hs | none => 0#64
            let asg := match th with
              | none => Asg.copy dst b.state
              | some th => .lin dst (denseTerms t b (b.vec b.work 2) hs th)
            match runAsg s gid c g.core x b asg with
            | (s, .error e) => .next (parkGroup s gid s1 e.2 e.1 1#8 (trapLanes g sl sh))
            | (s', .ok _) => .next (stepAcquire s' gid g h.ctr (BitVec.ofNat 3 b.scope) x.agent s.seqNo (some s1))
    | _, _ => stepTrap s gid s1 i g sl sh cStepperState

/-- The record of R252, with the values of R255. -/
def statRecord (x : StepCtx) : List Byte :=
  let running := decide (x.st = .running)
  [if running then 1#8 else x.status, if x.st = .stopped then x.event else 0xFF#8, 0#8, 0#8] ++ toBytes x.accepted 4 ++
    toBytes x.rejected 4 ++ toBytes x.calls 4 ++ toBytes x.t 8 ++ toBytes (if running then x.hs else x.h) 8

def execStepStat (h : Head) (d : Triple) (sp : BitVec 3) (s : State) : Out :=
  let i := Instr.stepStat h d sp
  stepWord i h true s fun s gid s1 g sl sh c x =>
    let dst := readTriple g sl d
    let space := Space.ofCode sp
    if !inSpace s (s.teamOf g) g.die g.grid space dst 32 then stepTrap s gid s1 i g sl sh cAddressRange
    else if dst.toNat % 8 ≠ 0 then stepTrap s gid s1 i g sl sh cAlignment
    else
      match laneKeys s g space .write 0 dst 32 with
      | (s, .error e) => .next (parkGroup s gid s1 e.2 e.1 1#8 (trapLanes g sl sh))
      | (s, .ok ks) =>
        let s' := (x.store s gid c g.core dst ks (statRecord x)).setGroup gid (g.done s1 sh)
        .next (stepAcquire s' gid g h.ctr 2#3 x.agent s.seqNo none)

/-- step.stop: a Running context stops at the first moment without an outstanding call (R253). -/
def execStepStop (h : Head) (s : State) : Out :=
  stepWord (.stepStop h) h true s fun s gid s1 g _ sh c x =>
    let s := s.setGroup gid (g.done s1 sh)
    if x.st ≠ .running then .next s
    else
      match x.phase with
      | .out _ => .next (setCtx s c { x with stopReq := true })
      | _ => .next (stopRun s c 0x04#8 0xFF#8)

end Sys2Proof.Machine
end

