-- ==== Sys2Proof/Machine/Control.lean ====
section
/-! DEFINITION. Branches, calls and returns, joins, exits, yields, sleeps, barriers, traps and the return from them
(R165 to R176). -/

namespace Sys2Proof.Machine

/-! ### Transfers -/

/-- An address in words from the clause's header. -/
def Slot.words {n : Nat} (sl : Slot) (off : BitVec n) : Addr := sl.header + 8#80 * off.signExtend 80

/-- The reconvergence address, none for offset 0 (R23). -/
def Slot.reconv (sl : Slot) (off : BitVec 16) : Option Addr := if off = 0#16 then none else some (sl.words off)

/-- The join entry of a split is pushed. -/
def Group.pushJoin (g : Group) (r : Option Addr) (o : Mask) : Group :=
  match r with
  | some a => { g with stack := joinEntry g a o :: g.stack }
  | none => g

/-- The lanes that do not transfer go to the other slot, or wait in the entry on top or in a new one (R143). -/
def Group.parkPath (g : Group) (s1 : Bool) (now : Nat) (top : Bool) (fall : Addr) (f : Mask) : Group :=
  if f = 0#96 then g
  else if (g.slot (!s1)).isEmpty then g.setPath (!s1) (Slot.path fall f 0#96 now)
  else
    match top, g.stack with
    | true, e :: r => { g with stack := { e with path := f, pathPc := fall } :: r }
    | _, st => { g with stack := pathEntry g fall f 0#96 false :: st }

/-- The lanes of `owned` go with their slot to a header. -/
def Group.travel (g : Group) (s1 : Bool) (dest : Addr) (owned mask : Mask) : Group :=
  g.modSlot s1 fun sl => { sl.jump dest with owned := owned, mask := mask }

/-- R143: a lane-guarded branch of the lanes `t` out of the active lanes. -/
def Group.branch (g : Group) (s1 : Bool) (now : Nat) (t : Mask) (target fall : Addr) (r : Option Addr) : Group :=
  let sl := g.slot s1
  let f := sl.mask &&& ~~~t
  if t = 0#96 then g.travel s1 fall sl.owned sl.mask
  else if f = 0#96 then g.travel s1 target sl.owned sl.mask
  else
    ((g.pushJoin r sl.owned).travel s1 target (sl.owned &&& ~~~f) t).parkPath s1 now r.isSome fall f

/-- Entries that a diverging branch pushes. -/
def branchPushes (g : Group) (s1 : Bool) (r : Option Addr) : Nat :=
  if r.isSome || !(g.slot (!s1)).isEmpty then 1 else 0

/-- A control transfer traps: no lane has transferred. -/
def trapTransfer (s : State) (gid : Nat) (s1 : Bool) (i : Instr) (sh : Shape) (c : BitVec 8) (m : Mask) : Out :=
  .next (trapWord s gid s1 i sh c 0#8 m true)

/-! ### Splits by target (R148, R168) -/

/-- The lanes of `m` whose targets are misaligned. -/
def misaligned (target : Lane → Addr) (m : Mask) : Mask := m &&& maskOf fun l => decide ((target l).toNat % 8 ≠ 0)

/-- The aligned targets of the lanes of `m`. -/
def alignedClasses (target : Lane → Addr) (m : Mask) : List Class := classesOf target (lanesOf (m &&& ~~~(misaligned target m)))

/-- The targets of a word whose operand gives them, where the operand lies in the group's allocation (R34); those of an accumulator
row are known only once the row can be read (R236). -/
def operandTargets (g : Group) (a : Src) (target : Lane → Addr) (m : Mask) : List Class :=
  if srcInRange g (a, 32) && !a.isAcc then alignedClasses target m else []

/-- The classes of a split: one for each target, and the active lanes that did not issue at the fall-through. -/
def splitClasses (sl : Slot) (target : Lane → Addr) (m : Mask) (fall : Addr) : List Class :=
  addClass (fall, sl.mask &&& ~~~m) (classesOf target (lanesOf m))

/-- The slot's lanes take their paths; a single class takes the slot with all its lanes. -/
def Group.split (g : Group) (s1 : Bool) (now : Nat) (r : Option Addr) (cs : List Class) : Group :=
  let sl := g.slot s1
  match cs with
  | [] => g
  | [c] => g.travel s1 c.1 sl.owned sl.mask
  | _ => splitPaths (g.pushJoin r sl.owned) s1 now (sl.owned &&& ~~~sl.mask) cs

/-- The target of a lane of brx or callx: a signed byte offset from the header. -/
def offsetTarget (s : State) (g : Group) (sl : Slot) (a : Src) (l : Lane) : Addr :=
  sl.header + (readSrc s g sl l a 32).signExtend 80

/-! ### Where a transfer lands (R11, R34) -/

/-- Do the lanes of a bra with uniform guards transfer? -/
def braGoes (h : Head) (g : Group) (sl : Slot) : Bool := g.uniIssues h && (h.uni || decide (sl.mask ≠ 0#96))

/-- The lanes that a call with uniform guards takes: in the uniform class every owned lane (R24), in the lane class every active one. -/
def callLanes (h : Head) (g : Group) (sl : Slot) (sh : Shape) : Mask :=
  if h.uni then (if g.uniIssues h then sl.owned else 0#96) else trapLanes g sl sh

/-- The targets of a word that transfers control, with the lanes that go to each; of brx and callx the aligned ones. -/
def transfersTo (i : Instr) (s : State) (g : Group) (sl : Slot) (sh : Shape) : List Class :=
  match i with
  | .bra _ target _ _ | .call _ target _ _ => [(sl.words target, trapLanes g sl sh)]
  | .braUniform h target _ _ => [(sl.words target, if braGoes h g sl then trapLanes g sl sh else 0#96)]
  | .callUniform h target _ _ => [(sl.words target, callLanes h g sl sh)]
  | .brx _ a _ _ _ | .callx _ a _ _ _ => operandTargets g a (offsetTarget s g sl a) (trapLanes g sl sh)
  | _ => []

/-- The lanes that land on no header. Where the fetch of a target faults, the lanes go there, and the slot is parked at that header when it
fetches it (R52; log entry 61). -/
def badLanding (s : State) (g : Group) (cs : List Class) : Mask :=
  (cs.filter fun c => c.2 ≠ 0#96 && landing s g c.1 = .bad).foldl (fun m c => m ||| c.2) 0#96

/-- Lanes that land on no header take illegal-header. -/
def landThen (s : State) (gid : Nat) (s1 : Bool) (i : Instr) (sh : Shape) (g : Group) (cs : List Class) (k : Out) : Out :=
  if badLanding s g cs = 0#96 then k else trapTransfer s gid s1 i sh cIllegalHeader (badLanding s g cs)

/-- A word that transfers control: where its lanes land is looked at first, before any other fault of the word (R11, R34). -/
def landGate (i : Instr) (s : State) (k : State → Nat → Bool → Group → Slot → Shape → Out) : Out :=
  match s.cur with
  | .slot gid s1 =>
    match s.group? gid, wordShape i with
    | some g, some sh => landThen s gid s1 i sh g (transfersTo i s g (g.slot s1) sh) (gate i s k)
    | _, _ => gate i s k
  | _ => gate i s k

/-! ### Branches (R143, R148, R167, R168) -/

/-- bra with lane guards (R143, R167). -/
def execBra (h : Head) (target : BitVec 22) (reconv : BitVec 16) (hint : Bool) (s : State) : Out :=
  let i := Instr.bra h target reconv hint
  landGate i s fun s gid s1 g sl sh =>
    let t := trapLanes g sl sh
    let dest := sl.words target
    let r := sl.reconv reconv
    let splits := decide (t ≠ 0#96 ∧ sl.mask &&& ~~~t ≠ 0#96)
    if splits && (match r with | some a => !joinsAt s g a | none => false) then
      trapTransfer s gid s1 i sh cIllegalInstruction t
    else if splits && g.overflows (branchPushes g s1 r) then trapTransfer s gid s1 i sh cReconvOverflow t
    else .next (s.putPaths gid (g.branch s1 s.now.toNat t dest sl.nextHeader r))

/-- bra with uniform guards: the whole slot transfers or none of it does (R23). -/
def execBraUniform (h : Head) (target : BitVec 22) (reconv : BitVec 16) (hint : Bool) (s : State) : Out :=
  let i := Instr.braUniform h target reconv hint
  landGate i s fun s gid s1 g sl _ =>
    .next (s.setGroup gid (g.travel s1 (if braGoes h g sl then sl.words target else sl.nextHeader) sl.owned sl.mask))

/-- brx (R168). -/
def execBrx (h : Head) (a : Src) (reconv : BitVec 16) (hint ug : Bool) (s : State) : Out :=
  let i := Instr.brx h a reconv hint ug
  landGate i s fun s gid s1 g sl sh =>
    let m := trapLanes g sl sh
    if m = 0#96 then .next (s.setGroup gid (g.travel s1 sl.nextHeader sl.owned sl.mask))
    else
      let target := offsetTarget s g sl a
      landThen s gid s1 i sh g (alignedClasses target m) <|
      let mis := misaligned target m
      let r := sl.reconv reconv
      let cs := splitClasses sl target m sl.nextHeader
      let many := decide (1 < cs.length)
      if mis ≠ 0#96 then trapTransfer s gid s1 i sh cIllegalInstruction mis
      else if many && (match r with | some x => !joinsAt s g x | none => false) then
        trapTransfer s gid s1 i sh cIllegalInstruction m
      else if many && g.overflows (splitPushes g s1 cs + (if r.isSome then 1 else 0)) then
        trapTransfer s gid s1 i sh cReconvOverflow m
      else .next (s.putPaths gid (g.split s1 s.now.toNat r cs))

/-! ### Calls (R169) -/

/-- The lane-private offset of frame d. -/
def frameAddr (d : Nat) : Addr := BitVec.ofNat 80 (0xFE0000 + 16 * d)

/-- The first `n` bytes of the frames of the lanes of `m` at a depth. -/
def frameKeys (s : State) (gid : Nat) (s1 : Bool) (g : Group) (k : AccessKind) (depth : Lane → Nat) (n : Nat) (m : Mask) :
    State × List (Nat × List Nat) × Bool :=
  deviceKeys s gid s1 g k (fun l => frameAddr (depth l)) n m

/-- The lanes of `m` whose frames the word has still to write or read (R169). -/
def framesLeft (sl : Slot) (m : Mask) : Mask := sl.frames.foldl (fun m p => m &&& ~~~(oneLane p.1)) m

/-- Where a page fault parks the group, the frames that have been written or read are kept (R52, R169). -/
def keepFrames (s : State) (gid : Nat) (s1 parked : Bool) (fs : List (Nat × Addr)) : State :=
  if parked then s.modSlot gid s1 fun x => { x with frames := x.frames ++ fs } else s

/-- Each lane of `t` keeps its return address in its next frame, or where a page fault has left some to write, each of those; says
whether the group is parked. -/
def pushFrames (s : State) (gid : Nat) (s1 : Bool) (g : Group) (t : Mask) (ret : Addr) : State × Bool :=
  let (s, ks, parked) := frameKeys s gid s1 g .write (fun l => g.cdepth[l].toNat) 16 (framesLeft (g.slot s1) t)
  let s := ks.foldl (fun s p => lpPuts s (g.deviceWriter gid (oneLane p.1)) p.2 (toBytes ret 16)) s
  (keepFrames s gid s1 parked (ks.map fun p => (p.1, ret)), parked)

/-- The return addresses of the lanes of `m`, read from their frames or kept from before a page fault; says whether the group is parked. -/
def readFrames (s : State) (gid : Nat) (s1 : Bool) (g : Group) (m : Mask) : State × List (Nat × Addr) × Bool :=
  let (s, ks, parked) := frameKeys s gid s1 g .read (fun l => g.cdepth[l].toNat - 1) 10 (framesLeft (g.slot s1) m)
  let s := ks.foldl (fun s p => p.2.foldl (fun s k => fetchFor s g.die g.core g.tenant .lp 0#2 k) s) s
  let new := ks.map fun p => (p.1, (ofBytes (lpBytes s g.die g.core p.2) 80 : Addr))
  (keepFrames s gid s1 parked new, (g.slot s1).frames ++ new, parked)

/-- A call of the lanes `t` that passes its checks: frames, depths, the join entry at the return address, and then the lanes
take their paths as `go` says. `mis` are lanes with a misaligned target. -/
def callWith (s : State) (gid : Nat) (s1 : Bool) (sl : Slot) (i : Instr) (sh : Shape) (reconv : BitVec 16) (t mis : Mask)
    (splits : Bool) (pushes : Nat) (go : Group → Group) : Out :=
  match s.group? gid with
  | none => .next s
  | some g =>
    let ret := sl.nextHeader
    if sl.words reconv ≠ ret then trapTransfer s gid s1 i sh cIllegalInstruction (trapLanes g sl sh)
    else if t = 0#96 then .next (s.setGroup gid (g.travel s1 ret sl.owned sl.mask))
    else if mis ≠ 0#96 then trapTransfer s gid s1 i sh cIllegalInstruction mis
    else
      let past := t &&& maskOf fun l => decide (Config.callLimit ≤ g.cdepth[l].toNat)
      if splits && !joinsAt s g ret then trapTransfer s gid s1 i sh cIllegalInstruction (trapLanes g sl sh)
      else if past ≠ 0#96 then trapTransfer s gid s1 i sh cCallOverflow past
      else if g.overflows (1 + pushes) then trapTransfer s gid s1 i sh cReconvOverflow (trapLanes g sl sh)
      else
        let (s, parked) := pushFrames s gid s1 g t ret
        if parked then .next s
        else
          let g := { g with cdepth := setLanes g.cdepth t fun l => g.cdepth[l] + 1#13 }
          .next (s.putPaths gid (go (g.pushJoin (some ret) sl.owned)))

/-- call with lane guards (R169). -/
def execCall (h : Head) (target : BitVec 22) (reconv : BitVec 16) (hint : Bool) (s : State) : Out :=
  let i := Instr.call h target reconv hint
  landGate i s fun s gid s1 g sl sh =>
    let t := trapLanes g sl sh
    let dest := sl.words target
    let f := sl.mask &&& ~~~t
    callWith s gid s1 sl i sh reconv t 0#96 (decide (f ≠ 0#96)) 0 fun g =>
      (g.travel s1 dest (sl.owned &&& ~~~f) t).parkPath s1 s.now.toNat true sl.nextHeader f

/-- call with uniform guards. -/
def execCallUniform (h : Head) (target : BitVec 22) (reconv : BitVec 16) (hint : Bool) (s : State) : Out :=
  let i := Instr.callUniform h target reconv hint
  landGate i s fun s gid s1 g sl sh =>
    callWith s gid s1 sl i sh reconv (callLanes h g sl sh) 0#96 false 0 fun g => g.travel s1 (sl.words target) sl.owned sl.mask

/-- callx (R169). -/
def execCallx (h : Head) (a : Src) (reconv : BitVec 16) (hint ug : Bool) (s : State) : Out :=
  let i := Instr.callx h a reconv hint ug
  landGate i s fun s gid s1 g sl sh =>
    let m := trapLanes g sl sh
    let target := offsetTarget s g sl a
    let cs := splitClasses sl target m sl.nextHeader
    landThen s gid s1 i sh g (alignedClasses target m) <|
    callWith s gid s1 sl i sh reconv m (misaligned target m) (decide (1 < cs.length)) (if 1 < cs.length then splitPushes g s1 cs else 0)
      fun g => g.split s1 s.now.toNat none cs

/-! ### Returns and exits (R170 to R172) -/

/-- May lanes exit here (R172, R290)? The cause of the trap otherwise. -/
def exitTrap (g : Group) : Option (BitVec 8) :=
  if g.trapMode then some cIllegalInstruction else if g.region.isSome then some cRegionState else none

/-- A returning lane leaves the expected masks above the entry of its return address. -/
def leaveAbove (g : Group) (l : Lane) (a : Addr) : Group :=
  match g.stack.findIdx? fun e => g.atLevel e && decide (e.join = some a) && e.expected.getLsbD l.val with
  | none => g
  | some n =>
    { g with stack := g.stack.zipIdx.map fun x =>
        if x.2 < n then { x.1 with expected := x.1.expected &&& ~~~(oneLane l.val) } else x.1 }

/-- The stack is examined after a return or a join, and follows into memory. -/
def State.examined (s : State) (gid : Nat) (s1 : Bool) : State :=
  match s.group? gid with
  | none => s
  | some g => s.putPaths gid (examine s s1 g)

/-- The lanes that a ret takes: those issued in the lane class, the active ones in the uniform class (DESIGN CHOICE, log entry 57). -/
def retLanes (h : Head) (g : Group) (sl : Slot) : Mask := if h.uni then (if g.uniIssues h then sl.mask else 0#96) else g.issuedLanes sl h

/-- Lanes at depth 0 exit (R170). -/
def atTop (g : Group) (m : Mask) : Mask := m &&& maskOf fun l => decide (g.cdepth[l] = 0#13)

/-- Lanes whose return address is no header: it is misaligned, or another word stands there. -/
def badReturns (s : State) (g : Group) (addr : Lane → Addr) (m : Mask) : Mask :=
  misaligned addr m ||| badLanding s g (alignedClasses addr m)

def addrOf (fs : List (Nat × Addr)) (l : Lane) : Addr := (tget fs l.val).getD 0#80

/-- A ret that stands where none may: an illegal header of its lanes comes first (R34), as far as their frames can be read. -/
def retGate (i : Instr) (h : Head) (s : State) (k : State → Nat → Bool → Group → Slot → Shape → Out) : Out :=
  match s.cur with
  | .slot gid s1 =>
    match s.group? gid, wordShape i with
    | some g, some sh =>
      let sl := g.slot s1
      let m := retLanes h g sl
      let back := m &&& ~~~(atTop g m)
      if sl.left = 1 then gate i s k
      else
        match readFrames s gid s1 g back with
        | (_, _, true) => gate i s k
        | (s', fs, false) =>
          if badReturns s' g (addrOf fs) back = 0#96 then gate i s k
          else trapTransfer s gid s1 i sh cIllegalHeader (badReturns s' g (addrOf fs) back)
    | _, _ => gate i s k
  | _ => gate i s k

/-- The lanes `m` of a slot return to their addresses; those at depth 0 exit. -/
def returnLanes (i : Instr) (s : State) (gid : Nat) (s1 : Bool) (g : Group) (sl : Slot) (sh : Shape) (m : Mask) (addr : Lane → Addr) : Out :=
  let ex := atTop g m
  let back := m &&& ~~~ex
  let own := sl.owned &&& ~~~ex
  let cs := addClass (sl.nextHeader, sl.mask &&& ~~~m) (classesOf addr (lanesOf back))
  let bad := badReturns s g addr back
  if bad ≠ 0#96 then trapTransfer s gid s1 i sh cIllegalHeader bad
  else
    match (if ex = 0#96 then none else exitTrap g) with
    | some c => trapTransfer s gid s1 i sh c (trapLanes g sl sh)
    | none =>
      if decide (1 < cs.length) && g.overflows (splitPushes g s1 cs) then trapTransfer s gid s1 i sh cReconvOverflow (trapLanes g sl sh)
      else
        withStack s gid fun s g =>
          let g := { g with cdepth := setLanes g.cdepth back fun l => g.cdepth[l] - 1#13 }
          let g := (lanesOf back).foldl (fun g l => leaveAbove g l (addr l)) g
          let g :=
            if own = 0#96 then g
            else if cs.isEmpty then g.travel s1 sl.nextHeader own 0#96
            else (g.modSlot s1 fun x => { x with owned := own, mask := x.mask &&& own }).split s1 s.now.toNat none cs
          let s := s.putPaths gid g
          .next (if ex = 0#96 then s.examined gid s1 else exitLanes s gid s1 ex)

def execRet (h : Head) (s : State) : Out :=
  let i := Instr.ret h
  retGate i h s fun s gid s1 g sl sh =>
    let m := retLanes h g sl
    if m = 0#96 then .next (s.setGroup gid (g.travel s1 sl.nextHeader sl.owned sl.mask))
    else
      match readFrames s gid s1 g (m &&& ~~~(atTop g m)) with
      | (s, _, true) => .next s
      | (s, fs, false) => returnLanes i s gid s1 g sl sh m (addrOf fs)

/-- join (R144, R171): on the owned set of the slot, at the first word of its clause. -/
def execJoin (s : State) : Out :=
  gate .join s fun s gid s1 _ sl sh => withStack s gid fun s g =>
    match (if sl.pos = 0 then arriveAt g.atLevel sl.header sl.owned sl.mask g.stack else none) with
    | none => .next (s.setGroup gid (g.done s1 sh))
    | some (expected, st) =>
      let g := ({ g with stack := st }.done s1 sh).leaveSlot s1 (sl.owned &&& expected)
      .next (s.putPaths gid (examine s s1 g))

/-- The lanes `m` of a slot exit, or the word traps. -/
def exitWord (i : Instr) (s : State) (gid : Nat) (s1 : Bool) (g : Group) (sl : Slot) (sh : Shape) (m : Mask) : Out :=
  if m = 0#96 then .next (s.setGroup gid (g.done s1 sh))
  else
    match exitTrap g with
    | some c => trapTransfer s gid s1 i sh c (trapLanes g sl sh)
    | none => withStack s gid fun s g => .next (exitLanes (s.setGroup gid (g.done s1 sh)) gid s1 m)

def execExit (h : Head) (s : State) : Out :=
  gate (.exit h) s fun s gid s1 g sl sh => exitWord (.exit h) s gid s1 g sl sh (g.issuedLanes sl h)

/-- The uniform form removes every owned lane of the slot (R172). -/
def execExitUniform (h : Head) (s : State) : Out :=
  gate (.exitUniform h) s fun s gid s1 g sl sh =>
    exitWord (.exitUniform h) s gid s1 g sl sh (if g.uniIssues h then sl.owned else 0#96)

/-! ### Scheduling hints (R173) -/

def execYield (h : Head) (s : State) : Out :=
  gate (.yield h) s fun s gid s1 g sl sh =>
    let g := if execLanes g sl h = 0#96 then g else g.modSlot s1 fun x => { x with yld := true, back := true }
    .next (s.setGroup gid (g.done s1 sh))

def execSleep (h : Head) (a : Src) (s : State) : Out :=
  gate (.sleep h a) s fun s gid s1 g sl sh =>
    let m := execLanes g sl h
    let n := (readOnce s g sl m a 32).toNat
    let g := if m = 0#96 then g else g.modSlot s1 fun x => { x with sleep := s.now.toNat + min n 1048575 }
    .next (s.setGroup gid (g.done s1 sh))

/-- The slot's sleep is over. -/
def execSleepExpiry (gid : Nat) (s1 : Bool) (s : State) : Out :=
  .next (s.modSlot gid s1 fun sl => if sl.sleep ≤ s.now.toNat then { sl with sleep := 0 } else sl)

/-! ### Barriers (R174) -/

/-- The groups of a team as it was launched. -/
def teamSize (s : State) (t : Team) : Nat :=
  match tget s.grids t.grid with | some g => g.record.groups | none => t.groups.length

/-- An arrival at a barrier: the barrier after it, none where it takes barrier-state. -/
def arriveBar (s : State) (t : Team) (id count : Nat) : Option Barrier :=
  if h : id < 16 then
    let b := t.bars[id]
    if 384 < count ∨ teamSize s t < count then none
    else if b.arrivals = 0 then some { b with arrivals := 1, expected := count, all := decide (count = 0) }
    else if count ≠ 0 ∧ (b.all ∨ count ≠ b.expected) then none
    else some { b with arrivals := b.arrivals + 1 }
  else none

/-- The three forms of bar: `arrive` with a count, `wait` for the slot's last arrival. -/
def barWord (i : Instr) (h : Head) (a : Src) (count : Option Src) (wait : Bool) (s : State) : Out :=
  gate i s fun s gid s1 g sl sh =>
    let m := execLanes g sl h
    if m = 0#96 then .next (s.setGroup gid (g.done s1 sh))
    else
      let fail := fun c => .next (trapWord s gid s1 i sh c 0#8 (trapLanes g sl sh) true)
      match g.team, s.teamOf g with
      | some tid, some t =>
        let id := (readOnce s g sl m a 32).toNat
        let after := match count with
          | some b => (arriveBar s t id (readOnce s g sl m b 32).toNat).map fun x => (t.bars.setIfInBounds id x, true)
          | none => if id < 16 ∧ (sl.arrival id).isSome then some (t.bars, false) else none
        match after with
        | none => fail cBarrierState
        | some (bars, came) =>
          let g := g.modSlot s1 fun x => if came then { x with arrived := tset x.arrived id false } else x
          let g := if wait then (g.modSlot s1 fun x => { x with wait := .bar id, wctr := h.ctr }).ctrUp h.ctr else g.done s1 sh
          let s := { s.setGroup gid g with teams := tset s.teams tid { t with bars := bars } }
          .next (releaseBars (settleBar s tid id) gid)
      | _, _ => fail cNoTeam

def execBarArrive (h : Head) (a b : Src) (s : State) : Out := barWord (.barArrive h a b) h a (some b) false s
def execBarWait (h : Head) (a : Src) (s : State) : Out := barWord (.barWait h a) h a none true s
def execBarSync (h : Head) (a b : Src) (s : State) : Out := barWord (.barSync h a b) h a (some b) true s

/-! ### Traps by a word (R175) -/

def trapCode (s : State) (g : Group) (sl : Slot) (m : Mask) (a : Src) : BitVec 8 := (readOnce s g sl m a 32).setWidth 8

def execTrap (h : Head) (a : Src) (s : State) : Out :=
  gate (.trap h a) s fun s gid s1 g sl sh =>
    let m := execLanes g sl h
    if m = 0#96 then .next (s.setGroup gid (g.done s1 sh))
    else .next (trapWord s gid s1 (.trap h a) sh cSoftware (trapCode s g sl m a) (trapLanes g sl sh) false)

/-- bkpt: a trap, or where the supervisor debugs the tenant a halt with the trap registers set. -/
def execBkpt (h : Head) (a : Src) (s : State) : Out :=
  gate (.bkpt h a) s fun s gid s1 g sl sh =>
    let m := execLanes g sl h
    if m = 0#96 then .next (s.setGroup gid (g.done s1 sh))
    else
      let code := trapCode s g sl m a
      let lanes := trapLanes g sl sh
      if (s.tenant g.tenant).debug then
        let tr : TrapRegs := { cause := 0#16 ++ code ++ cBreakpoint, dst := tdstOf sh, inst := (encode (.bkpt h a)).getD 0#64,
                               pc := sl.pc, mask := lanes }
        .next (haltGroup (s.setGroup gid { g with treg := tr }) gid cBreakpoint sl.pc lanes)
      else .next (trapWord s gid s1 (.bkpt h a) sh cBreakpoint code lanes false)

/-! ### Return from a trap (R176) -/

/-- The three forms of rtt; `sub` writes the faulting destination once the group has left trap mode. -/
def rttWord (i : Instr) (h : Head) (skip : Bool) (check : Group → Frame → Option (BitVec 8)) (sub : State → Group → Slot → Frame → Group → Group)
    (s : State) : Out :=
  gate i s fun s gid s1 g sl sh =>
    if h.uni && !g.uniIssues h then .next (s.setGroup gid (g.done s1 sh))
    else
      match g.trapMode, g.frame with
      | true, some fr =>
        if rttFaults g s1 fr then
          trapTransfer s gid s1 i sh cIllegalInstruction (trapLanes g sl sh)
        else
          match check g fr with
          | some c => trapTransfer s gid s1 i sh c (trapLanes g sl sh)
          | none => .next ((leaveTrap s gid g fr skip fr.latches).modGroup gid fun g' => sub s g sl fr g')
      | _, _ => trapTransfer s gid s1 i sh cIllegalInstruction (trapLanes g sl sh)

def execRtt (h : Head) (s : State) : Out := rttWord (.rtt h) h false (fun _ _ => none) (fun _ _ _ _ g => g) s

def execRttSkip (h : Head) (s : State) : Out := rttWord (.rttSkip h) h true (fun _ _ => none) (fun _ _ _ _ g => g) s

/-- The width at which rtt.sub reads A. -/
def subBits (sh : Shape) : Nat :=
  match sh.pdst, sh.dst with
  | some _, _ => 4
  | none, some (_, n) => n
  | none, none => 0

/-- A source of rtt.sub that cannot be read at the width of the faulting destination (R15, R24, R176). -/
def subFault (h : Head) (g : Group) (a : Src) (bits : Nat) : Option (BitVec 8) :=
  if !srcOk h bits a then some cIllegalInstruction
  else if !srcInRange g (a, bits) then some cOperandRange
  else none

/-- rtt.sub's write: the destination unless suppressed, a predicate from bit 0, and the trapped lanes' latch. -/
def subWrite (sh : Shape) (fr : Frame) (m : Mask) (v : Lane → BitVec 80) (g : Group) : Group :=
  let s1 := fr.faultS1
  let n := (if s1 then fr.s1 else fr.s0).latchNo
  let low := (lowest? m).getD 0
  match sh.pdst, sh.dst with
  | some (.p p), _ => g.setPred p m (maskOf fun l => (v l).getLsbD 0)
  | some (.g p), _ => g.setGpred p ((v low).getLsbD 0)
  | none, some (d, bits) =>
    let g :=
      if sh.head.sup then g
      else
        match d with
        | .slice st => g.sliceWrite m st.toNat fun l => (v l).setWidth bits
        | .ureg k => g.kwrite s1 k.toNat ((v low).setWidth bits)
    if sh.res && !sh.head.uni then g.latchWrite m n sh.head.w fun l => (v l).setWidth bits else g
  | none, none => g

def execRttSub (h : Head) (a : Src) (s : State) : Out :=
  let read := fun (s : State) (g : Group) (sl : Slot) (bits : Nat) (l : Lane) =>
    (match a with
     | .imm v => v.signExtend 80
     | .uimm v => v.signExtend 80
     | x => (readSrc s g sl l x bits).setWidth 80 : BitVec 80)
  rttWord (.rttSub h a) h true
    (fun g fr => (faultShape g fr).bind fun sh => if subBits sh = 0 then none else subFault h g a (subBits sh))
    (fun s g sl fr g' => match faultShape g fr with
      | some sh => subWrite sh fr g.treg.mask (fun l => read s g sl (subBits sh) l) g'
      | none => g') s

end Sys2Proof.Machine
end

