-- ==== Sys2Proof/Machine/Tasks.lean ====
section
/-! DEFINITION. Tasks, register budgets, regions and digests (R128 to R132, R289 to R294, R310 to R312). -/

namespace Sys2Proof.Machine

/-! ### spawn and tend (R310, R311) -/

/-- One task that a word spawns: the lane that is its parent, its entry and its argument record. -/
structure Spawn where
  lane : Lane
  entry : Addr
  arg : BitVec 256

/-- Where a lane's spawn count stands in its lane-private memory (log entry 49). -/
def spawnPlace : Addr := 0xFC0000#80

/-- A spawn: entries and indices are checked; where tasks are to be pushed now it waits for room; the lanes' counts rise, and the tasks
are pushed or logged. A task's accesses follow those of its lane that are outstanding still. -/
def spawnWord (i : Instr) (s : State) (gid : Nat) (s1 : Bool) (g : Group) (sl : Slot) (sh : Shape) (m : Mask) (ts : List Spawn) : Out :=
  let bad := ts.foldl (fun b t => if t.entry.extractLsb' 0 3 ≠ 0#3 then b ||| oneLane t.lane.val else b) 0#96
  let idx := fun t : Spawn => childIndex g.lidx[t.lane] (g.spawns[t.lane]).toNat
  if bad ≠ 0#96 then .next (trapWord s gid s1 i sh cIllegalInstruction 0#8 (if sh.head.uni then trapLanes g sl sh else bad) true)
  else if ts.any fun t => (idx t).isNone then .next (trapWord s gid s1 i sh cTaskIndex 0#8 (trapLanes g sl sh) true)
  else
    let log := loggedLanes g m false
    let now := ts.filter fun t => !log.getLsbD t.lane.val
    if !now.isEmpty && !dequeRoom s g.lcore now.length then .next (s.modSlot gid s1 fun x => { x with wait := .spawn })
    else
      let arg := fun l : Lane => (ts.find? fun t => t.lane = l).getD ⟨l, 0#80, 0#256⟩
      let (s, ks, parked) := deviceKeys s gid s1 g .write (fun _ => spawnPlace) 4 m
      if parked then .next s
      else
        match regionEffect s gid s1 g m log fun l => .spawn (arg l).entry (arg l).arg ((idx (arg l)).getD 0#128) with
        | (s, _, true) => .next s
        | (s, g1, false) =>
          let s := ks.foldl (fun s p =>
            lpPuts s (g.deviceWriter gid (oneLane p.1)) p.2 (toBytes (g.spawns[(Fin.ofNat 96 p.1 : Lane)] + 1#32) 4)) s
          let g' := ({ g1 with spawns := setLanes g.spawns m fun l => g.spawns[l] + 1#32 }).done s1 sh
          let s := if now.isEmpty then s else
            pushTasks s g.lcore (now.map fun t =>
              { grid := g.grid, entry := t.entry, arg := t.arg, idx := (idx t).getD 0#128, after := priorOf s gid g.die (oneLane t.lane.val) })
          let s := s.modGrid g.grid fun gr =>
            { gr with tasks := gr.tasks + now.length, liveTasks := gr.liveTasks ++ now.map fun t => (idx t).getD 0#128 }
          .next (s.setGroup gid g')

def execSpawn (h : Head) (a : Src) (f : BitVec 9) (s : State) : Out :=
  let i := Instr.spawn h a f
  gate i s fun s gid s1 g sl sh =>
    let m := execLanes g sl h
    if m = 0#96 then .next (s.setGroup gid (g.done s1 sh))
    else
      spawnWord i s gid s1 g sl sh m ((lanesOf m).map fun l =>
        { lane := l, entry := sl.header + (readSrc s g sl l a 32).signExtend 80, arg := g.sliceRead l f.toNat 256 })

/-- kN and the registers after it, as one value: k157 to k159 are the slot's mask (R126). -/
def kWords (g : Group) (sl : Slot) (n count : Nat) : BitVec 256 :=
  (List.range count).foldl (fun (v : BitVec 256) i => setField v (32 * i) (g.kreg sl (n + i))) 0#256

def execSpawnUniform (h : Head) (a b : BitVec 8) (s : State) : Out :=
  let i := Instr.spawnUniform h a b
  gate i s fun s gid s1 g sl sh =>
    let m := execLanes g sl h
    if m = 0#96 then .next (s.setGroup gid (g.done s1 sh))
    else
      spawnWord i s gid s1 g sl sh m [{ lane := sl.uniLane, entry := sl.header + (g.kreg sl a.toNat).signExtend 80,
                                        arg := kWords g sl b.toNat 8 }]

/-- tend: the lanes' tasks end as by exit; a team group has none. -/
def execTend (h : Head) (s : State) : Out :=
  let i := Instr.tend h
  gate i s fun s gid s1 g sl sh =>
    let m := if h.uni then (if g.uniIssues h then sl.owned else 0#96) else g.issuedLanes sl h
    if m ≠ 0#96 && g.team.isSome && !g.trapMode then .next (trapWord s gid s1 i sh cNoTeam 0#8 (trapLanes g sl sh) true)
    else exitWord i s gid s1 g sl sh m

/-! ### claim and give (R128 to R130) -/

def budgetTrap (s : State) (gid : Nat) (s1 : Bool) (i : Instr) (g : Group) (sl : Slot) (sh : Shape) : Out :=
  .next (trapWord s gid s1 i sh cBudgetLimit 0#8 (trapLanes g sl sh) true)

/-- Units that the group's other blocked claims ask for. -/
def claimsOut (s : State) (gid : Nat) (g : Group) : Nat :=
  (((s.quad g.die g.core g.quad).claims.filter fun c => c.gid = gid).map Claim.units).foldl (· + ·) 0

/-- claim: the request joins the quadrant's list, and the slot waits for the grant. What the other slot's blocked claim asks for counts
towards the limit too (DESIGN CHOICE, log entry 37). -/
def execClaim (h : Head) (n : Src) (s : State) : Out :=
  let i := Instr.claim h n
  gate i s fun s gid s1 g sl sh =>
    let m := execLanes g sl h
    let k := (readOnce s g sl m n 32).toNat
    if m = 0#96 then .next (s.setGroup gid (g.done s1 sh))
    else if k < 1 ∨ 3 < k ∨ 3 < g.h + claimsOut s gid g + k then budgetTrap s gid s1 i g sl sh
    else
      let q := s.quad g.die g.core g.quad
      let c : Claim := { gid := gid, s1 := s1, units := k, trap := g.trapMode }
      let g := (g.ctrUp h.ctr).modSlot s1 fun x => { x with wait := .claim k, wctr := h.ctr }
      .next ((s.setGroup gid g).setQuad g.die g.core g.quad { q with claims := q.claims ++ [c] })

/-- Does a word that waits, is pending or is parked still write slices at or above `lo` when it completes? -/
def reqAbove (lo : Nat) (sl : Slot) : Bool :=
  match sl.req with
  | none => false
  | some r =>
    (match r.op with | .fill first n => decide (lo < first + n) | _ => false) ||
      (match r.dst with | some (.slice st) => decide (lo < st.toNat + slicesOf (wBits r.w)) | _ => false)

/-- Does a lazy word in flight write slices at or above `lo`: its view, or its destination? -/
def lazyAbove (lo : Nat) (o : LazyOp) : Bool :=
  decide (lo < (viewStart o.view).toNat + 64) ||
    match (wordShape o.instr).bind Shape.dst with
    | some (.slice st, w) => decide (lo < st.toNat + slicesOf w)
    | _ => false

/-- Does a result in flight, or a lazy word, still write slices of a group at or above `lo`? -/
def lateAbove (s : State) (gid lo : Nat) : Bool :=
  (match s.group? gid with
   | some g => g.late.any fun x => match x.dst with
     | some (.slice st) => decide (x.bits &&& sliceCover st.toNat lo 512 true ≠ 0#64 ∧ lo < st.toNat + slicesOf (wBits x.w))
     | _ => false
   | none => false) || s.lazies.any fun z => z.gid = gid && lazyAbove lo z

/-- Instructions of either slot, and of the slots that a trap froze, that still read or write slices at or above `lo` (R129). -/
def pendingAbove (s : State) (gid lo : Nat) : Bool :=
  lateAbove s gid lo || (match s.group? gid with | some g => g.anySlot fun sl => reqAbove lo sl || wordAbove s g lo sl | none => false)

/-- give and give.role: the highest units return once no earlier instruction still writes them. -/
def giveWord (i : Instr) (h : Head) (n : Src) (role : Option Src) (s : State) : Out :=
  gate i s fun s gid s1 g sl sh =>
    let m := execLanes g sl h
    let k := (readOnce s g sl m n 32).toNat
    let r := role.map fun x => (readOnce s g sl m x 32).toNat
    if m = 0#96 then .next (s.setGroup gid (g.done s1 sh))
    else if r.isSome && g.team.isNone then .next (trapWord s gid s1 i sh cNoTeam 0#8 (trapLanes g sl sh) true)
    else if k < 1 ∨ 3 < k ∨ g.h < k ∨ (match r, s.teamOf g with | some r, some t => decide (t.roles ≤ r) | _, _ => false) = true then
      budgetTrap s gid s1 i g sl sh
    else if pendingAbove s gid (128 * (1 + g.h - k)) then .next (s.modSlot gid s1 fun x => { x with wait := .other })
    else
      let q := s.quad g.die g.core g.quad
      let q := match r, g.team with
        | some r, some t => { q with tags := q.tags ++ [(t, r, k, s.now.toNat + Config.tagCycles)] }
        | _, _ => q
      let g := { g with h := g.h - k }
      .next ((s.setGroup gid (g.done s1 sh)).setQuad g.die g.core g.quad q)

def execGive (h : Head) (n : Src) (s : State) : Out := giveWord (.give h n) h n none s
def execGiveRole (h : Head) (n r : Src) (s : State) : Out := giveWord (.giveRole h n r) h n (some r) s

/-! ### Granting and eviction (R130 to R132) -/

/-- The lane-private offset of extension unit u + 1 (R132). -/
def unitAddrs (g : Group) (l u : Nat) : List Addr :=
  byteAddrs g.lpbase l .lp (BitVec.ofNat 80 (0xFFFF40 + 64 * u)) 64

/-- The keys of the eviction places of a group, by lane and unit. -/
def unitKeys (s : State) (g : Group) (k : AccessKind) : List (Nat × Nat) → State × Except (PageFault × Addr) (List (Nat × Nat × List Nat))
  | [] => (s, .ok [])
  | (l, u) :: r =>
    match xlateBytes s g.die g.core g.tenant g.sup k (unitAddrs g l u) with
    | (s, .error e) => (s, .error e)
    | (s, .ok ks) =>
      match unitKeys s g k r with
      | (s, .error e) => (s, .error e)
      | (s, .ok x) => (s, .ok ((l, u, ks) :: x))

def unitPlaces (h : Nat) : List (Nat × Nat) := (List.range 96).flatMap fun l => (List.range h).map fun u => (l, u)

/-- The victim's units go to lane-private memory, and the spill writes their sectors back (R58; log entry 60); a page fault parks the victim, with no lane named in its record (DESIGN
CHOICE, log entry 59). -/
def evictGroup (s : State) (gid : Nat) : State :=
  match s.group? gid with
  | none => s
  | some g =>
    match unitKeys s g .write (unitPlaces g.h) with
    | (s, .error (c, va)) => parkGroup s gid false va c 4#8 0#96
    | (s, .ok ps) =>
      let s := ps.foldl (fun s p =>
        lpPuts s (g.deviceWriter gid (oneLane p.1)) p.2.2 (toBytes (g.own.sliceRead (Fin.ofNat 96 p.1) (128 * (1 + p.2.1)) 512) 64)) s
      let lines := ps.flatMap fun p => p.2.2.map lineOf
      (l1Flush s g.die g.core fun e => lines.contains e.line).setGroup gid { g with evicted := true }

/-- The units of an evicted group are read back. -/
def refillGroup (s : State) (gid : Nat) : State × Bool :=
  match s.group? gid with
  | none => (s, false)
  | some g =>
    if !g.evicted then (s, true)
    else
      match unitKeys s g .read (unitPlaces g.h) with
      | (s, .error (c, va)) => (parkGroup s gid false va c 4#8 0#96, false)
      | (s, .ok ps) =>
        let s := ps.foldl (fun s p => p.2.2.foldl (fun s k => fetchFor s g.die g.core g.tenant .lp 0#2 k) s) s
        let slices := ps.foldl (fun (v : Lanes SliceFile) p =>
          let l : Lane := Fin.ofNat 96 p.1
          v.set l (setField v[l] (512 * (1 + p.2.1)) (ofBytes (lpBytes s g.die g.core p.2.2) 512))) g.own.slices
        let o := { g.own with evicted := false, slices := slices }
        (s.setGroup gid (if g.trapMode then o.swapBanks else o), true)

/-- A claim's need: n, or h + n for an evicted group. -/
def claimNeed (s : State) (c : Claim) : Nat :=
  match s.group? c.gid with
  | some g => c.units + (if g.evicted then g.h else 0)
  | none => c.units

/-- Tagged units of a claim's team and role. -/
def claimTagged (s : State) (q : Quad) (c : Claim) : Nat :=
  match s.group? c.gid with
  | some g => match g.team with | some t => taggedUnits s q (some (t, g.role)) | none => 0
  | none => 0

/-- A claim whose group waits for a replay of its spill or refill is not granted before it (R52), and that of an evicted group not before its
refill finds a miss-status entry (R63). -/
def claimStands (s : State) (c : Claim) : Bool :=
  match s.group? c.gid with
  | some g => g.parkedAll.isNone && (!g.evicted || entryFree s g.die g.core)
  | none => true

/-- `n` units of a tag that has not expired are taken, the oldest first. -/
def takeTagged (now team role : Nat) (n : Nat) : List (Nat × Nat × Nat × Nat) → List (Nat × Nat × Nat × Nat)
  | [] => []
  | t :: r =>
    if t.1 = team ∧ t.2.1 = role ∧ now < t.2.2.2 then
      let k := min n t.2.2.1
      let rest := takeTagged now team role (n - k) r
      if t.2.2.1 - k = 0 then rest else (team, role, t.2.2.1 - k, t.2.2.2) :: rest
    else t :: takeTagged now team role n r

/-- The claim that is granted next, if any (R130). -/
def nextClaim (s : State) (die core quad : Nat) : Option Claim :=
  let q := s.quad die core quad
  let free := untaggedUnits s die core quad
  match q.claims.find? fun c => claimStands s c && decide (0 < claimTagged s q c ∧ claimNeed s c ≤ claimTagged s q c + free) with
  | some c => some c
  | none =>
    match q.claims with
    | c :: _ => if claimStands s c && decide (claimNeed s c ≤ free) then some c else none
    | [] => none

/-- New slices read zero (R119): those from `lo` bits up, but in trap mode the interrupted slices 480 to 511 and not the bank's (R133). -/
def Group.zeroFrom (g : Group) (lo : Nat) : Group :=
  let keep : SliceFile := (BitVec.allOnes 2048) >>> (2048 - lo)
  if g.trapMode then
    let keep := keep ||| (BitVec.allOnes 2048 <<< 1920)
    { g with slices := g.slices.map fun x => x &&& keep, shadowSl := Vector.replicate 96 0#128 }
  else { g with slices := g.slices.map fun x => x &&& keep }

/-- A claim is granted: its new slices read zero, and its slot goes on. -/
def grantClaim (s : State) (die core quad : Nat) (c : Claim) : State × Bool :=
  let need := claimNeed s c
  match refillGroup s c.gid with
  | (s, false) => (s, false)
  | (s, true) =>
    match s.group? c.gid with
    | none => (s, false)
    | some g =>
      let q := s.quad die core quad
      let tags := match g.team with | some t => takeTagged s.now.toNat t g.role need q.tags | none => q.tags
      let s := s.setQuad die core quad { q with tags := tags, claims := q.claims.erase c }
      let g := { g.zeroFrom (512 * (1 + g.h)) with h := g.h + c.units }
      let ctr := (g.slotIn c.s1 c.trap).wctr
      (s.setGroup c.gid ((g.modSlotIn c.s1 c.trap fun sl => sl.advance false).ctrDown ctr), true)

/-- The waits of R141. -/
def SlotWait.blocked : SlotWait → Bool
  | .claim _ | .futWait | .ringPush _ | .ringPop _ | .bar _ | .step | .cpyCont _ _ | .spawn | .parked _ _ => true
  | _ => false

/-- Is a group blocked in claim (R131)? -/
def blockedInClaim (g : Group) : Bool :=
  let inClaim := fun x : Slot => match x.wait with | .claim _ => true | _ => false
  let idle := fun x : Slot => x.isEmpty || x.wait.blocked
  (inClaim g.s0 && idle g.s1) || (inClaim g.s1 && idle g.s0)

/-- The youngest blocked group that still occupies an extension unit, where the quadrant evicts (R131): the one whose claim blocked last (DESIGN
CHOICE, log entry 37). Its units are spilled once nothing in
flight writes them any more, so that the refill restores what they hold (R119, R221); what its other slot waits for lands after the
refill. The spill waits for a miss-status entry (R132). -/
def evictVictim (s : State) (die core quad : Nat) : Option Nat :=
  let q := s.quad die core quad
  let holders := (s.onQuad die core quad).filter fun p => 0 < p.2.h && !p.2.evicted
  match q.claims with
  | [] => none
  | c :: _ =>
    if 0 < taggedUnits s q none ∨ claimNeed s c ≤ untaggedUnits s die core quad then none
    else if holders.all fun p => blockedInClaim p.2 && p.2.parkedAll.isNone then
      ((q.claims.reverse.find? fun c => holders.any fun p => p.1 = c.gid).map Claim.gid).filter fun gid => !lateAbove s gid 128 && entryFree s die core
    else none

/-- CLAIM_GRANT: claims are granted, and groups evicted, until neither is possible. -/
def settleClaims (s : State) (die core quad : Nat) : Nat → State
  | 0 => s
  | fuel + 1 =>
    match nextClaim s die core quad with
    | some c =>
      match grantClaim s die core quad c with
      | (s, true) => settleClaims s die core quad fuel
      | (s, false) => s
    | none =>
      match evictVictim s die core quad with
      | some gid => settleClaims (evictGroup s gid) die core quad fuel
      | none => s

def execClaimGrant (quad : Nat) (s : State) : Out :=
  .next (settleClaims s (quad / 256) (quad / 4 % 64) (quad % 4) 64)

/-- TAG_EXPIRY: tags whose 1,024 cycles are over become untagged (R130). -/
def execTagExpiry (quad : Nat) (s : State) : Out :=
  let q := (tget s.quads quad).getD Quad.reset
  .next { s with quads := tset s.quads quad { q with tags := q.tags.filter fun t => decide (s.now.toNat < t.2.2.2) } }

/-! ### Regions (R289 to R291) -/

def execRegionBegin (h : Head) (s : State) : Out :=
  let i := Instr.regionBegin h
  gate i s fun s gid s1 g sl sh =>
    if execLanes g sl h = 0#96 then .next (s.setGroup gid (g.done s1 sh))
    else if !(g.slot (!s1)).isEmpty then .next (trapWord s gid s1 i sh cRegionState 0#8 (trapLanes g sl sh) true)
    else
      let r : Region :=
        { pc := sl.pc, header := sl.header, cls := sl.cls, left := sl.left, yld := sl.yld, owned := sl.owned, mask := sl.mask,
          height := g.stack.length, srctr := g.srctr, cdepth := g.cdepth, digest := g.digest, spawns := g.spawns,
          logs := g.effects.map List.length, rows := 0#8, escaped := false }
      .next (s.setGroup gid ({ g with region := some r }.done s1 sh))

def execRegionEnd (h : Head) (s : State) : Out :=
  gate (.regionEnd h) s fun s gid s1 g sl sh =>
    let g := if execLanes g sl h = 0#96 then g else { g with region := none }
    .next (s.setGroup gid (g.done s1 sh))

/-- Rewinding a region (R291). -/
def Group.rewind (g : Group) (r : Region) (now : Nat) : Group :=
  { g with
    s0 := { Slot.reset with pc := r.pc, header := r.header, cls := r.cls, left := r.left, yld := r.yld, owned := r.owned,
                            mask := r.mask, wait := .ready, readyAt := now, arrived := g.s0.arrived, clock := g.s0.clock },
    s1 := { Slot.reset with arrived := g.s1.arrived, clock := g.s1.clock },
    stack := g.stack.drop (g.stack.length - r.height), srctr := r.srctr, cdepth := r.cdepth, digest := r.digest,
    spawns := r.spawns, c := Vector.replicate 3 0,
    effects := Vector.ofFn fun l : Lane => g.effects[l].take r.logs[l], region := none }

/-- The lanes' counts of spawned tasks, where they stand in lane-private memory, return to those of the region's start (R310), as far as their
pages translate (log entry 49). -/
def rewindSpawns (s : State) (gid : Nat) (g : Group) (r : Region) : State :=
  let m := maskOf fun l => decide (g.spawns[l] ≠ r.spawns[l])
  let (s, x) := xlateLanes s g .lp .write (constLanes spawnPlace) 4 (lanesOf m)
  x.keys.foldl (fun s p => lpPuts s (g.deviceWriter gid (oneLane p.1)) p.2 (toBytes (r.spawns[(Fin.ofNat 96 p.1 : Lane)]) 4)) s

/-! ### Digests (R312) -/

/-- Word n of a digest. -/
def digestWord (d : BitVec 128) (n : BitVec 2) : Word32 := d.extractLsb' (32 * n.toNat) 32

def execDigestRd (h : Head) (d : Dst) (n : BitVec 2) (s : State) : Out :=
  runV (.digestRd h d n) s fun _ g _ _ l => if g.det then digestWord g.digest[l] n else 0#32

/-- A value folded as an access with address 0 and space code 7. -/
def foldValue (d : BitVec 128) (w : BitVec 3) (v : BitVec 64) : BitVec 128 :=
  [0#32, 0#32, BitVec.ofNat 32 (7 * 2 ^ 16 + w.toNat * 2 ^ 19), v.extractLsb' 0 32, v.extractLsb' 32 32].foldl digestFoldWord d

def execDigestFold (h : Head) (a : Src) (s : State) : Out :=
  gate (.digestFold h a) s fun s gid s1 g sl sh =>
    let m := execLanes g sl h
    let g1 :=
      if g.det then
        { g with digest := setLanes g.digest m fun l => foldValue g.digest[l] h.w ((readSrc s g sl l a (wBits h.w)).setWidth 64) }
      else g
    .next (s.setGroup gid (g1.done s1 sh))

end Sys2Proof.Machine
end

