-- ==== Sys2Proof/Machine/System.lean ====
section
/-! DEFINITION. Special registers and the system operations (R263 to R265, R313 to R316, and the words that reach the registers
of R53, R186, R279). -/

namespace Sys2Proof.Machine

/-! ### Reading special registers (R314) -/

/-- Word n of a value of up to four words. -/
def word32 {w : Nat} (x : BitVec w) (n : Nat) : Word32 := x.extractLsb' (32 * n) 32

/-- sr.twin0 to sr.twin3 in one lane: zero for slices beyond the allocation (R133). -/
def twinWord (g : Group) (l : Lane) (n : Nat) : Word32 := if g.alloc = 512 then word32 g.shadowSl[l] n else 0#32

/-- sr.partcmd (R318): the fields that only a write has read as a free value (log entry 44). -/
def partcmdWord (d : Die) (open_ : BitVec 64) : Word32 :=
  (if d.partbusy then 0x80000000#32 else 0#32) ||| (if d.parterror then 0x40000000#32 else 0#32) ||| (open_.setWidth 32 &&& 0x31F#32)

/-- The registers of a group, lane, slot and place. -/
def srLocal (g : Group) (sl : Slot) (l : Lane) (n : Nat) : Word32 :=
  match n with
  | 0x000 => BitVec.ofNat 32 l.val
  | 0x001 => g.index | 0x002 => g.teamNo | 0x003 => BitVec.ofNat 32 g.grid | 0x004 => BitVec.ofNat 32 g.role
  | 0x005 => BitVec.ofNat 32 g.quad | 0x006 => BitVec.ofNat 32 (g.core % 64) | 0x007 => BitVec.ofNat 32 (g.core / 8 % 8)
  | 0x008 => BitVec.ofNat 32 g.die | 0x009 => BitVec.ofNat 32 g.lcore | 0x00A => BitVec.ofNat 32 g.tenant
  | 0x00B => BitVec.ofNat 32 g.alloc | 0x00C => g.cdepth[l].setWidth 32
  | 0x00D => word32 g.lpbase 0 | 0x00E => word32 g.lpbase 1 | 0x00F => word32 g.lpbase 2
  | 0x011 => word32 sl.clock 1 | 0x012 => if g.sup then 1#32 else 0#32
  | 0x014 => word32 g.lidx[l] 0 | 0x015 => word32 g.lidx[l] 1 | 0x016 => word32 g.lidx[l] 2 | 0x017 => word32 g.lidx[l] 3
  | 0x020 => g.fpctl | 0x021 => g.fpflags | 0x022 => g.srstrm.setWidth 32 | 0x023 => g.srctr[l]
  | 0x030 => word32 g.utrap 0 | 0x031 => word32 g.utrap 1 | 0x032 => word32 g.utrap 2
  | 0x033 => g.treg.cause | 0x034 => g.treg.dst | 0x035 => word32 g.treg.inst 0 | 0x036 => word32 g.treg.inst 1
  | 0x037 => word32 g.treg.pc 0 | 0x038 => word32 g.treg.pc 1 | 0x039 => word32 g.treg.pc 2
  | 0x03A => word32 g.treg.mask 0 | 0x03B => word32 g.treg.mask 1 | 0x03C => word32 g.treg.mask 2
  | 0x03D => word32 g.efa 0 | 0x03E => word32 g.efa 1 | 0x03F => word32 g.efa 2 | 0x040 => g.efh
  | 0x044 => twinWord g l 0 | 0x045 => twinWord g l 1 | 0x046 => twinWord g l 2 | 0x047 => twinWord g l 3
  | 0x048 => word32 g.shadowK 0 | 0x049 => word32 g.shadowK 1 | 0x04A => word32 g.shadowK 2 | 0x04B => word32 g.shadowK 3
  | 0x04C => word32 g.shadowK 4 | 0x04D => word32 g.shadowK 5 | 0x04E => word32 g.shadowK 6 | 0x04F => word32 g.shadowK 7
  | 0x060 => g.callhi | 0x061 => word32 g.callh 0 | 0x062 => word32 g.callh 1 | 0x063 => word32 g.callg 0 | 0x064 => word32 g.callg 1
  | _ => 0#32

/-- The privileged registers, of the group's tenant, die, core, or of the module (log entry 43). -/
def srShared (s : State) (g : Group) (n : Nat) : Word32 :=
  let t := s.tenant g.tenant
  let d := s.die g.die
  match n with
  | 0x100 => word32 t.agkey 0 | 0x101 => word32 t.agkey 1 | 0x102 => word32 t.agkey 2 | 0x103 => word32 t.agkey 3
  | 0x104 => word32 t.ptroot 0 | 0x105 => word32 t.ptroot 1
  | 0x106 => d.leaselen.setWidth 32 | 0x107 => (s.core g.die g.core).ecbud.setWidth 32 | 0x108 => d.quantum.setWidth 32
  | 0x109 => word32 t.csabase 0 | 0x10A => word32 t.csabase 1 | 0x10B => word32 t.csabase 2
  | 0x10C => t.csasize.setWidth 32 | 0x10D => t.csacount.setWidth 32
  | 0x10E => word32 s.spinbase 0 | 0x10F => word32 s.spinbase 1 | 0x110 => word32 s.spinbase 2
  | 0x111 => t.dgmode.setWidth 32 | 0x112 => word32 t.dglog 0 | 0x113 => word32 t.dglog 1 | 0x114 => word32 t.dglog 2
  | 0x115 => word32 d.dqbase 0 | 0x116 => word32 d.dqbase 1 | 0x117 => word32 d.dqbase 2
  | 0x118 => word32 d.mfqbase 0 | 0x119 => word32 d.mfqbase 1 | 0x11A => word32 d.mfqbase 2
  | 0x11B => d.mfqhead.setWidth 32 | 0x11C => d.mfqtail.setWidth 32
  | 0x11D => word32 d.partbase 0 | 0x11E => word32 d.partbase 1 | 0x11F => word32 d.partbase 2
  | 0x120 => partcmdWord d (Config.freeValue s.fresh)
  | _ => 0#32

def srRead (s : State) (g : Group) (sl : Slot) (l : Lane) (n : Nat) : Word32 :=
  if n < 0x100 then srLocal g sl l n else srShared s g n

/-- rdsr (R313). -/
def execRdsr (h : Head) (d : Dst) (num : BitVec 11) (s : State) : Out :=
  gate (.rdsr h d num) s fun s gid s1 g sl sh =>
    let m := execLanes g sl h
    let s' := s.setGroup gid ((g.putResult s1 sh m true fun l => srRead s g sl l num.toNat).done s1 sh)
    .next (if num = 0x120#11 then { s' with fresh := s'.fresh + 1 } else s')

/-- Words of the group that have issued and will raise flags: lazy ones, and those that wait in either slot for rows of the matrix unit. -/
def flagsDue (s : State) (gid : Nat) (g : Group) : Bool :=
  let waits := fun sl : Slot => match sl.wait with | .acc _ | .feed => true | _ => false
  (s.lazies.any fun o => o.gid = gid) || waits g.s0 || waits g.s1

/-- rdsr of sr.fpflags waits for every flag-raising instruction of the group (R186). -/
def execRdsrFpflags (h : Head) (d : Dst) (s : State) : Out :=
  gate (.rdsrFpflags h d) s fun s gid s1 g sl sh =>
    let m := execLanes g sl h
    if m ≠ 0#96 && flagsDue s gid g then .next (s.modSlot gid s1 fun x => { x with wait := .other })
    else .next (s.setGroup gid ((g.putResult s1 sh m true fun _ => g.fpflags).done s1 sh))

/-- rdsr of sr.clock0 captures the whole count for the slot (R313). -/
def execRdsrClock0 (h : Head) (d : Dst) (s : State) : Out :=
  gate (.rdsrClock0 h d) s fun s gid s1 g sl sh =>
    let m := execLanes g sl h
    let g := if m = 0#96 then g else g.modSlot s1 fun x => { x with clock := s.now }
    .next (s.setGroup gid ((g.putResult s1 sh m true fun _ => s.now.setWidth 32).done s1 sh))

/-! ### Writing special registers -/

/-- A wrsr to a register of the group, or of what the group's place names: nothing with a zero mask, illegal-instruction where
`put` refuses the value. -/
def wrsrOnce (i : Instr) (h : Head) (a : Src) (s : State) (put : State → Nat → Group → Word32 → Option State) : Out :=
  gate i s fun s gid s1 g sl sh =>
    let m := execLanes g sl h
    if m = 0#96 then .next (s.setGroup gid (g.done s1 sh))
    else
      match put s gid g (readOnce s g sl m a 32) with
      | some s => .next (s.modGroup gid fun g => g.done s1 sh)
      | none => .next (trapWord s gid s1 i sh cIllegalInstruction 0#8 (trapLanes g sl sh) true)

/-- Values that sr.fpctl takes (R186). -/
def fpctlOk (v : Word32) : Bool :=
  v &&& 0xFFFF80F8#32 = 0#32 && decide (1 ≤ (v.extractLsb' 0 3).toNat ∧ (v.extractLsb' 0 3).toNat ≤ 5)

def execWrsrFpctl (h : Head) (a : Src) (s : State) : Out :=
  wrsrOnce (.wrsrFpctl h a) h a s fun s gid g v => if fpctlOk v then some (s.setGroup gid { g with fpctl := v }) else none

def execWrsrFpflags (h : Head) (a : Src) (s : State) : Out :=
  wrsrOnce (.wrsrFpflags h a) h a s fun s gid g v => some (s.setGroup gid { g with fpflags := v &&& 0x3F#32 })

/-- A word of an 80-bit register replaced. -/
def setWord80 (x : Addr) (n : Nat) (v : Word32) : Addr := setField x (32 * n) v

/-- sr.utrap0–2: a vector whose low 3 bits are nonzero is refused (R279). -/
def execWrsrUtrap (h : Head) (word : BitVec 2) (a : Src) (s : State) : Out :=
  wrsrOnce (.wrsrUtrap h word a) h a s fun s gid g v =>
    let u := setWord80 g.utrap word.toNat v
    if u.extractLsb' 0 3 = 0#3 then some (s.setGroup gid { g with utrap := u }) else none

/-- sr.mfqhead: the next record that the supervisor will read (R53). -/
def execMfqheadWrite (h : Head) (a : Src) (s : State) : Out :=
  wrsrOnce (.mfqheadWrite h a) h a s fun s _ g v =>
    some (s.setDie g.die { s.die g.die with mfqhead := v.setWidth 12 })

/-- A write of a register that has one value for the group (R314): none where the value is refused. sr.leaselen keeps the four bits that
R314 gives it, so that the 16 that R105 also allows is not kept (DESIGN CHOICE, log entry 10). -/
def srPut (s : State) (gid : Nat) (g : Group) (n : Nat) (v : Word32) : Option State :=
  let t := s.tenant g.tenant
  let d := s.die g.die
  let tenant := fun x : Tenant => some (s.setTenant g.tenant x)
  let die := fun x : Die => some (s.setDie g.die x)
  match n with
  | 0x00A => some (s.setGroup gid { g with tenant := (v.extractLsb' 0 6).toNat })
  | 0x022 => if v.extractLsb' 24 8 = 0#8 then some (s.setGroup gid { g with srstrm := v.setWidth 24 }) else none
  | 0x048 => some (s.setGroup gid { g with shadowK := setField g.shadowK 0 v })
  | 0x049 => some (s.setGroup gid { g with shadowK := setField g.shadowK 32 v })
  | 0x04A => some (s.setGroup gid { g with shadowK := setField g.shadowK 64 v })
  | 0x04B => some (s.setGroup gid { g with shadowK := setField g.shadowK 96 v })
  | 0x04C => some (s.setGroup gid { g with shadowK := setField g.shadowK 128 v })
  | 0x04D => some (s.setGroup gid { g with shadowK := setField g.shadowK 160 v })
  | 0x04E => some (s.setGroup gid { g with shadowK := setField g.shadowK 192 v })
  | 0x04F => some (s.setGroup gid { g with shadowK := setField g.shadowK 224 v })
  | 0x100 => tenant { t with agkey := setField t.agkey 0 v }
  | 0x101 => tenant { t with agkey := setField t.agkey 32 v }
  | 0x102 => tenant { t with agkey := setField t.agkey 64 v }
  | 0x103 => tenant { t with agkey := setField t.agkey 96 v }
  | 0x104 => tenant { t with ptroot := setField t.ptroot 0 v }
  | 0x105 => tenant { t with ptroot := setField t.ptroot 32 (v.setWidth 24) }
  | 0x106 => die { d with leaselen := v.setWidth 4 }
  | 0x107 =>
    if v.extractLsb' 16 16 = 0#16 then
      some (s.setCore g.die g.core { s.core g.die g.core with ecbud := v.setWidth 16 })
    else none
  | 0x108 => if v.extractLsb' 24 8 = 0#8 then die { d with quantum := v.setWidth 24 } else none
  | 0x109 => tenant { t with csabase := setWord80 t.csabase 0 v }
  | 0x10A => tenant { t with csabase := setWord80 t.csabase 1 v }
  | 0x10B => tenant { t with csabase := setWord80 t.csabase 2 v }
  | 0x10C => tenant { t with csasize := v.setWidth 16 }
  | 0x10D => tenant { t with csacount := v.setWidth 16 }
  | 0x10E => some { s with spinbase := setWord80 s.spinbase 0 v }
  | 0x10F => some { s with spinbase := setWord80 s.spinbase 1 v }
  | 0x110 => some { s with spinbase := setWord80 s.spinbase 2 v }
  | 0x111 => tenant { t with dgmode := v.setWidth 2, dgpos := 0 }
  | 0x112 => tenant { t with dglog := setWord80 t.dglog 0 v, dgpos := 0 }
  | 0x113 => tenant { t with dglog := setWord80 t.dglog 1 v, dgpos := 0 }
  | 0x114 => tenant { t with dglog := setWord80 t.dglog 2 v, dgpos := 0 }
  | 0x115 => die { d with dqbase := setWord80 d.dqbase 0 v }
  | 0x116 => die { d with dqbase := setWord80 d.dqbase 1 v }
  | 0x117 => die { d with dqbase := setWord80 d.dqbase 2 v }
  | 0x118 => die { d with mfqbase := setWord80 d.mfqbase 0 v }
  | 0x119 => die { d with mfqbase := setWord80 d.mfqbase 1 v }
  | 0x11A => die { d with mfqbase := setWord80 d.mfqbase 2 v }
  | 0x11D => die { d with partbase := setWord80 d.partbase 0 v }
  | 0x11E => die { d with partbase := setWord80 d.partbase 1 v }
  | 0x11F => die { d with partbase := setWord80 d.partbase 2 v }
  | 0x120 =>
    if (v.extractLsb' 0 5).toNat < Config.dies then die { d with partbusy := true, partcmd := v.setWidth 10 } else none
  | _ => none

/-- A write of a register that has a value for each lane. -/
def srPutLanes (g : Group) (n : Nat) (m : Mask) (v : Lane → Word32) : Option Group :=
  let twin := fun k : Nat =>
    if g.alloc = 512 then { g with shadowSl := setLanes g.shadowSl m fun l => setField g.shadowSl[l] (32 * k) (v l) } else g
  match n with
  | 0x023 => some { g with srctr := setLanes g.srctr m v }
  | 0x044 => some (twin 0) | 0x045 => some (twin 1) | 0x046 => some (twin 2) | 0x047 => some (twin 3)
  | _ => none

/-- Is an earlier partition command still busy (R318)? -/
def partcmdBusy (s : State) (g : Group) (n : Nat) : Bool := n = 0x120 && (s.die g.die).partbusy

/-- wrsr (R313). -/
def execWrsr (h : Head) (num : BitVec 11) (a : Src) (s : State) : Out :=
  let i := Instr.wrsr h num a
  gate i s fun s gid s1 g sl sh =>
    let m := execLanes g sl h
    let n := num.toNat
    if m = 0#96 then .next (s.setGroup gid (g.done s1 sh))
    else
      match srPutLanes g n m fun l => readSrc s g sl l a 32 with
      | some g => .next (s.setGroup gid (g.done s1 sh))
      | none =>
        let v := readOnce s g sl m a 32
        if partcmdBusy s g n then .next (s.modSlot gid s1 fun x => { x with wait := .other })
        else
          match srPut s gid g n v with
          | some s => .next (s.modGroup gid fun g => g.done s1 sh)
          | none => .next (trapWord s gid s1 i sh cIllegalInstruction 0#8 (trapLanes g sl sh) true)

/-! ### Launch records (R263, R264) -/

/-- The fields of a record's first 40 bytes: none where one is outside its values. Gives the record without its tokens and
arguments, the number of tokens, and the arguments' count and address. -/
def parseLaunch (r : List Byte) : Option (LaunchRec × Nat × Nat × Addr) :=
  let f := bytesNat r
  let b := fun i => f i 1
  let entry : Addr := ofBytes (r.take 10) 80
  let budgets := (List.range 4).map fun i => b (16 + i)
  let args := b 26
  let argAddr : Addr := ofBytes ((r.drop 28).take 10) 80
  let ok := decide (1 ≤ b 10 ∧ b 10 ≤ 4 ∧ b 11 < 128 ∧ 1 ≤ f 12 2 ∧ f 12 2 ≤ 384 ∧ 1 ≤ f 14 2 ∧ 1 ≤ b 20 ∧ b 20 ≤ 4 ∧ b 21 ≤ 4 ∧
      f 22 2 ≤ 256 ∧ f 24 2 ≤ 8192 ∧ args ≤ 32 ∧ b 27 = 0 ∧ f 38 2 = 0 ∧ entry.toNat % 8 = 0 ∧ (args = 0 ∨ argAddr.toNat % 4 = 0)) &&
    budgets.zipIdx.all fun x => if x.2 < b 10 then decide (1 ≤ x.1 ∧ x.1 ≤ 4) else decide (x.1 = 0)
  if ok then
    some ({ entry := entry, roles := b 10, cls := b 11 % 8, prio := b 11 / 8 % 4, det := decide (b 11 / 32 % 2 = 1),
            hard := decide (b 11 / 64 = 1), groups := f 12 2, teams := f 14 2, budgets := budgets, taskBudget := b 20,
            scratch := f 22 2 * 4096, dscratch := f 24 2 * 4096, args := [], tokens := [] }, b 21, args, argAddr)
  else none

/-- One token of a record. -/
def parseToken (r : List Byte) : Option Token :=
  let f := bytesNat r
  if f 0 10 % 4 = 0 ∧ f 10 1 ≤ 1 ∧ f 11 1 = 0 ∧ (f 10 1 = 0 ∨ f 12 4 = 0) then
    some { addr := ofBytes (r.take 10) 80, signal := decide (f 10 1 = 1), target := BitVec.ofNat 32 (f 12 4) }
  else none

/-- The groups of a team that quadrant q of core c receives, q × 8 + c counted together (R138). -/
def quadGroups (groups place : Nat) : List Nat := (List.range groups).filter fun i => i % 32 = place

/-- Units that the groups of a team take in one quadrant. -/
def quadUnits (r : LaunchRec) (place : Nat) : Nat :=
  ((quadGroups r.groups place).map fun i => r.budgets.getD (i % r.roles) 0).foldl (· + ·) 0

/-- The last checks of R264: no quadrant takes more than its slots and units. -/
def launchFits (r : LaunchRec) : Bool :=
  (List.range 32).all fun p => decide ((quadGroups r.groups p).length ≤ 16 ∧ quadUnits r p ≤ 32)

/-- The reads of a launch after its record's first part: range locks and translation, as loads. -/
def launchRead (s : State) (gid : Nat) (g : Group) (agents : Mask) (sp : Space) (a : Addr) (n : Nat) : State × StepRead :=
  if n = 0 then (s, .ok []) else recordRead s gid g agents sp a n

def words32 (bs : List Byte) : List Word32 := (List.range (bs.length / 4)).map fun i => BitVec.ofNat 32 (bytesNat bs (4 * i) 4)

/-! ### The grid queue (R265) -/

/-- The wait tokens of a grid, from the `n`-th on, are read at their homes, but for those whose records wait for a replay; says whether each
has reached its target, and which do not translate, with the numbers of their records of kind 5. -/
def readTokens (s : State) (die tenant : Nat) (stops : List (Nat × Word32)) (n : Nat) : List Token → State × Bool × List (Nat × Word32)
  | [] => (s, true, [])
  | t :: r =>
    if t.signal then readTokens s die tenant stops (n + 1) r
    else if (tget stops n).isSome then
      let (s, _, new) := readTokens s die tenant stops (n + 1) r
      (s, false, new)
    else
      match xlateBytes s die 0 tenant true .read ((List.range 4).map fun i => t.addr + BitVec.ofNat 80 i) with
      | (s, .error (c, va)) =>
        let (s, seq) := appendRecord s die
          { addr := va, cause := c.code, kind := 5#8, tenant := tenant, core := 0, place := 0#8, mask := 0#96, seq := 0#32 }
        let (s, _, new) := readTokens s die tenant stops (n + 1) r
        (s, false, (n, seq) :: new)
      | (s, .ok ks) =>
        let here := decide (t.target.toNat ≤ natOfBytes (ks.map (homeByteFrom s die)))
        let (s, all, new) := readTokens s die tenant stops (n + 1) r
        (s, here && all, new)

/-- A grid that is not eligible reads its tokens: every one at its target makes it eligible (R265). -/
def pollGrid (s : State) (grid : Nat) : State :=
  match tget s.grids grid with
  | none => s
  | some g =>
    if g.eligible then s
    else
      let (s, all, new) := readTokens s g.die g.tenant g.tokenStops 0 g.record.tokens
      s.modGrid grid fun g =>
        if all then { g with eligible := true, waitSince := s.now.toNat } else { g with tokenStops := g.tokenStops ++ new }

/-- Every grid of the module that waits for its tokens reads them. -/
def pollGrids (s : State) (p : Nat → Bool) : State := (s.grids.filter fun x => p x.2.die).foldl (fun s x => pollGrid s x.1) s

/-- The Spinel table, for a grid in deterministic mode (R293); log entry 7 says how the device reads it. -/
def readSpinel (s : State) (die : Nat) (det : Bool) : State × List Word32 :=
  if det then
    match devRead s die 0 s.spinbase 6144 with
    | (s, some bs) => (s, words32 bs)
    | (s, none) => (s, [])
  else (s, [])

/-- A grid enters its die's queue. -/
def enterGrid (s : State) (die tenant : Nat) (r : LaunchRec) : State :=
  let d := s.die die
  let num : Word32 := BitVec.ofNat 5 die ++ d.counter
  let s := s.setDie die { d with counter := d.counter + 1#27, queue := d.queue ++ [num.toNat] }
  let (s, sp) := readSpinel s die r.det
  let g : Grid :=
    { num := num, die := die, tenant := tenant, record := r, eligible := false, tokenStops := [], waitSince := s.now.toNat,
      ds := none, placed := 0, ended := 0, gids := [], tasks := 0, floor := some 0#128, low := 0, retired := [], liveTasks := [],
      spinel := sp, digests := [], late := [], again := none,
      signalled := 0 }
  pollGrid { s with grids := tset s.grids num.toNat g } num.toNat

/-- sys.launch (R264, R265, R315): it waits, without a fault, for its lanes' earlier accesses and for an entry of the queue. -/
def execSysLaunch (h : Head) (a : Triple) (b : Src) (sp : BitVec 3) (s : State) : Out :=
  let i := Instr.sysLaunch h a b sp
  gate i s fun s gid s1 g sl sh =>
    let lanes := trapLanes g sl sh
    let die := if g.sup then (match b with | .ureg k => (g.kreg sl k.toNat).toNat | _ => 0) else g.die
    let space := Space.ofCode sp
    let addr := readTriple g sl a
    let trap := fun (s : State) c => Host.Outcome.next (trapWord s gid s1 i sh c 0#8 lanes true)
    let reading := fun (s : State × StepRead) (k : State → List Byte → Out) =>
      match s with
      | (s, .trap c) => trap s c
      | (s, .park e) => .next (parkSlot s gid s1 e.2 e.1 0#8 lanes)
      | (s, .ok bs) => k s bs
    if execLanes g sl h = 0#96 then .next (s.setGroup gid (g.done s1 sh))
    else if !released s gid g.die sl.uniMask 4 s.seqNo || decide (64 ≤ (s.die die).queue.length) then
      .next (s.modSlot gid s1 fun x => { x with wait := .other })
    else
      reading (stepRead s gid g sl.uniMask space addr 40) fun s r =>
        match parseLaunch r with
        | none => trap s cLaunchRecord
        | some (rec, nTok, nArg, argAddr) =>
          reading (launchRead s gid g sl.uniMask space (addr + 40#80) (16 * nTok)) fun s tb =>
            let toks := (List.range nTok).filterMap fun j => parseToken ((tb.drop (16 * j)).take 16)
            if toks.length ≠ nTok ∨ !launchFits rec then trap s cLaunchRecord
            else
              reading (launchRead s gid g sl.uniMask space argAddr (4 * nArg)) fun s ab =>
                .next (enterGrid (s.setGroup gid (g.done s1 sh)) die g.tenant { rec with tokens := toks, args := words32 ab })

/-! ### sys.tlbinv (R49) -/

/-- sys.tlbinv: a write fence at its scope, and the covered translations of the tenant dropped at its completion. -/
def execSysTlbinv (h : Head) (a : Triple) (b : BitVec 8) (sc : BitVec 3) (s : State) : Out :=
  gate (.sysTlbinv h a b sc) s fun s gid s1 g sl sh =>
    let m := execLanes g sl h
    if m = 0#96 then .next (s.setGroup gid (g.done s1 sh))
    else
      let v := g.kreg sl b.toNat
      let log := (v.extractLsb' 0 7).toNat
      let f : FenceRec := { id := s.seqNo, gid := gid, lanes := sl.uniMask, succ := 0#4, scope := sc,
                            waits := fenceWaits s gid sl.uniMask 4#4, more := [], counted := false, ctr := h.ctr, ends := none }
      let t : TlbInv := { fence := f, tenant := g.tenant, lo := (readTriple g sl a).toNat / 2 ^ log * 2 ^ log, log := log,
                          die := if sc = 3#3 then some (v.extractLsb' 8 5).toNat else none }
      let s := (s.setGroup gid (g.done s1 sh)).nextId.2.ctrUp gid h.ctr
      .next { s with tlbinvs := s.tlbinvs ++ [t] }

/-- The translations of an invalidation leave every TLB of its scope; a management core's number on its die lies past those of the cores
(log entry 50). -/
def dropTranslations (s : State) (t : TlbInv) : State :=
  let inScope := fun d : Nat => match t.die with | some x => decide (x = d) | none => true
  { s with cores := s.cores.map fun c => if inScope (c.1 / 64 % 25) then (c.1, { c.2 with tlb := tlbDrop c.2.tlb t.tenant t.lo t.log }) else c,
           dies := s.dies.map fun d => if inScope d.1 then (d.1, { d.2 with tlb := tlbDrop d.2.tlb t.tenant t.lo t.log }) else d }

/-- TLBINV_COMPLETE: the writes that the invalidation orders have performed at its scope. -/
def execTlbinvComplete (id : Nat) (s : State) : Out :=
  match s.tlbinvs.find? fun t => t.fence.id = id with
  | none => .next s
  | some t =>
    if fenceMet s t.fence t.fence.waits then
      let s := { s with tlbinvs := s.tlbinvs.filter fun x => x.fence.id ≠ id }
      .next ((dropTranslations s t).ctrDown t.fence.gid t.fence.ctr)
    else .next s

/-! ### sys.carve (R55, R57) -/

/-- The lines of the L1 ways below `to` leave the cache, their dirty sectors written back. -/
def leaveWays (s : State) (die core dest : Nat) : State :=
  let out := (s.core die core).l1.filter fun e => decide (e.way < dest)
  let s := out.foldl (fun s e => l1WriteBackLine s die core e) s
  let c := s.core die core
  s.setCore die core { c with l1 := c.l1.filter fun e => !decide (e.way < dest) }

/-- sys.carve: the change begins; a second one waits for the first. -/
def execSysCarve (h : Head) (a : BitVec 8) (s : State) : Out :=
  gate (.sysCarve h a) s fun s gid s1 g sl sh =>
    let v := g.kreg sl a.toNat
    let die := (v.extractLsb' 0 11).toNat / 64
    let core := (v.extractLsb' 0 11).toNat % 64
    let dest := (v.extractLsb' 16 4).toNat
    if execLanes g sl h = 0#96 then .next (s.setGroup gid (g.done s1 sh))
    else if (s.core die core).carveTo.isSome then .next (s.modSlot gid s1 fun x => { x with wait := .other })
    else
      let s := (s.setGroup gid (g.done s1 sh)).ctrUp gid h.ctr
      let s := leaveWays s die core dest
      .next (s.setCore die core { s.core die core with carveTo := some dest, carveBy := some (gid, h.ctr) })

/-- Does a team's allocation on a core touch scratchpad at or above a byte? -/
def scratchAbove (s : State) (die core lo : Nat) : Bool :=
  s.teams.any fun t => t.2.die = die && t.2.clu = core / 8 && decide (0 < t.2.scSize ∧ lo < t.2.scBase.getD (core % 8) 0 + t.2.scSize)

/-- CARVE_CHANGE_COMPLETE: a growth once its write-backs are done, a shrink once no allocation touches its banks. `core` is
64 × die + core. -/
def execCarveChangeComplete (core : Nat) (s : State) : Out :=
  let die := core / 64
  let c := s.core die (core % 64)
  match c.carveTo with
  | none => .next s
  | some dest =>
    if dest < c.carve && scratchAbove s die (core % 64) (dest * 2 ^ 17) then .next s
    else
      let s' := s.setCore die (core % 64) { c with carve := dest, carveTo := none, carveBy := none }
      .next (match c.carveBy with | some (gid, ctr) => s'.ctrDown gid ctr | none => s')

/-! ### sys.halt (R316) -/

/-- Everything of a grid is removed: groups, saved teams and their save slots, tasks, programs, contexts, its entry and its allocations.
Stores on their way go on. -/
def haltGrid (s : State) (grid : Nat) : State :=
  match tget s.grids grid with
  | none => s
  | some gr =>
    let gone := fun gid : Nat => match s.group? gid with | some g => decide (g.grid = grid) | none => false
    let teams := (s.teams.filter fun t => t.2.grid = grid).map Prod.fst
    let ctxs := (s.teams.filter fun t => t.2.grid = grid).filterMap fun t => t.2.ctx
    let pids := (s.progs.filter fun p => p.2.grid = grid).map Prod.fst
    let s := pids.foldl (fun s p => dropOps s p) s
    let s := (s.saved.filter fun x => x.grid = grid).foldl (fun s x => devWrite s x.die x.tenant x.slotAddr (List.replicate 8 0#8)) s
    let mine := s.copies.filter fun c => c.grid = grid
    let s := mine.foldl (fun s c => dropLocks s c.die c.core (.copy c.id)) s
    let s := ctxs.foldl (fun s c => let s := stopRun s c 0x04#8 0xFF#8; { s with ctxs := tdel s.ctxs c }) s
    let s := { s with
      quads := s.quads.map fun (q : Nat × Quad) =>
        (q.1, { q.2 with
          mx := match q.2.mx.holder with | some t => if teams.contains t then MxUnit.reset else q.2.mx | none => q.2.mx,
          claims := q.2.claims.filter fun c => !gone c.gid,
          tags := q.2.tags.filter fun t => !teams.contains t.1,
          loads := q.2.loads.filter fun w => !gone w.gid,
          last := match q.2.last with | some l => if gone l.1 then none else some l | none => none }),
      groups := s.groups.filter fun g => g.2.grid ≠ grid,
      teams := s.teams.filter fun t => t.2.grid ≠ grid,
      saved := s.saved.filter fun x => x.grid ≠ grid,
      deques := s.deques.map fun (d : Nat × Deque) => (d.1, { d.2 with tasks := d.2.tasks.filter fun t => t.grid ≠ grid }),
      progs := s.progs.filter fun p => p.2.grid ≠ grid,
      copies := s.copies.filter fun c => c.grid ≠ grid,
      accs := s.accs.filter fun a => !gone a.gid && a.grid ≠ grid,
      fences := s.fences.filter fun f => !gone f.gid,
      lazies := s.lazies.filter fun o => !gone o.gid,
      efaults := s.efaults.filter fun f => !gone f.gid,
      dsAlloc := s.dsAlloc.filter fun a => a.2.2.2 ≠ grid,
      grids := tdel s.grids grid }
    let d := s.die gr.die
    settleFences (settleOwners (s.setDie gr.die { d with queue := d.queue.filter fun x => x ≠ grid }))

def execSysHalt (h : Head) (a : BitVec 8) (s : State) : Out :=
  gate (.sysHalt h a) s fun s gid s1 g sl sh =>
    let s' := s.setGroup gid (g.done s1 sh)
    if execLanes g sl h = 0#96 then .next s' else .next (haltGrid s' (g.kreg sl a.toNat).toNat)

/-! ### sys.replay and sys.efail (R52, R300): the operand names no die, so that they reach every die's record of that number (log entry
45) -/

def stoppedAt (seq : Word32) (x : Option (Nat × Word32)) : Bool := match x with | some r => decide (r.2 = seq) | none => false

/-- A slot that a record parked goes on: with its captured operands where it has them, at its word otherwise. -/
def Slot.replay (now : Nat) (seq : Word32) (sl : Slot) : Slot :=
  match sl.wait with
  | .parked _ n =>
    if n ≠ seq then sl
    else if sl.req.isSome then { sl with wait := .pending, readyAt := now }
    else { sl with wait := .ready, unfinished := 0#96, readyAt := now }
  | _ => sl

/-- A slot that a load of tables parked waits for the load again, in its place (R52, R208). -/
def TblWait.replay (seq : Word32) (w : TblWait) (g : Group) : Group :=
  if w.srcs.isSome then g
  else g.modSlotIn w.s1 w.trap fun sl => match sl.wait with | .parked _ n => if n = seq then { sl with wait := .tbld } else sl | _ => sl

/-- Groups that a record parked as a whole: their transfers go on. -/
def replayGroups (s : State) (seq : Word32) : State :=
  (s.groups.filter fun g => stoppedAt seq g.2.parkedAll).foldl (fun s g =>
    stackTransfers (s.modGroup g.1 fun g => { g with parkedAll := none }) g.1 g.2.owed) s

/-- What a record of a number stopped, in a saved team: it goes on when the team has been restored. -/
def Saved.replay (now : Nat) (seq : Word32) (x : Saved) : Saved :=
  let free := fun (y : Option (Nat × Word32)) => if stoppedAt seq y then none else y
  let loads := fun (gid : Nat) (g : Group) => x.loads.foldl (fun g w => if w.gid = gid then w.replay seq g else g) g
  { x with
    groups := x.groups.map fun (g : Nat × Group) =>
      (g.1, { (loads g.1 g.2).mapSlots (Slot.replay now seq) with parkedAll := free g.2.parkedAll }),
    progs := x.progs.map fun (p : Nat × Nat × Prog) => (p.1, p.2.1, { p.2.2 with stopped := free p.2.2.stopped }),
    ctx := x.ctx.map fun (c : StepCtx) => { c with stopped := free c.stopped } }

/-- What the records of a number stopped goes on. -/
def replayAll (s : State) (seq : Word32) : State :=
  let free := fun (x : Option (Nat × Word32)) => if stoppedAt seq x then none else x
  let stopped := (s.grids.filter fun g => g.2.tokenStops.any fun x => x.2 = seq).map Prod.fst
  let s := (s.quads.flatMap fun q => q.2.loads).foldl (fun s w => s.modGroup w.gid (w.replay seq)) s
  let s := { s with
    groups := s.groups.map fun (g : Nat × Group) => (g.1, g.2.mapSlots (Slot.replay s.now.toNat seq)),
    progs := s.progs.map fun (p : Nat × Prog) => (p.1, { p.2 with stopped := free p.2.stopped }),
    copies := s.copies.map fun (c : CopyOp) => { c with stopped := free c.stopped },
    ctxs := s.ctxs.map fun (c : Nat × StepCtx) => (c.1, { c.2 with stopped := free c.2.stopped }),
    saved := s.saved.map (Saved.replay s.now.toNat seq) }
  let s := replayGroups s seq
  stopped.foldl (fun s k => pollGrid (s.modGrid k fun g => { g with tokenStops := g.tokenStops.filter fun x => x.2 ≠ seq }) k) s

def execSysReplay (h : Head) (a : BitVec 8) (s : State) : Out :=
  gate (.sysReplay h a) s fun s gid s1 g sl sh =>
    let s' := s.setGroup gid (g.done s1 sh)
    if execLanes g sl h = 0#96 then .next s' else .next (replayAll s' (g.kreg sl a.toNat))

/-- The same for a saved team: its programs and its context end as they stand. -/
def Saved.efail (seq : Word32) (x : Saved) : Saved :=
  let hit := fun p : Nat × Nat × Prog => stoppedAt seq p.2.2.stopped
  { x with
    progs := x.progs.map fun (p : Nat × Nat × Prog) => if hit p then (p.1, p.2.1, p.2.2.failed dEndedBySupervisor) else p,
    settled := x.settled ++ (x.progs.filter hit).map fun p => (p.2.2.gid, p.2.2.ctr),
    ctx := x.ctx.map fun (c : StepCtx) => if stoppedAt seq c.stopped then c.end 0x09#8 0xFF#8 else c }

/-- The engine operation that a record of kind 5 stopped ends with detail 0x42; a stepper's run stops. -/
def efailAll (s : State) (seq : Word32) : State :=
  let pids := s.progs.filter fun p => stoppedAt seq p.2.stopped
  let cs := s.copies.filter fun c => stoppedAt seq c.stopped
  let xs := (s.ctxs.filter fun c => stoppedAt seq c.2.stopped).map Prod.fst
  let s := pids.foldl (fun s p => progFault s p.1 dEndedBySupervisor p.2.stopVa) s
  let s := cs.foldl (fun s c => copyFault s c dEndedBySupervisor c.stopVa) s
  let s := xs.foldl (fun s c => stopRun s c 0x09#8 0xFF#8) s
  { s with saved := s.saved.map (Saved.efail seq),
           efaults := s.efaults ++ (s.saved.flatMap fun x => x.progs.filter fun p => stoppedAt seq p.2.2.stopped).map fun p =>
             p.2.2.fault dEndedBySupervisor p.2.2.stopVa }

def execSysEfail (h : Head) (a : BitVec 8) (s : State) : Out :=
  gate (.sysEfail h a) s fun s gid s1 g sl sh =>
    let s' := s.setGroup gid (g.done s1 sh)
    if execLanes g sl h = 0#96 then .next s' else .next (efailAll s' (g.kreg sl a.toNat))

/-! ### sys.debug and sys.slice (R175, R283) -/

def execSysDebug (h : Head) (a b : BitVec 8) (s : State) : Out :=
  gate (.sysDebug h a b) s fun s gid s1 g sl sh =>
    let t := (g.kreg sl a.toNat).toNat
    let s' := s.setGroup gid (g.done s1 sh)
    if execLanes g sl h = 0#96 then .next s'
    else .next (s'.setTenant t { s'.tenant t with debug := (g.kreg sl b.toNat).getLsbD 0 })

/-- sys.slice: a tenant's slice ends, and its drain begins, or a slice begins. -/
def execSysSlice (h : Head) (a b : BitVec 8) (s : State) : Out :=
  gate (.sysSlice h a b) s fun s gid s1 g sl sh =>
    let t := (g.kreg sl a.toNat).toNat
    let begins := (g.kreg sl b.toNat).getLsbD 0
    let s' := s.setGroup gid (g.done s1 sh)
    if execLanes g sl h = 0#96 then .next s'
    else
      .next (s'.setTenant t { s'.tenant t with inSlice := begins,
                                               drainAt := if begins then none else some (s.now.toNat + Config.drainCycles) })

end Sys2Proof.Machine
end

