-- ==== Sys2Proof/Machine/Issue.lean ====
section
/-! DEFINITION. From a program counter to a word: fetching, clause headers, interlocks, which slot issues next, rotation of
paths, and the walker (R8 to R11, R33, R34, R48, R53, R122, R141, R149, R271, R300). -/

namespace Sys2Proof.Machine

/-! ### Fetching -/

/-- The eight bytes at a code address (R11). -/
def fetchAt (s : State) (die core tenant : Nat) (sup : Bool) (a : Addr) : State × Except (PageFault × Addr) Word64 :=
  match xlateBytes s die core tenant sup .fetch ((List.range 8).map fun i => a + BitVec.ofNat 80 i) with
  | (s, .ok ks) => (s, .ok (bytesWord (ks.map (homeByteFrom s die))))
  | (s, .error e) => (s, .error e)

def fetchGroup (s : State) (g : Group) (a : Addr) : State × Except (PageFault × Addr) Word64 :=
  fetchAt s g.die g.core g.tenant g.sup a

/-- The lanes that a word's own guards leave issued, for a word that decodes to nothing: the fields of the V-format's guards in
the lane class, the slot's lanes in the uniform class (R278). -/
def rawLanes (g : Group) (sl : Slot) (x : Word64) : Mask :=
  if sl.cls = 1#3 then sl.uniMask else g.issuedLanes sl (headL (Fields.unpack x))

/-- A trap at a word without a decoding. -/
def rawTrap (s : State) (gid : Nat) (s1 : Bool) (cause : BitVec 8) (lanes : Mask) (x : Word64) : State :=
  takeTrap s gid s1 { cause := cause, detail := 0#8, mask := lanes, whole := true, res := false } 0#32 x lanes

/-! ### Clauses (R8 to R11) -/

/-- Every counter that the wait mask names is zero. -/
def waitsOver (g : Group) (wait : BitVec 3) : Bool :=
  (List.range 3).all fun i => !wait.getLsbD i || decide (g.ctr (BitVec.ofNat 2 (i + 1)) = 0)

/-- Classes of clauses that a group executes (R10). -/
def groupClass (g : Group) (cls : BitVec 3) : Bool := if g.sup then cls = 1#3 else decide (cls.toNat ≤ 1)

/-- The words of a clause all translate: the first failure otherwise, which parks the slot at the header (R52). -/
def clauseFetch (s : State) (g : Group) (a : Addr) (n : Nat) : State × Except (PageFault × Addr) Unit :=
  match xlateBytes s g.die g.core g.tenant g.sup .fetch ((List.range n).map fun i => a + BitVec.ofNat 80 (8 * i)) with
  | (s, .ok _) => (s, .ok ())
  | (s, .error e) => (s, .error e)

/-- Clauses counted for the rotation of R149: those counted beyond 256 while a rotation is due go to the next one. -/
def Group.countClause (g : Group) : Group :=
  let n := g.rotCount + 1
  { g with rotCount := if Config.rotateEvery ≤ n ∧ g.paths < 3 then n - Config.rotateEvery else n }

/-- CLAUSE_ISSUE: the header at the agent's program counter. A class that the agent does not execute is an illegal header; a
clause starts once its counters are zero. -/
def execClauseIssue (cls : BitVec 3) (cnt : BitVec 4) (wait : BitVec 3) (yld : Bool) (s : State) : Out :=
  match s.cur with
  | .slot gid s1 =>
    match s.group? gid with
    | none => .fault .noIssuer
    | some g =>
      let sl := g.slot s1
      if !groupClass g cls then
        .next (rawTrap s gid s1 cIllegalHeader sl.mask ((encode (.clauseIssue cls cnt wait yld)).getD 0#64))
      else if !waitsOver g wait then .next s
      else
        match clauseFetch s g (sl.pc + 8#80) (cnt.toNat + 1) with
        | (s, .error e) => .next (parkSlot s gid s1 e.2 e.1 3#8 sl.mask)
        | (s, .ok ()) =>
          .next (s.setGroup gid (g.countClause.modSlot s1 fun sl =>
            { sl with header := sl.pc, pc := sl.pc + 8#80, cls := cls, left := cnt.toNat + 1, pos := 0, fresh := 0#8, yld := yld,
                      wait := .ready }))
  | .prog pid =>
    match s.prog? pid with
    | none => .fault .noIssuer
    | some p =>
      if cls ≠ p.cls then .next (progFault s pid dIllegalHeader 0#80)
      else .next (s.setProg pid { p with header := p.pc, pc := p.pc + 8#80, left := cnt.toNat + 1 })
  | .none => .fault .noIssuer

/-! ### What a word waits for beside its registers -/

/-- The class of R92 of a word's accesses; mfeed and the words of R339 are engine operations. What tbld and the step words read from
memory they read as an ldu does (R208, R240). -/
def wordClasses : Instr → BitVec 4
  | .ld _ _ _ _ _ _ _ | .ldu _ _ _ _ _ _ | .gth _ _ _ _ _ _ _ | .ringPop _ _ _ _ _ | .tbld _ _ _ _ => 8#4
  | .st _ _ _ _ _ _ | .sct _ _ _ _ _ _ _ | .ringPush _ _ _ _ _ => 4#4
  | .atom _ _ _ _ _ _ _ | .atomo _ _ _ _ _ _ | .futFill _ _ _ _ _ => 14#4
  | .futWait _ _ _ _ _ => 10#4
  | .cpy _ _ _ _ _ _ _ | .cpyCont _ _ _ _ _ _ _ | .forkMx _ _ _ _ _ | .forkCp _ _ _ _ _ | .forkCl _ _ _ _ _ => 1#4
  | .mfeedDat _ _ _ _ _ | .mfeedScl _ _ _ _ _ | .mfeedBand _ _ _ _ | .mfeedQ _ _ _ _ _ => 1#4
  | .stepLdtab _ _ _ | .stepBind _ _ _ | .stepRun _ _ _ => 9#4
  | .stepQry _ _ _ | .stepStat _ _ _ | .stepStop _ => 1#4
  | _ => 0#4

/-- A fence of the lanes that the word must follow (R75). -/
def fenced (s : State) (gid : Nat) (m : Mask) (i : Instr) : Bool :=
  s.fences.any fun f => f.gid = gid && decide (f.lanes &&& m ≠ 0#96 ∧ f.succ &&& wordClasses i ≠ 0#4)

/-- Words whose accesses perform as they issue, in lane-private memory, at the word's place in program order, or at a ring's slot. -/
def performsAtOnce : Instr → Bool
  | .spill _ _ _ _ _ _ | .fill _ _ _ _ _ _ | .cmntWb _ _ _ _ _ | .cmntInv _ _ _ _ _ | .cmntL2wb _ _ _ _ _ | .cmntL2inv _ _ _ _ _
  | .call _ _ _ _ | .callUniform _ _ _ _ | .callx _ _ _ _ _ | .ret _ | .tbld _ _ _ _ | .ringPush _ _ _ _ _ | .ringPop _ _ _ _ _ => true
  | _ => false

/-- Words whose effects in memory have no record of their own that could wait: a task's wait here for what came before its spawn (R310). -/
def waitsWhole (i : Instr) : Bool :=
  performsAtOnce i || decide (wordClasses i &&& 1#4 ≠ 0#4) || (match i with | .futWait _ _ _ _ _ | .futFill _ _ _ _ _ => true | _ => false)

/-- Words for which the device moves call frames, and, where the stack reaches into memory, its entries: they draw on the general pool (R63, R147,
R169). -/
def drawsEntry (g : Group) : Instr → Bool
  | .call _ _ _ _ | .callUniform _ _ _ _ | .callx _ _ _ _ _ | .ret _ => true
  | .bra _ _ _ _ | .brx _ _ _ _ _ | .join | .exit _ | .exitUniform _ | .rtt _ | .rttSub _ _ | .rttSkip _ =>
    decide (Config.stackOnChip ≤ g.stack.length)
  | _ => false

/-- What a releasing word waits for: a future's fill, at its natural scope (R84); an arrival at a barrier as fence.clu rwa, w would, for
every lane of the slot (R102, R174). -/
def releases (s : State) (gid : Nat) (g : Group) (sl : Slot) : Instr → Bool
  | .barArrive _ _ _ | .barSync _ _ _ =>
    released s gid g.die (sl.owned ||| sl.uniMask) 2 s.seqNo && (fenceMore s g 6#4 2#3).all (performed s g.die 2)
  | .futFill _ _ _ sp _ => released s gid g.die sl.uniMask (naturalScope (Space.ofCode sp)) s.seqNo
  | _ => true

/-- May the word issue now, as far as its registers, its order and its counter go (R19, R75, R122)? -/
def wordFree (s : State) (gid : Nat) (s1 : Bool) (g : Group) (i : Instr) : Bool :=
  match wordShape i with
  | none => true
  | some sh =>
    let sl := g.slot s1
    !interlocked s gid s1 g i sh && !fenced s gid sl.uniMask i && !(waitsWhole i && heldBack s gid sl.uniMask) &&
      !(sh.head.ctr ≠ 0#2 && decide (63 ≤ g.ctr sh.head.ctr)) &&
      !(performsAtOnce i && stillPending s (pendingOf s gid sl.uniMask)) && (!drawsEntry g i || entryFree s g.die g.core) &&
      releases s gid g sl i

/-! ### Readiness (R8, R141) -/

/-- A wait that ends when the word, tried again, can act (R141): it is no issue, and takes no port. -/
def SlotWait.probes : SlotWait → Bool
  | .other | .feed | .acc _ | .spawn => true
  | _ => false

/-- A word that has issued, and acts as soon as it can (R228, R236). -/
def SlotWait.issued : SlotWait → Bool
  | .feed | .acc _ => true
  | _ => false

/-- The slot whose path the next rotation takes: the turn's, or the other where that is blocked inside an instruction, or sleeps (R149). -/
def rotationTurn (s : State) (g : Group) : Bool :=
  let blocked := fun s1 : Bool => (g.slot s1).isEmpty || (g.slot s1).wait ≠ .ready || decide (s.now.toNat < (g.slot s1).sleep)
  if blocked g.rotTurn && !blocked (!g.rotTurn) then !g.rotTurn else g.rotTurn

def rotationDue (s : State) (g : Group) (s1 : Bool) : Bool :=
  decide (Config.rotateEvery ≤ g.rotCount) && decide (3 ≤ g.paths) && rotationTurn s g = s1

/-- A digest replay holds the other groups of its grid on the die at their next clause boundary (R294). -/
def replayHolds (s : State) (g : Group) (sl : Slot) : Bool :=
  sl.left = 0 && g.replayed = 0#96 &&
    match tget s.grids g.grid with
    | some gr => gr.again.isSome
    | none => false

/-- The slot may go on: its group runs, and it owns lanes and does not sleep. -/
def slotRuns (s : State) (g : Group) (s1 : Bool) : Bool :=
  let sl := g.slot s1
  !replayHolds s g sl && !g.frozen && !g.bindWait && !sl.isEmpty && decide (sl.sleep ≤ s.now.toNat)

/-- The slot as it stands: a path that began at a page that did not translate finds out whether a header or a word is next (R146). -/
def Slot.standing (sl : Slot) (s : State) (g : Group) : Slot := if sl.afterJoin then sl.begin s g else sl

/-- The address that the slot fetches next: its word, or the header of the clause in which it begins. -/
def Slot.fetchPc (sl : Slot) (s : State) (g : Group) : Addr :=
  if sl.afterJoin && (peekWord s g sl.pc).isSome then sl.pc - 16#80 else sl.pc

/-- Is the slot ready to issue its next word or header? -/
def slotReady (s : State) (gid : Nat) (s1 : Bool) : Bool :=
  match s.group? gid with
  | none => false
  | some g =>
    slotRuns s g s1 && decide ((g.slot s1).wait = .ready) && ((dueFault s gid s1).isSome ||
      (let sl := (g.slot s1).standing s g
       match peekWord s g (sl.fetchPc s g) with
       | none => true
       | some x =>
         if sl.left = 0 then
           !rotationDue s g s1 &&
             (match decodeHeader x with
              | .ok (.clauseIssue cls _ wait _) => !groupClass g cls || waitsOver g wait
              | _ => true)
         else match decode sl.cls x with
           | .ok i => wordFree s gid s1 (g.setSlot s1 sl) i
           | .error _ => true))

/-- May a blocked word be tried again? -/
def slotProbes (s : State) (gid : Nat) (s1 : Bool) : Bool :=
  match s.group? gid with
  | none => false
  | some g => slotRuns s g s1 && (g.slot s1).wait.probes

/-- Is the program ready to issue its next word (R230)? -/
def progReady (s : State) (pid : Nat) : Bool :=
  match s.prog? pid with
  | none => false
  | some p =>
    p.running && !p.ended && !p.sent && p.stopped.isNone &&
      !(p.eng = 0 && s.groups.any fun g => g.2.saving && g.2.team = p.team) &&
      !(s.quads.any fun q => match q.2.mx.next with | some w => w.pid = pid | none => false)

/-! ### Choosing a slot (R271) -/

/-- A slot with what the choice looks at. -/
structure Candidate where
  gid : Nat
  s1 : Bool
  waited : Nat
  prio : Nat
  born : Nat
  gslot : Nat
  second : Bool
  back : Bool
  deriving DecidableEq, Repr

def candidates (s : State) (quad : Nat) : List Candidate :=
  (s.groups.filter fun p => quadKey p.2.die p.2.core p.2.quad = quad).flatMap fun p =>
    [false, true].filterMap fun s1 =>
      if slotReady s p.1 s1 then
        let sl := p.2.slot s1
        some { gid := p.1, s1 := s1, waited := s.now.toNat - max sl.readyAt sl.sleep, prio := p.2.prio, born := p.2.born, gslot := p.2.gslot,
               second := s1 ≠ p.2.lastS0, back := sl.back }
      else none

/-- Does one slot come before another, among those that the first two rules leave? -/
def Candidate.before (a b : Candidate) : Bool :=
  if a.prio ≠ b.prio then decide (b.prio < a.prio)
  else if a.back ≠ b.back then b.back
  else if a.born ≠ b.born then decide (a.born < b.born)
  else if a.gslot ≠ b.gslot then decide (a.gslot < b.gslot)
  else !a.second

def bestOf (lt : Candidate → Candidate → Bool) : List Candidate → Option Candidate
  | [] => none
  | c :: r => match bestOf lt r with | none => some c | some d => some (if lt d c then d else c)

/-- The slot that the quadrant chooses: the longest wait of 256 cycles or more (among equal ones, as below), the group that keeps the port, then priority,
age, group slot, and the slot that issued less recently. -/
def chooseSlot (s : State) (quad : Nat) : Option (Nat × Bool) :=
  let cs := candidates s quad
  let q := (tget s.quads quad).getD Quad.reset
  let starved := cs.filter fun c => decide (Config.readyWait ≤ c.waited)
  let pick : Option Candidate :=
    match bestOf (fun a b => decide (b.waited < a.waited) || (decide (a.waited = b.waited) && a.before b)) starved with
    | some c => some c
    | none =>
      let stays := match q.last with
        | some l => q.keep && (match s.group? l.1 with | some g => !(g.slot l.2).yld | none => false)
        | none => false
      let kept := if stays then cs.filter fun c => match q.last with | some l => c.gid = l.1 | none => false else []
      match bestOf Candidate.before kept with
      | some c => some c
      | none => bestOf Candidate.before cs
  pick.map fun c => (c.gid, c.s1)

/-- Does the slot that issued last hold the port inside its clause? One that has stopped there is chosen again first (R11). -/
def portHolder (s : State) (quad : Nat) : Option (Nat × Bool) :=
  let q := (tget s.quads quad).getD Quad.reset
  match q.last with
  | none => none
  | some l =>
    match s.group? l.1 with
    | none => none
    | some g => if q.holds && (g.slot l.2).left ≠ 0 && slotReady s l.1 l.2 then some l else none

/-- ISSUE_CHOICE: where the port is free, the chosen slot takes it. -/
def execIssueChoice (quad : Nat) (s : State) : Out :=
  match portHolder s quad, chooseSlot s quad with
  | none, some c =>
    let q := (tget s.quads quad).getD Quad.reset
    .next { s with quads := tset s.quads quad { q with last := some c, keep := true, holds := true } }
  | _, _ => .next s

/-- READY_WAIT_EXPIRY: a slot that has been ready for 256 cycles overrides the yield bit. -/
def execReadyWaitExpiry (gid : Nat) (s1 : Bool) (s : State) : Out :=
  match s.group? gid with
  | none => .next s
  | some g =>
    if slotReady s gid s1 && decide ((g.slot s1).readyAt + Config.readyWait ≤ s.now.toNat) then
      let q := s.quad g.die g.core g.quad
      .next (s.setQuad g.die g.core g.quad { q with keep := false })
    else .next s

/-- May the agent issue now? A slot that can issue its next word inside its clause keeps the port; else the quadrant chooses (R8, R11,
R271). -/
def agentReady (s : State) : Agent → Bool
  | .none => false
  | .slot gid s1 =>
    match s.group? gid with
    | none => false
    | some g =>
      let q := quadKey g.die g.core g.quad
      decide ((portHolder s q).or (chooseSlot s q) = some (gid, s1))
  | .prog pid => progReady s pid

/-- The ready wait of a slot that is not ready begins now, and it holds its port no more (R11, R271). -/
def noteWaits (s : State) : State :=
  { s with
    quads := s.quads.map fun (q : Nat × Quad) =>
      (q.1, { q.2 with holds := q.2.holds && match q.2.last with | some l => slotReady s l.1 l.2 | none => false })
    groups := s.groups.map fun (p : Nat × Group) =>
      let note := fun (s1 : Bool) (sl : Slot) => if slotReady s p.1 s1 then sl else { sl with readyAt := s.now.toNat }
      (p.1, { p.2 with s0 := note false p.2.s0, s1 := note true p.2.s1 }) }

/-- The slot takes the port for its next word, and its wait begins again. Where the quadrant has chosen, the yields that stood at clause
boundaries are over (R173). -/
def takePort (s : State) (gid : Nat) (s1 : Bool) : State :=
  match s.group? gid with
  | none => s
  | some g =>
    let key := quadKey g.die g.core g.quad
    let q := s.quad g.die g.core g.quad
    let chosen := decide (portHolder s key = none)
    let s := s.setQuad g.die g.core g.quad { q with last := some (gid, s1), keep := true, holds := true }
    let over_ := fun sl : Slot => if sl.left = 0 then { sl with back := false } else sl
    { s with groups := s.groups.map fun (p : Nat × Group) =>
        if chosen && decide (quadKey p.2.die p.2.core p.2.quad = key) then (p.1, { p.2 with s0 := over_ p.2.s0, s1 := over_ p.2.s1 })
        else p }.modGroup gid fun g =>
      { g.modSlot s1 (fun sl => { sl with readyAt := s.now.toNat }) with lastS0 := !s1, blockedAt := none }

/-! ### One issue -/

/-- The next word or header of a slot: a due engine fault, a fetch that parks, an illegal header or word, or the instruction. -/
inductive Fetched where
  | fault
  | park (e : PageFault × Addr)
  | bad (cause : BitVec 8) (lanes : Mask) (x : Word64)
  | instr (i : Instr)

def fetchSlot (s : State) (gid : Nat) (s1 : Bool) (g : Group) : State × Fetched :=
  if (dueFault s gid s1).isSome then (s, .fault)
  else
    let sl := (g.slot s1).standing s g
    let s := s.setGroup gid (g.setSlot s1 sl)
    match fetchGroup s g (sl.fetchPc s g) with
    | (s, .error e) => (s, .park e)
    | (s, .ok x) =>
      if sl.left = 0 then
        match decodeHeader x with
        | .ok i => (s, .instr i)
        | .error _ => (s, .bad cIllegalHeader sl.mask x)
      else
        match decode sl.cls x with
        | .ok i => (s, .instr i)
        | .error _ => (s, .bad cIllegalInstruction (rawLanes g sl x) x)

/-- The word of a program; a header that is not a multiple of 8 faults when it is fetched (R296). -/
def fetchProg (s : State) (p : Prog) : State × Fetched :=
  if p.left = 0 && p.pc.toNat % 8 ≠ 0 then (s, .bad dIllegalHeader 0#96 0#64)
  else
  match fetchAt s p.die p.core p.tenant false p.pc with
  | (s, .error e) => (s, .park e)
  | (s, .ok x) =>
    if p.left = 0 then
      match decodeHeader x with
      | .ok i => (s, .instr i)
      | .error _ => (s, .bad dIllegalHeader 0#96 x)
    else
      match decode p.cls x with
      | .ok i => (s, .instr i)
      | .error _ => (s, .bad dIllegalInstruction 0#96 x)

/-! ### Rotation (R149) -/

/-- The bottom-most path part of the level leaves the stack. -/
def takeBottom (g : Group) : Option (Reconv × List Reconv) :=
  (takePath g.atLevel g.stack.reverse).map fun x => (x.1, x.2.reverse)

/-- PATH_ROTATION: at a clause boundary of the slot whose turn it is, its path is pushed and it takes the bottom-most path. No trap comes of it where
the stack is full (DESIGN CHOICE, log entry 41). -/
def execPathRotation (gid : Nat) (s : State) : Out :=
  match s.group? gid with
  | none => .next s
  | some g =>
    let s1 := rotationTurn s g
    let sl := g.slot s1
    if !rotationDue s g s1 || !slotRuns s g s1 || sl.wait ≠ .ready || sl.left ≠ 0 ||
        (decide (Config.stackOnChip ≤ g.stack.length) && !entryFree s g.die g.core) then .next s
    else withStack s gid fun s g =>
      match takeBottom g with
      | none => .next s
      | some (e, st) =>
        let pushed := pathEntry g sl.pc sl.owned (sl.owned &&& ~~~sl.mask) true
        let g' := { g with stack := pushed :: st, rotCount := g.rotCount - Config.rotateEvery, rotTurn := !s1 }
        .next (s.putPaths gid (g'.setPath s1 { pathSlot s g e.pathPc e.path (e.idle &&& e.path) with rotated := true }))

/-! ### The fault queue, the walker, engine translations -/

/-- The records that wait go to the ring while it has space and its page translates (R53). -/
def drainRecords (s : State) (die : Nat) : List FaultRec → State
  | [] => s
  | r :: rest =>
    match putRecord s die r with
    | none => s
    | some s => drainRecords (s.setDie die { s.die die with mfqWait := rest }) die rest

def execFaultQueueSpace (die : Nat) (s : State) : Out := .next (drainRecords s die (s.die die).mfqWait)

/-- TLB_WALK: a walk for an agent whose address neither TLB holds; a fault caches nothing (R48, R49). -/
def execTlbWalk (who : Agent) (va : Addr) (kind : AccessKind) (s : State) : Out :=
  let go := fun (die core tenant : Nat) (sup : Bool) =>
    match tlbHit (s.core die core).tlb tenant va, tlbHit (s.die die).tlb tenant va with
    | none, none => Host.Outcome.next (walk s die core tenant sup va kind).1
    | _, _ => .next s
  match who with
  | .none => .next s
  | .slot gid _ => match s.group? gid with | some g => go g.die g.core g.tenant g.sup | none => .next s
  | .prog pid => match s.prog? pid with | some p => go p.die p.core p.tenant false | none => .next s

/-- ENGINE_TRANSLATION_STOP: an engine operation, or the fetch of a program, whose translation fails stops (R300). -/
def execEngineTranslationStop (id : Nat) (s : State) : Out :=
  match s.copies.find? fun c => c.id = id with
  | some c =>
    if c.moved || c.stopped.isSome || stillPending s c.after || (c.idxs.isNone && decide (c.kind = .gather ∨ c.kind = .scatter)) then .next s
    else
      match moveKeys s c c.sspace .read (if c.kind.reads && c.data.isNone then c.moves.map Prod.snd else []) with
      | (s', .error (.inr (f, va))) => .next (copyStop s' c f va)
      | (_, .error (.inl _)) => .next s
      | (s', .ok _) =>
        match moveKeys s' c c.dspace .write ((c.writes.take 1).map Prod.fst) with
        | (s', .error (.inr (f, va))) => .next (copyStop s' c f va)
        | _ => .next s
  | none =>
    match s.prog? id with
    | none => .next s
    | some p =>
      if !progReady s id then .next s
      else
        match fetchAt s p.die p.core p.tenant false p.pc with
        | (s', .error (f, va)) => .next (stopProg s' id va f)
        | (_, .ok _) => .next s

end Sys2Proof.Machine
end

