-- ==== Sys2Proof/Machine/Record.lean ====
section
/-! DEFINITION. The layout of a saved team in memory: team header, scratchpads, matrix blocks, group and slot records (R286 to
R288), written and read back. -/

namespace Sys2Proof.Machine

/-! ### Bytes at offsets -/

/-- Bytes placed at an offset of a record. -/
abbrev Field := Nat × List Byte

def putBytes (rec : List Byte) (f : Field) : List Byte := rec.take f.1 ++ f.2 ++ rec.drop (f.1 + f.2.length)

/-- A record of `n` bytes, zero where no field lies. -/
def layRecord (n : Nat) (fs : List Field) : List Byte := fs.foldl putBytes (List.replicate n 0#8)

def num (off x n : Nat) : Field := (off, natBytes x n)
def bits {w : Nat} (off : Nat) (x : BitVec w) (n : Nat) : Field := (off, toBytes x n)

def getNat (r : List Byte) (off n : Nat) : Nat := natOfBytes ((r.drop off).take n)
def getBits (r : List Byte) (off n w : Nat) : BitVec w := BitVec.ofNat w (getNat r off n)

def boolBit (b : Bool) (i : Nat) : Nat := if b then 2 ^ i else 0

/-! ### Slot records (R288) -/

/-- State and argument. -/
def SlotWait.code : SlotWait → Nat × Nat
  | .ready => (0x00, 0)
  | .claim n => (0x01, n)
  | .futWait => (0x02, 0)
  | .ringPush r => (0x03, r.toNat)
  | .ringPop r => (0x04, r.toNat)
  | .bar id => (0x05, id)
  | .step => (0x06, 0)
  | .cpyCont t _ => (0x07, t % 2 ^ 32)
  | .parked _ q => (0x08, q.toNat)
  | .pending => (0x09, 0)
  | .feed => (0x0A, 0)
  | .tbld => (0x0B, 0)
  | .lazy | .acc _ | .spawn | .written _ | .other => (0x0C, 0)
  | .empty => (0xFF, 0)

/-- Where a slot that stands at a header has its clause. -/
def Slot.headerField (sl : Slot) : Addr := if sl.left = 0 then sl.pc else sl.header

def Slot.record (sl : Slot) : List Byte :=
  let w := if sl.isEmpty then SlotWait.empty else sl.wait
  layRecord 64
    [bits 0 sl.pc 10, bits 10 sl.headerField 10, bits 20 sl.owned 12, bits 32 sl.mask 12, bits 44 sl.unfinished 12, num 56 w.code.1 1,
     num 57 sl.age 1, num 60 w.code.2 4]

/-- The wait that a state and its argument name; `was` gives what the record leaves out, and a slot that has been replayed while it was
saved is parked no more. -/
def waitOf (code arg : Nat) (was : SlotWait) : SlotWait :=
  if was.code = (code, arg) then was
  else if code = 0x08 ∧ was.code.1 ≠ 0xFF then was
  else
    match code with
    | 0x01 => .claim arg
    | 0x02 => .futWait
    | 0x03 => .ringPush (BitVec.ofNat 32 arg)
    | 0x04 => .ringPop (BitVec.ofNat 32 arg)
    | 0x05 => .bar arg
    | 0x06 => .step
    | 0x09 => .pending
    | 0x0A => .feed
    | 0x0B => .tbld
    | 0x0C => .other
    | 0xFF => .empty
    | _ => .ready

/-- A slot from its record: a program counter other than the saved one stands at a header. A sleep has ended (R173). -/
def Slot.fromRecord (r : List Byte) (was : Slot) : Slot :=
  let pc : Addr := getBits r 0 10 80
  let hd : Addr := getBits r 10 10 80
  let sl := if pc = was.pc ∧ hd = was.headerField then was else was.jump pc
  { sl with owned := getBits r 20 12 96, mask := getBits r 32 12 96, unfinished := getBits r 44 12 96, age := 0, sleep := 0,
            wait := waitOf (getNat r 56 1) (getNat r 60 4) was.wait }

/-! ### Group records (R287) -/

def Group.claimNeed (g : Group) : Nat :=
  [g.s0, g.s1].foldl (fun n sl => match sl.wait with | .claim k => k + (if g.evicted then g.h else 0) | _ => n) 0

def tableField (t : Fin 4) (x : Option (Addr × Space)) : Field :=
  match x with
  | some (a, sp) => (0xC0 + 16 * t.val, toBytes a 10 ++ [BitVec.ofNat 8 sp.code])
  | none => (0xC0, [])

/-- Captured operands of a slot's parked or pending word, lane by lane: its base, its offset with the displacement, and its data. How the 32
bytes of a lane are divided is the model's choice (DESIGN CHOICE, log entry 46). -/
def capturedFields (base : Nat) (r : Option MemReq) : List Field :=
  match r with
  | none => []
  | some r => (List.finRange 96).map fun l =>
      (base + 32 * l.val, toBytes r.base[l] 10 ++ toBytes (r.ea[l] - r.base[l]) 6 ++ toBytes r.data[l] 8 ++ toBytes r.data2[l] 8)

def latchFields (base : Nat) (v : Lanes (BitVec 512)) : List Field :=
  (List.range 8).flatMap fun j => (List.finRange 96).map fun l => bits (base + 0x300 * j + 8 * l.val) (getField v[l] (64 * j) 64) 8

/-- The fields of a group record. -/
def Group.fields (g : Group) : List Field :=
  let o := g.own
  let units := if g.evicted then 1 else 1 + g.h
  let esc := match g.region with | some r => r.escaped | none => false
  [num 0 1 1,
   num 1 (boolBit g.trapMode 0 + boolBit g.evicted 1 + boolBit g.team.isNone 2 + boolBit g.region.isSome 3 + boolBit esc 4 + boolBit g.det 5) 1,
   num 2 g.h 1, num 3 g.claimNeed 1, num 4 (boolBit g.lastS0 0 + boolBit g.rotTurn 1) 1, bits 5 g.latchW 3, bits 8 g.index 2,
   num 0xA g.role 1, num 0xC g.c[0] 1, num 0xD g.c[1] 1, num 0xE g.c[2] 1, num 0x10 g.stack.length 2, num 0x12 g.rotCount 2,
   bits 0x14 g.fpctl 4, bits 0x18 g.fpflags 4, bits 0x1C g.srstrm 4, bits 0x20 g.lpbase 10, bits 0x30 g.utrap 10,
   (0x40, g.s0.record), (0x80, g.s1.record)] ++
  ((List.finRange 4).map fun t => tableField t g.tsrc[t]) ++
  [bits 0x100 g.treg.cause 4, bits 0x104 g.treg.dst 4, bits 0x108 g.treg.inst 8, bits 0x110 g.treg.pc 10, bits 0x120 g.treg.mask 12] ++
  (match g.frame with
   | some f => [num 0x11A f.height 2, (0x140, f.s0.record), (0x180, f.s1.record)] ++ latchFields 0xA000 f.latches
   | none => []) ++
  [bits 0x200 o.k 640, bits 0x480 o.shadowK 32, bits 0x4A0 g.g 1] ++
  ((List.finRange 7).map fun n => bits (0x4C0 + 12 * n.val) g.preds[n] 12) ++
  ((List.finRange 96).flatMap fun l => [bits (0x540 + 4 * l.val) g.srctr[l] 4, bits (0x6C0 + 2 * l.val) g.cdepth[l] 2]) ++
  latchFields 0x800 g.latches ++ capturedFields 0x2000 g.s0.req ++ capturedFields 0x2C00 g.s1.req ++
  ((List.finRange 96).map fun l => bits (0x3800 + 16 * l.val) o.shadowSl[l] 16) ++
  (List.range units).flatMap fun u => (List.finRange 96).map fun l => bits (0x4000 + 0x1800 * u + 64 * l.val) (o.sliceRead l (128 * u) 512) 64

/-- Bytes of a group record. -/
def groupSize : Nat := 0xB800

def Group.record (g : Group) : List Byte := layRecord groupSize g.fields

/-- Captured operands read back. -/
def capturedFrom (r : List Byte) (base : Nat) (q : MemReq) : MemReq :=
  { q with base := Vector.ofFn fun l : Lane => getBits r (base + 32 * l.val) 10 80,
           ea := Vector.ofFn fun l : Lane =>
             getBits r (base + 32 * l.val) 10 80 + (getBits r (base + 32 * l.val + 10) 6 48).signExtend 80,
           data := Vector.ofFn fun l : Lane => getBits r (base + 32 * l.val + 16) 8 64,
           data2 := Vector.ofFn fun l : Lane => getBits r (base + 32 * l.val + 24) 8 64 }

def latchesFrom (r : List Byte) (base : Nat) : Lanes (BitVec 512) :=
  Vector.ofFn fun l : Lane => (List.range 8).foldl (fun v j => setField v (64 * j) (getBits r (base + 0x300 * j + 8 * l.val) 8 64)) 0#512

def slicesFrom (r : List Byte) (units : Nat) (l : Lane) (was : SliceFile) : SliceFile :=
  (List.range units).foldl (fun v u => setField v (512 * u) (getBits r (0x4000 + 0x1800 * u + 64 * l.val) 64 512)) was

/-- The source of a table from a record; a space of code 0 is no source (R209). -/
def tableFrom (r : List Byte) (t : Fin 4) : Option (Addr × Space) :=
  let o := 0xC0 + 16 * t.val
  let c := getNat r (o + 10) 1
  if c = 0 then none else some (getBits r o 10 80, Space.ofCode (BitVec.ofNat 3 c))

/-- A group from its record: what the layout holds comes from memory, the rest from the device's own state (log entry 46). -/
def Group.fromRecord (r : List Byte) (was : Group) : Group :=
  let n := fun off k => getNat r off k
  let trap := decide (n 1 1 % 2 = 1)
  let ev := decide (n 1 1 / 2 % 2 = 1)
  let units := if ev then 1 else 1 + n 2 1
  let slot := fun (base cap : Nat) (sl : Slot) =>
    let x := Slot.fromRecord ((r.drop base).take 64) sl
    { x with req := x.req.map (capturedFrom r cap) }
  let o := was.own
  let frame := (if trap then was.frame else none).map fun f =>
    { f with height := n 0x11A 2, s0 := Slot.fromRecord ((r.drop 0x140).take 64) f.s0,
             s1 := Slot.fromRecord ((r.drop 0x180).take 64) f.s1, latches := latchesFrom r 0xA000 }
  let treg : TrapRegs := { cause := getBits r 0x100 4 32, dst := getBits r 0x104 4 32, inst := getBits r 0x108 8 64,
                           pc := getBits r 0x110 10 80, mask := getBits r 0x120 12 96 }
  let o := { o with
    evicted := ev, h := n 2 1, lastS0 := decide (n 4 1 % 2 = 1), rotTurn := decide (n 4 1 / 2 % 2 = 1), latchW := getBits r 5 3 24,
    role := n 0xA 1, c := #v[n 0xC 1, n 0xD 1, n 0xE 1], rotCount := n 0x12 2, fpctl := getBits r 0x14 4 32,
    fpflags := getBits r 0x18 4 32, srstrm := getBits r 0x1C 4 24, lpbase := getBits r 0x20 10 80, utrap := getBits r 0x30 10 80,
    s0 := slot 0x40 0x2000 o.s0, s1 := slot 0x80 0x2C00 o.s1, frame := frame,
    treg := treg, det := decide (n 1 1 / 32 % 2 = 1),
    region := if n 1 1 / 8 % 2 = 1 then was.region.map fun (x : Region) => { x with escaped := decide (n 1 1 / 16 % 2 = 1) } else none,
    stack := o.stack.drop (o.stack.length - n 0x10 2), tsrc := Vector.ofFn (tableFrom r),
    k := getBits r 0x200 640 5120, shadowK := getBits r 0x480 32 256,
    g := getBits r 0x4A0 1 7, preds := Vector.ofFn fun i : Fin 7 => getBits r (0x4C0 + 12 * i.val) 12 96,
    srctr := Vector.ofFn fun l : Lane => getBits r (0x540 + 4 * l.val) 4 32,
    cdepth := Vector.ofFn fun l : Lane => getBits r (0x6C0 + 2 * l.val) 2 13, latches := latchesFrom r 0x800,
    shadowSl := Vector.ofFn fun l : Lane => getBits r (0x3800 + 16 * l.val) 16 128,
    slices := Vector.ofFn fun l : Lane => slicesFrom r units l o.slices[l] }
  if trap && o.frame.isSome then { o with trapMode := true }.swapBanks else { o with trapMode := false }

/-! ### Matrix blocks (R286) -/

def matrixSize : Nat := 0x3A400

def stagingFields (s : Nat) (x : Staging) : List Field :=
  [bits (32 * s) x.dataFill 8, bits (32 * s + 8) x.scaleFill 8, bits (32 * s + 16) x.band 2,
   num (32 * s + 18) (boolBit x.bandFed 0) 1, num (32 * s + 19) (boolBit x.word.isSome 0) 1,
   bits (32 * s + 20) (x.word.getD 0#32) 4] ++
  (List.range 64).flatMap fun r =>
    [bits (0x400 + 0x2800 * s + 128 * r) ((tget x.rows r).getD 0#1024) 128,
     bits (0x400 + 0x2800 * s + 0x2000 + 32 * r) ((tget x.scales r).getD 0#256) 32]

def tileFields (t : Nat) (x : AccTile) : List Field :=
  [num (0x80 + 4 * t) x.watermark 2, bits (0x80 + 4 * t + 2) x.issued 2] ++
  (List.range 64).map fun r => bits (0xA400 + 0x6000 * t + 384 * r) ((tget x.rows r).getD 0#3072) 384

def progFields (ps : List Prog) : List Field :=
  match ps.find? fun p => p.running with
  | none => [num 0x1D0 (ps.filter fun p => !p.running).length 4]
  | some p =>
    bits 0xC0 p.pc 10 :: num 0x1D0 (ps.filter fun p => !p.running).length 4 ::
      (List.finRange 16).map fun n => bits (0xD0 + 16 * n.val) p.s[n] 10

/-- The fork entries of the queue: entry, handle and registers' low words, in a form of the device's own. -/
def queueFields (ps : List Prog) : List Field :=
  ((ps.filter fun p => !p.running).zipIdx).map fun x => (0x200 + 64 * x.2, toBytes x.1.pc 10 ++ [0#8, 0#8] ++ toBytes x.1.handle 4)

def MxUnit.record (u : MxUnit) (ps : List Prog) : List Byte :=
  layRecord matrixSize
    (((List.finRange 4).flatMap fun i => stagingFields i.val u.staging[i]) ++
     ((List.finRange 8).flatMap fun i => tileFields i.val u.acc[i]) ++ progFields ps ++ queueFields ps)

/-- Rows that are not zero. -/
def rowsFrom {w : Nat} (f : Nat → BitVec w) : Tab (BitVec w) :=
  (List.range 64).filterMap fun r => if f r = 0 then none else some (r, f r)

def stagingFrom (r : List Byte) (s : Nat) : Staging :=
  { rows := rowsFrom fun i => getBits r (0x400 + 0x2800 * s + 128 * i) 128 1024,
    scales := rowsFrom fun i => getBits r (0x400 + 0x2800 * s + 0x2000 + 32 * i) 32 256,
    band := getBits r (32 * s + 16) 2 16, dataFill := getBits r (32 * s) 8 64, scaleFill := getBits r (32 * s + 8) 8 64,
    bandFed := decide (getNat r (32 * s + 18) 1 % 2 = 1),
    word := if getNat r (32 * s + 19) 1 % 2 = 1 then some (getBits r (32 * s + 20) 4 32) else none }

def tileFrom (r : List Byte) (t : Nat) : AccTile :=
  { rows := rowsFrom fun i => getBits r (0xA400 + 0x6000 * t + 384 * i) 384 3072, watermark := getNat r (0x80 + 4 * t) 2,
    issued := getBits r (0x80 + 4 * t + 2) 2 16 }

/-- A unit from its block; the operand latch is dropped (R225). -/
def MxUnit.fromRecord (r : List Byte) (was : MxUnit) : MxUnit :=
  { was with staging := Vector.ofFn fun i : Fin 4 => stagingFrom r i.val, acc := Vector.ofFn fun i : Fin 8 => tileFrom r i.val,
             latch := none, op := none }

/-- The running program's counter and registers from the block. -/
def progFromRecord (r : List Byte) (p : Prog) : Prog :=
  if p.running then
    let pc : Addr := getBits r 0xC0 10 80
    { p with pc := pc, left := if pc = p.pc then p.left else 0,
             s := Vector.ofFn fun n : Fin 16 => getBits r (0xD0 + 16 * n.val) 10 80 }
  else p

/-! ### The team header (R286) -/

def barFields (t : Team) : List Field :=
  (List.finRange 16).map fun b =>
    let x := t.bars[b]
    (0x20 + 8 * b.val, natBytes (boolBit x.phase 0) 1 ++ [0#8] ++ natBytes x.arrivals 2 ++ natBytes x.expected 2 ++
      natBytes (boolBit x.all 0) 1)

/-- Fields of the header; a gathered group is a team of one group, number 0xFFFF_FFFF (R285). -/
def headerFields (team : Option Team) (groups : Nat) (num32 grid : Word32) (ctx det : Bool) (mask : Nat) (tenant : Nat) : List Field :=
  [num 0 1 1, num 2 groups 2, bits 4 num32 4, bits 8 grid 4, num 0xC (match team with | some t => t.roles | none => 1) 1,
   num 0xD (boolBit ctx 0 + boolBit det 1) 1, num 0x10 (match team with | some t => t.scSize | none => 0) 4, num 0x14 mask 4,
   num 0x18 tenant 1] ++
  (match team with | some t => barFields t | none => [])

def barsFrom (r : List Byte) (t : Team) : Team :=
  { t with bars := Vector.ofFn fun b : Fin 16 =>
      let o := 0x20 + 8 * b.val
      { phase := decide (getNat r o 1 % 2 = 1), arrivals := getNat r (o + 2) 2, expected := getNat r (o + 4) 2,
        all := decide (getNat r (o + 6) 1 % 2 = 1) } }

end Sys2Proof.Machine
end

