-- ==== Sys2Proof/Machine/Tables.lean ====
section
/-! DEFINITION. Function tables: loading, binding and evaluating them (R206 to R209). -/

namespace Sys2Proof.Machine

/-- Bytes of a table image (R206). -/
def tableBytes : Nat := 8208

def bankOf (b : Bool) : Fin 2 := if b then 1 else 0

/-- Word n of a table's image: zero where it was never loaded (R207). -/
def Table.word (t : Table) (n : Nat) : Word32 := t.words.getD n 0#32

/-! ### Loading (R208) -/

/-- Does the image of some table of the mask meet a range lock? -/
def imageLocked (s : State) (g : Group) (mask : BitVec 4) (sp : Space) (addr : Addr) : Bool :=
  (List.range 4).any fun t =>
    mask.getLsbD t && lockHit s g.die g.core g.tenant false sp (addr + BitVec.ofNat 80 (tableBytes * t)) tableBytes

/-- tbld: the group's binding moves to the current bank, and the slot waits for the load. -/
def execTbld (h : Head) (k : Triple) (mask : BitVec 4) (sp : BitVec 3) (s : State) : Out :=
  let i := Instr.tbld h k mask sp
  gate i s fun s gid s1 g sl sh =>
    let m := execLanes g sl h
    let addr := readTriple g sl k
    let q := s.quad g.die g.core g.quad
    if m = 0#96 then .next (s.setGroup gid (g.done s1 sh))
    else if addr.toNat % 16 ≠ 0 then .next (trapWord s gid s1 i sh cAlignment 0#8 m true)
    else if imageLocked s g mask (Space.ofCode sp) addr then .next (trapWord s gid s1 i sh cRangeLock 0#8 m true)
    else
      let w : TblWait := { gid := gid, s1 := s1, mask := mask, space := Space.ofCode sp, addr := addr, ctr := h.ctr,
                           agents := sl.uniMask, trap := g.trapMode, srcs := none }
      let g := { g with bank := q.bank, bankGen := q.gen }
      let g := (g.ctrUp h.ctr).modSlot s1 fun x => { x with wait := .tbld, wctr := h.ctr }
      .next ((s.setGroup gid g).setQuad g.die g.core g.quad { q with loads := q.loads ++ [w] })

/-- tbind: the group's binding moves to the current bank. -/
def execTbind (h : Head) (s : State) : Out :=
  gate (.tbind h) s fun s gid s1 g sl sh =>
    let q := s.quad g.die g.core g.quad
    let g := if execLanes g sl h = 0#96 then g else { g with bank := q.bank, bankGen := q.gen }
    .next (s.setGroup gid (g.done s1 sh))

/-- The words of an image, as the group reads them; none where a byte does not translate. -/
def readImage (s : State) (gid : Nat) (g : Group) (agents : Mask) (sp : Space) (addr : Addr) : State × Except (PageFault × Addr) (List Word32) :=
  match laneKeys s g sp .read 0 addr tableBytes with
  | (s, .error e) => (s, .error e)
  | (s, .ok ks) =>
    let bs := ks.map (groupByte s gid agents g.die g.core sp 0#2)
    (s, .ok ((List.range (tableBytes / 4)).map fun i => ofBytes ((bs.drop (4 * i)).take 4) 32))

/-- Where table t of a load comes from: an image, an empty table, or the current bank. -/
inductive TblSource where
  | image (a : Addr) (sp : Space)
  | empty
  | kept
  deriving DecidableEq, Repr

def TblWait.source (w : TblWait) (t : Fin 4) : TblSource :=
  match w.srcs with
  | some v => match v[t] with | some (a, sp) => .image a sp | none => .empty
  | none => if w.mask.getLsbD t.val then .image (w.addr + BitVec.ofNat 80 (tableBytes * t.val)) w.space else .kept

/-- The tables of a load. -/
def loadTables (s : State) (g : Group) (w : TblWait) (cur : Vector Table 4) :
    List (Fin 4) → State × Except (PageFault × Addr) (Vector Table 4)
  | [] => (s, .ok cur)
  | t :: r =>
    match w.source t with
    | .kept => loadTables s g w cur r
    | .empty => loadTables s g w (cur.set t.val { words := [], src := none }) r
    | .image a sp =>
      match readImage s w.gid g w.agents sp a with
      | (s, .error e) => (s, .error e)
      | (s, .ok ws) => loadTables s g w (cur.set t.val { words := ws, src := some (a, sp) }) r

/-- Where the first load of a quadrant stands: its slot waits for it, or is parked at it, or has gone elsewhere. -/
inductive LoadPlace where
  | waits | stopped | gone
  deriving DecidableEq, Repr

def TblWait.place (w : TblWait) (g : Group) : LoadPlace :=
  if w.srcs.isSome then (if g.parkedAll.isSome then .stopped else .waits)
  else match (g.slotIn w.s1 w.trap).wait with | .tbld => .waits | .parked _ _ => .stopped | _ => .gone

/-- The oldest tbld of the quadrant loads the other bank once no group is bound to it, its own group among them (log entry 40); the bank becomes current. A
restored group that awaits its reload is bound to neither (R209). A load that a page fault stops keeps its place. -/
def execTableBankLoad (quad : Nat) (s : State) : Out :=
  let q := (tget s.quads quad).getD Quad.reset
  match q.loads with
  | [] => .next s
  | w :: rest =>
    match s.group? w.gid with
    | none => .next { s with quads := tset s.quads quad { q with loads := rest } }
    | some g =>
      if w.place g = .gone then .next { s with quads := tset s.quads quad { q with loads := rest } }
      else if w.place g = .stopped ||
          (s.groups.any fun p => quadKey p.2.die p.2.core p.2.quad = quad && !p.2.sup && !p.2.bindWait && p.2.bank = !q.bank) then .next s
      else
        match loadTables s g w q.tables[bankOf q.bank] (List.finRange 4) with
        | (s, .error (c, va)) =>
          if w.srcs.isSome then .next (parkGroup s w.gid w.s1 va c 0#8 0#96)
          else .next (parkSlotIn s w.gid w.s1 w.trap va c 0#8 w.agents)
        | (s, .ok ts) =>
          let q' := { q with tables := q.tables.set (bankOf (!q.bank)) ts, bank := !q.bank, gen := q.gen + 1, loads := rest }
          let s := { s with quads := tset s.quads quad q' }
          .next (if w.srcs.isSome then
              s.modGroup w.gid fun g => { g with bank := !q.bank, bankGen := q.gen + 1, bindWait := false }
            else s.modGroup w.gid fun g => (g.modSlotIn w.s1 w.trap fun sl => sl.advance false).ctrDown w.ctr)

/-! ### Evaluation (R207) -/

/-- A finite value of an FP32 word. -/
def fin32 (x : Word32) : Option FVal :=
  match decodeF .f32 x.toNat with
  | .fin n q => some (.fin n q)
  | _ => none

/-- A word of the table as a result. -/
def tableValue (x : Word32) : Exact × FFlags :=
  match decodeF .f32 x.toNat with
  | .nan _ => (.nan, fNone)
  | .inf n => (.inf n, fNone)
  | .fin n q => (.real n q false, fNone)

/-- The value that a table gives for an input. -/
def tableEval (t : Table) (m : RMode) (x : FVal) : Exact × FFlags :=
  match x, fin32 (t.word 0), fin32 (t.word 1) with
  | .nan sig, _, _ => (.nan, if sig then fNv else fNone)
  | x, some lo, some k =>
    if k.real ≤ 0 then (.nan, fNv)
    else
      match x with
      | .inf n => tableValue (t.word (if n then 2 else 3))
      | _ =>
        let v := (x.real - lo.real) * k.real
        if v < 0 then tableValue (t.word 2)
        else if 1024 ≤ v then tableValue (t.word 3)
        else
          let i := v.floor.toNat
          match fin32 (t.word (4 + 2 * i)), fin32 (t.word (5 + 2 * i)) with
          | some c0, some c1 => fFma m c1 (.fin false (v - (i : Nat))) c0
          | _, _ => (.nan, fNv)
  | _, _, _ => (.nan, fNv)

def execTeval (h : Head) (d : Dst) (a : Src) (t : BitVec 2) (rm : BitVec 3) (s : State) : Out :=
  runF (w := fBits h.w) (.teval h d a t rm) s rm 1 fun s g sl l =>
    let f := Format.ofW h.w
    let tb := (s.quad g.die g.core g.quad).tables[bankOf g.bank][(Fin.ofNat 4 t.toNat)]
    roundIn g f (fpMode g rm) l 0 (tableEval tb (fpMode g rm) (readF s g sl l a f))

end Sys2Proof.Machine
end

