-- ==== Sys2Proof/Machine/Save.lean ====
section
/-! DEFINITION. Placing groups and teams, and saving and restoring them (R56, R138, R139, R209, R225, R267, R268, R283 to R285,
R319, R340). -/

namespace Sys2Proof.Machine

/-! ### Where a group may go (R268, R319) -/

/-- Energy weights of the classes (R263). -/
def classWeight (c : Nat) : Nat := [1, 2, 3, 4, 6, 8, 12, 16].getD c 16

/-- Weight of the groups that a core holds. -/
def coreWeight (s : State) (die core : Nat) : Nat :=
  ((s.groups.filter fun p => p.2.die = die && p.2.core = core && !p.2.sup).map fun p => p.2.weight).foldl (· + ·) 0

def energyAdmits (s : State) (die core w : Nat) : Bool := decide (coreWeight s die core + w ≤ (s.core die core).ecbud.toNat)

/-- May a grid's groups go to a quadrant: a hard quadrant of its tenant, or, for a shared grid, a shared one? A quadrant whose
owner is about to change takes nothing. -/
def quadAllows (s : State) (die core quad tenant : Nat) (hard : Bool) : Bool :=
  let d := s.die die
  let o := (tget d.quadOwner (4 * core + quad)).getD 0xFF#8
  let mine := o.getLsbD 7 && !o.getLsbD 6 && decide ((o.extractLsb' 0 6).toNat = tenant) && decide (o ≠ 0xFF#8)
  (tget d.quadNext (4 * core + quad)).isNone && (mine || (!hard && o = 0xFF#8))

/-- Group slots of a quadrant that are free. -/
def freeSlots (s : State) (die core quad : Nat) : List Nat :=
  (List.range Config.groupSlots).filter fun n => !((s.onQuad die core quad).any fun p => p.2.gslot = n)

/-- The logical core that a physical one serves for a grid: its own number in free mode, the lowest that the grid's Spinel
table names in deterministic mode (R273, R293). -/
def lcoreOf (gr : Grid) (die core : Nat) : Option Nat :=
  if gr.record.det then
    (List.range 1536).find? fun l =>
      let x := gr.spinel.getD l 0#32
      x.getLsbD 31 && decide ((x.extractLsb' 11 5).toNat = die ∧ (x.extractLsb' 5 6).toNat = core)
  else some (die * 64 + core)

/-! ### Scratchpad ranges (R56, R57, R319) -/

/-- Bytes of a core's scratchpad that the scheduler may use now. -/
def scratchLimit (c : CoreSt) : Nat := (match c.carveTo with | some t => min t c.carve | none => c.carve) * 2 ^ 17

/-- May a range lie in the banks that it touches? -/
def banksAllow (s : State) (die core tenant base size : Nat) : Bool :=
  (List.range 8).all fun b =>
    !meets base size (b * 2 ^ 17) (2 ^ 17) ||
      (let o := (tget (s.die die).bankOwner (8 * core + b)).getD 0xFF#8
       (tget (s.die die).bankNext (8 * core + b)).isNone && (o = 0xFF#8 || decide (o.toNat = tenant)))

/-- Ranges of a core's scratchpad that teams hold. -/
def scratchTaken (s : State) (die core : Nat) : List (Nat × Nat) :=
  (s.teams.filter fun t => t.2.die = die && t.2.clu = core / 8).map fun t => (t.2.scBase.getD (core % 8) 0, t.2.scSize)

/-- The lowest place, in steps of 4 KiB, where a team's range fits on a core (log entry 48). -/
def scratchPlace (s : State) (die core tenant size : Nat) : Option Nat :=
  if size = 0 then some 0
  else
    let taken := scratchTaken s die core
    ((List.range 256).map fun i => i * 4096).find? fun b =>
      decide (b + size ≤ scratchLimit (s.core die core)) && banksAllow s die core tenant b size &&
        taken.all fun t => !meets b size t.1 t.2

/-! ### What a team needs -/

/-- A group to place: its number in the team, and its units. -/
structure Demand where
  idx : Nat
  units : Nat
  deriving DecidableEq, Repr

/-- The quadrant of a cluster that takes group g: core 8 × cluster + g mod 8, quadrant ⌊g / 8⌋ mod 4 (R138). -/
def groupPlace (clu g : Nat) : Nat × Nat := (8 * clu + g % 8, g / 8 % 4)

/-- Does a cluster have room for a team (R267)? The scratchpad bases where it does. -/
def clusterFits (s : State) (gr : Grid) (clu : Nat) (ds : List Demand) : Option (List Nat) :=
  let at_ := fun (c q : Nat) => ds.filter fun d => groupPlace clu d.idx = (c, q)
  let cores := upFrom (8 * clu) 8
  let quadOk := fun c q =>
    let here := at_ c q
    here.isEmpty ||
      (quadAllows s gr.die c q gr.tenant gr.record.hard && decide (here.length ≤ (freeSlots s gr.die c q).length) &&
        decide ((here.map Demand.units).foldl (· + ·) 0 ≤ untaggedUnits s gr.die c q))
  let coreOk := fun c =>
    let n := (ds.filter fun d => (groupPlace clu d.idx).1 = c).length
    n = 0 || (energyAdmits s gr.die c (n * classWeight gr.record.cls) && (lcoreOf gr gr.die c).isSome)
  if cores.all fun c => coreOk c && (List.range 4).all fun q => quadOk c q then
    let bases := cores.filterMap fun c => scratchPlace s gr.die c gr.tenant gr.record.scratch
    if bases.length = 8 then some bases else none
  else none

/-- The lowest-numbered cluster with room. -/
def findCluster (s : State) (gr : Grid) (ds : List Demand) : Option (Nat × List Nat) :=
  (List.range 8).findSome? fun c => (clusterFits s gr c ds).map fun b => (c, b)

/-! ### New groups (R139) -/

/-- A grid that holds no more than the records of a group need. -/
def noGrid : Grid :=
  { num := 0#32, die := 0, tenant := 0,
    record := { entry := 0#80, roles := 1, cls := 0, prio := 0, det := false, hard := false, groups := 1, teams := 1,
                budgets := [], taskBudget := 0, scratch := 0, dscratch := 0, args := [], tokens := [] },
    eligible := true, tokenStops := [], waitSince := 0, ds := none, placed := 0, ended := 0, gids := [], tasks := 0,
    floor := none, low := 0, retired := [], liveTasks := [], spinel := [], digests := [], late := [], again := none, signalled := 0 }

/-- A group at its start: S0 at the entry with the lanes of `owned`, every register at its starting value. -/
def Group.start (tenant : Tenant) (now : Nat) (lpbase : Addr) (gr : Grid) (entry : Addr) (owned : Mask) : Group :=
  { die := gr.die, core := 0, quad := 0, gslot := 0, tenant := gr.tenant, sup := false, grid := gr.num.toNat, team := none,
    teamNo := 0xFFFFFFFF#32, index := 0xFFFFFFFF#32, role := 0, lcore := 0, born := now, prio := gr.record.prio,
    weight := classWeight gr.record.cls, halted := false, saving := false, stalled := false, watch := none, bindWait := false,
    lidx := constLanes 0#128, retiredIdx := 0#96, h := 0, evicted := false, slices := constLanes 0#2048, k := 0#5120,
    preds := Vector.replicate 7 0#96, g := 0#7, latches := constLanes 0#512, latchW := 0#24, shadowSl := constLanes 0#128,
    shadowK := 0#256, trapMode := false, frame := none,
    treg := { cause := 0#32, dst := 0#32, inst := 0#64, pc := 0#80, mask := 0#96 }, utrap := 0#80,
    s0 := { Slot.reset with pc := entry, owned := owned, mask := owned, wait := .ready, readyAt := now }, s1 := Slot.reset,
    lastS0 := false, rotCount := 0, rotTurn := false, stack := [], c := Vector.replicate 3 0, fpctl := 1#32, fpflags := 0#32,
    srstrm := 0#24, srctr := Vector.ofFn fun l : Lane => BitVec.ofNat 32 (2 ^ 25 * l.val), cdepth := constLanes 0#13,
    spawns := constLanes 0#32, lpbase := lpbase, late := [], efa := 0#80, efh := 0#32, callhi := 0#32, callh := 0#64, callg := 0#64,
    bank := false, bankGen := 0, tsrc := Vector.replicate 4 none, agkey := tenant.agkey, det := gr.record.det, region := none,
    digest := constLanes 0#128, effects := constLanes [], tasks := [], replayed := 0#96, parkedAll := none, owed := [], blockedAt := none }

/-- sr.lpbase of a new group: aligned to 128, otherwise open (log entry 3). -/
def State.freeLpbase (s : State) : Addr × State :=
  let (a, s) := s.free
  let (b, s) := s.free
  (((b ++ a).setWidth 80) &&& ~~~0x7F#80, s)

/-- A group goes into a quadrant: the lowest free group slot, the current bank of tables, and an L1 without shared lines (R265:
the launch happens before every access of the group). -/
def installGroup (s : State) (gid : Nat) (g : Group) (die core quad : Nat) : State :=
  let q := s.quad die core quad
  let g := { g with die := die, core := core, quad := quad, gslot := (freeSlots s die core quad).headD 0, bank := q.bank, bankGen := q.gen }
  l1Invalidate (s.setGroup gid g) die core

/-- A value for the digests of a group's lanes (R294). -/
def Group.startDigests (g : Group) : Group := { g with digest := Vector.map digestStart g.lidx }

/-! ### Placing a new team (R138, R139, R267) -/

/-- Group `idx` of team `t`. -/
def teamGroup (s : State) (gr : Grid) (tid t idx : Nat) : State × Group :=
  let (lp, s) := s.freeLpbase
  let role := idx % gr.record.roles
  let g := Group.start (s.tenant gr.tenant) s.now.toNat lp gr gr.record.entry (BitVec.allOnes 96)
  let no := t * gr.record.groups + idx
  let g := { g with
    team := some tid, teamNo := BitVec.ofNat 32 t, index := BitVec.ofNat 32 idx, role := role, h := gr.record.budgets.getD role 1 - 1,
    srstrm := BitVec.ofNat 24 (384 * t + idx), k := gr.record.args.zipIdx.foldl (fun (k : UniformFile) (x : Word32 × Nat) => setField k (32 * x.2) x.1) 0#5120,
    lidx := Vector.ofFn fun l : Lane => BitVec.ofNat 128 ((no * 96 + l.val) * 2 ^ 96) }
  (s, g.startDigests)

/-- Scratchpad bytes from a key read zero. -/
def zeroRange (m : Memory) (lo n : Nat) : Memory := m.filter fun c => !decide (lo ≤ c.1 ∧ c.1 < lo + n)

/-- A range of a die's scratchpad reads zero (R62). -/
def zeroDs (m : Memory) (die lo n : Nat) : Memory :=
  m.filter fun c => !(decide (2 ^ 57 + die * 2 ^ 25 ≤ c.1 ∧ c.1 < 2 ^ 57 + (die + 1) * 2 ^ 25) &&
    decide (lo ≤ dsOffset c.1 ∧ dsOffset c.1 < lo + n))

def zeroScratch (s : State) (t : Team) : State := { s with mem := (scratchRanges t).foldl (fun m r => zeroRange m r.1 r.2) s.mem }

def placeGroups (s : State) (gr : Grid) (tid t clu : Nat) : List Nat → State × List Nat
  | [] => (s, [])
  | i :: r =>
    let (gid, s) := s.nextId
    let (s, g) := teamGroup s gr tid t i
    let p := groupPlace clu i
    let g := { g with lcore := (lcoreOf gr gr.die p.1).getD 0 }
    let (s, gids) := placeGroups (installGroup s gid g gr.die p.1 p.2) gr tid t clu r
    (s, gid :: gids)

/-- The demands of a new team. -/
def newDemands (gr : Grid) : List Demand :=
  (List.range gr.record.groups).map fun i => { idx := i, units := gr.record.budgets.getD (i % gr.record.roles) 1 }

/-- A new team of a grid is placed where it fits. -/
def placeTeam (s : State) (grid : Nat) (gr : Grid) : Option State :=
  match findCluster s gr (newDemands gr) with
  | none => none
  | some (clu, bases) =>
    let (tid, s) := s.nextId
    let t : Team :=
      { grid := grid, num := gr.placed, die := gr.die, clu := clu, groups := [], roles := gr.record.roles, scBase := bases,
        scSize := gr.record.scratch, bars := Vector.replicate 16 { phase := false, arrivals := 0, expected := 0, all := false },
        ctx := none, placedAt := s.now.toNat }
    let s := zeroScratch { s with teams := tset s.teams tid t } t
    let (s, gids) := placeGroups s gr tid gr.placed clu (List.range gr.record.groups)
    let s := { s with teams := tset s.teams tid { t with groups := gids } }
    some (s.modGrid grid fun g => { g with placed := g.placed + 1, gids := g.gids ++ gids })

/-! ### Saving (R283 to R285) -/

/-- The groups of a team, or a gathered group by itself. -/
def savedGids (s : State) (key : Nat) : List Nat :=
  match tget s.teams key with
  | some t => t.groups
  | none => match s.group? key with | some g => if g.team.isNone then [key] else [] | none => []

/-- What every group belongs to when it is saved: its team, or itself. -/
def Group.saveKey (g : Group) (gid : Nat) : Nat := g.team.getD gid

/-- The groups of a team stop at their next word. -/
def beginSave (s : State) (key : Nat) : State :=
  (savedGids s key).foldl (fun s gid => s.modGroup gid fun g => { g with saving := true }) s

/-- Matrix units of the team's quadrants that it holds, with 4c + q and the quadrant's key. -/
def heldUnits (s : State) (key : Nat) : List (Nat × Nat × MxUnit) :=
  match tget s.teams key with
  | none => []
  | some t =>
    (List.range 32).filterMap fun i =>
      let k := quadKey t.die (8 * t.clu + i / 4) (i % 4)
      match tget s.quads k with
      | some q => if q.mx.holder = some key then some (i, k, q.mx) else none
      | none => none

/-- Programs of a team's matrix sequencers that have not ended. -/
def sequencerProgs (s : State) (key : Nat) : List (Nat × Prog) :=
  s.progs.filter fun p => p.2.eng = 0 && p.2.team = some key && !p.2.ended

/-- Everything that a save waits for is over: issued instructions, accesses at .mod scope, matrix operations, and the combination
of a context. -/
def saveSettled (s : State) (key : Nat) : Bool :=
  let gids := savedGids s key
  let mine := fun gid => gids.contains gid
  !gids.isEmpty && !(s.accs.any fun a => mine a.gid) && !(s.stores.any fun r => mine r.gid) && !(s.held.any fun h => mine h.w.gid) &&
    !(s.flits.any fun f => mine f.gid) && !(s.fences.any fun f => mine f.gid) && !(s.lazies.any fun o => mine o.gid) &&
    !(s.copies.any fun c => mine c.gid && c.stopped.isNone) &&
    !(s.progs.any fun p => mine p.2.gid && p.2.eng ≠ 0 && !p.2.ended && p.2.stopped.isNone) &&
    ((heldUnits s key).all fun u => u.2.2.op.isNone) &&
    (match (tget s.teams key).bind Team.ctx with
     | some c => match tget s.ctxs c with
       | some x => x.stopped.isSome || (match x.phase with | .comb _ => false | _ => true)
       | none => true
     | none => true)

/-- Bytes of a team record (R286). -/
def recordSize (p units groups : Nat) : Nat := 0x2000 + 8 * p + units * matrixSize + groups * groupSize

/-- The lowest free slot of a tenant's pool that is large enough (R284). -/
def findSlot (s : State) (die tenant need : Nat) : State × Option Addr :=
  let t := s.tenant tenant
  let size := t.csasize.toNat * 65536
  let rec go (s : State) (j : Nat) : Nat → State × Option Addr
    | 0 => (s, none)
    | n + 1 =>
      let a := t.csabase + BitVec.ofNat 80 (j * size)
      match devRead s die tenant a 8 with
      | (s, some bs) => if natOfBytes bs = 0 then (s, some a) else go s (j + 1) n
      | (s, none) => go s (j + 1) n
  if need ≤ size then go s 0 t.csacount.toNat else (s, none)

/-- A group as it is saved: at its word, or rewound to its open region (R285, R291). -/
def Group.toSave (g : Group) (now : Nat) : Group :=
  match g.region with
  | some r => if g.trapMode || r.escaped then g else g.rewind r now
  | none => g

/-- The sources of the group's bound tables; of a restored group that awaits its reload, those that it waits for (R209). -/
def withSources (s : State) (g : Group) : Group :=
  if g.bindWait then g
  else { g with tsrc := Vector.map Table.src (s.quad g.die g.core g.quad).tables[bankOf g.bank] }

/-- The bytes of the scratchpads of a team's cores. -/
def scratchBytes (s : State) (t : Team) : List Byte := (scratchRanges t).flatMap fun r => (upFrom r.1 r.2).map (memGet s.mem)

/-- The record of a team, as it is written. -/
def teamRecord (s : State) (team : Option Team) (gs : List (Nat × Group)) (gr : Grid) (units : List (Nat × MxUnit)) (ps : List (Nat × Nat × Prog))
    (ctx : Bool) : List Byte :=
  let mask := units.foldl (fun m u => m + 2 ^ u.1) 0
  let teamNo : Word32 := match team with | some t => BitVec.ofNat 32 t.num | none => 0xFFFFFFFF#32
  let count := match team with | some _ => gr.record.groups | none => 1
  layRecord 0x2000 (headerFields team count teamNo gr.num ctx gr.record.det mask gr.tenant) ++
    (match team with | some t => scratchBytes s t | none => []) ++
    (units.flatMap fun u => u.2.record ((ps.filter fun p => p.2.1 = u.1).map fun p => p.2.2)) ++
    ((List.range count).flatMap fun i =>
      match gs.find? fun g => team.isNone || decide (g.2.index.toNat = i) with
      | some g => g.2.record
      | none => List.replicate groupSize 0#8)

/-- A save that finds no slot: the groups stay stopped, and one record of kind 6 with cause 0 is appended (R284). -/
def stallSave (s : State) (key : Nat) : State :=
  match savedGids s key with
  | [] => s
  | gid :: r =>
    match s.group? gid with
    | none => s
    | some g =>
      if g.stalled then s
      else
        let s := (gid :: r).foldl (fun s x => s.modGroup x fun g => { g with stalled := true }) s
        (appendRecord s g.die { addr := 0#80, cause := 0#8, kind := 6#8, tenant := g.tenant, core := g.core,
                                place := placeByte g true false, mask := 0#96, seq := 0#32 }).1

/-- What a saved team held is free: its units, slots, scratchpad, matrix units and context. -/
def freeSaved (s : State) (key : Nat) (gids : List Nat) (ctx : Option Nat) : State :=
  let s := match ctx with
    | some c =>
      let s := match (tget s.ctxs c).bind StepCtx.run with
        | some r => dropLocks s (ctxDie c) r.1 (.step c)
        | none => s
      { s with ctxs := tdel s.ctxs c }
    | none => s
  { s with
    groups := s.groups.filter fun g => !gids.contains g.1,
    teams := tdel s.teams key,
    progs := s.progs.filter fun p => !(p.2.eng = 0 && p.2.team = some key && !p.2.ended),
    quads := s.quads.map fun (q : Nat × Quad) =>
      (q.1, { q.2 with claims := q.2.claims.filter fun c => !gids.contains c.1, loads := q.2.loads.filter fun w => !gids.contains w.gid,
                       mx := if q.2.mx.holder = some key then MxUnit.reset else q.2.mx }) }

/-- The entries of a group's stack that are on chip (R147) go to their places, or come back from them, after what its stack is owed; a group
parked whole waits for its replay first. -/
def chipTransfers (s : State) (gid : Nat) (write : Bool) : State :=
  match s.group? gid with
  | none => s
  | some g =>
    if g.parkedAll.isSome then s
    else
      let n := g.stack.length
      let below := n - Config.stackOnChip
      stackTransfers s gid (g.owed ++ (upFrom below (n - below)).map fun j => (j, write))

/-- The spawn counts of a group that is saved rewound (R285, R310). -/
def saveSpawns (s : State) (gid : Nat) : State :=
  match s.group? gid with
  | none => s
  | some g => match g.region with
    | some r => if g.trapMode || r.escaped then s else rewindSpawns s gid g r
    | none => s

/-- The dirty lane-private sectors of a group that is saved are written back (R58). -/
def l1FlushGroup (s : State) (gid : Nat) : State :=
  match s.group? gid with
  | none => s
  | some g => l1Flush s g.die g.core fun e => e.owner.1 = gid

/-- A save whose groups have come to rest: the stacks go to memory, the record is written into a slot, and everything is freed. -/
def finishSave (s : State) (key : Nat) : State :=
  let gids := savedGids s key
  let s := gids.foldl (fun s gid => chipTransfers (saveSpawns s gid) gid true) s
  let s := gids.foldl l1FlushGroup s
  let gs := gids.filterMap fun gid => (s.group? gid).map fun g => (gid, (withSources s g).toSave s.now.toNat)
  match gs with
  | [] => s
  | (_, g0) :: _ =>
    match tget s.grids g0.grid with
    | none => s
    | some gr =>
      let team := tget s.teams key
      let units := (heldUnits s key).map fun u => (u.1, u.2.2)
      let ps := (sequencerProgs s key).map fun p => (p.1, p.2.core % 8 * 4 + p.2.quad, p.2)
      let ctx := team.bind Team.ctx
      let count := match team with | some _ => gr.record.groups | none => 1
      match findSlot s g0.die g0.tenant (recordSize (match team with | some t => t.scSize | none => 0) units.length count) with
      | (s, none) => stallSave s key
      | (s, some a) =>
        let s := devWrite s g0.die g0.tenant a (teamRecord s team gs gr units ps ctx.isSome)
        let loads := s.quads.flatMap fun q => q.2.loads.filter fun w => gids.contains w.gid
        let x : Saved :=
          { key := key, team := team, groups := gs.map fun g => (g.1, { g.2 with saving := false, stalled := false, watch := none }),
            grid := g0.grid, tenant := g0.tenant, die := g0.die, slotAddr := a, ctx := ctx.bind (tget s.ctxs), units := units,
            progs := ps, loads := loads, waitSince := s.now.toNat, drained := !(s.tenant g0.tenant).inSlice, watch := g0.watch, settled := [] }
        let s := freeSaved s key gids ctx
        { settleOwners s with saved := s.saved ++ [x] }

/-- Each core whose stacks a save moves has a miss-status entry for them (R63, R147). -/
def stacksGo (s : State) (key : Nat) : Bool :=
  (savedGids s key).all fun gid => match s.group? gid with
    | some g => g.stack.isEmpty || entryFree s g.die g.core
    | none => true

/-- A save goes on if it can (R285). -/
def trySave (s : State) (key : Nat) : State := if saveSettled s key && stacksGo s key then finishSave s key else s

/-- The keys of everything of a tenant that is stopped for a save. -/
def savingKeys (s : State) (tenant : Nat) : List Nat :=
  ((s.groups.filter fun g => g.2.saving && g.2.tenant = tenant).map fun g => g.2.saveKey g.1).eraseDups

/-- SAVE_SLOT_RETRY: every stopped save of the tenant goes on if it can. -/
def execSaveSlotRetry (tenant : Nat) (s : State) : Out :=
  .next ((savingKeys s tenant).foldl (fun s k => trySave s k) s)

/-- TENANT_DRAIN_DEADLINE: 2 ms after its slice ended, every group of the tenant that is still resident is saved (R283). -/
def execTenantDrainDeadline (tenant : Nat) (s : State) : Out :=
  let t := s.tenant tenant
  match t.drainAt with
  | none => .next s
  | some n =>
    if s.now.toNat < n then .next s
    else
      let s := s.setTenant tenant { t with drainAt := none }
      let keys := ((s.groups.filter fun g => g.2.tenant = tenant && !g.2.sup).map fun g => g.2.saveKey g.1).eraseDups
      .next (keys.foldl (fun s k => trySave (beginSave s k) k) s)

/-! ### Restoring (R209, R225, R285) -/

/-- A slot whose copy has completed while it was saved goes to its continuation (R77). -/
def Slot.endCopy (s : State) (sl : Slot) : Slot :=
  match sl.wait with
  | .cpyCont t dest => if s.copies.any fun c => c.id = t then sl else sl.jump dest
  | _ => sl

/-- The claims in which a group is blocked, those of the slots that a trap froze among them. -/
def Group.blockedClaims (g : Group) (gid : Nat) : List Claim :=
  let of := fun (trap : Bool) (x : Bool × Slot) =>
    match x.2.wait with
    | .claim n => some { gid := gid, s1 := x.1, units := n, trap := trap : Claim }
    | _ => none
  (match g.frame with | some f => [(false, f.s0), (true, f.s1)].filterMap (of false) | none => []) ++
    [(false, g.s0), (true, g.s1)].filterMap (of g.trapMode)

/-- The group's waits begin again: claims in their quadrant's list, tables bound or loaded, the stack's entries on chip. Whether its tables are
loaded again is decided here, once (R209; log entry 40). -/
def rejoin (s : State) (gid : Nat) (loads : List TblWait) : State :=
  match s.group? gid with
  | none => s
  | some g =>
    let g := g.mapSlots (Slot.endCopy s)
    let q := s.quad g.die g.core g.quad
    let same := decide (Vector.map Table.src q.tables[bankOf q.bank] = g.tsrc)
    let reload : List TblWait :=
      if same then []
      else [{ gid := gid, s1 := false, mask := 0#4, space := .g, addr := 0#80, ctr := 0#2, agents := 0#96, trap := false, srcs := some g.tsrc }]
    let s := s.setQuad g.die g.core g.quad
      { q with claims := q.claims ++ g.blockedClaims gid, loads := q.loads ++ reload ++ loads.filter fun w => w.gid = gid && w.srcs.isNone }
    chipTransfers (s.setGroup gid { g with bindWait := !same }) gid false

/-- The record of a saved team as it stands in memory now. -/
def readRecord (s : State) (x : Saved) (n : Nat) : State × Option (List Byte) := devRead s x.die x.tenant x.slotAddr n

/-- The restore is complete: the slot is free (R284). -/
def freeSlot (s : State) (x : Saved) : State := devWrite s x.die x.tenant x.slotAddr (List.replicate 8 0#8)

/-- A group as its record and the device's own state give it; digits come from the tenant's key as it stands (R213). -/
def Saved.group (x : Saved) (s : State) (rec : List Byte) (off : Nat) (was : Group) : Group :=
  { Group.fromRecord ((rec.drop off).take groupSize) was with agkey := (s.tenant x.tenant).agkey }

/-- The counters that fell while the team was saved have fallen. -/
def Saved.settle (x : Saved) (s : State) : State := x.settled.foldl (fun s c => s.ctrDown c.1 c.2) s

/-- The locks of a run are registered again (R285), where its core's Range-Lock Table takes them (R1, R113). -/
def relock (s : State) (c : Nat) (x : StepCtx) (core : Nat) : Option State :=
  if x.st = .running then takeLocks s (ctxDie c) core (x.runLocks c x.tenant) else some s

/-- The context that a saved team takes in a cluster, and the core of its run there. -/
def Saved.ctxPlace (x : Saved) (s : State) (clu : Nat) : Option (StepCtx × Nat × Nat) :=
  match x.ctx with
  | none => none
  | some c => ((upFrom ((x.die * 8 + clu) * 4) 4).find? fun n => (tget s.ctxs n).isNone).map fun n =>
      let core := match c.run with | some r => 8 * clu + r.1 % 8 | none => 8 * clu
      ({ c with run := c.run.map fun r => (core, r.2) }, n, core)

/-- A context that a restored team held. -/
def restoreCtx (s : State) (x : Saved) (key clu : Nat) : State :=
  match x.ctxPlace s clu, tget s.teams key with
  | some (c, n, core), some t =>
    match relock { s with ctxs := tset s.ctxs n c, teams := tset s.teams key { t with ctx := some n } } n c core with
    | none => s
    | some s => if c.st = .stopped then callOver s { c with team := key } else s
  | _, _ => s

/-- A cluster has a context for a saved team that held one, and room for the locks of its run. -/
def contextFree (s : State) (x : Saved) (clu : Nat) : Bool :=
  x.ctx.isNone || match x.ctxPlace s clu with
    | some (c, n, core) => (relock s n c core).isSome
    | none => false

/-- Each core to which a stack of a saved team comes back has a miss-status entry for it (R63, R147). -/
def stacksFit (s : State) (x : Saved) (clu : Nat) : Bool :=
  x.groups.all fun g => g.2.stack.isEmpty || entryFree s x.die (groupPlace clu g.2.index.toNat).1

/-- The matrix units that a team held have no holder in its new quadrants (R224). -/
def unitsFree (s : State) (x : Saved) (clu : Nat) : Bool :=
  x.units.all fun u => match tget s.quads (quadKey x.die (8 * clu + u.1 / 4) (u.1 % 4)) with
    | some q => q.mx.holder.isNone
    | none => true

/-- The demands of a saved team: what each group holds. -/
def Saved.demands (x : Saved) : List Demand := x.groups.map fun g => { idx := g.2.index.toNat, units := g.2.units }

/-- A saved team is restored where it fits: on its grid's die, as R267 places a team. -/
def restoreTeam (s : State) (x : Saved) (t : Team) (gr : Grid) : Option State :=
  match (List.range 8).findSome? fun c => if contextFree s x c && unitsFree s x c && stacksFit s x c then (clusterFits s gr c x.demands).map fun b => (c, b) else none with
  | none => none
  | some (clu, bases) =>
    let n := gr.record.groups
    let base := 0x2000 + 8 * t.scSize
    let gOff := base + x.units.length * matrixSize
    match readRecord s x (gOff + n * groupSize) with
    | (_, none) => none
    | (s, some rec) =>
      let t := { barsFrom rec t with die := x.die, clu := clu, scBase := bases, ctx := none, placedAt := s.now.toNat }
      let s := { s with teams := tset s.teams x.key t, saved := s.saved.filter fun y => y.key ≠ x.key }
      let keys := (scratchRanges t).flatMap fun r => upFrom r.1 r.2
      let s := { s with mem := memPuts s.mem keys ((rec.drop 0x2000).take (8 * t.scSize)) }
      let s := x.units.zipIdx.foldl (fun s u =>
        let k := quadKey x.die (8 * clu + u.1.1 / 4) (u.1.1 % 4)
        let blk := (rec.drop (base + u.2 * matrixSize)).take matrixSize
        let q := (tget s.quads k).getD Quad.reset
        { s with quads := tset s.quads k { q with mx := MxUnit.fromRecord blk u.1.2 } }) s
      let blockOf := fun i : Nat => match (x.units.zipIdx.find? fun u => u.1.1 = i) with
        | some u => (rec.drop (base + u.2 * matrixSize)).take matrixSize
        | none => []
      let s := x.progs.foldl (fun s p =>
        s.setProg p.1 { progFromRecord (blockOf p.2.1) p.2.2 with core := 8 * clu + p.2.1 / 4, quad := p.2.1 % 4 }) s
      let s := x.groups.foldl (fun s g =>
        let p := groupPlace clu g.2.index.toNat
        rejoin (installGroup s g.1 (x.group s rec (gOff + g.2.index.toNat * groupSize) g.2) x.die p.1 p.2) g.1 x.loads) s
      some (freeSlot (restoreCtx (x.settle s) x x.key clu) x)

/-- The quadrant of a core in which a gathered group of `units` may form: the one with the most free slots, the lowest on a tie
(R274). -/
def gatherQuad (s : State) (gr : Grid) (die core units : Nat) : Option Nat :=
  let ok := fun q => quadAllows s die core q gr.tenant gr.record.hard && !(freeSlots s die core q).isEmpty &&
    decide (units ≤ untaggedUnits s die core q)
  if energyAdmits s die core (classWeight gr.record.cls) then
    ((List.range 4).filter ok).foldl (fun (b : Option Nat) q =>
      match b with
      | none => some q
      | some x => if (freeSlots s die core x).length < (freeSlots s die core q).length then some q else some x) none
  else none

/-- A saved gathered group is restored on its core. -/
def restoreGathered (s : State) (x : Saved) (gid : Nat) (was : Group) (gr : Grid) : Option State :=
  match gatherQuad s gr was.die was.core was.units with
  | none => none
  | some q =>
    match (if was.stack.isEmpty || entryFree s was.die was.core then readRecord s x (0x2000 + groupSize) else (s, none)) with
    | (_, none) => none
    | (s, some rec) =>
      let s := { s with saved := s.saved.filter fun y => y.key ≠ x.key }
      let s := installGroup s gid (x.group s rec 0x2000 was) was.die was.core q
      some (freeSlot (x.settle (rejoin s gid x.loads)) x)

/-- A saved team or gathered group is restored, if there is room. -/
def restoreSaved (s : State) (x : Saved) : Option State :=
  match tget s.grids x.grid with
  | none => none
  | some gr =>
    match x.team, x.groups with
    | some t, _ => restoreTeam s x t gr
    | none, (gid, g) :: _ => restoreGathered s x gid g gr
    | none, [] => none

end Sys2Proof.Machine
end

