-- ==== Sys2Proof/Machine/Sched.lean ====
section
/-! DEFINITION. Scheduling on a die: tokens, placement, completion of grids, time slices, the floor and its digests, gathering
and stealing of tasks (R73, R116, R150 to R152, R265 to R276, R283, R294). -/

namespace Sys2Proof.Machine

/-! ### Tokens and placement -/

/-- TOKEN_POLL: the queue of a die reads its wait tokens every 1 µs. -/
def execTokenPoll (die : Nat) (s : State) : Out :=
  if s.now.toNat < (s.die die).polledAt + Config.microsecond then .next s
  else .next (pollGrids (s.setDie die { s.die die with polledAt := s.now.toNat }) fun d => d = die)

/-- The grid's die scratchpad is allocated and zero-filled, at the lowest place where it fits (R62, R267). -/
def grantDs (s : State) (grid : Nat) (gr : Grid) : Option State :=
  let n := gr.record.dscratch
  if gr.ds.isSome || n = 0 then some s
  else
    let taken := (s.dsAlloc.filter fun a => a.1 = gr.die).map fun a => (a.2.1, a.2.2.1)
    match ((List.range 8192).map fun i => i * 4096).find? fun b => decide (b + n ≤ 2 ^ 25) && taken.all fun t => !meets b n t.1 t.2 with
    | none => none
    | some b =>
      some ({ s with dsAlloc := s.dsAlloc ++ [(gr.die, b, n, grid)], mem := zeroDs s.mem gr.die b n }.modGrid grid fun g =>
        { g with ds := some b })

/-- The die's grids by priority, highest first, and within a priority in queue order (R267). -/
def placementOrder (s : State) (die : Nat) : List (Nat × Grid) :=
  let q := (s.die die).queue.filterMap fun k => (tget s.grids k).map fun g => (k, g)
  [3, 2, 1, 0].flatMap fun p => q.filter fun g => g.2.record.prio = p && g.2.eligible

/-- Saved teams that wait for room: a gathered group that waits for a future or a ring returns by itself (R152). -/
def Saved.waits (x : Saved) : Bool := x.watch.isNone

/-- Of some saved teams, those by their numbers (R267). -/
def byNumber : Nat → List Saved → List Saved
  | 0, _ => []
  | n + 1, xs =>
    let no := fun x : Saved => (x.team.map Team.num).getD 65535
    match xs.foldl (fun (b : Option Saved) x => match b with | none => some x | some y => if no x < no y then some x else some y) none with
    | none => []
    | some x => x :: byNumber n (xs.filter fun y => y.key ≠ x.key)

/-- The saved teams of a grid that return before it places a new one: of those of its tenant that its slice's end saved and that return in the
order in which they were saved (R283), its own whose turn it is, and then its others by their numbers. -/
def savedOf (s : State) (grid : Nat) (gr : Grid) : List Saved :=
  let mine := s.saved.filter fun x => x.grid = grid && x.waits && !x.drained
  (s.saved.filter fun x => x.drained && x.waits && x.tenant = gr.tenant && x.die = gr.die).takeWhile (fun x => decide (x.grid = grid)) ++
    byNumber mine.length mine

/-- Teams of one grid are placed in ascending order while they fit; says whether all were placed. -/
def placeNew (s : State) (grid : Nat) : Nat → State × Bool
  | 0 => (s, true)
  | n + 1 =>
    match tget s.grids grid with
    | none => (s, true)
    | some gr =>
      if gr.record.teams ≤ gr.placed || (s.saved.any fun x => x.drained && x.tenant = gr.tenant) then (s, true)
      else
        match grantDs s grid gr with
        | none => (s, false)
        | some s =>
          match placeTeam s grid gr with
          | none => (s, false)
          | some s => placeNew s grid n

def restoreAll (s : State) : List Saved → State × Bool
  | [] => (s, true)
  | x :: r => match restoreSaved s x with | some s => restoreAll s r | none => (s, false)

/-- Placement in order: a team that fits nowhere stops those of equal or lower priority behind it (R267). A tenant outside its
slice places nothing, and no new team while one that its slice's end saved is to return (R283). -/
def placeGrids (s : State) : List (Nat × Grid) → State
  | [] => s
  | (k, gr) :: r =>
    if !(s.tenant gr.tenant).inSlice then placeGrids s r
    else
      match restoreAll s (savedOf s k gr) with
      | (s, false) => s
      | (s, true) =>
        match placeNew s k gr.record.teams with
        | (s, false) => s
        | (s, true) => placeGrids s r

/-- The team for which another was saved takes its room (R269). -/
def placeSliced (s : State) (die : Nat) : State :=
  match (s.die die).slicing with
  | none => s
  | some (victim, grid, key) =>
    if !(savedGids s victim).isEmpty then s
    else
      let s := s.setDie die { s.die die with slicing := none }
      if !(match tget s.grids grid with | some gr => (s.tenant gr.tenant).inSlice | none => false) then s
      else
      match key with
      | some k => (match s.saved.find? fun x => x.key = k with | some x => (restoreSaved s x).getD s | none => s)
      | none => (placeNew s grid 1).1

/-- TEAM_PLACEMENT. -/
def execTeamPlacement (die : Nat) (s : State) : Out :=
  let s := placeSliced s die
  .next (placeGrids s (placementOrder s die))

/-! ### The end of a grid (R266) -/

/-- Every access of the grid's groups has performed at .mod scope. -/
def gridQuiet (s : State) (grid : Nat) (gr : Grid) : Bool :=
  let mine := fun gid => gr.gids.contains gid
  !(s.accs.any fun a => a.grid = grid) && !(s.stores.any fun r => mine r.gid) && !(s.held.any fun h => mine h.w.gid) &&
    !(s.flits.any fun f => mine f.gid) && !(s.copies.any fun c => c.grid = grid) && !(s.progs.any fun p => p.2.grid = grid && !p.2.ended)

/-- Every team and every task has ended, and nothing that a retirement released is left. -/
def gridEnded (s : State) (grid : Nat) (gr : Grid) : Bool :=
  decide (gr.record.teams ≤ gr.ended) && decide (gr.tasks = 0) && gr.late.isEmpty && gr.digests.isEmpty && gr.again.isNone &&
    !(s.groups.any fun g => g.2.grid = grid) && !(s.saved.any fun x => x.grid = grid)

/-- One is added to each signal token at its home, in token order, from the first that has not had its add; one that does not translate
stops with a record of kind 5. -/
def signalTokens (s : State) (grid die tenant : Nat) : List Token → State × Option Word32
  | [] => (s, none)
  | t :: r =>
    let next := fun s : State => signalTokens (s.modGrid grid fun g => { g with signalled := g.signalled + 1 }) grid die tenant r
    if !t.signal then next s
    else
      match xlateBytes s die 0 tenant true .atomic ((List.range 4).map fun i => t.addr + BitVec.ofNat 80 i) with
      | (s, .error (c, va)) =>
        let (s, seq) := appendRecord s die
          { addr := va, cause := c.code, kind := 5#8, tenant := tenant, core := 0, place := 0#8, mask := 0#96, seq := 0#32 }
        (s, some seq)
      | (s, .ok ks) =>
        let v : Word32 := ofBytes (ks.map (homeByte s)) 32
        next (storeHome s 0 tenant ks (toBytes (v + 1#32) 4))

/-- GRID_COMPLETE: signal tokens, then the die scratchpad and the queue entry; every queue reads its tokens again (R265). -/
def execGridComplete (grid : Nat) (s : State) : Out :=
  match tget s.grids grid with
  | none => .next s
  | some gr =>
    if !gr.eligible || !gr.tokenStops.isEmpty || !gridEnded s grid gr || !gridQuiet s grid gr then .next s
    else
      match signalTokens s grid gr.die gr.tenant (gr.record.tokens.drop gr.signalled) with
      | (s, some seq) => .next (s.modGrid grid fun g => { g with tokenStops := [(g.signalled, seq)] })
      | (s, none) =>
        let d := s.die gr.die
        let s := s.setDie gr.die { d with queue := d.queue.filter fun k => k ≠ grid }
        let s := { s with grids := tdel s.grids grid, dsAlloc := s.dsAlloc.filter fun a => a.2.2.2 ≠ grid,
                          progs := s.progs.filter fun p => p.2.grid ≠ grid }
        .next (pollGrids s fun _ => true)

/-! ### Time slices (R269) -/

/-- The state without a team, for asking what would fit once it left. -/
def withoutTeam (s : State) (key : Nat) : State := freeSaved s key (savedGids s key) ((tget s.teams key).bind Team.ctx)

/-- A team that waits for room: its grid, itself where it is a saved one, and since when. -/
structure Waiting where
  grid : Nat
  saved : Option Saved
  since : Nat
  deriving DecidableEq, Repr

/-- The teams that wait, in the order of R267. -/
def waitingTeams (s : State) : List (Nat × Grid) → List Waiting
  | [] => []
  | (k, gr) :: r =>
    (if (s.tenant gr.tenant).inSlice then
      ((s.saved.filter fun x => x.grid = k && x.waits).map fun x => { grid := k, saved := some x, since := x.waitSince : Waiting }) ++
        (if gr.placed < gr.record.teams then [{ grid := k, saved := none, since := gr.waitSince }] else [])
     else []) ++ waitingTeams s r

/-- Would a waiting team fit on a cluster: a saved gathered group on its own core, a grid's first team with its die scratchpad? -/
def Waiting.fits (w : Waiting) (s : State) (gr : Grid) (clu : Nat) : Bool :=
  match w.saved with
  | some x =>
    match x.team, x.groups with
    | none, (_, g) :: _ => decide (g.core / 8 = clu) && (gatherQuad s gr g.die g.core g.units).isSome
    | _, _ => contextFree s x clu && unitsFree s x clu && (clusterFits s gr clu x.demands).isSome
  | none => (grantDs s w.grid gr).isSome && (clusterFits s gr clu (newDemands gr)).isSome

/-- Of two victims, the one of lower priority, or the one resident longer. -/
def lowerVictim (a b : Nat × Nat × Nat) : Bool := decide (a.2.1 < b.2.1) || (a.2.1 = b.2.1 && decide (a.2.2 < b.2.2))

/-- The team that is saved for a waiting one: its key, priority and placement time. -/
def sliceVictim (s : State) (die : Nat) (gr : Grid) (w : Waiting) : Option (Nat × Nat × Nat) :=
  let quantum := (s.die die).quantum.toNat * Config.microsecond
  let prioOf := fun (t : Team) => match tget s.grids t.grid with | some g => g.record.prio | none => 0
  let ok := fun (t : Nat × Team) =>
    t.2.die = die && !((savedGids s t.1).any fun gid => match s.group? gid with | some g => g.saving | none => false) && decide (prioOf t.2 ≤ gr.record.prio) && decide (t.2.placedAt + quantum ≤ s.now.toNat) &&
      w.fits (withoutTeam s t.1) gr t.2.clu
  ((s.teams.filter ok).map fun t => (t.1, prioOf t.2, t.2.placedAt)).foldl (fun (b : Option (Nat × Nat × Nat)) x =>
    match b with
    | none => some x
    | some y => if lowerVictim x y then some x else some y) none

/-- The first waiting team that has waited for a quantum and for which another can go, with the team that goes. -/
def sliceChoice (s : State) (die : Nat) : List Waiting → Option (Waiting × Nat)
  | [] => none
  | w :: r =>
    let due := decide (w.since + (s.die die).quantum.toNat * Config.microsecond ≤ s.now.toNat)
    match (if due then (tget s.grids w.grid).bind fun gr => sliceVictim s die gr w else none) with
    | some v => some (w, v.1)
    | none => sliceChoice s die r

/-- Has the save of a team found no slot (R284)? It goes on by itself when it can, and no waiting team waits for it. -/
def saveStalls (s : State) (key : Nat) : Bool := (savedGids s key).any fun gid => match s.group? gid with | some g => g.stalled | none => false

/-- TIME_SLICE_SAVE: for a team that has waited for a quantum, one resident team of no higher priority goes; once it is saved, the waiting team
takes its room. -/
def execTimeSliceSave (die : Nat) (s : State) : Out :=
  let choose := fun s : State =>
    match sliceChoice s die (waitingTeams s (placementOrder s die)) with
    | none => s
    | some (w, v) =>
      let s := s.setDie die { s.die die with slicing := some (v, w.grid, w.saved.map Saved.key) }
      placeSliced (trySave (beginSave s v) v) die
  match (s.die die).slicing with
  | some (victim, _, _) =>
    let s := placeSliced (trySave s victim) die
    .next (if saveStalls s victim then choose (s.setDie die { s.die die with slicing := none }) else s)
  | none => .next (choose s)

/-! ### Groups of tasks (R150, R274) -/

/-- The physical core of a logical core for a grid (R273, R293). -/
def physOf (gr : Grid) (lcore : Nat) : Option (Nat × Nat) :=
  if gr.record.det then
    let x := gr.spinel.getD lcore 0#32
    if x.getLsbD 31 && decide (lcore < 1536 ∧ (x.extractLsb' 11 5).toNat < Config.dies) then
      some ((x.extractLsb' 11 5).toNat, (x.extractLsb' 5 6).toNat)
    else none
  else some (lcore / 64, lcore % 64)

/-- The oldest ready task and up to 95 more of its grid and entry, in deque order, and what stays. -/
def gather (t : Task) (n : Nat) : List Task → List Task × List Task
  | [] => ([], [])
  | x :: r =>
    if 0 < n && x.grid = t.grid && x.entry = t.entry then
      let (a, b) := gather t (n - 1) r
      (x :: a, b)
    else
      let (a, b) := gather t n r
      (a, x :: b)

/-- Slices 0 to 63 of a lane hold its task's argument record (R150). -/
def gatheredGroup (s : State) (gr : Grid) (lcore : Nat) (ts : List Task) : State × Group :=
  let (lp, s) := s.freeLpbase
  let m : Mask := (BitVec.allOnes 96) >>> (96 - ts.length)
  let task := fun l : Lane => ts[l.val]?
  let first := match ts with | t :: _ => t | [] => { grid := 0, entry := 0#80, arg := 0#256, idx := 0#128 }
  let g := Group.start (s.tenant gr.tenant) s.now.toNat lp gr first.entry m
  let g := { g with
    h := gr.record.taskBudget - 1, lcore := lcore, srstrm := first.idx.setWidth 24, tasks := ts, retiredIdx := ~~~m,
    lidx := Vector.ofFn fun l : Lane => match task l with | some t => t.idx | none => 0#128,
    slices := Vector.ofFn fun l : Lane => match task l with | some t => t.arg.setWidth 2048 | none => 0#2048 }
  (s, g.startDigests)

/-- The lanes of a new group whose tasks follow accesses that are outstanding still (R310). -/
def followersOf (s : State) (gid : Nat) (ts : List Task) : List Follower :=
  ts.zipIdx.filterMap fun x =>
    x.1.after.bind fun p => if released s p.gid p.die p.lanes 4 p.last then none else some { gid := gid, lanes := oneLane x.2, prior := p }

/-- A group of tasks starts in a quadrant. -/
def startGathered (s : State) (gr : Grid) (lcore die core quad : Nat) (ts : List Task) (replay : Mask) : State :=
  let (gid, s) := s.nextId
  let (s, g) := gatheredGroup s gr lcore ts
  let s := installGroup s gid { g with replayed := replay } die core quad
  { s with followers := s.followers ++ followersOf s gid ts }.modGrid gr.num.toNat fun x => { x with gids := x.gids ++ [gid] }

/-- Where the Task Gatherer forms a group of a grid's tasks from a logical core's deque, if it can now: a tenant outside its slice forms none
(R283). -/
def gatherPlace (s : State) (lcore grid : Nat) : Option (Grid × Nat × Nat × Nat) :=
  (tget s.grids grid).bind fun gr =>
    if (s.tenant gr.tenant).inSlice then
      (physOf gr lcore).bind fun p => (gatherQuad s gr p.1 p.2 gr.record.taskBudget).map fun q => (gr, p.1, p.2, q)
    else none

/-- The oldest ready task of a deque with the place of its group: those of a tenant outside its slice stay in their deques. -/
def nextTask (s : State) (lcore : Nat) : Option (Task × Grid × Nat × Nat × Nat) :=
  ((s.deque lcore).tasks.find? fun t => match tget s.grids t.grid with | some gr => (s.tenant gr.tenant).inSlice | none => false).bind fun t =>
    (gatherPlace s lcore t.grid).map fun p => (t, p)

/-- The logical cores from which a physical core could form a group now, the lowest first. -/
def formable (s : State) (die core : Nat) : List Nat :=
  (s.deques.filter fun d => match nextTask s d.1 with | some (_, _, x, c, _) => decide (x = die ∧ c = core) | none => false).map Prod.fst

/-- The one whose turn it is: the lowest above the last, or else the lowest (R293). -/
def formTurn (last : Option Nat) (ls : List Nat) : Option Nat :=
  ((ls.filter fun l => match last with | some x => decide (x < l) | none => true).head?).or ls.head?

/-- TGA_FORM_GROUP. A physical core that serves several logical cores forms from them in turn, the lowest first (R293). -/
def execTgaFormGroup (lcore : Nat) (s : State) : Out :=
  match nextTask s lcore with
  | none => .next s
  | some (t, gr, die, core, q) =>
    if formTurn (s.core die core).tgaLast (formable s die core) ≠ some lcore then .next s
    else
      let d := s.deque lcore
      let (ts, rest) := gather t 96 d.tasks
      let s := s.setDeque lcore { d with tasks := rest, version := d.version + 1 }
      let s := s.setCore die core { s.core die core with tgaLast := some lcore }
      .next (startGathered s gr lcore die core q ts 0#96)

/-! ### Stealing (R275, R276) -/

/-- Hops between dies on the 4 × 6 mesh. -/
def meshHops (a b : Nat) : Nat :=
  let far := fun x y : Nat => if x < y then y - x else x - y
  far (a / 6) (b / 6) + far (a % 6) (b % 6)

/-- The victims of a logical core, in order: its own die from the next core on, then the other dies by distance and number. -/
def victims (lcore : Nat) : List Nat :=
  let d := lcore / 64
  let own := (upFrom 1 63).map fun i => d * 64 + (lcore + i) % 64
  let others := (upFrom 1 9).flatMap fun h => (List.range Config.dies).filter fun x => x ≠ d && meshHops d x = h
  own ++ others.flatMap fun x => (List.range 64).map fun c => x * 64 + c

/-- The thief of a logical core. -/
def thiefOf (s : State) (lcore : Nat) : Thief := (s.core (lcore / 64) (lcore % 64)).thief
def setThief (s : State) (lcore : Nat) (t : Thief) : State :=
  s.setCore (lcore / 64) (lcore % 64) { s.core (lcore / 64) (lcore % 64) with thief := t }

/-- Could a group of some grid form now for a logical core (R274, R275)? -/
def couldForm (s : State) (lcore : Nat) : Bool := s.grids.any fun g => (gatherPlace s lcore g.1).isSome

/-- The version of a victim's deque that a thief last saw. -/
def seenVersion (s : State) (lcore victim : Nat) : Nat := (tget (s.deque lcore).seen victim).getD 0

/-- May the thief ask a victim: some grid that could form a group for the thief has a core there? In deterministic mode the cores whose
Spinel entry is not valid are passed over (R337). -/
def mayAsk (s : State) (lcore victim : Nat) : Bool := s.grids.any fun g => (gatherPlace s lcore g.1).isSome && (physOf g.2 victim).isSome

/-- The victims that a thief has still to ask in its round, a new one where none is under way. -/
def stealOrder (s : State) (lcore : Nat) : List Nat :=
  let t := thiefOf s lcore
  (if t.left.isEmpty then victims lcore else t.left).filter (mayAsk s lcore)

/-- A thief that has asked every victim waits. -/
def stealRest (s : State) (lcore : Nat) : Option (Nat × Nat) := some (s.now.toNat, (s.die (lcore / 64)).pushes)

/-- STEAL_REQUEST: an idle core sends one request, to its next victim. -/
def execStealRequest (lcore : Nat) (s : State) : Out :=
  let t := thiefOf s lcore
  let idle := (s.deque lcore).tasks.isEmpty && couldForm s lcore
  if !idle || t.req.isSome || t.emptyAt.isSome then .next s
  else
    match stealOrder s lcore with
    | [] => .next (setThief s lcore { t with left := [], emptyAt := stealRest s lcore })
    | v :: r => .next (setThief s lcore { t with left := r, req := some (v, seenVersion s lcore v), arrivedAt := s.now.toNat })

/-- The logical cores whose requests stand at a victim, with the version that each presents and when it came. -/
def requestsAt (s : State) (victim : Nat) : List (Nat × Nat × Nat) :=
  s.cores.filterMap fun c =>
    match c.2.thief.req with
    | some (v, n) => if v = victim then some (c.1, n, c.2.thief.arrivedAt) else none
    | none => none

/-- A thief learns the version of a victim's deque. -/
def observe (s : State) (lcore victim : Nat) : State :=
  let d := s.deque lcore
  s.setDeque lcore { d with seen := tset d.seen victim (s.deque victim).version }

/-- A thief that has been answered empty goes on to its next victim, or waits when it has asked every one. -/
def loseSteal (victim : Nat) (s : State) (lcore : Nat) : State :=
  let t := thiefOf s lcore
  observe (setThief s lcore { t with req := none, emptyAt := if t.left.isEmpty then stealRest s lcore else none }) lcore victim

/-- May a thief hold a task: in deterministic mode only with a valid entry of the Spinel table (R293, R337). -/
def canHold (s : State) (thief : Nat) (t : Task) : Bool := match tget s.grids t.grid with | some gr => (physOf gr thief).isSome | none => false

/-- The tasks that a steal takes: the tail task and those before it with its entry, up to half the deque rounded up and 96, as far as the
thief may hold them. -/
def stealTail (holds : Task → Bool) (ts : List Task) : List Task × List Task :=
  match ts.reverse with
  | [] => (ts, [])
  | t :: r =>
    let run := ((t :: r).takeWhile fun x => x.entry = t.entry && holds x).length
    let n := min run (min ((ts.length + 1) / 2) 96)
    (ts.take (ts.length - n), ts.drop (ts.length - n))

/-- The least of a list of pairs of a logical core and a number, by the number and then the core. -/
def least : List (Nat × Nat) → Option (Nat × Nat)
  | [] => none
  | x :: r => match least r with | none => some x | some y => if x.2 < y.2 ∨ (x.2 = y.2 ∧ x.1 ≤ y.1) then some x else some y

/-- The requests that a victim's controller decides together, and their winner: in deterministic mode those that present the
lowest version, and the lowest logical core; in free mode the first that came and those of the same cycle. -/
def stealRound (det : Bool) (rs : List (Nat × Nat × Nat)) : List Nat × Option Nat :=
  let key := fun r : Nat × Nat × Nat => if det then r.2.1 else r.2.2
  match least (rs.map fun r => (r.1, key r)) with
  | none => ([], none)
  | some w => ((rs.filter fun r => key r = w.2).map Prod.fst, some w.1)

/-- STEAL_SERVE: the winner's tasks move to the tail of its deque, the oldest first; the others see the deque as empty, and so does, in
deterministic mode, a request at a version at which one has been served (R276). -/
def execStealServe (victim : Nat) (s : State) : Out :=
  let d := s.deque victim
  let det := match d.tasks.getLast? with | some t => (match tget s.grids t.grid with | some g => g.record.det | none => false) | none => false
  let holds := fun r : Nat × Nat × Nat => match d.tasks.getLast? with | some t => canHold s r.1 t | none => true
  let late := fun r : Nat × Nat × Nat => !holds r || (det && d.served.contains r.2.1)
  let rs := requestsAt s victim
  let lost := (rs.filter late).map Prod.fst
  match stealRound det (rs.filter fun r => !late r) with
  | (_, none) => .next (lost.foldl (loseSteal victim) s)
  | (all, some w) =>
    let all := all ++ lost
    if d.tasks.isEmpty then .next (all.foldl (loseSteal victim) s)
    else
      let (keep, take) := stealTail (canHold s w) d.tasks
      let seen := match rs.find? fun r => r.1 = w with | some r => if det then [r.2.1] else [] | none => []
      let s := s.setDeque victim { d with tasks := keep, tail := d.tail - take.length, version := d.version + 1, served := d.served ++ seen }
      let s := setThief s w Thief.reset
      let s := observe (appendTasks s w take) w victim
      .next ((all.filter fun x => x ≠ w).foldl (loseSteal victim) s)

/-- STEAL_RESTART: after 256 cycles, or once a task has been pushed on its own die, an empty-handed thief starts its order again. -/
def execStealRestart (lcore : Nat) (s : State) : Out :=
  match (thiefOf s lcore).emptyAt with
  | none => .next s
  | some (n, p) =>
    if n + Config.stealWait ≤ s.now.toNat || (s.die (lcore / 64)).pushes ≠ p then .next (setThief s lcore Thief.reset) else .next s

/-! ### Blocked gathered groups (R152) -/

/-- The bytes that a slot's wait looks at: its futures, or its ring's descriptor. -/
def waitKeys (s : State) (g : Group) (sl : Slot) : List Nat :=
  match sl.wait, sl.req with
  | .futWait, some r => (xlateLanes s g r.space .read r.ea 8 (lanesOf r.issued)).2.keys.flatMap Prod.snd
  | .ringPush _, some r | .ringPop _, some r => match ringKeys s g r with | (_, .ok ks) => ks | (_, .error _) => []
  | _, _ => []

/-- The slot stands at a spawn for which its deque has no room. -/
def spawnBlocked (s : State) (g : Group) (sl : Slot) : Bool :=
  sl.wait = .spawn &&
    match (peekWord s g sl.pc).map (decode sl.cls) with
    | some (.ok (.spawn h _ _)) => let m := execLanes g sl h; !dequeRoom s g.lcore (lanesOf (m &&& ~~~loggedLanes g m false)).length
    | some (.ok (.spawnUniform _ _ _)) => !dequeRoom s g.lcore 1
    | _ => false

/-- Does a slot still stand in its wait after a step that would end it? -/
def staysIn (s : State) (gid : Nat) (s1 : Bool) (o : Out) : Bool :=
  let at_ := fun s : State => (s.group? gid).map fun g => ((g.slot s1).pc, (g.slot s1).wait, (g.slot s1).req)
  match o with | .next t => decide (at_ t = at_ s) | _ => false

/-- Blocked as R152 means it: what the slot waits for is not there. An empty slot does not keep the group from being so. -/
def slotStuck (s : State) (gid : Nat) (g : Group) (s1 : Bool) : Bool :=
  let sl := g.slot s1
  sl.isEmpty || spawnBlocked s g sl ||
    (match sl.wait with
     | .futWait => staysIn s gid s1 (execFutWaitWake gid s1 s)
     | .ringPush _ | .ringPop _ => staysIn s gid s1 (execRingWaitResume gid s1 s)
     | _ => false)

def groupStuck (s : State) (gid : Nat) (g : Group) : Bool :=
  g.team.isNone && !g.sup && !g.halted && !g.saving && slotStuck s gid g false && slotStuck s gid g true

/-- Ready tasks wait on the group's core, in any deque that it serves, and none of its group slots is free. -/
def coreCrowded (s : State) (g : Group) : Bool :=
  (s.deques.any fun d => d.2.tasks.any fun t => match tget s.grids t.grid with
    | some gr => decide (physOf gr d.1 = some (g.die, g.core))
    | none => false) && (List.range 4).all fun q => (freeSlots s g.die g.core q).isEmpty

/-- GATHERED_GROUP_SAVE: the wait is noticed, and after 4,096 cycles the group is saved. -/
def execGatheredGroupSave (gid : Nat) (s : State) : Out :=
  match s.group? gid with
  | none => .next s
  | some g =>
    if !groupStuck s gid g then .next (s.setGroup gid { g with blockedAt := none })
    else
      match g.blockedAt with
      | none => .next (s.setGroup gid { g with blockedAt := some s.now.toNat })
      | some n =>
        if n + Config.gatheredWait ≤ s.now.toNat && coreCrowded s g && saveSettled s gid then
          let ks := waitKeys s g g.s0 ++ waitKeys s g g.s1
          let s := s.modGroup gid fun g => { g with watch := some (ks.map fun k => (k, homeByte s k)) }
          .next (trySave (beginSave s gid) gid)
        else .next s

/-- Has something that the saved group waits for changed, or is there room for what it spawns? -/
def watchChanged (s : State) (x : Saved) : Bool :=
  match x.watch with
  | none => false
  | some w => (w.any fun p => homeByte s p.1 ≠ p.2) || x.groups.any fun g =>
      let room := fun sl : Slot => sl.wait = .spawn && !spawnBlocked s g.2 sl
      room g.2.s0 || room g.2.s1

/-- GATHERED_GROUP_RESTORE. -/
def execGatheredGroupRestore (key : Nat) (s : State) : Out :=
  match s.saved.find? fun x => x.key = key with
  | none => .next s
  | some x => if x.team.isNone && watchChanged s x && (s.tenant x.tenant).inSlice then .next ((restoreSaved s x).getD s) else .next s

/-! ### The floor and the digest log (R73, R116, R292, R294) -/

/-- The next retired index that the floor has passed: the lowest. -/
def nextDigest (floor : Option (BitVec 128)) (rs : List Retiree) : Option Retiree :=
  (lowestIdx ((rs.map Retiree.idx).filter fun i => match floor with | some f => decide (i < f) | none => true)).bind fun i =>
    rs.find? fun r => r.idx = i

/-- An entry of the log: the index and the digest. -/
def logEntry (r : Retiree) : List Byte := toBytes r.idx 16 ++ toBytes r.digest 16

def logAddr (t : Tenant) : Addr := t.dglog + BitVec.ofNat 80 (32 * t.dgpos)

/-- The group of a failed replay halts with cause 0x19 (R282). -/
def failReplay (s : State) (r : Retiree) : State := releaseFault s r.src

/-- A mismatch: the index's log is dropped, and its task is to run again, alone; of a team lane the open region runs again, rewound. An escaped
lane, or one with neither, halts. -/
def mismatch (s : State) (grid : Nat) (r : Retiree) : State :=
  let again := fun s : State => s.modGrid grid fun g => { g.dropKids r.effects with again := some { r with effects := [] } }
  let rewound := (s.group? r.src.gid).bind fun g =>
    if g.trapMode || !g.liveMask.getLsbD r.src.lane then none
    else g.region.bind fun rg =>
      if rg.escaped then none
      else some { g.rewind rg s.now.toNat with retiredIdx := g.retiredIdx &&& ~~~(oneLane r.src.lane), replayed := oneLane r.src.lane }
  if r.escaped then failReplay s r
  else
    match r.task, rewound with
    | some _, _ => again s
    | none, some g' =>
      let s := match s.group? r.src.gid with
        | some g => match g.region with | some rg => rewindSpawns s r.src.gid g rg | none => s
        | none => s
      again (s.putPaths r.src.gid g')
    | none, none => failReplay s r

/-- A digest that the floor has passed goes to the log, or is compared with it; where the log's entry does not translate, the comparison
waits (log entry 7). -/
def settleDigest (s : State) (grid : Nat) (gr : Grid) (r : Retiree) : State :=
  let t := s.tenant gr.tenant
  let waits := s
  let s := s.modGrid grid fun g => { g with digests := g.digests.filter fun x => x ≠ r }
  let passed := s.setTenant gr.tenant { t with dgpos := t.dgpos + 1 }
  if t.dgmode = 1#2 then devWrite passed gr.die gr.tenant (logAddr t) (logEntry r)
  else if t.dgmode = 2#2 then
    match devRead s gr.die gr.tenant (logAddr t) 32 with
    | (s', some bs) =>
      if bs = logEntry r then
        let s' := s'.setTenant gr.tenant { s'.tenant gr.tenant with dgpos := t.dgpos + 1 }
        let s' := (s'.modGrid grid fun g => { g with again := none }).modGroup r.src.gid fun g =>
          if gr.again.isSome then { g with replayed := 0#96 } else g
        releaseLog s' r.src r.idx r.effects
      else if gr.again.isSome then failReplay (s'.modGrid grid fun g => { g with again := none }) r
      else mismatch s' grid r
    | (_, none) => waits
  else s

/-- Digests are settled in ascending index order, until a replay must run. -/
def settleDigests (s : State) (grid : Nat) : Nat → State
  | 0 => s
  | n + 1 =>
    match tget s.grids grid with
    | none => s
    | some gr =>
      match gr.again with
      | some a =>
        match gr.digests.find? fun r => r.idx = a.idx with
        | some r => settleDigests (settleDigest s grid gr r) grid n
        | none => s
      | none =>
        match nextDigest (lowestIdx gr.unretired) gr.digests with
        | some r => settleDigests (settleDigest s grid gr r) grid n
        | none => s

/-- The task of a replay runs again alone, from its entry (R294). -/
def startReplay (s : State) (grid : Nat) : State :=
  match tget s.grids grid with
  | none => s
  | some gr =>
    match gr.again with
    | none => s
    | some r =>
      if (s.groups.any fun g => g.2.grid = grid && g.2.replayed ≠ 0#96) || gr.digests.any fun x => x.idx = r.idx then s
      else
        match r.task, (if (s.tenant gr.tenant).inSlice then gatherQuad s gr r.src.die r.src.core gr.record.taskBudget else none) with
        | some t, some q =>
          let s := s.modGrid grid fun g => { g with tasks := g.tasks + 1, liveTasks := g.liveTasks ++ [t.idx] }
          startGathered s gr r.src.lcore r.src.die r.src.core q [t] 1#96
        | _, _ => s

/-- Effects that a retirement released and a full ring or deque, or another module, held back are tried again, in order. A fault ends the
effects of its lane. -/
def retryLate (s : State) (grid : Nat) : List LateEffect → State
  | [] => s
  | e :: r =>
    let put := fun (s : State) (l : List LateEffect) => s.modGrid grid fun g => { g with late := l }
    match e.flit with
    | some (_, false) => s
    | f =>
      match releaseOne s e.src f.isSome e.idx e.eff with
      | (s, .done) => retryLate (put s r) grid r
      | (s', .waits) => if f.isSome then put s' ({ e with flit := none } :: r) else s
      | (s, .away ks) => let (n, s) := sendEffect s e.src ks; put s ({ e with flit := some (n, false) } :: r)
      | (s, .fault) => releaseFault (put s (r.filter fun x => x.src ≠ e.src)) e.src

/-- FLOOR_ADVANCE: the floor rises to the lowest index that has not retired, and the log handles what it has passed. -/
def execFloorAdvance (grid : Nat) (s : State) : Out :=
  match tget s.grids grid with
  | none => .next s
  | some gr =>
    let s := s.modGrid grid fun g => { g with floor := computeFloor s grid gr }
    let s := retryLate s grid gr.late
    .next (startReplay (settleDigests s grid (gr.digests.length + 1)) grid)

end Sys2Proof.Machine
end

