-- ==== Sys2Proof/Machine/Device.lean ====
section
/-! DEFINITION. Soft errors, L2 ways, bandwidth and energy, the host, the fabric, the partition table, the mailbox, boot and the
thermal trip. -/

namespace Sys2Proof.Machine

/-! ### Soft errors (R291, R321) -/

/-- Accesses of a group that have not completed. -/
def groupBusy (s : State) (gid : Nat) : Bool :=
  (s.accs.any fun a => a.gid = gid) || (s.stores.any fun r => r.gid = gid) || (s.flits.any fun f => f.gid = gid) ||
    (s.fences.any fun f => f.gid = gid) || s.lazies.any fun o => o.gid = gid

/-- An uncorrectable error in 64-slice row `row` of a lane. In a row that an open region has written, outside trap mode, the
region rewinds when the group's accesses have completed; an escaped region cannot. Anything else halts the group. -/
def execSoftErrorRewind (gid lane row : Nat) (s : State) : Out :=
  match s.group? gid with
  | none => .next s
  | some g =>
    let halt := fun c => Host.Outcome.next (haltGroup s gid c (g.slot false).pc g.liveMask)
    if g.halted || 96 ≤ lane || 8 ≤ row || g.alloc ≤ 64 * row then .next s
    else
      match g.region with
      | some r =>
        if !r.rows.getLsbD row || g.trapMode then halt cSoftError
        else if r.escaped then halt cTaskFault
        else if groupBusy s gid then .next s
        else .next ((rewindSpawns s gid g r).putPaths gid (g.rewind r s.now.toNat))
      | none => halt cSoftError

/-- Does a loss in a way concern a tenant: its mask holds the way, or the pool does and its mask is empty? -/
def wayConcerns (d : Die) (slice way t : Nat) : Bool :=
  let own := wayMask d slice t
  own.getLsbD way || (own = 0#24 && (poolMask d slice).getLsbD way)

/-- Every group of a tenant that `p` names halts with cause soft-error, those that are saved among them. -/
def haltTenants (s : State) (p : Nat → Bool) : State :=
  let s := (s.groups.filter fun g => p g.2.tenant && !g.2.halted).foldl (fun s g =>
    haltGroup s g.1 cSoftError (g.2.slot false).pc g.2.liveMask) s
  let away := (s.saved.flatMap Saved.groups).filter fun g => p g.2.tenant && !g.2.halted
  let halt := fun g : Nat × Group => if p g.2.tenant then (g.1, { g.2 with halted := true }) else g
  away.foldl (fun s g => (appendRecord s g.2.die (haltRecord g.2 cSoftError (g.2.slot false).pc g.2.liveMask)).1)
    { s with saved := s.saved.map fun x => { x with groups := x.groups.map halt } }

/-- The leased copies in a way of a die's L2 leave it (R61): they are clean. -/
def dropCopies (s : State) (p : Lease → Bool) : State :=
  { s with leases := s.leases.map fun (l : Lease) => if p l then { l with copy := false } else l }

/-- Tag parity fails (R321). A line that the slice does not list is clean. -/
def execL2TagParityFail (die line slice way : Nat) (eccBad : Bool) (s : State) : Out :=
  let here := fun e : L2Line => decide (e.line = line ∧ e.die = die ∧ e.slice = slice ∧ e.way = way)
  let elsewhere := s.l2.any fun e => e.line = line && !here e
  let dirty := eccBad || s.l2.any fun e => here e && e.dirty ≠ 0#4
  if elsewhere then .next s
  else
    let s := { s with l2 := s.l2.filter fun e => !here e }
    let s := dropCopies s fun l => decide (l.line = line ∧ l.die = die ∧ l.slice = slice ∧ l.way = way)
    .next (if dirty then haltTenants s (wayConcerns (s.die die) slice way) else s)

/-- A way's sweep completes (R320): dirty sectors of its lines go to memory, and the lines leave it. -/
def execWaySweepDone (die slice way : Nat) (s : State) : Out :=
  let d := s.die die
  if d.sweeps.any fun w => w.slice = slice && w.way = way then
    let lines := (s.l2.filter fun e => e.die = die && e.slice = slice && e.way = way).map L2Line.line
    let s := lines.foldl (fun s ln => l2Drop (l2WriteBack s ln) ln) s
    let s := dropCopies s fun l => decide (l.die = die ∧ l.slice = slice ∧ l.way = way)
    let d := s.die die
    .next (s.setDie die { d with sweeps := d.sweeps.filter fun w => !(w.slice = slice && w.way = way) })
  else .next s

/-! ### Bandwidth and energy (R322) -/

/-- Windows of 1 µs that have begun, counting from the one that begins at reset. -/
def windowsBegun (s : State) : Nat := s.now.toNat / Config.microsecond

/-- A window begins: every bucket gains its tokens, up to its depth. Bucket of tenant t at controller m: 64 m + t. -/
def execBucketRefill (die : Nat) (s : State) : Out :=
  let d := s.die die
  if windowsBegun s ≤ d.window then .next s
  else
    .next (s.setDie die
      { d with window := d.window + 1,
               tokens := d.buckets.map fun (b : Nat × BitVec 64) =>
                 (b.1, min ((tget d.tokens b.1).getD 0 + (b.2.extractLsb' 0 16).toNat) (b.2.extractLsb' 16 16).toNat) })

/-- Σ e_i × a_i, the activity counts of a window as they may be: they depend on timing (log entry 51). -/
def energyOf (d : Die) (fresh : Nat) : Nat :=
  ((List.range 8).map fun i => (d.coeffs.toList.getD i 0#32).toNat * (Config.freeValue (fresh + i)).toNat).foldl (· + ·) 0

/-- Adds a window's energy to the count of tenant t, in the die's partition table. -/
def addEnergy (die : Nat) (d : Die) (s : State) (t : Nat) : State :=
  let a := d.partTable + BitVec.ofNat 80 (0x3800 + 8 * t)
  let e := energyOf d s.fresh
  let s := { s with fresh := s.fresh + 8 }
  match devRead s die 0 a 8 with
  | (s, some old) => devWrite s die 0 a (toBytes (BitVec.ofNat 64 (natOfBytes old + e)) 8)
  | (s, none) => s

/-- The energy of the window that has ended is added to each tenant's count; the coefficients of the next come into force. -/
def execEnergyAccount (die : Nat) (s : State) : Out :=
  let d := s.die die
  if windowsBegun s ≤ d.accounted then .next s
  else
    let s := if d.coeffs.toList.all fun c => c = 0#32 then s else (List.range 64).foldl (addEnergy die d) s
    let d := s.die die
    .next (s.setDie die { d with accounted := d.accounted + 1, coeffs := d.coeffsNext })

/-! ### The mailbox (R326) -/

def mboxArea (m : Mailbox) (o : Nat) : Byte := (tget m.area o).getD 0#8

/-- The 64 bits at an aligned offset below the message area. -/
def mboxReg (m : Mailbox) (off : Nat) : Word64 :=
  match off with
  | 0x0000 => 0x00010000#64
  | 0x0008 => m.winBase.setWidth 64 <<< 36
  | 0x0010 => (if m.go then 0x80000000#64 else 0#64) ||| m.command.setWidth 64
  | 0x0018 | 0x0020 | 0x0028 | 0x0030 => m.args[(Fin.ofNat 4 ((off - 0x18) / 8))]
  | 0x0040 => (if m.done then 0x80000000#64 else 0#64) ||| (if m.error then 0x40000000#64 else 0#64) ||| m.result.setWidth 64
  | 0x0080 => m.cause
  | 0x0088 => m.mask
  | _ => 0#64

/-- Is a host access to the mailbox an aligned one of 32 or 64 bits? -/
def mboxAligned (off n : Nat) : Bool := (n = 4 || n = 8) && off % n = 0

def mboxRead (m : Mailbox) (off n : Nat) : List Byte :=
  if !mboxAligned off n then List.replicate n 0#8
  else if 0x1000 ≤ off ∧ off < 0x9000 then (upFrom (off - 0x1000) n).map (mboxArea m)
  else ((toBytes (mboxReg m (off / 8 * 8)) 8).drop (off % 8)).take n

/-- Signalled vectors: each sets its cause bit, and is sent unless the mask holds it back. -/
def Mailbox.signal (m : Mailbox) (v : Word64) : Mailbox :=
  { m with cause := m.cause ||| v, heldBack := m.heldBack ||| (v &&& m.mask),
           vectors := m.vectors ++ (List.range 64).filter fun i => (v &&& ~~~m.mask).getLsbD i }

/-- A new interrupt mask: vectors that it no longer holds back, and whose causes still stand, are sent (log entry 53). -/
def Mailbox.setMask (m : Mailbox) (v : Word64) : Mailbox :=
  { m with mask := v, heldBack := m.heldBack &&& v,
           vectors := m.vectors ++ (List.range 64).filter fun i => (m.heldBack &&& m.cause &&& ~~~v).getLsbD i }

def putArea (t : Tab Byte) (b : Nat × Byte) : Tab Byte := if b.2 = 0#8 then tdel t b.1 else tset t b.1 b.2

/-- Bytes written into the message area from an offset on. -/
def Mailbox.put (m : Mailbox) (off : Nat) (bs : List Byte) : Mailbox :=
  { m with area := ((bs.take (0x8000 - off)).zipIdx).foldl (fun t b => putArea t (off + b.2, b.1)) m.area }

/-- The report or snapshot that a command asks for is written into the message area: bytes of the firmware's own, and in an attestation
report the measurements (R329), at a place that is free (log entry 53). -/
def mboxFill (m : Mailbox) (measured : Vector (BitVec 512) 4) (fresh : Nat) : Mailbox :=
  let own := measured.toList.flatMap fun x => toBytes x 64
  if m.command = 1#16 then (m.put 0 (Config.freeBytes fresh)).put ((Config.freeValue fresh).toNat % (0x8000 - own.length + 1)) own
  else if m.command = 2#16 then m.put 0 (Config.freeBytes fresh)
  else m

/-- A write of a register of 64 bits: `v` holds the bytes written, `keep` the bits that the access leaves alone. -/
def mboxPut (s : State) (off : Nat) (v keep : Word64) : State :=
  let m := s.mbox
  let x := (mboxReg m off &&& keep) ||| (v &&& ~~~keep)
  let put := fun m : Mailbox => { s with mbox := m }
  match off with
  | 0x0008 => put { m with winBase := x.extractLsb' 36 20 }
  | 0x0010 =>
    let m := { m with command := x.extractLsb' 0 16 }
    put (if (v &&& ~~~keep).getLsbD 31 then { m with go := true, done := false } else m)
  | 0x0018 | 0x0020 | 0x0028 | 0x0030 => put { m with args := m.args.set (Fin.ofNat 4 ((off - 0x18) / 8)) x }
  | 0x0080 => put { m with cause := m.cause &&& ~~~(v &&& ~~~keep) }
  | 0x0088 => put (m.setMask x)
  | _ => s

/-- A host write to the mailbox: others than aligned 32-bit and 64-bit ones, and those to other offsets, are discarded. -/
def mboxWrite (s : State) (off : Nat) (bs : List Byte) : State :=
  if !mboxAligned off bs.length then s
  else if 0x1000 ≤ off ∧ off < 0x9000 then
    { s with mbox := { s.mbox with
        area := ((bs.zipIdx).map fun (b : Byte × Nat) => (off - 0x1000 + b.2, b.1)).foldl putArea s.mbox.area } }
  else
    let v : Word64 := ofBytes (List.replicate (off % 8) 0#8 ++ bs) 64
    let keep : Word64 := if bs.length = 8 then 0#64 else if off % 8 = 0 then 0xFFFFFFFF00000000#64 else 0xFFFFFFFF#64
    mboxPut s (off / 8 * 8) v keep

/-- The host writes go with a command code. -/
def mboxSubmit (s : State) (code : BitVec 16) : State := mboxPut s 0x10 (0x80000000#64 ||| code.setWidth 64) 0xFFFFFFFF00000000#64

def execMboxNop (s : State) : Out := .next (mboxSubmit s 0#16)
def execMboxAttest (s : State) : Out := .next (mboxSubmit s 1#16)
def execMboxTelemetry (s : State) : Out := .next (mboxSubmit s 2#16)
def execMboxFirmwareCmd (code : BitVec 16) (s : State) : Out := .next (mboxSubmit s code)

/-- The firmware takes a command that the host has submitted, and in a later step finishes it; `result` and `error` are what its code
gives, except for a code that the table leaves undefined. `put` and `vectors` are what the firmware writes to the message area and signals
besides. -/
def execMboxDone (result : BitVec 16) (error : Bool) (vectors : BitVec 64) (put : List (Nat × Byte)) (s : State) : Out :=
  let m := s.mbox
  let m := { m with area := (put.filter fun (b : Nat × Byte) => decide (b.1 < 0x8000)).foldl putArea m.area }
  let m := m.signal (vectors &&& ~~~1#64)
  let undefinedCode := decide (3 ≤ m.command.toNat ∧ m.command.toNat < 0x100)
  if m.taken then
    .next { s with
      fresh := s.fresh + 1,
      mbox := ({ mboxFill m s.measured s.fresh with
        taken := false, done := !m.go, error := undefinedCode || error, result := if undefinedCode then 0xFFFF#16 else result }).signal 1#64 }
  else .next { s with mbox := { m with go := false, taken := m.go } }

def execMboxWindowBase (v : BitVec 64) (s : State) : Out := .next (mboxPut s 0x08 v 0#64)
def execMboxIntCauseClear (v : BitVec 64) (s : State) : Out := .next (mboxPut s 0x80 v 0#64)

/-! ### The host (R108, R325) -/

/-- The physical address that a BAR0 offset reaches. -/
def barAddr (m : Mailbox) (off : Nat) : Nat := (m.winBase.toNat * 2 ^ 36 + off) % 2 ^ 56

/-- A posted write arrives: to the mailbox, or to the module's memory after those before it. -/
def execHostPostedWrite (mbox : Bool) (offset : Nat) (bytes : List Byte) (s : State) : Out :=
  if mbox then .next (mboxWrite s offset bytes)
  else if 2 ^ 36 < offset + bytes.length then .next s
  else
    let p : Posted := { id := none, addr := barAddr s.mbox offset, bytes := bytes }
    .next (drainPosted s (s.posted ++ [p]))

/-- A host read: of the mailbox, or of the physical space at its home. A byte that lies nowhere there is a free value (log entry 55). -/
def execHostRead (mbox : Bool) (offset len : Nat) (s : State) : Out :=
  if mbox then .next { s with hostData := s.hostData ++ [mboxRead s.mbox offset len] }
  else if 2 ^ 36 < offset + len then .next s
  else
    let byte := fun p : Nat × Nat =>
      if hostReaches s p.1 then homeByte s (keyOfPhys s p.1) else (Config.freeValue (s.fresh + p.2)).setWidth 8
    .next { s with hostData := s.hostData ++ [(upFrom (barAddr s.mbox offset) len).zipIdx.map byte], fresh := s.fresh + len }

/-! ### The fabric (R109, R327) -/

/-- A flit may be acknowledged: no lease of ours delays it, and stores of one agent to one byte keep their order. -/
def flitDue (s : State) (f : Flit) : Bool :=
  !(s.leases.any fun l => decide (s.now.toNat < l.expiry) && f.keys.any fun k => lineOf k = l.line) &&
    !(s.flits.any fun q => decide (q.id < f.id) && ((f.eng.isSome && q.eng = f.eng && q.keys.any f.keys.contains) ||
        samePlace f.gid f.agents f.parent f.keys q.gid q.agents q.parent q.keys))

/-- The effect of a retired lane that waits for a flit's answer: its entry says that it has come, or leaves with it when it never will. -/
def State.modFlit (s : State) (n : Nat) (f : LateEffect → Option LateEffect) : State :=
  let one := fun e : LateEffect => if e.flit = some (n, false) then f e else some e
  { s with grids := s.grids.map fun g => (g.1, { g.2 with late := g.2.late.filterMap one }) }

/-- A waiting word of a slot, or an effect of a retired lane, is answered by another module: the word goes on. -/
def waitAnswered (s : State) (f : Flit) : Out :=
  let mine := fun sl : Slot => match sl.req with | some r => decide (r.id = f.id) | none => false
  let s := s.modFlit f.id fun e => some { e with flit := some (f.id, true) }
  match s.group? f.gid with
  | none => .next s
  | some g =>
    if !mine (g.slotIn f.s1 f.trap) then .next s
    else
      let s := s.setGroup f.gid (g.modSlotIn f.s1 f.trap fun sl => { sl with req := sl.req.map fun (r : MemReq) => { r with acked := true } })
      if f.trap = g.trapMode then resumeWait s f.gid f.s1 else .next s

/-- It never will be answered: the word is over, or the effect is lost. -/
def waitFailed (s : State) (f : Flit) : State :=
  let s := s.modFlit f.id fun _ => none
  match (s.group? f.gid).bind fun g => (g.slotIn f.s1 f.trap).req with
  | some r => if r.id = f.id then failWait s f.gid f.s1 f.trap r else s
  | none => s

/-- The remote home has answered: the store or atomic has performed at .sys scope, a load takes its value, and a word that waits goes on. A
store's bytes are in the core's L1 too where that holds the line (R58). -/
def execFabricAck (id : Nat) (s : State) : Out :=
  match s.flits.find? fun f => f.id = id with
  | none => .next s
  | some f =>
    if !flitDue s f then .next s
    else
      let s := { s with flits := s.flits.filter fun x => x.id ≠ id }
      match s.accs.find? fun a => a.id = id with
      | some a => .next (accAnswered s a)
      | none =>
        if f.eng.isNone && f.bytes.isEmpty then waitAnswered s f
        else
          let s := { s with mem := memPuts s.mem f.keys f.bytes }
          .next (settleFences (if f.eng.isSome then l1Shed s f.die f.core f.keys
            else (l1Patches s f.die f.core f.keys f.bytes).reqDone f.gid f.ctr f.parent))

/-- The fabric fault of an engine agent (R109, R299): its program or copy ends, or its run stops. -/
def agentFault (s : State) (agent : Nat) (va : Addr) : State :=
  match s.prog? agent, s.copies.find? fun c => c.id = agent, s.ctxs.find? fun c => c.2.agent = agent with
  | some _, _, _ => progFault s agent dFabric va
  | none, some c, _ => copyFault s c dFabric va
  | none, none, some c => stopRun s c.1 0x09#8 0xFF#8
  | none, none, none => s

/-- A port sends a flit again, up to 8 times; then the access fails as an engine fault of the group or the engine that made it. The handle
that such a fault of a group reports, and what an atomic then returns, are free values (log entry 54). -/
def execFabricRetransmit (id : Nat) (s : State) : Out :=
  match s.flits.find? fun f => f.id = id with
  | none => .next s
  | some f =>
    if f.retries < 8 then
      .next { s with flits := s.flits.map fun x => if x.id = id then { x with retries := x.retries + 1 } else x }
    else
      let s := { s with flits := s.flits.filter fun x => x.id ≠ id }
      match f.eng with
      | some agent => .next (settleFences (agentFault s agent f.va))
      | none =>
        let (h, s) := s.free
        let e : EngineFault :=
          { gid := f.gid, s1 := f.s1, detail := dFabric, addr := f.va, handle := h.setWidth 32, ctr := f.ctr, cont := false, trap := f.trap,
            die := f.die, core := f.core, tenant := f.tenant,
            place := match s.group? f.gid with | some g => placeByte g false f.s1 | none => 0#8 }
        let s := { s with efaults := s.efaults ++ [e] }
        match s.accs.find? fun a => a.id = id with
        | some a => let (v, s) := s.free; .next (accDone s a v)
        | none => .next (settleFences ((if f.bytes.isEmpty then waitFailed s f else s).reqDone f.gid f.ctr f.parent))

/-- The number that stands for other modules among the dies that hold leases. -/
def outsideDie : Nat := 32

/-- A store or atomic of another module performs; it is acknowledged at .mod scope. -/
def remoteStored (s : State) (n : Nat) : State := settleOutside { s with remoteWait := s.remoteWait ++ [n] }

/-- Another module's access arrives at a home in the exported window. -/
def execFabricRemoteAccess (access : RemoteAccess) (addr : Nat) (s : State) : Out :=
  let n := match access with | .read len => len | .write bs => bs.length | .atomic _ w _ _ => elemSize w
  let pas := upFrom (s.expBase + addr) n
  let ks := pas.map (keyOfPhys s)
  if s.expSize < addr + n || !(pas.all (ownMemory s)) then .next s
  else
    match access with
    | .read _ =>
      let bytes := ks.map (homeByteFrom s outsideDie)
      let s := ks.foldl (fun s k => leaseFetch s outsideDie 0 0#2 k) s
      .next { s with remoteData := s.remoteData ++ [bytes] }
    | .write bs =>
      let (id, s) := s.nextId
      .next (remoteStored (storeHome s id 0 ks bs) id)
    | .atomic op w b b2 =>
      let (id, s) := s.nextId
      let (old, s) := applyAtom s { Writer.device id 0 with die := outsideDie } op w ks b b2
      .next (remoteStored { s with remoteData := s.remoteData ++ [toBytes old (elemSize w)] } id)

/-! ### The partition table (R317 to R320) -/

/-- The named section as one snapshot, when a command of that section is busy: the die that it applies to, and its bytes. A
section that cannot be read is rejected (log entry 7). -/
def partSection (s : State) (die sec off n : Nat) : Option (State × Nat × Option (List Byte)) :=
  let d := s.die die
  if !d.partbusy || (d.partcmd.extractLsb' 8 2).toNat ≠ sec then none
  else
    let r := devRead s die 0 (d.partbase + BitVec.ofNat 80 off) n
    some (r.1, (d.partcmd.extractLsb' 0 5).toNat, r.2)

/-- The command ends. -/
def partDone (s : State) (die : Nat) (error : Bool) : Out :=
  .next (s.setDie die { s.die die with partbusy := false, parterror := error })

/-- A section has been applied to a die, whose own table is from now on the one it was read from (log entry 19). -/
def partApplied (s : State) (die dest : Nat) : Out :=
  partDone (s.setDie dest { s.die dest with partTable := (s.die die).partbase }) die false

/-- Owner bytes that differ from those in force wait for their change. -/
def nextOwners (now next : Tab (BitVec 8)) (bs : List Byte) : Tab (BitVec 8) :=
  (bs.zipIdx).foldl (fun (t : Tab (BitVec 8)) (b : Byte × Nat) =>
    if (tget now b.2).getD 0xFF#8 = b.1 then tdel t b.2 else tset t b.2 b.1) next

def quadOwnerOk (b : Byte) : Bool := b = 0xFF#8 || !b.getLsbD 6

def bankOwnerOk (b : Byte) : Bool := b = 0xFF#8 || decide (b.toNat < 64)

def execPartcmdQuadrants (die : Nat) (s : State) : Out :=
  match partSection s die 0 0 256 with
  | none => .next s
  | some (s, dest, some bs) =>
    if bs.all quadOwnerOk then
      let d := s.die dest
      partApplied (settleOwners (s.setDie dest { d with quadNext := nextOwners d.quadOwner d.quadNext bs })) die dest
    else partDone s die true
  | some (s, _, none) => partDone s die true

def execPartcmdBanks (die : Nat) (s : State) : Out :=
  match partSection s die 1 0x100 512 with
  | none => .next s
  | some (s, dest, some bs) =>
    if bs.all bankOwnerOk then
      let d := s.die dest
      partApplied (settleOwners (s.setDie dest { d with bankNext := nextOwners d.bankOwner d.bankNext bs })) die dest
    else partDone s die true
  | some (s, _, none) => partDone s die true

/-- Mask of tenant t in slice i, and of the pool of slice i, in a section of L2 way masks. -/
def maskWord (bs : List Byte) (i t : Nat) : Word32 := BitVec.ofNat 32 (bytesNat bs (256 * i + 4 * t) 4)
def poolWord (bs : List Byte) (i : Nat) : Word32 := BitVec.ofNat 32 (bytesNat bs (0x2000 + 4 * i) 4)

/-- The masks of a slice are good: reserved bits are zero, and no two masks, the pool's among them, share a way. -/
def masksOk (ms : List Word32) : Bool :=
  (ms.all fun m => m.extractLsb' 24 8 = 0#8) &&
    (ms.foldl (fun (p : Bool × Word32) m => (p.1 && p.2 &&& m = 0#32, p.2 ||| m)) (true, 0#32)).1

/-- Who holds a way of a slice: a tenant, 64 for the pool, none. -/
def wayHolder (d : Die) (i w : Nat) : Option Nat :=
  match (List.range 64).find? fun t => (wayMask d i t).getLsbD w with
  | some t => some t
  | none => if (poolMask d i).getLsbD w then some 64 else none

/-- The sweeps that a new set of masks starts: of every way that leaves its holder. -/
def startSweeps (old new : Die) : List Sweep :=
  (List.range 32).flatMap fun i => (List.range 24).filterMap fun w =>
    match wayHolder old i w with
    | some h =>
      if wayHolder new i w = some h || old.sweeps.any fun x => x.slice = i && x.way = w then none
      else some { slice := i, way := w, tenant := h }
    | none => none

def execPartcmdL2Ways (die : Nat) (s : State) : Out :=
  match partSection s die 2 0x400 0x2080 with
  | none => .next s
  | some (s, dest, some bs) =>
    let good := (List.range 32).all fun i => masksOk (poolWord bs i :: (List.range 64).map (maskWord bs i))
    if good then
      let d := s.die dest
      let ways := (List.range 2048).map fun n => (n, (maskWord bs (n / 64) (n % 64)).setWidth 24)
      let d' := { d with ways := ways.filter fun (m : Nat × BitVec 24) => m.2 ≠ 0#24,
                         shared := (List.range 32).map fun i => (i, (poolWord bs i).setWidth 24) }
      partApplied (s.setDie dest { d' with sweeps := d.sweeps ++ startSweeps d d' }) die dest
    else partDone s die true
  | some (s, _, none) => partDone s die true

/-- Buckets take effect at once, coefficients from the next window. -/
def execPartcmdBuckets (die : Nat) (s : State) : Out :=
  match partSection s die 3 0x2480 0x1020 with
  | none => .next s
  | some (s, dest, some bs) =>
    let b := (List.range 512).map fun n => (n, BitVec.ofNat 64 (bytesNat bs (8 * n) 8))
    if b.any fun (x : Nat × BitVec 64) => x.2.extractLsb' 33 31 ≠ 0#31 then partDone s die true
    else if (s.die dest).accounted < windowsBegun s then .next s
    else
      let d := s.die dest
      let tokens := d.tokens.map fun (x : Nat × Nat) => (x.1, min x.2 (((tget b x.1).getD 0#64).extractLsb' 16 16).toNat)
      partApplied (s.setDie dest
        { d with buckets := b, tokens := tokens,
                 coeffsNext := Vector.ofFn fun i : Fin 8 => BitVec.ofNat 32 (bytesNat bs (0x1000 + 4 * i.val) 4) }) die dest
  | some (s, _, none) => partDone s die true

/-! ### Boot and the thermal trip (R329, R330) -/

/-- The machine at reset, with the memory, the turns and the counters of free values and records that it has. -/
def State.restart (s : State) : State :=
  { State.reset with mem := s.mem.filter fun c => decide (c.1 < 2 ^ 56), turns := s.turns, fresh := s.fresh, seqNo := s.seqNo }

/-- A measurement register after a digest has been extended into it: the manual does not give the function. -/
def extended (fresh : Nat) : BitVec 512 :=
  (List.range 8).foldl (fun (x : BitVec 512) i => x <<< 64 ||| (Config.freeValue (fresh + 1 + i)).setWidth 512) 0#512

/-- The group that stands for management core n (log entry 50). -/
def managementCore (s : State) (n : Nat) : Group :=
  let gr : Grid := { noGrid with die := (Config.freeValue (s.fresh + 2 * n + 1)).toNat % Config.dies }
  let entry : Addr := (Config.freeValue (s.fresh + 2 * n)).setWidth 80 <<< 3
  { Group.start (s.tenant 0) s.now.toNat 0#80 gr entry 1#96 with sup := true, grid := 2 ^ 32, prio := 3, core := 1600 + n }

/-- A window that the supervisor sets within `pages` pages of 4 KiB: its base and its size (R47; log entry 17). -/
def windowOf (fresh pages : Nat) : Nat × Nat :=
  let base := (Config.freeValue fresh).toNat % (pages + 1)
  (base * 4096, (Config.freeValue (fresh + 1)).toNat % (pages - base + 1) * 4096)

/-- The supervisor sets every die's striped reserve and the module's exported window. -/
def setWindows (s : State) : State :=
  let s := (List.range Config.dies).foldl (fun s d =>
    let w := windowOf (s.fresh + 2 * d) (48 * 2 ^ 18)
    s.setDie d { s.die d with reserveBase := w.1, reserveSize := w.2 }) s
  let w := windowOf (s.fresh + 2 * Config.dies) (2 ^ 44)
  { s with expBase := w.1, expSize := min w.2 (2 ^ 46), fresh := s.fresh + 2 * Config.dies + 2 }

/-- The supervisor starts on the 4 management cores. -/
def startSupervisor (s : State) : State :=
  let s := (List.range 4).foldl (fun s n =>
    { s with groups := tset s.groups s.seqNo (managementCore s n), seqNo := s.seqNo + 1 }) s
  setWindows { s with fresh := s.fresh + 8, boot := .running }

/-- RESET_BOOT: the next stage of the boot; when the boot has ended, or the module has tripped, the reset. One image is
verified in a stage: whether it verifies, and whether it is the last, are free. -/
def execResetBoot (s : State) : Out :=
  if s.tripped then .next s.restart
  else
    match s.boot with
    | .rom => .next { s with boot := .images 0 }
    | .images n =>
      let v := Config.freeValue s.fresh
      let next := { s with fresh := s.fresh + 9, measured := s.measured.set (Fin.ofNat 4 n) (extended s.fresh) }
      if v.getLsbD 0 then
        .next { next with boot := if v.getLsbD 1 then .trained else .images (n + 1) }
      else .next { next with boot := .failed, reports := s.reports ++ [n] }
    | .trained => .next { s with boot := .diesUp }
    | .diesUp => .next (startSupervisor s)
    | .running | .failed => .next s.restart

/-- THERMAL_TRIP: only memory survives; every clock stops until a reset. -/
def execThermalTrip (s : State) : Out := .next { s.restart with tripped := true }

end Sys2Proof.Machine
end

