-- ==== Sys2Proof/Machine/Lazy.lean ====
section
/-! DEFINITION. Lazy-uniform values: drawing, comparing, extending, reading and rounding with them (R205, R210 to R222,
R281). -/

namespace Sys2Proof.Machine

def Group.view (g : Group) (l : Lane) (v : BitVec 3) : View := g.sliceRead l (viewStart v).toNat 256

/-- What a lane of a lazy instruction settles: its value, its view afterwards, its flags. -/
structure Lazy where
  val : BitVec 64
  view : View
  flags : FFlags
  deriving DecidableEq, Repr

/-- R216. -/
def execLzdraw (h : Head) (view : BitVec 3) (a b : Src) (s : State) : Out :=
  gate (.lzdraw h view a b) s fun s gid s1 g sl sh =>
    let m := execLanes g sl h
    let g := g.sliceWrite m (viewStart view).toNat fun l =>
      View.fresh ((readSrc s g sl l a 32).setWidth 24) (readSrc s g sl l b 32)
    .next (s.setGroup gid (g.done s1 sh))

/-- The updated view in the lanes of `ok`. -/
def Group.putView (g : Group) (op : LazyOp) (ok : Mask) : Group :=
  let changed := ok &&& maskOf fun l => decide (g.view l op.view ≠ op.views[l])
  g.sliceWrite changed (viewStart op.view).toNat fun l => op.views[l]

/-- The predicate, or the destination and latch, in the lanes of `ok`. -/
def Group.putOutcome (g : Group) (op : LazyOp) (ok : Mask) : Group :=
  match wordShape op.instr with
  | some sh =>
    match sh.pdst, sh.dst with
    | some (.p p), _ => g.setPred p ok (maskOf fun l => op.vals[l].getLsbD 0)
    | none, some (d, n) =>
      let low := (lowest? op.lanes).getD 0
      let g :=
        if sh.head.sup then g
        else
          match d with
          | .slice st => g.sliceWrite ok st.toNat fun l => (op.vals[l].setWidth n : BitVec n)
          | .ureg k => if ok = op.lanes then g.kwrite op.s1 k.toNat (op.vals[low].setWidth n : BitVec n) else g
      g.latchWrite ok op.latch.toNat sh.head.w fun l => (op.vals[l].setWidth n : BitVec n)
    | _, _ => g
  | none => g

/-- The results of a lazy operation in the lanes of `ok`, in the bank that the word's names reached (R133): lzval writes its view and then
D (R220), the others D and then the view (R121, R205, R217). -/
def Group.putLazy (g : Group) (op : LazyOp) (ok : Mask) : Group :=
  g.inBank op.trap fun g =>
    match op.instr with
    | .lzval _ _ _ _ => (g.putView op ok).putOutcome op ok
    | _ => (g.putOutcome op ok).putView op ok

/-- The lanes of an operation that take a floating-point trap now. -/
def lazyTraps (g : Group) (op : LazyOp) : Mask := flagTraps g op.lanes fun l => op.flags[l]

/-- The trap that an operation takes at its word: the other lanes' results are written, every lane's flags are raised. -/
def lazyTrap (s : State) (gid : Nat) (g : Group) (op : LazyOp) (sh : Shape) (t : Mask) : State :=
  let fl := fun l : Lane => op.flags[l]
  let g := (g.putLazy op (op.lanes &&& ~~~t)).raise (orFlags op.lanes fl)
  trapWord (s.setGroup gid g) gid op.s1 op.instr sh cFloat ((orFlags t fl &&& trapEnables g).setWidth 8) t false

/-- A lazy word: the views are checked, the results settled; they are written at completion. Where a trap that only
completion shows is enabled the slot waits at the word (R281). -/
def lazyWord (i : Instr) (s : State) (view : BitVec 3) (f : State → Group → Slot → Lane → View → Lazy) : Out :=
  gate i s fun s gid s1 g sl sh =>
    let m := execLanes g sl sh.head
    let bad := m &&& maskOf fun l => (g.view l view).malformed
    if m = 0#96 then .next (s.setGroup gid (g.done s1 sh))
    else if bad ≠ 0#96 then .next (trapWord s gid s1 i sh cLazyState 0#8 bad true)
    else
      let r : Lanes Lazy := Vector.ofFn fun l =>
        if m.getLsbD l.val then f s g sl l (g.view l view) else { val := 0#64, view := 0#256, flags := fNone }
      let te := trapEnables g
      let op : LazyOp :=
        { id := s.seqNo, gid := gid, s1 := s1, instr := i, lanes := m, vals := Vector.ofFn fun l => r[l].val, view := view,
          views := Vector.ofFn fun l => r[l].view, flags := Vector.ofFn fun l => r[l].flags,
          latch := BitVec.ofNat 3 sl.latchNo, hold := decide (te &&& (fLzx ||| fNx) ≠ 0#6), ctr := sh.head.ctr, trap := g.trapMode }
      let t := lazyTraps g op
      if !op.hold && decide (t ≠ 0#96) then .next (lazyTrap s.nextId.2 gid g op sh t)
      else
        let g := g.ctrUp op.ctr
        let g := if op.hold then g.modSlot s1 fun x => { x with wait := .lazy } else g.done s1 sh
        let s := s.nextId.2.setGroup gid g
        .next { s with lazies := s.lazies ++ [op] }

/-- The threshold of a comparison: a NaN, or its exact value (R217). -/
def threshold (s : State) (g : Group) (sl : Slot) (l : Lane) (h : Head) (b : Src) (fixed : Bool) : FVal :=
  if fixed then .fin false (mkRat (readSrc s g sl l b (wBits h.w)).toNat (2 ^ wBits h.w))
  else decodeF (Format.ofW h.w) (readBitsF s g sl l b (Format.ofW h.w))

/-- u < x, with the view extended by the digits examined (R217). -/
def compareView (key : BitVec 128) (v : View) (x : FVal) : Lazy :=
  match x with
  | .nan _ => { val := 0#64, view := v, flags := fNv }
  | .inf neg => { val := if neg then 0#64 else 1#64, view := v, flags := fNone }
  | .fin neg q =>
    if neg || q = 0 then { val := 0#64, view := v, flags := fNone }
    else if 1 ≤ q then { val := 1#64, view := v, flags := fNone }
    else
      let r := v.less key q false
      { val := if r.1 then 1#64 else 0#64, view := v.extend key r.2.2, flags := if r.2.1 then fLzx else fNone }

def execLzcmp (h : Head) (p view : BitVec 3) (b : Src) (fixed : Bool) (s : State) : Out :=
  lazyWord (.lzcmp h p view b fixed) s view fun s g sl l v => compareView g.agkey v (threshold s g sl l h b fixed)

/-- R219. -/
def execLzcmpExt (h : Head) (view : BitVec 3) (b : Src) (s : State) : Out :=
  lazyWord (.lzcmpExt h view b) s view fun s g sl l v =>
    { val := 0#64, view := v.extend g.agkey (readSrc s g sl l b 32).toNat, flags := fNone }

/-- The value of a view's first 48 digits (R220). -/
def View.value48 (v : View) : Rat :=
  mkRat ((List.range 48).foldl (fun n i => n * 16 + (getField v (4 * i) 4).toNat) 0) (16 ^ 48)

def execLzval (h : Head) (d : Dst) (view rm : BitVec 3) (s : State) : Out :=
  lazyWord (.lzval h d view rm) s view fun _ g _ _ v =>
    let v := v.extend g.agkey 48
    let r := roundReal (Format.ofW h.w) (fpModeNoSr g rm) (ftzOn g) false v.value48 false noOracle
    { val := BitVec.ofNat 64 r.bits, view := v, flags := r.flags }

/-- The distance from the lower neighbour, in units, that a stochastic rounding compares with its value: none where the value
is exact or is not rounded stochastically (R183). -/
def srndAsks (f : Format) (x : FVal) : Option Rat :=
  match x with
  | .fin neg q =>
    if q = 0 ∨ (neg ∧ !f.signed) ∨ f.maxMag < q then none
    else
      let sc := q / pow2 (max (ilog2 q) f.eMin - f.mBits)
      let fr := sc - (sc.floor.toNat : Rat)
      if fr = 0 then none else some fr
  | _ => none

/-- srnd: the rounding's question is asked of the view, which keeps the digits examined (R205). -/
def execSrnd (h : Head) (d : Dst) (a : Src) (view df sf : BitVec 3) (s : State) : Out :=
  lazyWord (.srnd h d a view df sf) s view fun s g sl l v =>
    let f := Format.ofCode df
    let x := readF s g sl l a (Format.ofCode sf)
    let o : Oracle := fun q more => v.less g.agkey q more
    let r := convTo f .sr (ftzOn g) x o
    { val := BitVec.ofNat 64 r.bits, view := (srndAsks f x).elim v fun q => v.extend g.agkey (v.less g.agkey q false).2.2,
      flags := r.flags }

/-- The lanes of an operation that held its slot for a trap and that its completion shows to trap, outside trap mode. -/
def heldTraps (g : Group) (op : LazyOp) : Mask :=
  if op.hold then op.lanes &&& maskOf fun l => decide (op.flags[l] &&& g.fpctl.extractLsb' 8 6 ≠ 0#6) else 0#96

/-- The results of a lazy instruction are written (R221); a trap that its completion shows is taken now, before a save that has stopped the
group goes on (R281, R285). Where the other slot's trap came first, the word has had no effect and issues again after rtt: it reaches the
same outcome (R221, R288). -/
def execLazyInstructionComplete (id : Nat) (s : State) : Out :=
  match s.lazies.find? fun o => o.id = id with
  | none => .next s
  | some op =>
    let s' := { s with lazies := s.lazies.filter fun o => o.id ≠ id }
    match s.group? op.gid, wordShape op.instr with
    | some g, some sh =>
      let t := heldTraps g op
      let free := g.modSlotIn op.s1 op.trap fun x => { x with wait := .ready }
      if t = 0#96 then
        let g := (g.putLazy op op.lanes).raise (orFlags op.lanes fun l => op.flags[l])
        let g := if op.hold then g.modSlotIn op.s1 op.trap fun sl => sl.advance sh.res else g
        .next (s'.setGroup op.gid (g.ctrDown op.ctr))
      else if g.halted then .next s'
      else if g.trapMode then .next (s'.setGroup op.gid (free.ctrDown op.ctr))
      else .next ((lazyTrap (s'.setGroup op.gid free) op.gid free op sh t).ctrDown op.gid op.ctr)
    | _, _ => .next s'

end Sys2Proof.Machine
end

