-- ==== Sys2Proof/Machine/Dispatch.lean ====
section
/-! DEFINITION. The meaning of each instruction, by one arm. -/

namespace Sys2Proof.Machine

def exec (i : Instr) (s : State) : Host.Outcome State Fault Refusal :=
  match i with
  | .clauseIssue cls cnt wait yld => Sys2Proof.Machine.execClauseIssue cls cnt wait yld s
  | .issueChoice quad => Sys2Proof.Machine.execIssueChoice quad s
  | .readyWaitExpiry gid s1 => Sys2Proof.Machine.execReadyWaitExpiry gid s1 s
  | .pathRotation gid => Sys2Proof.Machine.execPathRotation gid s
  | .faultQueueSpace die => Sys2Proof.Machine.execFaultQueueSpace die s
  | .tlbWalk who va kind => Sys2Proof.Machine.execTlbWalk who va kind s
  | .pendingRetry gid s1 => Sys2Proof.Machine.execPendingRetry gid s1 s
  | .memAccessComplete id => Sys2Proof.Machine.execMemAccessComplete id s
  | .storeReachHome id => Sys2Proof.Machine.execStoreReachHome id s
  | .leaseExpiry line => Sys2Proof.Machine.execLeaseExpiry line s
  | .leaseCopyDrop die line => Sys2Proof.Machine.execLeaseCopyDrop die line s
  | .oabAdmit id => Sys2Proof.Machine.execOabAdmit id s
  | .floorAdvance grid => Sys2Proof.Machine.execFloorAdvance grid s
  | .carveChangeComplete core => Sys2Proof.Machine.execCarveChangeComplete core s
  | .claimGrant quad => Sys2Proof.Machine.execClaimGrant quad s
  | .tagExpiry quad => Sys2Proof.Machine.execTagExpiry quad s
  | .sleepExpiry gid s1 => Sys2Proof.Machine.execSleepExpiry gid s1 s
  | .futWaitWake gid s1 => Sys2Proof.Machine.execFutWaitWake gid s1 s
  | .ringWaitResume gid s1 => Sys2Proof.Machine.execRingWaitResume gid s1 s
  | .cpyComplete id => Sys2Proof.Machine.execCpyComplete id s
  | .tlbinvComplete id => Sys2Proof.Machine.execTlbinvComplete id s
  | .tableBankLoad quad => Sys2Proof.Machine.execTableBankLoad quad s
  | .matrixOpStart quad => Sys2Proof.Machine.execMatrixOpStart quad s
  | .rowGroupDone quad => Sys2Proof.Machine.execRowGroupDone quad s
  | .engineProgramStart pid => Sys2Proof.Machine.execEngineProgramStart pid s
  | .engineProgramEnd pid => Sys2Proof.Machine.execEngineProgramEnd pid s
  | .engineFaultDelivery gid s1 => Sys2Proof.Machine.execEngineFaultDelivery gid s1 s
  | .engineTranslationStop id => Sys2Proof.Machine.execEngineTranslationStop id s
  | .stepCallDeliver ctx => Sys2Proof.Machine.execStepCallDeliver ctx s
  | .stepCombinationDone ctx => Sys2Proof.Machine.execStepCombinationDone ctx s
  | .tokenPoll die => Sys2Proof.Machine.execTokenPoll die s
  | .teamPlacement die => Sys2Proof.Machine.execTeamPlacement die s
  | .gridComplete grid => Sys2Proof.Machine.execGridComplete grid s
  | .timeSliceSave die => Sys2Proof.Machine.execTimeSliceSave die s
  | .tenantDrainDeadline tenant => Sys2Proof.Machine.execTenantDrainDeadline tenant s
  | .saveSlotRetry tenant => Sys2Proof.Machine.execSaveSlotRetry tenant s
  | .tgaFormGroup lcore => Sys2Proof.Machine.execTgaFormGroup lcore s
  | .stealRequest lcore => Sys2Proof.Machine.execStealRequest lcore s
  | .stealServe victim => Sys2Proof.Machine.execStealServe victim s
  | .stealRestart lcore => Sys2Proof.Machine.execStealRestart lcore s
  | .gatheredGroupSave gid => Sys2Proof.Machine.execGatheredGroupSave gid s
  | .gatheredGroupRestore team => Sys2Proof.Machine.execGatheredGroupRestore team s
  | .softErrorRewind gid lane row => Sys2Proof.Machine.execSoftErrorRewind gid lane row s
  | .l2TagParityFail die line slice way eccBad => Sys2Proof.Machine.execL2TagParityFail die line slice way eccBad s
  | .waySweepDone die slice way => Sys2Proof.Machine.execWaySweepDone die slice way s
  | .bucketRefill die => Sys2Proof.Machine.execBucketRefill die s
  | .energyAccount die => Sys2Proof.Machine.execEnergyAccount die s
  | .hostPostedWrite mbox offset bytes => Sys2Proof.Machine.execHostPostedWrite mbox offset bytes s
  | .hostRead mbox offset len => Sys2Proof.Machine.execHostRead mbox offset len s
  | .fabricAck id => Sys2Proof.Machine.execFabricAck id s
  | .fabricRetransmit id => Sys2Proof.Machine.execFabricRetransmit id s
  | .partcmdQuadrants die => Sys2Proof.Machine.execPartcmdQuadrants die s
  | .partcmdBanks die => Sys2Proof.Machine.execPartcmdBanks die s
  | .partcmdL2Ways die => Sys2Proof.Machine.execPartcmdL2Ways die s
  | .partcmdBuckets die => Sys2Proof.Machine.execPartcmdBuckets die s
  | .mboxFirmwareCmd code => Sys2Proof.Machine.execMboxFirmwareCmd code s
  | .mboxDone result error vectors put => Sys2Proof.Machine.execMboxDone result error vectors put s
  | .mboxWindowBase v => Sys2Proof.Machine.execMboxWindowBase v s
  | .mboxIntCauseClear v => Sys2Proof.Machine.execMboxIntCauseClear v s
  | .wrsrFpctl h a => Sys2Proof.Machine.execWrsrFpctl h a s
  | .wrsrFpflags h a => Sys2Proof.Machine.execWrsrFpflags h a s
  | .rdsrFpflags h d => Sys2Proof.Machine.execRdsrFpflags h d s
  | .rdsrClock0 h d => Sys2Proof.Machine.execRdsrClock0 h d s
  | .wrsrUtrap h word a => Sys2Proof.Machine.execWrsrUtrap h word a s
  | .maskWrite h beat imm => Sys2Proof.Machine.execMaskWrite h beat imm s
  | .mfqheadWrite h a => Sys2Proof.Machine.execMfqheadWrite h a s
  | .nop h => Sys2Proof.Machine.execNop h s
  | .mov h d a => Sys2Proof.Machine.execMov h d a s
  | .movi h d imm => Sys2Proof.Machine.execMovi h d imm s
  | .sel h d a b p => Sys2Proof.Machine.execSel h d a b p s
  | .iadd h d a b sat sg => Sys2Proof.Machine.execIadd h d a b sat sg s
  | .isub h d a b sat sg => Sys2Proof.Machine.execIsub h d a b sat sg s
  | .imul h d a b sg => Sys2Proof.Machine.execImul h d a b sg s
  | .imulh h d a b sg => Sys2Proof.Machine.execImulh h d a b sg s
  | .imad h d a b c => Sys2Proof.Machine.execImad h d a b c s
  | .imin h d a b sg => Sys2Proof.Machine.execImin h d a b sg s
  | .imax h d a b sg => Sys2Proof.Machine.execImax h d a b sg s
  | .iabs h d a sat => Sys2Proof.Machine.execIabs h d a sat s
  | .shl h d a b => Sys2Proof.Machine.execShl h d a b s
  | .shr h d a b => Sys2Proof.Machine.execShr h d a b s
  | .sar h d a b => Sys2Proof.Machine.execSar h d a b s
  | .rot h d a b => Sys2Proof.Machine.execRot h d a b s
  | .and h d a b => Sys2Proof.Machine.execAnd h d a b s
  | .or h d a b => Sys2Proof.Machine.execOr h d a b s
  | .xor h d a b => Sys2Proof.Machine.execXor h d a b s
  | .not h d a => Sys2Proof.Machine.execNot h d a s
  | .lop3 h d a b table => Sys2Proof.Machine.execLop3 h d a b table s
  | .bfx h d a b sg => Sys2Proof.Machine.execBfx h d a b sg s
  | .bfi h d a b c => Sys2Proof.Machine.execBfi h d a b c s
  | .popc h d a => Sys2Proof.Machine.execPopc h d a s
  | .clz h d a => Sys2Proof.Machine.execClz h d a s
  | .brev h d a => Sys2Proof.Machine.execBrev h d a s
  | .lea h d a b sh sg => Sys2Proof.Machine.execLea h d a b sh sg s
  | .isetp h p a b cond sg => Sys2Proof.Machine.execIsetp h p a b cond sg s
  | .iaddi h d a imm => Sys2Proof.Machine.execIaddi h d a imm s
  | .shfl h d a b mode => Sys2Proof.Machine.execShfl h d a b mode s
  | .vote h p a mode => Sys2Proof.Machine.execVote h p a mode s
  | .voteBallot h k a => Sys2Proof.Machine.execVoteBallot h k a s
  | .redx h d a op rm sg => Sys2Proof.Machine.execRedx h d a op rm sg s
  | .fadd h d a b rm => Sys2Proof.Machine.execFadd h d a b rm s
  | .fsub h d a b rm => Sys2Proof.Machine.execFsub h d a b rm s
  | .fmul h d a b rm => Sys2Proof.Machine.execFmul h d a b rm s
  | .ffma h d a b c => Sys2Proof.Machine.execFfma h d a b c s
  | .fmin h d a b => Sys2Proof.Machine.execFmin h d a b s
  | .fmax h d a b => Sys2Proof.Machine.execFmax h d a b s
  | .fsetp h p a b cond => Sys2Proof.Machine.execFsetp h p a b cond s
  | .fdiv h d a b rm => Sys2Proof.Machine.execFdiv h d a b rm s
  | .fsqrt h d a rm => Sys2Proof.Machine.execFsqrt h d a rm s
  | .frcp h d a rm => Sys2Proof.Machine.execFrcp h d a rm s
  | .frsq h d a rm => Sys2Proof.Machine.execFrsq h d a rm s
  | .fex2 h d a rm => Sys2Proof.Machine.execFex2 h d a rm s
  | .flg2 h d a rm => Sys2Proof.Machine.execFlg2 h d a rm s
  | .fsin h d a rm => Sys2Proof.Machine.execFsin h d a rm s
  | .fcos h d a rm => Sys2Proof.Machine.execFcos h d a rm s
  | .frnd h d a exact rm => Sys2Proof.Machine.execFrnd h d a exact rm s
  | .fcls h d a => Sys2Proof.Machine.execFcls h d a s
  | .fcvt h d a df sf sat rm => Sys2Proof.Machine.execFcvt h d a df sf sat rm s
  | .icvt h d a df sw sg rm => Sys2Proof.Machine.execIcvt h d a df sw sg rm s
  | .fcvti h d a sf sg rm => Sys2Proof.Machine.execFcvti h d a sf sg rm s
  | .blkq h d a b ef sf rm => Sys2Proof.Machine.execBlkq h d a b ef sf rm s
  | .blkdq h d a b df ef rm => Sys2Proof.Machine.execBlkdq h d a b df ef rm s
  | .bscale h d a ef sf => Sys2Proof.Machine.execBscale h d a ef sf s
  | .srnd h d a view df sf => Sys2Proof.Machine.execSrnd h d a view df sf s
  | .pack h d a mode sg sw => Sys2Proof.Machine.execPack h d a mode sg sw s
  | .unpack h d a sg sw => Sys2Proof.Machine.execUnpack h d a sg sw s
  | .tbld h k mask sp => Sys2Proof.Machine.execTbld h k mask sp s
  | .tbind h => Sys2Proof.Machine.execTbind h s
  | .teval h d a t rm => Sys2Proof.Machine.execTeval h d a t rm s
  | .lzdraw h view a b => Sys2Proof.Machine.execLzdraw h view a b s
  | .lzcmp h p view b fixed => Sys2Proof.Machine.execLzcmp h p view b fixed s
  | .lzcmpExt h view b => Sys2Proof.Machine.execLzcmpExt h view b s
  | .lzval h d view rm => Sys2Proof.Machine.execLzval h d view rm s
  | .ld h d a b sp pol disp => Sys2Proof.Machine.execLd h d a b sp pol disp s
  | .st h a b sp pol disp => Sys2Proof.Machine.execSt h a b sp pol disp s
  | .ldu h d a sp pol disp => Sys2Proof.Machine.execLdu h d a sp pol disp s
  | .gth h d a b sp pol disp => Sys2Proof.Machine.execGth h d a b sp pol disp s
  | .sct h data a b sp pol disp => Sys2Proof.Machine.execSct h data a b sp pol disp s
  | .atom h d a b sp pol op => Sys2Proof.Machine.execAtom h d a b sp pol op s
  | .atomo h d a b pol op => Sys2Proof.Machine.execAtomo h d a b pol op s
  | .atomoFin h => Sys2Proof.Machine.execAtomoFin h s
  | .fence h pred succ scope => Sys2Proof.Machine.execFence h pred succ scope s
  | .cpy h dk ak len ssp pol dsp => Sys2Proof.Machine.execCpy h dk ak len ssp pol dsp s
  | .cpyCont h dk ak len ssp pol dsp => Sys2Proof.Machine.execCpyCont h dk ak len ssp pol dsp s
  | .pref h a b sp pol disp => Sys2Proof.Machine.execPref h a b sp pol disp s
  | .cmntWb h a b sp disp => Sys2Proof.Machine.execCmntWb h a b sp disp s
  | .cmntInv h a b sp disp => Sys2Proof.Machine.execCmntInv h a b sp disp s
  | .cmntL2wb h a b sp disp => Sys2Proof.Machine.execCmntL2wb h a b sp disp s
  | .cmntL2inv h a b sp disp => Sys2Proof.Machine.execCmntL2inv h a b sp disp s
  | .spill h n1 a f pol disp => Sys2Proof.Machine.execSpill h n1 a f pol disp s
  | .fill h n1 a f pol disp => Sys2Proof.Machine.execFill h n1 a f pol disp s
  | .ringPush h a b sp pol => Sys2Proof.Machine.execRingPush h a b sp pol s
  | .ringPop h d a sp pol => Sys2Proof.Machine.execRingPop h d a sp pol s
  | .futFill h a b sp pol => Sys2Proof.Machine.execFutFill h a b sp pol s
  | .futWait h d a sp pol => Sys2Proof.Machine.execFutWait h d a sp pol s
  | .bra h target reconv hint => Sys2Proof.Machine.execBra h target reconv hint s
  | .braUniform h target reconv hint => Sys2Proof.Machine.execBraUniform h target reconv hint s
  | .brx h a reconv hint ug => Sys2Proof.Machine.execBrx h a reconv hint ug s
  | .call h target reconv hint => Sys2Proof.Machine.execCall h target reconv hint s
  | .callUniform h target reconv hint => Sys2Proof.Machine.execCallUniform h target reconv hint s
  | .callx h a reconv hint ug => Sys2Proof.Machine.execCallx h a reconv hint ug s
  | .ret h => Sys2Proof.Machine.execRet h s
  | .exit h => Sys2Proof.Machine.execExit h s
  | .exitUniform h => Sys2Proof.Machine.execExitUniform h s
  | .yield h => Sys2Proof.Machine.execYield h s
  | .barArrive h a b => Sys2Proof.Machine.execBarArrive h a b s
  | .barWait h a => Sys2Proof.Machine.execBarWait h a s
  | .barSync h a b => Sys2Proof.Machine.execBarSync h a b s
  | .sleep h a => Sys2Proof.Machine.execSleep h a s
  | .trap h a => Sys2Proof.Machine.execTrap h a s
  | .bkpt h a => Sys2Proof.Machine.execBkpt h a s
  | .rtt h => Sys2Proof.Machine.execRtt h s
  | .rttSub h a => Sys2Proof.Machine.execRttSub h a s
  | .rttSkip h => Sys2Proof.Machine.execRttSkip h s
  | .forkMx h d a b n => Sys2Proof.Machine.execForkMx h d a b n s
  | .forkCp h d a b n => Sys2Proof.Machine.execForkCp h d a b n s
  | .forkCl h d a b n => Sys2Proof.Machine.execForkCl h d a b n s
  | .rdv h d a => Sys2Proof.Machine.execRdv h d a s
  | .mfeedDat h tile row a b => Sys2Proof.Machine.execMfeedDat h tile row a b s
  | .mfeedScl h tile row a b => Sys2Proof.Machine.execMfeedScl h tile row a b s
  | .mfeedBand h tile a b => Sys2Proof.Machine.execMfeedBand h tile a b s
  | .mfeedQ h tile row a b => Sys2Proof.Machine.execMfeedQ h tile row a b s
  | .mwm h d tile => Sys2Proof.Machine.execMwm h d tile s
  | .stepLdtab h a sp => Sys2Proof.Machine.execStepLdtab h a sp s
  | .stepBind h a sp => Sys2Proof.Machine.execStepBind h a sp s
  | .stepRun h a sp => Sys2Proof.Machine.execStepRun h a sp s
  | .stepWait h => Sys2Proof.Machine.execStepWait h s
  | .stepDone h => Sys2Proof.Machine.execStepDone h s
  | .stepQry h d t => Sys2Proof.Machine.execStepQry h d t s
  | .stepStat h d sp => Sys2Proof.Machine.execStepStat h d sp s
  | .stepStop h => Sys2Proof.Machine.execStepStop h s
  | .spawn h a f => Sys2Proof.Machine.execSpawn h a f s
  | .spawnUniform h a b => Sys2Proof.Machine.execSpawnUniform h a b s
  | .tend h => Sys2Proof.Machine.execTend h s
  | .claim h n => Sys2Proof.Machine.execClaim h n s
  | .give h n => Sys2Proof.Machine.execGive h n s
  | .giveRole h n r => Sys2Proof.Machine.execGiveRole h n r s
  | .regionBegin h => Sys2Proof.Machine.execRegionBegin h s
  | .regionEnd h => Sys2Proof.Machine.execRegionEnd h s
  | .digestRd h d n => Sys2Proof.Machine.execDigestRd h d n s
  | .digestFold h a => Sys2Proof.Machine.execDigestFold h a s
  | .rdsr h d num => Sys2Proof.Machine.execRdsr h d num s
  | .wrsr h num a => Sys2Proof.Machine.execWrsr h num a s
  | .sysLaunch h a b sp => Sys2Proof.Machine.execSysLaunch h a b sp s
  | .sysTlbinv h a b sc => Sys2Proof.Machine.execSysTlbinv h a b sc s
  | .sysCarve h a => Sys2Proof.Machine.execSysCarve h a s
  | .sysHalt h a => Sys2Proof.Machine.execSysHalt h a s
  | .sysReplay h a => Sys2Proof.Machine.execSysReplay h a s
  | .sysEfail h a => Sys2Proof.Machine.execSysEfail h a s
  | .sysDebug h a b => Sys2Proof.Machine.execSysDebug h a b s
  | .sysSlice h a b => Sys2Proof.Machine.execSysSlice h a b s
  | .smov d a => Sys2Proof.Machine.execSmov d a s
  | .smovi d imm => Sys2Proof.Machine.execSmovi d imm s
  | .sadd d a b => Sys2Proof.Machine.execSadd d a b s
  | .saddi d a imm => Sys2Proof.Machine.execSaddi d a imm s
  | .ssub d a b => Sys2Proof.Machine.execSsub d a b s
  | .smul d a b => Sys2Proof.Machine.execSmul d a b s
  | .sshl d a b => Sys2Proof.Machine.execSshl d a b s
  | .sshr d a b => Sys2Proof.Machine.execSshr d a b s
  | .sand d a b => Sys2Proof.Machine.execSand d a b s
  | .sor d a b => Sys2Proof.Machine.execSor d a b s
  | .scmp d a b cond => Sys2Proof.Machine.execScmp d a b cond s
  | .sbra a b cond imm => Sys2Proof.Machine.execSbra a b cond imm s
  | .sloop d imm => Sys2Proof.Machine.execSloop d imm s
  | .ssig sp a imm => Sys2Proof.Machine.execSsig sp a imm s
  | .mma fmt at_ reuse acc b c k => Sys2Proof.Machine.execMma fmt at_ reuse acc b c k s
  | .mzero acc => Sys2Proof.Machine.execMzero acc s
  | .mwaitAt at_ => Sys2Proof.Machine.execMwaitAt at_ s
  | .mwaitAcc acc => Sys2Proof.Machine.execMwaitAcc acc s
  | .mrel at_ => Sys2Proof.Machine.execMrel at_ s
  | .mbscale acc f => Sys2Proof.Machine.execMbscale acc f s
  | .cld w d a n x dsp ssp pol => Sys2Proof.Machine.execCld w d a n x dsp ssp pol s
  | .cst w d a n x dsp ssp pol => Sys2Proof.Machine.execCst w d a n x dsp ssp pol s
  | .cgth w d a n x dsp ssp pol => Sys2Proof.Machine.execCgth w d a n x dsp ssp pol s
  | .csct w d a n x dsp ssp pol => Sys2Proof.Machine.execCsct w d a n x dsp ssp pol s
  | .cacc w d a n x dsp ssp pol tile => Sys2Proof.Machine.execCacc w d a n x dsp ssp pol tile s
  | .ccoll w d a n x dsp ssp pol op scope => Sys2Proof.Machine.execCcoll w d a n x dsp ssp pol op scope s
  | .cwait w a n ssp pol => Sys2Proof.Machine.execCwait w a n ssp pol s
  | .cfill w d a n dsp pol => Sys2Proof.Machine.execCfill w d a n dsp pol s
  | .lazyInstructionComplete id => Sys2Proof.Machine.execLazyInstructionComplete id s
  | .copyOperationComplete id => Sys2Proof.Machine.execCopyOperationComplete id s
  | .fabricRemoteAccess access addr => Sys2Proof.Machine.execFabricRemoteAccess access addr s
  | .mboxNop => Sys2Proof.Machine.execMboxNop s
  | .mboxAttest => Sys2Proof.Machine.execMboxAttest s
  | .mboxTelemetry => Sys2Proof.Machine.execMboxTelemetry s
  | .resetBoot => Sys2Proof.Machine.execResetBoot s
  | .thermalTrip => Sys2Proof.Machine.execThermalTrip s
  | .join => Sys2Proof.Machine.execJoin s
  | .snop => Sys2Proof.Machine.execSnop s
  | .send => Sys2Proof.Machine.execSend s

end Sys2Proof.Machine
end

