-- ==== Sys2Proof/Machine/Turn.lean ====
section
/-! DEFINITION. What comes about next: the word that an agent fetches, the events that may be due, and the choice among them
where no turn is written down (R86, R271; log entry 4). -/

namespace Sys2Proof.Machine

/-! ### A turn of an agent -/

/-- An agent's turn begins: a cycle passes, and a slot takes the issue port. -/
def startTurn (s : State) (a : Agent) : State :=
  let s := { s with now := s.now + 1#64, cur := a }
  match a with
  | .slot gid s1 => takePort s gid s1
  | _ => s

/-- What the agent's fetch comes to: an instruction to execute, or the state after a fetch that gives none (R9, R34, R52, R278,
R299, R300). The record of a faulting fetch holds the slot's mask as its unfinished mask (DESIGN CHOICE, log entry 59). -/
def nextWord (s : State) (a : Agent) : State × Sum Out Instr :=
  match a with
  | .none => (s, .inl (.next s))
  | .slot gid s1 =>
    match s.group? gid with
    | none => (s, .inl (.next s))
    | some g =>
      match fetchSlot s gid s1 g with
      | (s, .fault) => (s, .inl (execEngineFaultDelivery gid s1 s))
      | (s, .park e) => (s, .inl (.next (parkSlot s gid s1 e.2 e.1 3#8 (g.slot s1).mask)))
      | (s, .bad c lanes x) => (s, .inl (.next (rawTrap s gid s1 c lanes x)))
      | (s, .instr i) => (s, .inr i)
  | .prog pid =>
    match s.prog? pid with
    | none => (s, .inl (.next s))
    | some p =>
      match fetchProg s p with
      | (s, .fault) => (s, .inl (.next s))
      | (s, .park e) => (s, .inl (.next (stopProg s pid e.2 e.1)))
      | (s, .bad c _ _) => (s, .inl (.next (progFault s pid c 0#80)))
      | (s, .instr i) => (s, .inr i)

/-- A step of the device takes a cycle, and no agent's word runs in it. -/
def startEvent (s : State) : State := { s with now := s.now + 1#64, cur := .none }

/-- The agent's word runs, once its turn has begun. -/
def runWord (s : State) (a : Agent) : Out :=
  match nextWord s a with
  | (_, .inl o) => o
  | (s, .inr i) => exec i s

/-- A blocked word runs, at no port; what would come of it, and whether the slot still stands there blocked. -/
def tryWord (s : State) (gid : Nat) (s1 : Bool) : Out × Bool :=
  let o := runWord { startEvent s with cur := .slot gid s1 } (.slot gid s1)
  let at_ := fun (s : State) => (s.group? gid).map fun g => ((g.slot s1).pc, (g.slot s1).wait, g.parkedAll)
  (o, match o with | .next t => decide (at_ t = at_ s) | _ => false)

/-- A blocked word is tried again (R141): where it can act, a word that has issued does so, and any other makes its slot ready, to compete for
the port (R271). -/
def probeWord (s : State) (gid : Nat) (s1 : Bool) : Out :=
  match tryWord s gid s1 with
  | (_, true) => .next (startEvent s)
  | (o, false) =>
    match s.group? gid with
    | none => .next (startEvent s)
    | some g =>
      if (g.slot s1).wait.issued then o
      else .next ((startEvent s).modSlot gid s1 fun sl => { sl with wait := .ready, readyAt := s.now.toNat })

/-- The turn of an agent: its next word runs if it may issue now, and a blocked word is tried again. -/
def goTurn (s : State) (a : Agent) : Out :=
  let issue := if agentReady s a then runWord (startTurn s a) a else .next (startEvent s)
  match a with
  | .slot gid s1 => if slotProbes s gid s1 then probeWord s gid s1 else issue
  | _ => issue

/-! ### Events that may be due -/

/-- Steps of the device that the records of a state give occasion for. -/
def memoryEvents (s : State) : List Instr :=
  (s.accs.flatMap fun a => [.oabAdmit a.id, .memAccessComplete a.id]) ++ (s.stores.map fun r => .storeReachHome r.id) ++
    (s.leases.flatMap fun l => [.leaseExpiry l.line, .leaseCopyDrop l.die l.line]) ++ (s.flits.map fun f => .fabricAck f.id) ++
    (s.tlbinvs.map fun t => .tlbinvComplete t.fence.id) ++ (s.lazies.map fun o => .lazyInstructionComplete o.id)

def engineEvents (s : State) : List Instr :=
  (s.copies.flatMap fun c => [.cpyComplete c.id, .copyOperationComplete c.id, .engineTranslationStop c.id]) ++
    (s.progs.flatMap fun p => [.engineProgramStart p.1, .engineProgramEnd p.1]) ++
    (s.efaults.map fun f => .engineFaultDelivery f.gid f.s1) ++
    (s.ctxs.flatMap fun c => [.stepCallDeliver c.1, .stepCombinationDone c.1]) ++
    (s.quads.flatMap fun q =>
      [.claimGrant q.1, .tagExpiry q.1, .tableBankLoad q.1, .matrixOpStart q.1, .rowGroupDone q.1])

def groupEvents (s : State) : List Instr :=
  s.groups.flatMap fun g =>
    [.pathRotation g.1, .gatheredGroupSave g.1] ++
      [false, true].flatMap fun s1 => [.pendingRetry g.1 s1, .sleepExpiry g.1 s1, .futWaitWake g.1 s1, .ringWaitResume g.1 s1]

def schedulerEvents (s : State) : List Instr :=
  (s.grids.flatMap fun g => [.floorAdvance g.1, .gridComplete g.1]) ++
    (if s.grids.isEmpty then [] else
      (List.range Config.dies).flatMap fun d => [.tokenPoll d, .teamPlacement d, .timeSliceSave d]) ++
    (s.deques.map fun d => .tgaFormGroup d.1) ++
    (((s.cores.filterMap fun c => c.2.thief.req).map Prod.fst).eraseDups.map fun v => .stealServe v) ++
    (if s.deques.all fun d => d.2.tasks.isEmpty then [] else
      (List.range (Config.dies * 64)).flatMap fun c => [.stealRequest c, .stealRestart c]) ++
    (s.saved.map fun x => .gatheredGroupRestore x.key) ++
    (s.tenants.flatMap fun t => [.tenantDrainDeadline t.1, .saveSlotRetry t.1])

def moduleEvents (s : State) : List Instr :=
  (s.dies.flatMap fun d =>
    [.faultQueueSpace d.1, .partcmdQuadrants d.1, .partcmdBanks d.1, .partcmdL2Ways d.1, .partcmdBuckets d.1, .bucketRefill d.1,
     .energyAccount d.1] ++ d.2.sweeps.map fun w => .waySweepDone d.1 w.slice w.way) ++
    (s.cores.map fun c => .carveChangeComplete c.1) ++
    (match s.boot with | .running | .failed => [] | _ => [.resetBoot])

def possibleEvents (s : State) : List Instr :=
  memoryEvents s ++ engineEvents s ++ groupEvents s ++ schedulerEvents s ++ moduleEvents s

/-- Does a step of the device change anything? -/
def acts (s : State) (i : Instr) : Bool :=
  match exec i (startEvent s) with
  | .next t => decide (t ≠ startEvent s)
  | _ => false

/-! ### The choice where no turn is written down -/

/-- The slot that each quadrant would issue (R271), and the programs that are ready. -/
def readyAgents (s : State) : List Agent :=
  let quads := (s.groups.map fun g => quadKey g.2.die g.2.core g.2.quad).eraseDups
  (quads.filterMap fun q => ((portHolder s q).or (chooseSlot s q)).map fun c => Agent.slot c.1 c.2) ++
    ((s.progs.filter fun p => progReady s p.1).map fun p => .prog p.1)

/-- The slots whose blocked words can act now. -/
def unblocked (s : State) : List Agent :=
  (s.groups.flatMap fun g => [(g.1, false), (g.1, true)]).filterMap fun x =>
    if slotProbes s x.1 x.2 && !(tryWord s x.1 x.2).2 then some (.slot x.1 x.2) else none

/-- How long a slot has been ready without issuing. -/
def waited (s : State) : Agent → Nat
  | .slot gid s1 => match s.group? gid with | some g => s.now.toNat - max (g.slot s1).readyAt (g.slot s1).sleep | none => 0
  | _ => 0

/-- Of the agents that may issue, the one that has waited longest, where that is 256 cycles or more (R271, R277). -/
def starving (s : State) (l : List Agent) : Option Agent :=
  (l.filter fun a => decide (Config.readyWait ≤ waited s a)).foldl (fun (b : Option Agent) a =>
    match b with | none => some a | some x => if waited s x < waited s a then some a else some x) none

/-- Every due step of the device and every agent that may issue has its turn in rotation; every other turn goes to a slot that has waited for
256 cycles. -/
def defaultTurn (s : State) : Turn :=
  let go := readyAgents s
  let l := ((possibleEvents s).filter (acts s)).map Turn.ev ++ (go ++ unblocked s).map Turn.go
  let hungry := starving s go
  match (if s.now.toNat % 2 = 0 then hungry else none) with
  | some a => .go a
  | none => (l[(if hungry.isSome then s.now.toNat / 2 else s.now.toNat) % l.length]?).getD (.tick 1)

/-- The turn to take, and the state with it taken from the plan. -/
def takeTurn (s : State) : Turn × State :=
  match s.turns with
  | t :: r => (t, { s with turns := r })
  | [] => (if s.tripped then .tick 1 else defaultTurn s, s)

/-- A module that has tripped takes no turn but the reset (R330). -/
def allowed (s : State) : Turn → Bool
  | .ev .resetBoot => true
  | .tick _ => true
  | _ => !s.tripped

/-! ### A place for one instruction -/

/-- The class and the words of an instruction given by the host's bits: a header, a header with its word, or a word of the
lane class. -/
def tablePlace (nbits w : Nat) : Option (BitVec 3) × Word64 :=
  let x : Word64 := BitVec.ofNat 64 w
  let y : Word64 := BitVec.ofNat 64 (w / 2 ^ 64)
  if isHeader x then
    if nbits ≤ 64 then (none, x)
    else
      match decodeHeader x with
      | .ok (.clauseIssue cls _ _ _) => (some cls, y)
      | _ => (some 0#3, y)
  else (some 0#3, x)

/-- The address at which the word is placed, and its page's translation, which core 0 of die 0 holds. -/
def wordPlace : Nat := 0x1000

def wordEntry : TlbEntry :=
  { tenant := 0, base := wordPlace, log2 := 12, phys := wordPlace, perms := 15#4, dirty := true, pte := 0, low := 0#64 }

/-- A group of the default form with all its lanes at an address. -/
def loneGroup (s : State) (a : Addr) : Group :=
  { Group.start (s.tenant 0) s.now.toNat 0#80 noGrid a (BitVec.allOnes 96) with grid := 2 ^ 32 }

/-- The word's bytes in memory, its page in the core's TLB, the issue port of its quadrant, and the turn of the agent that will fetch it. -/
def placeWord (s : State) (x : Word64) (a : Agent) : State :=
  let s := homePuts s 0 0#2 (upFrom wordPlace 8) (wordBytes x)
  let c := s.core 0 0
  let s := s.setCore 0 0 { c with tlb := wordEntry :: c.tlb }
  let s := match a with
    | .slot gid s1 => s.setQuad 0 0 0 { s.quad 0 0 0 with last := some (gid, s1), keep := true, holds := true }
    | _ => s
  { s with turns := .go a :: s.turns, tripped := false }

/-- A group at the word: in a clause of its class, or at the header. -/
def placeInGroup (s : State) (cls : Option (BitVec 3)) (x : Word64) : State :=
  let gid := s.seqNo
  let g := loneGroup s (BitVec.ofNat 80 wordPlace)
  let g := match cls with
    | some c => g.modSlot false fun sl => { sl with cls := c, left := 1, header := sl.pc - 8#80 }
    | none => g
  placeWord { s with seqNo := s.seqNo + 1, groups := tset s.groups gid g } x (.slot gid false)

/-- A program of a sequencer at the word. -/
def placeInProg (s : State) (cls : BitVec 3) (x : Word64) : State :=
  let pid := s.seqNo
  let a := BitVec.ofNat 80 wordPlace
  let p : Prog :=
    { eng := if cls = 2#3 then 0 else 1, die := 0, core := 0, quad := 0, gid := pid, s1 := false, team := none, grid := 2 ^ 32,
      tenant := 0, handle := 0#32, pc := a, header := a - 8#80, left := 1, s := Vector.replicate 16 0#80, running := true,
      sent := false, ended := false, status := 0#32, ctr := 0#2, stopped := none, stopVa := 0#80, trap := false, after := [],
      place := 0#8 }
  placeWord { s with seqNo := s.seqNo + 1, progs := tset s.progs pid p } x (.prog pid)

end Sys2Proof.Machine
end

