-- ==== Sys2Proof/Machine/Step.lean ====
section
/-! DEFINITION. One step of the machine, and the placing of one instruction where the next step fetches it. -/

namespace Sys2Proof.Machine

/-- One step: the turn that the plan names, or the one that the default choice gives. -/
def step (s : State) : Host.Outcome State Fault Refusal :=
  let (t, s) := takeTurn (noteWaits s)
  if !allowed s t then .next (startEvent s)
  else
    match t with
    | .tick n => .next { s with now := s.now + BitVec.ofNat 64 n, cur := .none }
    | .ev i => exec i (startEvent s)
    | .go a => goTurn s a

/-- The state in which the very next step runs the instruction of the host's bits (log entry 6). -/
def State.withFetchWord (s : State) (nbits w : Nat) : State :=
  match tablePlace nbits w with
  | (none, x) => placeInGroup s none x
  | (some c, x) => if 2 ≤ c.toNat then placeInProg s c x else placeInGroup s (some c) x

end Sys2Proof.Machine
end

