-- ==== Sys2Proof/Safety.lean ====
section
/-! DEFINITION. What a safe run is, and the terms in which the statements speak: when a word passes its checks, and what a
word with one result leaves. -/

namespace Sys2Proof.Machine

/-- The memory lists no byte twice, in rising order, and none that reads as an unlisted one (log entry 1); and the L2 caches lines
of the dies' DRAM alone, each at most once (R60, R61). -/
def State.Inv (s : State) : Prop :=
  Memory.wf s.mem = true ∧ (∀ e ∈ s.l2, e.line < 2 ^ 45) ∧ (s.l2.map L2Line.line).Nodup

/-- A step that neither faults nor is refused. -/
def steps (s t : State) : Prop := step s = .next t

/-- A run of `n` steps that stops nowhere. -/
def runs : Nat → State → State → Prop
  | 0, s, t => s = t
  | n + 1, s, t => ∃ u, steps s u ∧ runs n u t

/-! ### When a word passes the checks of R34 -/

/-- It is the turn of a slot of a group. -/
def Issues (s : State) (gid : Nat) (s1 : Bool) (g : Group) : Prop := s.cur = .slot gid s1 ∧ s.group? gid = some g

/-- The word at the slot takes none of the traps that its own fields give (R34), and its group holds the matrix unit where the
word uses it (R224), with no operation running on an accumulator tile that it reads (R236). `s'` is the state in which the word then
acts: `s` itself, or `s` with the unit taken. -/
def Passes (i : Instr) (s : State) (gid : Nat) (s1 : Bool) (g : Group) (sh : Shape) (s' : State) : Prop :=
  Issues s gid s1 g ∧ wordShape i = some sh ∧ wordFault g (g.slot s1) i sh = none ∧
    if usesMatrix i sh = true ∧ execLanes g (g.slot s1) sh.head ≠ 0#96 then takeMatrix s g = .ok s' ∧ accBusy s' g sh = false else s' = s

/-- The lanes in which the word at a slot executes. -/
def Group.lanesAt (g : Group) (s1 : Bool) (sh : Shape) : Mask := execLanes g (g.slot s1) sh.head

/-! ### What a word leaves -/

/-- Only the register files, what is still to land in them, and the slots of a group differ. -/
def SameButFiles (g g' : Group) : Prop :=
  g' = { g with slices := g'.slices, k := g'.k, latches := g'.latches, latchW := g'.latchW, late := g'.late,
                region := g'.region, s0 := g'.s0, s1 := g'.s1 }

/-- Bit `p` of lane `l`'s slices after a result `v` of `w` bits in the lanes of `m` (R6, R16). -/
def sliceAfter {w : Nat} (g : Group) (sh : Shape) (m : Mask) (v : Lane → BitVec w) (l : Lane) (p : Nat) : Bool :=
  match sh.dst with
  | some (.slice st, _) =>
    if sh.head.sup = false ∧ m.getLsbD l.val = true ∧ 4 * st.toNat ≤ p ∧ p < 4 * st.toNat + w then
      (v l).getLsbD (p - 4 * st.toNat)
    else g.slices[l].getLsbD p
  | _ => g.slices[l].getLsbD p

/-- Bit `p` of the uniform file below k157 after the result of the lowest lane (R16). -/
def kAfter {w : Nat} (g : Group) (sh : Shape) (m : Mask) (v : Lane → BitVec w) (p : Nat) : Bool :=
  match sh.dst, lowest? m with
  | some (.ureg k, _), some l =>
    if sh.head.sup = false ∧ 32 * k.toNat ≤ p ∧ p < 32 * k.toNat + w then (v l).getLsbD (p - 32 * k.toNat)
    else g.k.getLsbD p
  | _, _ => g.k.getLsbD p

/-- Bit `b` of the slot's mask, which is k157 to k159 (R126). -/
def maskAfter {w : Nat} (sl : Slot) (sh : Shape) (m : Mask) (v : Lane → BitVec w) (b : Nat) : Bool :=
  match sh.dst, lowest? m with
  | some (.ureg k, _), some l =>
    if sh.head.sup = false ∧ 157 < k.toNat + (w + 31) / 32 then
      sl.owned.getLsbD b &&
        (if 32 * k.toNat ≤ 5024 + b ∧ 5024 + b < 32 * k.toNat + w then (v l).getLsbD (5024 + b - 32 * k.toNat)
         else sl.mask.getLsbD b)
    else sl.mask.getLsbD b
  | _, _ => sl.mask.getLsbD b

/-- Bit `p` of lane `l`'s latches: in the lane class the result goes whole to the latch of the word's position (R18). -/
def latchAfter {w : Nat} (g : Group) (sl : Slot) (sh : Shape) (m : Mask) (v : Lane → BitVec w) (l : Lane) (p : Nat) : Bool :=
  if sh.head.uni = false ∧ m.getLsbD l.val = true ∧ 64 * sl.latchNo ≤ p ∧ p < 64 * sl.latchNo + 64 then
    ((v l).setWidth 64).getLsbD (p - 64 * sl.latchNo)
  else g.latches[l].getLsbD p

/-- After a word with the result `v` in the lanes of `m`, the state differs from `s` in the group alone; the group in the
destination and the latch alone; and the slot has gone on to the next word. -/
def RegResult {w : Nat} (s t : State) (gid : Nat) (s1 : Bool) (g : Group) (sh : Shape) (m : Mask) (v : Lane → BitVec w) : Prop :=
  ∃ g' mask', t = s.setGroup gid g' ∧ SameButFiles g g' ∧ g'.slot (!s1) = g.slot (!s1) ∧
    g'.slot s1 = Slot.advance { g.slot s1 with mask := mask' } sh.res ∧
    (∀ b, b < 96 → mask'.getLsbD b = maskAfter (g.slot s1) sh m v b) ∧
    (∀ (l : Lane) p, p < 2048 → g'.slices[l].getLsbD p = sliceAfter g sh m v l p) ∧
    (∀ p, p < 5024 → g'.k.getLsbD p = kAfter g sh m v p) ∧
    (∀ (l : Lane) p, p < 512 → g'.latches[l].getLsbD p = latchAfter g (g.slot s1) sh m v l p)

/-- After a word with a predicate result `v` in the lanes of `m` (R16, R159): a lane predicate in those lanes, a uniform one
from the lowest; p7 and g7 stay true (R127). The group differs in its predicates and its slot alone. -/
def PredResult (s t : State) (gid : Nat) (s1 : Bool) (g : Group) (sh : Shape) (m : Mask) (v : Lane → Bool) : Prop :=
  ∃ g', t = s.setGroup gid g' ∧ g' = { g with preds := g'.preds, g := g'.g, s0 := g'.s0, s1 := g'.s1 } ∧
    g'.slot (!s1) = g.slot (!s1) ∧ g'.slot s1 = (g.slot s1).advance sh.res ∧
    (∀ (n : BitVec 3) (l : Lane), g'.pred n l =
      if sh.pdst = some (.p n) ∧ m.getLsbD l.val = true ∧ n ≠ 7#3 then v l else g.pred n l) ∧
    (∀ n : BitVec 3, g'.gpred n =
      match lowest? m with
      | some l => if sh.pdst = some (.g n) ∧ n ≠ 7#3 then v l else g.gpred n
      | none => g.gpred n)

/-- A result as a function of the state, the group, its slot, the executing lanes and the lane. -/
abbrev Value (w : Nat) := State → Group → Slot → Mask → Lane → BitVec w

/-- Every time that the word passes its checks it completes, with the result `v` in the lanes in which it executes, and with
no other effect. -/
def Gives {w : Nat} (i : Instr) (v : Value w) : Prop :=
  ∀ s gid s1 g sh s', Passes i s gid s1 g sh s' →
    ∃ t, exec i s = .next t ∧ RegResult s' t gid s1 g sh (g.lanesAt s1 sh) (v s' g (g.slot s1) (g.lanesAt s1 sh))

/-- A predicate result as a function of the state, the group, its slot, the executing lanes and the lane. -/
abbrev PredValue := State → Group → Slot → Mask → Lane → Bool

/-- As Gives, for a word whose result is a predicate. -/
def GivesPred (i : Instr) (v : PredValue) : Prop :=
  ∀ s gid s1 g sh s', Passes i s gid s1 g sh s' →
    ∃ t, exec i s = .next t ∧ PredResult s' t gid s1 g sh (g.lanesAt s1 sh) (v s' g (g.slot s1) (g.lanesAt s1 sh))

/-- The group with the flags of the lanes of `m` raised, and the lanes' stochastic counters advanced by `adv` (R186, R198). -/
def Group.flagged (g : Group) (m : Mask) (fl : Lane → FFlags) (adv : Nat) : Group :=
  (g.raise (orFlags m fl)).advanceSr m adv

/-- Every time that the word passes its checks and no lane raises a flag whose trap is enabled, it completes: with the values,
the flags ORed into sr.fpflags, and the stochastic counters advanced by `adv` where the mode in force is stochastic. -/
def GivesF {w : Nat} (i : Instr) (rm : BitVec 3) (adv : Nat) (v : State → Group → Slot → Lane → FRes w) : Prop :=
  ∀ s gid s1 g sh s', Passes i s gid s1 g sh s' →
    flagTraps g (g.lanesAt s1 sh) (fun l => (v s' g (g.slot s1) l).2) = 0#96 →
    ∃ t, exec i s = .next t ∧
      RegResult s' t gid s1 (g.flagged (g.lanesAt s1 sh) (fun l => (v s' g (g.slot s1) l).2) (if fpMode g rm = .sr then adv else 0))
        sh (g.lanesAt s1 sh) (fun l => (v s' g (g.slot s1) l).1)

/-- As GivesF, for a word whose result is a predicate. -/
def GivesPredF (i : Instr) (v : State → Group → Slot → Lane → Bool × FFlags) : Prop :=
  ∀ s gid s1 g sh s', Passes i s gid s1 g sh s' →
    flagTraps g (g.lanesAt s1 sh) (fun l => (v s' g (g.slot s1) l).2) = 0#96 →
    ∃ t, exec i s = .next t ∧
      PredResult s' t gid s1 (g.flagged (g.lanesAt s1 sh) (fun l => (v s' g (g.slot s1) l).2) 0) sh (g.lanesAt s1 sh)
        (fun l => (v s' g (g.slot s1) l).1)

/-! ### Other words -/

/-- Conditions and states as functions of the state, the group, the slot, the word's shape and the lanes in which it executes. -/
abbrev Cond := State → Nat → Bool → Group → Shape → Mask → Prop
abbrev After := State → Nat → Bool → Group → Shape → Mask → State

/-- Every time that the word passes its checks and `ok` holds, it completes in the state `f`, which says all that it changes. -/
def Completes (i : Instr) (ok : Cond) (f : After) : Prop :=
  ∀ s gid s1 g sh s', Passes i s gid s1 g sh s' → ok s' gid s1 g sh (g.lanesAt s1 sh) →
    exec i s = .next (f s' gid s1 g sh (g.lanesAt s1 sh))

/-- Only the group changes: it becomes `x`, and its slot goes on to the next word. -/
def State.goesOn (s : State) (gid : Nat) (s1 : Bool) (sh : Shape) (x : Group) : State := s.setGroup gid (x.done s1 sh)

/-- In no lane does the word execute: nothing changes, and the slot goes on. -/
def Skips (i : Instr) : Prop := Completes i (fun _ _ _ _ _ m => m = 0#96) fun s gid s1 g sh _ => s.goesOn gid s1 sh g

/-- A memory word: it skips where it has no lane; the traps of R67 come before any access, and after them ordered-after-finish in the lanes
that `late` names (R73); otherwise its operands are captured and its accesses issue, where `free` says that no open region has a say. -/
def Accesses (i : Instr) (op : MemOp) (sp : Space) (pol : BitVec 2) (once : Bool) (align : Nat) (lock : Option Bool)
    (late : Group → Mask → Mask) (free : Group → Prop) (ea : State → Group → Slot → Mask → Lane → Addr) (data data2 : State → Group → Slot → Lane → BitVec 64) : Prop :=
  ∀ s gid s1 g sh s', Passes i s gid s1 g sh s' →
    let sl := g.slot s1
    let m := if sh.head.uni = true ∧ g.lanesAt s1 sh ≠ 0#96 then sl.uniMask else g.lanesAt s1 sh
    (m = 0#96 → exec i s = .next (s'.goesOn gid s1 sh g)) ∧
    (m ≠ 0#96 → ∃ r : MemReq, r.id = s'.seqNo ∧ r.instr = i ∧ r.op = op ∧ r.space = sp ∧ r.w = sh.head.w ∧ r.pol = pol ∧
      r.ctr = sh.head.ctr ∧ r.res = sh.res ∧ r.issued = m ∧ r.ring = none ∧ r.touched = false ∧
      r.dst = (if sh.head.sup = true then none else sh.dst.map Prod.fst) ∧
      r.latch = (if sh.head.uni = true ∨ sh.res = false then none else some (BitVec.ofNat 3 sl.latchNo)) ∧
      r.once = (if sh.head.uni = true then some sl.uniLane.val else if once = true then (lowest? m).map Fin.val else none) ∧
      r.agents = (if sh.head.uni = true ∨ once = true then sl.uniMask else m) ∧
      r.seen = [] ∧
      (∀ l : Lane, r.ea[l] = ea s' g sl m l ∧ r.data[l] = data s' g sl l ∧ r.data2[l] = data2 s' g sl l ∧
        ∀ first n, op = .spill first n → r.wide[l] = (g.sliceRead l first (4 * n)).setWidth 2048) ∧
      (∀ c t, memTrap s' g r r.bytes align lock m = some (c, t) → exec i s = .next (trapWord s' gid s1 i sh c 0#8 t true)) ∧
      (memTrap s' g r r.bytes align lock m = none → late g m ≠ 0#96 →
        exec i s = .next (trapWord s' gid s1 i sh 0x0E#8 0#8 (late g m) true)) ∧
      (memTrap s' g r r.bytes align lock m = none → late g m = 0#96 → free g →
        exec i s = .next (memIssue ((s'.setGroup gid g).nextId.2.ctrUp gid r.ctr) gid s1 r m)))

/-- Every time that it is the turn of a sequencer program at the word and `ok` holds, the word completes in the state `f`. -/
def ProgDoes (i : Instr) (ok : State → Nat → Prog → Prop) (f : State → Nat → Prog → State) : Prop :=
  ∀ s pid p, s.cur = .prog pid → s.prog? pid = some p → ok s pid p → exec i s = .next (f s pid p)

/-- The program goes on to its next word as `p`. -/
def State.progOn (s : State) (pid : Nat) (p : Prog) : State := s.setProg pid { p with pc := p.pc + 8#80, left := p.left - 1 }

/-- A lazy word that passes its checks and executes in some lane (R215, R281). A malformed view traps with lazy-state in its lanes. Otherwise
its results are settled, to be written when it ends, and its counter rises; where lzx or nx may trap, its slot stays at the word. Where none of
the two may trap and a lane raises another flag whose trap is enabled, it traps at once, and the other lanes' results are written. -/
def Settles (i : Instr) (view : BitVec 3) (f : State → Group → Slot → Lane → View → Lazy) : Prop :=
  ∀ s gid s1 g sh s', Passes i s gid s1 g sh s' → g.lanesAt s1 sh ≠ 0#96 →
    let m := g.lanesAt s1 sh
    let bad := m &&& maskOf fun l => decide (48 < (g.view l view).count)
    let hold := decide (trapEnables g &&& (fLzx ||| fNx) ≠ 0#6)
    (bad ≠ 0#96 → exec i s = .next (trapWord s' gid s1 i sh 0x0B#8 0#8 bad true)) ∧
    (bad = 0#96 → ∃ op : LazyOp, op.id = s'.seqNo ∧ op.gid = gid ∧ op.s1 = s1 ∧ op.instr = i ∧ op.lanes = m ∧ op.view = view ∧
      op.hold = hold ∧ op.ctr = sh.head.ctr ∧ op.trap = g.trapMode ∧ op.latch = BitVec.ofNat 3 (g.slot s1).latchNo ∧
      (∀ l : Lane, m.getLsbD l.val = true →
        let r := f s' g (g.slot s1) l (g.view l view)
        op.vals[l] = r.val ∧ op.views[l] = r.view ∧ op.flags[l] = r.flags) ∧
      let t := flagTraps g m fun l => op.flags[l]
      let n := { s' with seqNo := s'.seqNo + 1 }
      (hold = true ∨ t = 0#96 →
        exec i s = .next { n with
          groups := tset s'.groups gid (if hold then (g.ctrUp sh.head.ctr).modSlot s1 fun x => { x with wait := .lazy } else (g.ctrUp sh.head.ctr).done s1 sh),
          lazies := s'.lazies ++ [op] }) ∧
      (hold = false → t ≠ 0#96 →
        exec i s = .next (trapWord (State.setGroup n gid ((g.putLazy op (m &&& ~~~t)).raise (orFlags m fun l => op.flags[l]))) gid s1 i sh 0x0A#8
          ((orFlags t (fun l => op.flags[l]) &&& trapEnables g).setWidth 8) t false)))

end Sys2Proof.Machine
end

