-- ==== Sys2Proof/Certificates/Slice0/Obligations.lean ====
section
/-! DEFINITION. The statements for the provers. -/

open Sys2Proof Sys2Proof.Machine

/-! ### Integer, logic, move and address words (R154 to R164) -/

/-- R155: iadd, isub, imul, imad and iaddi give the low W bits of the exact result, in every lane in which they execute, and
change nothing beside their destination, their latch and the pc. -/
def Obligations.IntegerWrapping : Prop :=
  ∀ (h : Head) (d : Dst) (a b c : Src) (sg : Bool) (imm : BitVec 27),
    Gives (.iadd h d a b false sg) (fun s g sl _ l =>
      BitVec.ofNat (wBits h.w) ((readSrc s g sl l a (wBits h.w)).toNat + (readSrc s g sl l b (wBits h.w)).toNat)) ∧
    Gives (.isub h d a b false sg) (fun s g sl _ l =>
      BitVec.ofInt (wBits h.w) ((readSrc s g sl l a (wBits h.w)).toNat - (readSrc s g sl l b (wBits h.w)).toNat)) ∧
    Gives (.imul h d a b sg) (fun s g sl _ l =>
      BitVec.ofNat (wBits h.w) ((readSrc s g sl l a (wBits h.w)).toNat * (readSrc s g sl l b (wBits h.w)).toNat)) ∧
    Gives (.imad h d a b c) (fun s g sl _ l =>
      BitVec.ofNat (wBits h.w) ((readSrc s g sl l a (wBits h.w)).toNat * (readSrc s g sl l b (wBits h.w)).toNat +
        (readSrc s g sl l c (wBits h.w)).toNat)) ∧
    Gives (.iaddi h d a imm) (fun s g sl _ l =>
      BitVec.ofInt (wBits h.w) ((readSrc s g sl l a (wBits h.w)).toNat + imm.toInt))

/-- R155: the saturating forms clamp the exact result to the type's range; imulh is the floor of the product over 2^W; imin and
imax choose by value; iabs is the magnitude. -/
def Obligations.IntegerOrdered : Prop :=
  ∀ (h : Head) (d : Dst) (a b : Src) (sg : Bool),
    let lo : Int := if sg then -(2 ^ (wBits h.w - 1)) else 0
    let hi : Int := if sg then 2 ^ (wBits h.w - 1) - 1 else 2 ^ wBits h.w - 1
    let v := fun (s : State) (g : Group) (sl : Slot) (l : Lane) (x : Src) =>
      (if sg then (readSrc s g sl l x (wBits h.w)).toInt else (readSrc s g sl l x (wBits h.w)).toNat : Int)
    Gives (.iadd h d a b true sg) (fun s g sl _ l => BitVec.ofInt (wBits h.w) (max lo (min hi (v s g sl l a + v s g sl l b)))) ∧
    Gives (.isub h d a b true sg) (fun s g sl _ l => BitVec.ofInt (wBits h.w) (max lo (min hi (v s g sl l a - v s g sl l b)))) ∧
    Gives (.imulh h d a b sg) (fun s g sl _ l => BitVec.ofInt (wBits h.w) (v s g sl l a * v s g sl l b / 2 ^ wBits h.w)) ∧
    Gives (.imin h d a b sg) (fun s g sl _ l =>
      if v s g sl l a ≤ v s g sl l b then readSrc s g sl l a (wBits h.w) else readSrc s g sl l b (wBits h.w)) ∧
    Gives (.imax h d a b sg) (fun s g sl _ l =>
      if v s g sl l a ≥ v s g sl l b then readSrc s g sl l a (wBits h.w) else readSrc s g sl l b (wBits h.w)) ∧
    Gives (.iabs h d a false) (fun s g sl _ l =>
      BitVec.ofNat (wBits h.w) (readSrc s g sl l a (wBits h.w)).toInt.natAbs) ∧
    Gives (.iabs h d a true) (fun s g sl _ l =>
      BitVec.ofNat (wBits h.w) (min (readSrc s g sl l a (wBits h.w)).toInt.natAbs (2 ^ (wBits h.w - 1) - 1)))

/-- R155: a count is a whole unsigned W-bit value, so that a count of W or more shifts every bit out; rot takes it modulo W. -/
def Obligations.Shifts : Prop :=
  ∀ (h : Head) (d : Dst) (a b : Src),
    Gives (.shl h d a b) (fun s g sl _ l =>
      let n := (readSrc s g sl l b (wBits h.w)).toNat
      if n < wBits h.w then BitVec.ofNat (wBits h.w) ((readSrc s g sl l a (wBits h.w)).toNat * 2 ^ n) else 0#(wBits h.w)) ∧
    Gives (.shr h d a b) (fun s g sl _ l =>
      let n := (readSrc s g sl l b (wBits h.w)).toNat
      if n < wBits h.w then BitVec.ofNat (wBits h.w) ((readSrc s g sl l a (wBits h.w)).toNat / 2 ^ n) else 0#(wBits h.w)) ∧
    Gives (.sar h d a b) (fun s g sl _ l =>
      let n := (readSrc s g sl l b (wBits h.w)).toNat
      let x := (readSrc s g sl l a (wBits h.w)).toInt
      if n < wBits h.w then BitVec.ofInt (wBits h.w) (x / 2 ^ n) else if x < 0 then BitVec.allOnes (wBits h.w) else 0#(wBits h.w)) ∧
    ∃ v : Value (wBits h.w), Gives (.rot h d a b) v ∧ ∀ s g sl m l p, p < wBits h.w →
      (v s g sl m l).getLsbD ((p + (readSrc s g sl l b (wBits h.w)).toNat) % wBits h.w) =
        (readSrc s g sl l a (wBits h.w)).getLsbD p

/-- R154, R157, R160: the moves, the select and the bitwise functions. -/
def Obligations.LogicAndMoves : Prop :=
  ∀ (h : Head) (d : Dst) (a b : Src) (p : Guard) (imm : BitVec 32) (table : BitVec 8),
    Gives (.mov h d a) (fun s g sl _ l => readSrc s g sl l a (wBits h.w)) ∧
    Gives (.movi h d imm) (fun _ _ _ _ _ => imm.signExtend (wBits h.w)) ∧
    Gives (.sel h d a b p) (fun s g sl _ l =>
      if (if h.uni then g.gpred p.idx else g.pred p.idx l) != p.inv then readSrc s g sl l a (wBits h.w)
      else readSrc s g sl l b (wBits h.w)) ∧
    Gives (.and h d a b) (fun s g sl _ l => readSrc s g sl l a (wBits h.w) &&& readSrc s g sl l b (wBits h.w)) ∧
    Gives (.or h d a b) (fun s g sl _ l => readSrc s g sl l a (wBits h.w) ||| readSrc s g sl l b (wBits h.w)) ∧
    Gives (.xor h d a b) (fun s g sl _ l => readSrc s g sl l a (wBits h.w) ^^^ readSrc s g sl l b (wBits h.w)) ∧
    Gives (.not h d a) (fun s g sl _ l => ~~~(readSrc s g sl l a (wBits h.w))) ∧
    ∃ v : Value (wBits h.w), Gives (.lop3 h d a b table) v ∧ ∀ s g sl m l i, i < wBits h.w →
      (v s g sl m l).getLsbD i = table.getLsbD (4 * ((readSrc s g sl l a (wBits h.w)).getLsbD i).toNat +
        2 * ((readSrc s g sl l b (wBits h.w)).getLsbD i).toNat +
        ((match d with | .slice st => g.sliceRead l st.toNat (wBits h.w) | .ureg k => g.kread sl k.toNat (wBits h.w)).getLsbD i).toNat)

/-- R155, R156: the field instructions, the counts and the bit reversal. -/
def Obligations.FieldsAndCounts : Prop :=
  ∀ (h : Head) (d : Dst) (a b c : Src) (sg : Bool),
    let len := fun ctl : BitVec 16 => if ctl.toNat % 256 < wBits h.w then min (ctl.toNat / 256) (wBits h.w - ctl.toNat % 256) else 0
    (∃ v : Value (wBits h.w), Gives (.bfx h d a b sg) v ∧ ∀ s g sl m l i, i < wBits h.w →
      let ctl := readSrc s g sl l b 16
      let x := readSrc s g sl l a (wBits h.w)
      (v s g sl m l).getLsbD i =
        if i < len ctl then x.getLsbD (ctl.toNat % 256 + i)
        else sg && decide (0 < len ctl) && x.getLsbD (ctl.toNat % 256 + len ctl - 1)) ∧
    (∃ v : Value (wBits h.w), Gives (.bfi h d a b c) v ∧ ∀ s g sl m l i, i < wBits h.w →
      let ctl := readSrc s g sl l c 16
      (v s g sl m l).getLsbD i =
        if ctl.toNat % 256 ≤ i ∧ i < ctl.toNat % 256 + len ctl then (readSrc s g sl l b (wBits h.w)).getLsbD (i - ctl.toNat % 256)
        else (readSrc s g sl l a (wBits h.w)).getLsbD i) ∧
    (∃ v : Value (wBits h.w), Gives (.popc h d a) v ∧ ∀ s g sl m l,
      (v s g sl m l).toNat = ((List.range (wBits h.w)).filter fun i => (readSrc s g sl l a (wBits h.w)).getLsbD i).length) ∧
    (∃ v : Value (wBits h.w), Gives (.clz h d a) v ∧ ∀ s g sl m l,
      let n := (v s g sl m l).toNat
      let x := (readSrc s g sl l a (wBits h.w)).toNat
      n ≤ wBits h.w ∧ x < 2 ^ (wBits h.w - n) ∧ (n < wBits h.w → 2 ^ (wBits h.w - 1 - n) ≤ x)) ∧
    ∃ v : Value (wBits h.w), Gives (.brev h d a) v ∧ ∀ s g sl m l i, i < wBits h.w →
      (v s g sl m l).getLsbD i = (readSrc s g sl l a (wBits h.w)).getLsbD (wBits h.w - 1 - i)

/-- R158, R161: lea forms an address modulo 2^80; shfl reads the source lane that B names, or the lane itself where that lies
outside 0 to 95, whatever lanes execute. That lea leaves the low 64 bits of its 80-bit result in its latch is the model's choice (log entry
9). -/
def Obligations.AddressAndShuffle : Prop :=
  ∀ (h : Head) (d : Dst) (a b : Src) (sh : BitVec 3) (sg : Bool) (mode : BitVec 4),
    Gives (.lea h d a b sh sg) (fun s g sl _ l =>
      readAddr s g sl l a +
        (if sg then (readSrc s g sl l b (wBits h.w)).signExtend 80 else (readSrc s g sl l b (wBits h.w)).setWidth 80) *
          BitVec.ofNat 80 (2 ^ sh.toNat)) ∧
    ∃ src : State → Group → Slot → Lane → Lane,
      Gives (.shfl h d a b mode) (fun s g sl _ l => readSrc s g sl (src s g sl l) a (wBits h.w)) ∧
      ∀ s g sl (l : Lane),
        let n := (readSrc s g sl l b 32).toNat
        let j : Int := if mode = 0#4 then n else if mode = 1#4 then (l.val : Int) - n else if mode = 2#4 then (l.val : Int) + n
          else ((l.val ^^^ n : Nat) : Int)
        ((src s g sl l).val : Int) = if 0 ≤ j ∧ j < 96 then j else l.val

/-- R159, R162: isetp writes the comparison of the two values; vote gives every lane of the predicate the one truth that the
executing lanes have together. -/
def Obligations.ComparesAndVotes : Prop :=
  ∀ (h : Head) (p : PDst) (a b : Src) (cond mode : BitVec 4) (sg : Bool),
    GivesPred (.isetp h p a b cond sg) (fun s g sl _ l =>
      let v := fun x : Src => (if sg then (readSrc s g sl l x (wBits h.w)).toInt else (readSrc s g sl l x (wBits h.w)).toNat : Int)
      match cond.toNat with
      | 0 => decide (v a = v b) | 1 => decide (v a ≠ v b) | 2 => decide (v a < v b) | 3 => decide (v a ≤ v b)
      | 4 => decide (v a > v b) | _ => decide (v a ≥ v b)) ∧
    GivesPred (.vote h p a mode) (fun s g sl m _ =>
      let x := fun l : Lane => readSrc s g sl l a (wBits h.w)
      match mode.toNat with
      | 0 => decide (∃ l : Lane, m.getLsbD l.val = true ∧ x l ≠ 0#(wBits h.w))
      | 1 => decide (∀ l : Lane, m.getLsbD l.val = true → x l ≠ 0#(wBits h.w))
      | _ => decide (∀ l l' : Lane, m.getLsbD l.val = true → m.getLsbD l'.val = true → x l = x l'))

/-- R162, R126, R160: vote.ballot writes the truth bits of the executing lanes to kN to kN+2, 0 for the others, and nothing where
no lane executes (k157 to k159 are the slot's mask, written within its owned set); nop only goes on; a uniform movi to k157 to
k159 writes 32 bits of the slot's mask. That vote.ballot leaves nothing in a bypass latch is the model's choice (log entry 9). -/
def Obligations.BallotMaskAndNop : Prop :=
  (∀ (h : Head) (k : BitVec 8) (a : Src) s gid s1 g sh s', Passes (.voteBallot h k a) s gid s1 g sh s' →
    let m := g.lanesAt s1 sh
    let sl := g.slot s1
    let ballot := maskOf fun l => m.getLsbD l.val && decide (readSrc s' g sl l a 32 ≠ 0#32)
    ∃ t g' mask', exec (.voteBallot h k a) s = .next t ∧ t = s'.setGroup gid g' ∧
      g' = { g with k := g'.k, late := g'.late, s0 := g'.s0, s1 := g'.s1 } ∧ g'.slot (!s1) = g.slot (!s1) ∧
      g'.slot s1 = Slot.advance { sl with mask := mask' } false ∧
      (∀ p, p < 5024 → g'.k.getLsbD p =
        if m ≠ 0#96 ∧ 32 * k.toNat ≤ p ∧ p < 32 * k.toNat + 96 then ballot.getLsbD (p - 32 * k.toNat) else g.k.getLsbD p) ∧
      (∀ b, b < 96 → mask'.getLsbD b =
        if m ≠ 0#96 ∧ 154 < k.toNat then
          sl.owned.getLsbD b &&
            (if 32 * k.toNat ≤ 5024 + b ∧ 5024 + b < 32 * k.toNat + 96 then ballot.getLsbD (5024 + b - 32 * k.toNat)
             else sl.mask.getLsbD b)
        else sl.mask.getLsbD b)) ∧
  (∀ (h : Head) s gid s1 g sh s', Passes (.nop h) s gid s1 g sh s' →
    exec (.nop h) s = .next (s.setGroup gid (g.modSlot s1 fun sl => sl.advance false))) ∧
  ∀ (h : Head) (beat : BitVec 2) (imm : BitVec 32) s gid s1 g sh s', Passes (.maskWrite h beat imm) s gid s1 g sh s' →
    beat.toNat ≤ 2 → ∃ t mask', exec (.maskWrite h beat imm) s = .next t ∧
      t = s.setGroup gid (g.modSlot s1 fun sl => Slot.advance { sl with mask := mask' } false) ∧
      ∀ b, b < 96 → mask'.getLsbD b =
        if g.uniIssues h then
          ((g.slot s1).owned.getLsbD b &&
            (if b / 32 = beat.toNat then imm.getLsbD (b % 32) else (g.slot s1).mask.getLsbD b))
        else (g.slot s1).mask.getLsbD b

/-- R204: pack and unpack take eight elements of the source width from A and put them, changed to the destination's width, into
eight consecutive places: pack truncates or clamps, unpack extends. That their latch takes the low 64 bits of the result is the model's
choice (log entry 9). -/
def Obligations.Packing : Prop :=
  ∀ (h : Head) (d a : BitVec 9) (mode : BitVec 4) (sg : Bool) (sw : BitVec 3),
    (∃ v : Value (8 * wBits h.w), Gives (.pack h d a mode sg sw) v ∧
      ∀ s g sl m l i, i < 8 →
        let x := (g.sliceRead l a.toNat (8 * wBits sw)).extractLsb' (wBits sw * i) (wBits sw)
        (v s g sl m l).extractLsb' (wBits h.w * i) (wBits h.w) =
          if mode = 0#4 then x.setWidth (wBits h.w) else satTo (wBits h.w) sg (if sg then x.toInt else x.toNat)) ∧
    ∃ v : Value (8 * wBits h.w), Gives (.unpack h d a sg sw) v ∧
      ∀ s g sl m l i, i < 8 →
        let x := (g.sliceRead l a.toNat (8 * wBits sw)).extractLsb' (wBits sw * i) (wBits sw)
        (v s g sl m l).extractLsb' (wBits h.w * i) (wBits h.w) =
          if sg then x.signExtend (wBits h.w) else x.setWidth (wBits h.w)

/-! ### Floating point and conversions (R163, R191 to R207) -/

/-- R191, R192, R17, R186, R198: the sum, difference, product, quotient and fused product-sum of the two or three values, exact
and then rounded once in the mode that the word or sr.fpctl gives. ffma takes its mode from sr.fpctl. -/
def Obligations.FloatArithmetic : Prop :=
  ∀ (h : Head) (d : Dst) (a b c : Src) (rm : BitVec 3),
    let f := Format.ofW h.w
    GivesF (w := fBits h.w) (.fadd h d a b rm) rm 1 (fun s g sl l =>
      roundIn g f (fpMode g rm) l 0 (fAdd (fpMode g rm) (readF s g sl l a f) (readF s g sl l b f))) ∧
    GivesF (w := fBits h.w) (.fsub h d a b rm) rm 1 (fun s g sl l =>
      roundIn g f (fpMode g rm) l 0 (fAdd (fpMode g rm) (readF s g sl l a f) (readF s g sl l b f).negate)) ∧
    GivesF (w := fBits h.w) (.fmul h d a b rm) rm 1 (fun s g sl l =>
      roundIn g f (fpMode g rm) l 0 (fMul (readF s g sl l a f) (readF s g sl l b f))) ∧
    GivesF (w := fBits h.w) (.fdiv h d a b rm) rm 1 (fun s g sl l =>
      roundIn g f (fpMode g rm) l 0 (fDiv (readF s g sl l a f) (readF s g sl l b f))) ∧
    GivesF (w := fBits h.w) (.ffma h d a b c) 0#3 1 (fun s g sl l =>
      roundIn g f (fpMode g 0#3) l 0 (fFma (fpMode g 0#3) (readF s g sl l a f) (readF s g sl l b f) (readF s g sl l c f)))

/-- R193, R194, R197: square root, reciprocal, reciprocal root, the transcendentals, rounding to an integral value, and the
class of a value as one bit of ten. -/
def Obligations.FloatUnary : Prop :=
  ∀ (h : Head) (d : Dst) (a : Src) (exact : Bool) (rm : BitVec 3),
    let f := Format.ofW h.w
    let un := fun (op : UnFn) (s : State) (g : Group) (sl : Slot) (l : Lane) =>
      (roundIn g f (fpMode g rm) l 0 (fUn op (readF s g sl l a f)) : FRes (fBits h.w))
    GivesF (.fsqrt h d a rm) rm 1 (un .sqrt) ∧ GivesF (.frcp h d a rm) rm 1 (un .rcp) ∧ GivesF (.frsq h d a rm) rm 1 (un .rsq) ∧
    GivesF (.fex2 h d a rm) rm 1 (un .ex2) ∧ GivesF (.flg2 h d a rm) rm 1 (un .lg2) ∧ GivesF (.fsin h d a rm) rm 1 (un .sin) ∧
    GivesF (.fcos h d a rm) rm 1 (un .cos) ∧
    GivesF (w := fBits h.w) (.frnd h d a exact rm) rm 1 (fun s g sl l =>
      let r := frndBits g f exact (fpMode g rm) l (readF s g sl l a f)
      (BitVec.ofNat _ r.1, r.2)) ∧
    Gives (.fcls h d a) (fun s g sl _ l =>
      let n : Nat := match decodeF f (readBitsF s g sl l a f) with
        | .nan true => 0 | .nan false => 1
        | .inf neg => if neg then 2 else 9
        | .fin neg q => if q = 0 then (if neg then 5 else 6) else if q < pow2 f.eMin then (if neg then 4 else 7) else (if neg then 3 else 8)
      BitVec.ofNat (fBits h.w) (2 ^ n))

/-- R195, R196: fmin and fmax give the other operand where one is a NaN, and raise nv for a signalling one; fsetp writes the
comparison's truth. -/
def Obligations.FloatCompare : Prop :=
  ∀ (h : Head) (d : Dst) (p : PDst) (a b : Src) (cond : BitVec 4),
    let f := Format.ofW h.w
    let pick := fun (max : Bool) (s : State) (g : Group) (sl : Slot) (l : Lane) =>
      let xa := flushedBits f (ftzOn g) (readBitsF s g sl l a f)
      let xb := flushedBits f (ftzOn g) (readBitsF s g sl l b f)
      let va := decodeF f xa
      let vb := decodeF f xb
      ((BitVec.ofNat (fBits h.w)
          (if va.isNaN then (if vb.isNaN then f.canonNaN else xb)
           else if vb.isNaN then xa
           else if (if max then fLess va vb else fLess vb va) then xb else xa),
        if va.isSig || vb.isSig then fNv else fNone) : FRes (fBits h.w))
    GivesF (.fmin h d a b) 1#3 0 (pick false) ∧ GivesF (.fmax h d a b) 1#3 0 (pick true) ∧
    GivesPredF (.fsetp h p a b cond) (fun s g sl l => fCond cond (readF s g sl l a f) (readF s g sl l b f))

/-- R163: redx combines the lanes in a fixed tree, lanes that do not execute standing for the operation's identity, and every
executing lane receives the one result; the floating-point sum raises its flags. -/
def Obligations.Reductions : Prop :=
  ∀ (h : Head) (d : Dst) (a : Src) (op : BitVec 4) (rm : BitVec 3) (sg : Bool),
    (op ≠ 6#4 → Gives (.redx h d a op rm sg) (fun s g sl m _ =>
      reduce96 (redOp op sg) (redIdentity (wBits h.w) op sg)
        (Vector.ofFn fun l => if m.getLsbD l.val then readSrc s g sl l a (wBits h.w) else redIdentity (wBits h.w) op sg))) ∧
    GivesF (w := fBits h.w) (.redx h d a 6#4 rm sg) rm 0 (fun s g sl _ =>
      let f := Format.ofW h.w
      let r := reduce96 (faddNode g f (fpModeNoSr g rm)) (packF f true 0, fNone)
        (Vector.ofFn fun l => if (execLanes g sl h).getLsbD l.val then (readBitsF s g sl l a f, fNone) else (packF f true 0, fNone))
      (BitVec.ofNat _ r.1, r.2))

/-- R199 to R201: conversions between formats and to and from integers round once; integers are clamped with nv; a block's scale
is that of a magnitude. -/
def Obligations.Conversions : Prop :=
  ∀ (h : Head) (d : Dst) (a : Src) (df sf sw ef : BitVec 3) (sat sg : Bool) (rm : BitVec 3),
    GivesF (w := fmtBits df) (.fcvt h d a df sf sat rm) rm 1 (fun s g sl l =>
      let x := readF s g sl l a (Format.ofCode sf)
      let r := convTo (Format.ofCode df) (fpMode g rm) (ftzOn g) x (srOracle g l 0)
      resF _ (if sat && !x.isNaN then satInf (Format.ofCode df) r else r)) ∧
    GivesF (w := fmtBits df) (.icvt h d a df sw sg rm) rm 1 (fun s g sl l =>
      let x : Int := if sg then (readSrc s g sl l a (wBits sw)).toInt else (readSrc s g sl l a (wBits sw)).toNat
      resF _ (convTo (Format.ofCode df) (fpMode g rm) (ftzOn g) (.fin (decide (x < 0)) (x.natAbs : Nat)) (srOracle g l 0))) ∧
    GivesF (w := wBits h.w) (.fcvti h d a sf sg rm) rm 1 (fun s g sl l =>
      toInt _ sg (fpMode g rm) (readF s g sl l a (Format.ofCode sf)) (srOracle g l 0)) ∧
    GivesF (w := 8) (.bscale h d a ef sf) 1#3 0 (fun s g sl l =>
      let x := readF s g sl l a (Format.ofCode sf)
      (BitVec.ofNat 8 (scaleOf (Format.ofCode ef) x), if x.isNaN then fNv else fNone))

/-- R202, R203, R207: blkdq multiplies eight elements by one scale; teval evaluates the bound table; blkq divides eight elements by a scale,
which is its operand or, without one, the scale of the largest magnitude among them, packs them into one word, and leaves the scale beside
them. The latch takes the element word, and the stochastic counters advance by 8. The scale of a block that is all NaN is free (log entry 22);
the latch of blkdq takes the low 64 bits of its result (log entry 9); corners of blkdq and teval are those of log entry 18. -/
def Obligations.BlocksAndTables : Prop :=
  ∀ (h : Head) (d : Dst) (dd a : BitVec 9) (x y : Src) (df ef sf : BitVec 3) (t : BitVec 2) (rm : BitVec 3),
    GivesF (w := 8 * fmtBits df) (.blkdq h dd x y df ef rm) rm 8 (fun s g sl l =>
      let e := Format.ofCode ef
      let v := (readSrc s g sl l x (blockBits ef)).toNat
      let p := packElems (Format.ofCode df).bits ((List.range 8).map fun i =>
        dequantOne (Format.ofCode df) e (fpMode g rm) (ftzOn g) (readSrc s g sl l y 8).toNat
          (v / 2 ^ (e.bits * i) % 2 ^ e.bits) (srOracle g l i))
      (BitVec.ofNat _ p.1, p.2)) ∧
    GivesF (w := fBits h.w) (.teval h d x t rm) rm 1 (fun s g sl l =>
      roundIn g (Format.ofW h.w) (fpMode g rm) l 0
        (tableEval ((s.quad g.die g.core g.quad).tables[bankOf g.bank][(Fin.ofNat 4 t.toNat)]) (fpMode g rm)
          (readF s g sl l x (Format.ofW h.w)))) ∧
    ∀ (z : Option Src) s gid s1 g sh s', Passes (.blkq h dd a z ef sf rm) s gid s1 g sh s' → h.uni = false →
      let m := g.lanesAt s1 sh
      let xs := fun l : Lane => (List.range 8).map (blockElem g l a (Format.ofCode sf))
      let given := fun l : Lane => ∃ e ∈ xs l, e.isNaN = false
      ∃ sc : Lane → Nat,
        (∀ l, m.getLsbD l.val = true → match z with
          | some y => sc l = (readSrc s' g (g.slot s1) l y 8).toNat
          | none => sc l < 256 ∧ (given l → (∃ e ∈ xs l, e.isNaN = false ∧ sc l = scaleOf (Format.ofCode ef) e) ∧
              ∀ e ∈ xs l, e.isNaN = false → scaleOf (Format.ofCode ef) e ≤ sc l)) ∧
        let q := fun l : Lane => packElems (Format.ofCode ef).bits ((xs l).zipIdx.map fun e =>
          quantOne (Format.ofCode ef) (fpMode g rm) (sc l) e.1 (srOracle g l e.2))
        (flagTraps g m (fun l => (q l).2) = 0#96 →
          ∃ g' n, exec (.blkq h dd a z ef sf rm) s = .next ({ s' with fresh := n }.setGroup gid g') ∧
            (n = s'.fresh ∨ (z = none ∧ ∃ l : Lane, m.getLsbD l.val = true ∧ ¬ given l)) ∧
            g' = { g with slices := g'.slices, latches := g'.latches, latchW := g'.latchW, late := g'.late, region := g'.region,
                          fpflags := g'.fpflags, srctr := g'.srctr, s0 := g'.s0, s1 := g'.s1 } ∧
            g'.slot s1 = (g.slot s1).advance sh.res ∧ g'.slot (!s1) = g.slot (!s1) ∧
            g'.fpflags = g.fpflags ||| (orFlags m fun l => (q l).2).setWidth 32 ∧
            (∀ l : Lane, g'.srctr[l] = if m.getLsbD l.val ∧ fpMode g rm = .sr then g.srctr[l] + 8#32 else g.srctr[l]) ∧
            (∀ (l : Lane) p, p < 512 → g'.latches[l].getLsbD p =
              latchAfter g (g.slot s1) sh m (fun l => BitVec.ofNat (blockBits ef) (q l).1) l p) ∧
            (∀ l : Lane, m.getLsbD l.val = true → h.sup = false → 4 * dd.toNat + blockBits ef + 8 ≤ 2048 →
              g'.sliceRead l dd.toNat (blockBits ef) = BitVec.ofNat _ (q l).1 ∧
              g'.sliceRead l (dd.toNat + blockBits ef / 4) 8 = BitVec.ofNat 8 (sc l)) ∧
            (∀ (l : Lane) p, p < 2048 → (m.getLsbD l.val = false ∨ h.sup = true ∨ p < 4 * dd.toNat ∨ 4 * dd.toNat + blockBits ef + 8 ≤ p) →
              g'.slices[l].getLsbD p = g.slices[l].getLsbD p))

/-- R186, R191, R134, R198: a floating-point word in some of whose lanes a flag with an enabled trap is raised takes the
floating-point trap, cause 0x0A, for exactly those lanes. The other lanes complete (a uniform destination is written by none);
every lane's flags are ORed in; the counters advance in the lanes that complete. The word is any whose meaning is the
floating-point pipeline. -/
def Obligations.FloatTraps : Prop :=
  ∀ (w : Nat) (i : Instr) (rm : BitVec 3) (adv : Nat) (v : State → Group → Slot → Lane → FRes w),
    (∀ s, exec i s = runF i s rm adv v) → ∀ s gid s1 g sh s', Passes i s gid s1 g sh s' →
      let m := g.lanesAt s1 sh
      let r := fun l => v s' g (g.slot s1) l
      let bad := flagTraps g m fun l => (r l).2
      bad ≠ 0#96 → sh.head.uni = false →
      ∃ t u, exec i s = .next t ∧ t = trapWord (s'.setGroup gid u) gid s1 i sh 0x0A#8
          ((orFlags bad (fun l => (r l).2) &&& trapEnables g).setWidth 8) bad false ∧
        u.slot s1 = g.slot s1 ∧ u.k = g.k ∧
        u.fpflags = g.fpflags ||| (orFlags m fun l => (r l).2).setWidth 32 ∧
        (∀ (l : Lane) p, p < 2048 → u.slices[l].getLsbD p = sliceAfter g sh (m &&& ~~~bad) (fun l => (r l).1) l p) ∧
        ∀ l : Lane, u.srctr[l] =
          if (m &&& ~~~bad).getLsbD l.val ∧ fpMode g rm = .sr then g.srctr[l] + BitVec.ofNat 32 adv else g.srctr[l]

/-! ### Words, headers and steps (R7 to R11, R33, R34) -/

/-- Words that the manual writes out decode to the instructions that it gives them for: R155's saturating add, R11's product and fused
product-sum, the and and the brx of R176's dispatch, a load and a scatter, a fence of R92, R171's join, and an mzero; two clause headers
decode as headers. A join with a bit that it does not use, and a join in a header's place, decode to nothing. -/
def Obligations.DecodeSpecWords : Prop :=
  let h := fun (w : BitVec 3) (c : BitVec 2) => ({ uni := false, w := w, ga := ⟨false, 7#3⟩, gb := ⟨false, 7#3⟩, sup := false, ctr := c } : Head)
  (decode 0#3 0x08DDC28059FFC0C0#64).toOption = some (.iadd (h 3#3 0#2) (.slice 40#9) (.slice 44#9) (.imm 0x1FF#9) true true) ∧
  (decode 0#3 0x45DDC40040000000#64).toOption = some (.fmul (h 7#3 0#2) (.slice 64#9) (.slice 32#9) (.slice 0#9) 0#3) ∧
  (decode 0#3 0x47DDC40060040200#64).toOption = some (.ffma (h 7#3 0#2) (.slice 64#9) (.slice 48#9) (.slice 16#9) (.slice 64#9)) ∧
  (decode 0#3 0x215DC68411BFC000#64).toOption = some (.and (h 5#3 0#2) (.slice 104#9) (.ureg 8#8) (.imm 0xFF#9)) ∧
  (decode 0#3 0x81DDC10429801008#64).toOption = some (.ld (h 7#3 0#2) (.slice 16#9) (.ureg 20#8) (.imm 0#9) 2#3 0#2 1#11) ∧
  (decode 0#3 0x91DDC40430181000#64).toOption = some (.sct (h 7#3 0#2) 64#9 (.ureg 24#8) (.slice 96#9) 2#3 0#2 0#6) ∧
  (decode 0#3 0x8A1DF11000000000#64).toOption = some (.fence (h 0#3 0#2) 12#4 4#4 2#3) ∧
  (decode 0#3 0xC21DC34000000000#64).toOption = some (.brx (h 0#3 0#2) (.slice 104#9) 0#16 false false) ∧
  (decode 0#3 0xCA1DC00000000000#64).toOption = some .join ∧
  (decode 2#3 0x4200000000000000#64).toOption = some (.mzero 0#3) ∧
  (decodeHeader 0xFC08800000000000#64).toOption = some (.clauseIssue 0#3 1#4 0#3 true) ∧
  (decodeHeader 0xFD20000000000000#64).toOption = some (.clauseIssue 2#3 4#4 0#3 false) ∧
  (decode 0#3 0xCA1DC00000000001#64).toOption = none ∧ (decodeHeader 0xCA1DC00000000000#64).toOption = none

/-- R7, R12 to R32: every well-formed word of the lane and uniform classes decodes, from its encoding in its class, to itself
with every operand; and a word decodes to nothing that does not encode to it. -/
def Obligations.WordsRoundTrip : Prop :=
  ∀ (i : Instr) (sh : Shape) (x : Word64), wordShape i = some sh → i.wf = true → encode i = some x →
    decode (if sh.head.uni then 1#3 else 0#3) x = .ok i ∧
    ∀ cls j, decode cls x = .ok j → encode j = some x

/-- R8, R9, R25 to R27, R31, R32: so do clause headers and the sequencers' words: a scalar or matrix word in class 2, a copy
word in class 3, and a scalar word there too. -/
def Obligations.ProgramWordsRoundTrip : Prop :=
  (∀ (cls : BitVec 3) (cnt : BitVec 4) (wait : BitVec 3) (yld : Bool), (Instr.clauseIssue cls cnt wait yld).wf = true →
    ∃ x, encode (.clauseIssue cls cnt wait yld) = some x ∧ isHeader x = true ∧
      decodeHeader x = .ok (.clauseIssue cls cnt wait yld)) ∧
  ∀ (i : Instr) (x : Word64), wordShape i = none → (∀ cls cnt wait yld, i ≠ .clauseIssue cls cnt wait yld) → i.wf = true →
    encode i = some x →
    isHeader x = false ∧
    match i with
    | .mma _ _ _ _ _ _ _ | .mzero _ | .mwaitAt _ | .mwaitAcc _ | .mrel _ | .mbscale _ _ => decode 2#3 x = .ok i
    | .cld _ _ _ _ _ _ _ _ | .cst _ _ _ _ _ _ _ _ | .cgth _ _ _ _ _ _ _ _ | .csct _ _ _ _ _ _ _ _ | .cacc _ _ _ _ _ _ _ _ _
    | .ccoll _ _ _ _ _ _ _ _ _ _ | .cwait _ _ _ _ _ | .cfill _ _ _ _ _ _ => decode 3#3 x = .ok i
    | _ => decode 2#3 x = .ok i ∧ decode 3#3 x = .ok i

/-- R9, R11, R33, R34, R52, R141, R146: the step of a slot's turn, where the slot may issue now, is exec of the instruction that the
eight bytes at its program counter decode to in the class of its clause, or of the header that they hold where a header is next;
bytes that are neither trap, and bytes that do not translate park the slot at its word. A path that began at a page that did not
translate stands, once it does, at the header or the word that it finds. The step of a blocked word's turn tries the word again, and a slot
that may not issue now lets a cycle pass. The plan of turns, the trial of a blocked word and the cycle that passes are the model's choice (log
entry 4), and the lanes in which an undecodable word traps are its reading (log entry 11). -/
def Obligations.StepRunsSlotWord : Prop :=
  ∀ (s : State) (r : List Turn) (gid : Nat) (s1 : Bool),
    let n := { noteWaits s with turns := r }
    s.turns = .go (.slot gid s1) :: r → s.tripped = false →
    (slotProbes n gid s1 = true → step s = probeWord n gid s1) ∧
    (slotProbes n gid s1 = false → agentReady n (.slot gid s1) = false → step s = .next { n with now := s.now + 1#64, cur := .none }) ∧
    (slotProbes n gid s1 = false → agentReady n (.slot gid s1) = true → ∀ g,
      let u := startTurn n (.slot gid s1)
      u.group? gid = some g → dueFault u gid s1 = none →
      let sl := if (g.slot s1).afterJoin then (g.slot s1).begin u g else g.slot s1
      let w := u.setGroup gid (g.setSlot s1 sl)
      let pc := sl.fetchPc w g
      u.cur = .slot gid s1 ∧ u.now = s.now + 1#64 ∧ ((g.slot s1).afterJoin = false → sl = g.slot s1 ∧ pc = (g.slot s1).pc) ∧
      (∀ v x, fetchGroup w g pc = (v, .ok x) →
        if sl.left = 0 then
          (∀ i, decodeHeader x = .ok i → step s = exec i v) ∧
          (∀ e, decodeHeader x = .error e → step s = .next (rawTrap v gid s1 0x01#8 sl.mask x))
        else
          (∀ i, decode sl.cls x = .ok i → step s = exec i v) ∧
          (∀ e, decode sl.cls x = .error e → step s = .next (rawTrap v gid s1 0x02#8 (rawLanes g sl x) x))) ∧
      ∀ v c va, fetchGroup w g pc = (v, .error (c, va)) → step s = .next (parkSlot v gid s1 va c 3#8 (g.slot s1).mask))

/-- R230, R300: the step of a sequencer program's turn is exec of the word at its program counter in its engine's class, or of a
header; other bytes end the program with an engine fault, and bytes that do not translate stop it. A step of the device is exec
of it at the next cycle. That a row of the device is a planned step is the model's choice (log entries 4 and 14); the detail of an ill-formed
word and its sr.efa of 0 are its reading (log entries 15 and 21). -/
def Obligations.StepRunsProgramsAndEvents : Prop :=
  (∀ (s : State) (r : List Turn) (pid : Nat) (p : Prog),
    s.turns = .go (.prog pid) :: r → s.tripped = false → progReady (noteWaits s) pid = true → s.prog? pid = some p →
    let u : State := { noteWaits s with turns := r, now := s.now + 1#64, cur := .prog pid }
    (∀ v x, fetchAt u p.die p.core p.tenant false p.pc = (v, .ok x) →
      if p.left = 0 then
        (∀ i, decodeHeader x = .ok i → step s = exec i v) ∧ (∀ e, decodeHeader x = .error e → step s = .next (progFault v pid dIllegalHeader 0#80))
      else
        (∀ i, decode p.cls x = .ok i → step s = exec i v) ∧
        (∀ e, decode p.cls x = .error e → step s = .next (progFault v pid dIllegalInstruction 0#80))) ∧
    ∀ v c va, fetchAt u p.die p.core p.tenant false p.pc = (v, .error (c, va)) → step s = .next (stopProg v pid va c)) ∧
  ∀ (s : State) (r : List Turn) (i : Instr), s.turns = .ev i :: r → s.tripped = false →
    step s = exec i { noteWaits s with turns := r, now := s.now + 1#64, cur := .none }

/-! ### Reset and boot (R329, R330) -/

/-- R55, R105, R186, R268, R279, R314, R326: what the manual gives for reset. The carve-out is 4, sr.leaselen 11, sr.ecbud 1,024,
sr.quantum 4,000; the tenants' and dies' other registers are 0; the mailbox masks every interrupt; the boot stands at the ROM,
and no group, grid or program runs. A group that starts has sr.fpctl 1 and its other registers 0. -/
def Obligations.ResetValues : Prop :=
  let s := State.reset
  (∀ die core, (s.core die core).carve = 4 ∧ (s.core die core).ecbud = 1024#16 ∧ (s.core die core).rlt = [] ∧
    (s.core die core).l1 = [] ∧ (s.core die core).tlb = []) ∧
  (∀ d, (s.die d).leaselen = 11#4 ∧ (s.die d).quantum = 4000#24 ∧ (s.die d).dqbase = 0#80 ∧ (s.die d).mfqbase = 0#80 ∧
    (s.die d).mfqhead = 0#12 ∧ (s.die d).mfqtail = 0#12 ∧ (s.die d).partbase = 0#80 ∧ (s.die d).partbusy = false ∧
    (s.die d).parterror = false) ∧
  (∀ t, (s.tenant t).agkey = 0#128 ∧ (s.tenant t).ptroot = 0#56 ∧ (s.tenant t).csabase = 0#80 ∧ (s.tenant t).csasize = 0#16 ∧
    (s.tenant t).csacount = 0#16 ∧ (s.tenant t).dgmode = 0#2 ∧ (s.tenant t).dglog = 0#80) ∧
  s.spinbase = 0#80 ∧ s.mbox.mask = BitVec.allOnes 64 ∧ s.mbox.cause = 0#64 ∧ s.mbox.go = false ∧ s.mbox.done = false ∧
  s.mbox.winBase = 0#20 ∧ mboxReg s.mbox 0 = 0x00010000#64 ∧
  s.now = 0#64 ∧ s.boot = .rom ∧ s.tripped = false ∧ s.groups = [] ∧ s.grids = [] ∧ s.progs = [] ∧
  ∀ tenant now lp gr entry owned, let g := Group.start tenant now lp gr entry owned
    g.fpctl = 1#32 ∧ g.fpflags = 0#32 ∧ g.utrap = 0#80 ∧ g.treg.cause = 0#32 ∧ g.treg.mask = 0#96 ∧ g.trapMode = false ∧
    g.s0.pc = entry ∧ g.s0.owned = owned ∧ g.s0.mask = owned ∧ g.s1.owned = 0#96 ∧ g.stack = [] ∧ g.k = 0#5120 ∧
    (∀ l : Lane, g.slices[l] = 0#2048 ∧ g.cdepth[l] = 0#13 ∧ g.srctr[l] = BitVec.ofNat 32 (2 ^ 25 * l.val)) ∧
    ∀ n l, n ≠ 7#3 → g.pred n l = false

/-- R329: the boot's stages in order. Whether an image verifies and whether it is the last are free; a failed verification stops
the boot and reports the image; each digest goes into a measurement register, that of an image that fails too. The supervisor then starts on 4 management cores
in supervisor mode, and sets the striped reserve of every die and the exported window, whose places are free values (R47; log entry 17). Another RESET_BOOT is the reset; so it is after a thermal trip, which stops everything. How a digest is
extended and where the supervisor starts are free values (log entry 50). A module that has tripped takes no step but its reset: only the cycle
count and the plan of turns move, and the reset leaves every field at its reset value, but for the module's memory and the model's
own counters. -/
def Obligations.BootAndTrip : Prop :=
  (∀ s : State, s.tripped = false →
    (s.boot = .rom → exec .resetBoot s = .next { s with boot := .images 0 }) ∧
    (∀ n, s.boot = .images n →
      exec .resetBoot s = .next
        (let t := { s with measured := s.measured.set (Fin.ofNat 4 n) (extended s.fresh), fresh := s.fresh + 9 }
         if (Config.freeValue s.fresh).getLsbD 0 then
           { t with boot := if (Config.freeValue s.fresh).getLsbD 1 then .trained else .images (n + 1) }
         else { t with boot := .failed, reports := s.reports ++ [n] })) ∧
    (s.boot = .trained → exec .resetBoot s = .next { s with boot := .diesUp }) ∧
    (s.boot = .diesUp → ∃ t, exec .resetBoot s = .next t ∧ t.boot = .running ∧ t = { s with boot := .running, fresh := t.fresh, groups := t.groups, seqNo := t.seqNo, dies := t.dies, expBase := t.expBase, expSize := t.expSize } ∧
      (∀ n, n < 4 → ∃ g, t.group? (s.seqNo + n) = some g ∧ g.sup = true ∧ g.s0.owned = 1#96) ∧
      (∀ d, d < Config.dies → (t.die d).reserveBase % 4096 = 0 ∧ (t.die d).reserveSize % 4096 = 0 ∧
        (t.die d).reserveBase + (t.die d).reserveSize ≤ 48 * 2 ^ 30) ∧
      t.expBase % 4096 = 0 ∧ t.expSize % 4096 = 0 ∧ t.expSize ≤ 2 ^ 46) ∧
    (s.boot = .running ∨ s.boot = .failed → exec .resetBoot s = .next s.restart) ∧
    exec .thermalTrip s = .next { s.restart with tripped := true } ∧
    exec .resetBoot { s.restart with tripped := true } = .next (State.restart { s.restart with tripped := true })) ∧
  ∀ s t : State, s.tripped = true → step s = .next t →
    (t = { noteWaits s with now := t.now, cur := .none, turns := t.turns }) ∨
    (∃ r, s.turns = .ev .resetBoot :: r ∧
      t = { State.reset with mem := s.mem.filter fun c => decide (c.1 < 2 ^ 56), turns := r, fresh := s.fresh, seqNo := s.seqNo })

/-- The memory's form, as the model keeps it (log entry 1), holds at reset, where no byte is listed. -/
def Obligations.ResetMemoryForm : Prop := State.reset.Inv ∧ ∀ a, memGet State.reset.mem a = 0#8

/-- Every step keeps the memory's form (log entry 1), whatever it does: addresses rise, no byte is listed twice, and none that
reads as an unlisted one; and the L2 goes on to hold lines of the dies' DRAM alone, each in one way at most (R60, R61, R320). -/
def Obligations.EveryStepKeepsMemoryForm : Prop := ∀ s t : State, s.Inv → step s = .next t → t.Inv

/-! ### Traps and the return from them (R34, R176, R278 to R282) -/

/-- R34, R278, R224, R11: a word of whose lanes some would go to no header traps with illegal-header in those lanes, before any other
fault, a ret that stands where no transfer may among them, as far as its frames can be read (a faulting fetch of the target itself parks the
slot there, log entry 61); a word whose own fields give a fault traps with that cause, in the lanes that R278 names, and does nothing else; a
word that needs the matrix unit of another team traps with matrix-not-held, and with no-team where its group has none. The order of the checks
is the model's reading (log entry 11). A word at which no slot stands stops the machine (model's choice, log entry 4). -/
def Obligations.WordFaultsTrap : Prop :=
  (∀ (i : Instr) s gid s1 g sh, Issues s gid s1 g → wordShape i = some sh → badLanding s g (transfersTo i s g (g.slot s1) sh) ≠ 0#96 →
    exec i s = .next (trapWord s gid s1 i sh 0x01#8 0#8 (badLanding s g (transfersTo i s g (g.slot s1) sh)) true)) ∧
  (∀ (i : Instr) s gid s1 g sh c, Issues s gid s1 g → wordShape i = some sh → badLanding s g (transfersTo i s g (g.slot s1) sh) = 0#96 →
    (∀ h, i = .ret h → (g.slot s1).left = 1) →
    wordFault g (g.slot s1) i sh = some c → exec i s = .next (trapWord s gid s1 i sh c 0#8 (trapLanes g (g.slot s1) sh) false)) ∧
  (∀ (h : Head) s gid s1 g sh, let i := Instr.ret h
    Issues s gid s1 g → wordShape i = some sh → (g.slot s1).left ≠ 1 →
    let back := retLanes h g (g.slot s1) &&& ~~~(atTop g (retLanes h g (g.slot s1)))
    (∀ s' fs, readFrames s gid s1 g back = (s', fs, false) → badReturns s' g (addrOf fs) back ≠ 0#96 →
      exec i s = .next (trapWord s' gid s1 i sh 0x01#8 0#8 (badReturns s' g (addrOf fs) back) true)) ∧
    ∀ c, wordFault g (g.slot s1) i sh = some c →
      (∀ s' fs, readFrames s gid s1 g back = (s', fs, false) → badReturns s' g (addrOf fs) back = 0#96) →
      exec i s = .next (trapWord s gid s1 i sh c 0#8 (trapLanes g (g.slot s1) sh) false)) ∧
  (∀ (i : Instr) s gid s1 g sh, Issues s gid s1 g → wordShape i = some sh → badLanding s g (transfersTo i s g (g.slot s1) sh) = 0#96 →
    wordFault g (g.slot s1) i sh = none → usesMatrix i sh = true → g.lanesAt s1 sh ≠ 0#96 →
    (g.team = none → exec i s = .next (trapWord s gid s1 i sh 0x12#8 0#8 (trapLanes g (g.slot s1) sh) false)) ∧
    (∀ t x, g.team = some t → (s.quad g.die g.core g.quad).mx.holder = some x → x ≠ t →
      exec i s = .next (trapWord s gid s1 i sh 0x14#8 0#8 (trapLanes g (g.slot s1) sh) false))) ∧
  ∀ (i : Instr) s sh, wordShape i = some sh → s.cur = .none → exec i s = .fault .noIssuer

/-- R279, R280, R133, R140: taking a trap outside trap mode with a handler. The trap registers hold the cause, the destination, the
word, its address and the trapped lanes; the frame holds both slots, the latches and the stack height; S0 starts at sr.utrap
with every lane that is live, waiting or parked, S1 is empty; slices 480 to 511 and k144 to k151 change places with their banks,
and every other register, predicate, counter and stack entry, and every other group, stays. R282: a trap in trap mode, or with sr.utrap 0,
halts the group: no slot issues again, no other register of the group changes but the trap registers, and a record of kind 6 with the
word's address, the cause and the lanes goes to the die's fault queue. That a trap which halts updates the trap registers too is the model's
reading (log entry 32). -/
def Obligations.TrapEntry : Prop :=
  ∀ (i : Instr) (s : State) (gid : Nat) (s1 : Bool) (g : Group) (sh : Shape) (x : Word64) (cause detail : BitVec 8) (mask : Mask) (whole : Bool),
    s.group? gid = some g → encode i = some x →
    (g.trapMode = false → g.utrap ≠ 0#80 → ∃ g', trapWord s gid s1 i sh cause detail mask whole = s.setGroup gid g' ∧
      g'.trapMode = true ∧
      g'.treg = { cause := 0#16 ++ detail ++ cause, dst := tdstOf sh, inst := x, pc := (g.slot s1).pc, mask := mask } ∧
      (∃ fr, g'.frame = some fr ∧ fr.s0 = g.s0 ∧ fr.s1 = g.s1 ∧ fr.faultS1 = s1 ∧ fr.latches = g.latches ∧
        fr.height = g.stack.length ∧ fr.whole = whole) ∧
      g'.s0.pc = g.utrap ∧ g'.s0.left = 0 ∧ g'.s0.owned = g.liveMask ∧ g'.s0.mask = g.liveMask ∧ g'.s1.owned = 0#96 ∧
      (∀ (l : Lane) p, p < 2048 → g'.slices[l].getLsbD p = if 1920 ≤ p then g.shadowSl[l].getLsbD (p - 1920) else g.slices[l].getLsbD p) ∧
      (∀ (l : Lane) p, p < 128 → g'.shadowSl[l].getLsbD p = g.slices[l].getLsbD (1920 + p)) ∧
      (∀ p, p < 5120 → g'.k.getLsbD p = if 4608 ≤ p ∧ p < 4864 then g.shadowK.getLsbD (p - 4608) else g.k.getLsbD p) ∧
      (∀ p, p < 256 → g'.shadowK.getLsbD p = g.k.getLsbD (4608 + p)) ∧
      g' = { g with trapMode := true, treg := g'.treg, frame := g'.frame, s0 := g'.s0, s1 := g'.s1, slices := g'.slices,
                    shadowSl := g'.shadowSl, k := g'.k, shadowK := g'.shadowK }) ∧
    (g.trapMode = true ∨ g.utrap = 0#80 →
      let tr : TrapRegs := { cause := 0#16 ++ detail ++ cause, dst := tdstOf sh, inst := x, pc := (g.slot s1).pc, mask := mask }
      ∃ seq, trapWord s gid s1 i sh cause detail mask whole =
        (appendRecord ((s.setGroup gid { g with treg := tr }).setGroup gid { g with treg := tr, halted := true }) g.die
          { addr := (g.slot s1).pc, cause := cause, kind := 6#8, tenant := g.tenant, core := g.core,
            place := placeByte g false false, mask := mask, seq := seq }).1)

/-- R176, R133: rtt and rtt.skip leave trap mode: both slots, the latches and the stack stand as they did at the trap, and the
banks change back. rtt resumes at the faulting word, in the trapped lanes alone or whole; rtt.skip resumes past it; at a clause
header both resume there. A slot's last capture of the clock is kept (R313; log entry 31). Outside trap mode they trap. rtt.sub returns past the faulting word after it has written A into the trapped
lanes of that word's destination and latch, in the interrupted registers; an A that cannot be read at that destination's width traps. -/
def Obligations.ReturnFromTrap : Prop :=
  ∀ (h : Head) (skip : Bool),
    let i := if skip then Instr.rttSkip h else Instr.rtt h
    (∀ s gid s1 g sh s' fr, Passes i s gid s1 g sh s' → (h.uni = true → g.uniIssues h = true) → g.trapMode = true → g.frame = some fr →
      g.stack.length ≤ fr.height → (g.slot (!s1)).owned = 0#96 →
      let old := if fr.faultS1 then fr.s1 else fr.s0
      let sl := if old.left = 0 then old else if skip then old.advance fr.res else if fr.whole then old else { old with redo := some g.treg.mask }
      exec i s = .next (s.setGroup gid
        { g.swapBanks with trapMode := false, frame := none, latches := fr.latches,
                           s0 := { (if fr.faultS1 then fr.s0 else sl) with clock := g.s0.clock },
                           s1 := { (if fr.faultS1 then sl else fr.s1) with clock := g.s1.clock }, stack := g.stack.drop (g.stack.length - fr.height) })) ∧
    (∀ s gid s1 g sh s', Passes i s gid s1 g sh s' → (h.uni = true → g.uniIssues h = true) → g.trapMode = false →
      exec i s = .next (trapWord s gid s1 i sh 0x02#8 0#8 (trapLanes g (g.slot s1) sh) true)) ∧
    (∀ s gid s1 g sh s', Passes i s gid s1 g sh s' → h.uni = true → g.uniIssues h = false → exec i s = .next (s.goesOn gid s1 sh g)) ∧
    ∀ (a : Src) s gid s1 g sh s' fr fsh, Passes (.rttSub h a) s gid s1 g sh s' → (h.uni = true → g.uniIssues h = true) →
      g.trapMode = true → g.frame = some fr → g.stack.length ≤ fr.height → (g.slot (!s1)).owned = 0#96 →
      faultShape g fr = some fsh →
      (∀ c, subBits fsh ≠ 0 → subFault h g a (subBits fsh) = some c →
        exec (.rttSub h a) s = .next (trapWord s' gid s1 (.rttSub h a) sh c 0#8 (trapLanes g (g.slot s1) sh) true)) ∧
      (subFault h g a (subBits fsh) = none → exec (.rttSub h a) s = .next ((leaveTrap s' gid g fr true fr.latches).modGroup gid fun g' =>
        subWrite fsh fr g.treg.mask (fun l =>
          (match a with
           | .imm v => v.signExtend 80
           | .uimm v => v.signExtend 80
           | x => (readSrc s' g (g.slot s1) l x (subBits fsh)).setWidth 80 : BitVec 80)) g'))

/-- R175: trap and bkpt trap in every issued lane with their causes and the code of A as the detail, and do nothing in no lane;
where the supervisor debugs the tenant, bkpt halts the group instead; that it then sets the trap registers too, and what its halt record
holds, are the model's reading (log entry 32). -/
def Obligations.SoftwareTraps : Prop :=
  ∀ (h : Head) (a : Src),
    let code := fun (s : State) (g : Group) (s1 : Bool) (m : Mask) =>
      (readSrc s g (g.slot s1) ((lowest? m).getD (g.slot s1).uniLane) a 32).extractLsb' 0 8
    Completes (.trap h a) (fun _ _ _ _ _ m => m ≠ 0#96) (fun s gid s1 g sh m =>
      trapWord s gid s1 (.trap h a) sh 0x20#8 (code s g s1 m) (trapLanes g (g.slot s1) sh) false) ∧
    Completes (.bkpt h a) (fun s _ _ g _ m => m ≠ 0#96 ∧ (s.tenant g.tenant).debug = false) (fun s gid s1 g sh m =>
      trapWord s gid s1 (.bkpt h a) sh 0x21#8 (code s g s1 m) (trapLanes g (g.slot s1) sh) false) ∧
    (∀ x, encode (.bkpt h a) = some x →
      Completes (.bkpt h a) (fun s _ _ g _ m => m ≠ 0#96 ∧ (s.tenant g.tenant).debug = true) (fun s gid s1 g sh m =>
        haltGroup (s.setGroup gid { g with treg :=
          { cause := 0#16 ++ code s g s1 m ++ 0x21#8, dst := tdstOf sh, inst := x, pc := (g.slot s1).pc, mask := trapLanes g (g.slot s1) sh } })
          gid 0x21#8 (g.slot s1).pc (trapLanes g (g.slot s1) sh))) ∧
    Skips (.trap h a) ∧ Skips (.bkpt h a)

/-! ### Special registers (R53, R186, R279, R313 to R315) -/

/-- R186, R279, R53, R313: the registers with rows of their own. A write of sr.fpctl or sr.utrap with a value outside its range
traps with illegal-instruction; a read of sr.fpflags waits for the lazy instructions of the group, and for a feed or a fragment in either slot, which may still raise flags;
a read of sr.clock0 keeps the whole count for sr.clock1. In no lane a write does nothing. -/
def Obligations.NamedSpecialRegisters : Prop :=
  ∀ (h : Head) (d : Dst) (a : Src) (word : BitVec 2),
    let v := fun (s : State) (g : Group) (s1 : Bool) (m : Mask) => readSrc s g (g.slot s1) ((lowest? m).getD (g.slot s1).uniLane) a 32
    let fine := fun x : Word32 => x &&& 0xFFFF80F8#32 = 0#32 ∧ 1 ≤ (x.extractLsb' 0 3).toNat ∧ (x.extractLsb' 0 3).toNat ≤ 5
    let vec := fun (s : State) (g : Group) (s1 : Bool) (m : Mask) => setWord80 g.utrap word.toNat (v s g s1 m)
    let ill := fun (i : Instr) (s : State) (gid : Nat) (s1 : Bool) (g : Group) (sh : Shape) =>
      trapWord s gid s1 i sh 0x02#8 0#8 (trapLanes g (g.slot s1) sh) true
    Completes (.wrsrFpctl h a) (fun s _ s1 g _ m => m ≠ 0#96 ∧ fine (v s g s1 m))
      (fun s gid s1 g sh m => s.goesOn gid s1 sh { g with fpctl := v s g s1 m }) ∧
    Completes (.wrsrFpctl h a) (fun s _ s1 g _ m => m ≠ 0#96 ∧ ¬ fine (v s g s1 m))
      (fun s gid s1 g sh _ => ill (.wrsrFpctl h a) s gid s1 g sh) ∧
    Completes (.wrsrFpflags h a) (fun _ _ _ _ _ m => m ≠ 0#96)
      (fun s gid s1 g sh m => s.goesOn gid s1 sh { g with fpflags := v s g s1 m &&& 0x3F#32 }) ∧
    Completes (.wrsrUtrap h word a) (fun s _ s1 g _ m => m ≠ 0#96 ∧ (vec s g s1 m).extractLsb' 0 3 = 0#3)
      (fun s gid s1 g sh m => s.goesOn gid s1 sh { g with utrap := vec s g s1 m }) ∧
    Completes (.wrsrUtrap h word a) (fun s _ s1 g _ m => m ≠ 0#96 ∧ (vec s g s1 m).extractLsb' 0 3 ≠ 0#3)
      (fun s gid s1 g sh _ => ill (.wrsrUtrap h word a) s gid s1 g sh) ∧
    Completes (.mfqheadWrite h a) (fun _ _ _ _ _ m => m ≠ 0#96)
      (fun s gid s1 g sh m => (s.setDie g.die { s.die g.die with mfqhead := (v s g s1 m).setWidth 12 }).goesOn gid s1 sh g) ∧
    Skips (.wrsrFpctl h a) ∧ Skips (.wrsrFpflags h a) ∧ Skips (.wrsrUtrap h word a) ∧ Skips (.mfqheadWrite h a) ∧
    (∀ s gid s1 g sh s', Passes (.rdsrFpflags h d) s gid s1 g sh s' →
      let feeds := fun sl : Slot => sl.wait = .feed ∨ ∃ n, sl.wait = .acc n
      ((∀ o ∈ s.lazies, o.gid ≠ gid) → ¬ feeds g.s0 → ¬ feeds g.s1 →
        ∃ t, exec (.rdsrFpflags h d) s = .next t ∧ RegResult s t gid s1 g sh (g.lanesAt s1 sh) fun _ => g.fpflags) ∧
      ((∃ o ∈ s.lazies, o.gid = gid) ∨ feeds g.s0 ∨ feeds g.s1 → g.lanesAt s1 sh ≠ 0#96 →
        exec (.rdsrFpflags h d) s = .next (s.modSlot gid s1 fun x => { x with wait := .other }))) ∧
    ∀ s gid s1 g sh s', Passes (.rdsrClock0 h d) s gid s1 g sh s' →
      ∃ t, exec (.rdsrClock0 h d) s = .next t ∧
        RegResult s t gid s1 (if g.lanesAt s1 sh = 0#96 then g else g.modSlot s1 fun x => { x with clock := s.now }) sh
          (g.lanesAt s1 sh) fun _ => s.now.setWidth 32

/-- R313, R314: rdsr gives each executing lane the register of its number, of the lane, its group, its slot or its place.
What sr.partcmd's write-only fields read as is a free value (log entry 44); whose a register that several groups share is, is the model's
reading (log entry 43), and so is what sr.core and sr.clu show on a management core (log entry 50). -/
def Obligations.ReadSpecialRegister : Prop :=
  ∀ (h : Head) (d : Dst) (num : BitVec 11) s gid s1 g sh s', Passes (.rdsr h d num) s gid s1 g sh s' →
    ∃ (t : State) (v : Lane → Word32), exec (.rdsr h d num) s = .next t ∧
      RegResult s { t with fresh := s.fresh } gid s1 g sh (g.lanesAt s1 sh) v ∧
      ∀ l : Lane,
        let n := num.toNat
        let part := fun {w : Nat} (x : BitVec w) (base : Nat) => x.extractLsb' (32 * (n - base)) 32
        (n = 0x000 → v l = BitVec.ofNat 32 l.val) ∧ (n = 0x001 → v l = g.index) ∧ (n = 0x002 → v l = g.teamNo) ∧
        (n = 0x003 → v l = BitVec.ofNat 32 g.grid) ∧ (n = 0x004 → v l = BitVec.ofNat 32 g.role) ∧
        (n = 0x005 → v l = BitVec.ofNat 32 g.quad) ∧ (n = 0x006 → v l = BitVec.ofNat 32 (g.core % 64)) ∧
        (n = 0x007 → v l = BitVec.ofNat 32 (g.core / 8 % 8)) ∧ (n = 0x008 → v l = BitVec.ofNat 32 g.die) ∧
        (n = 0x009 → v l = BitVec.ofNat 32 g.lcore) ∧ (n = 0x00A → v l = BitVec.ofNat 32 g.tenant) ∧
        (n = 0x00B → v l = BitVec.ofNat 32 g.alloc) ∧ (n = 0x00C → v l = g.cdepth[l].setWidth 32) ∧
        (0x00D ≤ n ∧ n ≤ 0x00F → v l = part g.lpbase 0x00D) ∧ (n = 0x011 → v l = part (g.slot s1).clock 0x010) ∧
        (n = 0x012 → v l = if g.sup then 1#32 else 0#32) ∧ (0x014 ≤ n ∧ n ≤ 0x017 → v l = part g.lidx[l] 0x014) ∧
        (n = 0x020 → v l = g.fpctl) ∧ (n = 0x022 → v l = g.srstrm.setWidth 32) ∧ (n = 0x023 → v l = g.srctr[l]) ∧
        (0x030 ≤ n ∧ n ≤ 0x032 → v l = part g.utrap 0x030) ∧ (n = 0x033 → v l = g.treg.cause) ∧ (n = 0x034 → v l = g.treg.dst) ∧
        (0x035 ≤ n ∧ n ≤ 0x036 → v l = part g.treg.inst 0x035) ∧ (0x037 ≤ n ∧ n ≤ 0x039 → v l = part g.treg.pc 0x037) ∧
        (0x03A ≤ n ∧ n ≤ 0x03C → v l = part g.treg.mask 0x03A) ∧ (0x03D ≤ n ∧ n ≤ 0x03F → v l = part g.efa 0x03D) ∧
        (n = 0x040 → v l = g.efh) ∧ (0x044 ≤ n ∧ n ≤ 0x047 → v l = if g.alloc = 512 then part g.shadowSl[l] 0x044 else 0#32) ∧
        (0x048 ≤ n ∧ n ≤ 0x04F → v l = part g.shadowK 0x048) ∧ (n = 0x060 → v l = g.callhi) ∧
        (0x061 ≤ n ∧ n ≤ 0x062 → v l = part g.callh 0x061) ∧ (0x063 ≤ n ∧ n ≤ 0x064 → v l = part g.callg 0x063) ∧
        (0x100 ≤ n ∧ n ≤ 0x103 → v l = part (s.tenant g.tenant).agkey 0x100) ∧
        (0x104 ≤ n ∧ n ≤ 0x105 → v l = part (s.tenant g.tenant).ptroot 0x104) ∧
        (n = 0x106 → v l = (s.die g.die).leaselen.setWidth 32) ∧ (n = 0x107 → v l = (s.core g.die g.core).ecbud.setWidth 32) ∧
        (n = 0x108 → v l = (s.die g.die).quantum.setWidth 32) ∧
        (0x109 ≤ n ∧ n ≤ 0x10B → v l = part (s.tenant g.tenant).csabase 0x109) ∧
        (n = 0x10C → v l = (s.tenant g.tenant).csasize.setWidth 32) ∧ (n = 0x10D → v l = (s.tenant g.tenant).csacount.setWidth 32) ∧
        (0x10E ≤ n ∧ n ≤ 0x110 → v l = part s.spinbase 0x10E) ∧ (n = 0x111 → v l = (s.tenant g.tenant).dgmode.setWidth 32) ∧
        (0x112 ≤ n ∧ n ≤ 0x114 → v l = part (s.tenant g.tenant).dglog 0x112) ∧
        (0x115 ≤ n ∧ n ≤ 0x117 → v l = part (s.die g.die).dqbase 0x115) ∧
        (0x118 ≤ n ∧ n ≤ 0x11A → v l = part (s.die g.die).mfqbase 0x118) ∧
        (n = 0x11B → v l = (s.die g.die).mfqhead.setWidth 32) ∧ (n = 0x11C → v l = (s.die g.die).mfqtail.setWidth 32) ∧
        (0x11D ≤ n ∧ n ≤ 0x11F → v l = part (s.die g.die).partbase 0x11D) ∧
        (n = 0x120 → (v l).getLsbD 31 = (s.die g.die).partbusy ∧ (v l).getLsbD 30 = (s.die g.die).parterror) ∧
        (n ≠ 0x120 → t.fresh = s.fresh)

/-- R313, R314: wrsr writes the register of its number: of the group, of each executing lane, or of the group's tenant, die or
core, or the module's. A value outside a register's range traps with illegal-instruction; a partition command waits while
another is busy. That a write of sr.dgmode or sr.dglog starts the log's position again is the model's choice (log entry 47); that sr.partcmd and its
busy bit are the issuing die's is its reading (log entry 19), and so are whose a shared register is (log entry 43) and what a value without a
stated range does (log entry 10). -/
def Obligations.WriteSpecialRegister : Prop :=
  ∀ (h : Head) (a : Src),
    let v := fun (s : State) (g : Group) (s1 : Bool) (m : Mask) => readSrc s g (g.slot s1) ((lowest? m).getD (g.slot s1).uniLane) a 32
    let grp := fun (n : BitVec 11) (ok : Word32 → Prop) (f : Word32 → Group → Group) =>
      Completes (.wrsr h n a) (fun s _ s1 g _ m => m ≠ 0#96 ∧ ok (v s g s1 m)) fun s gid s1 g sh m => s.goesOn gid s1 sh (f (v s g s1 m) g)
    let ten := fun (n : BitVec 11) (f : Word32 → Tenant → Tenant) =>
      Completes (.wrsr h n a) (fun _ _ _ _ _ m => m ≠ 0#96) fun s gid s1 g sh m =>
        (s.setTenant g.tenant (f (v s g s1 m) (s.tenant g.tenant))).goesOn gid s1 sh g
    let die := fun (n : BitVec 11) (ok : Word32 → Prop) (f : Word32 → Die → Die) =>
      Completes (.wrsr h n a) (fun s _ s1 g _ m => m ≠ 0#96 ∧ ok (v s g s1 m)) fun s gid s1 g sh m =>
        (s.setDie g.die (f (v s g s1 m) (s.die g.die))).goesOn gid s1 sh g
    let ill := fun (n : BitVec 11) (bad : Word32 → Prop) =>
      Completes (.wrsr h n a) (fun s _ s1 g _ m => m ≠ 0#96 ∧ bad (v s g s1 m)) fun s gid s1 g sh _ =>
        trapWord s gid s1 (.wrsr h n a) sh 0x02#8 0#8 (trapLanes g (g.slot s1) sh) true
    (∀ n, Skips (.wrsr h n a)) ∧
    grp 0x022#11 (fun x => x.extractLsb' 24 8 = 0#8) (fun x g => { g with srstrm := x.setWidth 24 }) ∧
    ill 0x022#11 (fun x => x.extractLsb' 24 8 ≠ 0#8) ∧
    grp 0x00A#11 (fun _ => True) (fun x g => { g with tenant := (x.extractLsb' 0 6).toNat }) ∧
    (∀ n : Nat, n < 8 → grp (BitVec.ofNat 11 (0x048 + n)) (fun _ => True) (fun x g => { g with shadowK := setField g.shadowK (32 * n) x })) ∧
    Completes (.wrsr h 0x023#11 a) (fun _ _ _ _ _ m => m ≠ 0#96) (fun s gid s1 g sh m =>
      s.goesOn gid s1 sh { g with srctr := setLanes g.srctr m fun l => readSrc s g (g.slot s1) l a 32 }) ∧
    (∀ n : Nat, n < 4 → Completes (.wrsr h (BitVec.ofNat 11 (0x044 + n)) a) (fun _ _ _ _ _ m => m ≠ 0#96) (fun s gid s1 g sh m =>
      s.goesOn gid s1 sh (if g.alloc = 512 then
        { g with shadowSl := setLanes g.shadowSl m fun l => setField g.shadowSl[l] (32 * n) (readSrc s g (g.slot s1) l a 32) } else g))) ∧
    (∀ n : Nat, n < 4 → ten (BitVec.ofNat 11 (0x100 + n)) fun x t => { t with agkey := setField t.agkey (32 * n) x }) ∧
    ten 0x104#11 (fun x t => { t with ptroot := setField t.ptroot 0 x }) ∧
    ten 0x105#11 (fun x t => { t with ptroot := setField t.ptroot 32 (x.setWidth 24) }) ∧
    (∀ n : Nat, n < 3 → ten (BitVec.ofNat 11 (0x109 + n)) fun x t => { t with csabase := setField t.csabase (32 * n) x }) ∧
    ten 0x10C#11 (fun x t => { t with csasize := x.setWidth 16 }) ∧ ten 0x10D#11 (fun x t => { t with csacount := x.setWidth 16 }) ∧
    ten 0x111#11 (fun x t => { t with dgmode := x.setWidth 2, dgpos := 0 }) ∧
    (∀ n : Nat, n < 3 → ten (BitVec.ofNat 11 (0x112 + n)) fun x t => { t with dglog := setField t.dglog (32 * n) x, dgpos := 0 }) ∧
    die 0x106#11 (fun _ => True) (fun x d => { d with leaselen := x.setWidth 4 }) ∧
    die 0x108#11 (fun x => x.extractLsb' 24 8 = 0#8) (fun x d => { d with quantum := x.setWidth 24 }) ∧
    ill 0x108#11 (fun x => x.extractLsb' 24 8 ≠ 0#8) ∧
    (∀ n : Nat, n < 3 → die (BitVec.ofNat 11 (0x115 + n)) (fun _ => True) fun x d => { d with dqbase := setField d.dqbase (32 * n) x }) ∧
    (∀ n : Nat, n < 3 → die (BitVec.ofNat 11 (0x118 + n)) (fun _ => True) fun x d => { d with mfqbase := setField d.mfqbase (32 * n) x }) ∧
    (∀ n : Nat, n < 3 → die (BitVec.ofNat 11 (0x11D + n)) (fun _ => True) fun x d => { d with partbase := setField d.partbase (32 * n) x }) ∧
    (∀ n : Nat, n < 3 → Completes (.wrsr h (BitVec.ofNat 11 (0x10E + n)) a) (fun _ _ _ _ _ m => m ≠ 0#96) fun s gid s1 g sh m =>
      State.goesOn { s with spinbase := setField s.spinbase (32 * n) (v s g s1 m) } gid s1 sh g) ∧
    Completes (.wrsr h 0x107#11 a) (fun s _ s1 g _ m => m ≠ 0#96 ∧ (v s g s1 m).extractLsb' 16 16 = 0#16) (fun s gid s1 g sh m =>
      (s.setCore g.die g.core { s.core g.die g.core with ecbud := (v s g s1 m).setWidth 16 }).goesOn gid s1 sh g) ∧
    ill 0x107#11 (fun x => x.extractLsb' 16 16 ≠ 0#16) ∧
    Completes (.wrsr h 0x120#11 a) (fun s _ s1 g _ m => m ≠ 0#96 ∧ (s.die g.die).partbusy = false ∧ ((v s g s1 m).extractLsb' 0 5).toNat < 24)
      (fun s gid s1 g sh m =>
        (s.setDie g.die { s.die g.die with partbusy := true, partcmd := (v s g s1 m).setWidth 10 }).goesOn gid s1 sh g) ∧
    Completes (.wrsr h 0x120#11 a) (fun s _ _ g _ m => m ≠ 0#96 ∧ (s.die g.die).partbusy = true)
      fun s gid s1 _ _ _ => s.modSlot gid s1 fun x => { x with wait := .other }

/-! ### Lazy values and tables (R205 to R222, R281) -/

/-- R216: lzdraw writes a fresh view at once: count 0, every digit slice zero, the low 24 bits of A as the stream and B as the counter,
into the 64 slices of the view in the executing lanes, and nothing else. R215, R217 to R221, R205, R281: lzcmp, lzcmp.ext, lzval and srnd settle
their results from the view and the group's key when they issue, and the registers change when they end; a malformed view traps; where lzx or
nx may trap the slot stays at the word, and where another flag traps it does so at once. That the results are settled at issue, and what a
threshold of exactly 64 equal digits gives, is the model's reading (log entry 58). -/
def Obligations.LazyWordsSettle : Prop :=
  ∀ (h : Head) (d : Dst) (p view rm df sf : BitVec 3) (a b : Src) (fixed : Bool),
    let lp := fun (s : State) (g : Group) (sl : Slot) (l : Lane) =>
      if fixed then FVal.fin false (mkRat (readSrc s g sl l b (wBits h.w)).toNat (2 ^ wBits h.w))
      else decodeF (Format.ofW h.w) (readBitsF s g sl l b (Format.ofW h.w))
    (∀ s gid s1 g sh s', Passes (.lzdraw h view a b) s gid s1 g sh s' →
      ∃ x, exec (.lzdraw h view a b) s = .next (s'.goesOn gid s1 sh x) ∧ x = { g with slices := x.slices, late := x.late, region := x.region } ∧
        ∀ (l : Lane) p, p < 2048 → x.slices[l].getLsbD p =
          if (g.lanesAt s1 sh).getLsbD l.val = true ∧ 256 * view.toNat ≤ p ∧ p < 256 * view.toNat + 256 then
            ((readSrc s' g (g.slot s1) l b 32) ++ (readSrc s' g (g.slot s1) l a 32).setWidth 24 ++ 0#200 : BitVec 256).getLsbD (p - 256 * view.toNat)
          else g.slices[l].getLsbD p) ∧
    Settles (.lzcmp h p view b fixed) view (fun s g sl l v => compareView g.agkey v (lp s g sl l)) ∧
    Settles (.lzcmpExt h view b) view (fun s g sl l v =>
      { val := 0#64, view := v.extend g.agkey (readSrc s g sl l b 32).toNat, flags := 0#6 }) ∧
    Settles (.lzval h d view rm) view (fun _ g _ _ v =>
      let r := roundReal (Format.ofW h.w) (fpModeNoSr g rm) (ftzOn g) false (v.extend g.agkey 48).value48 false noOracle
      { val := BitVec.ofNat 64 r.bits, view := v.extend g.agkey 48, flags := r.flags }) ∧
    Settles (.srnd h d a view df sf) view (fun s g sl l v =>
      let x := readF s g sl l a (Format.ofCode sf)
      let r := convTo (Format.ofCode df) .sr (ftzOn g) x (fun q more => v.less g.agkey q more)
      { val := BitVec.ofNat 64 r.bits, view := (srndAsks (Format.ofCode df) x).elim v fun q => v.extend g.agkey (v.less g.agkey q false).2.2,
        flags := r.flags }) ∧
    Skips (.lzcmp h p view b fixed) ∧ Skips (.lzcmpExt h view b) ∧ Skips (.lzval h d view rm) ∧ Skips (.srnd h d a view df sf)

/-- R217, R221, R122, R281, R220: a lazy instruction ends: its results go to their registers (an lzval's view before its destination, the
others' destinations before their views), its flags are raised, its counter falls, and a slot that it held goes on. Where it held its slot
and a flag whose trap is enabled is raised, the lanes that raise it take the trap at the word, and the others complete; in trap mode the
word has had no effect and will issue again. -/
def Obligations.LazyWordsEnd : Prop :=
  ∀ (s : State) (id : Nat) (op : LazyOp) (g : Group) (sh : Shape), (s.lazies.find? fun o => o.id = id) = some op →
    s.group? op.gid = some g → wordShape op.instr = some sh →
    let u : State := { s with lazies := s.lazies.filter fun o => o.id ≠ id }
    let t := op.lanes &&& maskOf fun l => decide (op.flags[l] &&& g.fpctl.extractLsb' 8 6 ≠ 0#6)
    let flags := orFlags op.lanes fun l => op.flags[l]
    let free := g.modSlotIn op.s1 op.trap fun x => { x with wait := .ready }
    (∀ m, g.putLazy op m = g.inBank op.trap fun x =>
      match op.instr with
      | .lzval _ _ _ _ => (x.putView op m).putOutcome op m
      | _ => (x.putOutcome op m).putView op m) ∧
    (op.hold = false → exec (.lazyInstructionComplete id) s = .next (u.setGroup op.gid (((g.putLazy op op.lanes).raise flags).ctrDown op.ctr))) ∧
    (op.hold = true → t = 0#96 → exec (.lazyInstructionComplete id) s = .next (u.setGroup op.gid
      ((((g.putLazy op op.lanes).raise flags).modSlotIn op.s1 op.trap fun sl => sl.advance sh.res).ctrDown op.ctr))) ∧
    (op.hold = true → t ≠ 0#96 → g.halted = false → g.trapMode = true →
      exec (.lazyInstructionComplete id) s = .next (u.setGroup op.gid (free.ctrDown op.ctr))) ∧
    (op.hold = true → t ≠ 0#96 → g.halted = false → g.trapMode = false →
      exec (.lazyInstructionComplete id) s = .next ((trapWord ((u.setGroup op.gid free).setGroup op.gid
        ((free.putLazy op (op.lanes &&& ~~~t)).raise flags)) op.gid op.s1 op.instr sh 0x0A#8
        ((orFlags t (fun l => op.flags[l]) &&& g.fpctl.extractLsb' 8 6).setWidth 8) t false).ctrDown op.gid op.ctr))

/-- R208, R209, R206: tbld binds the group to the quadrant's current bank and waits for its load; tbind binds it. The oldest load of a
quadrant fills the other bank, once no group is bound to it (its own among them, the model's reading, log entry 40), from the images in memory,
and that bank becomes current. -/
def Obligations.TableWords : Prop :=
  (∀ (h : Head) (k : Triple) (mask : BitVec 4) (sp : BitVec 3),
    Completes (.tbld h k mask sp)
      (fun s _ s1 g _ m => m ≠ 0#96 ∧ (readTriple g (g.slot s1) k).toNat % 16 = 0 ∧
        imageLocked s g mask (Space.ofCode sp) (readTriple g (g.slot s1) k) = false)
      (fun s gid s1 g _ _ =>
        let q := s.quad g.die g.core g.quad
        (s.setGroup gid (({ g with bank := q.bank, bankGen := q.gen }.ctrUp h.ctr).modSlot s1 fun x =>
          { x with wait := .tbld, wctr := h.ctr })).setQuad g.die g.core g.quad
          { q with loads := q.loads ++ [{ gid := gid, s1 := s1, mask := mask, space := Space.ofCode sp,
                                          addr := readTriple g (g.slot s1) k, ctr := h.ctr,
                                          agents := (g.slot s1).uniMask, trap := g.trapMode, srcs := none }] }) ∧
    Completes (.tbld h k mask sp) (fun _ _ s1 g _ m => m ≠ 0#96 ∧ (readTriple g (g.slot s1) k).toNat % 16 ≠ 0)
      (fun s gid s1 _ sh m => trapWord s gid s1 (.tbld h k mask sp) sh 0x08#8 0#8 m true) ∧
    Completes (.tbld h k mask sp) (fun s _ s1 g _ m => m ≠ 0#96 ∧ (readTriple g (g.slot s1) k).toNat % 16 = 0 ∧
        imageLocked s g mask (Space.ofCode sp) (readTriple g (g.slot s1) k) = true)
      (fun s gid s1 _ sh m => trapWord s gid s1 (.tbld h k mask sp) sh cRangeLock 0#8 m true) ∧
    Skips (.tbld h k mask sp) ∧
    Completes (.tbind h) (fun _ _ _ _ _ m => m ≠ 0#96) (fun s gid s1 g sh _ =>
      s.goesOn gid s1 sh { g with bank := (s.quad g.die g.core g.quad).bank, bankGen := (s.quad g.die g.core g.quad).gen }) ∧
    Skips (.tbind h)) ∧
  ∀ (s : State) (quad : Nat) (q : Quad) (w : TblWait) (rest : List TblWait) (g : Group) (s' : State) (ts : Vector Table 4),
    tget s.quads quad = some q → q.loads = w :: rest → w.srcs = none → s.group? w.gid = some g →
    (∀ p ∈ s.groups, quadKey p.2.die p.2.core p.2.quad = quad → p.2.sup = false → p.2.bindWait = false → p.2.bank = q.bank) →
    (g.slotIn w.s1 w.trap).wait = .tbld →
    loadTables s g w q.tables[bankOf q.bank] (List.finRange 4) = (s', .ok ts) →
    exec (.tableBankLoad quad) s = .next (State.modGroup
      { s' with quads := tset s'.quads quad { q with tables := q.tables.set (bankOf (!q.bank)) ts, bank := !q.bank, gen := q.gen + 1, loads := rest } }
      w.gid fun g => (g.modSlotIn w.s1 w.trap fun sl => sl.advance false).ctrDown w.ctr)

/-! ### Loads, stores, atomics, fences and caches (R39, R63 to R80, R85 to R108) -/

/-- R65, R67, R70 to R73, R80: the words of the memory family. Each captures its lanes' effective addresses and data when it
issues: a base and a signed 32-bit offset (in gth and sct scaled by the element), and a displacement in elements; ldu reads its base
once, of the lowest lane; a spill or fill counts its displacement in slices. Outside a recovery region none waits for anything
before its accesses go out. An ordered atomic of an index that has retired traps with ordered-after-finish in its lanes. -/
def Obligations.MemoryWordsIssue : Prop :=
  ∀ (h : Head) (d : Dst) (a b : Src) (sp : BitVec 3) (pol : BitVec 2) (far : BitVec 11) (disp op : BitVec 6) (n1 f v : BitVec 9),
    let size := BitVec.ofNat 80 (wBits h.w / 8)
    let no := fun (_ : State) (_ : Group) (_ : Slot) (_ : Lane) => 0#64
    let any := fun (_ : Group) => True
    let calm := fun (g : Group) => g.region = none
    let never := fun (_ : Group) (_ : Mask) => 0#96
    let off := fun (s : State) (g : Group) (sl : Slot) (l : Lane) => (readSrc s g sl l b 32).signExtend 80
    let val := fun (s : State) (g : Group) (sl : Slot) (l : Lane) => (readSrc s g sl l b (wBits h.w)).setWidth 64
    Accesses (.ld h d a b sp pol far) .load (Space.ofCode sp) pol false 1 (some false) never any
      (fun s g sl _ l => readAddr s g sl l a + off s g sl l + far.signExtend 80 * size) no no ∧
    Accesses (.st h a b sp pol far) .store (Space.ofCode sp) pol false 1 (some true) never any
      (fun s g sl _ l => readAddr s g sl l a + far.signExtend 80 * size) val no ∧
    Accesses (.ldu h d a sp pol disp) .load (Space.ofCode sp) pol true 1 (some false) never any
      (fun s g sl m _ => readAddr s g sl ((lowest? m).getD 0) a + disp.signExtend 80 * size) no no ∧
    Accesses (.gth h d a b sp pol disp) .load (Space.ofCode sp) pol false 1 (some false) never any
      (fun s g sl _ l => readAddr s g sl l a + off s g sl l * size + disp.signExtend 80 * size) no no ∧
    Accesses (.sct h v a b sp pol disp) .store (Space.ofCode sp) pol false 1 (some true) never any
      (fun s g sl _ l => readAddr s g sl l a + off s g sl l * size + disp.signExtend 80 * size)
      (fun _ g _ l => (g.sliceRead l v.toNat (wBits h.w)).setWidth 64) no ∧
    Accesses (.atom h d a b sp pol op) (.atomic op) (Space.ofCode sp) pol false (wBits h.w / 8) (some true) never calm
      (fun s g sl _ l => readAddr s g sl l a) val
      (fun s g sl l => if op = 9#6 then (match b with
        | .slice st => g.sliceRead l (st.toNat + wBits h.w / 4) (wBits h.w)
        | .ureg k => g.kread sl (k.toNat + wBits h.w / 32) (wBits h.w)
        | x => readSrc s g sl l x (wBits h.w) : BitVec (wBits h.w)).setWidth 64 else 0#64) ∧
    Accesses (.atomo h d a b pol op) (.ordered op) .g pol false (wBits h.w / 8) (some true)
      (fun g m => m &&& g.retiredIdx) calm (fun s g sl _ l => readAddr s g sl l a) val no ∧
    Accesses (.spill h n1 a f pol disp) (.spill f.toNat (n1.toNat + 1)) .lp pol false 1 none never any
      (fun s g sl _ l => readAddr s g sl l a + disp.signExtend 80 * 4#80) no no ∧
    Accesses (.fill h n1 a f pol disp) (.fill f.toNat (n1.toNat + 1)) .lp pol false 1 none never any
      (fun s g sl _ l => readAddr s g sl l a + disp.signExtend 80 * 4#80) no no

/-- R39, R67, R69: the checks before any access, in their order, over the lanes that make one: each lane's bytes lie within its
space, its address is aligned, and no range lock covers a byte of it. The trap takes the lanes of the first kind that occurs;
where one access stands for the group, all of its lanes. That an element whose last bytes pass 2^24 does not fit lane-private memory is
the model's choice, where R39 limits the address alone (log entry 59). -/
def Obligations.AccessChecks : Prop :=
  ∀ (s : State) (g : Group) (r : MemReq) (n align : Nat) (lock : Option Bool) (m : Mask),
    let fits := fun l : Lane =>
      let ea := r.ea[l].toNat
      let size := match g.team.bind (tget s.teams) with | some t => t.scSize | none => 0
      match r.space with
      | .lp => ea + n ≤ 2 ^ 24
      | .sc => ea < 2 ^ 20 ∧ ea + n ≤ size
      | .cl => ea < 2 ^ 23 ∧ ea % 2 ^ 20 + n ≤ size
      | .ds => ea < 2 ^ 25 ∧ ea + n ≤ (s.dsRange g.die g.grid).2
      | .g | .ro => True
    let locked := fun l : Lane => match lock with
      | some wr => lockHit s g.die g.core g.tenant wr r.space r.ea[l] n = true
      | none => False
    let makes := fun l : Lane => if r.once.isSome then r.once = some l.val ∧ m ≠ 0#96 else m.getLsbD l.val = true
    let lanes := fun (t : Mask) (bad : Lane → Prop) => (∃ l, makes l ∧ bad l) ∧
      ∀ l : Lane, t.getLsbD l.val = true ↔ (makes l ∧ bad l) ∨ (r.once.isSome = true ∧ m.getLsbD l.val = true)
    (memTrap s g r n align lock m = none ↔
      ∀ l, makes l → fits l ∧ r.ea[l].toNat % align = 0 ∧ ¬ locked l) ∧
    ∀ c t, memTrap s g r n align lock m = some (c, t) →
      (c = 0x07#8 ∧ lanes t fun l => ¬ fits l) ∨
      (c = 0x08#8 ∧ (∀ l, makes l → fits l) ∧ lanes t fun l => r.ea[l].toNat % align ≠ 0) ∨
      (c = 0x09#8 ∧ (∀ l, makes l → fits l ∧ r.ea[l].toNat % align = 0) ∧ lanes t locked)

/-- R39, R55, R63, R66, R71, R91: a store to the core's scratchpad by lanes issues whole: for each lane the stores of its bytes, little
end first, at its address in the team's part of the scratchpad: one where the element is single-copy atomic there, else one for each
half of an aligned 48-bit element, else one for each byte. Nothing is written yet, and the slot goes on. -/
def Obligations.ScratchpadStoresIssue : Prop :=
  ∀ (s : State) (gid : Nat) (s1 : Bool) (g : Group) (r : MemReq) (team : Team),
    s.group? gid = some g → s.teamOf g = some team → r.op = .store → r.space = .sc → r.once = none → r.issued ≠ 0#96 → 8 ≤ wBits r.w →
    let t := memIssue s gid s1 r r.issued
    let n := wBits r.w / 8
    t.mem = s.mem ∧ t.l2 = s.l2 ∧ t.accs = s.accs ∧
    (∃ recs : Lane → List StoreRec, t.stores = s.stores ++ (lanesOf r.issued).flatMap recs ∧
      ∀ l : Lane, r.issued.getLsbD l.val = true →
        (recs l).flatMap StoreRec.keys =
          upFrom (2 ^ 56 + (g.die * 64 + g.core) * 2 ^ 20 + (team.scBase.getD (g.core % 8) 0 + r.ea[l].toNat)) n ∧
        (recs l).flatMap StoreRec.bytes = toBytes r.data[l] n ∧
        (∀ x ∈ recs l, x.keys.length = x.bytes.length ∧
          x.keys.length = if n ≠ 3 ∧ n ≠ 6 ∧ r.ea[l].toNat % n = 0 then n else if n = 6 ∧ r.ea[l].toNat % 2 = 0 then 2 else 1) ∧
        ∀ x ∈ recs l, x.agents = oneLane l.val ∧ x.parent = r.id ∧ x.gid = gid ∧ x.space = .sc ∧ x.ctr = r.ctr ∧ x.mse = []) ∧
    ∃ g', t.group? gid = some g' ∧ g' = { g with s0 := g'.s0, s1 := g'.s1, digest := g'.digest } ∧ g'.slot (!s1) = g.slot (!s1) ∧
      g'.slot s1 = (g.slot s1).advance r.res

/-- R58, R95, R100, R106, R109: a store whose turn it is reaches its home: its bytes are there, and every other byte reads as before;
agents of other dies go on reading the old bytes while a lease on the line runs; the core's own L1 copy takes the bytes where it holds
their sectors. A store to another module leaves for it, and one to private memory goes into the core's L1 where it has one. -/
def Obligations.StoresReachHome : Prop :=
  ∀ (s : State) (id : Nat) (r : StoreRec), (s.stores.find? fun x => x.id = id) = some r → storeDue s r = true →
    let u : State := { s with stores := s.stores.filter fun x => x.id ≠ id }
    (s.Inv → r.keys.Nodup → r.bytes.length = r.keys.length → isRemote r.keys = false → ¬(r.space = .lp ∧ hasL1 s r.die r.core = true) →
      ∃ t, exec (.storeReachHome id) s = .next t ∧ t.stores = u.stores ∧ t.accs = s.accs ∧
        (∀ k, homeByte t k = match (r.keys.zip r.bytes).find? fun p => p.1 = k with | some p => p.2 | none => homeByte s k) ∧
        (∀ d k, homeDie k ≠ some d → k < 2 ^ 56 → (∃ l ∈ s.leases, l.line = k / 128 ∧ s.now.toNat < l.expiry) →
          homeByteFrom t d k = homeByteFrom s d k) ∧
        ∀ n g, s.group? n = some g → ∃ g', t.group? n = some g' ∧
          g'.slices = g.slices ∧ g'.k = g.k ∧ g'.preds = g.preds ∧ g'.latches = g.latches ∧ g'.s0 = g.s0 ∧ g'.s1 = g.s1) ∧
    (isRemote r.keys = true → ¬(r.space = .lp ∧ hasL1 s r.die r.core = true) →
      exec (.storeReachHome id) s = .next { u with flits := s.flits ++ [
        { id := r.id, parent := r.parent, gid := r.gid, agents := r.agents, eng := none, die := r.die, core := r.core, tenant := r.tenant,
          retries := 0, keys := r.keys, bytes := r.bytes, s1 := r.s1, trap := r.trap, va := r.va, ctr := r.ctr, mse := r.mse,
          reserve := r.reserve }] }) ∧
    (isRemote r.keys = false ∨ (r.space = .lp ∧ hasL1 s r.die r.core = true) → exec (.storeReachHome id) s = .next (settleFences (State.reqDone
      (if r.space = .lp then lpPuts u r.writer r.keys r.bytes
       else l1Patches (storeBy u r.writer r.keys r.bytes) r.die r.core r.keys r.bytes) r.gid r.ctr r.parent)))

/-- R58, R72, R73, R85, R109: an atomic whose turn it is has its line leave the issuing core's L1, dirty private sectors going home,
reads its location at its home, writes the new value there, and gives the old value to its destination, in one step. One whose turn it is
not stays: an atomic waits for every earlier load and atomic of its agent (R89), and an ordered one besides until it is admitted and its index
is the floor. An atomic to another module leaves for it, and its access stays until it is acknowledged. -/
def Obligations.AtomicsPerform : Prop :=
  ∀ (s : State) (id : Nat) (a : Acc) (op : BitVec 6), (s.accs.find? fun x => x.id = id) = some a → a.op = .atomic op ∨ a.op = .ordered op →
    (accDue s a = false → exec (.memAccessComplete id) s = .next s) ∧
    ((∃ x ∈ s.accs, x.id < a.id ∧ x.gid = a.gid ∧ x.agents &&& a.agents ≠ 0#96) → accDue s a = false) ∧
    (a.op = .ordered op → a.admitted = false ∨ s.floorOf a.grid ≠ some a.idx → accDue s a = false) ∧
    (accDue s a = true → (∀ x ∈ s.flits, x.id ≠ id) →
    (isRemote a.keys = true → exec (.memAccessComplete id) s = .next { s with flits := s.flits ++ [
      { id := a.id, parent := a.parent, gid := a.gid, agents := a.agents, eng := none, die := a.die, core := a.core, tenant := a.tenant,
        retries := 0, keys := a.keys, bytes := [], s1 := a.s1, trap := a.trap, va := a.va, ctr := a.ctr, mse := a.mse,
        reserve := a.reserve }] }) ∧
    (isRemote a.keys = false → s.Inv → a.keys.Nodup → a.keys.length = wBits a.w / 8 → wBits a.w = 32 ∨ wBits a.w = 64 →
    let n := wBits a.w
    let u := l1Drops s a.die a.core a.keys
    let old : BitVec n := BitVec.ofNat n (natOfBytes (a.keys.map (homeByte u)))
    let v : BitVec n := (old.setWidth 64 <<< a.off).setWidth n
    let b : BitVec n := a.data.setWidth n
    let fadd := fun f : Format => BitVec.ofNat n (rneTo f (fAdd .rne (decodeF f old.toNat) (decodeF f b.toNat)).1)
    let new : BitVec n := match op.toNat with
      | 0x00 => b
      | 0x01 => old + b
      | 0x02 => BitVec.ofInt n (min old.toInt b.toInt)
      | 0x03 => BitVec.ofNat n (min old.toNat b.toNat)
      | 0x04 => BitVec.ofInt n (max old.toInt b.toInt)
      | 0x05 => BitVec.ofNat n (max old.toNat b.toNat)
      | 0x06 => old &&& b
      | 0x07 => old ||| b
      | 0x08 => old ^^^ b
      | 0x09 => if old = b then a.data2.setWidth n else old
      | 0x0A => if old.toNat ≥ b.toNat then 0#n else old + 1#n
      | 0x0B => if old = 0#n ∨ old.toNat > b.toNat then b else old - 1#n
      | 0x10 => fadd .f32
      | 0x11 => fadd .f64
      | _ => atomNew op old b (a.data2.setWidth n)
    ∃ t, exec (.memAccessComplete id) s = .next t ∧ t.accs = s.accs.filter (fun x => x.id ≠ id) ∧ t.stores = s.stores ∧
      ((∀ e ∈ (s.core a.die a.core).l1, e.dirty = 0#4) → ∀ k, homeByte u k = homeByte s k) ∧
      (∀ k, k ∉ a.keys → homeByte t k = homeByte u k) ∧
      (∀ j, (h : j < a.keys.length) → homeByte t a.keys[j] = new.extractLsb' (8 * j) 8) ∧
      ∀ g, s.group? a.gid = some g → ∃ g', t.group? a.gid = some g' ∧
        g'.slices = (g.deliver id v).slices ∧ g'.k = (g.deliver id v).k ∧
        g'.latches = (g.deliver id v).latches ∧ g'.late = g.late.filter fun x => x.acc ≠ id))

/-- R59, R63, R66, R68, R78, R85, R88, R97: a load whose turn it is takes its bytes, the agent's own stores before it included, through the
caches that its space and policy use; the other lanes of its instruction take the same bytes from it, and the stores that it has read
count among the agent's predecessors; the value goes to its place in its destination and latch. A load of which neither the L1 nor a lease
has a byte that lies in another module leaves for it (R109). A prefetch fills its lines. An access whose turn it is not stays. How the L1 takes
part is the model's reading (log entry 16). -/
def Obligations.LoadsComplete : Prop :=
  ∀ (s : State) (id : Nat) (a : Acc), (s.accs.find? fun x => x.id = id) = some a → (∀ x ∈ s.flits, x.id ≠ id) →
    (∀ op, a.op ≠ .atomic op ∧ a.op ≠ .ordered op) →
    let u := ((a.keys.map (· / 32)).eraseDups).foldl (fun x q => fetchFor x a.die a.core a.tenant a.space a.pol (32 * q)) s
    let vs := a.keys.map (readKey u a)
    let v : BitVec 64 := BitVec.ofNat 64 (natOfBytes vs)
    let w := shareLoaded (noteRead (dropStale u a vs) a.die a.core a.gid a.agents a.op.classes a.keys) a (a.keys.zip vs)
    (accDue s a = true → a.op ≠ .prefetch → remoteMiss s a = true →
      exec (.memAccessComplete id) s = .next { s with flits := s.flits ++ [accFlit a] }) ∧
    (accDue s a = true → a.op ≠ .prefetch → remoteMiss s a = false →
      exec (.memAccessComplete id) s = .next (settleFences (State.reqDone
        (State.modGroup { w with accs := w.accs.filter fun x => x.id ≠ id } a.gid fun g => g.deliver id ((v <<< a.off).setWidth (wBits a.w)))
        a.gid a.ctr a.parent))) ∧
    (accDue s a = true → a.op = .prefetch → exec (.memAccessComplete id) s = .next { prefFill s a with accs := s.accs.filter fun x => x.id ≠ id }) ∧
    (accDue s a = false → exec (.memAccessComplete id) s = .next s) ∧
    (a.op ≠ .prefetch → w.mem = u.mem ∧ w.l2 = u.l2 ∧ w.stores = u.stores ∧ ∀ x ∈ s.accs, x.parent = a.parent →
      { x with got := x.got ++ (a.keys.zip vs).filter fun p => x.keys.contains p.1 } ∈ w.accs) ∧
    ((∀ k ∈ a.keys, 2 ^ 56 ≤ k) → a.got = [] → (∀ r ∈ s.stores, r.gid ≠ a.gid) → (∀ x ∈ s.held, x.w.gid ≠ a.gid) →
      u = s ∧ vs = a.keys.map (memGet s.mem))

/-- R22, R75, R78, R79, R92, R101, R107: fence, pref and cmnt. A fence goes on at once and is outstanding, its counter risen, until
what its predecessor set names has performed, and holds its successors until what else goes before them has; where nothing is
outstanding it is over at once, and at a scope of the cluster or wider, with r or a in its successor set, the core's L1 drops its shared
lines. pref issues the accesses of the lanes whose elements translate and that find entries, and drops the others; cmnt acts on the line of
each lane's address that translates, in the lanes' order. Neither traps in any lane. That cmnt acts when it issues is the model's reading (log
entry 26), and so are what a fence waits for beyond R92's words (log entry 25) and the place of a prefetch's line (log entry 12). -/
def Obligations.FencesAndCacheWords : Prop :=
  ∀ (h : Head) (a b : Src) (pred succ : BitVec 4) (scope sp : BitVec 3) (pol : BitVec 2) (disp : BitVec 6),
    let lanes := fun (g : Group) (s1 : Bool) (sh : Shape) =>
      if h.uni = true ∧ g.lanesAt s1 sh ≠ 0#96 then (g.slot s1).uniMask else g.lanesAt s1 sh
    let overLines := fun (n : Nat) (act : State → Group → Nat → State) (s : State) (gid : Nat) (s1 : Bool) (g : Group) (sh : Shape) (m : Mask) =>
      let x := softLanes g (Space.ofCode sp) 1 (fun l => readAddr s g (g.slot s1) l a + (readSrc s g (g.slot s1) l b 32).signExtend 80 +
        disp.signExtend 80 * BitVec.ofNat 80 n) s [] (lanesOf m)
      (x.2.foldl (fun y p => act y g (p.2.headD 0)) x.1).goesOn gid s1 sh g
    let ok : Cond := fun _ _ _ _ _ _ => True
    let size := wBits h.w / 8
    Skips (.fence h pred succ scope) ∧
    (∀ s gid s1 g sh s', Passes (.fence h pred succ scope) s gid s1 g sh s' → lanes g s1 sh ≠ 0#96 →
      let f : FenceRec := { id := s.seqNo, gid := gid, lanes := lanes g s1 sh, succ := succ, scope := scope,
                            waits := fenceWaits s gid (lanes g s1 sh) pred, more := fenceMore s g pred scope, counted := false,
                            ctr := h.ctr, ends := none }
      let u := (s.goesOn gid s1 sh g).nextId.2.ctrUp gid h.ctr
      exec (.fence h pred succ scope) s = .next (settleFences { u with fences := u.fences ++ [f] }) ∧
      (s.fences = [] → f.waits = [] → f.more = [] → ∃ t, exec (.fence h pred succ scope) s = .next t ∧ t.fences = [] ∧ t.mem = s.mem ∧ t.l2 = s.l2 ∧
        (t.core g.die g.core).l1 =
          if 2 ≤ scope.toNat ∧ succ &&& 10#4 ≠ 0#4 then (s.core g.die g.core).l1.filter fun e => e.lp else (s.core g.die g.core).l1)) ∧
    Completes (.pref h a b sp pol disp) ok (fun s gid s1 g sh m =>
      let x := softLanes g (Space.ofCode sp) size (fun l => readAddr s g (g.slot s1) l a + (readSrc s g (g.slot s1) l b 32).signExtend 80 +
        disp.signExtend 80 * BitVec.ofNat 80 size) s [] (lanesOf m)
      (prefIssue x.1 gid g (Space.ofCode sp) h.w pol x.2).goesOn gid s1 sh g) ∧
    Completes (.cmntWb h a b sp disp) ok (overLines size fun s g k => l1WriteBack s g.die g.core (k / 128)) ∧
    Completes (.cmntInv h a b sp disp) ok (overLines size fun s g k =>
      l1Remove (l1WriteBack s g.die g.core (k / 128)) g.die g.core (k / 128)) ∧
    Completes (.cmntL2wb h a b sp disp) ok (overLines size fun s _ k => l2WriteBack s (k / 128)) ∧
    Completes (.cmntL2inv h a b sp disp) ok (overLines size fun s _ k => l2Drop (l2WriteBack s (k / 128)) (k / 128))

/-- R58, R60, R61, R79: a write-back changes no byte as the home gives it, but for the dirty sectors of a line of the L1, whose bytes
reach the home; after the write-back of an L2 line memory itself holds its bytes, and after its invalidation the home still
gives them. -/
def Obligations.WriteBacksKeepBytes : Prop :=
  ∀ (s : State) (die core line : Nat), s.Inv →
    (∀ k, homeByte (l2WriteBack s line) k = homeByte s k) ∧
    (∀ k, homeByte (l2Drop (l2WriteBack s line) line) k = homeByte s k) ∧
    (∀ k, k / 128 = line → memGet (l2WriteBack s line).mem k = homeByte s k) ∧
    (s.l1Line? die core line = none → l1WriteBack s die core line = s) ∧
    ∀ e, s.l1Line? die core line = some e →
      (∀ k, homeByte (l1WriteBack s die core line) k =
        if k / 128 = line ∧ e.dirty.getLsbD (k % 128 / 32) = true then e.data.extractLsb' (8 * (k % 128)) 8 else homeByte s k) ∧
      ((l1WriteBack s die core line).l1Line? die core line).map (fun x => (x.dirty, x.data)) = some (0#4, e.data)

/-- R73, R74, R105, R106: ordered atomics and the floor, and leases. An atomic is admitted where one of the 63 general entries of its home
slice is free, or the reserved one for the floor's index, and then holds no miss-status entry; else it is rejected and ages, and tries again
with an entry of the general pool, or, where it comes first among the eligible ones of its core, of the reserve (R64); that its core retries
it, and not its slot, is the model's reading (log entry 62). atomo.fin retires its lanes' indices, and a lane whose index has retired traps. A
team lane that retires joins those that have, and the first that has not is kept. The floor is the least index that has not retired or has an
ordered atomic still to perform (log entry 29), and there is none where there is no such index. A lease on a line is over when no die's has time left: the stores that it held
then perform for every die; a die drops a copy that has 16 cycles or fewer to run. -/
def Obligations.OrderedAtomicsAndLeases : Prop :=
  (∀ (s : State) (id : Nat) (a : Acc) (op : BitVec 6), (s.accs.find? fun x => x.id = id) = some a → a.op = .ordered op →
    let here := s.accs.filter fun x => x.admitted && decide (accSlice s x = accSlice s a)
    let atFloor := s.floorOf a.grid = some a.idx
    let twin := ∃ x ∈ here, x.grid = a.grid ∧ x.idx = a.idx
    let put := fun f : Acc → Acc => exec (.oabAdmit id) s = .next { s with accs := s.accs.map fun x => if x.id = id then f x else x }
    let general := (here.filter fun x => !x.inReserve).length < 63
    let room := general ∨ (atFloor ∧ ∀ x ∈ here, x.inReserve = false)
    let free := freeEntries s a.die a.core
    let quad := match s.group? a.gid with | some g => g.quad | none => 0
    let first := 8 ≤ a.age ∧ ∀ c ∈ claimants s a.die a.core, c.id = a.parent ∨ Claimant.before c ⟨quad, a.age, a.parent⟩ = false
    let entry := a.rejected = false ∨ 0 < free.1 ∨ (first ∧ 0 < free.2)
    (a.admitted = false → ¬(atFloor ∧ twin) → room → entry →
      put fun x => { x with admitted := true, inReserve := !decide general, rejected := false, mse := [], reserve := [], age := 0 }) ∧
    (a.admitted = false → ¬(atFloor ∧ twin) → ¬(room ∧ entry) →
      put fun x => { x with rejected := true, mse := [], reserve := [], age := min 15 (x.age + 1) }) ∧
    (a.admitted = true ∨ (atFloor ∧ twin) → exec (.oabAdmit id) s = .next s)) ∧
  (∀ (h : Head),
    Completes (.atomoFin h) (fun _ _ _ g _ m => m &&& g.retiredIdx = 0#96) (fun s gid s1 g sh m => retireLanes (s.goesOn gid s1 sh g) gid m) ∧
    Completes (.atomoFin h) (fun _ _ _ g _ m => m &&& g.retiredIdx ≠ 0#96)
      (fun s gid s1 g sh m => trapWord s gid s1 (.atomoFin h) sh 0x0E#8 0#8 (m &&& g.retiredIdx) true)) ∧
  (∀ (s : State) (gid : Nat) (l : Lane) (g : Group), s.group? gid = some g → g.sup = false →
    ∃ g', (retireLane s gid l).group? gid = some g' ∧ g'.retiredIdx = g.retiredIdx ||| oneLane l.val) ∧
  (∀ (s : State) (grid : Nat) (gr : Grid), tget s.grids grid = some gr → gr.late = [] → gr.digests = [] → gr.again = none →
    exec (.floorAdvance grid) s = .next { s with grids := tset s.grids grid { gr with floor := computeFloor s grid gr } } ∧
    let open_ := fun i : BitVec 128 => i ∈ gr.liveTasks ∨ (∃ a ∈ s.accs, (∃ op, a.op = .ordered op) ∧ a.grid = grid ∧ a.idx = i) ∨
      (gr.low < gr.record.teams * gr.record.groups * 96 ∧ i = BitVec.ofNat 128 (gr.low * 2 ^ 96))
    (∀ f, computeFloor s grid gr = some f → open_ f ∧ ∀ i, open_ i → f ≤ i) ∧ (computeFloor s grid gr = none → ∀ i, ¬ open_ i)) ∧
  (∀ (gr : Grid) (r : Retiree), gr.retired.Pairwise (· < ·) → (∀ x ∈ gr.retired, gr.low < x) →
    let n := laneNo r.idx
    let t := gr.retire true false r
    (∀ k, (k < t.low ∨ k ∈ t.retired) ↔ (k = n ∨ k < gr.low ∨ k ∈ gr.retired)) ∧ t.low ∉ t.retired ∧ gr.low ≤ t.low ∧
      t.retired.Pairwise (· < ·) ∧ (∀ x ∈ t.retired, t.low < x) ∧ t.liveTasks = gr.liveTasks ∧
      ∀ i, i ∈ (gr.retire false false r).liveTasks ↔ i ∈ gr.liveTasks ∧ i ≠ r.idx) ∧
  ∀ (s : State) (die line : Nat),
    ((∀ l ∈ s.leases, l.line = line → l.expiry ≤ s.now.toNat) →
      exec (.leaseExpiry line) s = .next (settleFences
        (settleOutside { s with leases := s.leases.filter fun l => l.line ≠ line, held := s.held.filter fun h => h.line ≠ line }))) ∧
    ((∃ l ∈ s.leases, l.line = line ∧ s.now.toNat < l.expiry) → exec (.leaseExpiry line) s = .next s) ∧
    exec (.leaseCopyDrop die line) s = .next { s with leases := s.leases.map fun l =>
      if l.die = die ∧ l.line = line ∧ ¬(l.copy = true ∧ s.now.toNat + 16 < l.expiry) then { l with copy := false } else l }

/-! ### Rings and futures (R81 to R84) -/

/-- R52, R67, R82 to R84, R64: rings and futures. A ring word traps first on its descriptor's place, then on the descriptor, then on the
slot array; it then takes the next number of its end of the ring and waits. Its turn comes when the ring has room or data; it
moves its lanes' elements, and then publishes its number when all before it have and its earlier accesses have performed at its natural
scope. Each of its accesses asks for miss-status entries first: without them it waits with rejected lanes, and what goes to another module is
sent there and performs once that has answered (R63, R64, R109). fut.fill fills every lane's empty future; where one is full, none fills and the word traps; where one does not translate, none
fills and the slot is parked (log entry 63). fut.wait holds its slot until its futures are full and none of its lanes has an earlier access to them on
the way, and then gives their payloads. Pending lanes of any such word try again. The atomics and the fills drop their line from the core's L1
(R58), and what they write is the lanes' own. The order in which waiting lanes are served is the model's reading (log entry 28). -/
def Obligations.RingAndFutureWords : Prop :=
  ∀ (h : Head) (d : Dst) (k : Triple) (a b : Src) (sp : BitVec 3) (pol : BitVec 2),
    let put := fun (s : State) (gid : Nat) (g : Group) (r : MemReq) (ks : List Nat) (off : Nat) (v : Word32) =>
      storeBy (noteRead (l1Drops s g.die g.core ks) ((homeDie (ks.headD 0)).getD Config.dies) g.core gid r.agents r.op.classes ks)
        (r.writer gid g r.agents) ((ks.drop off).take 4) (toBytes (v + 1#32) 4)
    (∀ (s : State) (gid : Nat) (s1 : Bool) (g : Group) (r : MemReq) (wait : SlotWait) (whole : Bool) (todo : Mask) (ks : List (Nat × List Nat)),
      let all := ks.foldl (fun m p => m ||| oneLane p.1) 0#96
      let away := isRemote (ks.flatMap Prod.snd)
      let x := askEntries s s1 g r ks
      (r.acked = true → reach s gid s1 g r wait whole todo ks = .ok all) ∧
      (r.acked = false → (∃ f ∈ s.flits, f.id = r.id) → reach s gid s1 g r wait whole todo ks = .error s) ∧
      (r.acked = false → (∀ f ∈ s.flits, f.id ≠ r.id) →
        (x.2 ≠ 0#96 → (whole = true ∨ away = true ∨ x.1 = []) → reach s gid s1 g r wait whole todo ks = .error (waitEntries s gid s1 wait r todo)) ∧
        (x.2 ≠ 0#96 → whole = false → away = false → x.1 ≠ [] → reach s gid s1 g r wait whole todo ks = .ok (all &&& ~~~x.2)) ∧
        (x.2 = 0#96 → away = true → reach s gid s1 g r wait whole todo ks =
          .error ((sendWait s gid s1 g r x.1).modSlot gid s1 fun sl => { sl with wait := wait, unfinished := todo, req := some r, age := 0 })) ∧
        (x.2 = 0#96 → away = false → reach s gid s1 g r wait whole todo ks = .ok all))) ∧
    (∀ (push : Bool), let i := if push then Instr.ringPush h k b sp pol else Instr.ringPop h d k sp pol
      Skips i ∧ ∀ s gid s1 g sh s', Passes i s gid s1 g sh s' → g.lanesAt s1 sh ≠ 0#96 → (push = true → g.region = none) →
        ∃ r : MemReq, r.id = s'.seqNo ∧ r.instr = i ∧ r.op = (if push then .ringPush else .ringPop) ∧ r.space = Space.ofCode sp ∧
          r.w = h.w ∧ r.ctr = h.ctr ∧ r.issued = g.lanesAt s1 sh ∧ r.agents = g.lanesAt s1 sh ∧ r.ring = none ∧ r.touched = false ∧
          (∀ l : Lane, r.ea[l] = readTriple g (g.slot s1) k ∧
            (push = true → r.data[l] = (readSrc s' g (g.slot s1) l b (wBits h.w)).setWidth 64)) ∧
          (∀ c t, memTrap s' g { r with once := (lowest? r.issued).map Fin.val } 32 8 (some true) r.issued = some (c, t) →
            exec i s = .next (trapWord s' gid s1 i sh c 0#8 t true)) ∧
          (memTrap s' g { r with once := (lowest? r.issued).map Fin.val } 32 8 (some true) r.issued = none →
            exec i s = .next (ringStart ((s'.setGroup gid g).nextId.2.ctrUp gid h.ctr) gid s1 sh r))) ∧
    (∀ (s s' : State) (gid : Nat) (s1 : Bool) (sh : Shape) (r : MemReq) (g : Group) (ks : List Nat), s.group? gid = some g →
      ringKeys s g r = (s', .ok ks) → r.op = .ringPush ∨ r.op = .ringPop →
      (∀ x, reach s' gid s1 g r .pending true r.issued [(0, ks)] = .error x → ringStart s gid s1 sh r = x) ∧
      ∀ m, reach s' gid s1 g r .pending true r.issued [(0, ks)] = .ok m →
      let q := Ring.ofBytes (ks.map (homeByte s'))
      let res := if r.op = .ringPush then q.pushRes else q.popRes
      let size := wBits r.w / 8
      (q.log > 20 ∨ q.size = 0 ∨ q.size < 96 * size ∨ q.zero ≠ 0#8 → ringStart s gid s1 sh r = trapStarted s' gid s1 sh r 0x0C#8 r.issued) ∧
      (¬(q.log > 20 ∨ q.size = 0 ∨ q.size < 96 * size ∨ q.zero ≠ 0#8) →
        (inSpace s' (s'.teamOf g) g.die g.grid r.space q.base (2 ^ q.log * q.size) = false →
          ringStart s gid s1 sh r = trapStarted s' gid s1 sh r 0x07#8 r.issued) ∧
        (inSpace s' (s'.teamOf g) g.die g.grid r.space q.base (2 ^ q.log * q.size) = true →
          lockHit s' g.die g.core g.tenant (decide (r.op = .ringPush)) r.space q.base (2 ^ q.log * q.size) = false →
          ringStart s gid s1 sh r =
            (put s' gid g r ks (if r.op = .ringPush then 16 else 24) res).modSlot gid s1 fun x =>
              { x with wait := ringWait r res, unfinished := 0#96, age := 0, req := some { r with ring := some res, acked := false } }))) ∧
    (∀ (s s' : State) (gid : Nat) (s1 : Bool) (g : Group) (r : MemReq) (n : Word32) (ks : List Nat), s.group? gid = some g →
      g.frozen = false → (g.slot s1).req = some r → ringKeys s g r = (s', .ok ks) →
      let q := Ring.ofBytes (ks.map (homeByte s'))
      let todo := if (g.slot s1).unfinished = 0#96 then r.issued else (g.slot s1).unfinished
      ((g.slot s1).wait = .ringPush n → r.op = .ringPush →
        (r.touched = false → (n - q.head).toNat < 2 ^ q.log → exec (.ringWaitResume gid s1) s = .next (ringTouch s' gid s1 g r q n todo)) ∧
        (r.touched = false → ¬ (n - q.head).toNat < 2 ^ q.log → exec (.ringWaitResume gid s1) s = .next s) ∧
        (r.touched = true → q.tail = n → released s' gid g.die r.agents (naturalScope r.space) r.id = true →
          ∀ m, reach s' gid s1 g r (ringWait r n) true r.issued [(0, ks)] = .ok m →
          exec (.ringWaitResume gid s1) s = .next (settleFences (finishWait (put s' gid g r ks 20 n) gid s1 r)))) ∧
      ((g.slot s1).wait = .ringPop n → r.op = .ringPop →
        (r.touched = false → 0 < (q.tail - n).toInt → exec (.ringWaitResume gid s1) s = .next (ringTouch s' gid s1 g r q n todo)) ∧
        (r.touched = false → ¬ 0 < (q.tail - n).toInt → exec (.ringWaitResume gid s1) s = .next s) ∧
        (r.touched = true → q.head = n → ∀ m, reach s' gid s1 g r (ringWait r n) true r.issued [(0, ks)] = .ok m →
          exec (.ringWaitResume gid s1) s = .next (settleFences (finishWait (naturalAcquire (put s' gid g r ks 28 n) g r.space) gid s1 r))))) ∧
    Skips (.futFill h a b sp pol) ∧ Skips (.futWait h d a sp pol) ∧
    (∀ (fill : Bool), let i := if fill then Instr.futFill h a b sp pol else Instr.futWait h d a sp pol
      ∀ s gid s1 g sh s', Passes i s gid s1 g sh s' → g.lanesAt s1 sh ≠ 0#96 → (fill = true → g.region = none) →
        ∃ r : MemReq, r.id = s'.seqNo ∧ r.instr = i ∧ r.op = (if fill then .futFill else .futWait) ∧ r.space = Space.ofCode sp ∧
          r.issued = g.lanesAt s1 sh ∧ r.ctr = h.ctr ∧ (h.uni = false → r.agents = g.lanesAt s1 sh ∧ r.once = none) ∧
          (∀ l : Lane, r.ea[l] = readAddr s' g (g.slot s1) l a ∧ (fill = true → r.data[l] = readSrc s' g (g.slot s1) l b 64)) ∧
          (∀ c t, memTrap s' g r 8 8 (some fill) r.issued = some (c, t) → exec i s = .next (trapWord s' gid s1 i sh c 0#8 t true)) ∧
          (memTrap s' g r 8 8 (some fill) r.issued = none →
            let u := (s'.setGroup gid g).nextId.2.ctrUp gid h.ctr
            (fill = true → exec i s = .next (futFillIssue u gid s1 sh r)) ∧
            (fill = false → ∀ v ks, futCheck (s'.nextId.2.ctrUp gid h.ctr) gid s1 g r = (v, some ks) →
              exec i s = .next (v.modSlot gid s1 fun x => { x with wait := .futWait, req := some r })))) ∧
    (∀ (s s' : State) (gid : Nat) (s1 : Bool) (sh : Shape) (r : MemReq) (g : Group) (x : Xlated), s.group? gid = some g →
      xlateLanes s g r.space .atomic r.ea 8 (lanesOf r.issued) = (s', x) →
      let full := fun ks : List Nat => ((BitVec.ofNat 64 (natOfBytes (ks.map (homeByte s')))).getLsbD 63 = true)
      (∀ y, reach s' gid s1 g r .pending true r.issued x.keys = .error y → futFillIssue s gid s1 sh r = y) ∧
      ∀ m, reach s' gid s1 g r .pending true r.issued x.keys = .ok m →
      ((∃ p ∈ x.keys, full p.2) → x.keys.Pairwise (fun p q => p.1 ≠ q.1 ∧ p.2 ≠ q.2) → (∀ p ∈ x.keys, p.1 < 96) →
        ∃ m, futFillIssue s gid s1 sh r = trapStarted s' gid s1 sh r 0x0D#8 m ∧
          ∀ l : Lane, m.getLsbD l.val = true ↔ ∃ p ∈ x.keys, p.1 = l.val ∧ full p.2) ∧
      ((∀ p ∈ x.keys, ¬ full p.2) → x.keys.Pairwise (fun p q => p.2 ≠ q.2) →
        (x.first = none → futFillIssue s gid s1 sh r = finishWait (x.keys.foldl (fun y p =>
          storeBy (l1Drops y g.die g.core p.2) (r.writer gid g (oneLane p.1)) p.2
            (toBytes (r.data[(Fin.ofNat 96 p.1 : Lane)] ||| (1#64 <<< 63)) 8)) s') gid s1 r) ∧
        ∀ va c, x.first = some (va, c) → futFillIssue s gid s1 sh r =
          (parkSlot s' gid s1 va c 2#8 x.faulted).modSlot gid s1 fun sl => { sl with req := some { r with acked := false } })) ∧
    (∀ (s s' : State) (gid : Nat) (s1 : Bool) (g : Group) (r : MemReq) (ks : List (Nat × List Nat)), s.group? gid = some g →
      g.frozen = false → (g.slot s1).wait = .futWait → (g.slot s1).req = some r → futCheck s gid s1 g r = (s', some ks) →
      let word := fun p : Nat × List Nat => BitVec.ofNat 64 (natOfBytes (p.2.map (agentByte s' gid (oneLane p.1) g.die)))
      let there := fun (x parent : Nat) (m : Mask) (keys : List Nat) =>
        x = gid ∧ m &&& r.issued ≠ 0#96 ∧ parent ≠ r.id ∧ ∃ p ∈ ks, ∃ k ∈ keys, k ∈ p.2
      let own := (∃ x ∈ s'.stores, there x.gid x.parent x.agents x.keys) ∨ (∃ x ∈ s'.accs, there x.gid x.parent x.agents x.keys) ∨
        ∃ x ∈ s'.flits, there x.gid x.parent x.agents x.keys
      ((∀ p ∈ ks, (word p).getLsbD 63 = true) → ¬ own → ∀ m, reach s' gid s1 g r .futWait true r.issued ks = .ok m →
        exec (.futWaitWake gid s1) s = .next (settleFences (finishWait (naturalAcquire
          (ks.foldl (fun y p => (noteRead y g.die g.core gid (oneLane p.1) r.op.classes p.2).modGroup gid fun g =>
            g.receive s1 r p.1 (word p &&& ~~~(1#64 <<< 63))) s') g r.space) gid s1 r))) ∧
      ((∃ p ∈ ks, (word p).getLsbD 63 = false) ∨ own → exec (.futWaitWake gid s1) s = .next s)) ∧
    ∀ (s : State) (gid : Nat) (s1 : Bool) (g : Group) (r : MemReq), s.group? gid = some g → g.frozen = false →
      (g.slot s1).wait = .pending → (g.slot s1).req = some r →
      exec (.pendingRetry gid s1) s = .next (resumeReq s gid s1 r (g.slot s1).unfinished)

/-! ### Control transfers (R11, R23, R24, R142 to R148, R165 to R174) -/

/-- R11, R23, R34, R143, R147, R148, R167, R168: branches. Where a target is no header its lanes take illegal-header before anything else;
one that does not translate is gone to, and found out when its header is fetched (the model's choice, log entry 61). The lanes `t` that transfer and the active lanes `f` that do not part only
when there are some of each: the slot goes on at the target with `t` and the idle lanes, and `f` goes to the other slot, or waits in the
stack; a join entry for all the slot's lanes is pushed first where the word names a reconvergence address. Each trap comes before any lane
transfers. brx divides its lanes by target in the same way, with the lanes that do not issue as a class of their own. -/
def Obligations.Branches : Prop :=
  ∀ (h : Head) (target : BitVec 22) (reconv : BitVec 16) (hint ug : Bool) (a : Src),
    let join := fun sl : Slot => if reconv = 0#16 then none else some (sl.header + 8#80 * reconv.signExtend 80)
    let dest := fun sl : Slot => sl.header + 8#80 * target.signExtend 80
    let fall := fun sl : Slot => sl.pc + 8#80 * BitVec.ofNat 80 sl.left
    let going := fun (sl : Slot) (pc : Addr) (owned mask : Mask) => { sl.jump pc with owned := owned, mask := mask }
    (∀ s gid s1 g sh s', Passes (.bra h target reconv hint) s gid s1 g sh s' →
      let i := Instr.bra h target reconv hint
      let sl := g.slot s1
      let t := trapLanes g sl sh
      let f := sl.mask &&& ~~~t
      let pushes := if reconv ≠ 0#16 ∨ (g.slot (!s1)).owned ≠ 0#96 then 1 else 0
      let noJoin := ∃ x, join sl = some x ∧ joinsAt s g x = false
      (t = 0#96 → exec i s = .next (s.putPaths gid (g.modSlot s1 fun _ => going sl (fall sl) sl.owned sl.mask))) ∧
      (t ≠ 0#96 → landing s g (dest sl) = .bad → exec i s = .next (trapWord s gid s1 i sh 0x01#8 0#8 t true)) ∧
      (t ≠ 0#96 → landing s g (dest sl) ≠ .bad →
        (f = 0#96 → exec i s = .next (s.putPaths gid (g.modSlot s1 fun _ => going sl (dest sl) sl.owned sl.mask))) ∧
        (f ≠ 0#96 → noJoin → exec i s = .next (trapWord s gid s1 i sh 0x02#8 0#8 t true)) ∧
        (f ≠ 0#96 → ¬ noJoin → 16336 < g.stack.length + pushes → exec i s = .next (trapWord s gid s1 i sh 0x10#8 0#8 t true)) ∧
        (f ≠ 0#96 → ¬ noJoin → g.stack.length + pushes ≤ 16336 →
          ∃ g', exec i s = .next (s.putPaths gid g') ∧ g' = { g with s0 := g'.s0, s1 := g'.s1, stack := g'.stack } ∧
            g'.slot s1 = going sl (dest sl) (sl.owned &&& ~~~f) t ∧
            ((g.slot (!s1)).owned = 0#96 → (g'.slot (!s1)).pc = fall sl ∧ (g'.slot (!s1)).owned = f ∧ (g'.slot (!s1)).mask = f ∧
              g'.stack = (match join sl with | some x => [joinEntry g x sl.owned] | none => []) ++ g.stack) ∧
            ((g.slot (!s1)).owned ≠ 0#96 → g'.slot (!s1) = g.slot (!s1) ∧
              g'.stack = { join := join sl, expected := if reconv = 0#16 then 0#96 else sl.owned, arrived := 0#96, pathPc := fall sl,
                           path := f, idle := 0#96, trapLevel := g.trapMode, rotated := false } :: g.stack)))) ∧
    (∀ s gid s1 g sh s', Passes (.braUniform h target reconv hint) s gid s1 g sh s' →
      let i := Instr.braUniform h target reconv hint
      let sl := g.slot s1
      let takes := g.uniIssues h = true ∧ (h.uni = true ∨ sl.mask ≠ 0#96)
      (takes → trapLanes g sl sh = 0#96 ∨ landing s g (dest sl) ≠ .bad →
        exec i s = .next (s.setGroup gid (g.modSlot s1 fun _ => going sl (dest sl) sl.owned sl.mask))) ∧
      (takes → trapLanes g sl sh ≠ 0#96 → landing s g (dest sl) = .bad →
        exec i s = .next (trapWord s gid s1 i sh 0x01#8 0#8 (trapLanes g sl sh) true)) ∧
      (¬ takes → exec i s = .next (s.setGroup gid (g.modSlot s1 fun _ => going sl (fall sl) sl.owned sl.mask)))) ∧
    (∀ s gid s1 g sh s', Passes (.brx h a reconv hint ug) s gid s1 g sh s' →
      let i := Instr.brx h a reconv hint ug
      let sl := g.slot s1
      let m := trapLanes g sl sh
      let at_ := fun l : Lane => sl.header + (readSrc s' g sl l a 32).signExtend 80
      (m = 0#96 → exec i s = .next (s'.setGroup gid (g.modSlot s1 fun _ => going sl (fall sl) sl.owned sl.mask))) ∧
      (m ≠ 0#96 → (∃ l : Lane, m.getLsbD l.val = true ∧ (at_ l).toNat % 8 = 0 ∧ landing s' g (at_ l) = .bad) →
        ∃ t, exec i s = .next (trapWord s' gid s1 i sh 0x01#8 0#8 t true) ∧ ∀ l : Lane, t.getLsbD l.val = true ↔
          m.getLsbD l.val = true ∧ (at_ l).toNat % 8 = 0 ∧ landing s' g (at_ l) = .bad) ∧
      (m ≠ 0#96 → (∀ l : Lane, m.getLsbD l.val = true → (at_ l).toNat % 8 = 0 → landing s' g (at_ l) ≠ .bad) →
        (∃ l : Lane, m.getLsbD l.val = true ∧ (at_ l).toNat % 8 ≠ 0) →
        ∃ t, exec i s = .next (trapWord s' gid s1 i sh 0x02#8 0#8 t true) ∧ ∀ l : Lane, t.getLsbD l.val = true ↔
          m.getLsbD l.val = true ∧ (at_ l).toNat % 8 ≠ 0) ∧
      (m ≠ 0#96 → sl.mask &&& ~~~m = 0#96 → ∀ x, (∀ l : Lane, m.getLsbD l.val = true → at_ l = x) → x.toNat % 8 = 0 →
        landing s' g x ≠ .bad →
        exec i s = .next (s'.putPaths gid (g.modSlot s1 fun _ => going sl x sl.owned sl.mask))) ∧
      (∀ cs, cs = splitClasses sl at_ m (fall sl) → 1 < cs.length →
        (∀ l : Lane, m.getLsbD l.val = true → (at_ l).toNat % 8 = 0 ∧ landing s' g (at_ l) ≠ .bad) →
        (∀ x, join sl = some x → joinsAt s' g x = true) → m ≠ 0#96 →
        g.stack.length + ((if (g.slot (!s1)).owned = 0#96 then cs.length - 2 else cs.length - 1) + if reconv = 0#16 then 0 else 1) ≤ 16336 →
        exec i s = .next (s'.putPaths gid (splitPaths (g.pushJoin (join sl) sl.owned) s1 s'.now.toNat (sl.owned &&& ~~~sl.mask) cs)))) ∧
    ∀ (s : State) (gid : Nat) (g old : Group), s.group? gid = some old → old.stack.length ≤ 32 → g.stack.length ≤ 32 → g.owed = [] →
      s.putPaths gid g = s.setGroup gid g

/-- R144, R146, R148, R171, R173, R174: joins, waits and barriers. A join parks the lanes of its slot that the topmost entry of its level at its clause's header expects, and
does nothing where there is none. When the last has arrived they go on together after the join. A split by target gives each
lane to the class of its target, and every lane to one. A join looks at the whole stack, so that its entries below the on-chip 32 are read
first, and a page fault there parks the group (log entry 27). yield gives way at the end of the clause; sleep keeps the slot from issuing for
the cycles that A asks. An arrival counts at a barrier of the team, and is kept with the slot that made it (the model's reading, log entry 31); a wait ends when the
slot's phase has completed. -/
def Obligations.JoinsWaitsAndBarriers : Prop :=
  (∀ s gid s1 g0 sh s' u g, Passes .join s gid s1 g0 sh s' →
    let below := List.range (g0.stack.length - 32)
    (readBelow s gid below = (u, false) → exec .join s = .next u) ∧
    (readBelow s gid below = (u, true) → u.group? gid = some g →
    let sl := g0.slot s1
    let mine := fun e : Reconv => e.trapLevel = g.trapMode ∧ e.join = some sl.header ∧ e.expected &&& sl.owned ≠ 0#96
    ((sl.pos ≠ 0 ∨ ∀ e ∈ g.stack, ¬ mine e) → exec .join s = .next (u.setGroup gid (g.modSlot s1 fun x => x.advance false))) ∧
    (sl.pos = 0 → ∀ above e below, g.stack = above ++ e :: below → (∀ x ∈ above, ¬ mine x) → mine e →
      let e' := { e with arrived := e.arrived ||| (sl.owned &&& e.expected), idle := e.idle ||| (sl.owned &&& e.expected &&& ~~~sl.mask) }
      exec .join s = .next (u.putPaths gid (examine u s1
        (({ g with stack := above ++ e' :: below }.modSlot s1 fun x => x.advance false).leaveSlot s1 (sl.owned &&& e.expected))))) ∧
    (sl.pos = 0 → ∀ e, g.stack = [e] → mine e → e.path = 0#96 → e.expected &&& ~~~(e.arrived ||| sl.owned) = 0#96 →
      sl.owned &&& ~~~e.expected = 0#96 → (g.slot (!s1)).owned ≠ 0#96 →
      ∃ g', exec .join s = .next (u.putPaths gid g') ∧ g'.stack = [] ∧ g'.slot (!s1) = g.slot (!s1) ∧
        (g'.slot s1).pc = sl.header + 16#80 ∧ (g'.slot s1).owned = e.arrived ||| (sl.owned &&& e.expected)))) ∧
  (∀ (target : Lane → Addr) (m : Mask),
    let cs := classesOf target (lanesOf m)
    (∀ l : Lane, m.getLsbD l.val = true → ∃ c ∈ cs, c.1 = target l ∧ c.2.getLsbD l.val = true) ∧
    (∀ c ∈ cs, ∀ l : Lane, c.2.getLsbD l.val = true → m.getLsbD l.val = true ∧ target l = c.1) ∧
    cs.Pairwise fun c d => c.1 ≠ d.1) ∧
  (∀ (h : Head) (a : Src),
    Skips (.yield h) ∧
    Completes (.yield h) (fun _ _ _ _ _ m => m ≠ 0#96) (fun s gid s1 g sh _ =>
      s.goesOn gid s1 sh (g.modSlot s1 fun x => { x with yld := true, back := true })) ∧
    Skips (.sleep h a) ∧
    Completes (.sleep h a) (fun _ _ _ _ _ m => m ≠ 0#96) (fun s gid s1 g sh m =>
      s.goesOn gid s1 sh (g.modSlot s1 fun x =>
        { x with sleep := s.now.toNat + min (readSrc s g (g.slot s1) ((lowest? m).getD (g.slot s1).uniLane) a 32).toNat 1048575 }))) ∧
  (∀ (s : State) (gid : Nat) (s1 : Bool), exec (.sleepExpiry gid s1) s =
    .next (s.modSlot gid s1 fun x => if x.sleep ≤ s.now.toNat then { x with sleep := 0 } else x)) ∧
  ∀ (h : Head) (a b : Src) (form : Fin 3),
    let i := match form with | 0 => Instr.barArrive h a b | 1 => Instr.barWait h a | 2 => Instr.barSync h a b
    Skips i ∧
    (∀ s gid s1 g sh s', Passes i s gid s1 g sh s' → g.lanesAt s1 sh ≠ 0#96 →
      let sl := g.slot s1
      let read := fun x : Src => (readSrc s' g sl ((lowest? (g.lanesAt s1 sh)).getD sl.uniLane) x 32).toNat
      let trap := fun c => exec i s = .next (trapWord s' gid s1 i sh c 0#8 (trapLanes g sl sh) true)
      (g.team = none → trap 0x12#8) ∧
      ∀ tid team, g.team = some tid → tget s'.teams tid = some team → (hid : read a < 16) →
        let bar := team.bars[read a]
        let n := if form = 1 then 0 else read b
        let legal := n ≤ 384 ∧ n ≤ teamSize s' team ∧ (bar.arrivals = 0 ∨ n = 0 ∨ (bar.all = false ∧ n = bar.expected))
        let bar' := if bar.arrivals = 0 then { bar with arrivals := 1, expected := n, all := decide (n = 0) }
          else { bar with arrivals := bar.arrivals + 1 }
        let waits := fun x : Group => (x.modSlot s1 fun y => { y with wait := .bar (read a), wctr := h.ctr }).ctrUp h.ctr
        let comes := fun x : Group => x.modSlot s1 fun y => { y with arrived := tset y.arrived (read a) false }
        let ends := fun (x : Group) (bars : Vector Barrier 16) => exec i s = .next (releaseBars (settleBar
          { s'.setGroup gid x with teams := tset s'.teams tid { team with bars := bars } } tid (read a)) gid)
        (form = 1 → tget sl.arrived (read a) = none → trap 0x13#8) ∧
        (form = 1 → (tget sl.arrived (read a)).isSome = true → ends (waits (g.modSlot s1 fun y => y)) team.bars) ∧
        (form ≠ 1 → ¬ legal → trap 0x13#8) ∧
        (form = 0 → legal → ends ((comes g).done s1 sh) (team.bars.set (read a) bar')) ∧
        (form = 2 → legal → ends (waits (comes g)) (team.bars.set (read a) bar'))) ∧
    ∀ (s : State) (tid id : Nat) (team : Team), tget s.teams tid = some team → (hid : id < 16) →
      let bar := team.bars[id]
      let full := 0 < bar.arrivals ∧ (if bar.all = true then team.groups.length else bar.expected) ≤ bar.arrivals
      (¬ full → settleBar s tid id = s) ∧
      (full → (tget (settleBar s tid id).teams tid).map (fun t => t.bars[id]) =
        some { phase := !bar.phase, arrivals := 0, expected := 0, all := false })

/-- R24, R145, R169, R170, R172: calls, returns and exits. A call must name its own fall-through as its return address; it keeps that
address in each calling lane's next frame, and the lane's depth rises; the lanes that do not call wait at it. A target that is no
header traps before that check, and one that does not translate is gone to (the model's choice, log entry 61). Each lane of a return goes back
to the address in its frame, or, at depth 0, exits; the returning lanes part by address as at brx, and the lanes that do not return go on past
the word. A lane whose address is no header traps, also where the return itself stands where none may. A uniform return takes the active lanes
of its slot (the model's reading, log entry 57). Lanes that exit leave their slot and every entry's expected
mask (where no entry is in memory, whose bytes a transfer would bring back as they are); in trap mode, or in an open region, the word traps.
Frames that a page fault has left to write or read are done when the word is replayed, and those alone; entries below the on-chip 32 are read
before a word looks at the whole stack (log entry 27). -/
def Obligations.CallsAndExits : Prop :=
  ∀ (h : Head) (target : BitVec 22) (reconv : BitVec 16) (hint ug : Bool) (a : Src),
    let fall := fun sl : Slot => sl.pc + 8#80 * BitVec.ofNat 80 sl.left
    let names := fun sl : Slot => sl.header + 8#80 * reconv.signExtend 80 = fall sl
    let going := fun (sl : Slot) (pc : Addr) (owned mask : Mask) => { sl.jump pc with owned := owned, mask := mask }
    -- what a call leaves where its frames were written: `u` is the state after them
    let called := fun (u : State) (g : Group) (sl : Slot) (s1 : Bool) (t : Mask) (go : Group → Group) (gid : Nat) =>
      u.putPaths gid (go { g with cdepth := setLanes g.cdepth t (fun l => g.cdepth[l] + 1#13),
                                  stack := joinEntry g (fall sl) sl.owned :: g.stack })
    (∀ s gid s1 g sh s' u, Passes (.call h target reconv hint) s gid s1 g sh s' →
      let i := Instr.call h target reconv hint
      let sl := g.slot s1
      let t := trapLanes g sl sh
      let f := sl.mask &&& ~~~t
      let dest := sl.header + 8#80 * target.signExtend 80
      (t ≠ 0#96 → landing s g dest = .bad → exec i s = .next (trapWord s gid s1 i sh 0x01#8 0#8 t true)) ∧
      (t = 0#96 ∨ landing s g dest ≠ .bad → ¬ names sl → exec i s = .next (trapWord s gid s1 i sh 0x02#8 0#8 t true)) ∧
      (names sl → t = 0#96 → exec i s = .next (s.setGroup gid (g.modSlot s1 fun _ => going sl (fall sl) sl.owned sl.mask))) ∧
      (names sl → t ≠ 0#96 → landing s g dest ≠ .bad → f ≠ 0#96 → joinsAt s g (fall sl) = false →
        exec i s = .next (trapWord s gid s1 i sh 0x02#8 0#8 t true)) ∧
      (names sl → landing s g dest ≠ .bad → (f ≠ 0#96 → joinsAt s g (fall sl) = true) →
        let past := t &&& maskOf fun l => decide (4096 ≤ g.cdepth[l].toNat)
        (past ≠ 0#96 → exec i s = .next (trapWord s gid s1 i sh 0x11#8 0#8 past true)) ∧
        (t ≠ 0#96 → past = 0#96 → 16336 < g.stack.length + 1 → exec i s = .next (trapWord s gid s1 i sh 0x10#8 0#8 t true)) ∧
        (t ≠ 0#96 → past = 0#96 → g.stack.length + 1 ≤ 16336 → pushFrames s gid s1 g t (fall sl) = (u, true) → exec i s = .next u)) ∧
      (names sl → t ≠ 0#96 → landing s g dest ≠ .bad → (f ≠ 0#96 → joinsAt s g (fall sl) = true) →
        (∀ l : Lane, t.getLsbD l.val = true → g.cdepth[l].toNat < 4096) → g.stack.length + 1 ≤ 16336 →
        pushFrames s gid s1 g t (fall sl) = (u, false) →
        exec i s = .next (called u g sl s1 t (fun x => (x.travel s1 dest (sl.owned &&& ~~~f) t).parkPath s1 s.now.toNat true (fall sl) f) gid))) ∧
    (∀ s gid s1 g sh s' u, Passes (.callUniform h target reconv hint) s gid s1 g sh s' →
      let i := Instr.callUniform h target reconv hint
      let sl := g.slot s1
      let t := if h.uni = true then (if g.uniIssues h = true then sl.owned else 0#96) else trapLanes g sl sh
      let dest := sl.header + 8#80 * target.signExtend 80
      (names sl → t = 0#96 → exec i s = .next (s.setGroup gid (g.modSlot s1 fun _ => going sl (fall sl) sl.owned sl.mask))) ∧
      (names sl → t ≠ 0#96 → landing s g dest ≠ .bad → (∀ l : Lane, t.getLsbD l.val = true → g.cdepth[l].toNat < 4096) →
        g.stack.length + 1 ≤ 16336 → pushFrames s gid s1 g t (fall sl) = (u, false) →
        exec i s = .next (called u g sl s1 t (fun x => x.travel s1 dest sl.owned sl.mask) gid))) ∧
    (∀ s gid s1 g sh s' u, Passes (.callx h a reconv hint ug) s gid s1 g sh s' →
      let i := Instr.callx h a reconv hint ug
      let sl := g.slot s1
      let m := trapLanes g sl sh
      let at_ := fun l : Lane => sl.header + (readSrc s' g sl l a 32).signExtend 80
      let cs := splitClasses sl at_ m (fall sl)
      (names sl → m = 0#96 → exec i s = .next (s'.setGroup gid (g.modSlot s1 fun _ => going sl (fall sl) sl.owned sl.mask))) ∧
      (names sl → m ≠ 0#96 → (∀ l : Lane, m.getLsbD l.val = true → (at_ l).toNat % 8 = 0 ∧ landing s' g (at_ l) ≠ .bad) →
        (1 < cs.length → joinsAt s' g (fall sl) = true) → (∀ l : Lane, m.getLsbD l.val = true → g.cdepth[l].toNat < 4096) →
        g.stack.length + (1 + if 1 < cs.length then (if (g.slot (!s1)).owned = 0#96 then cs.length - 2 else cs.length - 1) else 0) ≤ 16336 →
        pushFrames s' gid s1 g m (fall sl) = (u, false) →
        exec i s = .next (called u g sl s1 m (fun x => x.split s1 s'.now.toNat none cs) gid))) ∧
    -- the frames that are written and read: those that no page fault has left done
    (∀ s gid s1 (g : Group) (m : Mask) (ret : Addr) u ks,
      let left := m &&& maskOf fun l => decide (∀ p ∈ (g.slot s1).frames, p.1 ≠ l.val)
      (deviceKeys s gid s1 g .write (fun l => BitVec.ofNat 80 (0xFE0000 + 16 * g.cdepth[l].toNat)) 16 left = (u, ks, false) →
        pushFrames s gid s1 g m ret =
          (ks.foldl (fun x p => lpPuts x (g.deviceWriter gid (oneLane p.1)) p.2 (toBytes ret 16)) u, false)) ∧
      (deviceKeys s gid s1 g .read (fun l => BitVec.ofNat 80 (0xFE0000 + 16 * (g.cdepth[l].toNat - 1))) 10 left = (u, ks, false) →
        let v := ks.foldl (fun x p => p.2.foldl (fun x k => fetchFor x g.die g.core g.tenant .lp 0#2 k) x) u
        readFrames s gid s1 g m = (v, (g.slot s1).frames ++
          ks.map (fun p => (p.1, BitVec.ofNat 80 (natOfBytes (lpBytes v g.die g.core p.2)))), false))) ∧
    -- a return that stands where none may
    (∀ s gid s1 g sh u fs, Issues s gid s1 g → wordShape (.ret h) = some sh → (g.slot s1).left ≠ 1 →
      let m := retLanes h g (g.slot s1)
      let back := m &&& maskOf fun l => decide (g.cdepth[l] ≠ 0#13)
      readFrames s gid s1 g back = (u, fs, false) →
      let bad := back &&& maskOf fun l =>
        decide (((tget fs l.val).getD 0#80).toNat % 8 ≠ 0 ∨ landing u g ((tget fs l.val).getD 0#80) = .bad)
      (bad ≠ 0#96 → exec (.ret h) s = .next (trapWord u gid s1 (.ret h) sh 0x01#8 0#8 bad true)) ∧
      (bad = 0#96 → exec (.ret h) s = .next (trapWord s gid s1 (.ret h) sh 0x02#8 0#8 (trapLanes g (g.slot s1) sh) false))) ∧
    (∀ s gid s1 g sh s' u fs, Passes (.ret h) s gid s1 g sh s' →
      let i := Instr.ret h
      let sl := g.slot s1
      let m := if h.uni = true then (if g.uniIssues h = true then sl.mask else 0#96) else g.issuedLanes sl h
      let ex := m &&& maskOf fun l => decide (g.cdepth[l] = 0#13)
      let back := m &&& ~~~ex
      (m = 0#96 → exec i s = .next (s.setGroup gid (g.modSlot s1 fun _ => going sl (fall sl) sl.owned sl.mask))) ∧
      (m ≠ 0#96 → readFrames s gid s1 g back = (u, fs, true) → exec i s = .next u) ∧
      (m ≠ 0#96 → readFrames s gid s1 g back = (u, fs, false) →
        let at_ := fun l : Lane => (tget fs l.val).getD 0#80
        let bad := back &&& maskOf fun l => decide ((at_ l).toNat % 8 ≠ 0 ∨ landing u g (at_ l) = .bad)
        let cs := addClass (fall sl, sl.mask &&& ~~~m) (classesOf at_ (lanesOf back))
        let fits := 1 < cs.length → g.stack.length + (if (g.slot (!s1)).owned = 0#96 then cs.length - 2 else cs.length - 1) ≤ 16336
        let ends := ex = 0#96 ∨ (g.trapMode = false ∧ g.region = none)
        let trap := fun c t => exec i s = .next (trapWord u gid s1 i sh c 0#8 t true)
        (bad ≠ 0#96 → trap 0x01#8 bad) ∧
        (bad = 0#96 → ex ≠ 0#96 → g.trapMode = true → trap 0x02#8 (trapLanes g sl sh)) ∧
        (bad = 0#96 → ex ≠ 0#96 → g.trapMode = false → g.region.isSome = true → trap 0x18#8 (trapLanes g sl sh)) ∧
        (bad = 0#96 → ends → ¬ fits → trap 0x10#8 (trapLanes g sl sh)) ∧
        (bad = 0#96 → ends → fits → ∀ v y,
          let below := match u.group? gid with | some x => List.range (x.stack.length - 32) | none => []
          (readBelow u gid below = (v, false) → u.group? gid ≠ none → exec i s = .next v) ∧
          (readBelow u gid below = (v, true) → u.group? gid ≠ none → v.group? gid = some y →
            let y1 := (lanesOf back).foldl (fun z l => leaveAbove z l (at_ l)) { y with cdepth := setLanes y.cdepth back fun l => y.cdepth[l] - 1#13 }
            let own := sl.owned &&& ~~~ex
            let y2 := if own = 0#96 then y1
              else if cs = [] then y1.modSlot s1 fun x => { x.jump (fall sl) with owned := own, mask := 0#96 }
              else (y1.modSlot s1 fun x => { x with owned := own, mask := x.mask &&& own }).split s1 v.now.toNat none cs
            exec i s = .next (if ex = 0#96 then (v.putPaths gid y2).examined gid s1 else exitLanes (v.putPaths gid y2) gid s1 ex)))) ∧
      -- every lane goes back to one header
      (m ≠ 0#96 → m = sl.mask → sl.owned ≠ 0#96 → ex = 0#96 → readFrames s gid s1 g m = (u, fs, false) → u.group? gid = some g →
        g.stack.length ≤ 32 →
        ∀ x : Addr, (∀ l : Lane, m.getLsbD l.val = true → tget fs l.val = some x) → x.toNat % 8 = 0 → landing u g x ≠ .bad →
          let g1 := (lanesOf m).foldl (fun y l => leaveAbove y l x) { g with cdepth := setLanes g.cdepth m fun l => g.cdepth[l] - 1#13 }
          exec i s = .next ((u.putPaths gid (g1.modSlot s1 fun _ => going sl x sl.owned (sl.mask &&& sl.owned))).examined gid s1))) ∧
    (∀ (uni : Bool), let i := if uni then Instr.exitUniform h else Instr.exit h
      ∀ s gid s1 g sh s', Passes i s gid s1 g sh s' →
        let m := if uni then (if g.uniIssues h = true then (g.slot s1).owned else 0#96) else g.issuedLanes (g.slot s1) h
        (m = 0#96 → exec i s = .next (s.goesOn gid s1 sh g)) ∧
        (m ≠ 0#96 → g.trapMode = true → exec i s = .next (trapWord s gid s1 i sh 0x02#8 0#8 (trapLanes g (g.slot s1) sh) true)) ∧
        (m ≠ 0#96 → g.trapMode = false → g.region.isSome = true →
          exec i s = .next (trapWord s gid s1 i sh 0x18#8 0#8 (trapLanes g (g.slot s1) sh) true)) ∧
        (m ≠ 0#96 → g.trapMode = false → g.region = none → ∀ u y,
          (readBelow s gid (List.range (g.stack.length - 32)) = (u, false) → exec i s = .next u) ∧
          (readBelow s gid (List.range (g.stack.length - 32)) = (u, true) → u.group? gid = some y →
            exec i s = .next (exitLanes (u.goesOn gid s1 sh y) gid s1 m)))) ∧
    ∀ (s : State) (gid : Nat) (s1 : Bool) (m : Mask) (g g' : Group), s.group? gid = some g → g.stack.length ≤ 32 → g.owed = [] →
      (exitLanes s gid s1 m).group? gid = some g' → ∀ e ∈ g'.stack, e.expected &&& m = 0#96

/-! ### Tasks, budgets and regions (R128 to R132, R289 to R294, R310 to R312, R321) -/

/-- R128 to R130, R270, R273, R310, R311: tasks and budgets. spawn pushes its lanes' tasks at the tail of the deque of the group's
logical core, and each lane's spawn count rises by 1, in the state and at lane-private 0xFC_0000 (log entry 49), once there is room and the
lanes' earlier accesses have performed (log entry 30); a bad entry
or an index that does not exist traps, and nothing is pushed. tend ends tasks as exit ends lanes, and traps in a team group; in trap mode it
is illegal first (log entry 30). claim
waits in its quadrant's list, and its new slices read zero when it is granted; what the group's other blocked claim asks for counts towards
the limit (the model's choice, log entry 37). give returns the highest units, with a tag of
1,024 cycles for a role where it names one. -/
def Obligations.TasksAndBudgets : Prop :=
  ∀ (h : Head) (a r : Src) (f : BitVec 9) (ka kb : BitVec 8),
    let once := fun (s : State) (g : Group) (s1 : Bool) (m : Mask) (x : Src) =>
      (readSrc s g (g.slot s1) ((lowest? m).getD (g.slot s1).uniLane) x 32).toNat
    -- the units that the group's other blocked claims ask for
    let out := fun (s : State) (gid : Nat) (g : Group) =>
      (((s.quad g.die g.core g.quad).claims.filter fun c => c.gid = gid).map Claim.units).foldl (· + ·) 0
    (∀ (uni : Bool), let i := if uni then Instr.spawnUniform h ka kb else Instr.spawn h a f
      Skips i ∧ ∀ s gid s1 g sh s', Passes i s gid s1 g sh s' → g.lanesAt s1 sh ≠ 0#96 → g.region = none →
        let sl := g.slot s1
        let m := g.lanesAt s1 sh
        let entry := fun l : Lane => if uni then sl.header + (g.kreg sl ka.toNat).signExtend 80 else sl.header + (readSrc s' g sl l a 32).signExtend 80
        let arg := fun l : Lane => if uni then kWords g sl kb.toNat 8 else g.sliceRead l f.toNat 256
        let idx := fun l : Lane => childIndex g.lidx[l] g.spawns[l].toNat
        let fine := ∀ l : Lane, m.getLsbD l.val = true → (entry l).extractLsb' 0 3 = 0#3
        (¬ fine → ∃ t, exec i s = .next (trapWord s' gid s1 i sh 0x02#8 0#8 t true)) ∧
        (fine → (∃ l : Lane, m.getLsbD l.val = true ∧ idx l = none) →
          exec i s = .next (trapWord s' gid s1 i sh 0x17#8 0#8 (trapLanes g sl sh) true)) ∧
        (fine → (∀ l : Lane, m.getLsbD l.val = true → (idx l).isSome = true) →
          ¬ (s'.deque g.lcore).tasks.length + (lanesOf m).length ≤ 1049600 →
            exec i s = .next (s'.modSlot gid s1 fun x => { x with wait := .spawn })) ∧
        (fine → (∀ l : Lane, m.getLsbD l.val = true → (idx l).isSome = true) →
          (s'.deque g.lcore).tasks.length + (lanesOf m).length ≤ 1049600 → released s' gid g.die m 4 s'.seqNo = false →
            exec i s = .next (s'.modSlot gid s1 fun x => { x with wait := .other })) ∧
        (fine → (∀ l : Lane, m.getLsbD l.val = true → (idx l).isSome = true) →
          (s'.deque g.lcore).tasks.length + (lanesOf m).length ≤ 1049600 → released s' gid g.die m 4 s'.seqNo = true →
          ∀ u ks, deviceKeys s' gid s1 g .write (fun _ => 0xFC0000#80) 4 m = (u, ks, false) →
            let tasks := (lanesOf m).map fun l => ({ grid := g.grid, entry := entry l, arg := arg l, idx := (idx l).getD 0#128 } : Task)
            let v := ks.foldl (fun x p => lpPuts x (g.deviceWriter gid (oneLane p.1)) p.2 (toBytes (g.spawns[(Fin.ofNat 96 p.1 : Lane)] + 1#32) 4)) u
            exec i s = .next (((pushTasks v g.lcore tasks).modGrid g.grid fun gr =>
              { gr with tasks := gr.tasks + tasks.length, liveTasks := gr.liveTasks ++ tasks.map Task.idx }).goesOn gid s1 sh
                { g with spawns := setLanes g.spawns m fun l => g.spawns[l] + 1#32 }))) ∧
    (∀ (g : Group) (sl : Slot) (n i : Nat), i < 8 → (kWords g sl n 8).extractLsb' (32 * i) 32 = g.kreg sl (n + i)) ∧
    (∀ s gid s1 g sh s', Passes (.tend h) s gid s1 g sh s' →
      let i := Instr.tend h
      let m := if h.uni = true then (if g.uniIssues h = true then (g.slot s1).owned else 0#96) else g.issuedLanes (g.slot s1) h
      let trap := fun c => exec i s = .next (trapWord s gid s1 i sh c 0#8 (trapLanes g (g.slot s1) sh) true)
      (m = 0#96 → exec i s = .next (s.goesOn gid s1 sh g)) ∧
      (m ≠ 0#96 → g.trapMode = true → trap 0x02#8) ∧
      (m ≠ 0#96 → g.trapMode = false → g.team.isSome = true → trap 0x12#8) ∧
      (m ≠ 0#96 → g.trapMode = false → g.team = none → g.region.isSome = true → trap 0x18#8) ∧
      (m ≠ 0#96 → g.trapMode = false → g.team = none → g.region = none → exec i s = .next (exitLanes (s.goesOn gid s1 sh g) gid s1 m))) ∧
    (Skips (.claim h a) ∧ Skips (.give h a) ∧ Skips (.giveRole h a r)) ∧
    Completes (.claim h a) (fun s gid s1 g _ m => m ≠ 0#96 ∧ (once s g s1 m a < 1 ∨ 3 < g.h + out s gid g + once s g s1 m a))
      (fun s gid s1 g sh _ => trapWord s gid s1 (.claim h a) sh 0x0F#8 0#8 (trapLanes g (g.slot s1) sh) true) ∧
    Completes (.claim h a) (fun s gid s1 g _ m => m ≠ 0#96 ∧ 1 ≤ once s g s1 m a ∧ g.h + out s gid g + once s g s1 m a ≤ 3)
      (fun s gid s1 g _ m =>
        let n := once s g s1 m a
        let q := s.quad g.die g.core g.quad
        (s.setGroup gid ((g.ctrUp h.ctr).modSlot s1 fun x => { x with wait := .claim n, wctr := h.ctr })).setQuad g.die g.core g.quad
          { q with claims := q.claims ++ [{ gid := gid, s1 := s1, units := n, trap := g.trapMode }] }) ∧
    Completes (.give h a) (fun s _ s1 g _ m => m ≠ 0#96 ∧ (once s g s1 m a < 1 ∨ 3 < once s g s1 m a ∨ g.h < once s g s1 m a))
      (fun s gid s1 g sh _ => trapWord s gid s1 (.give h a) sh 0x0F#8 0#8 (trapLanes g (g.slot s1) sh) true) ∧
    Completes (.give h a)
      (fun s gid s1 g _ m => m ≠ 0#96 ∧ 1 ≤ once s g s1 m a ∧ once s g s1 m a ≤ 3 ∧ once s g s1 m a ≤ g.h ∧
        pendingAbove s gid (128 * (1 + g.h - once s g s1 m a)) = false)
      (fun s gid s1 g sh m => (s.goesOn gid s1 sh { g with h := g.h - once s g s1 m a }).setQuad g.die g.core g.quad (s.quad g.die g.core g.quad)) ∧
    Completes (.giveRole h a r) (fun _ _ _ g _ m => m ≠ 0#96 ∧ g.team = none)
      (fun s gid s1 g sh _ => trapWord s gid s1 (.giveRole h a r) sh 0x12#8 0#8 (trapLanes g (g.slot s1) sh) true) ∧
    (∀ tid, Completes (.giveRole h a r)
      (fun s gid s1 g _ m => m ≠ 0#96 ∧ g.team = some tid ∧ 1 ≤ once s g s1 m a ∧ once s g s1 m a ≤ 3 ∧ once s g s1 m a ≤ g.h ∧
        (∀ t, tget s.teams tid = some t → once s g s1 m r < t.roles) ∧
        pendingAbove s gid (128 * (1 + g.h - once s g s1 m a)) = false)
      (fun s gid s1 g sh m =>
        let q := s.quad g.die g.core g.quad
        (s.goesOn gid s1 sh { g with h := g.h - once s g s1 m a }).setQuad g.die g.core g.quad
          { q with tags := q.tags ++ [(tid, once s g s1 m r, once s g s1 m a, s.now.toNat + 1024)] })) ∧
    (∀ (s : State) (quad : Nat), exec (.claimGrant quad) s = .next (settleClaims s (quad / 256) (quad / 4 % 64) (quad % 4) 64)) ∧
    (∀ (s : State) (die core quad : Nat) (c : Claim) (g : Group), s.group? c.gid = some g → g.evicted = false →
      c.trap = g.trapMode → 512 * (1 + g.h) ≤ 2048 →
      ∃ t g', grantClaim s die core quad c = (t, true) ∧ t.group? c.gid = some g' ∧ g'.h = g.h + c.units ∧
        g'.slot c.s1 = (g.slot c.s1).advance false ∧ (g.trapMode = true → g'.shadowSl = Vector.replicate 96 0#128) ∧
        ∀ (l : Lane) p, p < 2048 → g'.slices[l].getLsbD p =
          if p < 512 * (1 + g.h) ∨ (g.trapMode = true ∧ 1920 ≤ p) then g.slices[l].getLsbD p else false) ∧
    ∀ (s : State) (quad : Nat) (q : Quad), tget s.quads quad = some q →
      exec (.tagExpiry quad) s = .next { s with quads := tset s.quads quad { q with tags := q.tags.filter fun t => decide (s.now.toNat < t.2.2.2) } }

/-- R289 to R292, R294, R312, R321: regions, the effect log and digests. region.begin keeps what a rewind brings back, and needs the
other slot empty; region.end closes the region. In an open region of a deterministic grid an effect that a rewind cannot undo goes, for
each lane whose log has room, to that log in the lane's private memory; where some lane performs at once, the region has escaped (the layout of an entry is the model's, log entry 64). A soft error in a row that the
region has written rewinds it once the group's accesses have completed, with the spawn counts that its lanes keep in memory; any other halts the
group, with the causes of log entries 32 and 42. -/
def Obligations.RegionsAndDigests : Prop :=
  ∀ (h : Head) (d : Dst) (a : Src) (n : BitVec 2),
    Skips (.regionBegin h) ∧ Skips (.regionEnd h) ∧
    Completes (.regionBegin h) (fun _ _ s1 g _ m => m ≠ 0#96 ∧ (g.slot (!s1)).owned ≠ 0#96)
      (fun s gid s1 g sh _ => trapWord s gid s1 (.regionBegin h) sh 0x18#8 0#8 (trapLanes g (g.slot s1) sh) true) ∧
    Completes (.regionBegin h) (fun _ _ s1 g _ m => m ≠ 0#96 ∧ (g.slot (!s1)).owned = 0#96)
      (fun s gid s1 g sh _ =>
        let sl := g.slot s1
        let r : Region :=
          { pc := sl.pc, header := sl.header, cls := sl.cls, left := sl.left, yld := sl.yld, owned := sl.owned, mask := sl.mask,
            height := g.stack.length, srctr := g.srctr, cdepth := g.cdepth, digest := g.digest, spawns := g.spawns, logs := g.effects.map List.length, rows := 0#8, escaped := false }
        s.goesOn gid s1 sh { g with region := some r }) ∧
    Completes (.regionEnd h) (fun _ _ _ _ _ m => m ≠ 0#96) (fun s gid s1 g sh _ => s.goesOn gid s1 sh { g with region := none }) ∧
    Gives (.digestRd h d n) (fun _ g _ _ l => if g.det = true then g.digest[l].extractLsb' (32 * n.toNat) 32 else 0#32) ∧
    Completes (.digestFold h a) (fun _ _ _ g _ _ => g.det = false) (fun s gid s1 g sh _ => s.goesOn gid s1 sh g) ∧
    Completes (.digestFold h a) (fun _ _ _ g _ _ => g.det = true) (fun s gid s1 g sh m =>
      s.goesOn gid s1 sh { g with digest := setLanes g.digest m fun l =>
        let v : BitVec 64 := (readSrc s g (g.slot s1) l a (wBits h.w)).setWidth 64
        [0#32, 0#32, BitVec.ofNat 32 (7 * 2 ^ 16 + h.w.toNat * 2 ^ 19), v.extractLsb' 0 32, v.extractLsb' 32 32].foldl digestFoldWord g.digest[l] }) ∧
    (∀ (g : Group) (m : Mask) (returns : Bool) (l : Lane), (loggedLanes g m returns).getLsbD l.val = true ↔
      g.region.isSome = true ∧ g.det = true ∧ returns = false ∧ m.getLsbD l.val = true ∧ g.effects[l].length < 2048) ∧
    (∀ (s u : State) (gid : Nat) (s1 : Bool) (g : Group) (m log : Mask) (e : Lane → Effect) (rg : Region) (ks : List (Nat × List Nat)),
      (g.region = none → regionEffect s gid s1 g m log e = (s, g, false)) ∧
      (g.region = some rg →
        deviceKeys s gid s1 g .write (fun l => BitVec.ofNat 80 (0xFD0000 + 32 * g.effects[l].length)) 32 log = (u, ks, false) →
        let v := ks.foldl (fun x p => lpPuts x (g.deviceWriter gid (oneLane p.1)) p.2 (e (Fin.ofNat 96 p.1)).bytes) u
        let g' := { g with effects := setLanes g.effects log fun l => g.effects[l] ++ [e l] }
        regionEffect s gid s1 g m log e = (v, if log = m then g' else { g' with region := some { rg with escaped := true } }, false))) ∧
    ∀ (s : State) (gid lane row : Nat) (g : Group), s.group? gid = some g → g.halted = false → lane < 96 → row < 8 → 64 * row < g.alloc →
      let halt := fun c => exec (.softErrorRewind gid lane row) s = .next (haltGroup s gid c g.s0.pc g.liveMask)
      (g.region = none → halt 0x31#8) ∧
      ∀ r, g.region = some r →
        (r.rows.getLsbD row = false ∨ g.trapMode = true → halt 0x31#8) ∧
        (r.rows.getLsbD row = true → g.trapMode = false → r.escaped = true → halt 0x19#8) ∧
        (r.rows.getLsbD row = true → g.trapMode = false → r.escaped = false → groupBusy s gid = false →
          ∃ g', exec (.softErrorRewind gid lane row) s = .next ((rewindSpawns s gid g r).putPaths gid g') ∧
            g'.s0.pc = r.pc ∧ g'.s0.left = r.left ∧ g'.s0.owned = r.owned ∧ g'.s0.mask = r.mask ∧ g'.s1.owned = 0#96 ∧
            g'.srctr = r.srctr ∧ g'.cdepth = r.cdepth ∧ g'.digest = r.digest ∧ g'.spawns = r.spawns ∧ g'.region = none ∧
            g'.stack = g.stack.drop (g.stack.length - r.height) ∧ g'.slices = g.slices ∧ g'.k = g.k ∧ g'.preds = g.preds ∧
            (∀ l : Lane, g'.effects[l] = g.effects[l].take r.logs[l]) ∧
            ((∀ l : Lane, g.spawns[l] = r.spawns[l]) → rewindSpawns s gid g r = s) ∧
            ∀ u x, xlateLanes s g .lp .write (constLanes 0xFC0000#80) 4 (lanesOf (maskOf fun l => decide (g.spawns[l] ≠ r.spawns[l]))) = (u, x) →
              rewindSpawns s gid g r =
                x.keys.foldl (fun v p => lpPuts v (g.deviceWriter gid (oneLane p.1)) p.2 (toBytes r.spawns[(Fin.ofNat 96 p.1 : Lane)] 4)) u)

/-! ### Engines (R110 to R115, R223 to R237, R295 to R308) -/

/-- R295 to R300: fork, rdv, and the life of a program. fork gives the handle of a new program with its registers and queues it on
its engine, and holds its slot where the queue is full; rdv holds its slot until the program that its handle names has ended, gives its
status word and acquires, takes its fault if it has one, and gives the status 2 for a handle that names none. A queued program starts
in its turn when its engine has room; it ends when it has sent and its operations are over, and its counter falls. A program or copy whose
translation failed stops, and one record is appended that names the forking group's place. A fault waits for the slot that forked the program,
and traps there with cause 0x30; where the group has retired it goes to a record. The engine's own checks and their details are read as log
entries 9, 15 and 35 say. -/
def Obligations.EngineWords : Prop :=
  ∀ (h : Head) (kd : BitVec 8) (a : Triple) (b : BitVec 8) (n : BitVec 3) (d : Dst) (x : Src),
    (∀ eng : Fin 3, let i := match eng with | 0 => Instr.forkMx h kd a b n | 1 => Instr.forkCp h kd a b n | 2 => Instr.forkCl h kd a b n
      Skips i ∧ ∀ s gid s1 g sh s', Passes i s gid s1 g sh s' → g.lanesAt s1 sh ≠ 0#96 →
        let sl := g.slot s1
        let seq := if eng = 2 then (s'.die g.die).cleSeq else (s'.core g.die g.core).seqs[(if eng = 1 then 4 else Fin.ofNat 5 (g.quad % 4) : Fin 5)]
        let p : Prog :=
          { eng := eng.val, die := g.die, core := g.core, quad := g.quad, gid := gid, s1 := s1,
            team := g.team, grid := g.grid, tenant := g.tenant,
            handle := BitVec.ofNat 2 eng.val ++ (if eng = 0 then BitVec.ofNat 2 g.quad else 0#2) ++ BitVec.ofNat 6 g.core ++ 0#6 ++ seq,
            pc := readTriple g sl a, header := readTriple g sl a, left := 0,
            s := Vector.ofFn fun j : Fin 16 => if j.val < n.toNat then readTriple g sl (b + BitVec.ofNat 8 (3 * j.val)) else 0#80,
            running := false, sent := false, ended := false, status := 0#32, ctr := h.ctr, stopped := none, stopVa := 0#80,
            trap := g.trapMode, after := pendingOf s' gid sl.owned, place := placeByte g false s1 }
        let cap := match eng with | 0 => 4 | 1 => 8 | 2 => 64
        (cap ≤ (engineQueued s' p).length → exec i s = .next (s'.modSlot gid s1 fun y => { y with wait := .other })) ∧
        ((engineQueued s' p).length < cap → ∃ t, exec i s = .next t ∧
          t.progs = tset s'.progs s'.seqNo p ∧
          ∃ u, t = { u with progs := t.progs, cores := t.cores, dies := t.dies, seqNo := s'.seqNo + 1 } ∧
            RegResult s' u gid s1 (g.ctrUp h.ctr) sh (g.lanesAt s1 sh) fun _ => p.handle)) ∧
    Skips (.rdv h d x) ∧
    (∀ s gid s1 g sh s', Passes (.rdv h d x) s gid s1 g sh s' → g.lanesAt s1 sh ≠ 0#96 →
      let sl := g.slot s1
      let hd := sl.capt.getD (readSrc s' g sl ((lowest? (g.lanesAt s1 sh)).getD sl.uniLane) x 32)
      let mine := fun f : EngineFault => f.gid = gid ∧ f.s1 = s1 ∧ f.handle = hd ∧ f.trap = g.trapMode
      let gives := fun v : Word32 => ∃ t, exec (.rdv h d x) s = .next (l1Invalidate t g.die g.core) ∧
        RegResult s' t gid s1 g sh (g.lanesAt s1 sh) fun _ => v
      ((∀ f ∈ s'.efaults, ¬ mine f) →
        (findProg s' gid g hd = none → gives 2#32) ∧
        (∀ p, findProg s' gid g hd = some p →
          (p.ended = true → gives p.status) ∧
          (p.ended = false → exec (.rdv h d x) s = .next (s'.modSlot gid s1 fun y => { y with wait := .other, capt := some hd })))) ∧
      ((∃ f ∈ s'.efaults, mine f) → ∃ f word, f ∈ s'.efaults ∧ mine f ∧
        exec (.rdv h d x) s = .next (deliverFault s' gid s1 f (tdstOf sh) word sh.res))) ∧
    (∀ (s : State) (pid : Nat) (p : Prog), s.prog? pid = some p →
      (p.running = false → p.ended = false → (engineQueued s p).head? = some pid →
        engineRunning s p < (if p.eng = 0 then 1 else if p.eng = 1 then 8 else 16) → stillPending s p.after = false →
        exec (.engineProgramStart pid) s = .next (s.setProg pid { p with running := true })) ∧
      (p.running = true ∨ p.ended = true ∨ stillPending s p.after = true → exec (.engineProgramStart pid) s = .next s) ∧
      (p.running = true → p.ended = false → p.sent = true → opsDone s pid p = true →
        exec (.engineProgramEnd pid) s =
          .next (settleFences ((s.setProg pid { p with ended := true, running := false }).settleCtr p.gid p.ctr))) ∧
      (p.running = false ∨ p.ended = true ∨ p.sent = false ∨ opsDone s pid p = false → exec (.engineProgramEnd pid) s = .next s) ∧
      (∀ va c, ∃ seq u, stopProg s pid va c = u.setProg pid { p with stopped := some (p.die, seq), stopVa := va } ∧
        (u, seq) = appendRecord s p.die { addr := va, cause := c.code, kind := 5#8, tenant := p.tenant, core := p.core, place := p.place,
                                          mask := 0#96, seq := 0#32 })) ∧
    (∀ (s : State) (gid : Nat) (s1 : Bool) (f : EngineFault), s.group? gid = none → (∀ x ∈ s.saved, ∀ g ∈ x.groups, g.1 ≠ gid) →
      (s.efaults.find? fun f => f.gid = gid && f.s1 = s1) = some f →
      exec (.engineFaultDelivery gid s1) s = .next (appendRecord { s with efaults := s.efaults.filter fun x => x ≠ f } f.die
        { addr := 0#80, cause := 0x30#8, kind := 6#8, tenant := f.tenant, core := f.core, place := f.place, mask := 0#96, seq := 0#32 }).1) ∧
    (∀ (s : State) (gid : Nat) (s1 : Bool) (f : EngineFault) (g : Group), dueFault s gid s1 = some f → s.group? gid = some g →
      ∃ dst word res, exec (.engineFaultDelivery gid s1) s = .next (deliverFault s gid s1 f dst word res)) ∧
    (∀ (s : State) (gid : Nat) (s1 : Bool), s.efaults = [] → exec (.engineFaultDelivery gid s1) s = .next s) ∧
    ∀ (s : State) (gid : Nat) (s1 : Bool) (f : EngineFault) (g : Group) (dst : Word32) (word : Word64) (res : Bool),
      s.group? gid = some g → g.trapMode = false → g.utrap ≠ 0#80 →
      ∃ g', (deliverFault s gid s1 f dst word res).group? gid = some g' ∧ g'.trapMode = true ∧ g'.efa = f.addr ∧ g'.efh = f.handle ∧
        g'.treg.cause = 0#16 ++ f.detail ++ 0x30#8 ∧ g'.treg.mask = (g.slot s1).mask ∧ g'.treg.pc = (g.slot s1).pc ∧
        (deliverFault s gid s1 f dst word res).efaults.length + (if f ∈ s.efaults then 1 else 0) = s.efaults.length

/-- R301, R302, R307: the scalar words of a sequencer program, and the waits and signals between programs and groups. A branch that
lands on a word that is no header, or else one that does not end its clause, faults the program; so does a signal or a wait outside its space
or not at a multiple of 4. A wait also lasts while the program's collective has not completed. The details of these faults are read as log
entries 15 and 35 say. -/
def Obligations.SequencerWords : Prop :=
  ∀ (d a b : SReg) (imm : BitVec 32) (cond : BitVec 3) (sp : BitVec 4) (w ssp : BitVec 3) (pol : BitVec 2),
    let any : State → Nat → Prog → Prop := fun _ _ _ => True
    let r := fun (p : Prog) (x : SReg) => p.s[(Fin.ofNat 16 x.toNat)]
    let sets := fun (i : Instr) (v : Prog → Addr) =>
      ProgDoes i any fun s pid p => s.progOn pid { p with s := p.s.set (Fin.ofNat 16 d.toNat) (v p) }
    let holds := fun p : Prog => match cond.toNat with
      | 0 => r p a = r p b | 1 => r p a ≠ r p b | 2 => (r p a).toInt < (r p b).toInt | 3 => (r p a).toInt ≥ (r p b).toInt
      | 4 => (r p a).toNat < (r p b).toNat | 5 => (r p a).toNat ≥ (r p b).toNat | _ => True
    let dest := fun p : Prog => p.header + 8#80 * imm.signExtend 80
    let lands := fun (s : State) (p : Prog) => match progPeek s p (dest p) with | some x => isHeader x = true | none => True
    ProgDoes .snop any (fun s pid p => s.progOn pid p) ∧
    sets (.smov d a) (fun p => r p a) ∧ sets (.smovi d imm) (fun _ => imm.signExtend 80) ∧
    sets (.sadd d a b) (fun p => r p a + r p b) ∧ sets (.saddi d a imm) (fun p => r p a + imm.signExtend 80) ∧
    sets (.ssub d a b) (fun p => r p a - r p b) ∧ sets (.smul d a b) (fun p => r p a * r p b) ∧
    sets (.sshl d a b) (fun p => BitVec.ofNat 80 ((r p a).toNat * 2 ^ ((r p b).toNat % 128))) ∧
    sets (.sshr d a b) (fun p => BitVec.ofNat 80 ((r p a).toNat / 2 ^ ((r p b).toNat % 128))) ∧
    sets (.sand d a b) (fun p => r p a &&& r p b) ∧ sets (.sor d a b) (fun p => r p a ||| r p b) ∧
    (∀ s pid p, s.cur = .prog pid → s.prog? pid = some p →
      (holds p → exec (.scmp d a b cond) s = .next (s.progOn pid { p with s := p.s.set (Fin.ofNat 16 d.toNat) 1#80 })) ∧
      (¬ holds p → exec (.scmp d a b cond) s = .next (s.progOn pid { p with s := p.s.set (Fin.ofNat 16 d.toNat) 0#80 })) ∧
      (p.left ≠ 1 → ¬ holds p ∨ lands s p → exec (.sbra a b cond imm) s = .next (progFault s pid 0x02#8 0#80)) ∧
      (p.left = 1 → holds p → lands s p → exec (.sbra a b cond imm) s = .next (s.setProg pid { p with pc := dest p, left := 0 })) ∧
      (holds p → ¬ lands s p → exec (.sbra a b cond imm) s = .next (progFault s pid 0x01#8 0#80)) ∧
      (p.left = 1 → ¬ holds p → exec (.sbra a b cond imm) s = .next (s.progOn pid p)) ∧
      (p.left = 1 → r p d - 1#80 = 0#80 → exec (.sloop d imm) s = .next (s.progOn pid { p with s := p.s.set (Fin.ofNat 16 d.toNat) 0#80 })) ∧
      (p.left = 1 → r p d - 1#80 ≠ 0#80 → lands s p → exec (.sloop d imm) s =
        .next (s.setProg pid { p with s := p.s.set (Fin.ofNat 16 d.toNat) (r p d - 1#80), pc := dest p, left := 0 })) ∧
      (r p d - 1#80 ≠ 0#80 → ¬ lands s p → exec (.sloop d imm) s = .next (progFault s pid 0x01#8 0#80)) ∧
      (p.left ≠ 1 → r p d - 1#80 = 0#80 ∨ lands s p → exec (.sloop d imm) s = .next (progFault s pid 0x02#8 0#80)) ∧
      (p.left = 1 → exec .send s = .next (s.progOn pid { p with sent := true })) ∧
      (p.left ≠ 1 → exec .send s = .next (progFault s pid 0x02#8 0#80))) ∧
    (∀ s pid p u ks, s.cur = .prog pid → s.prog? pid = some p → (r p a).toNat % 4 = 0 →
      engineKeys s p.team p.die p.core p.grid p.tenant false (Space.ofCode (sp.setWidth 3)) .write (r p a) 4 = (u, .ok ks) →
      (opsDone s pid p = true → lockHit s p.die p.core p.tenant false (Space.ofCode (sp.setWidth 3)) (r p a) 4 = false →
        exec (.ssig sp a imm) s = .next ((engineStore u (engineWriter pid pid p.gid p.die p.core p.tenant 0#2) (r p a) ks (toBytes imm 4)).progOn pid p)) ∧
      (opsDone s pid p = false → exec (.ssig sp a imm) s = .next s)) ∧
    (∀ s pid p u ks, s.cur = .prog pid → s.prog? pid = some p → (r p a).toNat % 4 = 0 →
      engineKeys s p.team p.die p.core p.grid p.tenant false (Space.ofCode ssp) .read (r p a) 4 = (u, .ok ks) →
      let v := BitVec.ofNat 32 (natOfBytes (ks.map fun k => if engineHeld u pid k = true then homeByte u k else homeByteFrom u p.die k))
      let busy := ∃ y ∈ s.copies, y.pid = some pid ∧ ∃ o sc tag parts kind root, y.kind = .coll o sc tag parts kind root
      ((r p b).toNat % 2 ^ 32 ≤ v.toNat → ¬ busy → exec (.cwait w a b ssp pol) s = .next (u.progOn pid p)) ∧
      (v.toNat < (r p b).toNat % 2 ^ 32 ∨ busy → exec (.cwait w a b ssp pol) s = .next s)) ∧
    (∀ s pid p, s.cur = .prog pid → s.prog? pid = some p → (r p a).toNat % 4 = 0 →
      (inSpace s (p.team.bind (tget s.teams)) p.die p.grid (Space.ofCode (sp.setWidth 3)) (r p a) 4 = false →
        exec (.ssig sp a imm) s = .next (progFault s pid 0x07#8 (r p a))) ∧
      (inSpace s (p.team.bind (tget s.teams)) p.die p.grid (Space.ofCode ssp) (r p a) 4 = false →
        exec (.cwait w a b ssp pol) s = .next (progFault s pid 0x07#8 (r p a)))) ∧
    ∀ s pid p, s.cur = .prog pid → s.prog? pid = some p → (r p a).toNat % 4 ≠ 0 →
      exec (.ssig sp a imm) s = .next (progFault s pid 0x08#8 (r p a)) ∧ exec (.cwait w a b ssp pol) s = .next (progFault s pid 0x08#8 (r p a))

/-- R188, R223 to R237: feeding a staging tile and running the matrix unit. All lanes of a feed must give one legal format word, the
tile's own where it has one; the feed waits, with its counter up, until the slot's earlier accesses have performed and its rows are clear,
and then writes them together, and ORs its flags into sr.fpflags. mma, mzero and mbscale wait for
the unit; an operation starts when the unit is free, no word waits to read its tile, no write-lock covers its operands in the team's
scratchpad, and, for an mma, its staging tile is full; an operand outside the team's scratchpad or not aligned faults the program. It then
makes eight rows final at a time, and the tile's watermark follows. An element of an mma is the old one and its products, each under its
scales, summed exactly and rounded once (an integer one modulo 2^32); one of an mbscale is one product rounded. The wait for words that read the
tile is the model's reading (log entry 35). -/
def Obligations.MatrixWords : Prop :=
  ∀ (h : Head) (tile : BitVec 2) (row : BitVec 6) (a b : Src) (a9 : BitVec 9) (d : Dst) (acc : BitVec 3) (fmt : BitVec 4) (reuse : Bool)
    (rb rc : SReg) (k : BitVec 6),
    let stage := fun (s : State) (g : Group) => (s.quad g.die g.core g.quad).mx.staging[(Fin.ofNat 4 tile.toNat)]
    let fw := fun (s : State) (g : Group) (s1 : Bool) (l : Lane) => readSrc s g (g.slot s1) l b 32
    let lands := fun (s : State) (gid : Nat) (s1 : Bool) (sh : Shape) (g after : Group) (w : Word32) (f : Feed) =>
      (s.goesOn gid s1 sh (after.raise f.flags)).setQuad g.die g.core g.quad
        { s.quad g.die g.core g.quad with mx := (s.quad g.die g.core g.quad).mx.setAt tile ((stage s g).feed w f) }
    -- a format word that all lanes of m give, that is legal and fits the word, and that is the tile's own where it has one
    let agreed := fun (s : State) (g : Group) (s1 : Bool) (m : Mask) (fits : Word32 → Bool) (w : Word32) =>
      (∀ l : Lane, m.getLsbD l.val = true → fw s g s1 l = w) ∧ fwLegal w = true ∧ fits w = true ∧ ∀ x, (stage s g).word = some x → x = w
    -- the feed `x` with the word `w` has passed its checks: it waits, or its writes land together
    let ends := fun (i : Instr) (s s' : State) (gid : Nat) (s1 : Bool) (sh : Shape) (g wait land : Group) (w : Word32) (x : Feed) =>
      let held := stillPending s' (pendingOf s' gid (g.slot s1).owned) = true ∨ canFeed (stage s' g) x = false
      (held → exec i s = .next (s'.setGroup gid (wait.modSlot s1 fun y => { y with wait := .feed, feed := some (tile, w, x) }))) ∧
      (¬ held → exec i s = .next (lands s' gid s1 sh g land w x))
    let feeds := fun (i : Instr) (fits : Word32 → Bool) (f : State → Group → Slot → Mask → Word32 → Feed) =>
      ∀ s gid s1 g sh s', Passes i s gid s1 g sh s' →
        let m := g.lanesAt s1 sh
        let trap := fun c => ∃ t, exec i s = .next (trapWord s' gid s1 i sh c 0#8 t true)
        (∀ w x, (g.slot s1).feed = some (tile, w, x) → ends i s s' gid s1 sh g g (g.ctrDown sh.head.ctr) w x) ∧
        ((g.slot s1).feed = none →
          (m = 0#96 → exec i s = .next (s'.goesOn gid s1 sh g)) ∧
          ((∃ l l' : Lane, m.getLsbD l.val = true ∧ m.getLsbD l'.val = true ∧ fw s' g s1 l ≠ fw s' g s1 l') → trap 0x06#8) ∧
          (m ≠ 0#96 → ∀ w, (∀ l : Lane, m.getLsbD l.val = true → fw s' g s1 l = w) →
            (fwLegal w = false ∨ fits w = false → trap 0x05#8) ∧
            (fwLegal w = true → fits w = true → (∃ x, (stage s' g).word = some x ∧ x ≠ w) → trap 0x06#8)) ∧
          (m ≠ 0#96 → ∀ w, agreed s' g s1 m fits w → ends i s s' gid s1 sh g (g.ctrUp sh.head.ctr) g w (f s' g (g.slot s1) m w)))
    let rows := fun m : Mask => feedRows m row.toNat
    feeds (.mfeedDat h tile row a b) (fun _ => true) (fun s g sl m _ =>
      { data := (rows m).map fun r => (r.1, beatRow 1024 32 32 m r.2 fun l => readSrc s g sl l a 32), scales := [], band := none, flags := 0#6 }) ∧
    feeds (.mfeedScl h tile row a b) (fun w => decide (fwBlock w ≠ 0)) (fun s g sl m w =>
      { data := [], scales := (rows m).map fun r => (r.1, beatRow 256 8 (blocksPerRow w) m r.2 fun l => (readSrc s g sl l a 32).extractLsb' 0 8),
        band := none, flags := 0#6 }) ∧
    feeds (.mfeedBand h tile a b) fwBand (fun s g sl m _ =>
      { data := [], scales := [], band := (lowest? m).map fun l => (readSrc s g sl l a 32).extractLsb' 0 16, flags := 0#6 }) ∧
    (∀ s gid s1 g sh s', Passes (.mfeedQ h tile row a9 b) s gid s1 g sh s' → (g.slot s1).feed = none → g.lanesAt s1 sh = 0#96 →
      exec (.mfeedQ h tile row a9 b) s = .next (s'.goesOn gid s1 sh g)) ∧
    (∀ s gid s1 g sh s', Passes (.mfeedQ h tile row a9 b) s gid s1 g sh s' → (g.slot s1).feed = none → g.lanesAt s1 sh ≠ 0#96 →
      let m := g.lanesAt s1 sh
      ∀ w, agreed s' g s1 m (fun w => decide (fwElem w = 0)) w →
        let xs := fun l : Lane => (List.range 8).map (blockElem g l a9 .f32)
        let sc := fun l : Lane => foundScale s' l .e2m1 (xs l)
        let q := fun l : Lane => packElems 4 ((xs l).zipIdx.map fun x => quantOne .e2m1 (fwRound w) (sc l) x.1 (srOracle g l x.2))
        let f : Feed :=
          { data := (rows m).map fun r => (r.1, beatRow 1024 32 32 m r.2 fun l => BitVec.ofNat 32 (q l).1),
            scales := (rows m).map fun r => (r.1, beatRow 256 8 32 m r.2 fun l => BitVec.ofNat 8 (sc l)), band := none, flags := orFlags m fun l => (q l).2 }
        let g1 := g.advanceSr m (if fwRound w = .sr then 8 else 0)
        (∀ l : Lane, m.getLsbD l.val = true → (q l).2 &&& trapEnables g = 0#6) →
        (∀ l : Lane, m.getLsbD l.val = true → (xs l).all FVal.isNaN = false) →
        ends (.mfeedQ h tile row a9 b) s s' gid s1 sh g (g1.ctrUp sh.head.ctr) g1 w f) ∧
    Gives (.mwm h d acc) (fun s g _ _ _ =>
      (((s.quad g.die g.core g.quad).mx.acc[(Fin.ofNat 8 acc.toNat)]).issued ++ 0#9 ++
        BitVec.ofNat 7 ((s.quad g.die g.core g.quad).mx.acc[(Fin.ofNat 8 acc.toNat)]).watermark : BitVec 32)) ∧
    (let ops := [Instr.mma fmt tile reuse acc rb rc k, .mzero acc, .mbscale acc rb]
     ∀ i ∈ ops,
      ProgDoes i (fun s _ p => (s.quad p.die p.core p.quad).mx.next = none) (fun s pid p =>
        let q := s.quad p.die p.core p.quad
        s.setQuad p.die p.core p.quad { q with mx := { q.mx with next := some { pid := pid, instr := i } } }) ∧
      ProgDoes i (fun s _ p => (s.quad p.die p.core p.quad).mx.next ≠ none) (fun s _ _ => s)) ∧
    ProgDoes (.mwaitAt tile) (fun s _ p => ((s.quad p.die p.core p.quad).mx.staging[(Fin.ofNat 4 tile.toNat)]).full = true) (fun s pid p => s.progOn pid p) ∧
    ProgDoes (.mwaitAt tile) (fun s _ p => ((s.quad p.die p.core p.quad).mx.staging[(Fin.ofNat 4 tile.toNat)]).full = false) (fun s _ _ => s) ∧
    ProgDoes (.mwaitAcc acc) (fun s _ p => ∀ o, (s.quad p.die p.core p.quad).mx.op = some o → o.tile ≠ acc.toNat) (fun s pid p => s.progOn pid p) ∧
    ProgDoes (.mwaitAcc acc) (fun s _ p => ∃ o, (s.quad p.die p.core p.quad).mx.op = some o ∧ o.tile = acc.toNat) (fun s _ _ => s) ∧
    ProgDoes (.mrel tile) (fun _ _ _ => True) (fun s pid p =>
      let q := s.quad p.die p.core p.quad
      let x := q.mx.staging[(Fin.ofNat 4 tile.toNat)]
      (s.setQuad p.die p.core p.quad { q with mx :=
        { q.mx with staging := q.mx.staging.set (Fin.ofNat 4 tile.toNat) { x with dataFill := 0#64, scaleFill := 0#64, bandFed := false, word := none },
                    latch := q.mx.latch.filter fun y => y.1 ≠ tile.toNat } }).progOn pid p) ∧
    (∀ (s : State) (quad pid : Nat) (q : Quad) (p : Prog) (i : Instr), tget s.quads quad = some q → q.mx.next = some { pid := pid, instr := i } →
      q.mx.op = none → s.prog? pid = some p → i = .mzero acc ∨ i = .mbscale acc rb ∨ i = .mma fmt tile reuse acc rb rc k →
      (rowWaits s quad acc.toNat = true → exec (.matrixOpStart quad) s = .next s) ∧
      (rowWaits s quad acc.toNat = false →
      let free := fun (a : Addr) (n : Nat) => lockHit s p.die p.core p.tenant false .sc a n = false
      let ea := fun r : SReg => p.s[(Fin.ofNat 16 r.toNat)]
      let team := q.mx.holder.getD 0
      let starts := fun (kind : MxKind) (latch : Option (Nat × BitVec 4)) =>
        let t := q.mx.acc[(Fin.ofNat 8 acc.toNat)]
        State.progOn { s with quads := tset s.quads quad { q with mx :=
          { q.mx with acc := q.mx.acc.set (Fin.ofNat 8 acc.toNat) { t with watermark := 0, issued := t.issued + 1#16 },
                      op := some { kind := kind, tile := acc.toNat, group := 0, team := team }, next := none, latch := latch } } } pid p
      (i = .mzero acc → exec (.matrixOpStart quad) s = .next (starts .zero q.mx.latch)) ∧
      (i = .mbscale acc rb →
        (∀ c, scOperand s p (ea rb) 256 4 = some c → exec (.matrixOpStart quad) s = .next (progFault s pid c (ea rb))) ∧
        (scOperand s p (ea rb) 256 4 = none → ¬ free (ea rb) 256 → exec (.matrixOpStart quad) s = .next s) ∧
        (scOperand s p (ea rb) 256 4 = none → free (ea rb) 256 → exec (.matrixOpStart quad) s = .next (starts (.bscale ((List.range 64).map fun n =>
          BitVec.ofNat 32 (natOfBytes (((scBytes s (quad / 256) (quad / 4 % 64) team p.grid (ea rb) 256).drop (4 * n)).take 4)))) q.mx.latch))) ∧
      (i = .mma fmt tile reuse acc rb rc k →
        let x := q.mx.staging[(Fin.ofNat 4 tile.toNat)]
        (x.full = false → exec (.matrixOpStart quad) s = .next s) ∧
        ∀ w, x.full = true → x.word = some w →
          (fmt.toNat ≠ fwElem w → exec (.matrixOpStart quad) s = .next (progFault s pid 0x40#8 0#80)) ∧
          (∀ c, fmt.toNat = fwElem w → scOperand s p (ea rb) (96 * colPitch w) 8 = some c →
            exec (.matrixOpStart quad) s = .next (progFault s pid c (ea rb))) ∧
          (∀ c, fmt.toNat = fwElem w → scOperand s p (ea rb) (96 * colPitch w) 8 = none → fwBand w = true → scOperand s p (ea rc) 2 2 = some c →
            exec (.matrixOpStart quad) s = .next (progFault s pid c (ea rc))) ∧
          (fmt.toNat = fwElem w → scOperand s p (ea rb) (96 * colPitch w) 8 = none → (fwBand w = true → scOperand s p (ea rc) 2 2 = none) →
            ¬ free (ea rb) (96 * colPitch w) ∨ (fwBand w = true ∧ ¬ free (ea rc) 2) → exec (.matrixOpStart quad) s = .next s) ∧
          (fmt.toNat = fwElem w → scOperand s p (ea rb) (96 * colPitch w) 8 = none →
            (fwBand w = true → scOperand s p (ea rc) 2 2 = none ∧ free (ea rc) 2) → free (ea rb) (96 * colPitch w) →
            exec (.matrixOpStart quad) s = .next (starts (.mma fmt w (ea rb) (ea rc) (if k = 0#6 then kStep (fwElem w) else 8 * k.toNat)
              x.rows x.scales x.band) (if reuse then some (tile.toNat, fmt) else none)))))) ∧
    (∀ (s : State) (p : Prog) (ea : Addr) (n align : Nat),
      let there := inSpace s (p.team.bind (tget s.teams)) p.die p.grid .sc ea n
      (there = false → scOperand s p ea n align = some 0x07#8) ∧
      (there = true → ea.toNat % align ≠ 0 → scOperand s p ea n align = some 0x08#8) ∧
      (there = true → ea.toNat % align = 0 → scOperand s p ea n align = none)) ∧
    -- an element under its scales (R180)
    (∀ e code n q sc (b : BitVec 16), decodeF (elFormat e) code = .fin n q →
      scaledV e code none none = .fin n q ∧ scaledV e code (some sc) none = .fin n (q * Format.e3m5.magOf sc) ∧
      (∀ m p, decodeF .bf16 b.toNat = .fin m p → scaledV e code none (some b) = .fin (n != m) (q * p) ∧
        scaledV e code (some sc) (some b) = .fin (n != m) (q * Format.e3m5.magOf sc * p)) ∧
      ((∀ m p, decodeF .bf16 b.toNat ≠ .fin m p) → (scaledV e code none (some b)).isNaN = true ∧ (scaledV e code (some sc) (some b)).isNaN = true)) ∧
    ∀ (s : State) (quad : Nat) (q : Quad) (o : MxOp), tget s.quads quad = some q → q.mx.op = some o → o.tile < 8 →
      let t := q.mx.acc[(Fin.ofNat 8 o.tile)]
      let grid := match tget s.teams o.team with | some x => x.grid | none => 0
      ∃ t' q', exec (.rowGroupDone quad) s = .next { s with quads := tset s.quads quad q' } ∧
        q' = { q with mx := { q.mx with acc := q.mx.acc.set (Fin.ofNat 8 o.tile) t',
                                        op := if o.group < 7 then some { o with group := o.group + 1 } else none } } ∧
        t'.watermark = t.watermark + 8 ∧ t'.issued = t.issued ∧
        (∀ r, 8 * o.group ≤ r ∧ r < 8 * o.group + 8 → tget t'.rows r = some (opRow s quad o grid r ((tget t.rows r).getD 0#3072))) ∧
        (∀ r, ¬(8 * o.group ≤ r ∧ r < 8 * o.group + 8) → tget t'.rows r = tget t.rows r) ∧
        (o.kind = .zero → ∀ r old, opRow s quad o grid r old = 0#3072) ∧
        (∀ f, o.kind = .bscale f → ∀ r old j, j < 96 →
          let x := decodeF .f32 (old.extractLsb' (32 * j) 32).toNat
          let y := decodeF .f32 (f.getD r 0#32).toNat
          let z := (opRow s quad o grid r old).extractLsb' (32 * j) 32
          (∀ m p n q, x = .fin m p → y = .fin n q → z = BitVec.ofNat 32 (rneTo .f32 (.real (m != n) (p * q) false))) ∧
          (x.isNaN = true ∨ y.isNaN = true ∨ (x.isInf = true ∧ y.isZero = true) ∨ (x.isZero = true ∧ y.isInf = true) → z = 0x7FC00000#32)) ∧
        (∀ f w xb xc n rows scales band, o.kind = .mma f w xb xc n rows scales band → fwElem w ≠ 1 → fwElem w ≠ 4 → ∀ r old j, j < 96 →
          let col := scBytes s (quad / 256) (quad / 4 % 64) o.team grid (xb + BitVec.ofNat 80 (j * colPitch w)) (colPitch w)
          let bandB : BitVec 16 := BitVec.ofNat 16 (natOfBytes (scBytes s (quad / 256) (quad / 4 % 64) o.team grid xc 2))
          let x := decodeF .f32 (old.extractLsb' (32 * j) 32).toNat
          let a := fun e => scaledV (fwElem w) (rowElem w ((tget rows r).getD 0#1024) e) (rowScale w ((tget scales r).getD 0#256) e)
            (if fwBand w then some band else none)
          let b := fun e => scaledV (fwElem w) (colElem w col e) (colScale w col e) (if fwBand w then some bandB else none)
          let z := (opRow s quad o grid r old).extractLsb' (32 * j) 32
          let finite := fun v : FVal => ∃ m p, v = .fin m p
          (finite x → (∀ e, e < n → finite (a e) ∧ finite (b e)) →
            let minus := x = .fin true 0 ∧ ∀ e, e < n → ((a e).isZero = true ∨ (b e).isZero = true) ∧ (a e).neg? ≠ (b e).neg?
            ∀ neg : Bool, (neg = true ↔ minus) →
              z = BitVec.ofNat 32 (rneTo .f32 (exactOf (x.real + ((List.range n).map fun e => (a e).real * (b e).real).sum) neg))) ∧
          (x.isNaN = true ∨ (∃ e, e < n ∧ ((a e).isNaN = true ∨ (b e).isNaN = true ∨
              ((a e).isInf = true ∧ (b e).isZero = true) ∨ ((a e).isZero = true ∧ (b e).isInf = true))) → z = 0x7FC00000#32)) ∧
        ∀ f w xb xc n rows scales band, o.kind = .mma f w xb xc n rows scales band → fwElem w = 1 ∨ fwElem w = 4 →
          ∀ r old j, j < 96 → (opRow s quad o grid r old).extractLsb' (32 * j) 32 = old.extractLsb' (32 * j) 32 +
            BitVec.ofInt 32 (((List.range n).map fun e =>
              intCode (elBits (fwElem w)) (rowElem w ((tget rows r).getD 0#1024) e) *
              intCode (elBits (fwElem w)) (colElem w (scBytes s (quad / 256) (quad / 4 % 64) o.team grid (xb + BitVec.ofNat 80 (j * colPitch w)) (colPitch w)) e)).sum)

/-- R69, R76, R77, R110 to R114, R303 to R308: copies. cpy and the copy-class words check their elements' spaces, register their range
locks, and hold the slot or the program where a lock conflicts or there is no room, or a collective of the program has not completed; the copy
then runs beside them. Its locks cover every element. A copy reads every source byte, from where an engine reads, and
then writes its destination's elements at their home, in order, stopping at one that does not translate (all in one step: log entry 33); once
they have performed for its die its locks go and its counter falls; cpy.cont resumes
its slot at the continuation. A gather or scatter first reads its list of 32-bit indices, and trades its lock for those of its elements. A drain
reads each row once the tile's watermark exceeds it. A collective is the operations of one tenant with one scope and tag: it fails at all of them
where they differ or are too many, and moves once as many have come as they name and each program's earlier work is done; then each writes the
reduction of all sources, or the root's data. -/
def Obligations.CopyWords : Prop :=
  ∀ (h : Head) (dk ak : Triple) (len : Src) (ssp dsp w tile op scope : BitVec 3) (pol : BitVec 2) (n8 : BitVec 8) (d a n x : SReg),
    let mk := fun (s : State) (gid : Nat) (s1 : Bool) (g : Group) (count : Nat) (cont : Bool) =>
      ({ id := s.seqNo, pid := none, gid := gid, s1 := s1, die := g.die, core := g.core, tenant := g.tenant, team := g.team,
         grid := g.grid, sup := g.sup, kind := .block 1 0 0, w := h.w, count := count, pol := pol, rows := [], data := none, wrote := 0, moved := false, dst := readTriple g (g.slot s1) dk,
         dspace := Space.ofCode dsp, src := readTriple g (g.slot s1) ak, sspace := Space.ofCode ssp, idx := 0#80, idxs := some [],
         ctr := h.ctr, cont := cont, stopped := none, stopVa := 0#80, trap := g.trapMode,
         after := pendingOf s gid (g.slot s1).owned, place := placeByte g false s1 } : CopyOp)
    let begun := fun (u : State) (c : CopyOp) => { u with seqNo := u.seqNo + 1, copies := u.copies ++ [c] }
    Skips (.cpy h dk ak len ssp pol dsp) ∧
    (∀ s gid s1 g sh s', Passes (.cpy h dk ak len ssp pol dsp) s gid s1 g sh s' → g.lanesAt s1 sh ≠ 0#96 →
      let i := Instr.cpy h dk ak len ssp pol dsp
      let c := mk s' gid s1 g (readSrc s' g (g.slot s1) ((lowest? (g.lanesAt s1 sh)).getD (g.slot s1).uniLane) len 32).toNat false
      ((outside? s' c).isSome = true → exec i s = .next (trapWord s' gid s1 i sh 0x07#8 0#8 (trapLanes g (g.slot s1) sh) true)) ∧
      (outside? s' c = none → takeLocks s' g.die g.core c.locks = none → exec i s = .next (s'.modSlot gid s1 fun y => { y with wait := .other })) ∧
      (outside? s' c = none → ∀ u, takeLocks s' g.die g.core c.locks = some u →
        exec i s = .next ((begun u c).setGroup gid ((g.ctrUp h.ctr).done s1 sh)))) ∧
    (∀ s gid s1 g sh s', Passes (.cpyCont h dk ak n8 ssp pol dsp) s gid s1 g sh s' →
      let i := Instr.cpyCont h dk ak n8 ssp pol dsp
      let off := g.kreg (g.slot s1) (n8.toNat + 1)
      let dest := (g.slot s1).header + off.signExtend 80
      let c := mk s' gid s1 g (g.kreg (g.slot s1) n8.toNat).toNat true
      (off.extractLsb' 0 3 ≠ 0#3 → exec i s = .next (trapWord s' gid s1 i sh 0x02#8 0#8 (trapLanes g (g.slot s1) sh) true)) ∧
      (off.extractLsb' 0 3 = 0#3 → g.lanesAt s1 sh = 0#96 → exec i s = .next (s'.modSlot gid s1 fun y => y.jump dest)) ∧
      (off.extractLsb' 0 3 = 0#3 → g.lanesAt s1 sh ≠ 0#96 → outside? s' c = none → ∀ u, takeLocks s' g.die g.core c.locks = some u →
        exec i s = .next ((begun u c).setGroup gid (g.modSlot s1 fun y => { y with wait := .cpyCont c.id dest })))) ∧
    (∀ (s : State) (id : Nat) (c : CopyOp), (s.copies.find? fun y => y.id = id) = some c → c.pid = none → c.stopped = none →
      (stillPending s c.after = true → exec (.cpyComplete id) s = .next s) ∧
      (stillPending s c.after = false → c.moved = false → exec (.cpyComplete id) s = .next (moveAll s c)) ∧
      (stillPending s c.after = false → c.moved = true → exec (.cpyComplete id) s = .next (finishCopy s c))) ∧
    (∀ (s : State) (c : CopyOp), (landed s c.die c.id = true → finishCopy s c = copyDone s c) ∧
      (landed s c.die c.id = false → finishCopy s c =
        { s with copies := s.copies.map fun x => if x.id = c.id then { x with moved := true } else x })) ∧
    (∀ (s u : State) (c : CopyOp) (src : List (List Nat)), c.data = none →
      (if c.kind.reads then moveKeys s c c.sspace .read (c.moves.map Prod.snd) else (s, .ok [])) = (u, .ok src) →
      let d := moveData u c src
      let c' := { c with data := some d.2, wrote := 0 }
      moveAll s c = putMoves { d.1 with copies := d.1.copies.map fun x => if x.id = c.id then c' else x } c' 0 c'.writes) ∧
    (∀ (s u : State) (c : CopyOp) (f : PageFault) (va : Addr), c.data = none → c.kind.reads = true →
      moveKeys s c c.sspace .read (c.moves.map Prod.snd) = (u, .error (.inr (f, va))) → moveAll s c = copyStop u c f va) ∧
    (∀ (s : State) (c : CopyOp), c.data.isSome = true → moveAll s c = putMoves s c c.wrote c.writes) ∧
    (∀ (s u : State) (c : CopyOp) (k : Nat) (va : Addr) (bs : List Byte) (left : List (Addr × List Byte)),
      putMoves s c k [] = finishCopy s c ∧
      (∀ ks, engineKeys s c.team c.die c.core c.grid c.tenant c.sup c.dspace .write va (wBits c.w / 8) = (u, .ok ks) →
        putMoves s c k ((va, bs) :: left) = putMoves (engineStore u c.writer va ks bs) c (k + 1) left) ∧
      (∀ f at_, engineKeys s c.team c.die c.core c.grid c.tenant c.sup c.dspace .write va (wBits c.w / 8) = (u, .stop f at_) →
        putMoves s c k ((va, bs) :: left) =
          copyStop { u with copies := u.copies.map fun x => if x.id = c.id then { x with wrote := k } else x } c f at_)) ∧
    (∀ (s : State) (c : CopyOp), c.pid = none → c.cont = true → ∀ g dest, s.group? c.gid = some g → g.frame = none →
      (g.slot c.s1).wait = .cpyCont c.id dest → s.fences = [] →
      ∃ t g', copyDone s c = t ∧ t.copies = s.copies.filter (fun y => y.id ≠ c.id) ∧ t.group? c.gid = some g' ∧
        g'.slot c.s1 = (g.slot c.s1).jump dest ∧ ∀ l ∈ (t.core c.die c.core).rlt, l.owner ≠ .copy c.id) ∧
    -- the copy class
    (∀ s pid p, s.cur = .prog pid → s.prog? pid = some p →
      let r := fun y : SReg => p.s[(Fin.ofNat 16 y.toNat)]
      let op' := fun (kind : CopyKind) (src idx : Addr) (ssp : BitVec 3) (idxs : Option (List Nat)) =>
        copyOfProg s pid p w kind (r n).toNat (r d) src idx dsp ssp pol idxs
      let busy := ∃ y ∈ s.copies, y.pid = some pid ∧ ∃ o sc tag parts kind root, y.kind = .coll o sc tag parts kind root
      let issues := fun (i : Instr) (c : CopyOp) (locks : List Lock) =>
        (c.count = 0 → exec i s = .next (s.progOn pid p)) ∧
        (c.count ≠ 0 → busy ∨ takeLocks s p.die p.core locks = none → exec i s = .next s) ∧
        (c.count ≠ 0 → ¬ busy → ∀ u, takeLocks s p.die p.core locks = some u → exec i s = .next ((begun u c).progOn pid p))
      let checked := fun (i : Instr) (c : CopyOp) =>
        (∀ bad, outside? s c = some bad → exec i s = .next (progFault s pid 0x07#8 bad)) ∧ (outside? s c = none → issues i c c.locks)
      (∀ i, i = .cld w d a n x dsp ssp pol ∨ i = .cst w d a n x dsp ssp pol →
        checked i (op' (.block ((r x).extractLsb' 0 16).toNat ((r x).extractLsb' 16 32).toNat ((r x).extractLsb' 48 32).toNat) (r a) 0#80 ssp (some []))) ∧
      checked (.cfill w d a n dsp pol) (op' (.fill ((r a).setWidth 64)) 0#80 0#80 dsp (some [])) ∧
      (∀ i c, (i = .cgth w d a n x dsp ssp pol ∧ c = op' .gather (r a) (r x) ssp none) ∨
          (i = .csct w d a n x dsp ssp pol ∧ c = op' .scatter (r a) (r x) ssp none) →
        (c.count ≠ 0 → c.idx.toNat % 4 ≠ 0 → exec i s = .next (progFault s pid 0x08#8 c.idx)) ∧
        (c.idx.toNat % 4 = 0 → (∀ j, j < c.count → inSpace s (p.team.bind (tget s.teams)) p.die p.grid c.sspace (c.idx + BitVec.ofNat 80 (4 * j)) 4 = true) →
          issues i c [{ owner := .copy c.id, tenant := c.tenant, space := c.sspace, lo := c.idx.toNat, len := 4 * c.count, write := false }])) ∧
      (let i := Instr.cacc w d a n x dsp ssp pol tile
       let q := ((r a).extractLsb' 8 2).toNat
       let first := ((r a).extractLsb' 0 6).toNat
       let c := op' (.acc tile.toNat first q (r x).toNat) 0#80 0#80 ssp (some [])
       let legal := (r a).extractLsb' 6 2 = 0#2 ∧ (r a).extractLsb' 10 70 = 0#70 ∧ 1 ≤ c.count ∧ first + c.count ≤ 64 ∧ 384 ≤ (r x).toNat
       (¬ legal → exec i s = .next (progFault s pid 0x02#8 0#80)) ∧
       (legal → (r x).toNat % 4 = 0 → (r d).toNat % 4 = 0 → outside? s c = none →
         (p.team = none ∨ (s.quad p.die p.core q).mx.holder ≠ p.team → exec i s = .next (progFault s pid 0x14#8 0#80)) ∧
         (p.team ≠ none → (s.quad p.die p.core q).mx.holder = p.team → issues i c c.locks))) ∧
      (let i := Instr.ccoll w d a n x dsp ssp pol op scope
       let parts := ((r x).extractLsb' 32 8).toNat
       let kind := ((r x).extractLsb' 40 2).toNat
       let c := op' (.coll op scope ((r x).extractLsb' 0 32) parts kind ((r x).extractLsb' 48 11).toNat) (r a) 0#80 ssp (some [])
       let legal := p.eng = 2 ∧ parts ≠ 0 ∧ (scope = 4#3 → parts ≤ 24) ∧ kind ≠ 3 ∧ (r x).extractLsb' 42 6 = 0#6 ∧
         (r x).extractLsb' 59 21 = 0#21 ∧ (op = 4#3 ↔ kind = 2)
       (¬ legal → exec i s = .next (progFault s pid 0x02#8 0#80)) ∧
       (legal → outside? s c = none → issues i c c.locks))) ∧
    (∀ (s : State) (c : CopyOp) (tile row quad pitch : Nat), c.kind = .acc tile row quad pitch →
      let t := (s.quad c.die c.core quad).mx.acc[(Fin.ofNat 8 tile)]
      drainNext s c = if c.count ≤ c.rows.length then none
        else if row + c.rows.length < t.watermark then some (some ((tget t.rows (row + c.rows.length)).getD 0#3072)) else some none) ∧
    -- the elements, their locks, and their data
    (∀ c : CopyOp,
      let e := wBits c.w / 8
      let put := fun (a : Addr) (n : Nat) => a + BitVec.ofNat 80 n
      (∀ rows sp dp, c.kind = .block rows sp dp → c.moves = (List.range (max rows 1)).flatMap fun i => (List.range c.count).map fun j =>
        (put c.dst (i * dp + j * e), put c.src (i * sp + j * e))) ∧
      (∀ js, c.kind = .gather → c.idxs = some js → c.moves = js.zipIdx.map fun y => (put c.dst (y.2 * e), put c.src (y.1 * e))) ∧
      (∀ js, c.kind = .scatter → c.idxs = some js → c.moves = js.zipIdx.map fun y => (put c.dst (y.1 * e), put c.src (y.2 * e))) ∧
      (c.kind.reads = true → (∀ tile row quad pitch, c.kind ≠ .acc tile row quad pitch) ∧ ∀ v, c.kind ≠ .fill v) ∧
      c.locks.length ≤ 2 ∧
      ∀ m ∈ c.moves,
        (∃ l ∈ c.locks, l.owner = .copy c.id ∧ l.space = c.dspace ∧ l.write = true ∧ l.lo ≤ m.1.toNat ∧ m.1.toNat + e ≤ l.lo + l.len) ∧
        (c.kind.reads = true →
          ∃ l ∈ c.locks, l.owner = .copy c.id ∧ l.space = c.sspace ∧ l.write = false ∧ l.lo ≤ m.2.toNat ∧ m.2.toNat + e ≤ l.lo + l.len)) ∧
    (∀ (s : State) (c : CopyOp) (ks : List Nat) (r : List (List Nat)),
      (∀ v, c.kind = .fill v → moveData s c r = (s, List.replicate c.count (toBytes v (wBits c.w / 8)))) ∧
      (∀ tile row quad pitch, c.kind = .acc tile row quad pitch → moveData s c r = (s, (List.range (96 * c.count)).map fun i =>
        toBytes ((c.rows.getD (i / 96) 0#3072).extractLsb' (32 * (i % 96)) 32) 4)) ∧
      (c.kind.reads = true → moveData s c r = readMoves s c r) ∧
      readMoves s c [] = (s, []) ∧
      (let y := (ks.filter isGlobal).foldl (fun z k => l2Read z c.die c.tenant c.pol k) s
       readMoves s c (ks :: r) = ((readMoves y c r).1, ks.map (engineByte y (c.pid.getD c.id) c.die) :: (readMoves y c r).2))) ∧
    (∀ (s : State) (agent die k : Nat),
      (isGlobal k = false → engineByte s agent die k = memGet s.mem k) ∧
      (isGlobal k = true → (∀ f ∈ s.flits, f.eng = some agent → k ∉ f.keys) →
        engineByte s agent die k = if engineHeld s agent k = true then homeByte s k else dieByte s die k) ∧
      ∀ f v, isGlobal k = true → s.flits.getLast? = some f → f.eng = some agent → tget (f.keys.zip f.bytes) k = some v → engineByte s agent die k = v) ∧
    (∀ (s u v : State) (c : CopyOp) (ks : List (List Nat)) (bs : List (List Byte)),
      moveKeys s { c with w := 5#3 } c.sspace .read ((List.range c.count).map fun i => c.idx + BitVec.ofNat 80 (4 * i)) = (u, .ok ks) →
      readMoves u c ks = (v, bs) →
      let c' := { c with idxs := some (bs.map natOfBytes) }
      (∀ bad, outside? v c' = some bad → readIndices s c = copyFault v c' 0x07#8 bad) ∧
      (outside? v c' = none → takeLocks (dropLocks v c.die c.core (.copy c.id)) c.die c.core c'.locks = none → readIndices s c = s) ∧
      (outside? v c' = none → ∀ t, takeLocks (dropLocks v c.die c.core (.copy c.id)) c.die c.core c'.locks = some t →
        readIndices s c = { t with copies := t.copies.map fun y => if y.id = c.id then c' else y })) ∧
    -- collectives
    (∀ (s : State) (c : CopyOp) op scope tag parts kind root, c.kind = .coll op scope tag parts kind root →
      let ps := participants s c
      let agrees := fun y : CopyOp => y.kind = c.kind ∧ y.w = c.w ∧ y.count = c.count
      let wrong := (∃ y ∈ ps, ¬ agrees y) ∨ parts < ps.length ∨ (ps.length = parts ∧ kind ≠ 0 ∧ ∀ y ∈ ps, root ≠ y.die)
      let ready := ps.length = parts ∧ ∀ y ∈ ps, y.stopped = none ∧ (∀ z ∈ s.copies, z.pid = y.pid → y.id ≤ z.id) ∧
        agentLanded s Config.dies (y.pid.getD y.id) = true
      (∀ y, y ∈ ps ↔ y ∈ s.copies ∧ y.tenant = c.tenant ∧ y.data = none ∧ ∃ o n k t, y.kind = .coll o scope tag n k t) ∧
      (wrong → collStep s c = ps.foldl (fun u y => copyFault u y 0x43#8 0#80) s) ∧
      (¬ wrong → ¬ ready → collStep s c = s) ∧
      (¬ wrong → ready → collStep s c = collMove s op kind root ps)) ∧
    (∀ (s u v : State) (ps : List CopyOp) op kind root xs ys, collKeys s ps = (u, .ok xs) → collRead u xs = (v, ys) →
      collMove s op kind root ps = ps.foldl (fun z c => collTake z kind root (collResult op kind root ys) c) v) ∧
    (∀ (s : State) (c : CopyOp) (ps : List CopyOp) (kss : List (List Nat)) (xs : List (CopyOp × List (List Nat))),
      collKeys s [] = (s, .ok []) ∧
      (∀ u v src ys, moveKeys s c c.sspace .read (c.moves.map Prod.snd) = (u, .ok src) → collKeys u ps = (v, .ok ys) →
        collKeys s (c :: ps) = (v, .ok ((c, src) :: ys))) ∧
      collRead s [] = (s, []) ∧
      collRead s ((c, kss) :: xs) = ((collRead (readMoves s c kss).1 xs).1,
        (c, (readMoves s c kss).2.map natOfBytes) :: (collRead (readMoves s c kss).1 xs).2)) ∧
    (∀ (op : BitVec 3) (kind root : Nat) (y : CopyOp × List Nat) (ys : List (CopyOp × List Nat)) (i : Nat), i < y.1.count →
      (kind ≠ 2 → (collResult op kind root (y :: ys))[i]? = some (reduceElem op (wBits y.1.w) ((y :: ys).map fun z => z.2.getD i 0))) ∧
      (kind = 2 → ∀ z, ((y :: ys).find? fun z => decide (root = z.1.die)) = some z →
        (collResult op kind root (y :: ys))[i]? = some (z.2.getD i 0, false))) ∧
    (∀ (w y : Nat) (ys : List Nat),
      reduceElem 1#3 w (y :: ys) = ((y :: ys).sum % 2 ^ w, false) ∧
      (∀ op : BitVec 3, op = 2#3 ∨ op = 3#3 → (reduceElem op w (y :: ys)).1 ∈ y :: ys ∧ (reduceElem op w (y :: ys)).2 = false ∧
        ∀ z ∈ y :: ys, if op = 2#3 then (BitVec.ofNat w (reduceElem op w (y :: ys)).1).toInt ≤ (BitVec.ofNat w z).toInt
          else (BitVec.ofNat w z).toInt ≤ (BitVec.ofNat w (reduceElem op w (y :: ys)).1).toInt) ∧
      let f : Format := if w = 64 then .f64 else .f32
      (∀ neg : Bool, (neg = true ↔ ∀ z ∈ y :: ys, decodeF f z = .fin true 0) → (∀ z ∈ y :: ys, ∃ m p, decodeF f z = .fin m p) →
        reduceElem 0#3 w (y :: ys) = (rneTo f (exactOf ((y :: ys).map fun z => (decodeF f z).real).sum neg), false)) ∧
      ((∃ z ∈ y :: ys, (decodeF f z).isNaN = true) →
        reduceElem 0#3 w (y :: ys) = (f.canonNaN, decide (∃ z ∈ y :: ys, (decodeF f z).isSig = true)))) ∧
    (∀ (s : State) (c : CopyOp) (kind root pid : Nat) (p : Prog) (r : List (Nat × Bool)), c.pid = some pid → s.prog? pid = some p →
      let c' := { c with data := some (if kind = 1 ∧ root ≠ c.die then [] else r.map fun v => natBytes v.1 (wBits c.w / 8)), wrote := 0 }
      let u := if r.any Prod.snd = true then s.setProg pid { p with status := p.status ||| 0x10000#32 } else s
      collTake s kind root r c = putMoves { u with copies := u.copies.map fun y => if y.id = c.id then c' else y } c' 0 c'.writes) ∧
    (∀ (s : State) (c : CopyOp) (f : PageFault) (va : Addr), ∃ u seq,
      (u, seq) = appendRecord s c.die { addr := va, cause := f.code, kind := 5#8, tenant := c.tenant, core := c.core, place := c.place,
                                        mask := 0#96, seq := 0#32 } ∧
      copyStop s c f va = { u with copies := u.copies.map fun y => if y.id = c.id then { y with stopped := some (c.die, seq), stopVa := va } else y }) ∧
    ∀ (s : State) (id : Nat) (c : CopyOp) (pid : Nat), (s.copies.find? fun y => y.id = id) = some c → c.pid = some pid → c.stopped = none →
      (c.moved = true → exec (.copyOperationComplete id) s = .next (finishCopy s c)) ∧
      (c.moved = false → c.data = none → (∃ o sc tag parts kind root, c.kind = .coll o sc tag parts kind root) →
        exec (.copyOperationComplete id) s = .next (collStep s c)) ∧
      (c.moved = false → ((∀ o sc tag parts kind root, c.kind ≠ .coll o sc tag parts kind root) ∨ c.data.isSome = true) →
        (c.idxs = none → exec (.copyOperationComplete id) s = .next (readIndices s c)) ∧
        (c.idxs.isSome = true → drainNext s c = none → exec (.copyOperationComplete id) s = .next (moveAll s c)) ∧
        (c.idxs.isSome = true → drainNext s c = some none → exec (.copyOperationComplete id) s = .next s) ∧
        (∀ row, c.idxs.isSome = true → drainNext s c = some (some row) → exec (.copyOperationComplete id) s =
          .next { s with copies := s.copies.map fun x => if x.id = c.id then { x with rows := x.rows ++ [row] } else x }))

/-- R115, R238 to R262, R309, R339: the stepper. A step word acts once, for a team, on the team's context, which it takes at its
first use; without a team it traps, and while no context is free, or an earlier access of its slot has not performed, it holds. What
stat and qry write performs before their counter falls, and before the slot of a qry goes on. ldtab,
bind and run read their records and keep what is legal, with a status that says what is not; a run registers its five regions, turns away the
waits of other roles, and begins
its first attempt. wait takes the outstanding call into k8 to k15 and the call registers, or the end of the run; done counts once the
group's accesses have performed. Calls go to the groups of the serving role once what the context wrote has performed; a combination is formed in memory, and what follows it depends on its
kind: the stages of R245, the Newton iteration of R254, the norm and the control of R247 and R248, the events of R259 to R261 and the dense values
of R257 are each said here. The corners that the rules leave open are read as log entry 38 says. -/
def Obligations.StepperWords : Prop :=
  ∀ (h : Head) (a : Triple) (sp : BitVec 3) (b : Src),
    -- it is a step word's turn, it acts, and its team's context is x
    let acts := fun (i : Instr) (engine : Bool) (s u : State) (gid : Nat) (s1 : Bool) (g : Group) (sh : Shape) (c : Nat) (x : StepCtx) =>
      ∃ s' tid t, Passes i s gid s1 g sh s' ∧ g.lanesAt s1 sh ≠ 0#96 ∧ g.team = some tid ∧ tget s'.teams tid = some t ∧
        (engine = true → stillPending s' (pendingOf s' gid (g.slot s1).owned) = false) ∧ takeCtx s' tid t g = some (u, c, x)
    let kept := fun (x : StepCtx) (status : BitVec 8) => { StepCtx.new x.team x.tenant x.agent with tab := x.tab, bind := x.bind, status := status }
    let trap := fun (i : Instr) (s u : State) (gid : Nat) (s1 : Bool) (g : Group) (sh : Shape) (c : BitVec 8) =>
      exec i s = .next (trapWord u gid s1 i sh c 0#8 (trapLanes g (g.slot s1) sh) true)
    let waits := fun (i : Instr) (s u : State) (gid : Nat) (s1 : Bool) =>
      exec i s = .next ((u.modSlot gid s1 fun y => { y with wait := .step, wctr := h.ctr }).ctrUp gid h.ctr)
    -- what the context has written, from number `first` on for the word itself, must perform for the agents of the scope: an acquire
    let lands := fun (i : Instr) (s v : State) (gid : Nat) (g : Group) (scope : BitVec 3) (x : StepCtx) (first : Nat) (ends : Option Bool) =>
      let more := agentStores v x.agent
      let f : FenceRec := { id := v.seqNo, gid := gid, lanes := BitVec.allOnes 96, succ := 15#4, scope := scope,
                            waits := more.filter fun y => decide (first ≤ y), more := more, counted := false, ctr := h.ctr,
                            ends := ends.map fun s1 => (s1, g.trapMode) }
      let w := State.ctrUp { v with seqNo := v.seqNo + 1, fences := v.fences ++ [f] } gid h.ctr
      exec i s = .next (settleFences (match ends with
        | some s1 => w.modSlot gid s1 fun y => { y with wait := .written v.seqNo }
        | none => w))
    let all : List (Instr × Bool) := [(.stepLdtab h a sp, true), (.stepBind h a sp, true), (.stepRun h a sp, true), (.stepWait h, false),
      (.stepDone h, false), (.stepQry h a b, true), (.stepStat h a sp, true), (.stepStop h, true)]
    (∀ p ∈ all, Skips p.1 ∧ ∀ s gid s1 g sh s', Passes p.1 s gid s1 g sh s' → g.lanesAt s1 sh ≠ 0#96 →
      (g.team = none → trap p.1 s s' gid s1 g sh 0x12#8) ∧
      ∀ tid t, g.team = some tid → tget s'.teams tid = some t →
        (p.2 = true ∧ stillPending s' (pendingOf s' gid (g.slot s1).owned) = true) ∨ takeCtx s' tid t g = none →
        exec p.1 s = .next (s'.modSlot gid s1 fun y => { y with wait := .other })) ∧
    (∀ s gid (g : Group) tid t u c x, takeCtx s tid t g = some (u, c, x) → s.group? gid = u.group? gid ∧ tget u.ctxs c = some x ∧
      (t.ctx = none → (t.die * 8 + t.clu) * 4 ≤ c ∧ c < (t.die * 8 + t.clu) * 4 + 4 ∧ tget s.ctxs c = none)) ∧
    (∀ p ∈ [Instr.stepLdtab h a sp, .stepBind h a sp, .stepRun h a sp], ∀ s u gid s1 g sh c x, acts p true s u gid s1 g sh c x →
      (x.st = .running → trap p s u gid s1 g sh 0x15#8) ∧
      (x.st ≠ .running → (readTriple g (g.slot s1) a).toNat % 8 ≠ 0 → trap p s u gid s1 g sh 0x08#8)) ∧
    (∀ s u gid s1 g sh c x v hd, acts (.stepLdtab h a sp) true s u gid s1 g sh c x → x.st ≠ .running →
      let addr := readTriple g (g.slot s1) a
      stepRead u gid g (g.slot s1).uniMask (Space.ofCode sp) addr 8 = (v, .ok hd) →
      (headerOk hd = false →
        exec (.stepLdtab h a sp) s = .next ((setCtx v c { kept x 0x10#8 with tab := none }).goesOn gid s1 sh g)) ∧
      (headerOk hd = true → ∀ w bs, stepRead v gid g (g.slot s1).uniMask (Space.ofCode sp) (addr + 8#80) (8 * descWords hd) = (w, .ok bs) →
        let t := mkTableau hd (words64 bs)
        (t.legal (words64 bs) = true →
          exec (.stepLdtab h a sp) s = .next ((setCtx w c { kept x 0#8 with tab := some t }).goesOn gid s1 sh g)) ∧
        (t.legal (words64 bs) = false →
          exec (.stepLdtab h a sp) s = .next ((setCtx w c { kept x 0x10#8 with tab := none }).goesOn gid s1 sh g)))) ∧
    (∀ s u gid s1 g sh c x v r, acts (.stepBind h a sp) true s u gid s1 g sh c x → x.st ≠ .running →
      stepRead u gid g (g.slot s1).uniMask (Space.ofCode sp) (readTriple g (g.slot s1) a) 80 = (v, .ok r) →
      let roles := match v.teamOf g with | some t => t.roles | none => 0
      let bd := mkBinding roles (fun a n => inSpace v (v.teamOf g) g.die g.grid .cl a n) r
      exec (.stepBind h a sp) s = .next ((setCtx v c { kept x (if bd = none then 0x11#8 else 0#8) with bind := bd }).goesOn gid s1 sh g)) ∧
    (∀ s u gid s1 g sh c x v r, acts (.stepRun h a sp) true s u gid s1 g sh c x → x.st ≠ .running →
      stepRead u gid g (g.slot s1).uniMask (Space.ofCode sp) (readTriple g (g.slot s1) a) 32 = (v, .ok r) →
      let t0 := (words64 r).getD 0 0#64
      let te := (words64 r).getD 1 0#64
      let h0 := (words64 r).getD 2 0#64
      let ends := fun y : State => exec (.stepRun h a sp) s = .next (y.modGroup gid fun g => g.done s1 sh)
      (runLegal v g x r = false → ends (stopRun (setCtx v c (kept x 0#8)) c 0x12#8 0xFF#8)) ∧
      (runLegal v g x r = true → rat64 te = rat64 t0 → ends (stopRun (setCtx v c { kept x 0#8 with t := t0, h := h0 }) c 0x02#8 0xFF#8)) ∧
      (runLegal v g x r = true → rat64 te ≠ rat64 t0 → ∀ t bd, x.tab = some t → x.bind = some bd →
        let co := v.core g.die g.core
        let ls := (bd.regions t.slots).map fun q => { owner := .step c, tenant := g.tenant, space := bd.space, lo := q.1.toNat, len := q.2, write := true }
        (64 < co.rlt.length + 5 ∨ ls.any (lockMeets v g.die g.core) = true → exec (.stepRun h a sp) s = .next (v.modSlot gid s1 fun y => { y with wait := .other })) ∧
        (co.rlt.length + 5 ≤ 64 → ls.any (lockMeets v g.die g.core) = false →
          let x1 := { kept x 1#8 with st := .running, t := t0, tEnd := te, h := h0, limit := BitVec.ofNat 32 (bytesNat r 24 4),
                                      run := some (g.core, gid, s1), place := placeByte g false s1 }
          exec (.stepRun h a sp) s = .next (beginAttempt (checkRoles ((setCtx (v.setCore g.die g.core { co with rlt := co.rlt ++ ls }) c x1).modGroup
            gid fun g => g.done s1 sh) x.team bd.role) c x1 t)))) ∧
    (∀ s u gid s1 g sh c x, acts (.stepWait h) false s u gid s1 g sh c x →
      let served := ∀ bd, x.bind = some bd → bd.role = g.role
      let ends := fun (y : State) (g' : Group) => exec (.stepWait h) s = .next (l1Invalidate (y.setGroup gid (g'.done s1 sh)) g'.die g'.core)
      (¬ served → trap (.stepWait h) s u gid s1 g sh 0x15#8) ∧
      (served → x.st = .idle → waits (.stepWait h) s u gid s1) ∧
      (served → x.st = .stopped → ends u (putCall g s1 [3#32, 0#32, 0#32, 0#32, 0#32, 0#32, 0#32, 0#32] 0#32 0#64 0#64)) ∧
      (served → x.st = .running → ∀ k t bd, x.phase = .out k → x.tab = some t → x.bind = some bd →
        let q := callInfo x t bd k
        (gid ∉ x.toTake → waits (.stepWait h) s u gid s1) ∧
        (gid ∈ x.toTake → ends (setCtx u c { x with toTake := x.toTake.filter fun y => y ≠ gid })
          (putCall g s1 [BitVec.ofNat 32 (c % 4 * 2 ^ 20 + q.iter * 2 ^ 16 + q.part * 2 ^ 12 + q.stage * 2 ^ 8 + q.routine), x.calls - 1#32,
              q.t.extractLsb' 0 32, q.t.extractLsb' 32 32, q.input.extractLsb' 0 32, q.input.extractLsb' 32 32, q.output.extractLsb' 0 32,
              q.output.extractLsb' 32 32] (q.output.extractLsb' 64 16 ++ q.input.extractLsb' 64 16) x.hs q.g))) ∧
      (served → x.st = .running → (∀ k, x.phase ≠ .out k) → waits (.stepWait h) s u gid s1)) ∧
    (∀ s u gid s1 g sh c x, acts (.stepDone h) false s u gid s1 g sh c x →
      let good := (∀ bd, x.bind = some bd → bd.role = g.role) ∧ x.st = .running ∧ gid ∈ x.owing ∧ gid ∉ x.toTake
      (¬ good → trap (.stepDone h) s u gid s1 g sh 0x15#8) ∧
      (good → exec (.stepDone h) s = .next ((setCtx u c { x with
        owing := x.owing.filter fun y => y ≠ gid,
        settling := x.settling ++ fenceWaits u gid (BitVec.allOnes 96) 14#4 }).goesOn gid s1 sh g))) ∧
    (∀ s u gid s1 g sh c x, acts (.stepQry h a b) true s u gid s1 g sh c x →
      let dst := readTriple g (g.slot s1) a
      let at_ := readSrc u g (g.slot s1) ((lowest? (g.lanesAt s1 sh)).getD (g.slot s1).uniLane) b 64
      (x.tab = none ∨ x.bind = none → trap (.stepQry h a b) s u gid s1 g sh 0x15#8) ∧
      ∀ t bd, x.tab = some t → x.bind = some bd →
        (queryTheta x t at_ = none → trap (.stepQry h a b) s u gid s1 g sh 0x15#8) ∧
        ∀ th, queryTheta x t at_ = some th →
          let apart := ∀ q ∈ bd.regions t.slots, meets dst.toNat (bd.n * bd.e) q.1.toNat q.2 = false
          (dst.toNat % bd.e ≠ 0 ∨ inSpace u (u.teamOf g) g.die g.grid bd.space dst (bd.n * bd.e) = false ∨ ¬ apart →
            trap (.stepQry h a b) s u gid s1 g sh 0x15#8) ∧
          ∀ v, dst.toNat % bd.e = 0 → inSpace u (u.teamOf g) g.die g.grid bd.space dst (bd.n * bd.e) = true → apart →
            runAsg u gid c g.core x bd (match th with
              | none => .copy dst bd.state
              | some th => .lin dst (denseTerms t bd (bd.vec bd.work 2) (match x.retained with | some r => r.hs | none => 0#64) th)) = (v, .ok ()) →
            lands (.stepQry h a b) s v gid g (if bd.space = .cl then 2#3 else 4#3) x u.seqNo (some s1)) ∧
    (∀ s u gid s1 g sh c x, acts (.stepStat h a sp) true s u gid s1 g sh c x →
      let dst := readTriple g (g.slot s1) a
      (inSpace u (u.teamOf g) g.die g.grid (Space.ofCode sp) dst 32 = false → trap (.stepStat h a sp) s u gid s1 g sh 0x07#8) ∧
      (inSpace u (u.teamOf g) g.die g.grid (Space.ofCode sp) dst 32 = true →
        (dst.toNat % 8 ≠ 0 → trap (.stepStat h a sp) s u gid s1 g sh 0x08#8) ∧
        ∀ v ks, dst.toNat % 8 = 0 → laneKeys u g (Space.ofCode sp) .write 0 dst 32 = (v, .ok ks) →
          let running := x.st = .running
          let w := engineStore { v with seqNo := v.seqNo + 1 } (x.writer v.seqNo gid c g.core) dst ks
            ([if running then 1#8 else x.status, if x.st = .stopped then x.event else 0xFF#8, 0#8, 0#8] ++ toBytes x.accepted 4 ++
              toBytes x.rejected 4 ++ toBytes x.calls 4 ++ toBytes x.t 8 ++ toBytes (if running then x.hs else x.h) 8)
          lands (.stepStat h a sp) s (w.goesOn gid s1 sh g) gid g 2#3 x v.seqNo none)) ∧
    (∀ s u gid s1 g sh c x, acts (.stepStop h) true s u gid s1 g sh c x →
      let v := u.goesOn gid s1 sh g
      (x.st ≠ .running → exec (.stepStop h) s = .next v) ∧
      (x.st = .running → (∃ k, x.phase = .out k) → exec (.stepStop h) s = .next (setCtx v c { x with stopReq := true })) ∧
      (x.st = .running → (∀ k, x.phase ≠ .out k) → exec (.stepStop h) s = .next (stopRun v c 0x04#8 0xFF#8))) ∧
    (∀ (s : State) (c : Nat) (x : StepCtx) (t : Tableau) (bd : Binding), tget s.ctxs c = some x → x.tab = some t → x.bind = some bd →
      (∀ k team, x.phase = .call k → tget s.teams x.team = some team →
        let gs := team.groups.filter fun gid => match s.group? gid with | some g => g.role = bd.role | none => false
        let q := callInfo x t bd k
        (gs = [] → exec (.stepCallDeliver c) s = .next (stopRun s c 0x08#8 0xFF#8)) ∧
        (gs ≠ [] → agentLanded s (ctxDie c) x.agent = false → exec (.stepCallDeliver c) s = .next s) ∧
        (gs ≠ [] → agentLanded s (ctxDie c) x.agent = true →
          let now := takers (stepWaiters s x.team) gs
          let x' := { x with phase := .out k, owing := gs, toTake := gs.filter fun n => !now.any fun w => w.1 = n, settling := [],
                             calls := x.calls + 1#32, openIn := some (q.input, bd.n * bd.e), openOut := some (q.output, q.outN * bd.e) }
          exec (.stepCallDeliver c) s =
            .next (now.foldl (fun y w => giveCall y w.1 w.2 (putRecordOf c x' q w.2.1)) (setCtx s c x')))) ∧
      ∀ r, x.run = some r → x.stopped = none → x.st = .running →
        (∀ o v y w, x.phase = .comb o → readVec s c r.1 x bd bd.state bd.n = (v, .ok y) → runAsgs v x.runner c r.1 x bd (planOf x t bd o) = (w, .ok ()) →
          exec (.stepCombinationDone c) s = .next (afterComb w c r.1 x t bd y o)) ∧
        (∀ k, x.phase = .out k → x.owing = [] → x.settling.all (performed s (ctxDie c) bd.scope) = true →
          exec (.stepCombinationDone c) s = .next (afterCall s c r.1 x t bd k)) ∧
        (∀ k, x.phase = .out k → x.owing ≠ [] → exec (.stepCombinationDone c) s = .next s)) ∧
    -- R244, R258: a run that is legal, and the θ of a query
    (∀ (s : State) (g : Group) (x : StepCtx) (r : List Byte),
      let t0 := (words64 r).getD 0 0#64
      let te := (words64 r).getD 1 0#64
      let h0 := (words64 r).getD 2 0#64
      runLegal s g x r = true ↔ ∃ t bd, x.tab = some t ∧ x.bind = some bd ∧
        (bd.regions t.slots).Pairwise (fun p q => meets p.1.toNat p.2 q.1.toNat q.2 = false) ∧
        (bd.space = .cl → ∀ q ∈ bd.regions t.slots, q.2 = 0 ∨ inSpace s (s.teamOf g) g.die g.grid .cl q.1 q.2 = true) ∧
        (∀ v ∈ [t0, te, h0], ∃ m p, val64 v = .fin m p) ∧ zero64 h0 = false ∧
        (rat64 te ≠ rat64 t0 → (neg64 h0 = true ↔ rat64 te < rat64 t0)) ∧ (bd.m = 0 ∨ t.d ≠ 0) ∧ bytesNat r 28 4 = 0) ∧
    (∀ (x : StepCtx) (t : Tableau) (v : Word64),
      (x.retained = none ∨ x.st = .running ∨ t.d = 0 ∨ (∀ m p, val64 v ≠ .fin m p) → queryTheta x t v = none) ∧
      ∀ r m p, x.retained = some r → x.st ≠ .running → t.d ≠ 0 → val64 v = .fin m p →
        let th := (rat64 v - rat64 r.ts) / rat64 r.hs
        (rat64 v = rat64 r.tEnd → queryTheta x t v = some none) ∧
        (rat64 v ≠ rat64 r.tEnd → 0 ≤ th ∧ th ≤ rat64 r.thetaMax → queryTheta x t v = some (some th)) ∧
        (rat64 v ≠ rat64 r.tEnd → th < 0 ∨ rat64 r.thetaMax < th → queryTheta x t v = none)) ∧
    -- R246: the elements of a combination
    (∀ (hs : Word64) (q : Rat) (m : Bool) (p : Rat), val64 hs = .fin m p → (∃ n u, coef hs q = .fin n u) ∧ (coef hs q).real = rat64 hs * q) ∧
    (∀ hs : Word64, coef hs 0 = .fin false 0) ∧
    (∀ (f : Format) (ts : List (FVal × List Nat)) (i : Nat),
      let live := ts.filter fun q => !q.1.isZero
      let el := fun q : FVal × List Nat => decodeF f (q.2.getD i 0)
      (live = [] → combElem f ts i = 0) ∧
      (∀ neg : Bool, live ≠ [] → (∀ q ∈ live, (∃ m p, q.1 = .fin m p) ∧ ∃ m p, el q = .fin m p) →
        (neg = true ↔ ∀ q ∈ live, (el q).isZero = true ∧ q.1.neg? ≠ (el q).neg?) →
        combElem f ts i = rneTo f (exactOf (live.map fun q => q.1.real * (el q).real).sum neg)) ∧
      ((∃ q ∈ live, (el q).isNaN = true) → combElem f ts i = f.canonNaN)) ∧
    (∀ (s u : State) (gid c core : Nat) (x : StepCtx) (bd : Binding) (d : Addr),
      (∀ src v, readVec s c core x bd src bd.n = (u, .ok v) → runAsg s gid c core x bd (.copy d src) = writeVec u gid c core x bd d v) ∧
      (∀ ts vs, readVecs s c core x bd ts = (u, .ok vs) →
        runAsg s gid c core x bd (.lin d ts) = writeVec u gid c core x bd d ((List.range bd.n).map (combElem bd.fmt vs)))) ∧
    -- R247, R248, R254: the norm, the controller and the Newton iteration
    (∀ e w : Word64,
      (zero64 e = true → normU e w = 0#64) ∧ (zero64 e = false → zero64 w = true → normU e w = 0x7FF0000000000000#64) ∧
      (∀ m p n q, val64 e = .fin m p → val64 w = .fin n q → p ≠ 0 → q ≠ 0 → normU e w = rne64 (p * p / (q * q)))) ∧
    (∀ v w : Word64, fin64 v = true → fin64 w = true → neg64 v = false → add64 v w = rne64 (rat64 v + rat64 w)) ∧
    (∀ us : List Word64, us.length ≤ 64 → ∃ v : Nat → Nat → Word64, (∀ i, i < 64 → v 0 i = us.getD i 0#64) ∧
      (∀ m i, m < 6 → i < 2 ^ (5 - m) → v (m + 1) i = add64 (v m (2 * i)) (v m (2 * i + 1))) ∧ blockSum us = v 6 0) ∧
    (∀ us : List Word64, ∃ sum : Nat → Word64, sum 0 = 0#64 ∧
      (∀ i, sum (i + 1) = add64 (sum i) (blockSum ((us.drop (64 * i)).take 64))) ∧
      let last := sum ((us.length + 63) / 64)
      (nan64 last = true → normOf us = 0x7FF8000000000000#64) ∧ (inf64 last = true → normOf us = 0x7FF0000000000000#64) ∧
      (∀ m q, val64 last = .fin m q →
        normOf us = round64 (.real false (sqrtRat (q / (us.length : Rat))).1 (sqrtRat (q / (us.length : Rat))).2))) ∧
    (∀ (bd : Binding) (d y : List Nat) (i : Nat), i < bd.n → ∃ us : List Word64, newtonNorm bd d y = normOf us ∧ us.length = bd.n ∧
      ∀ m p n q, decodeF bd.fmt (d.getD i 0) = .fin m p → decodeF bd.fmt (y.getD i 0) = .fin n q → fin64 bd.atol = true → fin64 bd.rtol = true →
        rat64 bd.atol + rat64 bd.rtol * q ≠ 0 →
        us[i]? = some (normU (rne64 (if m then -p else p)) (rne64 (rat64 bd.atol + rat64 bd.rtol * q)))) ∧
    (∀ (t : Tableau) (bd : Binding) (hs : Word64) (ks : List (List Nat)) (y z : List Nat) (i : Nat), i < bd.n →
      ∃ us : List Word64, errNorm t bd hs ks y z = normOf us ∧ us.length = bd.n ∧
        let k := fun j => decodeF bd.fmt ((ks.getD j []).getD i 0)
        let diff := fun j => rat64 (t.b.getD (j % t.s) 0#64) - rat64 (t.bh.getD (j % t.s) 0#64)
        ∀ m p n q, decodeF bd.fmt (y.getD i 0) = .fin m p → decodeF bd.fmt (z.getD i 0) = .fin n q → fin64 hs = true →
          (∀ j, j < t.slots → ∃ m p, k j = .fin m p) → fin64 bd.atol = true → fin64 bd.rtol = true →
          rat64 bd.atol + rat64 bd.rtol * max p q ≠ 0 →
          us[i]? = some (normU (rne64 ((List.range t.slots).map fun j => rat64 hs * diff j * (k j).real).sum)
            (rne64 (rat64 bd.atol + rat64 bd.rtol * max p q)))) ∧
    (∀ (err hs : Word64) (q : Nat),
      let tenth := rat64 0x3FECCCCCCCCCCCCD#64
      let fifth := rat64 0x3FC999999999999A#64
      let next := fun fac : Rat => round64 (sumV [coef hs fac])
      let r := round64 (.real false (rootRat (q + 1) (1 / rat64 err)).1 (rootRat (q + 1) (1 / rat64 err)).2)
      let f := rne64 (tenth * rat64 r)
      (nan64 err = true ∨ inf64 err = true → control err hs q = (false, next fifth)) ∧
      (zero64 err = true → control err hs q = (true, next 4)) ∧
      (fin64 err = true → zero64 err = false → inf64 r = false → inf64 f = false →
        control err hs q = (decide (rat64 err ≤ 1), next (min 4 (max fifth (rat64 f)))))) ∧
    (∀ (m : Nat) (prev : Option Word64) (nrm : Word64),
      let last := if 15 ≤ m then Newton.fail else .more
      (nan64 nrm = true → newtonNext m prev nrm = .fail) ∧
      (nan64 nrm = false → zero64 nrm = true → newtonNext m prev nrm = .converged) ∧
      (nan64 nrm = false → zero64 nrm = false →
        (m < 2 ∨ prev = none ∨ (∃ p, prev = some p ∧ inf64 p = true) → newtonNext m prev nrm = last) ∧
        ∀ p, 2 ≤ m → prev = some p → inf64 p = false →
          let rho := rne64 (rat64 nrm / rat64 p)
          let v := rne64 (rat64 rho * rat64 nrm / (1 - rat64 rho))
          (inf64 nrm = true ∨ inf64 rho = true ∨ 1 ≤ rat64 rho → newtonNext m prev nrm = .fail) ∧
          (inf64 nrm = false → inf64 rho = false → rat64 rho < 1 →
            (inf64 v = false → rat64 v ≤ rat64 0x3F9EB851EB851EB8#64 → newtonNext m prev nrm = .converged) ∧
            (inf64 v = true ∨ rat64 0x3F9EB851EB851EB8#64 < rat64 v → newtonNext m prev nrm = last)))) ∧
    -- R245, R254, R257, R260, R261: the combinations of a step, and what follows each
    (∀ (s : State) (c core : Nat) (x : StepCtx) (t : Tableau) (bd : Binding) (y : List Nat) (i m : Nat) (th : Word64),
      let w := fun j => bd.vec bd.work j
      let k := fun j => bd.vec bd.deriv j
      let own := fun j => if t.kind = 2 then t.s + j else j
      let entry := fun (l : List Word64) (i j : Nat) => rat64 (l.getD (i * t.s + j) 0#64)
      let gamma := fun i => if t.kind = 2 then entry t.ai i i else entry t.a i i
      let sums := fun (hs : Word64) (n : Nat) (e p : Nat → Rat) => (List.range n).flatMap fun j =>
        if t.kind = 2 then [(coef hs (e j), k j), (coef hs (p j), k (t.s + j))] else [(coef hs (e j), k j)]
      let plus := fvalRat 1
      let hist := (plus, bd.state) :: sums x.hs i (entry t.a i) (entry t.ai i)
      let weight := fun j => rat64 (t.b.getD j 0#64)
      let dense := fun (th : Rat) (j : Nat) => (List.range (t.d + 1)).foldl (fun v n => v + rat64 (t.beta.getD (j * (t.d + 1) + n) 0#64) * th ^ n) 0
      let stage := fun i => if gamma i = 0 then StepPhase.comb (.input i) else .comb (.zero i)
      let next := fun i => if i + 1 < t.s then stage (i + 1) else .comb .candidate
      let goes := fun (o : StepOp) (p : StepPhase) => afterComb s c core x t bd y o = setCtx s c { x with phase := p }
      let whole := if t.kind = 2 then 2 else 0
      let accepts := if bd.m = 0 then StepPhase.comb .accept else if x.gref = none then .call .eventRef else .call .eventCand
      let retries := fun (v : State) (hn : Word64) =>
        beginAttempt v c { x with rejected := x.rejected + 1#32, h := hn, first := false, prevRejected := true } t
      let fin := if x.clamped then x.tEnd else round64 (sumV [val64 x.t, coef x.hs 1])
      (∀ st hs (q : Rat), denseTerms t bd st hs q = (plus, st) :: sums hs t.s (dense q) (dense q)) ∧
      planOf x t bd .fsal = [.copy (k 0) (k (t.s - 1))] ∧ goes .fsal (next 0) ∧
      planOf x t bd (.input i) = [.lin bd.input hist] ∧ goes (.input i) (.call (.rhs i whole 0)) ∧
      planOf x t bd (.zero i) = [.lin (w 1) []] ∧
      afterComb s c core x t bd y (.zero i) = setCtx s c { x with nrm := none, phase := .comb (.newtonInput i 1) } ∧
      planOf x t bd (.newtonInput i m) = [.lin bd.input (hist ++ [(coef x.hs (gamma i), w 1)])] ∧ goes (.newtonInput i m) (.call (.rhs i whole m)) ∧
      planOf x t bd (.residual i m) = [.lin bd.input [(plus, w 1), (fvalRat (-1), k (own i))]] ∧ goes (.residual i m) (.call (.solve i m)) ∧
      planOf x t bd (.update i m) = [.lin (w 1) [(plus, w 1), (fvalRat (-1), k (own i))]] ∧
      planOf x t bd (.slot i) = [.lin (k (own i)) [(plus, w 1)]] ∧ goes (.slot i) (if t.kind = 2 then .comb (.implInput i) else next i) ∧
      planOf x t bd (.implInput i) = [.lin bd.input (hist ++ [(coef x.hs (gamma i), w 1)])] ∧ goes (.implInput i) (.call (.rhs i 1 0)) ∧
      planOf x t bd .candidate = [.lin (w 0) ((plus, bd.state) :: sums x.hs t.s weight weight)] ∧
      planOf x t bd .accept = [.copy (w 2) bd.state, .copy bd.state (w 0)] ∧
      planOf x t bd (.trial th) = [.lin (w 0) (denseTerms t bd bd.state x.hs (rat64 th))] ∧ goes (.trial th) (.call (.eventTrial th)) ∧
      planOf x t bd (.truncate th) = [.copy (w 2) bd.state,
        .lin bd.state (if rat64 th = 1 then (plus, w 2) :: sums x.hs t.s weight weight else denseTerms t bd (w 2) x.hs (rat64 th))] ∧
      (∀ v d, readVec s c core x bd (k (own i)) bd.n = (v, .ok d) →
        let nrm := newtonNorm bd d y
        (newtonNext m x.nrm nrm = .converged →
          afterComb s c core x t bd y (.update i m) = setCtx v c { x with nrm := some nrm, phase := .comb (.slot i) }) ∧
        (newtonNext m x.nrm nrm = .more →
          afterComb s c core x t bd y (.update i m) = setCtx v c { x with nrm := some nrm, phase := .comb (.newtonInput i (m + 1)) }) ∧
        (newtonNext m x.nrm nrm = .fail → afterComb s c core x t bd y (.update i m) = retries v (round64 (sumV [coef x.hs (1 / 2)])))) ∧
      (∀ u ks v z, readVecs s c core x bd ((List.range t.slots).map fun j => (plus, k j)) = (u, .ok ks) → readVec u c core x bd (w 0) bd.n = (v, .ok z) →
        let bad := ∃ e ∈ z, ∀ m p, decodeF bd.fmt e ≠ .fin m p
        let d := control (errNorm t bd x.hs (ks.map Prod.snd) y z) x.hs t.q
        (t.q = 0 → bad → afterComb s c core x t bd y .candidate = stopRun v c 0x07#8 0xFF#8) ∧
        (t.q = 0 → ¬ bad → afterComb s c core x t bd y .candidate = setCtx v c { x with phase := accepts }) ∧
        (t.q ≠ 0 → d.1 = true → afterComb s c core x t bd y .candidate = setCtx v c { x with h := d.2, phase := accepts }) ∧
        (t.q ≠ 0 → d.1 = false → afterComb s c core x t bd y .candidate = retries v d.2)) ∧
      (let x' := { x with accepted := x.accepted + 1#32, t := fin, first := false, prevRejected := false,
                          retained := some { ts := x.t, hs := x.hs, tEnd := fin, thetaMax := 0x3FF0000000000000#64 } }
       let past := x.limit ≠ 0#32 ∧ x.limit.toNat ≤ (x.accepted + 1#32).toNat
       (rat64 fin = rat64 x.tEnd → afterComb s c core x t bd y .accept = stopRun (setCtx s c x') c 0x02#8 0xFF#8) ∧
       (rat64 fin ≠ rat64 x.tEnd → past → afterComb s c core x t bd y .accept = stopRun (setCtx s c x') c 0x06#8 0xFF#8) ∧
       (rat64 fin ≠ rat64 x.tEnd → ¬ past → afterComb s c core x t bd y .accept = beginAttempt s c x' t)) ∧
      (let te := if rat64 th = 1 then fin else round64 (sumV [val64 x.t, coef x.hs (rat64 th)])
       afterComb s c core x t bd y (.truncate th) = stopRun (setCtx s c { x with
         accepted := x.accepted + 1#32, t := te, h := x.hOld, retained := some { ts := x.t, hs := x.hs, tEnd := te, thetaMax := th } }) c 0x03#8 x.event) ∧
      -- what a call names (R249)
      (let time := fun q : Rat => round64 (sumV [val64 x.t, coef x.hs q])
       let gam := if gamma i = 0 then 0#64 else round64 (sumV [coef x.hs (gamma i)])
       let at_ := time (rat64 (t.c.getD i 0#64))
       (∀ part, callInfo x t bd (.rhs i part m) =
           { routine := 0, stage := i, part := part, iter := m, t := at_, input := bd.input,
             output := k (if part = 1 then i else own i), outN := bd.n, g := gam }) ∧
       callInfo x t bd (.solve i m) =
           { routine := 1, stage := i, part := 0, iter := m, t := at_, input := bd.input, output := k (own i),
             outN := bd.n, g := gam } ∧
       callInfo x t bd .eventRef =
           { routine := 2, stage := 0, part := 0, iter := 0, t := x.t, input := bd.state, output := bd.event,
             outN := bd.m, g := 0#64 } ∧
       callInfo x t bd .eventCand =
           { routine := 2, stage := 0, part := 0, iter := 0, t := fin, input := w 0, output := bd.event,
             outN := bd.m, g := 0#64 } ∧
       callInfo x t bd (.eventTrial th) =
           { routine := 2, stage := 0, part := 0, iter := 0, t := time (rat64 th), input := w 0,
             output := bd.event, outN := bd.m, g := 0#64 }) ∧
      -- an attempt begins
      (let reach := inf64 x.h = true ∨ (if rat64 x.t < rat64 x.tEnd then rat64 x.tEnd ≤ rat64 x.t + rat64 x.h else rat64 x.t + rat64 x.h ≤ rat64 x.tEnd)
       ∀ (clamp : Bool), (clamp = true ↔ reach) →
        let hs := if clamp then rne64 (rat64 x.tEnd - rat64 x.t) else x.h
        let t1 := round64 (sumV [val64 x.t, coef hs 1])
        let x' := { x with hs := hs, hOld := x.h, clamped := clamp, nrm := none, ill := none }
        let still := inf64 t1 = false ∧ rat64 t1 = rat64 x.t
        (still → beginAttempt s c x t = stopRun (setCtx s c x') c 0x05#8 0xFF#8) ∧
        (¬ still → beginAttempt s c x t = setCtx s c { x' with phase :=
          if t.fsal = true ∧ x.first = false then (if x.prevRejected = true then next 0 else .comb .fsal) else stage 0 })) ∧
      -- a call has completed
      (let x' := { x with openIn := none, openOut := none, settling := [] }
       (∀ k, x.stopReq = true → afterCall s c core x t bd k = stopRun s c 0x04#8 0xFF#8) ∧
       (x.stopReq = false →
        (∀ part, m ≠ 0 → afterCall s c core x t bd (.rhs i part m) = setCtx s c { x' with phase := .comb (.residual i m) }) ∧
        afterCall s c core x t bd (.rhs i 2 0) = setCtx s c { x' with phase := .call (.rhs i 1 0) } ∧
        (∀ part, part ≠ 2 → afterCall s c core x t bd (.rhs i part 0) = setCtx s c { x' with phase := next i }) ∧
        afterCall s c core x t bd (.solve i m) = setCtx s c { x' with phase := .comb (.update i m) } ∧
        ∀ v es, readVec s c core x bd bd.event bd.m = (v, .ok es) →
          let g := eventValues bd es
          let ref := x.gref.getD []
          (∀ k ∈ [StepCall.eventRef, .eventCand, .eventTrial th], g.any nan64 = true → afterCall s c core x t bd k = stopRun v c 0x07#8 0xFF#8) ∧
          (g.any nan64 = false →
            afterCall s c core x t bd .eventRef = setCtx v c { x' with gref := some g, phase := .call .eventCand } ∧
            (lowestChange ref ref g = none → afterCall s c core x t bd .eventCand = setCtx v c { x' with
              gref := some ((List.range ref.length).map fun e => if zero64 (g.getD e 0#64) then ref.getD e 0#64 else g.getD e 0#64),
              gnew := g, phase := .comb .accept }) ∧
            ((lowestChange ref ref g).isSome = true → afterCall s c core x t bd .eventCand = setCtx v c (locate { x' with gnew := g }
              { ta := 0#64, tb := 0x3FF0000000000000#64, ga := ref, gb := g, wa := 0, wb := 0, lastB := none, trials := 0 })) ∧
            ∀ l, x.ill = some l → afterCall s c core x t bd (.eventTrial th) = setCtx v c (afterTrial x' l th g))))) ∧
    -- R259, R260: sign changes, and the search for the root
    (∀ r u v : Word64, changes r u v = true ↔ zero64 r = false ∧ zero64 u = false ∧ (zero64 v = true ∨ neg64 v ≠ neg64 u)) ∧
    (∀ (ref u v : List Word64) (e : Nat), lowestChange ref u v = some e ↔ e < ref.length ∧
      changes (ref.getD e 0#64) (u.getD e 0#64) (v.getD e 0#64) = true ∧
      ∀ d, d < e → changes (ref.getD d 0#64) (u.getD d 0#64) (v.getD d 0#64) = false) ∧
    ∀ (x : StepCtx) (l : Illinois) (tc : Word64) (gc : List Word64),
      let ref := x.gref.getD []
      let at_ := fun (v : List Word64) (e : Nat) => v.getD e 0#64
      let ends := l.trials ≥ 64 ∨ rat64 l.tb - rat64 l.ta ≤ 1 / 2 ^ 40
      let usable := fun e => e < ref.length ∧ changes (at_ ref e) (at_ l.ga e) (at_ l.gb e) = true ∧ fin64 (at_ l.ga e) = true ∧ fin64 (at_ l.gb e) = true
      let cut := fun e =>
        let wa := rat64 (at_ l.ga e) / 2 ^ l.wa
        let wb := rat64 (at_ l.gb e) / 2 ^ l.wb
        rne64 (rat64 l.ta + (rat64 l.tb - rat64 l.ta) * wa / (wa - wb))
      let mid := rne64 ((rat64 l.ta + rat64 l.tb) / 2)
      let tries := fun v : Word64 => ∃ u, rat64 u = rat64 v ∧ locate x l = { x with ill := some { l with trials := l.trials + 1 }, phase := .comb (.trial u) }
      let hit := fun e => e < ref.length ∧ changes (at_ ref e) (at_ l.ga e) (at_ gc e) = true
      (ends → locate x l = { x with ill := some l, event := BitVec.ofNat 8 ((lowestChange ref l.ga l.gb).getD 0), phase := .comb (.truncate l.tb) }) ∧
      (¬ ends → (∀ e, ¬ usable e) → tries mid) ∧
      (∀ e, ¬ ends → usable e → (∀ d, usable d → rat64 (cut e) ≤ rat64 (cut d)) →
        (rat64 l.ta < rat64 (cut e) ∧ rat64 (cut e) < rat64 l.tb → tries (cut e)) ∧
        (rat64 (cut e) ≤ rat64 l.ta ∨ rat64 l.tb ≤ rat64 (cut e) → tries mid)) ∧
      ((∃ e, hit e ∧ zero64 (at_ gc e) = false) → afterTrial x l tc gc = locate x
        { l with tb := tc, gb := gc, wa := if l.lastB = some true then l.wa + 1 else l.wa, wb := 0, lastB := some true }) ∧
      (∀ e, hit e → (∀ d, d < e → ¬ hit d) → (∀ d, hit d → zero64 (at_ gc d) = true) →
        afterTrial x l tc gc = { x with event := BitVec.ofNat 8 e, phase := .comb (.truncate tc) }) ∧
      ((∀ e, ¬ hit e) → afterTrial x l tc gc = locate x
        { l with ta := tc, ga := gc, wb := if l.lastB = some false then l.wb + 1 else l.wb, wa := 0, lastB := some false })

/-! ### The supervisor's words (R49, R52, R55, R57, R175, R263 to R265, R283, R300, R315, R316) -/

/-- R49, R52, R57, R175, R263 to R265, R283, R300, R315, R316: the supervisor's words. sys.launch holds while the queue is full or an
access of its lanes has not performed, traps on a bad record, and otherwise enters a grid with a copy of the record, its tokens and its
arguments, under the die's next number. sys.tlbinv is a write fence that ends with the covered translations out of every TLB of its
scope. sys.carve writes back and drops what leaves L1, and ends once no allocation touches the banks that a shrink takes. sys.halt leaves
nothing of a grid. sys.replay lets what the records of a number stopped go on, in saved teams too, sys.efail ends an engine operation that they stopped. sys.debug and
sys.slice set their tenant's state; the end of a slice starts the 2 ms of its drain. The operand names no die: log entry 45; what else the rules
leave open is read as log entry 39 says. -/
def Obligations.SupervisorWords : Prop :=
  ∀ (h : Head) (a : Triple) (b : Src) (k k2 : BitVec 8) (sp sc : BitVec 3),
    let K := fun (g : Group) (s1 : Bool) (n : BitVec 8) => g.kreg (g.slot s1) n.toNat
    (∀ i ∈ [Instr.sysLaunch h a b sp, .sysTlbinv h a k sc, .sysCarve h k, .sysHalt h k, .sysReplay h k, .sysEfail h k, .sysDebug h k k2,
      .sysSlice h k k2], Skips i) ∧
    -- sys.launch
    (∀ s gid s1 g sh s', Passes (.sysLaunch h a b sp) s gid s1 g sh s' → g.lanesAt s1 sh ≠ 0#96 →
      let i := Instr.sysLaunch h a b sp
      let die := if g.sup then (match b with | .ureg r => (K g s1 r).toNat | _ => 0) else g.die
      let bad := fun u : State => exec i s = .next (trapWord u gid s1 i sh 0x16#8 0#8 (trapLanes g (g.slot s1) sh) true)
      let full := released s' gid g.die (g.slot s1).uniMask 4 s'.seqNo = false ∨ 64 ≤ (s'.die die).queue.length
      (full → exec i s = .next (s'.modSlot gid s1 fun x => { x with wait := .other })) ∧
      (¬ full → ∀ u r, stepRead s' gid g (g.slot s1).uniMask (Space.ofCode sp) (readTriple g (g.slot s1) a) 40 = (u, .ok r) →
        (parseLaunch r = none → bad u) ∧
        ∀ rec nTok nArg argAddr v tb, parseLaunch r = some (rec, nTok, nArg, argAddr) →
          launchRead u gid g (g.slot s1).uniMask (Space.ofCode sp) (readTriple g (g.slot s1) a + 40#80) (16 * nTok) = (v, .ok tb) →
          let toks := (List.range nTok).filterMap fun j => parseToken ((tb.drop (16 * j)).take 16)
          (toks.length ≠ nTok ∨ launchFits rec = false → bad v) ∧
          (toks.length = nTok → launchFits rec = true → ∀ w ab, launchRead v gid g (g.slot s1).uniMask (Space.ofCode sp) argAddr (4 * nArg) = (w, .ok ab) →
            exec i s = .next (enterGrid (w.goesOn gid s1 sh g) die g.tenant { rec with tokens := toks, args := words32 ab })))) ∧
    (∀ (s : State) (die tenant : Nat) (r : LaunchRec), r.det = false → r.tokens = [] →
      let num : Word32 := BitVec.ofNat 5 die ++ (s.die die).counter
      let t := enterGrid s die tenant r
      ((t.die die).queue = (s.die die).queue ++ [num.toNat] ∧ (t.die die).counter = (s.die die).counter + 1#27) ∧
      (∃ gr, tget t.grids num.toNat = some gr ∧ gr.num = num ∧ gr.record = r ∧ gr.die = die ∧ gr.tenant = tenant ∧ gr.eligible = true ∧
        gr.placed = 0 ∧ gr.ended = 0 ∧ gr.tasks = 0) ∧
      (∀ n, n ≠ num.toNat → tget t.grids n = tget s.grids n) ∧ t.mem = s.mem ∧ t.groups = s.groups) ∧
    -- sys.tlbinv
    Completes (.sysTlbinv h a k sc) (fun _ _ _ _ _ m => m ≠ 0#96) (fun s gid s1 g sh _ =>
      let v := K g s1 k
      let log := (v.extractLsb' 0 7).toNat
      let t : TlbInv :=
        { fence := { id := s.seqNo, gid := gid, lanes := (g.slot s1).uniMask, succ := 0#4, scope := sc,
                     waits := fenceWaits s gid (g.slot s1).uniMask 4#4, more := [], counted := false, ctr := h.ctr, ends := none },
          tenant := g.tenant, lo := (readTriple g (g.slot s1) a).toNat / 2 ^ log * 2 ^ log, log := log,
          die := if sc = 3#3 then some (v.extractLsb' 8 5).toNat else none }
      let u := (s.goesOn gid s1 sh g).nextId.2.ctrUp gid h.ctr
      { u with tlbinvs := u.tlbinvs ++ [t] }) ∧
    (∀ (s : State) (id : Nat) (t : TlbInv), (s.tlbinvs.find? fun x => x.fence.id = id) = some t →
      (fenceMet s t.fence t.fence.waits = false → exec (.tlbinvComplete id) s = .next s) ∧
      (fenceMet s t.fence t.fence.waits = true →
        exec (.tlbinvComplete id) s = .next ((dropTranslations { s with tlbinvs := s.tlbinvs.filter fun x => x.fence.id ≠ id } t).ctrDown
          t.fence.gid t.fence.ctr))) ∧
    (∀ (s : State) (t : TlbInv) (d c : Nat) (va : Addr), c < 64 → d < 24 → t.die = none ∨ t.die = some d →
      (t.lo ≤ va.toNat ∧ va.toNat < t.lo + 2 ^ t.log → tlbHit ((dropTranslations s t).core d c).tlb t.tenant va = none ∧
        tlbHit ((dropTranslations s t).die d).tlb t.tenant va = none) ∧
      ∀ tenant, tenant ≠ t.tenant → tlbHit ((dropTranslations s t).core d c).tlb tenant va = tlbHit (s.core d c).tlb tenant va) ∧
    -- sys.carve
    Completes (.sysCarve h k) (fun s _ s1 g _ m =>
        m ≠ 0#96 ∧ (s.core (((K g s1 k).extractLsb' 0 11).toNat / 64) (((K g s1 k).extractLsb' 0 11).toNat % 64)).carveTo.isSome = true)
      (fun s gid s1 _ _ _ => s.modSlot gid s1 fun x => { x with wait := .other }) ∧
    Completes (.sysCarve h k) (fun s _ s1 g _ m =>
        m ≠ 0#96 ∧ (s.core (((K g s1 k).extractLsb' 0 11).toNat / 64) (((K g s1 k).extractLsb' 0 11).toNat % 64)).carveTo = none)
      (fun s gid s1 g sh _ =>
        let n := ((K g s1 k).extractLsb' 0 11).toNat
        let dest := ((K g s1 k).extractLsb' 16 4).toNat
        let u := leaveWays ((s.goesOn gid s1 sh g).ctrUp gid h.ctr) (n / 64) (n % 64) dest
        u.setCore (n / 64) (n % 64) { u.core (n / 64) (n % 64) with carveTo := some dest, carveBy := some (gid, h.ctr) }) ∧
    (∀ (s : State) (die core dest : Nat), ∀ e ∈ ((leaveWays s die core dest).core die core).l1, dest ≤ e.way) ∧
    (∀ (s : State) (n dest : Nat) (c : CoreSt), s.core (n / 64) (n % 64) = c → c.carveTo = some dest →
      let waits := dest < c.carve ∧ scratchAbove s (n / 64) (n % 64) (dest * 2 ^ 17) = true
      (waits → exec (.carveChangeComplete n) s = .next s) ∧
      (¬ waits → ∀ gid ctr, c.carveBy = some (gid, ctr) →
        exec (.carveChangeComplete n) s = .next ((s.setCore (n / 64) (n % 64) { c with carve := dest, carveTo := none, carveBy := none }).ctrDown gid ctr))) ∧
    -- sys.halt
    (∀ s gid s1 g sh s' gr, Passes (.sysHalt h k) s gid s1 g sh s' → g.lanesAt s1 sh ≠ 0#96 → tget s'.grids (K g s1 k).toNat = some gr →
      let n := (K g s1 k).toNat
      ∃ t, exec (.sysHalt h k) s = .next t ∧ tget t.grids n = none ∧ (∀ p ∈ t.groups, p.2.grid ≠ n) ∧ (∀ p ∈ t.teams, p.2.grid ≠ n) ∧
        (∀ x ∈ t.saved, x.grid ≠ n) ∧ (∀ p ∈ t.progs, p.2.grid ≠ n) ∧ (∀ c ∈ t.copies, c.grid ≠ n) ∧ (∀ x ∈ t.accs, x.grid ≠ n) ∧
        (∀ d ∈ t.deques, ∀ x ∈ d.2.tasks, x.grid ≠ n) ∧ n ∉ (t.die gr.die).queue) ∧
    -- sys.replay and sys.efail
    Completes (.sysReplay h k) (fun s _ _ g _ m => m ≠ 0#96 ∧ (∀ x ∈ s.grids, x.2.tokenStops = []) ∧ (∀ q ∈ s.quads, q.2.loads = []) ∧
        (∀ x ∈ s.groups, x.2.parkedAll = none) ∧ g.parkedAll = none)
      (fun s gid s1 g sh _ =>
        let seq := K g s1 k
        let free := fun (x : Option (Nat × Word32)) => match x with | some r => if r.2 = seq then none else some r | none => none
        let u := s.goesOn gid s1 sh g
        { u with
          groups := u.groups.map fun (x : Nat × Group) => (x.1, x.2.mapSlots (Slot.replay u.now.toNat seq)),
          progs := u.progs.map fun (p : Nat × Prog) => (p.1, { p.2 with stopped := free p.2.stopped }),
          copies := u.copies.map fun (c : CopyOp) => { c with stopped := free c.stopped },
          ctxs := u.ctxs.map fun (c : Nat × StepCtx) => (c.1, { c.2 with stopped := free c.2.stopped }),
          saved := u.saved.map (Saved.replay u.now.toNat seq) }) ∧
    Completes (.sysReplay h k) (fun _ _ _ _ _ m => m ≠ 0#96) (fun s gid s1 g sh _ => replayAll (s.goesOn gid s1 sh g) (K g s1 k)) ∧
    (∀ (now : Nat) (seq : Word32) (sl : Slot) (d : Nat), sl.wait = .parked d seq →
      Slot.replay now seq sl =
        if sl.req.isSome = true then { sl with wait := .pending, readyAt := now } else { sl with wait := .ready, unfinished := 0#96, readyAt := now }) ∧
    (∀ (s : State) (seq : Word32) (gid d : Nat) (g : Group), s.groups = [(gid, g)] → g.parkedAll = some (d, seq) →
      replayGroups s seq = stackTransfers (s.setGroup gid { g with parkedAll := none }) gid g.owed) ∧
    Completes (.sysEfail h k) (fun _ _ _ _ _ m => m ≠ 0#96) (fun s gid s1 g sh _ => efailAll (s.goesOn gid s1 sh g) (K g s1 k)) ∧
    (∀ (s : State) (seq : Word32), s.saved = [] →
      let hit := fun (x : Option (Nat × Word32)) => ∃ d, x = some (d, seq)
      (∀ p ∈ s.progs, ¬ hit p.2.stopped) →
      ((∀ c ∈ s.copies, ¬ hit c.stopped) → (∀ x ∈ s.ctxs, ¬ hit x.2.stopped) → efailAll s seq = s) ∧
      (∀ c, s.copies = [c] → hit c.stopped → (∀ x ∈ s.ctxs, ¬ hit x.2.stopped) → efailAll s seq = copyFault s c 0x42#8 c.stopVa) ∧
      ∀ x, (∀ c ∈ s.copies, ¬ hit c.stopped) → s.ctxs = [x] → hit x.2.stopped → efailAll s seq = stopRun s x.1 0x09#8 0xFF#8) ∧
    -- sys.debug and sys.slice
    Completes (.sysDebug h k k2) (fun _ _ _ _ _ m => m ≠ 0#96) (fun s gid s1 g sh _ =>
      let t := (K g s1 k).toNat
      (s.goesOn gid s1 sh g).setTenant t { s.tenant t with debug := (K g s1 k2).getLsbD 0 }) ∧
    Completes (.sysSlice h k k2) (fun _ _ _ _ _ m => m ≠ 0#96) (fun s gid s1 g sh _ =>
      let t := (K g s1 k).toNat
      let begins := (K g s1 k2).getLsbD 0
      (s.goesOn gid s1 sh g).setTenant t { s.tenant t with inSlice := begins,
                                                            drainAt := if begins then none else some (s.now.toNat + 2400000) })

/-! ### Issuing, rotation, the fault queue and the walker (R8 to R11, R48, R49, R53, R141, R149, R271, R300) -/

/-- R8 to R11, R48, R49, R53, R149, R271: what comes between words. A header of a class that its agent does not execute is illegal; otherwise the
clause begins once the counters that it waits for are zero and its words translate, with fresh latches. Where no slot holds a quadrant's port, it goes to the slot
that has waited longest among those that have waited for 256 cycles, of two of one group the one that issued less recently; otherwise to the group
that issued last where its clause keeps
the port; otherwise to none of lower priority, or of equal priority and younger. A slot that has stopped inside its clause holds the port no
more, and is chosen again first. A rotation pushes the path of the slot whose turn
it is, or of the other where that is blocked or sleeps, and gives it the bottom-most one, without a trap (the model's choice, log entry 41). A fault record that found the ring full is written once there is space. A walk caches the
leaf that it finds and nothing when it fails; an engine whose address does not translate stops with a record. Each of these events
completes in every state: where its conditions do not hold it changes nothing. Log entries 7, 11 and 59 say how the device translates for itself,
which lanes a faulting fetch names, and what its record holds. -/
def Obligations.IssuingAndWalks : Prop :=
  (∀ (cls : BitVec 3) (cnt : BitVec 4) (wait : BitVec 3) (yld : Bool),
    let i := Instr.clauseIssue cls cnt wait yld
    (∀ (s : State) gid s1 (g : Group) x, s.cur = .slot gid s1 → s.group? gid = some g → encode i = some x →
      let sl := g.slot s1
      let mine := if g.sup = true then cls = 1#3 else cls.toNat ≤ 1
      let past := ∀ n : Nat, n < 3 → wait.getLsbD n = true → g.ctr (BitVec.ofNat 2 (n + 1)) = 0
      (¬ mine → exec i s = .next (rawTrap s gid s1 0x01#8 sl.mask x)) ∧
      (mine → ¬ past → exec i s = .next s) ∧
      (mine → past → ∀ u, clauseFetch s g (sl.pc + 8#80) (cnt.toNat + 1) = (u, .ok ()) →
        exec i s = .next (u.setGroup gid (g.countClause.modSlot s1 fun sl =>
          { sl with header := sl.pc, pc := sl.pc + 8#80, cls := cls, left := cnt.toNat + 1, pos := 0, fresh := 0#8, yld := yld, wait := .ready }))) ∧
      (mine → past → ∀ u c va, clauseFetch s g (sl.pc + 8#80) (cnt.toNat + 1) = (u, .error (c, va)) →
        exec i s = .next (parkSlot u gid s1 va c 3#8 sl.mask)) ∧
      ∃ t, exec i s = .next t) ∧
    ∀ (s : State) pid p, s.cur = .prog pid → s.prog? pid = some p →
      (cls ≠ p.cls → exec i s = .next (progFault s pid dIllegalHeader 0#80)) ∧
      (cls = p.cls → exec i s = .next (s.setProg pid { p with header := p.pc, pc := p.pc + 8#80, left := cnt.toNat + 1 }))) ∧
  (∀ (s : State) (quad : Nat),
    let cs := candidates s quad
    let q := (tget s.quads quad).getD Quad.reset
    (portHolder s quad ≠ none ∨ cs = [] → exec (.issueChoice quad) s = .next s) ∧
    (portHolder s quad = none → cs ≠ [] → ∃ c ∈ cs,
      exec (.issueChoice quad) s = .next { s with quads := tset s.quads quad { q with last := some (c.gid, c.s1), keep := true, holds := true } } ∧
      (∀ d ∈ cs, 256 ≤ d.waited → 256 ≤ c.waited ∧ d.waited ≤ c.waited ∧
        (d.waited = c.waited → d.gid = c.gid → d.back = c.back → c.second = false ∨ d.second = true)) ∧
      ((∀ d ∈ cs, d.waited < 256) →
        let keeps := fun d : Candidate => ∃ l g, q.last = some l ∧ q.keep = true ∧ s.group? l.1 = some g ∧ (g.slot l.2).yld = false ∧ d.gid = l.1
        ((∃ d ∈ cs, keeps d) → keeps c) ∧
        ∀ d ∈ cs, (keeps d ∨ ∀ e ∈ cs, ¬ keeps e) →
          d.prio ≤ c.prio ∧ (c.prio = d.prio → (c.back = true → d.back = true) ∧
            (c.back = d.back → c.born ≤ d.born ∧ (c.born = d.born → c.gslot ≤ d.gslot)))))) ∧
  (∀ (s : State) (quad : Nat) (l : Nat × Bool), portHolder s quad = some l ↔
    let q := (tget s.quads quad).getD Quad.reset
    q.last = some l ∧ q.holds = true ∧ slotReady s l.1 l.2 = true ∧ ∃ g, s.group? l.1 = some g ∧ (g.slot l.2).left ≠ 0) ∧
  (∀ (s : State) gid s1,
    (∀ g, s.group? gid = some g → slotReady s gid s1 = true → (g.slot s1).readyAt + 256 ≤ s.now.toNat →
      exec (.readyWaitExpiry gid s1) s = .next (s.setQuad g.die g.core g.quad { s.quad g.die g.core g.quad with keep := false })) ∧
    (∀ g, s.group? gid = some g → ¬ (g.slot s1).readyAt + 256 ≤ s.now.toNat → exec (.readyWaitExpiry gid s1) s = .next s) ∧
    (s.group? gid = none ∨ slotReady s gid s1 = false → exec (.readyWaitExpiry gid s1) s = .next s)) ∧
  (∀ (s : State) gid (g : Group), s.group? gid = some g →
    let s1 := rotationTurn s g
    let stuck := fun b : Bool => (g.slot b).owned = 0#96 ∨ (g.slot b).wait ≠ .ready ∨ s.now.toNat < (g.slot b).sleep
    let due := 256 ≤ g.rotCount ∧ 3 ≤ g.paths ∧ slotRuns s g s1 = true ∧ (g.slot s1).wait = .ready ∧ (g.slot s1).left = 0 ∧
      (32 ≤ g.stack.length → entryFree s g.die g.core = true)
    (stuck g.rotTurn ∧ ¬ stuck (!g.rotTurn) → s1 = !g.rotTurn) ∧ (¬ stuck g.rotTurn ∨ stuck (!g.rotTurn) → s1 = g.rotTurn) ∧
    (¬ due → exec (.pathRotation gid) s = .next s) ∧
    (due → ∀ u y,
      (readBelow s gid (List.range (g.stack.length - 32)) = (u, false) → exec (.pathRotation gid) s = .next u) ∧
      (readBelow s gid (List.range (g.stack.length - 32)) = (u, true) → u.group? gid = some y →
        (takeBottom y = none → 32 < g.stack.length ∧ exec (.pathRotation gid) s = .next u) ∧
        ∀ e st, takeBottom y = some (e, st) → exec (.pathRotation gid) s = .next (u.putPaths gid
          (Group.setPath { y with stack := pathEntry y (g.slot s1).pc (g.slot s1).owned ((g.slot s1).owned &&& ~~~(g.slot s1).mask) true :: st,
                                  rotCount := y.rotCount - 256, rotTurn := !s1 }
            s1 { pathSlot u y e.pathPc e.path (e.idle &&& e.path) with rotated := true }))))) ∧
  (∀ (s : State) (die : Nat),
    ((s.die die).mfqtail + 1#12 = (s.die die).mfqhead ∨ (s.die die).mfqWait = [] → exec (.faultQueueSpace die) s = .next s) ∧
    ∀ r u, (s.die die).mfqtail + 1#12 ≠ (s.die die).mfqhead → (s.die die).mfqWait = [r] →
      let place := devKeys s die 0 ((s.die die).mfqbase + BitVec.ofNat 80 (32 * (s.die die).mfqtail.toNat)) 32 .write
      (place = (u, none) → exec (.faultQueueSpace die) s = .next s) ∧
      ∀ ks, place = (u, some ks) →
        let v := storeHome u 0 0 ks r.bytes
        exec (.faultQueueSpace die) s = .next (v.setDie die { v.die die with mfqtail := (v.die die).mfqtail + 1#12, mfqWait := [] })) ∧
  (∀ (s : State) (who : Agent) (va : Addr) (kind : AccessKind) die core tenant sup,
    (match who with
     | .slot gid _ => ∃ g, s.group? gid = some g ∧ die = g.die ∧ core = g.core ∧ tenant = g.tenant ∧ sup = g.sup
     | .prog pid => ∃ p, s.prog? pid = some p ∧ die = p.die ∧ core = p.core ∧ tenant = p.tenant ∧ sup = false
     | .none => False) →
    let held := (tlbHit (s.core die core).tlb tenant va).isSome = true ∨ (tlbHit (s.die die).tlb tenant va).isSome = true
    (held → exec (.tlbWalk who va kind) s = .next s) ∧
    (¬ held → ∃ t, exec (.tlbWalk who va kind) s = .next t ∧
      (∀ c, (walk s die core tenant sup va kind).2 = .error c → t = s) ∧
      (∀ e, (walk s die core tenant sup va kind).2 = .ok e → e.tenant = tenant ∧ e ∈ (t.core die core).tlb ∧ e.low.getLsbD 6 = true ∧
        t.groups = s.groups ∧ t.progs = s.progs ∧ t.stores = s.stores))) ∧
  (∀ (s : State) (id : Nat) (p : Prog), (s.copies.find? fun c => c.id = id) = none → s.prog? id = some p → progReady s id = true →
    (∀ u c va, fetchAt s p.die p.core p.tenant false p.pc = (u, .error (c, va)) → exec (.engineTranslationStop id) s = .next (stopProg u id va c)) ∧
    ∀ u x, fetchAt s p.die p.core p.tenant false p.pc = (u, .ok x) → exec (.engineTranslationStop id) s = .next s) ∧
  (∀ (s : State) (id : Nat) (c : CopyOp), (s.copies.find? fun x => x.id = id) = some c → c.moved = false → c.stopped = none →
    stillPending s c.after = false → c.idxs.isSome = true → c.kind.reads = true → c.data = none →
    ∀ u f va, moveKeys s c c.sspace .read (c.moves.map Prod.snd) = (u, .error (.inr (f, va))) →
      exec (.engineTranslationStop id) s = .next (copyStop u c f va)) ∧
  -- every event that is no word completes, whatever the state
  ∀ (s : State) (n m r slice way : Nat) (b : Bool) (who : Agent) (va : Addr) (k : AccessKind), ∀ i ∈
    [Instr.issueChoice n, .readyWaitExpiry n b, .pathRotation n, .faultQueueSpace n, .tlbWalk who va k, .engineTranslationStop n,
     .pendingRetry n b, .memAccessComplete n, .storeReachHome n, .leaseExpiry n, .leaseCopyDrop n m, .oabAdmit n, .floorAdvance n,
     .carveChangeComplete n, .claimGrant n, .tagExpiry n, .sleepExpiry n b, .futWaitWake n b, .ringWaitResume n b, .cpyComplete n,
     .tlbinvComplete n, .tableBankLoad n, .matrixOpStart n, .rowGroupDone n, .engineProgramStart n, .engineProgramEnd n,
     .engineFaultDelivery n b, .stepCallDeliver n, .stepCombinationDone n, .tokenPoll n, .teamPlacement n, .gridComplete n,
     .timeSliceSave n, .tenantDrainDeadline n, .saveSlotRetry n, .tgaFormGroup n, .stealRequest n, .stealServe n, .stealRestart n,
     .gatheredGroupSave n, .gatheredGroupRestore n, .softErrorRewind n m r, .l2TagParityFail n m slice way b, .waySweepDone n slice way,
     .bucketRefill n, .energyAccount n, .fabricAck n, .fabricRetransmit n, .partcmdQuadrants n, .partcmdBanks n, .partcmdL2Ways n,
     .partcmdBuckets n, .lazyInstructionComplete n, .copyOperationComplete n], ∃ t, exec i s = .next t

/-! ### Grids, teams and tasks (R138, R139, R150 to R152, R265 to R269, R273 to R276, R283 to R285) -/

/-- R138, R139, R150 to R152, R265 to R269, R273 to R276, R283 to R285: the dies' schedulers. A poll, every 1 µs, makes a grid eligible once each wait
token is at least its target; a token that does not translate has a record and is read again after its replay. Placement goes by priority and then
queue order, passes tenants outside their slice, brings a grid's saved teams back first, and stops at a team that fits nowhere; a team's groups start
at the entry with all lanes and the arguments in k0 upwards. A grid that has ended and is quiet adds 1 to its signal tokens and leaves the queue, and
every queue reads its tokens again. A team that has waited for a quantum makes a resident one go, of no higher priority and resident for a quantum,
the lowest and then the longest, and takes its room. A save waits until everything of its groups is over, and for a slot. The Task Gatherer forms a
group of the oldest task and up to 95 of its entry. A thief asks one victim at a time; a steal takes from the tail; losers see the deque as empty.

The model's own choices: the moment at which claims are compared, and a version served once (log entry 36); what a gathered group watches
and when a wait counts as blocked (37); with whose rights tokens are read (39); where a gathered group returns, and in what order saved teams do
(40); the place of scratchpad ranges (48); how a thief's Spinel entry bounds what it takes (36). -/
def Obligations.GridsTeamsAndTasks : Prop :=
  -- tokens
  (∀ (s : State) (die : Nat), s.now.toNat < (s.die die).polledAt + 1200 → exec (.tokenPoll die) s = .next s) ∧
  (∀ (s : State) (die : Nat), (s.die die).polledAt + 1200 ≤ s.now.toNat →
    let u := s.setDie die { s.die die with polledAt := s.now.toNat }
    exec (.tokenPoll die) s = .next ((s.grids.filter fun x => x.2.die = die).foldl (fun v x => pollGrid v x.1) u)) ∧
  (∀ (s : State) (k : Nat) (gr : Grid), tget s.grids k = some gr →
    (gr.eligible = true → pollGrid s k = s) ∧
    (gr.eligible = false → ∀ v all new, readTokens s gr.die gr.tenant gr.tokenStops 0 gr.record.tokens = (v, all, new) →
      (all = true → pollGrid s k = v.modGrid k fun g => { g with eligible := true, waitSince := v.now.toNat }) ∧
      (all = false → pollGrid s k = v.modGrid k fun g => { g with tokenStops := g.tokenStops ++ new }))) ∧
  (∀ (s : State) (die tenant n : Nat) (stops : List (Nat × Word32)) (t : Token) (r : List Token) (u : State),
    let rest := fun v => readTokens v die tenant stops (n + 1) r
    let bytes := (List.range 4).map fun i => t.addr + BitVec.ofNat 80 i
    readTokens s die tenant stops n [] = (s, true, []) ∧
    (t.signal = true → readTokens s die tenant stops n (t :: r) = rest s) ∧
    (t.signal = false → (tget stops n).isSome = true → readTokens s die tenant stops n (t :: r) = ((rest s).1, false, (rest s).2.2)) ∧
    (t.signal = false → tget stops n = none →
      (∀ ks, xlateBytes s die 0 tenant true .read bytes = (u, .ok ks) → readTokens s die tenant stops n (t :: r) =
        ((rest u).1, decide (t.target.toNat ≤ natOfBytes (ks.map (homeByteFrom u die))) && (rest u).2.1, (rest u).2.2)) ∧
      (∀ c va v seq, xlateBytes s die 0 tenant true .read bytes = (u, .error (c, va)) →
        appendRecord u die { addr := va, cause := c.code, kind := 5#8, tenant := tenant, core := 0, place := 0#8, mask := 0#96, seq := 0#32 } = (v, seq) →
        readTokens s die tenant stops n (t :: r) = ((rest v).1, false, (n, seq) :: (rest v).2.2)))) ∧
  -- placement
  (∀ (s : State) (die : Nat),
    (let u := placeSliced s die; exec (.teamPlacement die) s = .next (placeGrids u (placementOrder u die))) ∧
    (placementOrder s die).Pairwise (fun a b => b.2.record.prio ≤ a.2.record.prio) ∧
    (∀ x, x ∈ placementOrder s die ↔ x.1 ∈ (s.die die).queue ∧ tget s.grids x.1 = some x.2 ∧ x.2.eligible = true ∧ x.2.record.prio < 4) ∧
    (∀ p, p < 4 → ((placementOrder s die).filter fun x => x.2.record.prio = p) =
      ((s.die die).queue.filterMap fun k => (tget s.grids k).map fun g => (k, g)).filter fun x => x.2.record.prio = p && x.2.eligible)) ∧
  (∀ (s : State) (k : Nat) (gr : Grid) (r : List (Nat × Grid)),
    placeGrids s [] = s ∧
    ((s.tenant gr.tenant).inSlice = false → placeGrids s ((k, gr) :: r) = placeGrids s r) ∧
    ((s.tenant gr.tenant).inSlice = true → ∀ u back, restoreAll s (savedOf s k gr) = (u, back) →
      (back = false → placeGrids s ((k, gr) :: r) = u) ∧
      (back = true → ∀ v all, placeNew u k gr.record.teams = (v, all) → placeGrids s ((k, gr) :: r) = if all = true then placeGrids v r else v))) ∧
  (∀ (s : State) (x : Saved) (r : List Saved),
    restoreAll s [] = (s, true) ∧ (restoreSaved s x = none → restoreAll s (x :: r) = (s, false)) ∧
    (∀ u, restoreSaved s x = some u → restoreAll s (x :: r) = restoreAll u r)) ∧
  (∀ (s : State) (k : Nat) (gr : Grid),
    let num := fun x : Saved => match x.team with | some t => t.num | none => 65535
    ((s.saved.map Saved.key).Nodup → (∀ x ∈ s.saved, x.drained = false) →
      (∀ x, x ∈ savedOf s k gr ↔ x ∈ s.saved ∧ x.grid = k ∧ x.watch = none) ∧ (savedOf s k gr).Pairwise fun a b => num a ≤ num b) ∧
    ∀ y, (s.saved.find? fun x => x.drained && x.waits && x.tenant = gr.tenant && x.die = gr.die) = some y → y.grid ≠ k →
      ∀ x ∈ savedOf s k gr, x.drained = false) ∧
  (∀ (s : State) (k n : Nat) (gr : Grid), tget s.grids k = some gr →
    let over' := gr.record.teams ≤ gr.placed ∨ ∃ x ∈ s.saved, x.drained = true ∧ x.tenant = gr.tenant
    (over' → placeNew s k (n + 1) = (s, true)) ∧
    (¬ over' → (grantDs s k gr = none → placeNew s k (n + 1) = (s, false)) ∧
      ∀ u, grantDs s k gr = some u → (placeTeam u k gr = none → placeNew s k (n + 1) = (u, false)) ∧
        ∀ v, placeTeam u k gr = some v → placeNew s k (n + 1) = placeNew v k n)) ∧
  (∀ (s : State) (k : Nat) (gr : Grid), tget s.grids k = some gr →
    let n := gr.record.dscratch
    let free := fun b : Nat => b + n ≤ 2 ^ 25 ∧ ∀ a ∈ s.dsAlloc, a.1 = gr.die → meets b n a.2.1 a.2.2.1 = false
    (gr.ds.isSome = true ∨ n = 0 → grantDs s k gr = some s) ∧
    (gr.ds = none → n ≠ 0 → (grantDs s k gr = none → ∀ i, i < 8192 → ¬ free (4096 * i)) ∧
      ∀ u, grantDs s k gr = some u → ∃ i, i < 8192 ∧ free (4096 * i) ∧ (∀ j, j < i → ¬ free (4096 * j)) ∧
        u.dsAlloc = s.dsAlloc ++ [(gr.die, 4096 * i, n, k)] ∧ tget u.grids k = some { gr with ds := some (4096 * i) })) ∧
  (∀ (s : State) (k : Nat) (gr : Grid) (v : State), placeTeam s k gr = some v → gr.record.args.length ≤ 32 →
    ∃ clu bases t, findCluster s gr (newDemands gr) = some (clu, bases) ∧ clu < 8 ∧
      (∀ c, c < clu → clusterFits s gr c (newDemands gr) = none) ∧ clusterFits s gr clu (newDemands gr) = some bases ∧
      tget v.teams s.seqNo = some t ∧ t.groups = (List.range gr.record.groups).map (fun i => s.seqNo + 1 + i) ∧ t.clu = clu ∧ t.scBase = bases ∧
      t.num = gr.placed ∧ t.grid = k ∧
      ∀ i, i < gr.record.groups → ∃ g, v.group? (s.seqNo + 1 + i) = some g ∧ g.team = some s.seqNo ∧ g.die = gr.die ∧
        g.core = 8 * clu + i % 8 ∧ g.quad = i / 8 % 4 ∧ g.teamNo = BitVec.ofNat 32 gr.placed ∧ g.index = BitVec.ofNat 32 i ∧
        g.role = i % gr.record.roles ∧ g.h = gr.record.budgets.getD (i % gr.record.roles) 1 - 1 ∧
        (∀ l, lcoreOf gr gr.die (8 * clu + i % 8) = some l → g.lcore = l) ∧ g.s0.pc = gr.record.entry ∧ g.s0.owned = BitVec.allOnes 96 ∧
        g.s0.mask = BitVec.allOnes 96 ∧ g.s1.owned = 0#96 ∧
        (∀ n, n < gr.record.args.length → g.k.extractLsb' (32 * n) 32 = gr.record.args.getD n 0#32) ∧
        ∀ l : Lane, g.slices[l] = 0#2048 ∧ g.lidx[l] = BitVec.ofNat 128 (((gr.placed * gr.record.groups + i) * 96 + l.val) * 2 ^ 96)) ∧
  -- the end of a grid
  (∀ (s : State) (k : Nat) (gr : Grid), tget s.grids k = some gr →
    let past := gr.eligible = true ∧ gr.tokenStops = [] ∧ gridEnded s k gr = true ∧ gridQuiet s k gr = true
    (¬ past → exec (.gridComplete k) s = .next s) ∧
    (past → ∀ u,
      (∀ seq, signalTokens s k gr.die gr.tenant (gr.record.tokens.drop gr.signalled) = (u, some seq) →
        exec (.gridComplete k) s = .next (u.modGrid k fun g => { g with tokenStops := [(g.signalled, seq)] })) ∧
      (signalTokens s k gr.die gr.tenant (gr.record.tokens.drop gr.signalled) = (u, none) →
        let v := { u.setDie gr.die { u.die gr.die with queue := (u.die gr.die).queue.filter fun x => x ≠ k } with
          grids := tdel u.grids k, dsAlloc := u.dsAlloc.filter fun a => a.2.2.2 ≠ k, progs := u.progs.filter fun p => p.2.grid ≠ k }
        exec (.gridComplete k) s = .next (v.grids.foldl (fun w x => pollGrid w x.1) v)))) ∧
  (∀ (s : State) (k die tenant : Nat) (t : Token) (u : State) (ks : List Nat),
    let count := fun v : State => v.modGrid k fun g => { g with signalled := g.signalled + 1 }
    (t.signal = false → signalTokens s k die tenant [t] = (count s, none)) ∧
    (t.signal = true → xlateBytes s die 0 tenant true .atomic ((List.range 4).map fun i => t.addr + BitVec.ofNat 80 i) = (u, .ok ks) →
      signalTokens s k die tenant [t] =
        (count (storeHome u 0 tenant ks (toBytes ((ofBytes (ks.map (homeByte u)) 32 : Word32) + 1#32) 4)), none))) ∧
  -- time slices, drains and saves
  (∀ (s : State) (die : Nat),
    (∀ v k x, (s.die die).slicing = some (v, k, x) →
      let u := placeSliced (trySave s v) die
      (saveStalls u v = false → exec (.timeSliceSave die) s = .next u) ∧
      (saveStalls u v = true → exec (.timeSliceSave die) s = exec (.timeSliceSave die) (u.setDie die { u.die die with slicing := none }))) ∧
    ((s.die die).slicing = none →
      let ws := waitingTeams s (placementOrder s die)
      let quantum := (s.die die).quantum.toNat * 1200
      (sliceChoice s die ws = none → exec (.timeSliceSave die) s = .next s) ∧
      ∀ w v, sliceChoice s die ws = some (w, v) →
        (let u := s.setDie die { s.die die with slicing := some (v, w.grid, w.saved.map Saved.key) }
         exec (.timeSliceSave die) s = .next (placeSliced (trySave (beginSave u v) v) die)) ∧
        w ∈ ws ∧ w.since + quantum ≤ s.now.toNat ∧ ∃ gr, tget s.grids w.grid = some gr ∧
          let prio := fun t : Team => match tget s.grids t.grid with | some g => g.record.prio | none => 0
          let may := fun (p : Nat × Team) => p.2.die = die ∧ prio p.2 ≤ gr.record.prio ∧ p.2.placedAt + quantum ≤ s.now.toNat ∧
            (∀ gid ∈ savedGids s p.1, ∀ g, s.group? gid = some g → g.saving = false) ∧ w.fits (withoutTeam s p.1) gr p.2.clu = true
          ∃ t, (v, t) ∈ s.teams ∧ may (v, t) ∧
            ∀ p ∈ s.teams, may p → prio t < prio p.2 ∨ (prio t = prio p.2 ∧ t.placedAt ≤ p.2.placedAt))) ∧
  (∀ (s : State) (tenant : Nat),
    let t := s.tenant tenant
    (t.drainAt = none ∨ (∃ n, t.drainAt = some n ∧ s.now.toNat < n) → exec (.tenantDrainDeadline tenant) s = .next s) ∧
    (∀ n, t.drainAt = some n → n ≤ s.now.toNat →
      let u := s.setTenant tenant { t with drainAt := none }
      ∃ keys : List Nat, exec (.tenantDrainDeadline tenant) s = .next (keys.foldl (fun v k => trySave (beginSave v k) k) u) ∧ keys.Nodup ∧
        ∀ k, k ∈ keys ↔ ∃ p ∈ s.groups, p.2.tenant = tenant ∧ p.2.sup = false ∧ k = p.2.team.getD p.1) ∧
    ∃ keys : List Nat, exec (.saveSlotRetry tenant) s = .next (keys.foldl trySave s) ∧ keys.Nodup ∧
      ∀ k, k ∈ keys ↔ ∃ p ∈ s.groups, p.2.tenant = tenant ∧ p.2.saving = true ∧ k = p.2.team.getD p.1) ∧
  (∀ (s : State) (die : Nat),
    ((s.die die).slicing = none → placeSliced s die = s) ∧
    ∀ v k key, (s.die die).slicing = some (v, k, key) →
      (savedGids s v ≠ [] → placeSliced s die = s) ∧
      (savedGids s v = [] →
        let u := s.setDie die { s.die die with slicing := none }
        ((∀ gr, tget s.grids k = some gr → (s.tenant gr.tenant).inSlice = false) → placeSliced s die = u) ∧
        ∀ gr, tget s.grids k = some gr → (s.tenant gr.tenant).inSlice = true →
          (key = none → placeSliced s die = (placeNew u k 1).1) ∧
          ∀ n, key = some n → ((∀ x ∈ s.saved, x.key ≠ n) → placeSliced s die = u) ∧
            ∀ x, (s.saved.find? fun y => y.key = n) = some x → placeSliced s die = (restoreSaved u x).getD u)) ∧
  (∀ (w : Waiting) (s : State) (gr : Grid) (clu : Nat), w.saved = none →
    w.fits s gr clu = ((grantDs s w.grid gr).isSome && (clusterFits s gr clu (newDemands gr)).isSome)) ∧
  (∀ (s : State) (key : Nat), (saveSettled s key = false → trySave s key = s) ∧
    (∀ (g : Group) (gr : Grid), saveSettled s key = true → tget s.teams key = none → s.group? key = some g → g.team = none →
      g.stack = [] → g.owed = [] → g.parkedAll = none → g.region = none → tget s.grids g.grid = some gr →
      let s0 := l1FlushGroup (chipTransfers s key true) key
      (∀ u, findSlot s0 g.die g.tenant (recordSize 0 0 1) = (u, none) → trySave s key = stallSave u key) ∧
      (∀ u a, findSlot s0 g.die g.tenant (recordSize 0 0 1) = (u, some a) →
        ∃ x g', x ∈ (trySave s key).saved ∧ x.key = key ∧ x.slotAddr = a ∧ x.team = none ∧ x.groups = [(key, g')] ∧ x.watch = g.watch ∧
          x.tenant = g.tenant ∧ x.grid = g.grid ∧ x.drained = !(s.tenant g.tenant).inSlice ∧ g'.saving = false ∧ g'.tasks = g.tasks ∧
          g'.lidx = g.lidx ∧ g'.k = g.k ∧ g'.slices = g.slices ∧ g'.s0 = g.s0 ∧ g'.s1 = g.s1 ∧ (trySave s key).group? key = none))) ∧
  (∀ (s : State) (gid : Nat) (g : Group), s.group? gid = some g →
    (groupStuck s gid g = false → exec (.gatheredGroupSave gid) s = .next (s.setGroup gid { g with blockedAt := none })) ∧
    (groupStuck s gid g = true → g.blockedAt = none →
      exec (.gatheredGroupSave gid) s = .next (s.setGroup gid { g with blockedAt := some s.now.toNat })) ∧
    (groupStuck s gid g = true → ∀ n, g.blockedAt = some n →
      let ok := n + 4096 ≤ s.now.toNat ∧ coreCrowded s g = true ∧ saveSettled s gid = true
      let ks := waitKeys s g g.s0 ++ waitKeys s g g.s1
      (¬ ok → exec (.gatheredGroupSave gid) s = .next s) ∧
      (ok → exec (.gatheredGroupSave gid) s =
        .next (trySave (beginSave (s.modGroup gid fun y => { y with watch := some (ks.map fun k => (k, homeByte s k)) }) gid) gid)))) ∧
  (∀ (s : State) (key : Nat) (x : Saved), (s.saved.find? fun y => y.key = key) = some x →
    let ok := x.team = none ∧ watchChanged s x = true ∧ (s.tenant x.tenant).inSlice = true
    (¬ ok ∨ restoreSaved s x = none → exec (.gatheredGroupRestore key) s = .next s) ∧
    (∀ t, ok → restoreSaved s x = some t → exec (.gatheredGroupRestore key) s = .next t)) ∧
  (∀ (s : State) (x : Saved), (x.watch = none → watchChanged s x = false) ∧
    ∀ w, x.watch = some w → ((∃ p ∈ w, homeByte s p.1 ≠ p.2) → watchChanged s x = true) ∧
      ((∀ p ∈ w, homeByte s p.1 = p.2) → (∀ g ∈ x.groups, g.2.s0.wait ≠ .spawn ∧ g.2.s1.wait ≠ .spawn) → watchChanged s x = false)) ∧
  -- tasks
  (∀ (s : State) (lcore : Nat),
    let here := (s.deque lcore).tasks
    let mine := fun x : Task => ∃ y, tget s.grids x.grid = some y ∧ (s.tenant y.tenant).inSlice = true
    (here = [] → exec (.tgaFormGroup lcore) s = .next s) ∧ (nextTask s lcore = none → exec (.tgaFormGroup lcore) s = .next s) ∧
    ∀ t gr die core q, nextTask s lcore = some (t, gr, die, core, q) →
      (∃ a r, here = a ++ t :: r ∧ (∀ x ∈ a, ¬ mine x) ∧ mine t ∧ tget s.grids t.grid = some gr ∧ physOf gr lcore = some (die, core) ∧
        gatherQuad s gr die core gr.record.taskBudget = some q) ∧
      (formTurn (s.core die core).tgaLast (formable s die core) ≠ some lcore → exec (.tgaFormGroup lcore) s = .next s) ∧
      (formTurn (s.core die core).tgaLast (formable s die core) = some lcore →
        let p := gather t 96 here
        ∃ u g, exec (.tgaFormGroup lcore) s = .next u ∧ u.group? s.seqNo = some g ∧ (u.deque lcore).tasks = p.2 ∧
          (u.deque lcore).version = (s.deque lcore).version + 1 ∧ g.tasks = p.1 ∧ g.team = none ∧ g.die = die ∧ g.core = core ∧ g.quad = q ∧
          g.lcore = lcore ∧ g.h = gr.record.taskBudget - 1 ∧ g.s0.pc = t.entry ∧ g.s1.owned = 0#96 ∧ g.teamNo = 0xFFFFFFFF#32 ∧
          ∀ l : Lane, (g.s0.owned.getLsbD l.val = true ↔ l.val < p.1.length) ∧
            ∀ x, p.1[l.val]? = some x → g.lidx[l] = x.idx ∧ g.slices[l] = x.arg.setWidth 2048)) ∧
  (∀ (t : Task) (n : Nat) (l : List Task),
    let p := gather t n l
    p.1.length ≤ n ∧ (∀ x ∈ p.1, x.grid = t.grid ∧ x.entry = t.entry) ∧ (∀ x, l.count x = p.1.count x + p.2.count x) ∧
      p.1.Sublist l ∧ p.2.Sublist l ∧ (p.1.length < n → ∀ x ∈ p.2, x.grid = t.grid → x.entry ≠ t.entry)) ∧
  -- stealing
  (∀ (s : State) (lcore : Nat),
    let t := thiefOf s lcore
    let goes := (s.deque lcore).tasks = [] ∧ couldForm s lcore = true ∧ t.req = none ∧ t.emptyAt = none
    let order := (if t.left = [] then victims lcore else t.left).filter fun v =>
      s.grids.any fun g => (gatherPlace s lcore g.1).isSome && (physOf g.2 v).isSome
    (¬ goes → exec (.stealRequest lcore) s = .next s) ∧
    (goes → order = [] → exec (.stealRequest lcore) s = .next (setThief s lcore { t with
      left := [], emptyAt := some (s.now.toNat, (s.die (lcore / 64)).pushes) })) ∧
    (goes → ∀ v r, order = v :: r → exec (.stealRequest lcore) s =
      .next (setThief s lcore { t with left := r, req := some (v, seenVersion s lcore v), arrivedAt := s.now.toNat }))) ∧
  (∀ d c, d < 24 → c < 64 → ∃ r, victims (64 * d + c) = r ∧ r.length = 1535 ∧ r[0]? = some (64 * d + (c + 1) % 64) ∧ 64 * d + c ∉ r) ∧
  (∀ (s : State) (victim : Nat),
    let d := s.deque victim
    let det := match d.tasks.getLast? with | some t => (match tget s.grids t.grid with | some g => g.record.det | none => false) | none => false
    let rs := requestsAt s victim
    let holds := fun r : Nat × Nat × Nat => match d.tasks.getLast? with | some t => canHold s r.1 t | none => true
    let passed := fun r : Nat × Nat × Nat => !holds r || (det && d.served.contains r.2.1)
    let lost := (rs.filter passed).map Prod.fst
    (rs = [] → exec (.stealServe victim) s = .next s) ∧
    ((∀ r ∈ rs, passed r = true) → exec (.stealServe victim) s = .next (lost.foldl (loseSteal victim) s)) ∧
    (∀ all w, stealRound det (rs.filter fun r => !passed r) = (all, some w) →
      (d.tasks = [] → exec (.stealServe victim) s = .next ((all ++ lost).foldl (loseSteal victim) s)) ∧
      (d.tasks ≠ [] →
        let x := stealTail (canHold s w) d.tasks
        ∀ r, rs.find? (fun r => r.1 = w) = some r →
        exec (.stealServe victim) s = .next (((all ++ lost).filter fun x => x ≠ w).foldl (loseSteal victim)
          (observe (appendTasks (setThief (s.setDeque victim { d with
              tasks := x.1, tail := d.tail - x.2.length, version := d.version + 1, served := d.served ++ if det = true then [r.2.1] else [] })
            w Thief.reset) w x.2) w victim)))) ∧
    ∀ (b : Bool) (rs : List (Nat × Nat × Nat)) all w, stealRound b rs = (all, some w) →
      let key := fun r : Nat × Nat × Nat => if b then r.2.1 else r.2.2
      w ∈ all ∧ ∃ k, (∀ r ∈ rs, k ≤ key r) ∧ (∀ c, c ∈ all ↔ ∃ r ∈ rs, r.1 = c ∧ key r = k) ∧ ∀ c ∈ all, w ≤ c) ∧
  (∀ (holds : Task → Bool) (ts : List Task),
    let x := stealTail holds ts
    x.1 ++ x.2 = ts ∧ x.2.length ≤ 96 ∧ x.2.length ≤ (ts.length + 1) / 2 ∧
    (∀ y ∈ x.2, holds y = true ∧ ∀ z ∈ ts.getLast?, y.entry = z.entry) ∧ (∀ z ∈ ts.getLast?, holds z = true → x.2 ≠ [])) ∧
  (∀ (s : State) (victim thief : Nat),
    let u := loseSteal victim s thief
    let t := thiefOf s thief
    thiefOf u thief = { t with req := none, emptyAt := if t.left = [] then some (s.now.toNat, (s.die (thief / 64)).pushes) else none } ∧
    (u.deque thief).tasks = (s.deque thief).tasks ∧ tget (u.deque thief).seen victim = some (s.deque victim).version) ∧
  ∀ (s : State) (lcore : Nat),
    ((thiefOf s lcore).emptyAt = none → exec (.stealRestart lcore) s = .next s) ∧
    ∀ n p, (thiefOf s lcore).emptyAt = some (n, p) →
      let over' := n + 256 ≤ s.now.toNat ∨ (s.die (lcore / 64)).pushes ≠ p
      (over' → exec (.stealRestart lcore) s = .next (setThief s lcore Thief.reset)) ∧ (¬ over' → exec (.stealRestart lcore) s = .next s)

/-! ### Partitions, errors, bandwidth and energy (R317 to R322) -/

/-- R317 to R322: the partition table and what it governs. A command reads its section whole: a bad one sets error and changes
nothing else, a good one takes effect. New owners of quadrants and banks wait until nothing of another tenant is there; a way that leaves its
holder is swept, what was written to its lines to memory and its lines and copies out; buckets take effect at once, coefficients in the next window, once
the windows that have ended are accounted. Each
window of 1 µs refills every bucket up to its depth, once; a transfer spends a token of its tenant's bucket, or where that is not strict one that another
non-strict bucket has left, in ascending tenant order. A window's energy is added once to the count of each of the 64 tenants. A tag's parity
failure drops a clean line silently; a dirty one halts the groups of the tenants whose ways hold it, saved ones too.

The model's own choices: a section that cannot be read is rejected (log entry 7); the busy bit is the issuing die's, the section applies to the
named die, and a die's own table is the one that was last applied to it (19); leased copies leave a way with its lines (42); activity counts are
free values, a die to which no buckets have been applied spends no tokens, and replaced coefficients wait for the window to be accounted (51). -/
def Obligations.PartitionsAndUpkeep : Prop :=
  -- the four commands
  (∀ (s : State) (die : Nat),
    let d := s.die die
    let cmd := fun (sec : Nat) (i : Instr) (off n : Nat) (bad : List Byte → Prop) (ends : State → Nat → List Byte → Out) =>
      (d.partbusy = false ∨ (d.partcmd.extractLsb' 8 2).toNat ≠ sec → exec i s = .next s) ∧
      (d.partbusy = true → (d.partcmd.extractLsb' 8 2).toNat = sec → ∀ u,
        (devRead s die 0 (d.partbase + BitVec.ofNat 80 off) n = (u, none) →
          exec i s = .next (u.setDie die { u.die die with partbusy := false, parterror := true })) ∧
        ∀ bs, devRead s die 0 (d.partbase + BitVec.ofNat 80 off) n = (u, some bs) →
          (bad bs → exec i s = .next (u.setDie die { u.die die with partbusy := false, parterror := true })) ∧
          (¬ bad bs → exec i s = ends u (d.partcmd.extractLsb' 0 5).toNat bs))
    let fine := fun (v : State) (t : Nat) =>
      let w := v.setDie t { v.die t with partTable := (v.die die).partbase }
      Host.Outcome.next (w.setDie die { w.die die with partbusy := false, parterror := false })
    cmd 0 (.partcmdQuadrants die) 0 256 (fun bs => ∃ b ∈ bs, b ≠ 0xFF#8 ∧ b.getLsbD 6 = true)
      (fun u t bs => fine (settleOwners (u.setDie t { u.die t with quadNext := nextOwners (u.die t).quadOwner (u.die t).quadNext bs })) t) ∧
    cmd 1 (.partcmdBanks die) 0x100 512 (fun bs => ∃ b ∈ bs, b ≠ 0xFF#8 ∧ 64 ≤ b.toNat)
      (fun u t bs => fine (settleOwners (u.setDie t { u.die t with bankNext := nextOwners (u.die t).bankOwner (u.die t).bankNext bs })) t) ∧
    cmd 2 (.partcmdL2Ways die) 0x400 0x2080
      (fun bs => ∃ i, i < 32 ∧ ((poolWord bs i).extractLsb' 24 8 ≠ 0#8 ∨
        (∃ t, t < 64 ∧ ((maskWord bs i t).extractLsb' 24 8 ≠ 0#8 ∨ maskWord bs i t &&& poolWord bs i ≠ 0#32 ∨
          ∃ x, x < t ∧ maskWord bs i t &&& maskWord bs i x ≠ 0#32))))
      (fun u t bs =>
        let new := { u.die t with
          ways := ((List.range 2048).map fun n => (n, (maskWord bs (n / 64) (n % 64)).setWidth 24)).filter fun m => m.2 ≠ 0#24,
          shared := (List.range 32).map fun i => (i, (poolWord bs i).setWidth 24) }
        fine (u.setDie t { new with sweeps := (u.die t).sweeps ++ startSweeps (u.die t) new }) t)) ∧
  (∀ (s u : State) (die : Nat) (bs : List Byte),
    let d := s.die die
    let t := (d.partcmd.extractLsb' 0 5).toNat
    let bucket := fun n : Nat => BitVec.ofNat 64 (bytesNat bs (8 * n) 8)
    (d.partbusy = false ∨ (d.partcmd.extractLsb' 8 2).toNat ≠ 3 → exec (.partcmdBuckets die) s = .next s) ∧
    (d.partbusy = true → (d.partcmd.extractLsb' 8 2).toNat = 3 → devRead s die 0 (d.partbase + 0x2480#80) 0x1020 = (u, some bs) →
      ((∃ n, n < 512 ∧ (bucket n).extractLsb' 33 31 ≠ 0#31) →
        exec (.partcmdBuckets die) s = .next (u.setDie die { u.die die with partbusy := false, parterror := true })) ∧
      ((∀ n, n < 512 → (bucket n).extractLsb' 33 31 = 0#31) → (u.die t).accounted < u.now.toNat / 1200 → exec (.partcmdBuckets die) s = .next u) ∧
      ((∀ n, n < 512 → (bucket n).extractLsb' 33 31 = 0#31) → u.now.toNat / 1200 ≤ (u.die t).accounted →
        ∃ v, exec (.partcmdBuckets die) s = .next v ∧ (v.die die).partbusy = false ∧ (v.die die).parterror = false ∧
          (∀ n, n < 512 → tget (v.die t).buckets n = some (bucket n)) ∧ (v.die t).coeffs = (u.die t).coeffs ∧ (v.die t).partTable = (u.die die).partbase ∧
          (∀ n q, n < 512 → tget (u.die t).tokens n = some q → tget (v.die t).tokens n = some (min q ((bucket n).extractLsb' 16 16).toNat)) ∧
          ∀ i : Fin 8, (v.die t).coeffsNext[i] = BitVec.ofNat 32 (bytesNat bs (0x1000 + 4 * i.val) 4)))) ∧
  -- changes of owner
  (∀ (s : State) (die n : Nat) (o : BitVec 8), n < 256 →
    let admits := fun p : Nat × Group => o = 0xFF#8 ∨ (o.extractLsb' 0 6).toNat = p.2.tenant
    ((∃ p ∈ s.onQuad die (n / 4) (n % 4), ¬ admits p) → settleQuad s die (n, o) = s) ∧
    ((∀ p ∈ s.onQuad die (n / 4) (n % 4), admits p) → tget ((settleQuad s die (n, o)).die die).quadOwner n = some o ∧
      tget ((settleQuad s die (n, o)).die die).quadNext n = none ∧
      ((settleQuad s die (n, o)).quad die (n / 4) (n % 4)).mx = MxUnit.reset ∧
      ∀ p ∈ (settleQuad s die (n, o)).progs, p.2.eng = 0 → p.2.die = die → p.2.core = n / 4 → p.2.quad = n % 4 → p.2.ended = true)) ∧
  -- sweeps
  (∀ (s : State) (die slice way : Nat),
    let mine := fun w : Sweep => w.slice = slice ∧ w.way = way
    ((∀ w ∈ (s.die die).sweeps, ¬ mine w) → exec (.waySweepDone die slice way) s = .next s) ∧
    ((∃ w ∈ (s.die die).sweeps, mine w) → ∃ t, exec (.waySweepDone die slice way) s = .next t ∧
      (∀ e ∈ t.l2, ¬ (e.die = die ∧ e.slice = slice ∧ e.way = way)) ∧
      (∀ l ∈ t.leases, l.die = die → l.slice = slice → l.way = way → l.copy = false) ∧ (∀ w ∈ (t.die die).sweeps, ¬ mine w) ∧
      (∀ e ∈ s.l2, (∀ x ∈ s.l2, x.line = e.line → ¬ (x.die = die ∧ x.slice = slice ∧ x.way = way)) → e ∈ t.l2) ∧
      ∀ e k, s.Inv → e ∈ s.l2 → e.die = die → e.slice = slice → e.way = way → (∀ x ∈ s.l2, x.line = e.line → x = e) → k < 128 →
        memGet t.mem (128 * e.line + k) = if e.mask.getLsbD k then lineByte e.data k else memGet s.mem (128 * e.line + k))) ∧
  -- parity
  (∀ (s : State) (die line slice way : Nat) (ecc : Bool),
    let here := fun e : L2Line => e.line = line ∧ e.die = die ∧ e.slice = slice ∧ e.way = way
    let u := dropCopies { s with l2 := s.l2.filter fun e => !decide (here e) } fun l =>
      decide (l.line = line ∧ l.die = die ∧ l.slice = slice ∧ l.way = way)
    let dirty := ecc = true ∨ ∃ e ∈ s.l2, here e ∧ e.dirty ≠ 0#4
    ((∃ e ∈ s.l2, e.line = line ∧ ¬ here e) → exec (.l2TagParityFail die line slice way ecc) s = .next s) ∧
    ((∀ e ∈ s.l2, e.line = line → here e) → ¬ dirty → exec (.l2TagParityFail die line slice way ecc) s = .next u) ∧
    ((∀ e ∈ s.l2, e.line = line → here e) → dirty → exec (.l2TagParityFail die line slice way ecc) s =
      .next (haltTenants u (wayConcerns (s.die die) slice way)))) ∧
  (∀ (s : State) (p : Lease → Bool), ((dropCopies s p).leases = s.leases.map fun l => if p l = true then { l with copy := false } else l) ∧
    dropCopies s p = { s with leases := (dropCopies s p).leases }) ∧
  (∀ (d : Die) (slice way t : Nat), wayConcerns d slice way t = true ↔
    ((wayMask d slice t).getLsbD way = true ∨ (wayMask d slice t = 0#24 ∧ (poolMask d slice).getLsbD way = true))) ∧
  (∀ (s : State) (p : Nat → Bool),
    ((∀ x ∈ s.groups, p x.2.tenant = false ∨ x.2.halted = true) →
      (∀ y ∈ s.saved, ∀ x ∈ y.groups, p x.2.tenant = false ∨ x.2.halted = true) → haltTenants s p = s) ∧
    (∀ y ∈ (haltTenants s p).saved, ∀ x ∈ y.groups, p x.2.tenant = true → x.2.halted = true) ∧
    (∀ gid g, s.groups = [(gid, g)] → s.saved = [] → p g.tenant = true → g.halted = false →
      haltTenants s p = haltGroup s gid 0x31#8 g.s0.pc g.liveMask)) ∧
  -- bandwidth and energy
  ∀ (s : State) (die : Nat),
    let d := s.die die
    let begun := s.now.toNat / 1200
    (begun ≤ d.window → exec (.bucketRefill die) s = .next s) ∧
    (d.window < begun → ∃ t, exec (.bucketRefill die) s = .next t ∧ t = s.setDie die { d with window := d.window + 1, tokens := (t.die die).tokens } ∧
      ∀ n b, tget d.buckets n = some b →
        tget (t.die die).tokens n = some (min ((tget d.tokens n).getD 0 + (b.extractLsb' 0 16).toNat) (b.extractLsb' 16 16).toNat)) ∧
    (begun ≤ d.accounted → exec (.energyAccount die) s = .next s) ∧
    (d.accounted < begun → (∀ i : Fin 8, d.coeffs[i] = 0#32) →
      exec (.energyAccount die) s = .next (s.setDie die { d with accounted := d.accounted + 1, coeffs := d.coeffsNext })) ∧
    (d.accounted < begun → (∃ i : Fin 8, d.coeffs[i] ≠ 0#32) →
      let u := (List.range 64).foldl (addEnergy die d) s
      exec (.energyAccount die) s =
        .next (u.setDie die { u.die die with accounted := (u.die die).accounted + 1, coeffs := (u.die die).coeffsNext })) ∧
    (∀ t u, devRead { s with fresh := s.fresh + 8 } die 0 (d.partTable + BitVec.ofNat 80 (0x3800 + 8 * t)) 8 = (u, none) → addEnergy die d s t = u) ∧
    (∀ t u v old, devRead { s with fresh := s.fresh + 8 } die 0 (d.partTable + BitVec.ofNat 80 (0x3800 + 8 * t)) 8 = (u, some old) →
      devWrite u die 0 (d.partTable + BitVec.ofNat 80 (0x3800 + 8 * t)) (toBytes (BitVec.ofNat 64 (natOfBytes old + energyOf d s.fresh)) 8) = v →
      addEnergy die d s t = v) ∧
    (∀ n, energyOf d n = ((List.finRange 8).map fun i => d.coeffs[i].toNat * (Config.freeValue (n + i.val)).toNat).sum) ∧
    -- tokens
    ∀ block tenant : Nat, tenant < 64 →
      let own := 64 * (Config.controllerOf block % 8) + tenant
      let strict := fun n : Nat => ((tget d.buckets n).getD 0#64).getLsbD 32 = true
      let has := fun n : Nat => 0 < (tget d.tokens n).getD 0
      let may := fun n : Nat => n / 64 = own / 64 ∧ ¬ strict n ∧ has n
      let spent := fun n : Nat => some { d with tokens := tset d.tokens n ((tget d.tokens n).getD 0 - 1) }
      (d.buckets = [] → d.spend tenant block = some d) ∧
      (d.buckets ≠ [] → has own → d.spend tenant block = spent own) ∧
      (d.buckets ≠ [] → ¬ has own → strict own ∨ (∀ n, ¬ may n) → d.spend tenant block = none) ∧
      (d.buckets ≠ [] → ¬ has own → ¬ strict own → ∀ n, may n → (∀ m, m < n → ¬ may m) → d.spend tenant block = spent n)

/-! ### The host, the fabric and the mailbox (R108, R109, R325 to R327) -/

/-- R108, R109, R325 to R327: what reaches the module from outside. The host's posted writes perform at their homes in the order
of their arrival, each at .mod scope before the next; its reads read at the home; outside its window's module memory nothing happens. The
acknowledgement of a remote store or atomic performs it, unless a lease of ours or an earlier store of the agent to the byte delays it; a
port sends again up to 8 times, and then the access fails as an engine fault of its group, whose handle is a free value, as is what an atomic
then returns (log entry 54), or as the fault of the engine that made it. A word that waits for another module
goes on. Other modules' accesses perform at the homes of the exported window. The mailbox takes aligned accesses of 32 and 64 bits: go submits a
command and clears done, a cause bit is cleared by 1, reserved bits stay 0; the firmware takes a command, which clears go, and in a later step ends
it, which fills in its report, sets done and signals vector 0; a vector that the mask holds is not sent, and its cause still sets. What the
firmware's own commands do is its own.

The model's own choices: held-back vectors that are sent on unmasking, and where a report holds the measurements (log entry 53); what a failed
access of a group reports and returns (54); with whose rights the host's accesses are made and what lies nowhere (55); what the
firmware answers (56). -/
def Obligations.HostFabricAndMailbox : Prop :=
  -- the host
  (∀ (s : State) (off : Nat) (bs : List Byte),
    let pa := (s.mbox.winBase.toNat * 2 ^ 36 + off) % 2 ^ 56
    (2 ^ 36 < off + bs.length → exec (.hostPostedWrite false off bs) s = .next s) ∧
    (off + bs.length ≤ 2 ^ 36 → ∃ t, exec (.hostPostedWrite false off bs) s = .next t ∧
      (s.posted = [] →
        let u := storeHome { s with seqNo := s.seqNo + 1 } s.seqNo 0 ((hostBytes s pa bs).map Prod.fst) ((hostBytes s pa bs).map Prod.snd)
        ((∀ h ∈ u.held, h.w.id ≠ s.seqNo) → t = u) ∧
        ((∃ h ∈ u.held, h.w.id = s.seqNo) → t = { u with posted := [{ id := some s.seqNo, addr := pa, bytes := bs }] })) ∧
      (∀ p n, s.posted.head? = some p → p.id = some n → (∃ h ∈ s.held, h.w.id = n) →
        t = { s with posted := s.posted ++ [{ id := none, addr := pa, bytes := bs }] })) ∧
    (∀ i : Nat, i < bs.length → ((keyOfPhys s (pa + i), bs.getD i 0#8) ∈ hostBytes s pa bs ∨ hostReaches s (pa + i) = false)) ∧
    (∀ n, 2 ^ 36 < off + n → exec (.hostRead false off n) s = .next s) ∧
    (∀ n, off + n ≤ 2 ^ 36 → ∃ bs : List Byte, bs.length = n ∧
      exec (.hostRead false off n) s = .next { s with hostData := s.hostData ++ [bs], fresh := s.fresh + n } ∧
      ∀ i, i < n → hostReaches s (pa + i) = true → bs.getD i 0#8 = homeByte s (keyOfPhys s (pa + i)))) ∧
  (∀ (s : State) (pa : Nat), hostReaches s pa = true ↔ ownMemory s pa = true ∨ 2 ≤ window pa) ∧
  -- the fabric
  (∀ (s : State) (id : Nat) (f : Flit), (s.flits.find? fun x => x.id = id) = some f →
    let late := (∃ l ∈ s.leases, s.now.toNat < l.expiry ∧ ∃ k ∈ f.keys, lineOf k = l.line) ∨
      ∃ q ∈ s.flits, q.id < f.id ∧ ((f.eng.isSome = true ∧ q.eng = f.eng ∧ ∃ k ∈ q.keys, k ∈ f.keys) ∨
        samePlace f.gid f.agents f.parent f.keys q.gid q.agents q.parent q.keys = true)
    let gone := { s with flits := s.flits.filter fun x => x.id ≠ id }
    let stored := { gone with mem := memPuts s.mem f.keys f.bytes }
    let atom := s.accs.find? fun x => x.id = id
    let failed := fun handle => { gone with fresh := s.fresh + 1, efaults := s.efaults ++ [
      { gid := f.gid, s1 := f.s1, detail := 0x41#8, addr := f.va, handle := handle, ctr := f.ctr, cont := false, trap := f.trap,
        die := f.die, core := f.core, tenant := f.tenant, place := match s.group? f.gid with | some g => placeByte g false f.s1 | none => 0#8 }] }
    (late → exec (.fabricAck id) s = .next s) ∧
    (¬ late → atom = none → f.eng = none → f.bytes ≠ [] → exec (.fabricAck id) s =
      .next (settleFences ((l1Patches stored f.die f.core f.keys f.bytes).reqDone f.gid f.ctr f.parent))) ∧
    (¬ late → atom = none → f.eng ≠ none → exec (.fabricAck id) s = .next (settleFences (l1Shed stored f.die f.core f.keys))) ∧
    (¬ late → atom = none → f.eng = none → f.bytes = [] →
      let told := gone.modFlit id fun e => some { e with flit := some (id, true) }
      ((∀ g, s.group? f.gid = some g → ∀ r, (g.slotIn f.s1 f.trap).req = some r → r.id ≠ id) → exec (.fabricAck id) s = .next told) ∧
      ∀ g r, s.group? f.gid = some g → (g.slotIn f.s1 f.trap).req = some r → r.id = id →
        let u := told.setGroup f.gid (g.modSlotIn f.s1 f.trap fun sl => { sl with req := some { r with acked := true } })
        exec (.fabricAck id) s = if f.trap = g.trapMode then resumeWait u f.gid f.s1 else .next u) ∧
    (∀ a op, ¬ late → atom = some a → a.op = .atomic op ∨ a.op = .ordered op → exec (.fabricAck id) s = .next (atomDone gone a op)) ∧
    (∀ a, ¬ late → atom = some a → a.op = .load → exec (.fabricAck id) s = .next (loadDone gone a)) ∧
    (f.retries < 8 → exec (.fabricRetransmit id) s =
      .next { s with flits := s.flits.map fun x => if x.id = id then { x with retries := x.retries + 1 } else x }) ∧
    (∀ agent, 8 ≤ f.retries → f.eng = some agent → exec (.fabricRetransmit id) s = .next (settleFences (agentFault gone agent f.va))) ∧
    (8 ≤ f.retries → f.eng = none → atom = none → ∃ handle, exec (.fabricRetransmit id) s = .next (settleFences
      (State.reqDone (if f.bytes = [] then waitFailed (failed handle) f else failed handle) f.gid f.ctr f.parent))) ∧
    (∀ a, 8 ≤ f.retries → f.eng = none → atom = some a → ∃ handle v, exec (.fabricRetransmit id) s =
      .next (accDone { failed handle with fresh := s.fresh + 2 } a v))) ∧
  (∀ (s : State) (id : Nat), (∀ f ∈ s.flits, f.id ≠ id) → exec (.fabricAck id) s = .next s ∧ exec (.fabricRetransmit id) s = .next s) ∧
  (∀ (s : State) (f : Flit) (g : Group) (r : MemReq), s.group? f.gid = some g → (g.slotIn f.s1 f.trap).req = some r → r.id = f.id →
    waitFailed s f = failWait (s.modFlit f.id fun _ => none) f.gid f.s1 f.trap r) ∧
  (∀ (s : State) (agent : Nat) (va : Addr),
    (∀ p, s.prog? agent = some p → agentFault s agent va = progFault s agent 0x41#8 va) ∧
    (∀ c, s.prog? agent = none → (s.copies.find? fun x => x.id = agent) = some c → agentFault s agent va = copyFault s c 0x41#8 va) ∧
    (∀ c, s.prog? agent = none → (∀ x ∈ s.copies, x.id ≠ agent) → (s.ctxs.find? fun x => x.2.agent = agent) = some c →
      agentFault s agent va = stopRun s c.1 0x09#8 0xFF#8)) ∧
  (∀ (s : State) (addr : Nat) (access : RemoteAccess),
    let n := match access with | .read len => len | .write bs => bs.length | .atomic _ w _ _ => elemSize w
    let pas := upFrom (s.expBase + addr) n
    let ks := pas.map (keyOfPhys s)
    let inside := addr + n ≤ s.expSize ∧ ∀ x ∈ pas, ownMemory s x = true
    (¬ inside → exec (.fabricRemoteAccess access addr) s = .next s) ∧
    (inside →
      match access with
      | .read _ =>
        let leased := ks.foldl (fun s k => leaseFetch s outsideDie 0 0#2 k) s
        exec (.fabricRemoteAccess access addr) s = .next { leased with remoteData := leased.remoteData ++ [ks.map (homeByteFrom s outsideDie)] }
      | .write bs => exec (.fabricRemoteAccess access addr) s =
          .next (remoteStored (storeHome { s with seqNo := s.seqNo + 1 } s.seqNo 0 ks bs) s.seqNo)
      | .atomic op w b b2 =>
        ∃ old u, applyAtom { s with seqNo := s.seqNo + 1 } { Writer.device s.seqNo 0 with die := outsideDie } op w ks b b2 = (old, u) ∧
          exec (.fabricRemoteAccess access addr) s =
            .next (remoteStored { u with remoteData := u.remoteData ++ [toBytes old (elemSize w)] } s.seqNo))) ∧
  -- the mailbox
  (∀ (s : State) (off : Nat) (bs : List Byte) (n : Nat),
    let m := s.mbox
    let aligned := (bs.length = 4 ∨ bs.length = 8) ∧ off % bs.length = 0
    let w64 := fun (o : Nat) (v : Word64) => exec (.hostPostedWrite true o (toBytes v 8)) s
    (¬ aligned → exec (.hostPostedWrite true off bs) s = .next s) ∧
    (aligned → off < 0x1000 ∨ 0x9000 ≤ off → off / 8 * 8 ∉ [0x8, 0x10, 0x18, 0x20, 0x28, 0x30, 0x80, 0x88] →
      exec (.hostPostedWrite true off bs) s = .next s) ∧
    (aligned → 0x1000 ≤ off → off < 0x9000 → ∃ t, exec (.hostPostedWrite true off bs) s = .next t ∧
      t = { s with mbox := { m with area := t.mbox.area } } ∧
      ∀ o, mboxArea t.mbox o = if off - 0x1000 ≤ o ∧ o < off - 0x1000 + bs.length then bs.getD (o - (off - 0x1000)) 0#8 else mboxArea m o) ∧
    (∀ v : Word64, w64 0x8 v = .next { s with mbox := { m with winBase := v.extractLsb' 36 20 } } ∧
      (v.getLsbD 31 = false → w64 0x10 v = .next { s with mbox := { m with command := v.extractLsb' 0 16 } }) ∧
      (v.getLsbD 31 = true → w64 0x10 v = .next { s with mbox := { m with command := v.extractLsb' 0 16, go := true, done := false } }) ∧
      (∀ k : Fin 4, w64 (0x18 + 8 * k.val) v = .next { s with mbox := { m with args := m.args.set k v } }) ∧
      w64 0x80 v = .next { s with mbox := { m with cause := m.cause &&& ~~~v } } ∧
      w64 0x88 v = .next { s with mbox := m.setMask v }) ∧
    exec (.hostRead true off n) s = .next { s with hostData := s.hostData ++ [mboxRead m off n] } ∧
    (¬ ((n = 4 ∨ n = 8) ∧ off % n = 0) → mboxRead m off n = List.replicate n 0#8) ∧
    mboxRead m 0x0 4 = [0#8, 0#8, 1#8, 0#8] ∧ mboxRead m 0x80 8 = toBytes m.cause 8 ∧ mboxRead m 0x88 8 = toBytes m.mask 8 ∧
    (∀ k : Fin 4, mboxRead m (0x18 + 8 * k.val) 8 = toBytes m.args[k] 8) ∧
    (n = 4 ∨ n = 8 → off % n = 0 → 0x1000 ≤ off → off < 0x9000 → mboxRead m off n = (List.range n).map fun k => mboxArea m (off - 0x1000 + k)) ∧
    (n = 4 ∨ n = 8 → off % n = 0 → off < 0x1000 ∨ 0x9000 ≤ off →
      off / 8 * 8 ∉ [0x0, 0x8, 0x10, 0x18, 0x20, 0x28, 0x30, 0x40, 0x80, 0x88] → mboxRead m off n = List.replicate n 0#8) ∧
    mboxRead m 0x8 8 = toBytes (0#8 ++ m.winBase ++ 0#36 : Word64) 8 ∧
    mboxRead m 0x10 8 = toBytes (0#32 ++ (if m.go then 1#1 else 0#1) ++ 0#15 ++ m.command : Word64) 8 ∧
    mboxRead m 0x40 8 = toBytes (0#32 ++ (if m.done then 1#1 else 0#1) ++ (if m.error then 1#1 else 0#1) ++ 0#14 ++ m.result : Word64) 8) ∧
  (∀ (s : State) (code : BitVec 16) (v : Word64),
    let go := fun c : BitVec 16 => Host.Outcome.next { s with mbox := { s.mbox with command := c, go := true, done := false } }
    exec .mboxNop s = go 0#16 ∧ exec .mboxAttest s = go 1#16 ∧ exec .mboxTelemetry s = go 2#16 ∧ exec (.mboxFirmwareCmd code) s = go code ∧
    exec (.mboxWindowBase v) s = .next { s with mbox := { s.mbox with winBase := v.extractLsb' 36 20 } } ∧
    exec (.mboxIntCauseClear v) s = .next { s with mbox := { s.mbox with cause := s.mbox.cause &&& ~~~v } }) ∧
  (∀ (s : State) (result : BitVec 16) (error : Bool) (vectors : Word64),
    let m := s.mbox
    let bad := 3 ≤ m.command.toNat ∧ m.command.toNat < 0x100
    let told := m.signal (vectors &&& ~~~1#64)
    let ended := { mboxFill told s.measured s.fresh with
      taken := false, done := !m.go, error := decide bad || error, result := if bad then 0xFFFF#16 else result }
    (m.taken = false → exec (.mboxDone result error vectors []) s = .next { s with mbox := { told with go := false, taken := m.go } }) ∧
    (m.taken = true → exec (.mboxDone result error vectors []) s = .next { s with mbox := ended.signal 1#64, fresh := s.fresh + 1 })) ∧
  (∀ (m : Mailbox) (measured : Vector (BitVec 512) 4) (n : Nat),
    let x := mboxFill m measured n
    x = { m with area := x.area } ∧ (m.command ≠ 1#16 → m.command ≠ 2#16 → x = m) ∧
    (m.command = 1#16 → ∃ p, p + 256 ≤ 0x8000 ∧
      ∀ (k : Fin 4) (i : Nat), i < 64 → mboxArea x (p + 64 * k.val + i) = measured[k].extractLsb' (8 * i) 8)) ∧
  (∀ (m : Mailbox) (v : Word64), (m.signal v).cause = m.cause ||| v ∧
    (∀ x, x ∈ (m.signal v).vectors ↔ x ∈ m.vectors ∨ (x < 64 ∧ v.getLsbD x = true ∧ m.mask.getLsbD x = false)) ∧
    ∀ x, x ∈ (m.setMask v).vectors ↔ x ∈ m.vectors ∨
      (x < 64 ∧ m.heldBack.getLsbD x = true ∧ m.cause.getLsbD x = true ∧ v.getLsbD x = false)) ∧
  -- each completes in every state
  ∀ (s : State) (i : Instr),
    ((∃ b off bs, i = .hostPostedWrite b off bs) ∨ (∃ b off n, i = .hostRead b off n) ∨ (∃ id, i = .fabricAck id) ∨
      (∃ id, i = .fabricRetransmit id) ∨ (∃ x a, i = .fabricRemoteAccess x a) ∨ i = .mboxNop ∨ i = .mboxAttest ∨ i = .mboxTelemetry ∨
      (∃ c, i = .mboxFirmwareCmd c) ∨ (∃ r e v p, i = .mboxDone r e v p) ∨ (∃ v, i = .mboxWindowBase v) ∨ (∃ v, i = .mboxIntCauseClear v)) →
    ∃ t, exec i s = .next t
end

