-- ==== Sys2Proof/Laws/Bits.lean ====
section
/-! SUPPORT. The bit fields, the lane masks and the tables by number: what a read gives after a write. -/

namespace Sys2Proof.Machine

/-- A bit of a value with one field replaced. -/
theorem getLsbD_setField {n w : Nat} (x : BitVec n) (st : Nat) (v : BitVec w) (p : Nat) (hp : p < n) :
    (setField x st v).getLsbD p = if st ≤ p ∧ p < st + w then v.getLsbD (p - st) else x.getLsbD p := by
  unfold setField
  simp only [BitVec.getLsbD_or, BitVec.getLsbD_and, BitVec.getLsbD_not, BitVec.getLsbD_shiftLeft, BitVec.getLsbD_setWidth,
    BitVec.getLsbD_allOnes, hp, decide_true, Bool.true_and]
  by_cases h1 : p < st
  · have : ¬ (st ≤ p ∧ p < st + w) := by omega
    simp [h1, this]
  · have h2 : p - st < n := by omega
    by_cases h3 : p < st + w
    · have h4 : st ≤ p ∧ p < st + w := by omega
      have h5 : p - st < w := by omega
      simp [h1, h2, h4, h5]
    · have h4 : ¬ (st ≤ p ∧ p < st + w) := by omega
      have h5 : ¬ (p - st < w) := by omega
      have h6 : v.getLsbD (p - st) = false := BitVec.getLsbD_of_ge _ _ (by omega)
      simp [h1, h2, h4, h5, h6]

/-- A field reads back as what was written to it. -/
theorem getField_setField {n w : Nat} (x : BitVec n) (st : Nat) (v : BitVec w) (h : st + w ≤ n) :
    getField (setField x st v) st w = v := by
  unfold getField
  apply BitVec.eq_of_getLsbD_eq
  intro i hi
  rw [BitVec.getLsbD_extractLsb', getLsbD_setField _ _ _ _ (by omega)]
  have : st ≤ st + i ∧ st + i < st + w := by omega
  simp [hi, this]

/-- A field that does not meet the written one is unchanged. -/
theorem getField_setField_ne {n w u : Nat} (x : BitVec n) (st : Nat) (v : BitVec w) (st' : Nat)
    (h : st' + u ≤ st ∨ st + w ≤ st') (hn : st' + u ≤ n) : getField (setField x st v) st' u = getField x st' u := by
  unfold getField
  apply BitVec.eq_of_getLsbD_eq
  intro i hi
  rw [BitVec.getLsbD_extractLsb', BitVec.getLsbD_extractLsb', getLsbD_setField _ _ _ _ (by omega)]
  have : ¬ (st ≤ st' + i ∧ st' + i < st + w) := by omega
  simp [this]

@[simp] theorem setLanes_get {α : Type} (v : Lanes α) (m : Mask) (f : Lane → α) (l : Lane) :
    (setLanes v m f)[l] = if m.getLsbD l.val then f l else v[l] := by
  simp [setLanes]

@[simp] theorem mem_allLanes (l : Lane) : l ∈ allLanes := List.mem_finRange l

/-- A lane mask built from a test has exactly the lanes that pass. -/
theorem getLsbD_maskOf (p : Lane → Bool) (l : Lane) : (maskOf p).getLsbD l.val = p l := by
  unfold maskOf
  have key : ∀ ls : List Lane, ls.Nodup →
      (ls.foldr (fun i m => if p i then m ||| (1#96 <<< i.val) else m) 0#96).getLsbD l.val = (decide (l ∈ ls) && p l) := by
    intro ls
    induction ls with
    | nil => intro _; simp
    | cons a r ih =>
      intro hn
      have hr := ih (List.nodup_cons.mp hn).2
      have ha := (List.nodup_cons.mp hn).1
      simp only [List.foldr_cons]
      by_cases hl : l = a
      · subst hl
        by_cases hp : p l
        · simp [hp]
        · rw [if_neg hp, hr]; simp [hp]
      · have hne : a.val ≠ l.val := fun h => hl (Fin.ext h.symm)
        have hb : (1#96 <<< a.val).getLsbD l.val = false := by
          rw [BitVec.getLsbD_shiftLeft]
          by_cases h : l.val < a.val
          · simp [h]
          · have : ¬ (l.val - a.val = 0) := by omega
            simp [BitVec.getLsbD_one, this]
        by_cases hp : p a
        · rw [if_pos hp, BitVec.getLsbD_or, hr, hb]; simp [hl]
        · rw [if_neg hp, hr]; simp [hl]
  rw [key allLanes (List.nodup_finRange 96)]
  simp

theorem mem_lanesOf (m : Mask) (l : Lane) : l ∈ lanesOf m ↔ m.getLsbD l.val = true := by
  simp [lanesOf]

/-- A table reads back as what was written to it. -/
@[simp] theorem tget_tset_self {α : Type} (t : Tab α) (k : Nat) (v : α) : tget (tset t k v) k = some v := by
  induction t with
  | nil => simp [tset, tget]
  | cons a r ih =>
    obtain ⟨k', v'⟩ := a
    unfold tset
    by_cases h1 : k < k'
    · simp [h1, tget]
    · by_cases h2 : k = k'
      · simp [h2, tget]
      · simp only [h1, h2, if_false]
        unfold tget
        have : ¬ k' = k := fun h => h2 h.symm
        simp [this, ih]

/-- The other numbers of a table are unchanged. -/
theorem tget_tset_ne {α : Type} (t : Tab α) (k k' : Nat) (v : α) (h : k' ≠ k) : tget (tset t k v) k' = tget t k' := by
  induction t with
  | nil =>
    have : ¬ k = k' := fun e => h e.symm
    simp [tset, tget, this]
  | cons a r ih =>
    obtain ⟨x, v'⟩ := a
    unfold tset
    by_cases h1 : k < x
    · have : ¬ k = k' := fun e => h e.symm
      simp [h1, tget, this]
    · by_cases h2 : k = x
      · subst h2
        have : ¬ k = k' := fun e => h e.symm
        simp [tget, this]
      · simp only [h1, h2, if_false]
        unfold tget
        by_cases h3 : x = k'
        · simp [h3]
        · simp [h3, ih]

end Sys2Proof.Machine
end

