-- ==== Sys2Proof/Laws/Exec.lean ====
section
/-! SUPPORT. The dispatch, one equation for each constructor of Instr. -/

namespace Sys2Proof.Machine

theorem exec_clauseIssue (cls : BitVec 3) (cnt : BitVec 4) (wait : BitVec 3) (yld : Bool) (s : State) :
    exec (.clauseIssue cls cnt wait yld) s = execClauseIssue cls cnt wait yld s := rfl
theorem exec_issueChoice (quad : Nat) (s : State) :
    exec (.issueChoice quad) s = execIssueChoice quad s := rfl
theorem exec_readyWaitExpiry (gid : Nat) (s1 : Bool) (s : State) :
    exec (.readyWaitExpiry gid s1) s = execReadyWaitExpiry gid s1 s := rfl
theorem exec_pathRotation (gid : Nat) (s : State) :
    exec (.pathRotation gid) s = execPathRotation gid s := rfl
theorem exec_faultQueueSpace (die : Nat) (s : State) :
    exec (.faultQueueSpace die) s = execFaultQueueSpace die s := rfl
theorem exec_tlbWalk (who : Agent) (va : Addr) (kind : AccessKind) (s : State) :
    exec (.tlbWalk who va kind) s = execTlbWalk who va kind s := rfl
theorem exec_pendingRetry (gid : Nat) (s1 : Bool) (s : State) :
    exec (.pendingRetry gid s1) s = execPendingRetry gid s1 s := rfl
theorem exec_memAccessComplete (id : Nat) (s : State) :
    exec (.memAccessComplete id) s = execMemAccessComplete id s := rfl
theorem exec_storeReachHome (id : Nat) (s : State) :
    exec (.storeReachHome id) s = execStoreReachHome id s := rfl
theorem exec_leaseExpiry (line : Nat) (s : State) :
    exec (.leaseExpiry line) s = execLeaseExpiry line s := rfl
theorem exec_leaseCopyDrop (die : Nat) (line : Nat) (s : State) :
    exec (.leaseCopyDrop die line) s = execLeaseCopyDrop die line s := rfl
theorem exec_oabAdmit (id : Nat) (s : State) :
    exec (.oabAdmit id) s = execOabAdmit id s := rfl
theorem exec_floorAdvance (grid : Nat) (s : State) :
    exec (.floorAdvance grid) s = execFloorAdvance grid s := rfl
theorem exec_carveChangeComplete (core : Nat) (s : State) :
    exec (.carveChangeComplete core) s = execCarveChangeComplete core s := rfl
theorem exec_claimGrant (quad : Nat) (s : State) :
    exec (.claimGrant quad) s = execClaimGrant quad s := rfl
theorem exec_tagExpiry (quad : Nat) (s : State) :
    exec (.tagExpiry quad) s = execTagExpiry quad s := rfl
theorem exec_sleepExpiry (gid : Nat) (s1 : Bool) (s : State) :
    exec (.sleepExpiry gid s1) s = execSleepExpiry gid s1 s := rfl
theorem exec_futWaitWake (gid : Nat) (s1 : Bool) (s : State) :
    exec (.futWaitWake gid s1) s = execFutWaitWake gid s1 s := rfl
theorem exec_ringWaitResume (gid : Nat) (s1 : Bool) (s : State) :
    exec (.ringWaitResume gid s1) s = execRingWaitResume gid s1 s := rfl
theorem exec_cpyComplete (id : Nat) (s : State) :
    exec (.cpyComplete id) s = execCpyComplete id s := rfl
theorem exec_tlbinvComplete (id : Nat) (s : State) :
    exec (.tlbinvComplete id) s = execTlbinvComplete id s := rfl
theorem exec_tableBankLoad (quad : Nat) (s : State) :
    exec (.tableBankLoad quad) s = execTableBankLoad quad s := rfl
theorem exec_matrixOpStart (quad : Nat) (s : State) :
    exec (.matrixOpStart quad) s = execMatrixOpStart quad s := rfl
theorem exec_rowGroupDone (quad : Nat) (s : State) :
    exec (.rowGroupDone quad) s = execRowGroupDone quad s := rfl
theorem exec_engineProgramStart (pid : Nat) (s : State) :
    exec (.engineProgramStart pid) s = execEngineProgramStart pid s := rfl
theorem exec_engineProgramEnd (pid : Nat) (s : State) :
    exec (.engineProgramEnd pid) s = execEngineProgramEnd pid s := rfl
theorem exec_engineFaultDelivery (gid : Nat) (s1 : Bool) (s : State) :
    exec (.engineFaultDelivery gid s1) s = execEngineFaultDelivery gid s1 s := rfl
theorem exec_engineTranslationStop (id : Nat) (s : State) :
    exec (.engineTranslationStop id) s = execEngineTranslationStop id s := rfl
theorem exec_stepCallDeliver (ctx : Nat) (s : State) :
    exec (.stepCallDeliver ctx) s = execStepCallDeliver ctx s := rfl
theorem exec_stepCombinationDone (ctx : Nat) (s : State) :
    exec (.stepCombinationDone ctx) s = execStepCombinationDone ctx s := rfl
theorem exec_tokenPoll (die : Nat) (s : State) :
    exec (.tokenPoll die) s = execTokenPoll die s := rfl
theorem exec_teamPlacement (die : Nat) (s : State) :
    exec (.teamPlacement die) s = execTeamPlacement die s := rfl
theorem exec_gridComplete (grid : Nat) (s : State) :
    exec (.gridComplete grid) s = execGridComplete grid s := rfl
theorem exec_timeSliceSave (die : Nat) (s : State) :
    exec (.timeSliceSave die) s = execTimeSliceSave die s := rfl
theorem exec_tenantDrainDeadline (tenant : Nat) (s : State) :
    exec (.tenantDrainDeadline tenant) s = execTenantDrainDeadline tenant s := rfl
theorem exec_saveSlotRetry (tenant : Nat) (s : State) :
    exec (.saveSlotRetry tenant) s = execSaveSlotRetry tenant s := rfl
theorem exec_tgaFormGroup (lcore : Nat) (s : State) :
    exec (.tgaFormGroup lcore) s = execTgaFormGroup lcore s := rfl
theorem exec_stealRequest (lcore : Nat) (s : State) :
    exec (.stealRequest lcore) s = execStealRequest lcore s := rfl
theorem exec_stealServe (victim : Nat) (s : State) :
    exec (.stealServe victim) s = execStealServe victim s := rfl
theorem exec_stealRestart (lcore : Nat) (s : State) :
    exec (.stealRestart lcore) s = execStealRestart lcore s := rfl
theorem exec_gatheredGroupSave (gid : Nat) (s : State) :
    exec (.gatheredGroupSave gid) s = execGatheredGroupSave gid s := rfl
theorem exec_gatheredGroupRestore (team : Nat) (s : State) :
    exec (.gatheredGroupRestore team) s = execGatheredGroupRestore team s := rfl
theorem exec_softErrorRewind (gid : Nat) (lane : Nat) (row : Nat) (s : State) :
    exec (.softErrorRewind gid lane row) s = execSoftErrorRewind gid lane row s := rfl
theorem exec_l2TagParityFail (die : Nat) (line : Nat) (slice way : Nat) (eccBad : Bool) (s : State) :
    exec (.l2TagParityFail die line slice way eccBad) s = execL2TagParityFail die line slice way eccBad s := rfl
theorem exec_waySweepDone (die : Nat) (slice way : Nat) (s : State) :
    exec (.waySweepDone die slice way) s = execWaySweepDone die slice way s := rfl
theorem exec_bucketRefill (die : Nat) (s : State) :
    exec (.bucketRefill die) s = execBucketRefill die s := rfl
theorem exec_energyAccount (die : Nat) (s : State) :
    exec (.energyAccount die) s = execEnergyAccount die s := rfl
theorem exec_hostPostedWrite (mbox : Bool) (offset : Nat) (bytes : List Byte) (s : State) :
    exec (.hostPostedWrite mbox offset bytes) s = execHostPostedWrite mbox offset bytes s := rfl
theorem exec_hostRead (mbox : Bool) (offset : Nat) (len : Nat) (s : State) :
    exec (.hostRead mbox offset len) s = execHostRead mbox offset len s := rfl
theorem exec_fabricAck (id : Nat) (s : State) :
    exec (.fabricAck id) s = execFabricAck id s := rfl
theorem exec_fabricRetransmit (id : Nat) (s : State) :
    exec (.fabricRetransmit id) s = execFabricRetransmit id s := rfl
theorem exec_partcmdQuadrants (die : Nat) (s : State) :
    exec (.partcmdQuadrants die) s = execPartcmdQuadrants die s := rfl
theorem exec_partcmdBanks (die : Nat) (s : State) :
    exec (.partcmdBanks die) s = execPartcmdBanks die s := rfl
theorem exec_partcmdL2Ways (die : Nat) (s : State) :
    exec (.partcmdL2Ways die) s = execPartcmdL2Ways die s := rfl
theorem exec_partcmdBuckets (die : Nat) (s : State) :
    exec (.partcmdBuckets die) s = execPartcmdBuckets die s := rfl
theorem exec_mboxFirmwareCmd (code : BitVec 16) (s : State) :
    exec (.mboxFirmwareCmd code) s = execMboxFirmwareCmd code s := rfl
theorem exec_mboxDone (result : BitVec 16) (error : Bool) (vectors : BitVec 64) (put : List (Nat × Byte)) (s : State) :
    exec (.mboxDone result error vectors put) s = execMboxDone result error vectors put s := rfl
theorem exec_mboxWindowBase (v : BitVec 64) (s : State) :
    exec (.mboxWindowBase v) s = execMboxWindowBase v s := rfl
theorem exec_mboxIntCauseClear (v : BitVec 64) (s : State) :
    exec (.mboxIntCauseClear v) s = execMboxIntCauseClear v s := rfl
theorem exec_wrsrFpctl (h : Head) (a : Src) (s : State) :
    exec (.wrsrFpctl h a) s = execWrsrFpctl h a s := rfl
theorem exec_wrsrFpflags (h : Head) (a : Src) (s : State) :
    exec (.wrsrFpflags h a) s = execWrsrFpflags h a s := rfl
theorem exec_rdsrFpflags (h : Head) (d : Dst) (s : State) :
    exec (.rdsrFpflags h d) s = execRdsrFpflags h d s := rfl
theorem exec_rdsrClock0 (h : Head) (d : Dst) (s : State) :
    exec (.rdsrClock0 h d) s = execRdsrClock0 h d s := rfl
theorem exec_wrsrUtrap (h : Head) (word : BitVec 2) (a : Src) (s : State) :
    exec (.wrsrUtrap h word a) s = execWrsrUtrap h word a s := rfl
theorem exec_maskWrite (h : Head) (beat : BitVec 2) (imm : BitVec 32) (s : State) :
    exec (.maskWrite h beat imm) s = execMaskWrite h beat imm s := rfl
theorem exec_mfqheadWrite (h : Head) (a : Src) (s : State) :
    exec (.mfqheadWrite h a) s = execMfqheadWrite h a s := rfl
theorem exec_nop (h : Head) (s : State) :
    exec (.nop h) s = execNop h s := rfl
theorem exec_mov (h : Head) (d : Dst) (a : Src) (s : State) :
    exec (.mov h d a) s = execMov h d a s := rfl
theorem exec_movi (h : Head) (d : Dst) (imm : BitVec 32) (s : State) :
    exec (.movi h d imm) s = execMovi h d imm s := rfl
theorem exec_sel (h : Head) (d : Dst) (a b : Src) (p : Guard) (s : State) :
    exec (.sel h d a b p) s = execSel h d a b p s := rfl
theorem exec_iadd (h : Head) (d : Dst) (a b : Src) (sat sg : Bool) (s : State) :
    exec (.iadd h d a b sat sg) s = execIadd h d a b sat sg s := rfl
theorem exec_isub (h : Head) (d : Dst) (a b : Src) (sat sg : Bool) (s : State) :
    exec (.isub h d a b sat sg) s = execIsub h d a b sat sg s := rfl
theorem exec_imul (h : Head) (d : Dst) (a b : Src) (sg : Bool) (s : State) :
    exec (.imul h d a b sg) s = execImul h d a b sg s := rfl
theorem exec_imulh (h : Head) (d : Dst) (a b : Src) (sg : Bool) (s : State) :
    exec (.imulh h d a b sg) s = execImulh h d a b sg s := rfl
theorem exec_imad (h : Head) (d : Dst) (a b c : Src) (s : State) :
    exec (.imad h d a b c) s = execImad h d a b c s := rfl
theorem exec_imin (h : Head) (d : Dst) (a b : Src) (sg : Bool) (s : State) :
    exec (.imin h d a b sg) s = execImin h d a b sg s := rfl
theorem exec_imax (h : Head) (d : Dst) (a b : Src) (sg : Bool) (s : State) :
    exec (.imax h d a b sg) s = execImax h d a b sg s := rfl
theorem exec_iabs (h : Head) (d : Dst) (a : Src) (sat : Bool) (s : State) :
    exec (.iabs h d a sat) s = execIabs h d a sat s := rfl
theorem exec_shl (h : Head) (d : Dst) (a b : Src) (s : State) :
    exec (.shl h d a b) s = execShl h d a b s := rfl
theorem exec_shr (h : Head) (d : Dst) (a b : Src) (s : State) :
    exec (.shr h d a b) s = execShr h d a b s := rfl
theorem exec_sar (h : Head) (d : Dst) (a b : Src) (s : State) :
    exec (.sar h d a b) s = execSar h d a b s := rfl
theorem exec_rot (h : Head) (d : Dst) (a b : Src) (s : State) :
    exec (.rot h d a b) s = execRot h d a b s := rfl
theorem exec_and (h : Head) (d : Dst) (a b : Src) (s : State) :
    exec (.and h d a b) s = execAnd h d a b s := rfl
theorem exec_or (h : Head) (d : Dst) (a b : Src) (s : State) :
    exec (.or h d a b) s = execOr h d a b s := rfl
theorem exec_xor (h : Head) (d : Dst) (a b : Src) (s : State) :
    exec (.xor h d a b) s = execXor h d a b s := rfl
theorem exec_not (h : Head) (d : Dst) (a : Src) (s : State) :
    exec (.not h d a) s = execNot h d a s := rfl
theorem exec_lop3 (h : Head) (d : Dst) (a b : Src) (table : BitVec 8) (s : State) :
    exec (.lop3 h d a b table) s = execLop3 h d a b table s := rfl
theorem exec_bfx (h : Head) (d : Dst) (a b : Src) (sg : Bool) (s : State) :
    exec (.bfx h d a b sg) s = execBfx h d a b sg s := rfl
theorem exec_bfi (h : Head) (d : Dst) (a b c : Src) (s : State) :
    exec (.bfi h d a b c) s = execBfi h d a b c s := rfl
theorem exec_popc (h : Head) (d : Dst) (a : Src) (s : State) :
    exec (.popc h d a) s = execPopc h d a s := rfl
theorem exec_clz (h : Head) (d : Dst) (a : Src) (s : State) :
    exec (.clz h d a) s = execClz h d a s := rfl
theorem exec_brev (h : Head) (d : Dst) (a : Src) (s : State) :
    exec (.brev h d a) s = execBrev h d a s := rfl
theorem exec_lea (h : Head) (d : Dst) (a b : Src) (sh : BitVec 3) (sg : Bool) (s : State) :
    exec (.lea h d a b sh sg) s = execLea h d a b sh sg s := rfl
theorem exec_isetp (h : Head) (p : PDst) (a b : Src) (cond : BitVec 4) (sg : Bool) (s : State) :
    exec (.isetp h p a b cond sg) s = execIsetp h p a b cond sg s := rfl
theorem exec_iaddi (h : Head) (d : Dst) (a : Src) (imm : BitVec 27) (s : State) :
    exec (.iaddi h d a imm) s = execIaddi h d a imm s := rfl
theorem exec_shfl (h : Head) (d : Dst) (a b : Src) (mode : BitVec 4) (s : State) :
    exec (.shfl h d a b mode) s = execShfl h d a b mode s := rfl
theorem exec_vote (h : Head) (p : PDst) (a : Src) (mode : BitVec 4) (s : State) :
    exec (.vote h p a mode) s = execVote h p a mode s := rfl
theorem exec_voteBallot (h : Head) (k : BitVec 8) (a : Src) (s : State) :
    exec (.voteBallot h k a) s = execVoteBallot h k a s := rfl
theorem exec_redx (h : Head) (d : Dst) (a : Src) (op : BitVec 4) (rm : BitVec 3) (sg : Bool) (s : State) :
    exec (.redx h d a op rm sg) s = execRedx h d a op rm sg s := rfl
theorem exec_fadd (h : Head) (d : Dst) (a b : Src) (rm : BitVec 3) (s : State) :
    exec (.fadd h d a b rm) s = execFadd h d a b rm s := rfl
theorem exec_fsub (h : Head) (d : Dst) (a b : Src) (rm : BitVec 3) (s : State) :
    exec (.fsub h d a b rm) s = execFsub h d a b rm s := rfl
theorem exec_fmul (h : Head) (d : Dst) (a b : Src) (rm : BitVec 3) (s : State) :
    exec (.fmul h d a b rm) s = execFmul h d a b rm s := rfl
theorem exec_ffma (h : Head) (d : Dst) (a b c : Src) (s : State) :
    exec (.ffma h d a b c) s = execFfma h d a b c s := rfl
theorem exec_fmin (h : Head) (d : Dst) (a b : Src) (s : State) :
    exec (.fmin h d a b) s = execFmin h d a b s := rfl
theorem exec_fmax (h : Head) (d : Dst) (a b : Src) (s : State) :
    exec (.fmax h d a b) s = execFmax h d a b s := rfl
theorem exec_fsetp (h : Head) (p : PDst) (a b : Src) (cond : BitVec 4) (s : State) :
    exec (.fsetp h p a b cond) s = execFsetp h p a b cond s := rfl
theorem exec_fdiv (h : Head) (d : Dst) (a b : Src) (rm : BitVec 3) (s : State) :
    exec (.fdiv h d a b rm) s = execFdiv h d a b rm s := rfl
theorem exec_fsqrt (h : Head) (d : Dst) (a : Src) (rm : BitVec 3) (s : State) :
    exec (.fsqrt h d a rm) s = execFsqrt h d a rm s := rfl
theorem exec_frcp (h : Head) (d : Dst) (a : Src) (rm : BitVec 3) (s : State) :
    exec (.frcp h d a rm) s = execFrcp h d a rm s := rfl
theorem exec_frsq (h : Head) (d : Dst) (a : Src) (rm : BitVec 3) (s : State) :
    exec (.frsq h d a rm) s = execFrsq h d a rm s := rfl
theorem exec_fex2 (h : Head) (d : Dst) (a : Src) (rm : BitVec 3) (s : State) :
    exec (.fex2 h d a rm) s = execFex2 h d a rm s := rfl
theorem exec_flg2 (h : Head) (d : Dst) (a : Src) (rm : BitVec 3) (s : State) :
    exec (.flg2 h d a rm) s = execFlg2 h d a rm s := rfl
theorem exec_fsin (h : Head) (d : Dst) (a : Src) (rm : BitVec 3) (s : State) :
    exec (.fsin h d a rm) s = execFsin h d a rm s := rfl
theorem exec_fcos (h : Head) (d : Dst) (a : Src) (rm : BitVec 3) (s : State) :
    exec (.fcos h d a rm) s = execFcos h d a rm s := rfl
theorem exec_frnd (h : Head) (d : Dst) (a : Src) (exact : Bool) (rm : BitVec 3) (s : State) :
    exec (.frnd h d a exact rm) s = execFrnd h d a exact rm s := rfl
theorem exec_fcls (h : Head) (d : Dst) (a : Src) (s : State) :
    exec (.fcls h d a) s = execFcls h d a s := rfl
theorem exec_fcvt (h : Head) (d : Dst) (a : Src) (df sf : BitVec 3) (sat : Bool) (rm : BitVec 3) (s : State) :
    exec (.fcvt h d a df sf sat rm) s = execFcvt h d a df sf sat rm s := rfl
theorem exec_icvt (h : Head) (d : Dst) (a : Src) (df sw : BitVec 3) (sg : Bool) (rm : BitVec 3) (s : State) :
    exec (.icvt h d a df sw sg rm) s = execIcvt h d a df sw sg rm s := rfl
theorem exec_fcvti (h : Head) (d : Dst) (a : Src) (sf : BitVec 3) (sg : Bool) (rm : BitVec 3) (s : State) :
    exec (.fcvti h d a sf sg rm) s = execFcvti h d a sf sg rm s := rfl
theorem exec_blkq (h : Head) (d : BitVec 9) (a : BitVec 9) (b : Option Src) (ef sf : BitVec 3) (rm : BitVec 3) (s : State) :
    exec (.blkq h d a b ef sf rm) s = execBlkq h d a b ef sf rm s := rfl
theorem exec_blkdq (h : Head) (d : BitVec 9) (a b : Src) (df ef : BitVec 3) (rm : BitVec 3) (s : State) :
    exec (.blkdq h d a b df ef rm) s = execBlkdq h d a b df ef rm s := rfl
theorem exec_bscale (h : Head) (d : Dst) (a : Src) (ef sf : BitVec 3) (s : State) :
    exec (.bscale h d a ef sf) s = execBscale h d a ef sf s := rfl
theorem exec_srnd (h : Head) (d : Dst) (a : Src) (view : BitVec 3) (df sf : BitVec 3) (s : State) :
    exec (.srnd h d a view df sf) s = execSrnd h d a view df sf s := rfl
theorem exec_pack (h : Head) (d a : BitVec 9) (mode : BitVec 4) (sg : Bool) (sw : BitVec 3) (s : State) :
    exec (.pack h d a mode sg sw) s = execPack h d a mode sg sw s := rfl
theorem exec_unpack (h : Head) (d a : BitVec 9) (sg : Bool) (sw : BitVec 3) (s : State) :
    exec (.unpack h d a sg sw) s = execUnpack h d a sg sw s := rfl
theorem exec_tbld (h : Head) (k : Triple) (mask : BitVec 4) (sp : BitVec 3) (s : State) :
    exec (.tbld h k mask sp) s = execTbld h k mask sp s := rfl
theorem exec_tbind (h : Head) (s : State) :
    exec (.tbind h) s = execTbind h s := rfl
theorem exec_teval (h : Head) (d : Dst) (a : Src) (t : BitVec 2) (rm : BitVec 3) (s : State) :
    exec (.teval h d a t rm) s = execTeval h d a t rm s := rfl
theorem exec_lzdraw (h : Head) (view : BitVec 3) (a b : Src) (s : State) :
    exec (.lzdraw h view a b) s = execLzdraw h view a b s := rfl
theorem exec_lzcmp (h : Head) (p : BitVec 3) (view : BitVec 3) (b : Src) (fixed : Bool) (s : State) :
    exec (.lzcmp h p view b fixed) s = execLzcmp h p view b fixed s := rfl
theorem exec_lzcmpExt (h : Head) (view : BitVec 3) (b : Src) (s : State) :
    exec (.lzcmpExt h view b) s = execLzcmpExt h view b s := rfl
theorem exec_lzval (h : Head) (d : Dst) (view : BitVec 3) (rm : BitVec 3) (s : State) :
    exec (.lzval h d view rm) s = execLzval h d view rm s := rfl
theorem exec_ld (h : Head) (d : Dst) (a b : Src) (sp : BitVec 3) (pol : BitVec 2) (disp : BitVec 11) (s : State) :
    exec (.ld h d a b sp pol disp) s = execLd h d a b sp pol disp s := rfl
theorem exec_st (h : Head) (a b : Src) (sp : BitVec 3) (pol : BitVec 2) (disp : BitVec 11) (s : State) :
    exec (.st h a b sp pol disp) s = execSt h a b sp pol disp s := rfl
theorem exec_ldu (h : Head) (d : Dst) (a : Src) (sp : BitVec 3) (pol : BitVec 2) (disp : BitVec 6) (s : State) :
    exec (.ldu h d a sp pol disp) s = execLdu h d a sp pol disp s := rfl
theorem exec_gth (h : Head) (d : Dst) (a b : Src) (sp : BitVec 3) (pol : BitVec 2) (disp : BitVec 6) (s : State) :
    exec (.gth h d a b sp pol disp) s = execGth h d a b sp pol disp s := rfl
theorem exec_sct (h : Head) (data : BitVec 9) (a b : Src) (sp : BitVec 3) (pol : BitVec 2) (disp : BitVec 6) (s : State) :
    exec (.sct h data a b sp pol disp) s = execSct h data a b sp pol disp s := rfl
theorem exec_atom (h : Head) (d : Dst) (a b : Src) (sp : BitVec 3) (pol : BitVec 2) (op : BitVec 6) (s : State) :
    exec (.atom h d a b sp pol op) s = execAtom h d a b sp pol op s := rfl
theorem exec_atomo (h : Head) (d : Dst) (a b : Src) (pol : BitVec 2) (op : BitVec 6) (s : State) :
    exec (.atomo h d a b pol op) s = execAtomo h d a b pol op s := rfl
theorem exec_atomoFin (h : Head) (s : State) :
    exec (.atomoFin h) s = execAtomoFin h s := rfl
theorem exec_fence (h : Head) (pred succ : BitVec 4) (scope : BitVec 3) (s : State) :
    exec (.fence h pred succ scope) s = execFence h pred succ scope s := rfl
theorem exec_cpy (h : Head) (dk ak : Triple) (len : Src) (ssp : BitVec 3) (pol : BitVec 2) (dsp : BitVec 3) (s : State) :
    exec (.cpy h dk ak len ssp pol dsp) s = execCpy h dk ak len ssp pol dsp s := rfl
theorem exec_cpyCont (h : Head) (dk ak : Triple) (len : BitVec 8) (ssp : BitVec 3) (pol : BitVec 2) (dsp : BitVec 3) (s : State) :
    exec (.cpyCont h dk ak len ssp pol dsp) s = execCpyCont h dk ak len ssp pol dsp s := rfl
theorem exec_pref (h : Head) (a b : Src) (sp : BitVec 3) (pol : BitVec 2) (disp : BitVec 6) (s : State) :
    exec (.pref h a b sp pol disp) s = execPref h a b sp pol disp s := rfl
theorem exec_cmntWb (h : Head) (a b : Src) (sp : BitVec 3) (disp : BitVec 6) (s : State) :
    exec (.cmntWb h a b sp disp) s = execCmntWb h a b sp disp s := rfl
theorem exec_cmntInv (h : Head) (a b : Src) (sp : BitVec 3) (disp : BitVec 6) (s : State) :
    exec (.cmntInv h a b sp disp) s = execCmntInv h a b sp disp s := rfl
theorem exec_cmntL2wb (h : Head) (a b : Src) (sp : BitVec 3) (disp : BitVec 6) (s : State) :
    exec (.cmntL2wb h a b sp disp) s = execCmntL2wb h a b sp disp s := rfl
theorem exec_cmntL2inv (h : Head) (a b : Src) (sp : BitVec 3) (disp : BitVec 6) (s : State) :
    exec (.cmntL2inv h a b sp disp) s = execCmntL2inv h a b sp disp s := rfl
theorem exec_spill (h : Head) (n1 : BitVec 9) (a : Src) (f : BitVec 9) (pol : BitVec 2) (disp : BitVec 6) (s : State) :
    exec (.spill h n1 a f pol disp) s = execSpill h n1 a f pol disp s := rfl
theorem exec_fill (h : Head) (n1 : BitVec 9) (a : Src) (f : BitVec 9) (pol : BitVec 2) (disp : BitVec 6) (s : State) :
    exec (.fill h n1 a f pol disp) s = execFill h n1 a f pol disp s := rfl
theorem exec_ringPush (h : Head) (a : Triple) (b : Src) (sp : BitVec 3) (pol : BitVec 2) (s : State) :
    exec (.ringPush h a b sp pol) s = execRingPush h a b sp pol s := rfl
theorem exec_ringPop (h : Head) (d : Dst) (a : Triple) (sp : BitVec 3) (pol : BitVec 2) (s : State) :
    exec (.ringPop h d a sp pol) s = execRingPop h d a sp pol s := rfl
theorem exec_futFill (h : Head) (a b : Src) (sp : BitVec 3) (pol : BitVec 2) (s : State) :
    exec (.futFill h a b sp pol) s = execFutFill h a b sp pol s := rfl
theorem exec_futWait (h : Head) (d : Dst) (a : Src) (sp : BitVec 3) (pol : BitVec 2) (s : State) :
    exec (.futWait h d a sp pol) s = execFutWait h d a sp pol s := rfl
theorem exec_bra (h : Head) (target : BitVec 22) (reconv : BitVec 16) (hint : Bool) (s : State) :
    exec (.bra h target reconv hint) s = execBra h target reconv hint s := rfl
theorem exec_braUniform (h : Head) (target : BitVec 22) (reconv : BitVec 16) (hint : Bool) (s : State) :
    exec (.braUniform h target reconv hint) s = execBraUniform h target reconv hint s := rfl
theorem exec_brx (h : Head) (a : Src) (reconv : BitVec 16) (hint ug : Bool) (s : State) :
    exec (.brx h a reconv hint ug) s = execBrx h a reconv hint ug s := rfl
theorem exec_call (h : Head) (target : BitVec 22) (reconv : BitVec 16) (hint : Bool) (s : State) :
    exec (.call h target reconv hint) s = execCall h target reconv hint s := rfl
theorem exec_callUniform (h : Head) (target : BitVec 22) (reconv : BitVec 16) (hint : Bool) (s : State) :
    exec (.callUniform h target reconv hint) s = execCallUniform h target reconv hint s := rfl
theorem exec_callx (h : Head) (a : Src) (reconv : BitVec 16) (hint ug : Bool) (s : State) :
    exec (.callx h a reconv hint ug) s = execCallx h a reconv hint ug s := rfl
theorem exec_ret (h : Head) (s : State) :
    exec (.ret h) s = execRet h s := rfl
theorem exec_exit (h : Head) (s : State) :
    exec (.exit h) s = execExit h s := rfl
theorem exec_exitUniform (h : Head) (s : State) :
    exec (.exitUniform h) s = execExitUniform h s := rfl
theorem exec_yield (h : Head) (s : State) :
    exec (.yield h) s = execYield h s := rfl
theorem exec_barArrive (h : Head) (a b : Src) (s : State) :
    exec (.barArrive h a b) s = execBarArrive h a b s := rfl
theorem exec_barWait (h : Head) (a : Src) (s : State) :
    exec (.barWait h a) s = execBarWait h a s := rfl
theorem exec_barSync (h : Head) (a b : Src) (s : State) :
    exec (.barSync h a b) s = execBarSync h a b s := rfl
theorem exec_sleep (h : Head) (a : Src) (s : State) :
    exec (.sleep h a) s = execSleep h a s := rfl
theorem exec_trap (h : Head) (a : Src) (s : State) :
    exec (.trap h a) s = execTrap h a s := rfl
theorem exec_bkpt (h : Head) (a : Src) (s : State) :
    exec (.bkpt h a) s = execBkpt h a s := rfl
theorem exec_rtt (h : Head) (s : State) :
    exec (.rtt h) s = execRtt h s := rfl
theorem exec_rttSub (h : Head) (a : Src) (s : State) :
    exec (.rttSub h a) s = execRttSub h a s := rfl
theorem exec_rttSkip (h : Head) (s : State) :
    exec (.rttSkip h) s = execRttSkip h s := rfl
theorem exec_forkMx (h : Head) (d : BitVec 8) (a : Triple) (b : BitVec 8) (n : BitVec 3) (s : State) :
    exec (.forkMx h d a b n) s = execForkMx h d a b n s := rfl
theorem exec_forkCp (h : Head) (d : BitVec 8) (a : Triple) (b : BitVec 8) (n : BitVec 3) (s : State) :
    exec (.forkCp h d a b n) s = execForkCp h d a b n s := rfl
theorem exec_forkCl (h : Head) (d : BitVec 8) (a : Triple) (b : BitVec 8) (n : BitVec 3) (s : State) :
    exec (.forkCl h d a b n) s = execForkCl h d a b n s := rfl
theorem exec_rdv (h : Head) (d : Dst) (a : Src) (s : State) :
    exec (.rdv h d a) s = execRdv h d a s := rfl
theorem exec_mfeedDat (h : Head) (tile : BitVec 2) (row : BitVec 6) (a b : Src) (s : State) :
    exec (.mfeedDat h tile row a b) s = execMfeedDat h tile row a b s := rfl
theorem exec_mfeedScl (h : Head) (tile : BitVec 2) (row : BitVec 6) (a b : Src) (s : State) :
    exec (.mfeedScl h tile row a b) s = execMfeedScl h tile row a b s := rfl
theorem exec_mfeedBand (h : Head) (tile : BitVec 2) (a b : Src) (s : State) :
    exec (.mfeedBand h tile a b) s = execMfeedBand h tile a b s := rfl
theorem exec_mfeedQ (h : Head) (tile : BitVec 2) (row : BitVec 6) (a : BitVec 9) (b : Src) (s : State) :
    exec (.mfeedQ h tile row a b) s = execMfeedQ h tile row a b s := rfl
theorem exec_mwm (h : Head) (d : Dst) (tile : BitVec 3) (s : State) :
    exec (.mwm h d tile) s = execMwm h d tile s := rfl
theorem exec_stepLdtab (h : Head) (a : Triple) (sp : BitVec 3) (s : State) :
    exec (.stepLdtab h a sp) s = execStepLdtab h a sp s := rfl
theorem exec_stepBind (h : Head) (a : Triple) (sp : BitVec 3) (s : State) :
    exec (.stepBind h a sp) s = execStepBind h a sp s := rfl
theorem exec_stepRun (h : Head) (a : Triple) (sp : BitVec 3) (s : State) :
    exec (.stepRun h a sp) s = execStepRun h a sp s := rfl
theorem exec_stepWait (h : Head) (s : State) :
    exec (.stepWait h) s = execStepWait h s := rfl
theorem exec_stepDone (h : Head) (s : State) :
    exec (.stepDone h) s = execStepDone h s := rfl
theorem exec_stepQry (h : Head) (d : Triple) (t : Src) (s : State) :
    exec (.stepQry h d t) s = execStepQry h d t s := rfl
theorem exec_stepStat (h : Head) (d : Triple) (sp : BitVec 3) (s : State) :
    exec (.stepStat h d sp) s = execStepStat h d sp s := rfl
theorem exec_stepStop (h : Head) (s : State) :
    exec (.stepStop h) s = execStepStop h s := rfl
theorem exec_spawn (h : Head) (a : Src) (f : BitVec 9) (s : State) :
    exec (.spawn h a f) s = execSpawn h a f s := rfl
theorem exec_spawnUniform (h : Head) (a b : BitVec 8) (s : State) :
    exec (.spawnUniform h a b) s = execSpawnUniform h a b s := rfl
theorem exec_tend (h : Head) (s : State) :
    exec (.tend h) s = execTend h s := rfl
theorem exec_claim (h : Head) (n : Src) (s : State) :
    exec (.claim h n) s = execClaim h n s := rfl
theorem exec_give (h : Head) (n : Src) (s : State) :
    exec (.give h n) s = execGive h n s := rfl
theorem exec_giveRole (h : Head) (n r : Src) (s : State) :
    exec (.giveRole h n r) s = execGiveRole h n r s := rfl
theorem exec_regionBegin (h : Head) (s : State) :
    exec (.regionBegin h) s = execRegionBegin h s := rfl
theorem exec_regionEnd (h : Head) (s : State) :
    exec (.regionEnd h) s = execRegionEnd h s := rfl
theorem exec_digestRd (h : Head) (d : Dst) (n : BitVec 2) (s : State) :
    exec (.digestRd h d n) s = execDigestRd h d n s := rfl
theorem exec_digestFold (h : Head) (a : Src) (s : State) :
    exec (.digestFold h a) s = execDigestFold h a s := rfl
theorem exec_rdsr (h : Head) (d : Dst) (num : BitVec 11) (s : State) :
    exec (.rdsr h d num) s = execRdsr h d num s := rfl
theorem exec_wrsr (h : Head) (num : BitVec 11) (a : Src) (s : State) :
    exec (.wrsr h num a) s = execWrsr h num a s := rfl
theorem exec_sysLaunch (h : Head) (a : Triple) (b : Src) (sp : BitVec 3) (s : State) :
    exec (.sysLaunch h a b sp) s = execSysLaunch h a b sp s := rfl
theorem exec_sysTlbinv (h : Head) (a : Triple) (b : BitVec 8) (sc : BitVec 3) (s : State) :
    exec (.sysTlbinv h a b sc) s = execSysTlbinv h a b sc s := rfl
theorem exec_sysCarve (h : Head) (a : BitVec 8) (s : State) :
    exec (.sysCarve h a) s = execSysCarve h a s := rfl
theorem exec_sysHalt (h : Head) (a : BitVec 8) (s : State) :
    exec (.sysHalt h a) s = execSysHalt h a s := rfl
theorem exec_sysReplay (h : Head) (a : BitVec 8) (s : State) :
    exec (.sysReplay h a) s = execSysReplay h a s := rfl
theorem exec_sysEfail (h : Head) (a : BitVec 8) (s : State) :
    exec (.sysEfail h a) s = execSysEfail h a s := rfl
theorem exec_sysDebug (h : Head) (a b : BitVec 8) (s : State) :
    exec (.sysDebug h a b) s = execSysDebug h a b s := rfl
theorem exec_sysSlice (h : Head) (a b : BitVec 8) (s : State) :
    exec (.sysSlice h a b) s = execSysSlice h a b s := rfl
theorem exec_smov (d a : SReg) (s : State) :
    exec (.smov d a) s = execSmov d a s := rfl
theorem exec_smovi (d : SReg) (imm : BitVec 32) (s : State) :
    exec (.smovi d imm) s = execSmovi d imm s := rfl
theorem exec_sadd (d a b : SReg) (s : State) :
    exec (.sadd d a b) s = execSadd d a b s := rfl
theorem exec_saddi (d a : SReg) (imm : BitVec 32) (s : State) :
    exec (.saddi d a imm) s = execSaddi d a imm s := rfl
theorem exec_ssub (d a b : SReg) (s : State) :
    exec (.ssub d a b) s = execSsub d a b s := rfl
theorem exec_smul (d a b : SReg) (s : State) :
    exec (.smul d a b) s = execSmul d a b s := rfl
theorem exec_sshl (d a b : SReg) (s : State) :
    exec (.sshl d a b) s = execSshl d a b s := rfl
theorem exec_sshr (d a b : SReg) (s : State) :
    exec (.sshr d a b) s = execSshr d a b s := rfl
theorem exec_sand (d a b : SReg) (s : State) :
    exec (.sand d a b) s = execSand d a b s := rfl
theorem exec_sor (d a b : SReg) (s : State) :
    exec (.sor d a b) s = execSor d a b s := rfl
theorem exec_scmp (d a b : SReg) (cond : BitVec 3) (s : State) :
    exec (.scmp d a b cond) s = execScmp d a b cond s := rfl
theorem exec_sbra (a b : SReg) (cond : BitVec 3) (imm : BitVec 32) (s : State) :
    exec (.sbra a b cond imm) s = execSbra a b cond imm s := rfl
theorem exec_sloop (d : SReg) (imm : BitVec 32) (s : State) :
    exec (.sloop d imm) s = execSloop d imm s := rfl
theorem exec_ssig (sp : BitVec 4) (a : SReg) (imm : BitVec 32) (s : State) :
    exec (.ssig sp a imm) s = execSsig sp a imm s := rfl
theorem exec_mma (fmt : BitVec 4) (at_ : BitVec 2) (reuse : Bool) (acc : BitVec 3) (b c : SReg) (k : BitVec 6) (s : State) :
    exec (.mma fmt at_ reuse acc b c k) s = execMma fmt at_ reuse acc b c k s := rfl
theorem exec_mzero (acc : BitVec 3) (s : State) :
    exec (.mzero acc) s = execMzero acc s := rfl
theorem exec_mwaitAt (at_ : BitVec 2) (s : State) :
    exec (.mwaitAt at_) s = execMwaitAt at_ s := rfl
theorem exec_mwaitAcc (acc : BitVec 3) (s : State) :
    exec (.mwaitAcc acc) s = execMwaitAcc acc s := rfl
theorem exec_mrel (at_ : BitVec 2) (s : State) :
    exec (.mrel at_) s = execMrel at_ s := rfl
theorem exec_mbscale (acc : BitVec 3) (f : SReg) (s : State) :
    exec (.mbscale acc f) s = execMbscale acc f s := rfl
theorem exec_cld (w : BitVec 3) (d a n x : SReg) (dsp ssp : BitVec 3) (pol : BitVec 2) (s : State) :
    exec (.cld w d a n x dsp ssp pol) s = execCld w d a n x dsp ssp pol s := rfl
theorem exec_cst (w : BitVec 3) (d a n x : SReg) (dsp ssp : BitVec 3) (pol : BitVec 2) (s : State) :
    exec (.cst w d a n x dsp ssp pol) s = execCst w d a n x dsp ssp pol s := rfl
theorem exec_cgth (w : BitVec 3) (d a n x : SReg) (dsp ssp : BitVec 3) (pol : BitVec 2) (s : State) :
    exec (.cgth w d a n x dsp ssp pol) s = execCgth w d a n x dsp ssp pol s := rfl
theorem exec_csct (w : BitVec 3) (d a n x : SReg) (dsp ssp : BitVec 3) (pol : BitVec 2) (s : State) :
    exec (.csct w d a n x dsp ssp pol) s = execCsct w d a n x dsp ssp pol s := rfl
theorem exec_cacc (w : BitVec 3) (d a n x : SReg) (dsp ssp : BitVec 3) (pol : BitVec 2) (tile : BitVec 3) (s : State) :
    exec (.cacc w d a n x dsp ssp pol tile) s = execCacc w d a n x dsp ssp pol tile s := rfl
theorem exec_ccoll (w : BitVec 3) (d a n x : SReg) (dsp ssp : BitVec 3) (pol : BitVec 2) (op scope : BitVec 3) (s : State) :
    exec (.ccoll w d a n x dsp ssp pol op scope) s = execCcoll w d a n x dsp ssp pol op scope s := rfl
theorem exec_cwait (w : BitVec 3) (a n : SReg) (ssp : BitVec 3) (pol : BitVec 2) (s : State) :
    exec (.cwait w a n ssp pol) s = execCwait w a n ssp pol s := rfl
theorem exec_cfill (w : BitVec 3) (d a n : SReg) (dsp : BitVec 3) (pol : BitVec 2) (s : State) :
    exec (.cfill w d a n dsp pol) s = execCfill w d a n dsp pol s := rfl
theorem exec_lazyInstructionComplete (id : Nat) (s : State) :
    exec (.lazyInstructionComplete id) s = execLazyInstructionComplete id s := rfl
theorem exec_copyOperationComplete (id : Nat) (s : State) :
    exec (.copyOperationComplete id) s = execCopyOperationComplete id s := rfl
theorem exec_fabricRemoteAccess (access : RemoteAccess) (addr : Nat) (s : State) :
    exec (.fabricRemoteAccess access addr) s = execFabricRemoteAccess access addr s := rfl
theorem exec_mboxNop (s : State) : exec .mboxNop s = execMboxNop s := rfl
theorem exec_mboxAttest (s : State) : exec .mboxAttest s = execMboxAttest s := rfl
theorem exec_mboxTelemetry (s : State) : exec .mboxTelemetry s = execMboxTelemetry s := rfl
theorem exec_resetBoot (s : State) : exec .resetBoot s = execResetBoot s := rfl
theorem exec_thermalTrip (s : State) : exec .thermalTrip s = execThermalTrip s := rfl
theorem exec_join (s : State) : exec .join s = execJoin s := rfl
theorem exec_snop (s : State) : exec .snop s = execSnop s := rfl
theorem exec_send (s : State) : exec .send s = execSend s := rfl

end Sys2Proof.Machine
end

