-- ==== Sys2Proof/Laws/Gate.lean ====
section
/-! SUPPORT. Every word is what it does behind the gate of R34. -/

set_option linter.unusedSimpArgs false

namespace Sys2Proof.Machine

/-- The meaning is the gate, and then what the word does. -/
def Gated (i : Instr) : Prop :=
  ∃ k : State → State → Nat → Bool → Group → Slot → Shape → Out, ∀ s, exec i s = gate i s (k s)

/-- The meaning looks first at where the lanes land, and is then the gate, and what the word does. -/
def Landed (i : Instr) : Prop :=
  ∃ k : State → State → Nat → Bool → Group → Slot → Shape → Out, ∀ s, exec i s = landGate i s (k s)

/-- The meaning is behind one of the two gates, or behind that of ret. -/
def Guarded (i : Instr) : Prop :=
  Landed i ∨ ∃ h, ∃ k : State → State → Nat → Bool → Group → Slot → Shape → Out, i = .ret h ∧ ∀ s, exec i s = retGate i h s (k s)

/-- Lanes that go nowhere land nowhere. -/
theorem badLanding_nil (s : State) (g : Group) : badLanding s g [] = 0#96 := rfl

/-- A word that transfers nowhere has the gate alone. -/
theorem landGate_of_nil {i : Instr} (h : ∀ s g sl sh, transfersTo i s g sl sh = []) (s : State)
    (k : State → Nat → Bool → Group → Slot → Shape → Out) : landGate i s k = gate i s k := by
  unfold landGate
  split
  · split
    · rw [h, landThen, badLanding_nil, if_pos rfl]
    · rfl
  · rfl

theorem Gated.landed {i : Instr} (hg : Gated i) (h : ∀ s g sl sh, transfersTo i s g sl sh = []) : Landed i := by
  obtain ⟨k, hk⟩ := hg
  exact ⟨k, fun s => by rw [hk, landGate_of_nil h]⟩

theorem Gated.guarded {i : Instr} (hg : Gated i) (h : ∀ s g sl sh, transfersTo i s g sl sh = []) : Guarded i := .inl (hg.landed h)

theorem gated_wrsrFpctl (h : Head) (a : Src) : Gated (.wrsrFpctl h a) := by
  refine ⟨?k, fun s => ?h⟩
  case h =>
    rw [exec_wrsrFpctl]
    unfold execWrsrFpctl
    rfl
theorem gated_wrsrFpflags (h : Head) (a : Src) : Gated (.wrsrFpflags h a) := by
  refine ⟨?k, fun s => ?h⟩
  case h =>
    rw [exec_wrsrFpflags]
    unfold execWrsrFpflags
    rfl
theorem gated_rdsrFpflags (h : Head) (d : Dst) : Gated (.rdsrFpflags h d) := by
  refine ⟨?k, fun s => ?h⟩
  case h =>
    rw [exec_rdsrFpflags]
    unfold execRdsrFpflags
    rfl
theorem gated_rdsrClock0 (h : Head) (d : Dst) : Gated (.rdsrClock0 h d) := by
  refine ⟨?k, fun s => ?h⟩
  case h =>
    rw [exec_rdsrClock0]
    unfold execRdsrClock0
    rfl
theorem gated_wrsrUtrap (h : Head) (word : BitVec 2) (a : Src) : Gated (.wrsrUtrap h word a) := by
  refine ⟨?k, fun s => ?h⟩
  case h =>
    rw [exec_wrsrUtrap]
    unfold execWrsrUtrap
    rfl
theorem gated_maskWrite (h : Head) (beat : BitVec 2) (imm : BitVec 32) : Gated (.maskWrite h beat imm) := by
  refine ⟨?k, fun s => ?h⟩
  case h =>
    rw [exec_maskWrite]
    unfold execMaskWrite
    rfl
theorem gated_mfqheadWrite (h : Head) (a : Src) : Gated (.mfqheadWrite h a) := by
  refine ⟨?k, fun s => ?h⟩
  case h =>
    rw [exec_mfqheadWrite]
    unfold execMfqheadWrite
    rfl
theorem gated_nop (h : Head) : Gated (.nop h) := by
  refine ⟨?k, fun s => ?h⟩
  case h =>
    rw [exec_nop]
    unfold execNop
    rfl
theorem gated_mov (h : Head) (d : Dst) (a : Src) : Gated (.mov h d a) := by
  refine ⟨?k, fun s => ?h⟩
  case h =>
    rw [exec_mov]
    unfold execMov
    simp only [intBin, intUn, fltUn, fltBin, fltMinMax]; rfl
theorem gated_movi (h : Head) (d : Dst) (imm : BitVec 32) : Gated (.movi h d imm) := by
  refine ⟨?k, fun s => ?h⟩
  case h =>
    rw [exec_movi]
    unfold execMovi
    rfl
theorem gated_sel (h : Head) (d : Dst) (a b : Src) (p : Guard) : Gated (.sel h d a b p) := by
  refine ⟨?k, fun s => ?h⟩
  case h =>
    rw [exec_sel]
    unfold execSel
    rfl
theorem gated_iadd (h : Head) (d : Dst) (a b : Src) (sat sg : Bool) : Gated (.iadd h d a b sat sg) := by
  refine ⟨?k, fun s => ?h⟩
  case h =>
    rw [exec_iadd]
    unfold execIadd
    simp only [intBin, intUn, fltUn, fltBin, fltMinMax]; rfl
theorem gated_isub (h : Head) (d : Dst) (a b : Src) (sat sg : Bool) : Gated (.isub h d a b sat sg) := by
  refine ⟨?k, fun s => ?h⟩
  case h =>
    rw [exec_isub]
    unfold execIsub
    simp only [intBin, intUn, fltUn, fltBin, fltMinMax]; rfl
theorem gated_imul (h : Head) (d : Dst) (a b : Src) (sg : Bool) : Gated (.imul h d a b sg) := by
  refine ⟨?k, fun s => ?h⟩
  case h =>
    rw [exec_imul]
    unfold execImul
    simp only [intBin, intUn, fltUn, fltBin, fltMinMax]; rfl
theorem gated_imulh (h : Head) (d : Dst) (a b : Src) (sg : Bool) : Gated (.imulh h d a b sg) := by
  refine ⟨?k, fun s => ?h⟩
  case h =>
    rw [exec_imulh]
    unfold execImulh
    simp only [intBin, intUn, fltUn, fltBin, fltMinMax]; rfl
theorem gated_imad (h : Head) (d : Dst) (a b c : Src) : Gated (.imad h d a b c) := by
  refine ⟨?k, fun s => ?h⟩
  case h =>
    rw [exec_imad]
    unfold execImad
    rfl
theorem gated_imin (h : Head) (d : Dst) (a b : Src) (sg : Bool) : Gated (.imin h d a b sg) := by
  refine ⟨?k, fun s => ?h⟩
  case h =>
    rw [exec_imin]
    unfold execImin
    simp only [intBin, intUn, fltUn, fltBin, fltMinMax]; rfl
theorem gated_imax (h : Head) (d : Dst) (a b : Src) (sg : Bool) : Gated (.imax h d a b sg) := by
  refine ⟨?k, fun s => ?h⟩
  case h =>
    rw [exec_imax]
    unfold execImax
    simp only [intBin, intUn, fltUn, fltBin, fltMinMax]; rfl
theorem gated_iabs (h : Head) (d : Dst) (a : Src) (sat : Bool) : Gated (.iabs h d a sat) := by
  refine ⟨?k, fun s => ?h⟩
  case h =>
    rw [exec_iabs]
    unfold execIabs
    simp only [intBin, intUn, fltUn, fltBin, fltMinMax]; rfl
theorem gated_shl (h : Head) (d : Dst) (a b : Src) : Gated (.shl h d a b) := by
  refine ⟨?k, fun s => ?h⟩
  case h =>
    rw [exec_shl]
    unfold execShl
    simp only [intBin, intUn, fltUn, fltBin, fltMinMax]; rfl
theorem gated_shr (h : Head) (d : Dst) (a b : Src) : Gated (.shr h d a b) := by
  refine ⟨?k, fun s => ?h⟩
  case h =>
    rw [exec_shr]
    unfold execShr
    simp only [intBin, intUn, fltUn, fltBin, fltMinMax]; rfl
theorem gated_sar (h : Head) (d : Dst) (a b : Src) : Gated (.sar h d a b) := by
  refine ⟨?k, fun s => ?h⟩
  case h =>
    rw [exec_sar]
    unfold execSar
    simp only [intBin, intUn, fltUn, fltBin, fltMinMax]; rfl
theorem gated_rot (h : Head) (d : Dst) (a b : Src) : Gated (.rot h d a b) := by
  refine ⟨?k, fun s => ?h⟩
  case h =>
    rw [exec_rot]
    unfold execRot
    simp only [intBin, intUn, fltUn, fltBin, fltMinMax]; rfl
theorem gated_and (h : Head) (d : Dst) (a b : Src) : Gated (.and h d a b) := by
  refine ⟨?k, fun s => ?h⟩
  case h =>
    rw [exec_and]
    unfold execAnd
    simp only [intBin, intUn, fltUn, fltBin, fltMinMax]; rfl
theorem gated_or (h : Head) (d : Dst) (a b : Src) : Gated (.or h d a b) := by
  refine ⟨?k, fun s => ?h⟩
  case h =>
    rw [exec_or]
    unfold execOr
    simp only [intBin, intUn, fltUn, fltBin, fltMinMax]; rfl
theorem gated_xor (h : Head) (d : Dst) (a b : Src) : Gated (.xor h d a b) := by
  refine ⟨?k, fun s => ?h⟩
  case h =>
    rw [exec_xor]
    unfold execXor
    simp only [intBin, intUn, fltUn, fltBin, fltMinMax]; rfl
theorem gated_not (h : Head) (d : Dst) (a : Src) : Gated (.not h d a) := by
  refine ⟨?k, fun s => ?h⟩
  case h =>
    rw [exec_not]
    unfold execNot
    simp only [intBin, intUn, fltUn, fltBin, fltMinMax]; rfl
theorem gated_lop3 (h : Head) (d : Dst) (a b : Src) (table : BitVec 8) : Gated (.lop3 h d a b table) := by
  refine ⟨?k, fun s => ?h⟩
  case h =>
    rw [exec_lop3]
    unfold execLop3
    rfl
theorem gated_bfx (h : Head) (d : Dst) (a b : Src) (sg : Bool) : Gated (.bfx h d a b sg) := by
  refine ⟨?k, fun s => ?h⟩
  case h =>
    rw [exec_bfx]
    unfold execBfx
    rfl
theorem gated_bfi (h : Head) (d : Dst) (a b c : Src) : Gated (.bfi h d a b c) := by
  refine ⟨?k, fun s => ?h⟩
  case h =>
    rw [exec_bfi]
    unfold execBfi
    rfl
theorem gated_popc (h : Head) (d : Dst) (a : Src) : Gated (.popc h d a) := by
  refine ⟨?k, fun s => ?h⟩
  case h =>
    rw [exec_popc]
    unfold execPopc
    simp only [intBin, intUn, fltUn, fltBin, fltMinMax]; rfl
theorem gated_clz (h : Head) (d : Dst) (a : Src) : Gated (.clz h d a) := by
  refine ⟨?k, fun s => ?h⟩
  case h =>
    rw [exec_clz]
    unfold execClz
    simp only [intBin, intUn, fltUn, fltBin, fltMinMax]; rfl
theorem gated_brev (h : Head) (d : Dst) (a : Src) : Gated (.brev h d a) := by
  refine ⟨?k, fun s => ?h⟩
  case h =>
    rw [exec_brev]
    unfold execBrev
    simp only [intBin, intUn, fltUn, fltBin, fltMinMax]; rfl
theorem gated_lea (h : Head) (d : Dst) (a b : Src) (sh : BitVec 3) (sg : Bool) : Gated (.lea h d a b sh sg) := by
  refine ⟨?k, fun s => ?h⟩
  case h =>
    rw [exec_lea]
    unfold execLea
    rfl
theorem gated_isetp (h : Head) (p : PDst) (a b : Src) (cond : BitVec 4) (sg : Bool) : Gated (.isetp h p a b cond sg) := by
  refine ⟨?k, fun s => ?h⟩
  case h =>
    rw [exec_isetp]
    unfold execIsetp
    rfl
theorem gated_iaddi (h : Head) (d : Dst) (a : Src) (imm : BitVec 27) : Gated (.iaddi h d a imm) := by
  refine ⟨?k, fun s => ?h⟩
  case h =>
    rw [exec_iaddi]
    unfold execIaddi
    simp only [intBin, intUn, fltUn, fltBin, fltMinMax]; rfl
theorem gated_shfl (h : Head) (d : Dst) (a b : Src) (mode : BitVec 4) : Gated (.shfl h d a b mode) := by
  refine ⟨?k, fun s => ?h⟩
  case h =>
    rw [exec_shfl]
    unfold execShfl
    rfl
theorem gated_vote (h : Head) (p : PDst) (a : Src) (mode : BitVec 4) : Gated (.vote h p a mode) := by
  refine ⟨?k, fun s => ?h⟩
  case h =>
    rw [exec_vote]
    unfold execVote
    rfl
theorem gated_voteBallot (h : Head) (k : BitVec 8) (a : Src) : Gated (.voteBallot h k a) := by
  refine ⟨?k, fun s => ?h⟩
  case h =>
    rw [exec_voteBallot]
    unfold execVoteBallot
    rfl
theorem gated_redx (h : Head) (d : Dst) (a : Src) (op : BitVec 4) (rm : BitVec 3) (sg : Bool) : Gated (.redx h d a op rm sg) := by
  by_cases ho : op = 6#4
  · refine ⟨?k, fun s => ?pf⟩
    case pf =>
      rw [exec_redx]; unfold execRedx; rw [if_pos ho]
  · refine ⟨?k2, fun s => ?pf2⟩
    case pf2 =>
      rw [exec_redx]; unfold execRedx; rw [if_neg ho]; simp only [runV]; rfl
theorem gated_fadd (h : Head) (d : Dst) (a b : Src) (rm : BitVec 3) : Gated (.fadd h d a b rm) := by
  refine ⟨?k, fun s => ?h⟩
  case h =>
    rw [exec_fadd]
    unfold execFadd
    simp only [intBin, intUn, fltUn, fltBin, fltMinMax]; rfl
theorem gated_fsub (h : Head) (d : Dst) (a b : Src) (rm : BitVec 3) : Gated (.fsub h d a b rm) := by
  refine ⟨?k, fun s => ?h⟩
  case h =>
    rw [exec_fsub]
    unfold execFsub
    simp only [intBin, intUn, fltUn, fltBin, fltMinMax]; rfl
theorem gated_fmul (h : Head) (d : Dst) (a b : Src) (rm : BitVec 3) : Gated (.fmul h d a b rm) := by
  refine ⟨?k, fun s => ?h⟩
  case h =>
    rw [exec_fmul]
    unfold execFmul
    simp only [intBin, intUn, fltUn, fltBin, fltMinMax]; rfl
theorem gated_ffma (h : Head) (d : Dst) (a b c : Src) : Gated (.ffma h d a b c) := by
  refine ⟨?k, fun s => ?h⟩
  case h =>
    rw [exec_ffma]
    unfold execFfma
    rfl
theorem gated_fmin (h : Head) (d : Dst) (a b : Src) : Gated (.fmin h d a b) := by
  refine ⟨?k, fun s => ?h⟩
  case h =>
    rw [exec_fmin]
    unfold execFmin
    simp only [intBin, intUn, fltUn, fltBin, fltMinMax]; rfl
theorem gated_fmax (h : Head) (d : Dst) (a b : Src) : Gated (.fmax h d a b) := by
  refine ⟨?k, fun s => ?h⟩
  case h =>
    rw [exec_fmax]
    unfold execFmax
    simp only [intBin, intUn, fltUn, fltBin, fltMinMax]; rfl
theorem gated_fsetp (h : Head) (p : PDst) (a b : Src) (cond : BitVec 4) : Gated (.fsetp h p a b cond) := by
  refine ⟨?k, fun s => ?h⟩
  case h =>
    rw [exec_fsetp]
    unfold execFsetp
    rfl
theorem gated_fdiv (h : Head) (d : Dst) (a b : Src) (rm : BitVec 3) : Gated (.fdiv h d a b rm) := by
  refine ⟨?k, fun s => ?h⟩
  case h =>
    rw [exec_fdiv]
    unfold execFdiv
    simp only [intBin, intUn, fltUn, fltBin, fltMinMax]; rfl
theorem gated_fsqrt (h : Head) (d : Dst) (a : Src) (rm : BitVec 3) : Gated (.fsqrt h d a rm) := by
  refine ⟨?k, fun s => ?h⟩
  case h =>
    rw [exec_fsqrt]
    unfold execFsqrt
    simp only [intBin, intUn, fltUn, fltBin, fltMinMax]; rfl
theorem gated_frcp (h : Head) (d : Dst) (a : Src) (rm : BitVec 3) : Gated (.frcp h d a rm) := by
  refine ⟨?k, fun s => ?h⟩
  case h =>
    rw [exec_frcp]
    unfold execFrcp
    simp only [intBin, intUn, fltUn, fltBin, fltMinMax]; rfl
theorem gated_frsq (h : Head) (d : Dst) (a : Src) (rm : BitVec 3) : Gated (.frsq h d a rm) := by
  refine ⟨?k, fun s => ?h⟩
  case h =>
    rw [exec_frsq]
    unfold execFrsq
    simp only [intBin, intUn, fltUn, fltBin, fltMinMax]; rfl
theorem gated_fex2 (h : Head) (d : Dst) (a : Src) (rm : BitVec 3) : Gated (.fex2 h d a rm) := by
  refine ⟨?k, fun s => ?h⟩
  case h =>
    rw [exec_fex2]
    unfold execFex2
    simp only [intBin, intUn, fltUn, fltBin, fltMinMax]; rfl
theorem gated_flg2 (h : Head) (d : Dst) (a : Src) (rm : BitVec 3) : Gated (.flg2 h d a rm) := by
  refine ⟨?k, fun s => ?h⟩
  case h =>
    rw [exec_flg2]
    unfold execFlg2
    simp only [intBin, intUn, fltUn, fltBin, fltMinMax]; rfl
theorem gated_fsin (h : Head) (d : Dst) (a : Src) (rm : BitVec 3) : Gated (.fsin h d a rm) := by
  refine ⟨?k, fun s => ?h⟩
  case h =>
    rw [exec_fsin]
    unfold execFsin
    simp only [intBin, intUn, fltUn, fltBin, fltMinMax]; rfl
theorem gated_fcos (h : Head) (d : Dst) (a : Src) (rm : BitVec 3) : Gated (.fcos h d a rm) := by
  refine ⟨?k, fun s => ?h⟩
  case h =>
    rw [exec_fcos]
    unfold execFcos
    simp only [intBin, intUn, fltUn, fltBin, fltMinMax]; rfl
theorem gated_frnd (h : Head) (d : Dst) (a : Src) (exact : Bool) (rm : BitVec 3) : Gated (.frnd h d a exact rm) := by
  refine ⟨?k, fun s => ?h⟩
  case h =>
    rw [exec_frnd]
    unfold execFrnd
    rfl
theorem gated_fcls (h : Head) (d : Dst) (a : Src) : Gated (.fcls h d a) := by
  refine ⟨?k, fun s => ?h⟩
  case h =>
    rw [exec_fcls]
    unfold execFcls
    rfl
theorem gated_fcvt (h : Head) (d : Dst) (a : Src) (df sf : BitVec 3) (sat : Bool) (rm : BitVec 3) : Gated (.fcvt h d a df sf sat rm) := by
  refine ⟨?k, fun s => ?h⟩
  case h =>
    rw [exec_fcvt]
    unfold execFcvt
    rfl
theorem gated_icvt (h : Head) (d : Dst) (a : Src) (df sw : BitVec 3) (sg : Bool) (rm : BitVec 3) : Gated (.icvt h d a df sw sg rm) := by
  refine ⟨?k, fun s => ?h⟩
  case h =>
    rw [exec_icvt]
    unfold execIcvt
    rfl
theorem gated_fcvti (h : Head) (d : Dst) (a : Src) (sf : BitVec 3) (sg : Bool) (rm : BitVec 3) : Gated (.fcvti h d a sf sg rm) := by
  refine ⟨?k, fun s => ?h⟩
  case h =>
    rw [exec_fcvti]
    unfold execFcvti
    rfl
theorem gated_blkq (h : Head) (d : BitVec 9) (a : BitVec 9) (b : Option Src) (ef sf : BitVec 3) (rm : BitVec 3) : Gated (.blkq h d a b ef sf rm) := by
  refine ⟨?k, fun s => ?h⟩
  case h =>
    rw [exec_blkq]
    unfold execBlkq
    rfl
theorem gated_blkdq (h : Head) (d : BitVec 9) (a b : Src) (df ef : BitVec 3) (rm : BitVec 3) : Gated (.blkdq h d a b df ef rm) := by
  refine ⟨?k, fun s => ?h⟩
  case h =>
    rw [exec_blkdq]
    unfold execBlkdq
    rfl
theorem gated_bscale (h : Head) (d : Dst) (a : Src) (ef sf : BitVec 3) : Gated (.bscale h d a ef sf) := by
  refine ⟨?k, fun s => ?h⟩
  case h =>
    rw [exec_bscale]
    unfold execBscale
    rfl
theorem gated_srnd (h : Head) (d : Dst) (a : Src) (view : BitVec 3) (df sf : BitVec 3) : Gated (.srnd h d a view df sf) := by
  refine ⟨?k, fun s => ?h⟩
  case h =>
    rw [exec_srnd]
    unfold execSrnd
    rfl
theorem gated_pack (h : Head) (d a : BitVec 9) (mode : BitVec 4) (sg : Bool) (sw : BitVec 3) : Gated (.pack h d a mode sg sw) := by
  refine ⟨?k, fun s => ?h⟩
  case h =>
    rw [exec_pack]
    unfold execPack
    rfl
theorem gated_unpack (h : Head) (d a : BitVec 9) (sg : Bool) (sw : BitVec 3) : Gated (.unpack h d a sg sw) := by
  refine ⟨?k, fun s => ?h⟩
  case h =>
    rw [exec_unpack]
    unfold execUnpack
    rfl
theorem gated_tbld (h : Head) (k : Triple) (mask : BitVec 4) (sp : BitVec 3) : Gated (.tbld h k mask sp) := by
  refine ⟨?k, fun s => ?h⟩
  case h =>
    rw [exec_tbld]
    unfold execTbld
    rfl
theorem gated_tbind (h : Head) : Gated (.tbind h) := by
  refine ⟨?k, fun s => ?h⟩
  case h =>
    rw [exec_tbind]
    unfold execTbind
    rfl
theorem gated_teval (h : Head) (d : Dst) (a : Src) (t : BitVec 2) (rm : BitVec 3) : Gated (.teval h d a t rm) := by
  refine ⟨?k, fun s => ?h⟩
  case h =>
    rw [exec_teval]
    unfold execTeval
    rfl
theorem gated_lzdraw (h : Head) (view : BitVec 3) (a b : Src) : Gated (.lzdraw h view a b) := by
  refine ⟨?k, fun s => ?h⟩
  case h =>
    rw [exec_lzdraw]
    unfold execLzdraw
    rfl
theorem gated_lzcmp (h : Head) (p : BitVec 3) (view : BitVec 3) (b : Src) (fixed : Bool) : Gated (.lzcmp h p view b fixed) := by
  refine ⟨?k, fun s => ?h⟩
  case h =>
    rw [exec_lzcmp]
    unfold execLzcmp
    rfl
theorem gated_lzcmpExt (h : Head) (view : BitVec 3) (b : Src) : Gated (.lzcmpExt h view b) := by
  refine ⟨?k, fun s => ?h⟩
  case h =>
    rw [exec_lzcmpExt]
    unfold execLzcmpExt
    rfl
theorem gated_lzval (h : Head) (d : Dst) (view : BitVec 3) (rm : BitVec 3) : Gated (.lzval h d view rm) := by
  refine ⟨?k, fun s => ?h⟩
  case h =>
    rw [exec_lzval]
    unfold execLzval
    rfl
theorem gated_ld (h : Head) (d : Dst) (a b : Src) (sp : BitVec 3) (pol : BitVec 2) (disp : BitVec 11) : Gated (.ld h d a b sp pol disp) := by
  refine ⟨?k, fun s => ?h⟩
  case h =>
    rw [exec_ld]
    unfold execLd
    rfl
theorem gated_st (h : Head) (a b : Src) (sp : BitVec 3) (pol : BitVec 2) (disp : BitVec 11) : Gated (.st h a b sp pol disp) := by
  refine ⟨?k, fun s => ?h⟩
  case h =>
    rw [exec_st]
    unfold execSt
    rfl
theorem gated_ldu (h : Head) (d : Dst) (a : Src) (sp : BitVec 3) (pol : BitVec 2) (disp : BitVec 6) : Gated (.ldu h d a sp pol disp) := by
  refine ⟨?k, fun s => ?h⟩
  case h =>
    rw [exec_ldu]
    unfold execLdu
    rfl
theorem gated_gth (h : Head) (d : Dst) (a b : Src) (sp : BitVec 3) (pol : BitVec 2) (disp : BitVec 6) : Gated (.gth h d a b sp pol disp) := by
  refine ⟨?k, fun s => ?h⟩
  case h =>
    rw [exec_gth]
    unfold execGth
    rfl
theorem gated_sct (h : Head) (data : BitVec 9) (a b : Src) (sp : BitVec 3) (pol : BitVec 2) (disp : BitVec 6) : Gated (.sct h data a b sp pol disp) := by
  refine ⟨?k, fun s => ?h⟩
  case h =>
    rw [exec_sct]
    unfold execSct
    rfl
theorem gated_atom (h : Head) (d : Dst) (a b : Src) (sp : BitVec 3) (pol : BitVec 2) (op : BitVec 6) : Gated (.atom h d a b sp pol op) := by
  refine ⟨?k, fun s => ?h⟩
  case h =>
    rw [exec_atom]
    unfold execAtom
    rfl
theorem gated_atomo (h : Head) (d : Dst) (a b : Src) (pol : BitVec 2) (op : BitVec 6) : Gated (.atomo h d a b pol op) := by
  refine ⟨?k, fun s => ?h⟩
  case h =>
    rw [exec_atomo]
    unfold execAtomo
    rfl
theorem gated_atomoFin (h : Head) : Gated (.atomoFin h) := by
  refine ⟨?k, fun s => ?h⟩
  case h =>
    rw [exec_atomoFin]
    unfold execAtomoFin
    rfl
theorem gated_fence (h : Head) (pred succ : BitVec 4) (scope : BitVec 3) : Gated (.fence h pred succ scope) := by
  refine ⟨?k, fun s => ?h⟩
  case h =>
    rw [exec_fence]
    unfold execFence
    rfl
theorem gated_cpy (h : Head) (dk ak : Triple) (len : Src) (ssp : BitVec 3) (pol : BitVec 2) (dsp : BitVec 3) : Gated (.cpy h dk ak len ssp pol dsp) := by
  refine ⟨?k, fun s => ?h⟩
  case h =>
    rw [exec_cpy]
    unfold execCpy
    rfl
theorem gated_cpyCont (h : Head) (dk ak : Triple) (len : BitVec 8) (ssp : BitVec 3) (pol : BitVec 2) (dsp : BitVec 3) : Gated (.cpyCont h dk ak len ssp pol dsp) := by
  refine ⟨?k, fun s => ?h⟩
  case h =>
    rw [exec_cpyCont]
    unfold execCpyCont
    rfl
theorem gated_pref (h : Head) (a b : Src) (sp : BitVec 3) (pol : BitVec 2) (disp : BitVec 6) : Gated (.pref h a b sp pol disp) := by
  refine ⟨?k, fun s => ?h⟩
  case h =>
    rw [exec_pref]
    unfold execPref
    rfl
theorem gated_cmntWb (h : Head) (a b : Src) (sp : BitVec 3) (disp : BitVec 6) : Gated (.cmntWb h a b sp disp) := by
  refine ⟨?k, fun s => ?h⟩
  case h =>
    rw [exec_cmntWb]
    unfold execCmntWb
    rfl
theorem gated_cmntInv (h : Head) (a b : Src) (sp : BitVec 3) (disp : BitVec 6) : Gated (.cmntInv h a b sp disp) := by
  refine ⟨?k, fun s => ?h⟩
  case h =>
    rw [exec_cmntInv]
    unfold execCmntInv
    rfl
theorem gated_cmntL2wb (h : Head) (a b : Src) (sp : BitVec 3) (disp : BitVec 6) : Gated (.cmntL2wb h a b sp disp) := by
  refine ⟨?k, fun s => ?h⟩
  case h =>
    rw [exec_cmntL2wb]
    unfold execCmntL2wb
    rfl
theorem gated_cmntL2inv (h : Head) (a b : Src) (sp : BitVec 3) (disp : BitVec 6) : Gated (.cmntL2inv h a b sp disp) := by
  refine ⟨?k, fun s => ?h⟩
  case h =>
    rw [exec_cmntL2inv]
    unfold execCmntL2inv
    rfl
theorem gated_spill (h : Head) (n1 : BitVec 9) (a : Src) (f : BitVec 9) (pol : BitVec 2) (disp : BitVec 6) : Gated (.spill h n1 a f pol disp) := by
  refine ⟨?k, fun s => ?h⟩
  case h =>
    rw [exec_spill]
    unfold execSpill
    rfl
theorem gated_fill (h : Head) (n1 : BitVec 9) (a : Src) (f : BitVec 9) (pol : BitVec 2) (disp : BitVec 6) : Gated (.fill h n1 a f pol disp) := by
  refine ⟨?k, fun s => ?h⟩
  case h =>
    rw [exec_fill]
    unfold execFill
    rfl
theorem gated_ringPush (h : Head) (a : Triple) (b : Src) (sp : BitVec 3) (pol : BitVec 2) : Gated (.ringPush h a b sp pol) := by
  refine ⟨?k, fun s => ?h⟩
  case h =>
    rw [exec_ringPush]
    unfold execRingPush
    rfl
theorem gated_ringPop (h : Head) (d : Dst) (a : Triple) (sp : BitVec 3) (pol : BitVec 2) : Gated (.ringPop h d a sp pol) := by
  refine ⟨?k, fun s => ?h⟩
  case h =>
    rw [exec_ringPop]
    unfold execRingPop
    rfl
theorem gated_futFill (h : Head) (a b : Src) (sp : BitVec 3) (pol : BitVec 2) : Gated (.futFill h a b sp pol) := by
  refine ⟨?k, fun s => ?h⟩
  case h =>
    rw [exec_futFill]
    unfold execFutFill
    rfl
theorem gated_futWait (h : Head) (d : Dst) (a : Src) (sp : BitVec 3) (pol : BitVec 2) : Gated (.futWait h d a sp pol) := by
  refine ⟨?k, fun s => ?h⟩
  case h =>
    rw [exec_futWait]
    unfold execFutWait
    rfl
theorem landed_bra (h : Head) (target : BitVec 22) (reconv : BitVec 16) (hint : Bool) : Landed (.bra h target reconv hint) := by
  refine ⟨?k, fun s => ?h⟩
  case h =>
    rw [exec_bra]
    unfold execBra
    rfl
theorem landed_braUniform (h : Head) (target : BitVec 22) (reconv : BitVec 16) (hint : Bool) : Landed (.braUniform h target reconv hint) := by
  refine ⟨?k, fun s => ?h⟩
  case h =>
    rw [exec_braUniform]
    unfold execBraUniform
    rfl
theorem landed_brx (h : Head) (a : Src) (reconv : BitVec 16) (hint ug : Bool) : Landed (.brx h a reconv hint ug) := by
  refine ⟨?k, fun s => ?h⟩
  case h =>
    rw [exec_brx]
    unfold execBrx
    rfl
theorem landed_call (h : Head) (target : BitVec 22) (reconv : BitVec 16) (hint : Bool) : Landed (.call h target reconv hint) := by
  refine ⟨?k, fun s => ?h⟩
  case h =>
    rw [exec_call]
    unfold execCall
    rfl
theorem landed_callUniform (h : Head) (target : BitVec 22) (reconv : BitVec 16) (hint : Bool) : Landed (.callUniform h target reconv hint) := by
  refine ⟨?k, fun s => ?h⟩
  case h =>
    rw [exec_callUniform]
    unfold execCallUniform
    rfl
theorem landed_callx (h : Head) (a : Src) (reconv : BitVec 16) (hint ug : Bool) : Landed (.callx h a reconv hint ug) := by
  refine ⟨?k, fun s => ?h⟩
  case h =>
    rw [exec_callx]
    unfold execCallx
    rfl
theorem guarded_ret (h : Head) : Guarded (.ret h) := by
  refine .inr ⟨h, ?k, rfl, fun s => ?h⟩
  case h =>
    rw [exec_ret]
    unfold execRet
    rfl
theorem gated_exit (h : Head) : Gated (.exit h) := by
  refine ⟨?k, fun s => ?h⟩
  case h =>
    rw [exec_exit]
    unfold execExit
    rfl
theorem gated_exitUniform (h : Head) : Gated (.exitUniform h) := by
  refine ⟨?k, fun s => ?h⟩
  case h =>
    rw [exec_exitUniform]
    unfold execExitUniform
    rfl
theorem gated_yield (h : Head) : Gated (.yield h) := by
  refine ⟨?k, fun s => ?h⟩
  case h =>
    rw [exec_yield]
    unfold execYield
    rfl
theorem gated_barArrive (h : Head) (a b : Src) : Gated (.barArrive h a b) := by
  refine ⟨?k, fun s => ?h⟩
  case h =>
    rw [exec_barArrive]
    unfold execBarArrive
    rfl
theorem gated_barWait (h : Head) (a : Src) : Gated (.barWait h a) := by
  refine ⟨?k, fun s => ?h⟩
  case h =>
    rw [exec_barWait]
    unfold execBarWait
    rfl
theorem gated_barSync (h : Head) (a b : Src) : Gated (.barSync h a b) := by
  refine ⟨?k, fun s => ?h⟩
  case h =>
    rw [exec_barSync]
    unfold execBarSync
    rfl
theorem gated_sleep (h : Head) (a : Src) : Gated (.sleep h a) := by
  refine ⟨?k, fun s => ?h⟩
  case h =>
    rw [exec_sleep]
    unfold execSleep
    rfl
theorem gated_trap (h : Head) (a : Src) : Gated (.trap h a) := by
  refine ⟨?k, fun s => ?h⟩
  case h =>
    rw [exec_trap]
    unfold execTrap
    rfl
theorem gated_bkpt (h : Head) (a : Src) : Gated (.bkpt h a) := by
  refine ⟨?k, fun s => ?h⟩
  case h =>
    rw [exec_bkpt]
    unfold execBkpt
    rfl
theorem gated_rtt (h : Head) : Gated (.rtt h) := by
  refine ⟨?k, fun s => ?h⟩
  case h =>
    rw [exec_rtt]
    unfold execRtt
    rfl
theorem gated_rttSub (h : Head) (a : Src) : Gated (.rttSub h a) := by
  refine ⟨?k, fun s => ?h⟩
  case h =>
    rw [exec_rttSub]
    unfold execRttSub
    rfl
theorem gated_rttSkip (h : Head) : Gated (.rttSkip h) := by
  refine ⟨?k, fun s => ?h⟩
  case h =>
    rw [exec_rttSkip]
    unfold execRttSkip
    rfl
theorem gated_forkMx (h : Head) (d : BitVec 8) (a : Triple) (b : BitVec 8) (n : BitVec 3) : Gated (.forkMx h d a b n) := by
  refine ⟨?k, fun s => ?h⟩
  case h =>
    rw [exec_forkMx]
    unfold execForkMx
    rfl
theorem gated_forkCp (h : Head) (d : BitVec 8) (a : Triple) (b : BitVec 8) (n : BitVec 3) : Gated (.forkCp h d a b n) := by
  refine ⟨?k, fun s => ?h⟩
  case h =>
    rw [exec_forkCp]
    unfold execForkCp
    rfl
theorem gated_forkCl (h : Head) (d : BitVec 8) (a : Triple) (b : BitVec 8) (n : BitVec 3) : Gated (.forkCl h d a b n) := by
  refine ⟨?k, fun s => ?h⟩
  case h =>
    rw [exec_forkCl]
    unfold execForkCl
    rfl
theorem gated_rdv (h : Head) (d : Dst) (a : Src) : Gated (.rdv h d a) := by
  refine ⟨?k, fun s => ?h⟩
  case h =>
    rw [exec_rdv]
    unfold execRdv
    rfl
theorem gated_mfeedDat (h : Head) (tile : BitVec 2) (row : BitVec 6) (a b : Src) : Gated (.mfeedDat h tile row a b) := by
  refine ⟨?k, fun s => ?h⟩
  case h =>
    rw [exec_mfeedDat]
    unfold execMfeedDat feedWord feedWith
    rfl
theorem gated_mfeedScl (h : Head) (tile : BitVec 2) (row : BitVec 6) (a b : Src) : Gated (.mfeedScl h tile row a b) := by
  refine ⟨?k, fun s => ?h⟩
  case h =>
    rw [exec_mfeedScl]
    unfold execMfeedScl feedWord feedWith
    rfl
theorem gated_mfeedBand (h : Head) (tile : BitVec 2) (a b : Src) : Gated (.mfeedBand h tile a b) := by
  refine ⟨?k, fun s => ?h⟩
  case h =>
    rw [exec_mfeedBand]
    unfold execMfeedBand feedWord feedWith
    rfl
theorem gated_mfeedQ (h : Head) (tile : BitVec 2) (row : BitVec 6) (a : BitVec 9) (b : Src) : Gated (.mfeedQ h tile row a b) := by
  refine ⟨?k, fun s => ?h⟩
  case h =>
    rw [exec_mfeedQ]
    unfold execMfeedQ
    rfl
theorem gated_mwm (h : Head) (d : Dst) (tile : BitVec 3) : Gated (.mwm h d tile) := by
  refine ⟨?k, fun s => ?h⟩
  case h =>
    rw [exec_mwm]
    unfold execMwm
    rfl
theorem gated_stepLdtab (h : Head) (a : Triple) (sp : BitVec 3) : Gated (.stepLdtab h a sp) := by
  refine ⟨?k, fun s => ?h⟩
  case h =>
    rw [exec_stepLdtab]
    unfold execStepLdtab
    rfl
theorem gated_stepBind (h : Head) (a : Triple) (sp : BitVec 3) : Gated (.stepBind h a sp) := by
  refine ⟨?k, fun s => ?h⟩
  case h =>
    rw [exec_stepBind]
    unfold execStepBind
    rfl
theorem gated_stepRun (h : Head) (a : Triple) (sp : BitVec 3) : Gated (.stepRun h a sp) := by
  refine ⟨?k, fun s => ?h⟩
  case h =>
    rw [exec_stepRun]
    unfold execStepRun
    rfl
theorem gated_stepWait (h : Head) : Gated (.stepWait h) := by
  refine ⟨?k, fun s => ?h⟩
  case h =>
    rw [exec_stepWait]
    unfold execStepWait
    rfl
theorem gated_stepDone (h : Head) : Gated (.stepDone h) := by
  refine ⟨?k, fun s => ?h⟩
  case h =>
    rw [exec_stepDone]
    unfold execStepDone
    rfl
theorem gated_stepQry (h : Head) (d : Triple) (t : Src) : Gated (.stepQry h d t) := by
  refine ⟨?k, fun s => ?h⟩
  case h =>
    rw [exec_stepQry]
    unfold execStepQry
    rfl
theorem gated_stepStat (h : Head) (d : Triple) (sp : BitVec 3) : Gated (.stepStat h d sp) := by
  refine ⟨?k, fun s => ?h⟩
  case h =>
    rw [exec_stepStat]
    unfold execStepStat
    rfl
theorem gated_stepStop (h : Head) : Gated (.stepStop h) := by
  refine ⟨?k, fun s => ?h⟩
  case h =>
    rw [exec_stepStop]
    unfold execStepStop
    rfl
theorem gated_spawn (h : Head) (a : Src) (f : BitVec 9) : Gated (.spawn h a f) := by
  refine ⟨?k, fun s => ?h⟩
  case h =>
    rw [exec_spawn]
    unfold execSpawn
    rfl
theorem gated_spawnUniform (h : Head) (a b : BitVec 8) : Gated (.spawnUniform h a b) := by
  refine ⟨?k, fun s => ?h⟩
  case h =>
    rw [exec_spawnUniform]
    unfold execSpawnUniform
    rfl
theorem gated_tend (h : Head) : Gated (.tend h) := by
  refine ⟨?k, fun s => ?h⟩
  case h =>
    rw [exec_tend]
    unfold execTend
    rfl
theorem gated_claim (h : Head) (n : Src) : Gated (.claim h n) := by
  refine ⟨?k, fun s => ?h⟩
  case h =>
    rw [exec_claim]
    unfold execClaim
    rfl
theorem gated_give (h : Head) (n : Src) : Gated (.give h n) := by
  refine ⟨?k, fun s => ?h⟩
  case h =>
    rw [exec_give]
    unfold execGive
    rfl
theorem gated_giveRole (h : Head) (n r : Src) : Gated (.giveRole h n r) := by
  refine ⟨?k, fun s => ?h⟩
  case h =>
    rw [exec_giveRole]
    unfold execGiveRole
    rfl
theorem gated_regionBegin (h : Head) : Gated (.regionBegin h) := by
  refine ⟨?k, fun s => ?h⟩
  case h =>
    rw [exec_regionBegin]
    unfold execRegionBegin
    rfl
theorem gated_regionEnd (h : Head) : Gated (.regionEnd h) := by
  refine ⟨?k, fun s => ?h⟩
  case h =>
    rw [exec_regionEnd]
    unfold execRegionEnd
    rfl
theorem gated_digestRd (h : Head) (d : Dst) (n : BitVec 2) : Gated (.digestRd h d n) := by
  refine ⟨?k, fun s => ?h⟩
  case h =>
    rw [exec_digestRd]
    unfold execDigestRd
    rfl
theorem gated_digestFold (h : Head) (a : Src) : Gated (.digestFold h a) := by
  refine ⟨?k, fun s => ?h⟩
  case h =>
    rw [exec_digestFold]
    unfold execDigestFold
    rfl
theorem gated_rdsr (h : Head) (d : Dst) (num : BitVec 11) : Gated (.rdsr h d num) := by
  refine ⟨?k, fun s => ?h⟩
  case h =>
    rw [exec_rdsr]
    unfold execRdsr
    rfl
theorem gated_wrsr (h : Head) (num : BitVec 11) (a : Src) : Gated (.wrsr h num a) := by
  refine ⟨?k, fun s => ?h⟩
  case h =>
    rw [exec_wrsr]
    unfold execWrsr
    rfl
theorem gated_sysLaunch (h : Head) (a : Triple) (b : Src) (sp : BitVec 3) : Gated (.sysLaunch h a b sp) := by
  refine ⟨?k, fun s => ?h⟩
  case h =>
    rw [exec_sysLaunch]
    unfold execSysLaunch
    rfl
theorem gated_sysTlbinv (h : Head) (a : Triple) (b : BitVec 8) (sc : BitVec 3) : Gated (.sysTlbinv h a b sc) := by
  refine ⟨?k, fun s => ?h⟩
  case h =>
    rw [exec_sysTlbinv]
    unfold execSysTlbinv
    rfl
theorem gated_sysCarve (h : Head) (a : BitVec 8) : Gated (.sysCarve h a) := by
  refine ⟨?k, fun s => ?h⟩
  case h =>
    rw [exec_sysCarve]
    unfold execSysCarve
    rfl
theorem gated_sysHalt (h : Head) (a : BitVec 8) : Gated (.sysHalt h a) := by
  refine ⟨?k, fun s => ?h⟩
  case h =>
    rw [exec_sysHalt]
    unfold execSysHalt
    rfl
theorem gated_sysReplay (h : Head) (a : BitVec 8) : Gated (.sysReplay h a) := by
  refine ⟨?k, fun s => ?h⟩
  case h =>
    rw [exec_sysReplay]
    unfold execSysReplay
    rfl
theorem gated_sysEfail (h : Head) (a : BitVec 8) : Gated (.sysEfail h a) := by
  refine ⟨?k, fun s => ?h⟩
  case h =>
    rw [exec_sysEfail]
    unfold execSysEfail
    rfl
theorem gated_sysDebug (h : Head) (a b : BitVec 8) : Gated (.sysDebug h a b) := by
  refine ⟨?k, fun s => ?h⟩
  case h =>
    rw [exec_sysDebug]
    unfold execSysDebug
    rfl
theorem gated_sysSlice (h : Head) (a b : BitVec 8) : Gated (.sysSlice h a b) := by
  refine ⟨?k, fun s => ?h⟩
  case h =>
    rw [exec_sysSlice]
    unfold execSysSlice
    rfl
theorem gated_join : Gated .join := by
  refine ⟨?k, fun s => ?h⟩
  case h =>
    rw [exec_join]
    unfold execJoin
    rfl

theorem guarded_of_shape {i : Instr} {sh : Shape} (h : wordShape i = some sh) : Guarded i := by
  cases i
  case clauseIssue => cases h
  case issueChoice => cases h
  case readyWaitExpiry => cases h
  case pathRotation => cases h
  case faultQueueSpace => cases h
  case tlbWalk => cases h
  case pendingRetry => cases h
  case memAccessComplete => cases h
  case storeReachHome => cases h
  case leaseExpiry => cases h
  case leaseCopyDrop => cases h
  case oabAdmit => cases h
  case floorAdvance => cases h
  case carveChangeComplete => cases h
  case claimGrant => cases h
  case tagExpiry => cases h
  case sleepExpiry => cases h
  case futWaitWake => cases h
  case ringWaitResume => cases h
  case cpyComplete => cases h
  case tlbinvComplete => cases h
  case tableBankLoad => cases h
  case matrixOpStart => cases h
  case rowGroupDone => cases h
  case engineProgramStart => cases h
  case engineProgramEnd => cases h
  case engineFaultDelivery => cases h
  case engineTranslationStop => cases h
  case stepCallDeliver => cases h
  case stepCombinationDone => cases h
  case tokenPoll => cases h
  case teamPlacement => cases h
  case gridComplete => cases h
  case timeSliceSave => cases h
  case tenantDrainDeadline => cases h
  case saveSlotRetry => cases h
  case tgaFormGroup => cases h
  case stealRequest => cases h
  case stealServe => cases h
  case stealRestart => cases h
  case gatheredGroupSave => cases h
  case gatheredGroupRestore => cases h
  case softErrorRewind => cases h
  case l2TagParityFail => cases h
  case waySweepDone => cases h
  case bucketRefill => cases h
  case energyAccount => cases h
  case hostPostedWrite => cases h
  case hostRead => cases h
  case fabricAck => cases h
  case fabricRetransmit => cases h
  case partcmdQuadrants => cases h
  case partcmdBanks => cases h
  case partcmdL2Ways => cases h
  case partcmdBuckets => cases h
  case mboxFirmwareCmd => cases h
  case mboxDone => cases h
  case mboxWindowBase => cases h
  case mboxIntCauseClear => cases h
  case wrsrFpctl => exact (gated_wrsrFpctl ..).guarded fun _ _ _ _ => rfl
  case wrsrFpflags => exact (gated_wrsrFpflags ..).guarded fun _ _ _ _ => rfl
  case rdsrFpflags => exact (gated_rdsrFpflags ..).guarded fun _ _ _ _ => rfl
  case rdsrClock0 => exact (gated_rdsrClock0 ..).guarded fun _ _ _ _ => rfl
  case wrsrUtrap => exact (gated_wrsrUtrap ..).guarded fun _ _ _ _ => rfl
  case maskWrite => exact (gated_maskWrite ..).guarded fun _ _ _ _ => rfl
  case mfqheadWrite => exact (gated_mfqheadWrite ..).guarded fun _ _ _ _ => rfl
  case nop => exact (gated_nop ..).guarded fun _ _ _ _ => rfl
  case mov => exact (gated_mov ..).guarded fun _ _ _ _ => rfl
  case movi => exact (gated_movi ..).guarded fun _ _ _ _ => rfl
  case sel => exact (gated_sel ..).guarded fun _ _ _ _ => rfl
  case iadd => exact (gated_iadd ..).guarded fun _ _ _ _ => rfl
  case isub => exact (gated_isub ..).guarded fun _ _ _ _ => rfl
  case imul => exact (gated_imul ..).guarded fun _ _ _ _ => rfl
  case imulh => exact (gated_imulh ..).guarded fun _ _ _ _ => rfl
  case imad => exact (gated_imad ..).guarded fun _ _ _ _ => rfl
  case imin => exact (gated_imin ..).guarded fun _ _ _ _ => rfl
  case imax => exact (gated_imax ..).guarded fun _ _ _ _ => rfl
  case iabs => exact (gated_iabs ..).guarded fun _ _ _ _ => rfl
  case shl => exact (gated_shl ..).guarded fun _ _ _ _ => rfl
  case shr => exact (gated_shr ..).guarded fun _ _ _ _ => rfl
  case sar => exact (gated_sar ..).guarded fun _ _ _ _ => rfl
  case rot => exact (gated_rot ..).guarded fun _ _ _ _ => rfl
  case and => exact (gated_and ..).guarded fun _ _ _ _ => rfl
  case or => exact (gated_or ..).guarded fun _ _ _ _ => rfl
  case xor => exact (gated_xor ..).guarded fun _ _ _ _ => rfl
  case not => exact (gated_not ..).guarded fun _ _ _ _ => rfl
  case lop3 => exact (gated_lop3 ..).guarded fun _ _ _ _ => rfl
  case bfx => exact (gated_bfx ..).guarded fun _ _ _ _ => rfl
  case bfi => exact (gated_bfi ..).guarded fun _ _ _ _ => rfl
  case popc => exact (gated_popc ..).guarded fun _ _ _ _ => rfl
  case clz => exact (gated_clz ..).guarded fun _ _ _ _ => rfl
  case brev => exact (gated_brev ..).guarded fun _ _ _ _ => rfl
  case lea => exact (gated_lea ..).guarded fun _ _ _ _ => rfl
  case isetp => exact (gated_isetp ..).guarded fun _ _ _ _ => rfl
  case iaddi => exact (gated_iaddi ..).guarded fun _ _ _ _ => rfl
  case shfl => exact (gated_shfl ..).guarded fun _ _ _ _ => rfl
  case vote => exact (gated_vote ..).guarded fun _ _ _ _ => rfl
  case voteBallot => exact (gated_voteBallot ..).guarded fun _ _ _ _ => rfl
  case redx => exact (gated_redx ..).guarded fun _ _ _ _ => rfl
  case fadd => exact (gated_fadd ..).guarded fun _ _ _ _ => rfl
  case fsub => exact (gated_fsub ..).guarded fun _ _ _ _ => rfl
  case fmul => exact (gated_fmul ..).guarded fun _ _ _ _ => rfl
  case ffma => exact (gated_ffma ..).guarded fun _ _ _ _ => rfl
  case fmin => exact (gated_fmin ..).guarded fun _ _ _ _ => rfl
  case fmax => exact (gated_fmax ..).guarded fun _ _ _ _ => rfl
  case fsetp => exact (gated_fsetp ..).guarded fun _ _ _ _ => rfl
  case fdiv => exact (gated_fdiv ..).guarded fun _ _ _ _ => rfl
  case fsqrt => exact (gated_fsqrt ..).guarded fun _ _ _ _ => rfl
  case frcp => exact (gated_frcp ..).guarded fun _ _ _ _ => rfl
  case frsq => exact (gated_frsq ..).guarded fun _ _ _ _ => rfl
  case fex2 => exact (gated_fex2 ..).guarded fun _ _ _ _ => rfl
  case flg2 => exact (gated_flg2 ..).guarded fun _ _ _ _ => rfl
  case fsin => exact (gated_fsin ..).guarded fun _ _ _ _ => rfl
  case fcos => exact (gated_fcos ..).guarded fun _ _ _ _ => rfl
  case frnd => exact (gated_frnd ..).guarded fun _ _ _ _ => rfl
  case fcls => exact (gated_fcls ..).guarded fun _ _ _ _ => rfl
  case fcvt => exact (gated_fcvt ..).guarded fun _ _ _ _ => rfl
  case icvt => exact (gated_icvt ..).guarded fun _ _ _ _ => rfl
  case fcvti => exact (gated_fcvti ..).guarded fun _ _ _ _ => rfl
  case blkq => exact (gated_blkq ..).guarded fun _ _ _ _ => rfl
  case blkdq => exact (gated_blkdq ..).guarded fun _ _ _ _ => rfl
  case bscale => exact (gated_bscale ..).guarded fun _ _ _ _ => rfl
  case srnd => exact (gated_srnd ..).guarded fun _ _ _ _ => rfl
  case pack => exact (gated_pack ..).guarded fun _ _ _ _ => rfl
  case unpack => exact (gated_unpack ..).guarded fun _ _ _ _ => rfl
  case tbld => exact (gated_tbld ..).guarded fun _ _ _ _ => rfl
  case tbind => exact (gated_tbind ..).guarded fun _ _ _ _ => rfl
  case teval => exact (gated_teval ..).guarded fun _ _ _ _ => rfl
  case lzdraw => exact (gated_lzdraw ..).guarded fun _ _ _ _ => rfl
  case lzcmp => exact (gated_lzcmp ..).guarded fun _ _ _ _ => rfl
  case lzcmpExt => exact (gated_lzcmpExt ..).guarded fun _ _ _ _ => rfl
  case lzval => exact (gated_lzval ..).guarded fun _ _ _ _ => rfl
  case ld => exact (gated_ld ..).guarded fun _ _ _ _ => rfl
  case st => exact (gated_st ..).guarded fun _ _ _ _ => rfl
  case ldu => exact (gated_ldu ..).guarded fun _ _ _ _ => rfl
  case gth => exact (gated_gth ..).guarded fun _ _ _ _ => rfl
  case sct => exact (gated_sct ..).guarded fun _ _ _ _ => rfl
  case atom => exact (gated_atom ..).guarded fun _ _ _ _ => rfl
  case atomo => exact (gated_atomo ..).guarded fun _ _ _ _ => rfl
  case atomoFin => exact (gated_atomoFin ..).guarded fun _ _ _ _ => rfl
  case fence => exact (gated_fence ..).guarded fun _ _ _ _ => rfl
  case cpy => exact (gated_cpy ..).guarded fun _ _ _ _ => rfl
  case cpyCont => exact (gated_cpyCont ..).guarded fun _ _ _ _ => rfl
  case pref => exact (gated_pref ..).guarded fun _ _ _ _ => rfl
  case cmntWb => exact (gated_cmntWb ..).guarded fun _ _ _ _ => rfl
  case cmntInv => exact (gated_cmntInv ..).guarded fun _ _ _ _ => rfl
  case cmntL2wb => exact (gated_cmntL2wb ..).guarded fun _ _ _ _ => rfl
  case cmntL2inv => exact (gated_cmntL2inv ..).guarded fun _ _ _ _ => rfl
  case spill => exact (gated_spill ..).guarded fun _ _ _ _ => rfl
  case fill => exact (gated_fill ..).guarded fun _ _ _ _ => rfl
  case ringPush => exact (gated_ringPush ..).guarded fun _ _ _ _ => rfl
  case ringPop => exact (gated_ringPop ..).guarded fun _ _ _ _ => rfl
  case futFill => exact (gated_futFill ..).guarded fun _ _ _ _ => rfl
  case futWait => exact (gated_futWait ..).guarded fun _ _ _ _ => rfl
  case bra => exact .inl (landed_bra ..)
  case braUniform => exact .inl (landed_braUniform ..)
  case brx => exact .inl (landed_brx ..)
  case call => exact .inl (landed_call ..)
  case callUniform => exact .inl (landed_callUniform ..)
  case callx => exact .inl (landed_callx ..)
  case ret => exact guarded_ret ..
  case exit => exact (gated_exit ..).guarded fun _ _ _ _ => rfl
  case exitUniform => exact (gated_exitUniform ..).guarded fun _ _ _ _ => rfl
  case yield => exact (gated_yield ..).guarded fun _ _ _ _ => rfl
  case barArrive => exact (gated_barArrive ..).guarded fun _ _ _ _ => rfl
  case barWait => exact (gated_barWait ..).guarded fun _ _ _ _ => rfl
  case barSync => exact (gated_barSync ..).guarded fun _ _ _ _ => rfl
  case sleep => exact (gated_sleep ..).guarded fun _ _ _ _ => rfl
  case trap => exact (gated_trap ..).guarded fun _ _ _ _ => rfl
  case bkpt => exact (gated_bkpt ..).guarded fun _ _ _ _ => rfl
  case rtt => exact (gated_rtt ..).guarded fun _ _ _ _ => rfl
  case rttSub => exact (gated_rttSub ..).guarded fun _ _ _ _ => rfl
  case rttSkip => exact (gated_rttSkip ..).guarded fun _ _ _ _ => rfl
  case forkMx => exact (gated_forkMx ..).guarded fun _ _ _ _ => rfl
  case forkCp => exact (gated_forkCp ..).guarded fun _ _ _ _ => rfl
  case forkCl => exact (gated_forkCl ..).guarded fun _ _ _ _ => rfl
  case rdv => exact (gated_rdv ..).guarded fun _ _ _ _ => rfl
  case mfeedDat => exact (gated_mfeedDat ..).guarded fun _ _ _ _ => rfl
  case mfeedScl => exact (gated_mfeedScl ..).guarded fun _ _ _ _ => rfl
  case mfeedBand => exact (gated_mfeedBand ..).guarded fun _ _ _ _ => rfl
  case mfeedQ => exact (gated_mfeedQ ..).guarded fun _ _ _ _ => rfl
  case mwm => exact (gated_mwm ..).guarded fun _ _ _ _ => rfl
  case stepLdtab => exact (gated_stepLdtab ..).guarded fun _ _ _ _ => rfl
  case stepBind => exact (gated_stepBind ..).guarded fun _ _ _ _ => rfl
  case stepRun => exact (gated_stepRun ..).guarded fun _ _ _ _ => rfl
  case stepWait => exact (gated_stepWait ..).guarded fun _ _ _ _ => rfl
  case stepDone => exact (gated_stepDone ..).guarded fun _ _ _ _ => rfl
  case stepQry => exact (gated_stepQry ..).guarded fun _ _ _ _ => rfl
  case stepStat => exact (gated_stepStat ..).guarded fun _ _ _ _ => rfl
  case stepStop => exact (gated_stepStop ..).guarded fun _ _ _ _ => rfl
  case spawn => exact (gated_spawn ..).guarded fun _ _ _ _ => rfl
  case spawnUniform => exact (gated_spawnUniform ..).guarded fun _ _ _ _ => rfl
  case tend => exact (gated_tend ..).guarded fun _ _ _ _ => rfl
  case claim => exact (gated_claim ..).guarded fun _ _ _ _ => rfl
  case give => exact (gated_give ..).guarded fun _ _ _ _ => rfl
  case giveRole => exact (gated_giveRole ..).guarded fun _ _ _ _ => rfl
  case regionBegin => exact (gated_regionBegin ..).guarded fun _ _ _ _ => rfl
  case regionEnd => exact (gated_regionEnd ..).guarded fun _ _ _ _ => rfl
  case digestRd => exact (gated_digestRd ..).guarded fun _ _ _ _ => rfl
  case digestFold => exact (gated_digestFold ..).guarded fun _ _ _ _ => rfl
  case rdsr => exact (gated_rdsr ..).guarded fun _ _ _ _ => rfl
  case wrsr => exact (gated_wrsr ..).guarded fun _ _ _ _ => rfl
  case sysLaunch => exact (gated_sysLaunch ..).guarded fun _ _ _ _ => rfl
  case sysTlbinv => exact (gated_sysTlbinv ..).guarded fun _ _ _ _ => rfl
  case sysCarve => exact (gated_sysCarve ..).guarded fun _ _ _ _ => rfl
  case sysHalt => exact (gated_sysHalt ..).guarded fun _ _ _ _ => rfl
  case sysReplay => exact (gated_sysReplay ..).guarded fun _ _ _ _ => rfl
  case sysEfail => exact (gated_sysEfail ..).guarded fun _ _ _ _ => rfl
  case sysDebug => exact (gated_sysDebug ..).guarded fun _ _ _ _ => rfl
  case sysSlice => exact (gated_sysSlice ..).guarded fun _ _ _ _ => rfl
  case smov => cases h
  case smovi => cases h
  case sadd => cases h
  case saddi => cases h
  case ssub => cases h
  case smul => cases h
  case sshl => cases h
  case sshr => cases h
  case sand => cases h
  case sor => cases h
  case scmp => cases h
  case sbra => cases h
  case sloop => cases h
  case ssig => cases h
  case mma => cases h
  case mzero => cases h
  case mwaitAt => cases h
  case mwaitAcc => cases h
  case mrel => cases h
  case mbscale => cases h
  case cld => cases h
  case cst => cases h
  case cgth => cases h
  case csct => cases h
  case cacc => cases h
  case ccoll => cases h
  case cwait => cases h
  case cfill => cases h
  case lazyInstructionComplete => cases h
  case copyOperationComplete => cases h
  case fabricRemoteAccess => cases h
  case mboxNop => cases h
  case mboxAttest => cases h
  case mboxTelemetry => cases h
  case resetBoot => cases h
  case thermalTrip => cases h
  case join => exact (gated_join ..).guarded fun _ _ _ _ => rfl
  case snop => cases h
  case send => cases h

end Sys2Proof.Machine
end

