-- ==== Sys2Proof/Laws/Regs.lean ====
section
/-! SUPPORT. Slots, register files and the pipeline of a word: one lemma for everything that each shared operation does. -/

namespace Sys2Proof.Machine

/-! ### Slots -/

@[simp] theorem slot_setSlot_self (g : Group) (b : Bool) (sl : Slot) : (g.setSlot b sl).slot b = sl := by
  cases b <;> rfl
@[simp] theorem slot_setSlot_not (g : Group) (b : Bool) (sl : Slot) : (g.setSlot b sl).slot (!b) = g.slot (!b) := by
  cases b <;> rfl
@[simp] theorem slot_modSlot_self (g : Group) (b : Bool) (f : Slot → Slot) : (g.modSlot b f).slot b = f (g.slot b) := by
  cases b <;> rfl
@[simp] theorem slot_modSlot_not (g : Group) (b : Bool) (f : Slot → Slot) : (g.modSlot b f).slot (!b) = g.slot (!b) := by
  cases b <;> rfl

/-! ### The gate -/

/-- A word that passes its checks acts in the state that the checks leave. -/
theorem gate_of_passes {i : Instr} {s s' : State} {gid : Nat} {s1 : Bool} {g : Group} {sh : Shape}
    (k : State → Nat → Bool → Group → Slot → Shape → Out) (h : Passes i s gid s1 g sh s') :
    gate i s k = k s' gid s1 g (g.slot s1) sh := by
  obtain ⟨⟨hc, hg⟩, hsh, hf, hm⟩ := h
  unfold gate
  simp only [hc, hg, hsh, hf]
  by_cases hu : usesMatrix i sh = true ∧ execLanes g (g.slot s1) sh.head ≠ 0#96
  · rw [if_pos hu] at hm
    simp [hu.1, hu.2, hm.1, hm.2]
  · rw [if_neg hu] at hm
    subst hm
    by_cases h1 : usesMatrix i sh = true
    · have h2 : execLanes g (g.slot s1) sh.head = 0#96 := Classical.byContradiction fun h => hu ⟨h1, h⟩
      simp [h2]
    · simp [h1]

/-! ### Uniform registers -/

/-- The bits of one 32-bit piece of a write: the new ones below `bits`, the old ones above. -/
theorem piece_bit {w : Nat} (old : Word32) (v : BitVec w) (j bits q : Nat) (hb : bits ≤ 32) (hq : q < 32) :
    ((old &&& ~~~((BitVec.allOnes 32 : Word32) >>> (32 - bits))) |||
      ((v.extractLsb' (32 * j) 32) &&& ((BitVec.allOnes 32 : Word32) >>> (32 - bits)))).getLsbD q =
    if q < bits then v.getLsbD (32 * j + q) else old.getLsbD q := by
  simp only [BitVec.getLsbD_or, BitVec.getLsbD_and, BitVec.getLsbD_not, BitVec.getLsbD_ushiftRight, BitVec.getLsbD_allOnes,
    BitVec.getLsbD_extractLsb', hq, decide_true, Bool.true_and]
  by_cases h : q < bits
  · have : 32 - bits + q < 32 := by omega
    simp [h, this]
  · have : ¬ (32 - bits + q < 32) := by omega
    simp [h, this]

/-- What a write of `w` bits from kN up leaves. -/
structure KWritten {w : Nat} (g g' : Group) (s1 : Bool) (n top : Nat) (v : BitVec w) : Prop where
  rest : g' = { g with k := g'.k, s0 := g'.s0, s1 := g'.s1 }
  other : g'.slot (!s1) = g.slot (!s1)
  slot : ∃ m, g'.slot s1 = { g.slot s1 with mask := m } ∧ ∀ b, b < 96 → m.getLsbD b =
    if 157 < top ∧ n < top then
      (g.slot s1).owned.getLsbD b &&
        (if 32 * n ≤ 5024 + b ∧ 5024 + b < 32 * n + w ∧ 5024 + b < 32 * top then v.getLsbD (5024 + b - 32 * n)
         else (g.slot s1).mask.getLsbD b)
    else (g.slot s1).mask.getLsbD b
  file : ∀ p, p < 5024 → g'.k.getLsbD p =
    if 32 * n ≤ p ∧ p < 32 * n + w ∧ p < 32 * top then v.getLsbD (p - 32 * n) else g.k.getLsbD p

theorem kset_low (g : Group) (s1 : Bool) (n : Nat) (v : Word32) (h : n < 157) :
    g.kset s1 n v = { g with k := setField g.k (32 * n) v } := by
  have : ¬ 157 ≤ n := by omega
  simp [Group.kset, this]

theorem kset_high (g : Group) (s1 : Bool) (n : Nat) (v : Word32) (h : 157 ≤ n) :
    g.kset s1 n v = g.modSlot s1 fun sl => { sl with mask := setField sl.mask (32 * (n - 157)) v &&& sl.owned } := by
  simp [Group.kset, h]

theorem modSlot_rest (g : Group) (s1 : Bool) (f : Slot → Slot) :
    g.modSlot s1 f = { g with s0 := (g.modSlot s1 f).s0, s1 := (g.modSlot s1 f).s1 } := by
  cases s1 <;> rfl

/-- One more piece of the write. -/
theorem kwritten_step {w : Nat} (g g' : Group) (s1 : Bool) (n j : Nat) (v : BitVec w) (hj : 32 * j < w)
    (h : KWritten g g' s1 n (n + j) v) :
    KWritten g (g'.kset s1 (n + j)
      ((g'.kreg (g'.slot s1) (n + j) &&& ~~~((BitVec.allOnes 32 : Word32) >>> (32 - min 32 (w - 32 * j)))) |||
        ((v.extractLsb' (32 * j) 32) &&& ((BitVec.allOnes 32 : Word32) >>> (32 - min 32 (w - 32 * j)))))) s1 n (n + j + 1) v := by
  generalize hnv : ((g'.kreg (g'.slot s1) (n + j) &&& ~~~((BitVec.allOnes 32 : Word32) >>> (32 - min 32 (w - 32 * j)))) |||
        ((v.extractLsb' (32 * j) 32) &&& ((BitVec.allOnes 32 : Word32) >>> (32 - min 32 (w - 32 * j))))) = nv
  have hbit : ∀ q, q < 32 → nv.getLsbD q =
      if q < min 32 (w - 32 * j) then v.getLsbD (32 * j + q) else (g'.kreg (g'.slot s1) (n + j)).getLsbD q := by
    intro q hq; rw [← hnv]; exact piece_bit _ _ _ _ _ (by omega) hq
  obtain ⟨m, hs, hm⟩ := h.slot
  by_cases hr : n + j < 157
  · rw [kset_low _ _ _ _ hr]
    have hk : ∀ q, q < 32 → (g'.kreg (g'.slot s1) (n + j)).getLsbD q = g'.k.getLsbD (32 * (n + j) + q) := by
      intro q hq
      have : ¬ (157 ≤ n + j) := by omega
      simp [Group.kreg, this, getField, hq]
    have ho : ∀ b, ({ g' with k := setField g'.k (32 * (n + j)) nv } : Group).slot b = g'.slot b := by
      intro b; cases b <;> rfl
    refine ⟨?_, ?_, ⟨m, ?_, ?_⟩, ?_⟩
    · rw [h.rest]
    · rw [ho]; exact h.other
    · rw [ho]; exact hs
    · intro b hb
      have h1 : ¬ (157 < n + j ∧ n < n + j) := by omega
      have h2 : ¬ (157 < n + j + 1 ∧ n < n + j + 1) := by omega
      rw [hm b hb, if_neg h1, if_neg h2]
    · intro p hp
      show (setField g'.k (32 * (n + j)) nv).getLsbD p = _
      rw [getLsbD_setField _ _ _ _ (by omega)]
      by_cases hin : 32 * (n + j) ≤ p ∧ p < 32 * (n + j) + 32
      · rw [if_pos hin, hbit _ (by omega), hk _ (by omega)]
        have e1 : 32 * (n + j) + (p - 32 * (n + j)) = p := by omega
        have e2 : 32 * j + (p - 32 * (n + j)) = p - 32 * n := by omega
        rw [e1, e2, h.file p hp]
        by_cases hw : p < 32 * n + w
        · have a1 : p - 32 * (n + j) < min 32 (w - 32 * j) := by omega
          have a2 : 32 * n ≤ p ∧ p < 32 * n + w ∧ p < 32 * (n + j + 1) := by omega
          rw [if_pos a1, if_pos a2]
        · have a1 : ¬ (p - 32 * (n + j) < min 32 (w - 32 * j)) := by omega
          have a2 : ¬ (32 * n ≤ p ∧ p < 32 * n + w ∧ p < 32 * (n + j)) := by omega
          have a3 : ¬ (32 * n ≤ p ∧ p < 32 * n + w ∧ p < 32 * (n + j + 1)) := by omega
          rw [if_neg a1, if_neg a2, if_neg a3]
      · rw [if_neg hin, h.file p hp]
        by_cases a2 : 32 * n ≤ p ∧ p < 32 * n + w ∧ p < 32 * (n + j)
        · have a3 : 32 * n ≤ p ∧ p < 32 * n + w ∧ p < 32 * (n + j + 1) := by omega
          rw [if_pos a2, if_pos a3]
        · have a3 : ¬ (32 * n ≤ p ∧ p < 32 * n + w ∧ p < 32 * (n + j + 1)) := by omega
          rw [if_neg a2, if_neg a3]
  · rw [kset_high _ _ _ _ (by omega)]
    refine ⟨?_, ?_, ⟨setField m (32 * (n + j - 157)) nv &&& (g.slot s1).owned, ?_, ?_⟩, ?_⟩
    · rw [modSlot_rest]
      rw [h.rest]
    · rw [slot_modSlot_not]; exact h.other
    · rw [slot_modSlot_self, hs]
    · intro b hb
      have hk : ∀ q, q < 32 → n + j ≤ 159 → (g'.kreg (g'.slot s1) (n + j)).getLsbD q = m.getLsbD (32 * (n + j - 157) + q) := by
        intro q hq h9
        have : 157 ≤ n + j ∧ n + j ≤ 159 := by omega
        simp [Group.kreg, this, hq, hs]
      have t1 : 157 < n + j + 1 ∧ n < n + j + 1 := by omega
      rw [if_pos t1, BitVec.getLsbD_and, getLsbD_setField _ _ _ _ hb, Bool.and_comm]
      by_cases hin : 32 * (n + j - 157) ≤ b ∧ b < 32 * (n + j - 157) + 32
      · rw [if_pos hin, hbit _ (by omega), hk _ (by omega) (by omega)]
        have e1 : 32 * (n + j - 157) + (b - 32 * (n + j - 157)) = b := by omega
        have e2 : 32 * j + (b - 32 * (n + j - 157)) = 5024 + b - 32 * n := by omega
        rw [e1, e2, hm b hb]
        by_cases hw : 5024 + b < 32 * n + w
        · have a1 : b - 32 * (n + j - 157) < min 32 (w - 32 * j) := by omega
          have a2 : 32 * n ≤ 5024 + b ∧ 5024 + b < 32 * n + w ∧ 5024 + b < 32 * (n + j + 1) := by omega
          rw [if_pos a1, if_pos a2]
        · have a1 : ¬ (b - 32 * (n + j - 157) < min 32 (w - 32 * j)) := by omega
          have a2 : ¬ (32 * n ≤ 5024 + b ∧ 5024 + b < 32 * n + w ∧ 5024 + b < 32 * (n + j)) := by omega
          have a3 : ¬ (32 * n ≤ 5024 + b ∧ 5024 + b < 32 * n + w ∧ 5024 + b < 32 * (n + j + 1)) := by omega
          rw [if_neg a1, if_neg a2, if_neg a3]
          by_cases a4 : 157 < n + j ∧ n < n + j
          · rw [if_pos a4]; cases (g.slot s1).owned.getLsbD b <;> rfl
          · rw [if_neg a4]
      · rw [if_neg hin, hm b hb]
        by_cases a2 : 32 * n ≤ 5024 + b ∧ 5024 + b < 32 * n + w ∧ 5024 + b < 32 * (n + j)
        · have a3 : 32 * n ≤ 5024 + b ∧ 5024 + b < 32 * n + w ∧ 5024 + b < 32 * (n + j + 1) := by omega
          have a4 : 157 < n + j ∧ n < n + j := by omega
          rw [if_pos a4, if_pos a2, if_pos a3]; cases (g.slot s1).owned.getLsbD b <;> rfl
        · have a3 : ¬ (32 * n ≤ 5024 + b ∧ 5024 + b < 32 * n + w ∧ 5024 + b < 32 * (n + j + 1)) := by omega
          rw [if_neg a2, if_neg a3]
          by_cases a4 : 157 < n + j ∧ n < n + j
          · rw [if_pos a4]; cases (g.slot s1).owned.getLsbD b <;> rfl
          · rw [if_neg a4]
    · intro p hp
      have : (g'.modSlot s1 fun sl => { sl with mask := setField sl.mask (32 * (n + j - 157)) nv &&& sl.owned }).k = g'.k := by
        cases s1 <;> rfl
      rw [this, h.file p hp]
      by_cases a2 : 32 * n ≤ p ∧ p < 32 * n + w ∧ p < 32 * (n + j)
      · have a3 : 32 * n ≤ p ∧ p < 32 * n + w ∧ p < 32 * (n + j + 1) := by omega
        rw [if_pos a2, if_pos a3]
      · have a3 : ¬ (32 * n ≤ p ∧ p < 32 * n + w ∧ p < 32 * (n + j + 1)) := by omega
        rw [if_neg a2, if_neg a3]

/-- Everything that a write of uniform registers does. -/
theorem kput_written {w : Nat} (g : Group) (s1 : Bool) (n : Nat) (v : BitVec w) :
    KWritten g (g.kput s1 n v) s1 n (n + (w + 31) / 32) v := by
  unfold Group.kput
  generalize hc : (w + 31) / 32 = c
  have key : ∀ j, j ≤ c → KWritten g ((List.range j).foldl (fun (g : Group) (i : Nat) =>
      g.kset s1 (n + i) ((g.kreg (g.slot s1) (n + i) &&& ~~~((BitVec.allOnes 32 : Word32) >>> (32 - min 32 (w - 32 * i)))) |||
        ((v.extractLsb' (32 * i) 32) &&& ((BitVec.allOnes 32 : Word32) >>> (32 - min 32 (w - 32 * i)))))) g) s1 n (n + j) v := by
    intro j
    induction j with
    | zero =>
      intro _
      refine ⟨rfl, rfl, ⟨(g.slot s1).mask, rfl, ?_⟩, ?_⟩
      · intro b hb
        have : ¬ (157 < n + 0 ∧ n < n + 0) := by omega
        rw [if_neg this]
      · intro p hp
        have : ¬ (32 * n ≤ p ∧ p < 32 * n + w ∧ p < 32 * (n + 0)) := by omega
        rw [if_neg this]
        rfl
    | succ j ih =>
      intro hj
      rw [List.range_succ, List.foldl_append]
      exact kwritten_step g _ s1 n j v (by omega) (ih (by omega))
  exact key c (Nat.le_refl c)

@[simp] theorem done_slices (g : Group) (b : Bool) (sh : Shape) : (g.done b sh).slices = g.slices := by cases b <;> rfl
@[simp] theorem done_k (g : Group) (b : Bool) (sh : Shape) : (g.done b sh).k = g.k := by cases b <;> rfl
@[simp] theorem done_latches (g : Group) (b : Bool) (sh : Shape) : (g.done b sh).latches = g.latches := by cases b <;> rfl
theorem done_rest (g : Group) (b : Bool) (sh : Shape) :
    g.done b sh = { g with s0 := (g.done b sh).s0, s1 := (g.done b sh).s1 } := by cases b <;> rfl
@[simp] theorem done_slot_self (g : Group) (b : Bool) (sh : Shape) : (g.done b sh).slot b = (g.slot b).advance sh.res := by
  cases b <;> rfl
@[simp] theorem done_slot_not (g : Group) (b : Bool) (sh : Shape) : (g.done b sh).slot (!b) = g.slot (!b) := by cases b <;> rfl

/-! ### Results -/

theorem sliceWrite_eq {w : Nat} (g : Group) (m : Mask) (st : Nat) (f : Lane → BitVec w) :
    g.sliceWrite m st f =
      { g with slices := setLanes g.slices m fun l => setField g.slices[l] (4 * st) (f l),
               late := (g.sliceWrite m st f).late, region := (g.sliceWrite m st f).region } := rfl

theorem latchWrite_eq {w : Nat} (g : Group) (m : Mask) (n : Nat) (wc : BitVec 3) (f : Lane → BitVec w) :
    g.latchWrite m n wc f =
      { g with latches := setLanes g.latches m fun l => setField g.latches[l] (64 * n) ((f l).setWidth 64),
               latchW := setField g.latchW (3 * n) wc, late := (g.latchWrite m n wc f).late } := rfl

/-- A bit of a slice file after a write of slices. -/
theorem sliceWrite_bit {w : Nat} (g : Group) (m : Mask) (st : Nat) (f : Lane → BitVec w) (l : Lane) (p : Nat) (hp : p < 2048) :
    (g.sliceWrite m st f).slices[l].getLsbD p =
      if m.getLsbD l.val = true ∧ 4 * st ≤ p ∧ p < 4 * st + w then (f l).getLsbD (p - 4 * st) else g.slices[l].getLsbD p := by
  rw [sliceWrite_eq]
  simp only [setLanes_get]
  by_cases hm : m.getLsbD l.val = true
  · rw [if_pos hm, getLsbD_setField _ _ _ _ hp]; simp [hm]
  · rw [if_neg hm, if_neg (fun h => hm h.1)]

/-- A bit of the latches after a write of one. -/
theorem latchWrite_bit {w : Nat} (g : Group) (m : Mask) (n : Nat) (wc : BitVec 3) (f : Lane → BitVec w) (l : Lane) (p : Nat)
    (hp : p < 512) :
    (g.latchWrite m n wc f).latches[l].getLsbD p =
      if m.getLsbD l.val = true ∧ 64 * n ≤ p ∧ p < 64 * n + 64 then ((f l).setWidth 64).getLsbD (p - 64 * n)
      else g.latches[l].getLsbD p := by
  rw [latchWrite_eq]
  simp only [setLanes_get]
  by_cases hm : m.getLsbD l.val = true
  · rw [if_pos hm, getLsbD_setField _ _ _ _ hp]; simp [hm]
  · rw [if_neg hm, if_neg (fun h => hm h.1)]

theorem late_eta (x g : Group) : x = { ({ x with late := g.late } : Group) with late := x.late } := rfl
@[simp] theorem late_slot (g : Group) (x : List Late) (b : Bool) : ({ g with late := x } : Group).slot b = g.slot b := by
  cases b <;> rfl
@[simp] theorem sliceWrite_slot {w : Nat} (g : Group) (m : Mask) (st : Nat) (f : Lane → BitVec w) (b : Bool) :
    (g.sliceWrite m st f).slot b = g.slot b := by
  simp only [Group.slot, Group.sliceWrite, Group.slicePut, Group.cutSlices]
@[simp] theorem sliceWrite_k {w : Nat} (g : Group) (m : Mask) (st : Nat) (f : Lane → BitVec w) :
    (g.sliceWrite m st f).k = g.k := by
  simp only [Group.sliceWrite, Group.slicePut, Group.cutSlices]
@[simp] theorem latchWrite_slot {w : Nat} (g : Group) (m : Mask) (n : Nat) (wc : BitVec 3) (f : Lane → BitVec w) (b : Bool) :
    (g.latchWrite m n wc f).slot b = g.slot b := by
  simp only [Group.slot, Group.latchWrite, Group.latchPut, Group.cutLatch]
@[simp] theorem latchWrite_slices {w : Nat} (g : Group) (m : Mask) (n : Nat) (wc : BitVec 3) (f : Lane → BitVec w) :
    (g.latchWrite m n wc f).slices = g.slices := by
  simp only [Group.latchWrite, Group.latchPut, Group.cutLatch]
@[simp] theorem latchWrite_k {w : Nat} (g : Group) (m : Mask) (n : Nat) (wc : BitVec 3) (f : Lane → BitVec w) :
    (g.latchWrite m n wc f).k = g.k := by
  simp only [Group.latchWrite, Group.latchPut, Group.cutLatch]
theorem sliceWrite_rest {w : Nat} (g : Group) (m : Mask) (st : Nat) (f : Lane → BitVec w) :
    ∃ a b c, g.sliceWrite m st f = { g with slices := a, late := b, region := c } := by
  unfold Group.sliceWrite Group.slicePut Group.cutSlices
  exact ⟨_, _, _, rfl⟩
theorem latchWrite_rest {w : Nat} (g : Group) (m : Mask) (n : Nat) (wc : BitVec 3) (f : Lane → BitVec w) :
    ∃ a b c, g.latchWrite m n wc f = { g with latches := a, latchW := b, late := c } := by
  unfold Group.latchWrite Group.latchPut Group.cutLatch
  exact ⟨_, _, _, rfl⟩

/-- The destination's part of a result. -/
def Group.putDst {w : Nat} (g : Group) (s1 : Bool) (sh : Shape) (m : Mask) (udst : Bool) (f : Lane → BitVec w) : Group :=
  if sh.head.sup then g
  else
    match sh.dst with
    | some (.slice st, _) => g.sliceWrite m st.toNat f
    | some (.ureg k, _) =>
      match lowest? m with
      | some l => if udst then g.kwrite s1 k.toNat (f l) else g
      | none => g
    | none => g

theorem putResult_eq {w : Nat} (g : Group) (s1 : Bool) (sh : Shape) (m : Mask) (udst : Bool) (f : Lane → BitVec w) :
    g.putResult s1 sh m udst f =
      if sh.head.uni then g.putDst s1 sh m udst f
      else (g.putDst s1 sh m udst f).latchWrite m (g.slot s1).latchNo sh.head.w f := rfl

/-- What writing the destination leaves. -/
structure DstWritten {w : Nat} (g g' : Group) (s1 : Bool) (sh : Shape) (m : Mask) (v : Lane → BitVec w) : Prop where
  rest : g' = { g with slices := g'.slices, k := g'.k, late := g'.late, region := g'.region, s0 := g'.s0, s1 := g'.s1 }
  other : g'.slot (!s1) = g.slot (!s1)
  slot : ∃ mask', g'.slot s1 = { g.slot s1 with mask := mask' } ∧
    ∀ b, b < 96 → mask'.getLsbD b = maskAfter (g.slot s1) sh m v b
  slices : ∀ (l : Lane) p, p < 2048 → g'.slices[l].getLsbD p = sliceAfter g sh m v l p
  file : ∀ p, p < 5024 → g'.k.getLsbD p = kAfter g sh m v p

theorem kwrite_eq {w : Nat} (g : Group) (s1 : Bool) (n : Nat) (v : BitVec w) :
    KWritten g { g.kwrite s1 n v with late := g.late } s1 n (n + (w + 31) / 32) v := by
  have h := kput_written (g.cutK n w) s1 n v
  have e : g.kwrite s1 n v = (g.cutK n w).kput s1 n v := rfl
  have hslot : ∀ (g : Group) (l : List Late) b, ({ g with late := l } : Group).slot b = g.slot b := by
    intro g l b; cases b <;> rfl
  have hcut : ∀ b, (g.cutK n w).slot b = g.slot b := by intro b; cases b <;> rfl
  refine ⟨?_, ?_, ?_, ?_⟩
  · rw [e, h.rest]; rfl
  · rw [hslot, e, h.other, hcut]
  · obtain ⟨m, h1, h2⟩ := h.slot
    rw [hcut] at h1 h2
    exact ⟨m, by rw [hslot, e]; exact h1, h2⟩
  · intro p hp
    exact h.file p hp

theorem putDst_written {w : Nat} (hw : 0 < w) (g : Group) (s1 : Bool) (sh : Shape) (m : Mask) (v : Lane → BitVec w) :
    DstWritten g (g.putDst s1 sh m true v) s1 sh m v := by
  have same : (∀ l p, p < 2048 → g.slices[l].getLsbD p = sliceAfter g sh m v l p) →
      (∀ p, p < 5024 → g.k.getLsbD p = kAfter g sh m v p) →
      (∀ b, b < 96 → (g.slot s1).mask.getLsbD b = maskAfter (g.slot s1) sh m v b) → DstWritten g g s1 sh m v :=
    fun h1 h2 h3 => ⟨rfl, rfl, ⟨_, rfl, h3⟩, h1, h2⟩
  unfold Group.putDst
  by_cases hs : sh.head.sup = true
  · rw [if_pos hs]
    refine same ?_ ?_ ?_
    · intro l p _; unfold sliceAfter; split <;> simp [hs]
    · intro p _; unfold kAfter; split <;> simp [hs]
    · intro b _; unfold maskAfter; split <;> simp [hs]
  · rw [if_neg hs]
    have hs' : sh.head.sup = false := by simpa using hs
    split
    · rename_i st n hd
      refine ⟨?_, sliceWrite_slot _ _ _ _ _, ⟨(g.slot s1).mask, sliceWrite_slot _ _ _ _ _, ?_⟩, ?_, ?_⟩
      · obtain ⟨a, b, c, e⟩ := sliceWrite_rest g m st.toNat v
        rw [e]
      · intro b _; simp [maskAfter, hd]
      · intro l p hp
        rw [sliceWrite_bit _ _ _ _ _ _ hp]
        simp [sliceAfter, hd, hs']
      · intro p _; rw [sliceWrite_k]; simp [kAfter, hd]
    · rename_i k n hd
      split
      · rename_i l hl
        have h := kwrite_eq g s1 k.toNat (v l)
        rw [if_pos rfl]
        generalize hy : g.kwrite s1 k.toNat (v l) = y at h
        refine ⟨?_, ?_, ?_, ?_, ?_⟩
        · rw [late_eta y g, h.rest]
        · have := h.other; rwa [late_slot] at this
        · obtain ⟨x, h1, h2⟩ := h.slot
          rw [late_slot] at h1
          refine ⟨x, h1, ?_⟩
          intro b hb
          rw [h2 b hb]
          unfold maskAfter
          simp only [hd, hl, hs', true_and]
          by_cases c : 157 < k.toNat + (w + 31) / 32
          · have c1 : 157 < k.toNat + (w + 31) / 32 ∧ k.toNat < k.toNat + (w + 31) / 32 := by omega
            rw [if_pos c, if_pos c1]
            by_cases d : 32 * k.toNat ≤ 5024 + b ∧ 5024 + b < 32 * k.toNat + w
            · have d1 : 32 * k.toNat ≤ 5024 + b ∧ 5024 + b < 32 * k.toNat + w ∧ 5024 + b < 32 * (k.toNat + (w + 31) / 32) := by omega
              rw [if_pos d, if_pos d1]
            · have d1 : ¬ (32 * k.toNat ≤ 5024 + b ∧ 5024 + b < 32 * k.toNat + w ∧ 5024 + b < 32 * (k.toNat + (w + 31) / 32)) := by omega
              rw [if_neg d, if_neg d1]
          · have c1 : ¬ (157 < k.toNat + (w + 31) / 32 ∧ k.toNat < k.toNat + (w + 31) / 32) := by omega
            rw [if_neg c, if_neg c1]
        · intro l' p _
          have e : y.slices = g.slices := by
            have e1 : ({ y with late := g.late } : Group).slices = g.slices := by rw [h.rest]
            exact e1
          rw [e]; simp [sliceAfter, hd]
        · intro p hp
          have e := h.file p hp
          have e' : y.k.getLsbD p =
              if 32 * k.toNat ≤ p ∧ p < 32 * k.toNat + w ∧ p < 32 * (k.toNat + (w + 31) / 32) then (v l).getLsbD (p - 32 * k.toNat)
              else g.k.getLsbD p := e
          rw [e']
          unfold kAfter
          simp only [hd, hl, hs', true_and]
          by_cases d : 32 * k.toNat ≤ p ∧ p < 32 * k.toNat + w
          · have d1 : 32 * k.toNat ≤ p ∧ p < 32 * k.toNat + w ∧ p < 32 * (k.toNat + (w + 31) / 32) := by omega
            rw [if_pos d, if_pos d1]
          · have d1 : ¬ (32 * k.toNat ≤ p ∧ p < 32 * k.toNat + w ∧ p < 32 * (k.toNat + (w + 31) / 32)) := by omega
            rw [if_neg d, if_neg d1]
      · rename_i hl
        refine same ?_ ?_ ?_
        · intro l p _; simp [sliceAfter, hd]
        · intro p _; simp [kAfter, hd, hl]
        · intro b _; simp [maskAfter, hd, hl]
    · rename_i hd
      refine same ?_ ?_ ?_
      · intro l p _; simp [sliceAfter, hd]
      · intro p _; simp [kAfter, hd]
      · intro b _; simp [maskAfter, hd]

/-- The group's part of RegResult. -/
def GroupResult {w : Nat} (g g' : Group) (s1 : Bool) (sh : Shape) (m : Mask) (v : Lane → BitVec w) : Prop :=
  ∃ mask', SameButFiles g g' ∧ g'.slot (!s1) = g.slot (!s1) ∧
    g'.slot s1 = Slot.advance { g.slot s1 with mask := mask' } sh.res ∧
    (∀ b, b < 96 → mask'.getLsbD b = maskAfter (g.slot s1) sh m v b) ∧
    (∀ (l : Lane) p, p < 2048 → g'.slices[l].getLsbD p = sliceAfter g sh m v l p) ∧
    (∀ p, p < 5024 → g'.k.getLsbD p = kAfter g sh m v p) ∧
    (∀ (l : Lane) p, p < 512 → g'.latches[l].getLsbD p = latchAfter g (g.slot s1) sh m v l p)

/-- Everything that the pipeline leaves in the group. -/
theorem putResult_group {w : Nat} (hw : 0 < w) (s1 : Bool) (g : Group) (sh : Shape) (m : Mask) (v : Lane → BitVec w) :
    GroupResult g ((g.putResult s1 sh m true v).done s1 sh) s1 sh m v := by
  have h := putDst_written hw g s1 sh m v
  obtain ⟨mask', hs, hm⟩ := h.slot
  have hr := h.rest
  rw [putResult_eq]
  generalize hx : g.putDst s1 sh m true v = x at *
  by_cases hu : sh.head.uni = true
  · rw [if_pos hu]
    refine ⟨mask', ?_, ?_, ?_, hm, ?_, ?_, ?_⟩
    · unfold SameButFiles; rw [done_rest, hr]
    · rw [done_slot_not]; exact h.other
    · rw [done_slot_self, hs]
    · intro l p hp; rw [← h.slices l p hp, done_slices]
    · intro p hp; rw [← h.file p hp, done_k]
    · intro l p _
      have : x.latches = g.latches := by rw [hr]
      rw [done_latches, this]; simp [latchAfter, hu]
  · have hu' : sh.head.uni = false := by simpa using hu
    rw [if_neg hu]
    refine ⟨mask', ?_, ?_, ?_, hm, ?_, ?_, ?_⟩
    · unfold SameButFiles
      obtain ⟨a, b, c, e⟩ := latchWrite_rest x m (g.slot s1).latchNo sh.head.w v
      rw [done_rest, e, hr]
    · rw [done_slot_not, latchWrite_slot]; exact h.other
    · rw [done_slot_self, latchWrite_slot, hs]
    · intro l p hp; rw [← h.slices l p hp, done_slices, latchWrite_slices]
    · intro p hp; rw [← h.file p hp, done_k, latchWrite_k]
    · intro l p hp
      have e2 : x.latches = g.latches := by rw [hr]
      rw [done_latches, latchWrite_bit _ _ _ _ _ _ _ hp, e2]
      simp [latchAfter, hu']

theorem reg_of_group {w : Nat} {s : State} {gid : Nat} {s1 : Bool} {g g' : Group} {sh : Shape} {m : Mask} {v : Lane → BitVec w}
    (h : GroupResult g g' s1 sh m v) : RegResult s (s.setGroup gid g') gid s1 g sh m v := by
  obtain ⟨mask', h⟩ := h
  exact ⟨g', mask', rfl, h⟩

/-- Everything that a word with one register result leaves. -/
theorem result_done {w : Nat} (hw : 0 < w) (s : State) (gid : Nat) (s1 : Bool) (g : Group) (sh : Shape) (m : Mask)
    (v : Lane → BitVec w) :
    RegResult s (s.setGroup gid ((g.putResult s1 sh m true v).done s1 sh)) gid s1 g sh m v :=
  reg_of_group (putResult_group hw s1 g sh m v)

/-- A result, with flags raised and counters advanced beside it. -/
theorem group_flagged {w : Nat} {s1 : Bool} {g y : Group} {sh : Shape} {m : Mask} {v : Lane → BitVec w} (f : FFlags) (n : Nat)
    (h : GroupResult g (y.done s1 sh) s1 sh m v) :
    GroupResult ((g.raise f).advanceSr m n) (((y.raise f).advanceSr m n).done s1 sh) s1 sh m v := by
  obtain ⟨mask', a1, a2, a3, a4, a5, a6, a7⟩ := h
  have hg : ∀ b, ((g.raise f).advanceSr m n).slot b = g.slot b := by intro b; cases b <;> rfl
  have hy : ∀ b, ((y.raise f).advanceSr m n).slot b = y.slot b := by intro b; cases b <;> rfl
  have e1 : y.fpflags = g.fpflags := by
    have : (y.done s1 sh).fpflags = g.fpflags := by rw [a1]
    rw [← this]; cases s1 <;> rfl
  have e2 : y.srctr = g.srctr := by
    have : (y.done s1 sh).srctr = g.srctr := by rw [a1]
    rw [← this]; cases s1 <;> rfl
  have e3 : ((y.raise f).advanceSr m n).done s1 sh = ((y.done s1 sh).raise f).advanceSr m n := by cases s1 <;> rfl
  refine ⟨mask', ?_, ?_, ?_, ?_, ?_, ?_, ?_⟩
  · unfold SameButFiles
    rw [e3]
    generalize y.done s1 sh = z at a1
    unfold SameButFiles at a1
    rw [a1]
    rfl
  · rw [done_slot_not, hy, hg, ← a2, done_slot_not]
  · rw [done_slot_self, hy, hg, ← a3, done_slot_self]
  · intro b hb; rw [hg]; exact a4 b hb
  · intro l p hp
    have := a5 l p hp
    rw [done_slices] at this ⊢
    exact this
  · intro p hp
    have := a6 p hp
    rw [done_k] at this ⊢
    exact this
  · intro l p hp
    have := a7 l p hp
    rw [done_latches] at this ⊢
    rw [hg]; exact this

/-! ### Results depend on the executing lanes alone -/

theorem lowest_mem {m : Mask} {l : Lane} (h : lowest? m = some l) : m.getLsbD l.val = true := by
  have := List.find?_some h
  exact this

theorem sliceAfter_congr {w : Nat} (g : Group) (sh : Shape) (m : Mask) {v v' : Lane → BitVec w}
    (h : ∀ l : Lane, m.getLsbD l.val = true → v l = v' l) (l : Lane) (p : Nat) :
    sliceAfter g sh m v l p = sliceAfter g sh m v' l p := by
  unfold sliceAfter
  split
  · split
    · rename_i c; rw [h l c.2.1]
    · rfl
  · rfl

theorem latchAfter_congr {w : Nat} (g : Group) (sl : Slot) (sh : Shape) (m : Mask) {v v' : Lane → BitVec w}
    (h : ∀ l : Lane, m.getLsbD l.val = true → v l = v' l) (l : Lane) (p : Nat) :
    latchAfter g sl sh m v l p = latchAfter g sl sh m v' l p := by
  unfold latchAfter
  split
  · rename_i c; rw [h l c.2.1]
  · rfl

theorem kAfter_congr {w : Nat} (g : Group) (sh : Shape) (m : Mask) {v v' : Lane → BitVec w}
    (h : ∀ l : Lane, m.getLsbD l.val = true → v l = v' l) (p : Nat) : kAfter g sh m v p = kAfter g sh m v' p := by
  unfold kAfter
  split
  · rename_i hl; rw [h _ (lowest_mem hl)]
  · rfl

theorem maskAfter_congr {w : Nat} (sl : Slot) (sh : Shape) (m : Mask) {v v' : Lane → BitVec w}
    (h : ∀ l : Lane, m.getLsbD l.val = true → v l = v' l) (p : Nat) : maskAfter sl sh m v p = maskAfter sl sh m v' p := by
  unfold maskAfter
  split
  · rename_i hl; rw [h _ (lowest_mem hl)]
  · rfl

theorem RegResult.congr {w : Nat} {s t : State} {gid : Nat} {s1 : Bool} {g : Group} {sh : Shape} {m : Mask}
    {v v' : Lane → BitVec w} (h : ∀ l : Lane, m.getLsbD l.val = true → v l = v' l) (r : RegResult s t gid s1 g sh m v) :
    RegResult s t gid s1 g sh m v' := by
  obtain ⟨g', mask', e, a1, a2, a3, a4, a5, a6, a7⟩ := r
  refine ⟨g', mask', e, a1, a2, a3, ?_, ?_, ?_, ?_⟩
  · intro b hb; rw [a4 b hb, maskAfter_congr _ _ _ h]
  · intro l p hp; rw [a5 l p hp, sliceAfter_congr _ _ _ h]
  · intro p hp; rw [a6 p hp, kAfter_congr _ _ _ h]
  · intro l p hp; rw [a7 l p hp, latchAfter_congr _ _ _ _ h]

theorem Gives.congr {w : Nat} {i : Instr} {v v' : State → Group → Slot → Mask → Lane → BitVec w}
    (h : ∀ s g sl m (l : Lane), m.getLsbD l.val = true → v s g sl m l = v' s g sl m l) (r : Gives i v) : Gives i v' := by
  intro s gid s1 g sh s' hp
  obtain ⟨t, ht, hr⟩ := r s gid s1 g sh s' hp
  exact ⟨t, ht, hr.congr fun l hl => h _ _ _ _ l hl⟩

/-- Every runV word gives its value. -/
theorem gives_of_runV {w : Nat} (hw : 0 < w) {i : Instr} {f : State → Group → Slot → Mask → Lane → BitVec w}
    (e : ∀ s, exec i s = runV i s f) : Gives i f := by
  intro s gid s1 g sh s' hp
  rw [e s]
  unfold runV
  rw [gate_of_passes _ hp]
  exact ⟨_, rfl, result_done hw _ _ _ _ _ _ _⟩

/-! ### Predicates -/

theorem setPred_pred (g : Group) (n n' : BitVec 3) (m vals : Mask) (l : Lane) :
    (g.setPred n m vals).pred n' l =
      if n' = n ∧ m.getLsbD l.val = true ∧ n' ≠ 7#3 then vals.getLsbD l.val else g.pred n' l := by
  unfold Group.setPred Group.pred
  by_cases h : n.toNat < 7
  · rw [dif_pos h]
    by_cases h' : n'.toNat < 7
    · rw [dif_pos h', dif_pos h']
      have h7 : n' ≠ 7#3 := by intro e; subst e; simp at h'
      by_cases e : n' = n
      · subst e
        simp only [Vector.getElem_set_self, BitVec.getLsbD_or, BitVec.getLsbD_and, BitVec.getLsbD_not, l.isLt, decide_true,
          Bool.true_and]
        generalize m.getLsbD l.val = bm
        cases bm <;> simp [h7]
      · have ne : n.toNat ≠ n'.toNat := fun x => e (BitVec.eq_of_toNat_eq x.symm)
        have c : ¬ (n' = n ∧ m.getLsbD l.val = true ∧ n' ≠ 7#3) := fun c => e c.1
        rw [if_neg c]
        simp only [Vector.getElem_set_ne _ _ ne]
    · have h7 : n' = 7#3 := BitVec.eq_of_toNat_eq (by have := n'.isLt; simp; omega)
      have c : ¬ (n' = n ∧ m.getLsbD l.val = true ∧ n' ≠ 7#3) := fun c => c.2.2 h7
      rw [dif_neg h', dif_neg h', if_neg c]
  · rw [dif_neg h]
    have h7 : n = 7#3 := BitVec.eq_of_toNat_eq (by have := n.isLt; simp; omega)
    have c : ¬ (n' = n ∧ m.getLsbD l.val = true ∧ n' ≠ 7#3) := fun c => c.2.2 (c.1.trans h7)
    rw [if_neg c]

theorem setGpred_gpred (g : Group) (n n' : BitVec 3) (v : Bool) :
    (g.setGpred n v).gpred n' = if n' = n ∧ n' ≠ 7#3 then v else g.gpred n' := by
  unfold Group.setGpred Group.gpred
  generalize hx : g.g = x
  by_cases h7 : n = 7#3
  · subst h7
    by_cases e : n' = 7#3
    · subst e; simp
    · simp [e, hx]
  · rw [if_neg h7]
    by_cases e7 : n' = 7#3
    · subst e7
      have : ¬ (7#3 = n) := fun e => h7 e.symm
      simp
    · rw [if_neg e7, if_neg e7]
      have h1 : n.toNat < 7 := by
        have := n.isLt
        have : n.toNat ≠ 7 := fun e => h7 (BitVec.eq_of_toNat_eq (by simpa using e))
        omega
      have h2 : n'.toNat < 7 := by
        have := n'.isLt
        have : n'.toNat ≠ 7 := fun e => e7 (BitVec.eq_of_toNat_eq (by simpa using e))
        omega
      by_cases e : n' = n
      · subst e
        cases v
        · simp [e7, h2]
        · simp [e7, h2]
      · have ne : n'.toNat ≠ n.toNat := fun x => e (BitVec.eq_of_toNat_eq x)
        have c : ¬ (n' = n ∧ n' ≠ 7#3) := fun c => e c.1
        rw [if_neg c]
        have one : (1#7 <<< n.toNat).getLsbD n'.toNat = false := by
          rw [BitVec.getLsbD_shiftLeft]
          by_cases a : n'.toNat < n.toNat
          · simp [a]
          · have : ¬ (n'.toNat - n.toNat = 0) := by omega
            simp [BitVec.getLsbD_one, this]
        cases v
        · simp only [Bool.false_eq_true, if_false, BitVec.getLsbD_and, BitVec.getLsbD_not, one]; simp [h2]
        · simp only [if_true, BitVec.getLsbD_or, one]; simp

theorem setPred_rest (g : Group) (n : BitVec 3) (m v : Mask) : ∃ a, g.setPred n m v = { g with preds := a } := by
  unfold Group.setPred
  split
  · exact ⟨_, rfl⟩
  · exact ⟨g.preds, rfl⟩

theorem setGpred_rest (g : Group) (n : BitVec 3) (v : Bool) : ∃ a, g.setGpred n v = { g with g := a } := by
  unfold Group.setGpred
  split
  · exact ⟨g.g, rfl⟩
  · exact ⟨_, rfl⟩

theorem preds_slot (g : Group) (a : Vector Mask 7) (b : Bool) : ({ g with preds := a } : Group).slot b = g.slot b := by
  cases b <;> rfl
theorem gpreds_slot (g : Group) (a : BitVec 7) (b : Bool) : ({ g with g := a } : Group).slot b = g.slot b := by cases b <;> rfl

/-- The write of a predicate destination. -/
def Group.putPred (g : Group) (sh : Shape) (m : Mask) (v : Lane → Bool) : Group :=
  match sh.pdst, lowest? m with
  | some (.p n), _ => g.setPred n m (maskOf v)
  | some (.g n), some l => g.setGpred n (v l)
  | _, _ => g

theorem done_pred (g : Group) (b : Bool) (sh : Shape) (n : BitVec 3) (l : Lane) : (g.done b sh).pred n l = g.pred n l := by
  cases b <;> rfl
theorem done_gpred (g : Group) (b : Bool) (sh : Shape) (n : BitVec 3) : (g.done b sh).gpred n = g.gpred n := by
  cases b <;> rfl

/-- Everything that a word with one predicate result leaves. -/
theorem pred_done (s : State) (gid : Nat) (s1 : Bool) (g : Group) (sh : Shape) (m : Mask) (v : Lane → Bool) :
    PredResult s (s.setGroup gid ((g.putPred sh m v).done s1 sh)) gid s1 g sh m v := by
  have parts : ∃ a b, g.putPred sh m v = { g with preds := a, g := b } := by
    unfold Group.putPred
    split
    · obtain ⟨a, e⟩ := setPred_rest g ‹_› m (maskOf v); exact ⟨a, g.g, e⟩
    · obtain ⟨a, e⟩ := setGpred_rest g ‹_› (v ‹_›); exact ⟨g.preds, a, e⟩
    · exact ⟨g.preds, g.g, rfl⟩
  have hp : ∀ (n : BitVec 3) (l : Lane), (g.putPred sh m v).pred n l =
      if sh.pdst = some (.p n) ∧ m.getLsbD l.val = true ∧ n ≠ 7#3 then v l else g.pred n l := by
    intro n l
    unfold Group.putPred
    split
    · rename_i k hk
      rw [setPred_pred, getLsbD_maskOf]
      by_cases e : n = k
      · subst e; simp [hk]
      · have : ¬ (some (PDst.p k) = some (PDst.p n)) := fun x => e (by injection x with x; injection x with x; exact x.symm)
        simp [hk, e]
        intro h; exact absurd h.symm e
    · rename_i k l' hk hl
      have : (g.setGpred k (v l')).pred n l = g.pred n l := by
        obtain ⟨a, e⟩ := setGpred_rest g k (v l'); rw [e]; rfl
      rw [this]; simp [hk]
    · rename_i h1 h2
      have : sh.pdst ≠ some (.p n) := fun e => h1 n e
      simp [this]
  have hg : ∀ n : BitVec 3, (g.putPred sh m v).gpred n =
      match lowest? m with
      | some l => if sh.pdst = some (.g n) ∧ n ≠ 7#3 then v l else g.gpred n
      | none => g.gpred n := by
    intro n
    unfold Group.putPred
    split
    · rename_i k hk
      have : (g.setPred k m (maskOf v)).gpred n = g.gpred n := by
        obtain ⟨a, e⟩ := setPred_rest g k m (maskOf v); rw [e]; rfl
      rw [this]; split <;> simp [hk]
    · rename_i k l' hk hl
      rw [setGpred_gpred, hl]
      by_cases e : n = k
      · subst e; simp [hk]
      · have : ¬ (some (PDst.g k) = some (PDst.g n)) := fun x => e (by injection x with x; injection x with x; exact x.symm)
        simp [hk, e]
        intro h; exact absurd h.symm e
    · rename_i h1 h2
      split
      · rename_i l hl
        have : sh.pdst ≠ some (.g n) := fun e => h2 n l e hl
        simp [this]
      · rfl
  obtain ⟨a, b, e⟩ := parts
  have hs : ∀ x, (g.putPred sh m v).slot x = g.slot x := by intro x; rw [e]; cases x <;> rfl
  refine ⟨(g.putPred sh m v).done s1 sh, rfl, ?_, ?_, ?_, ?_, ?_⟩
  · rw [done_rest, e]
  · rw [done_slot_not, hs]
  · rw [done_slot_self, hs]
  · intro n l; rw [done_pred]; exact hp n l
  · intro n; rw [done_gpred]; exact hg n

/-- Every runP word gives its predicate. -/
theorem gives_of_runP {i : Instr} {f : State → Group → Slot → Lane → Bool} (e : ∀ s, exec i s = runP i s f) :
    GivesPred i fun s g sl _ => f s g sl := by
  intro s gid s1 g sh s' hp
  rw [e s]
  unfold runP
  rw [gate_of_passes _ hp]
  exact ⟨_, rfl, pred_done _ _ _ _ _ _ _⟩

/-! ### Words that raise flags -/

theorem raise_slot (g : Group) (f : FFlags) (b : Bool) : (g.raise f).slot b = g.slot b := by cases b <;> rfl

theorem and_all_lanes (m : Mask) : m &&& ~~~(0#96) = m := by
  have : ~~~(0#96) = BitVec.allOnes 96 := by decide
  rw [this, BitVec.and_allOnes]

theorem finishF_ok {i : Instr} {s : State} {gid : Nat} {s1 : Bool} {g : Group} {sh : Shape} {m : Mask} {fl : Lane → FFlags}
    {adv : Nat} {put : Group → Mask → Bool → Group} (h : flagTraps g m fl = 0#96) :
    finishF i s gid s1 g sh m fl adv put =
      .next (s.setGroup gid ((((put g m true).raise (orFlags m fl)).advanceSr m adv).done s1 sh)) := by
  unfold finishF
  dsimp only
  rw [h, and_all_lanes, if_pos rfl, decide_eq_true rfl]

/-- Every runF word gives its value where no enabled flag is raised. -/
theorem gives_of_runF {w : Nat} (hw : 0 < w) {i : Instr} {rm : BitVec 3} {adv : Nat}
    {f : State → Group → Slot → Lane → FRes w} (e : ∀ s, exec i s = runF i s rm adv f) : GivesF i rm adv f := by
  intro s gid s1 g sh s' hp ht
  rw [e s]
  unfold runF
  rw [gate_of_passes _ hp]
  show ∃ t, finishF i s' gid s1 g sh (g.lanesAt s1 sh)
    (fun l => ((Vector.ofFn fun l : Lane => if (g.lanesAt s1 sh).getLsbD l.val then f s' g (g.slot s1) l else (0#w, fNone)) : Lanes (FRes w))[l].2)
    (if fpMode g rm = .sr then adv else 0) (fun g' k u => g'.putResult s1 sh k u fun l =>
      ((Vector.ofFn fun l : Lane => if (g.lanesAt s1 sh).getLsbD l.val then f s' g (g.slot s1) l else (0#w, fNone)) : Lanes (FRes w))[l].1)
    = .next t ∧ _
  have hm : ∀ l : Lane, (g.lanesAt s1 sh).getLsbD l.val = true →
      ((Vector.ofFn fun l : Lane => if (g.lanesAt s1 sh).getLsbD l.val then f s' g (g.slot s1) l else (0#w, fNone)) : Lanes (FRes w))[l]
        = f s' g (g.slot s1) l := by
    intro l hl; simp only [Fin.getElem_fin, Vector.getElem_ofFn]; rw [if_pos hl]
  generalize hr : ((Vector.ofFn fun l : Lane => if (g.lanesAt s1 sh).getLsbD l.val then f s' g (g.slot s1) l else (0#w, fNone)) : Lanes (FRes w)) = r at hm ⊢
  have ht' : flagTraps g (g.lanesAt s1 sh) (fun l => r[l].2) = 0#96 := by
    rw [← ht]
    unfold flagTraps
    apply BitVec.eq_of_getLsbD_eq
    intro p hpp
    rw [BitVec.getLsbD_and, BitVec.getLsbD_and]
    by_cases hl : (g.lanesAt s1 sh).getLsbD p = true
    · rw [hl]
      have := getLsbD_maskOf (fun l => decide ((r[l].2 &&& trapEnables g) ≠ 0#6)) ⟨p, hpp⟩
      have h2 := getLsbD_maskOf (fun l => decide (((f s' g (g.slot s1) l).2 &&& trapEnables g) ≠ 0#6)) ⟨p, hpp⟩
      simp only at this h2
      rw [this, h2, hm ⟨p, hpp⟩ hl]
    · have : (g.lanesAt s1 sh).getLsbD p = false := by simpa using hl
      rw [this]; simp
  have hor : orFlags (g.lanesAt s1 sh) (fun l => r[l].2) = orFlags (g.lanesAt s1 sh) (fun l => (f s' g (g.slot s1) l).2) := by
    unfold orFlags
    have : ∀ (ls : List Lane) (a : FFlags), (∀ l ∈ ls, (g.lanesAt s1 sh).getLsbD l.val = true) →
        ls.foldl (fun a l => a ||| r[l].2) a = ls.foldl (fun a l => a ||| (f s' g (g.slot s1) l).2) a := by
      intro ls
      induction ls with
      | nil => intro a _; rfl
      | cons x xs ih =>
        intro a h
        simp only [List.foldl_cons]
        rw [hm x (h x (List.mem_cons_self ..))]
        exact ih _ fun l hl => h l (List.mem_cons_of_mem _ hl)
    exact this _ _ fun l hl => (mem_lanesOf _ _).mp hl
  have key := group_flagged (orFlags (g.lanesAt s1 sh) fun l => r[l].2) (if fpMode g rm = .sr then adv else 0)
    (putResult_group hw s1 g sh (g.lanesAt s1 sh) (fun l => r[l].1))
  refine ⟨_, finishF_ok ht', ?_⟩
  unfold Group.flagged
  rw [← hor]
  exact RegResult.congr (v := fun l => r[l].1) (fun l hl => by rw [hm l hl]) (reg_of_group key)

end Sys2Proof.Machine
end

