-- ==== Sys2Proof/Laws/State.lean ====
section
/-! SUPPORT. What each update of the state, of a group and of a slot leaves: one lemma for each field. -/

namespace Sys2Proof.Machine

/-! ### The state -/

@[simp] theorem setGroup_now (s : State) (n : Nat) (x : Group) : (s.setGroup n x).now = s.now := rfl
@[simp] theorem setGroup_mem (s : State) (n : Nat) (x : Group) : (s.setGroup n x).mem = s.mem := rfl
@[simp] theorem setGroup_l2 (s : State) (n : Nat) (x : Group) : (s.setGroup n x).l2 = s.l2 := rfl
@[simp] theorem setGroup_stores (s : State) (n : Nat) (x : Group) : (s.setGroup n x).stores = s.stores := rfl
@[simp] theorem setGroup_accs (s : State) (n : Nat) (x : Group) : (s.setGroup n x).accs = s.accs := rfl
@[simp] theorem setGroup_fences (s : State) (n : Nat) (x : Group) : (s.setGroup n x).fences = s.fences := rfl
@[simp] theorem setGroup_followers (s : State) (n : Nat) (x : Group) : (s.setGroup n x).followers = s.followers := rfl
@[simp] theorem setGroup_tlbinvs (s : State) (n : Nat) (x : Group) : (s.setGroup n x).tlbinvs = s.tlbinvs := rfl
@[simp] theorem setGroup_lazies (s : State) (n : Nat) (x : Group) : (s.setGroup n x).lazies = s.lazies := rfl
@[simp] theorem setGroup_leases (s : State) (n : Nat) (x : Group) : (s.setGroup n x).leases = s.leases := rfl
@[simp] theorem setGroup_held (s : State) (n : Nat) (x : Group) : (s.setGroup n x).held = s.held := rfl
@[simp] theorem setGroup_posted (s : State) (n : Nat) (x : Group) : (s.setGroup n x).posted = s.posted := rfl
@[simp] theorem setGroup_hostData (s : State) (n : Nat) (x : Group) : (s.setGroup n x).hostData = s.hostData := rfl
@[simp] theorem setGroup_flits (s : State) (n : Nat) (x : Group) : (s.setGroup n x).flits = s.flits := rfl
@[simp] theorem setGroup_remoteData (s : State) (n : Nat) (x : Group) : (s.setGroup n x).remoteData = s.remoteData := rfl
@[simp] theorem setGroup_remoteWait (s : State) (n : Nat) (x : Group) : (s.setGroup n x).remoteWait = s.remoteWait := rfl
@[simp] theorem setGroup_remoteAcks (s : State) (n : Nat) (x : Group) : (s.setGroup n x).remoteAcks = s.remoteAcks := rfl
@[simp] theorem setGroup_expBase (s : State) (n : Nat) (x : Group) : (s.setGroup n x).expBase = s.expBase := rfl
@[simp] theorem setGroup_expSize (s : State) (n : Nat) (x : Group) : (s.setGroup n x).expSize = s.expSize := rfl
@[simp] theorem setGroup_groups (s : State) (n : Nat) (x : Group) : (s.setGroup n x).groups = tset s.groups n x := rfl
@[simp] theorem setGroup_teams (s : State) (n : Nat) (x : Group) : (s.setGroup n x).teams = s.teams := rfl
@[simp] theorem setGroup_grids (s : State) (n : Nat) (x : Group) : (s.setGroup n x).grids = s.grids := rfl
@[simp] theorem setGroup_saved (s : State) (n : Nat) (x : Group) : (s.setGroup n x).saved = s.saved := rfl
@[simp] theorem setGroup_deques (s : State) (n : Nat) (x : Group) : (s.setGroup n x).deques = s.deques := rfl
@[simp] theorem setGroup_progs (s : State) (n : Nat) (x : Group) : (s.setGroup n x).progs = s.progs := rfl
@[simp] theorem setGroup_copies (s : State) (n : Nat) (x : Group) : (s.setGroup n x).copies = s.copies := rfl
@[simp] theorem setGroup_efaults (s : State) (n : Nat) (x : Group) : (s.setGroup n x).efaults = s.efaults := rfl
@[simp] theorem setGroup_ctxs (s : State) (n : Nat) (x : Group) : (s.setGroup n x).ctxs = s.ctxs := rfl
@[simp] theorem setGroup_quads (s : State) (n : Nat) (x : Group) : (s.setGroup n x).quads = s.quads := rfl
@[simp] theorem setGroup_cores (s : State) (n : Nat) (x : Group) : (s.setGroup n x).cores = s.cores := rfl
@[simp] theorem setGroup_dies (s : State) (n : Nat) (x : Group) : (s.setGroup n x).dies = s.dies := rfl
@[simp] theorem setGroup_tenants (s : State) (n : Nat) (x : Group) : (s.setGroup n x).tenants = s.tenants := rfl
@[simp] theorem setGroup_spinbase (s : State) (n : Nat) (x : Group) : (s.setGroup n x).spinbase = s.spinbase := rfl
@[simp] theorem setGroup_mbox (s : State) (n : Nat) (x : Group) : (s.setGroup n x).mbox = s.mbox := rfl
@[simp] theorem setGroup_boot (s : State) (n : Nat) (x : Group) : (s.setGroup n x).boot = s.boot := rfl
@[simp] theorem setGroup_measured (s : State) (n : Nat) (x : Group) : (s.setGroup n x).measured = s.measured := rfl
@[simp] theorem setGroup_reports (s : State) (n : Nat) (x : Group) : (s.setGroup n x).reports = s.reports := rfl
@[simp] theorem setGroup_tripped (s : State) (n : Nat) (x : Group) : (s.setGroup n x).tripped = s.tripped := rfl
@[simp] theorem setGroup_dsAlloc (s : State) (n : Nat) (x : Group) : (s.setGroup n x).dsAlloc = s.dsAlloc := rfl
@[simp] theorem setGroup_cur (s : State) (n : Nat) (x : Group) : (s.setGroup n x).cur = s.cur := rfl
@[simp] theorem setGroup_turns (s : State) (n : Nat) (x : Group) : (s.setGroup n x).turns = s.turns := rfl
@[simp] theorem setGroup_fresh (s : State) (n : Nat) (x : Group) : (s.setGroup n x).fresh = s.fresh := rfl
@[simp] theorem setGroup_seqNo (s : State) (n : Nat) (x : Group) : (s.setGroup n x).seqNo = s.seqNo := rfl
@[simp] theorem setCore_now (s : State) (d c : Nat) (x : CoreSt) : (s.setCore d c x).now = s.now := rfl
@[simp] theorem setCore_mem (s : State) (d c : Nat) (x : CoreSt) : (s.setCore d c x).mem = s.mem := rfl
@[simp] theorem setCore_l2 (s : State) (d c : Nat) (x : CoreSt) : (s.setCore d c x).l2 = s.l2 := rfl
@[simp] theorem setCore_stores (s : State) (d c : Nat) (x : CoreSt) : (s.setCore d c x).stores = s.stores := rfl
@[simp] theorem setCore_accs (s : State) (d c : Nat) (x : CoreSt) : (s.setCore d c x).accs = s.accs := rfl
@[simp] theorem setCore_fences (s : State) (d c : Nat) (x : CoreSt) : (s.setCore d c x).fences = s.fences := rfl
@[simp] theorem setCore_followers (s : State) (d c : Nat) (x : CoreSt) : (s.setCore d c x).followers = s.followers := rfl
@[simp] theorem setCore_tlbinvs (s : State) (d c : Nat) (x : CoreSt) : (s.setCore d c x).tlbinvs = s.tlbinvs := rfl
@[simp] theorem setCore_lazies (s : State) (d c : Nat) (x : CoreSt) : (s.setCore d c x).lazies = s.lazies := rfl
@[simp] theorem setCore_leases (s : State) (d c : Nat) (x : CoreSt) : (s.setCore d c x).leases = s.leases := rfl
@[simp] theorem setCore_held (s : State) (d c : Nat) (x : CoreSt) : (s.setCore d c x).held = s.held := rfl
@[simp] theorem setCore_posted (s : State) (d c : Nat) (x : CoreSt) : (s.setCore d c x).posted = s.posted := rfl
@[simp] theorem setCore_hostData (s : State) (d c : Nat) (x : CoreSt) : (s.setCore d c x).hostData = s.hostData := rfl
@[simp] theorem setCore_flits (s : State) (d c : Nat) (x : CoreSt) : (s.setCore d c x).flits = s.flits := rfl
@[simp] theorem setCore_remoteData (s : State) (d c : Nat) (x : CoreSt) : (s.setCore d c x).remoteData = s.remoteData := rfl
@[simp] theorem setCore_remoteWait (s : State) (d c : Nat) (x : CoreSt) : (s.setCore d c x).remoteWait = s.remoteWait := rfl
@[simp] theorem setCore_remoteAcks (s : State) (d c : Nat) (x : CoreSt) : (s.setCore d c x).remoteAcks = s.remoteAcks := rfl
@[simp] theorem setCore_expBase (s : State) (d c : Nat) (x : CoreSt) : (s.setCore d c x).expBase = s.expBase := rfl
@[simp] theorem setCore_expSize (s : State) (d c : Nat) (x : CoreSt) : (s.setCore d c x).expSize = s.expSize := rfl
@[simp] theorem setCore_groups (s : State) (d c : Nat) (x : CoreSt) : (s.setCore d c x).groups = s.groups := rfl
@[simp] theorem setCore_teams (s : State) (d c : Nat) (x : CoreSt) : (s.setCore d c x).teams = s.teams := rfl
@[simp] theorem setCore_grids (s : State) (d c : Nat) (x : CoreSt) : (s.setCore d c x).grids = s.grids := rfl
@[simp] theorem setCore_saved (s : State) (d c : Nat) (x : CoreSt) : (s.setCore d c x).saved = s.saved := rfl
@[simp] theorem setCore_deques (s : State) (d c : Nat) (x : CoreSt) : (s.setCore d c x).deques = s.deques := rfl
@[simp] theorem setCore_progs (s : State) (d c : Nat) (x : CoreSt) : (s.setCore d c x).progs = s.progs := rfl
@[simp] theorem setCore_copies (s : State) (d c : Nat) (x : CoreSt) : (s.setCore d c x).copies = s.copies := rfl
@[simp] theorem setCore_efaults (s : State) (d c : Nat) (x : CoreSt) : (s.setCore d c x).efaults = s.efaults := rfl
@[simp] theorem setCore_ctxs (s : State) (d c : Nat) (x : CoreSt) : (s.setCore d c x).ctxs = s.ctxs := rfl
@[simp] theorem setCore_quads (s : State) (d c : Nat) (x : CoreSt) : (s.setCore d c x).quads = s.quads := rfl
@[simp] theorem setCore_cores (s : State) (d c : Nat) (x : CoreSt) : (s.setCore d c x).cores = tset s.cores (coreKey d c) x := rfl
@[simp] theorem setCore_dies (s : State) (d c : Nat) (x : CoreSt) : (s.setCore d c x).dies = s.dies := rfl
@[simp] theorem setCore_tenants (s : State) (d c : Nat) (x : CoreSt) : (s.setCore d c x).tenants = s.tenants := rfl
@[simp] theorem setCore_spinbase (s : State) (d c : Nat) (x : CoreSt) : (s.setCore d c x).spinbase = s.spinbase := rfl
@[simp] theorem setCore_mbox (s : State) (d c : Nat) (x : CoreSt) : (s.setCore d c x).mbox = s.mbox := rfl
@[simp] theorem setCore_boot (s : State) (d c : Nat) (x : CoreSt) : (s.setCore d c x).boot = s.boot := rfl
@[simp] theorem setCore_measured (s : State) (d c : Nat) (x : CoreSt) : (s.setCore d c x).measured = s.measured := rfl
@[simp] theorem setCore_reports (s : State) (d c : Nat) (x : CoreSt) : (s.setCore d c x).reports = s.reports := rfl
@[simp] theorem setCore_tripped (s : State) (d c : Nat) (x : CoreSt) : (s.setCore d c x).tripped = s.tripped := rfl
@[simp] theorem setCore_dsAlloc (s : State) (d c : Nat) (x : CoreSt) : (s.setCore d c x).dsAlloc = s.dsAlloc := rfl
@[simp] theorem setCore_cur (s : State) (d c : Nat) (x : CoreSt) : (s.setCore d c x).cur = s.cur := rfl
@[simp] theorem setCore_turns (s : State) (d c : Nat) (x : CoreSt) : (s.setCore d c x).turns = s.turns := rfl
@[simp] theorem setCore_fresh (s : State) (d c : Nat) (x : CoreSt) : (s.setCore d c x).fresh = s.fresh := rfl
@[simp] theorem setCore_seqNo (s : State) (d c : Nat) (x : CoreSt) : (s.setCore d c x).seqNo = s.seqNo := rfl
@[simp] theorem setQuad_now (s : State) (d c q : Nat) (x : Quad) : (s.setQuad d c q x).now = s.now := rfl
@[simp] theorem setQuad_mem (s : State) (d c q : Nat) (x : Quad) : (s.setQuad d c q x).mem = s.mem := rfl
@[simp] theorem setQuad_l2 (s : State) (d c q : Nat) (x : Quad) : (s.setQuad d c q x).l2 = s.l2 := rfl
@[simp] theorem setQuad_stores (s : State) (d c q : Nat) (x : Quad) : (s.setQuad d c q x).stores = s.stores := rfl
@[simp] theorem setQuad_accs (s : State) (d c q : Nat) (x : Quad) : (s.setQuad d c q x).accs = s.accs := rfl
@[simp] theorem setQuad_fences (s : State) (d c q : Nat) (x : Quad) : (s.setQuad d c q x).fences = s.fences := rfl
@[simp] theorem setQuad_followers (s : State) (d c q : Nat) (x : Quad) : (s.setQuad d c q x).followers = s.followers := rfl
@[simp] theorem setQuad_tlbinvs (s : State) (d c q : Nat) (x : Quad) : (s.setQuad d c q x).tlbinvs = s.tlbinvs := rfl
@[simp] theorem setQuad_lazies (s : State) (d c q : Nat) (x : Quad) : (s.setQuad d c q x).lazies = s.lazies := rfl
@[simp] theorem setQuad_leases (s : State) (d c q : Nat) (x : Quad) : (s.setQuad d c q x).leases = s.leases := rfl
@[simp] theorem setQuad_held (s : State) (d c q : Nat) (x : Quad) : (s.setQuad d c q x).held = s.held := rfl
@[simp] theorem setQuad_posted (s : State) (d c q : Nat) (x : Quad) : (s.setQuad d c q x).posted = s.posted := rfl
@[simp] theorem setQuad_hostData (s : State) (d c q : Nat) (x : Quad) : (s.setQuad d c q x).hostData = s.hostData := rfl
@[simp] theorem setQuad_flits (s : State) (d c q : Nat) (x : Quad) : (s.setQuad d c q x).flits = s.flits := rfl
@[simp] theorem setQuad_remoteData (s : State) (d c q : Nat) (x : Quad) : (s.setQuad d c q x).remoteData = s.remoteData := rfl
@[simp] theorem setQuad_remoteWait (s : State) (d c q : Nat) (x : Quad) : (s.setQuad d c q x).remoteWait = s.remoteWait := rfl
@[simp] theorem setQuad_remoteAcks (s : State) (d c q : Nat) (x : Quad) : (s.setQuad d c q x).remoteAcks = s.remoteAcks := rfl
@[simp] theorem setQuad_expBase (s : State) (d c q : Nat) (x : Quad) : (s.setQuad d c q x).expBase = s.expBase := rfl
@[simp] theorem setQuad_expSize (s : State) (d c q : Nat) (x : Quad) : (s.setQuad d c q x).expSize = s.expSize := rfl
@[simp] theorem setQuad_groups (s : State) (d c q : Nat) (x : Quad) : (s.setQuad d c q x).groups = s.groups := rfl
@[simp] theorem setQuad_teams (s : State) (d c q : Nat) (x : Quad) : (s.setQuad d c q x).teams = s.teams := rfl
@[simp] theorem setQuad_grids (s : State) (d c q : Nat) (x : Quad) : (s.setQuad d c q x).grids = s.grids := rfl
@[simp] theorem setQuad_saved (s : State) (d c q : Nat) (x : Quad) : (s.setQuad d c q x).saved = s.saved := rfl
@[simp] theorem setQuad_deques (s : State) (d c q : Nat) (x : Quad) : (s.setQuad d c q x).deques = s.deques := rfl
@[simp] theorem setQuad_progs (s : State) (d c q : Nat) (x : Quad) : (s.setQuad d c q x).progs = s.progs := rfl
@[simp] theorem setQuad_copies (s : State) (d c q : Nat) (x : Quad) : (s.setQuad d c q x).copies = s.copies := rfl
@[simp] theorem setQuad_efaults (s : State) (d c q : Nat) (x : Quad) : (s.setQuad d c q x).efaults = s.efaults := rfl
@[simp] theorem setQuad_ctxs (s : State) (d c q : Nat) (x : Quad) : (s.setQuad d c q x).ctxs = s.ctxs := rfl
@[simp] theorem setQuad_quads (s : State) (d c q : Nat) (x : Quad) : (s.setQuad d c q x).quads = tset s.quads (quadKey d c q) x := rfl
@[simp] theorem setQuad_cores (s : State) (d c q : Nat) (x : Quad) : (s.setQuad d c q x).cores = s.cores := rfl
@[simp] theorem setQuad_dies (s : State) (d c q : Nat) (x : Quad) : (s.setQuad d c q x).dies = s.dies := rfl
@[simp] theorem setQuad_tenants (s : State) (d c q : Nat) (x : Quad) : (s.setQuad d c q x).tenants = s.tenants := rfl
@[simp] theorem setQuad_spinbase (s : State) (d c q : Nat) (x : Quad) : (s.setQuad d c q x).spinbase = s.spinbase := rfl
@[simp] theorem setQuad_mbox (s : State) (d c q : Nat) (x : Quad) : (s.setQuad d c q x).mbox = s.mbox := rfl
@[simp] theorem setQuad_boot (s : State) (d c q : Nat) (x : Quad) : (s.setQuad d c q x).boot = s.boot := rfl
@[simp] theorem setQuad_measured (s : State) (d c q : Nat) (x : Quad) : (s.setQuad d c q x).measured = s.measured := rfl
@[simp] theorem setQuad_reports (s : State) (d c q : Nat) (x : Quad) : (s.setQuad d c q x).reports = s.reports := rfl
@[simp] theorem setQuad_tripped (s : State) (d c q : Nat) (x : Quad) : (s.setQuad d c q x).tripped = s.tripped := rfl
@[simp] theorem setQuad_dsAlloc (s : State) (d c q : Nat) (x : Quad) : (s.setQuad d c q x).dsAlloc = s.dsAlloc := rfl
@[simp] theorem setQuad_cur (s : State) (d c q : Nat) (x : Quad) : (s.setQuad d c q x).cur = s.cur := rfl
@[simp] theorem setQuad_turns (s : State) (d c q : Nat) (x : Quad) : (s.setQuad d c q x).turns = s.turns := rfl
@[simp] theorem setQuad_fresh (s : State) (d c q : Nat) (x : Quad) : (s.setQuad d c q x).fresh = s.fresh := rfl
@[simp] theorem setQuad_seqNo (s : State) (d c q : Nat) (x : Quad) : (s.setQuad d c q x).seqNo = s.seqNo := rfl
@[simp] theorem setDie_now (s : State) (n : Nat) (x : Die) : (s.setDie n x).now = s.now := rfl
@[simp] theorem setDie_mem (s : State) (n : Nat) (x : Die) : (s.setDie n x).mem = s.mem := rfl
@[simp] theorem setDie_l2 (s : State) (n : Nat) (x : Die) : (s.setDie n x).l2 = s.l2 := rfl
@[simp] theorem setDie_stores (s : State) (n : Nat) (x : Die) : (s.setDie n x).stores = s.stores := rfl
@[simp] theorem setDie_accs (s : State) (n : Nat) (x : Die) : (s.setDie n x).accs = s.accs := rfl
@[simp] theorem setDie_fences (s : State) (n : Nat) (x : Die) : (s.setDie n x).fences = s.fences := rfl
@[simp] theorem setDie_followers (s : State) (n : Nat) (x : Die) : (s.setDie n x).followers = s.followers := rfl
@[simp] theorem setDie_tlbinvs (s : State) (n : Nat) (x : Die) : (s.setDie n x).tlbinvs = s.tlbinvs := rfl
@[simp] theorem setDie_lazies (s : State) (n : Nat) (x : Die) : (s.setDie n x).lazies = s.lazies := rfl
@[simp] theorem setDie_leases (s : State) (n : Nat) (x : Die) : (s.setDie n x).leases = s.leases := rfl
@[simp] theorem setDie_held (s : State) (n : Nat) (x : Die) : (s.setDie n x).held = s.held := rfl
@[simp] theorem setDie_posted (s : State) (n : Nat) (x : Die) : (s.setDie n x).posted = s.posted := rfl
@[simp] theorem setDie_hostData (s : State) (n : Nat) (x : Die) : (s.setDie n x).hostData = s.hostData := rfl
@[simp] theorem setDie_flits (s : State) (n : Nat) (x : Die) : (s.setDie n x).flits = s.flits := rfl
@[simp] theorem setDie_remoteData (s : State) (n : Nat) (x : Die) : (s.setDie n x).remoteData = s.remoteData := rfl
@[simp] theorem setDie_remoteWait (s : State) (n : Nat) (x : Die) : (s.setDie n x).remoteWait = s.remoteWait := rfl
@[simp] theorem setDie_remoteAcks (s : State) (n : Nat) (x : Die) : (s.setDie n x).remoteAcks = s.remoteAcks := rfl
@[simp] theorem setDie_expBase (s : State) (n : Nat) (x : Die) : (s.setDie n x).expBase = s.expBase := rfl
@[simp] theorem setDie_expSize (s : State) (n : Nat) (x : Die) : (s.setDie n x).expSize = s.expSize := rfl
@[simp] theorem setDie_groups (s : State) (n : Nat) (x : Die) : (s.setDie n x).groups = s.groups := rfl
@[simp] theorem setDie_teams (s : State) (n : Nat) (x : Die) : (s.setDie n x).teams = s.teams := rfl
@[simp] theorem setDie_grids (s : State) (n : Nat) (x : Die) : (s.setDie n x).grids = s.grids := rfl
@[simp] theorem setDie_saved (s : State) (n : Nat) (x : Die) : (s.setDie n x).saved = s.saved := rfl
@[simp] theorem setDie_deques (s : State) (n : Nat) (x : Die) : (s.setDie n x).deques = s.deques := rfl
@[simp] theorem setDie_progs (s : State) (n : Nat) (x : Die) : (s.setDie n x).progs = s.progs := rfl
@[simp] theorem setDie_copies (s : State) (n : Nat) (x : Die) : (s.setDie n x).copies = s.copies := rfl
@[simp] theorem setDie_efaults (s : State) (n : Nat) (x : Die) : (s.setDie n x).efaults = s.efaults := rfl
@[simp] theorem setDie_ctxs (s : State) (n : Nat) (x : Die) : (s.setDie n x).ctxs = s.ctxs := rfl
@[simp] theorem setDie_quads (s : State) (n : Nat) (x : Die) : (s.setDie n x).quads = s.quads := rfl
@[simp] theorem setDie_cores (s : State) (n : Nat) (x : Die) : (s.setDie n x).cores = s.cores := rfl
@[simp] theorem setDie_dies (s : State) (n : Nat) (x : Die) : (s.setDie n x).dies = tset s.dies n x := rfl
@[simp] theorem setDie_tenants (s : State) (n : Nat) (x : Die) : (s.setDie n x).tenants = s.tenants := rfl
@[simp] theorem setDie_spinbase (s : State) (n : Nat) (x : Die) : (s.setDie n x).spinbase = s.spinbase := rfl
@[simp] theorem setDie_mbox (s : State) (n : Nat) (x : Die) : (s.setDie n x).mbox = s.mbox := rfl
@[simp] theorem setDie_boot (s : State) (n : Nat) (x : Die) : (s.setDie n x).boot = s.boot := rfl
@[simp] theorem setDie_measured (s : State) (n : Nat) (x : Die) : (s.setDie n x).measured = s.measured := rfl
@[simp] theorem setDie_reports (s : State) (n : Nat) (x : Die) : (s.setDie n x).reports = s.reports := rfl
@[simp] theorem setDie_tripped (s : State) (n : Nat) (x : Die) : (s.setDie n x).tripped = s.tripped := rfl
@[simp] theorem setDie_dsAlloc (s : State) (n : Nat) (x : Die) : (s.setDie n x).dsAlloc = s.dsAlloc := rfl
@[simp] theorem setDie_cur (s : State) (n : Nat) (x : Die) : (s.setDie n x).cur = s.cur := rfl
@[simp] theorem setDie_turns (s : State) (n : Nat) (x : Die) : (s.setDie n x).turns = s.turns := rfl
@[simp] theorem setDie_fresh (s : State) (n : Nat) (x : Die) : (s.setDie n x).fresh = s.fresh := rfl
@[simp] theorem setDie_seqNo (s : State) (n : Nat) (x : Die) : (s.setDie n x).seqNo = s.seqNo := rfl
@[simp] theorem setTenant_now (s : State) (n : Nat) (x : Tenant) : (s.setTenant n x).now = s.now := rfl
@[simp] theorem setTenant_mem (s : State) (n : Nat) (x : Tenant) : (s.setTenant n x).mem = s.mem := rfl
@[simp] theorem setTenant_l2 (s : State) (n : Nat) (x : Tenant) : (s.setTenant n x).l2 = s.l2 := rfl
@[simp] theorem setTenant_stores (s : State) (n : Nat) (x : Tenant) : (s.setTenant n x).stores = s.stores := rfl
@[simp] theorem setTenant_accs (s : State) (n : Nat) (x : Tenant) : (s.setTenant n x).accs = s.accs := rfl
@[simp] theorem setTenant_fences (s : State) (n : Nat) (x : Tenant) : (s.setTenant n x).fences = s.fences := rfl
@[simp] theorem setTenant_followers (s : State) (n : Nat) (x : Tenant) : (s.setTenant n x).followers = s.followers := rfl
@[simp] theorem setTenant_tlbinvs (s : State) (n : Nat) (x : Tenant) : (s.setTenant n x).tlbinvs = s.tlbinvs := rfl
@[simp] theorem setTenant_lazies (s : State) (n : Nat) (x : Tenant) : (s.setTenant n x).lazies = s.lazies := rfl
@[simp] theorem setTenant_leases (s : State) (n : Nat) (x : Tenant) : (s.setTenant n x).leases = s.leases := rfl
@[simp] theorem setTenant_held (s : State) (n : Nat) (x : Tenant) : (s.setTenant n x).held = s.held := rfl
@[simp] theorem setTenant_posted (s : State) (n : Nat) (x : Tenant) : (s.setTenant n x).posted = s.posted := rfl
@[simp] theorem setTenant_hostData (s : State) (n : Nat) (x : Tenant) : (s.setTenant n x).hostData = s.hostData := rfl
@[simp] theorem setTenant_flits (s : State) (n : Nat) (x : Tenant) : (s.setTenant n x).flits = s.flits := rfl
@[simp] theorem setTenant_remoteData (s : State) (n : Nat) (x : Tenant) : (s.setTenant n x).remoteData = s.remoteData := rfl
@[simp] theorem setTenant_remoteWait (s : State) (n : Nat) (x : Tenant) : (s.setTenant n x).remoteWait = s.remoteWait := rfl
@[simp] theorem setTenant_remoteAcks (s : State) (n : Nat) (x : Tenant) : (s.setTenant n x).remoteAcks = s.remoteAcks := rfl
@[simp] theorem setTenant_expBase (s : State) (n : Nat) (x : Tenant) : (s.setTenant n x).expBase = s.expBase := rfl
@[simp] theorem setTenant_expSize (s : State) (n : Nat) (x : Tenant) : (s.setTenant n x).expSize = s.expSize := rfl
@[simp] theorem setTenant_groups (s : State) (n : Nat) (x : Tenant) : (s.setTenant n x).groups = s.groups := rfl
@[simp] theorem setTenant_teams (s : State) (n : Nat) (x : Tenant) : (s.setTenant n x).teams = s.teams := rfl
@[simp] theorem setTenant_grids (s : State) (n : Nat) (x : Tenant) : (s.setTenant n x).grids = s.grids := rfl
@[simp] theorem setTenant_saved (s : State) (n : Nat) (x : Tenant) : (s.setTenant n x).saved = s.saved := rfl
@[simp] theorem setTenant_deques (s : State) (n : Nat) (x : Tenant) : (s.setTenant n x).deques = s.deques := rfl
@[simp] theorem setTenant_progs (s : State) (n : Nat) (x : Tenant) : (s.setTenant n x).progs = s.progs := rfl
@[simp] theorem setTenant_copies (s : State) (n : Nat) (x : Tenant) : (s.setTenant n x).copies = s.copies := rfl
@[simp] theorem setTenant_efaults (s : State) (n : Nat) (x : Tenant) : (s.setTenant n x).efaults = s.efaults := rfl
@[simp] theorem setTenant_ctxs (s : State) (n : Nat) (x : Tenant) : (s.setTenant n x).ctxs = s.ctxs := rfl
@[simp] theorem setTenant_quads (s : State) (n : Nat) (x : Tenant) : (s.setTenant n x).quads = s.quads := rfl
@[simp] theorem setTenant_cores (s : State) (n : Nat) (x : Tenant) : (s.setTenant n x).cores = s.cores := rfl
@[simp] theorem setTenant_dies (s : State) (n : Nat) (x : Tenant) : (s.setTenant n x).dies = s.dies := rfl
@[simp] theorem setTenant_tenants (s : State) (n : Nat) (x : Tenant) : (s.setTenant n x).tenants = tset s.tenants n x := rfl
@[simp] theorem setTenant_spinbase (s : State) (n : Nat) (x : Tenant) : (s.setTenant n x).spinbase = s.spinbase := rfl
@[simp] theorem setTenant_mbox (s : State) (n : Nat) (x : Tenant) : (s.setTenant n x).mbox = s.mbox := rfl
@[simp] theorem setTenant_boot (s : State) (n : Nat) (x : Tenant) : (s.setTenant n x).boot = s.boot := rfl
@[simp] theorem setTenant_measured (s : State) (n : Nat) (x : Tenant) : (s.setTenant n x).measured = s.measured := rfl
@[simp] theorem setTenant_reports (s : State) (n : Nat) (x : Tenant) : (s.setTenant n x).reports = s.reports := rfl
@[simp] theorem setTenant_tripped (s : State) (n : Nat) (x : Tenant) : (s.setTenant n x).tripped = s.tripped := rfl
@[simp] theorem setTenant_dsAlloc (s : State) (n : Nat) (x : Tenant) : (s.setTenant n x).dsAlloc = s.dsAlloc := rfl
@[simp] theorem setTenant_cur (s : State) (n : Nat) (x : Tenant) : (s.setTenant n x).cur = s.cur := rfl
@[simp] theorem setTenant_turns (s : State) (n : Nat) (x : Tenant) : (s.setTenant n x).turns = s.turns := rfl
@[simp] theorem setTenant_fresh (s : State) (n : Nat) (x : Tenant) : (s.setTenant n x).fresh = s.fresh := rfl
@[simp] theorem setTenant_seqNo (s : State) (n : Nat) (x : Tenant) : (s.setTenant n x).seqNo = s.seqNo := rfl
@[simp] theorem setDeque_now (s : State) (n : Nat) (x : Deque) : (s.setDeque n x).now = s.now := rfl
@[simp] theorem setDeque_mem (s : State) (n : Nat) (x : Deque) : (s.setDeque n x).mem = s.mem := rfl
@[simp] theorem setDeque_l2 (s : State) (n : Nat) (x : Deque) : (s.setDeque n x).l2 = s.l2 := rfl
@[simp] theorem setDeque_stores (s : State) (n : Nat) (x : Deque) : (s.setDeque n x).stores = s.stores := rfl
@[simp] theorem setDeque_accs (s : State) (n : Nat) (x : Deque) : (s.setDeque n x).accs = s.accs := rfl
@[simp] theorem setDeque_fences (s : State) (n : Nat) (x : Deque) : (s.setDeque n x).fences = s.fences := rfl
@[simp] theorem setDeque_followers (s : State) (n : Nat) (x : Deque) : (s.setDeque n x).followers = s.followers := rfl
@[simp] theorem setDeque_tlbinvs (s : State) (n : Nat) (x : Deque) : (s.setDeque n x).tlbinvs = s.tlbinvs := rfl
@[simp] theorem setDeque_lazies (s : State) (n : Nat) (x : Deque) : (s.setDeque n x).lazies = s.lazies := rfl
@[simp] theorem setDeque_leases (s : State) (n : Nat) (x : Deque) : (s.setDeque n x).leases = s.leases := rfl
@[simp] theorem setDeque_held (s : State) (n : Nat) (x : Deque) : (s.setDeque n x).held = s.held := rfl
@[simp] theorem setDeque_posted (s : State) (n : Nat) (x : Deque) : (s.setDeque n x).posted = s.posted := rfl
@[simp] theorem setDeque_hostData (s : State) (n : Nat) (x : Deque) : (s.setDeque n x).hostData = s.hostData := rfl
@[simp] theorem setDeque_flits (s : State) (n : Nat) (x : Deque) : (s.setDeque n x).flits = s.flits := rfl
@[simp] theorem setDeque_remoteData (s : State) (n : Nat) (x : Deque) : (s.setDeque n x).remoteData = s.remoteData := rfl
@[simp] theorem setDeque_remoteWait (s : State) (n : Nat) (x : Deque) : (s.setDeque n x).remoteWait = s.remoteWait := rfl
@[simp] theorem setDeque_remoteAcks (s : State) (n : Nat) (x : Deque) : (s.setDeque n x).remoteAcks = s.remoteAcks := rfl
@[simp] theorem setDeque_expBase (s : State) (n : Nat) (x : Deque) : (s.setDeque n x).expBase = s.expBase := rfl
@[simp] theorem setDeque_expSize (s : State) (n : Nat) (x : Deque) : (s.setDeque n x).expSize = s.expSize := rfl
@[simp] theorem setDeque_groups (s : State) (n : Nat) (x : Deque) : (s.setDeque n x).groups = s.groups := rfl
@[simp] theorem setDeque_teams (s : State) (n : Nat) (x : Deque) : (s.setDeque n x).teams = s.teams := rfl
@[simp] theorem setDeque_grids (s : State) (n : Nat) (x : Deque) : (s.setDeque n x).grids = s.grids := rfl
@[simp] theorem setDeque_saved (s : State) (n : Nat) (x : Deque) : (s.setDeque n x).saved = s.saved := rfl
@[simp] theorem setDeque_deques (s : State) (n : Nat) (x : Deque) : (s.setDeque n x).deques = tset s.deques n x := rfl
@[simp] theorem setDeque_progs (s : State) (n : Nat) (x : Deque) : (s.setDeque n x).progs = s.progs := rfl
@[simp] theorem setDeque_copies (s : State) (n : Nat) (x : Deque) : (s.setDeque n x).copies = s.copies := rfl
@[simp] theorem setDeque_efaults (s : State) (n : Nat) (x : Deque) : (s.setDeque n x).efaults = s.efaults := rfl
@[simp] theorem setDeque_ctxs (s : State) (n : Nat) (x : Deque) : (s.setDeque n x).ctxs = s.ctxs := rfl
@[simp] theorem setDeque_quads (s : State) (n : Nat) (x : Deque) : (s.setDeque n x).quads = s.quads := rfl
@[simp] theorem setDeque_cores (s : State) (n : Nat) (x : Deque) : (s.setDeque n x).cores = s.cores := rfl
@[simp] theorem setDeque_dies (s : State) (n : Nat) (x : Deque) : (s.setDeque n x).dies = s.dies := rfl
@[simp] theorem setDeque_tenants (s : State) (n : Nat) (x : Deque) : (s.setDeque n x).tenants = s.tenants := rfl
@[simp] theorem setDeque_spinbase (s : State) (n : Nat) (x : Deque) : (s.setDeque n x).spinbase = s.spinbase := rfl
@[simp] theorem setDeque_mbox (s : State) (n : Nat) (x : Deque) : (s.setDeque n x).mbox = s.mbox := rfl
@[simp] theorem setDeque_boot (s : State) (n : Nat) (x : Deque) : (s.setDeque n x).boot = s.boot := rfl
@[simp] theorem setDeque_measured (s : State) (n : Nat) (x : Deque) : (s.setDeque n x).measured = s.measured := rfl
@[simp] theorem setDeque_reports (s : State) (n : Nat) (x : Deque) : (s.setDeque n x).reports = s.reports := rfl
@[simp] theorem setDeque_tripped (s : State) (n : Nat) (x : Deque) : (s.setDeque n x).tripped = s.tripped := rfl
@[simp] theorem setDeque_dsAlloc (s : State) (n : Nat) (x : Deque) : (s.setDeque n x).dsAlloc = s.dsAlloc := rfl
@[simp] theorem setDeque_cur (s : State) (n : Nat) (x : Deque) : (s.setDeque n x).cur = s.cur := rfl
@[simp] theorem setDeque_turns (s : State) (n : Nat) (x : Deque) : (s.setDeque n x).turns = s.turns := rfl
@[simp] theorem setDeque_fresh (s : State) (n : Nat) (x : Deque) : (s.setDeque n x).fresh = s.fresh := rfl
@[simp] theorem setDeque_seqNo (s : State) (n : Nat) (x : Deque) : (s.setDeque n x).seqNo = s.seqNo := rfl
@[simp] theorem nextId_now (s : State) : s.nextId.2.now = s.now := rfl
@[simp] theorem nextId_mem (s : State) : s.nextId.2.mem = s.mem := rfl
@[simp] theorem nextId_l2 (s : State) : s.nextId.2.l2 = s.l2 := rfl
@[simp] theorem nextId_stores (s : State) : s.nextId.2.stores = s.stores := rfl
@[simp] theorem nextId_accs (s : State) : s.nextId.2.accs = s.accs := rfl
@[simp] theorem nextId_fences (s : State) : s.nextId.2.fences = s.fences := rfl
@[simp] theorem nextId_followers (s : State) : s.nextId.2.followers = s.followers := rfl
@[simp] theorem nextId_tlbinvs (s : State) : s.nextId.2.tlbinvs = s.tlbinvs := rfl
@[simp] theorem nextId_lazies (s : State) : s.nextId.2.lazies = s.lazies := rfl
@[simp] theorem nextId_leases (s : State) : s.nextId.2.leases = s.leases := rfl
@[simp] theorem nextId_held (s : State) : s.nextId.2.held = s.held := rfl
@[simp] theorem nextId_posted (s : State) : s.nextId.2.posted = s.posted := rfl
@[simp] theorem nextId_hostData (s : State) : s.nextId.2.hostData = s.hostData := rfl
@[simp] theorem nextId_flits (s : State) : s.nextId.2.flits = s.flits := rfl
@[simp] theorem nextId_remoteData (s : State) : s.nextId.2.remoteData = s.remoteData := rfl
@[simp] theorem nextId_remoteWait (s : State) : s.nextId.2.remoteWait = s.remoteWait := rfl
@[simp] theorem nextId_remoteAcks (s : State) : s.nextId.2.remoteAcks = s.remoteAcks := rfl
@[simp] theorem nextId_expBase (s : State) : s.nextId.2.expBase = s.expBase := rfl
@[simp] theorem nextId_expSize (s : State) : s.nextId.2.expSize = s.expSize := rfl
@[simp] theorem nextId_groups (s : State) : s.nextId.2.groups = s.groups := rfl
@[simp] theorem nextId_teams (s : State) : s.nextId.2.teams = s.teams := rfl
@[simp] theorem nextId_grids (s : State) : s.nextId.2.grids = s.grids := rfl
@[simp] theorem nextId_saved (s : State) : s.nextId.2.saved = s.saved := rfl
@[simp] theorem nextId_deques (s : State) : s.nextId.2.deques = s.deques := rfl
@[simp] theorem nextId_progs (s : State) : s.nextId.2.progs = s.progs := rfl
@[simp] theorem nextId_copies (s : State) : s.nextId.2.copies = s.copies := rfl
@[simp] theorem nextId_efaults (s : State) : s.nextId.2.efaults = s.efaults := rfl
@[simp] theorem nextId_ctxs (s : State) : s.nextId.2.ctxs = s.ctxs := rfl
@[simp] theorem nextId_quads (s : State) : s.nextId.2.quads = s.quads := rfl
@[simp] theorem nextId_cores (s : State) : s.nextId.2.cores = s.cores := rfl
@[simp] theorem nextId_dies (s : State) : s.nextId.2.dies = s.dies := rfl
@[simp] theorem nextId_tenants (s : State) : s.nextId.2.tenants = s.tenants := rfl
@[simp] theorem nextId_spinbase (s : State) : s.nextId.2.spinbase = s.spinbase := rfl
@[simp] theorem nextId_mbox (s : State) : s.nextId.2.mbox = s.mbox := rfl
@[simp] theorem nextId_boot (s : State) : s.nextId.2.boot = s.boot := rfl
@[simp] theorem nextId_measured (s : State) : s.nextId.2.measured = s.measured := rfl
@[simp] theorem nextId_reports (s : State) : s.nextId.2.reports = s.reports := rfl
@[simp] theorem nextId_tripped (s : State) : s.nextId.2.tripped = s.tripped := rfl
@[simp] theorem nextId_dsAlloc (s : State) : s.nextId.2.dsAlloc = s.dsAlloc := rfl
@[simp] theorem nextId_cur (s : State) : s.nextId.2.cur = s.cur := rfl
@[simp] theorem nextId_turns (s : State) : s.nextId.2.turns = s.turns := rfl
@[simp] theorem nextId_fresh (s : State) : s.nextId.2.fresh = s.fresh := rfl
@[simp] theorem nextId_seqNo (s : State) : s.nextId.2.seqNo = s.seqNo + 1 := rfl
@[simp] theorem nextId_id (s : State) : s.nextId.1 = s.seqNo := rfl
@[simp] theorem free_now (s : State) : s.free.2.now = s.now := rfl
@[simp] theorem free_mem (s : State) : s.free.2.mem = s.mem := rfl
@[simp] theorem free_l2 (s : State) : s.free.2.l2 = s.l2 := rfl
@[simp] theorem free_stores (s : State) : s.free.2.stores = s.stores := rfl
@[simp] theorem free_accs (s : State) : s.free.2.accs = s.accs := rfl
@[simp] theorem free_fences (s : State) : s.free.2.fences = s.fences := rfl
@[simp] theorem free_followers (s : State) : s.free.2.followers = s.followers := rfl
@[simp] theorem free_tlbinvs (s : State) : s.free.2.tlbinvs = s.tlbinvs := rfl
@[simp] theorem free_lazies (s : State) : s.free.2.lazies = s.lazies := rfl
@[simp] theorem free_leases (s : State) : s.free.2.leases = s.leases := rfl
@[simp] theorem free_held (s : State) : s.free.2.held = s.held := rfl
@[simp] theorem free_posted (s : State) : s.free.2.posted = s.posted := rfl
@[simp] theorem free_hostData (s : State) : s.free.2.hostData = s.hostData := rfl
@[simp] theorem free_flits (s : State) : s.free.2.flits = s.flits := rfl
@[simp] theorem free_remoteData (s : State) : s.free.2.remoteData = s.remoteData := rfl
@[simp] theorem free_remoteWait (s : State) : s.free.2.remoteWait = s.remoteWait := rfl
@[simp] theorem free_remoteAcks (s : State) : s.free.2.remoteAcks = s.remoteAcks := rfl
@[simp] theorem free_expBase (s : State) : s.free.2.expBase = s.expBase := rfl
@[simp] theorem free_expSize (s : State) : s.free.2.expSize = s.expSize := rfl
@[simp] theorem free_groups (s : State) : s.free.2.groups = s.groups := rfl
@[simp] theorem free_teams (s : State) : s.free.2.teams = s.teams := rfl
@[simp] theorem free_grids (s : State) : s.free.2.grids = s.grids := rfl
@[simp] theorem free_saved (s : State) : s.free.2.saved = s.saved := rfl
@[simp] theorem free_deques (s : State) : s.free.2.deques = s.deques := rfl
@[simp] theorem free_progs (s : State) : s.free.2.progs = s.progs := rfl
@[simp] theorem free_copies (s : State) : s.free.2.copies = s.copies := rfl
@[simp] theorem free_efaults (s : State) : s.free.2.efaults = s.efaults := rfl
@[simp] theorem free_ctxs (s : State) : s.free.2.ctxs = s.ctxs := rfl
@[simp] theorem free_quads (s : State) : s.free.2.quads = s.quads := rfl
@[simp] theorem free_cores (s : State) : s.free.2.cores = s.cores := rfl
@[simp] theorem free_dies (s : State) : s.free.2.dies = s.dies := rfl
@[simp] theorem free_tenants (s : State) : s.free.2.tenants = s.tenants := rfl
@[simp] theorem free_spinbase (s : State) : s.free.2.spinbase = s.spinbase := rfl
@[simp] theorem free_mbox (s : State) : s.free.2.mbox = s.mbox := rfl
@[simp] theorem free_boot (s : State) : s.free.2.boot = s.boot := rfl
@[simp] theorem free_measured (s : State) : s.free.2.measured = s.measured := rfl
@[simp] theorem free_reports (s : State) : s.free.2.reports = s.reports := rfl
@[simp] theorem free_tripped (s : State) : s.free.2.tripped = s.tripped := rfl
@[simp] theorem free_dsAlloc (s : State) : s.free.2.dsAlloc = s.dsAlloc := rfl
@[simp] theorem free_cur (s : State) : s.free.2.cur = s.cur := rfl
@[simp] theorem free_turns (s : State) : s.free.2.turns = s.turns := rfl
@[simp] theorem free_fresh (s : State) : s.free.2.fresh = s.fresh + 1 := rfl
@[simp] theorem free_seqNo (s : State) : s.free.2.seqNo = s.seqNo := rfl
@[simp] theorem free_value (s : State) : s.free.1 = Config.freeValue s.fresh := rfl

/-! ### Groups -/

@[simp] theorem setSlot_die (g : Group) (b : Bool) (x : Slot) : (g.setSlot b x).die = g.die := by cases b <;> rfl
@[simp] theorem setSlot_core (g : Group) (b : Bool) (x : Slot) : (g.setSlot b x).core = g.core := by cases b <;> rfl
@[simp] theorem setSlot_quad (g : Group) (b : Bool) (x : Slot) : (g.setSlot b x).quad = g.quad := by cases b <;> rfl
@[simp] theorem setSlot_gslot (g : Group) (b : Bool) (x : Slot) : (g.setSlot b x).gslot = g.gslot := by cases b <;> rfl
@[simp] theorem setSlot_tenant (g : Group) (b : Bool) (x : Slot) : (g.setSlot b x).tenant = g.tenant := by cases b <;> rfl
@[simp] theorem setSlot_sup (g : Group) (b : Bool) (x : Slot) : (g.setSlot b x).sup = g.sup := by cases b <;> rfl
@[simp] theorem setSlot_grid (g : Group) (b : Bool) (x : Slot) : (g.setSlot b x).grid = g.grid := by cases b <;> rfl
@[simp] theorem setSlot_team (g : Group) (b : Bool) (x : Slot) : (g.setSlot b x).team = g.team := by cases b <;> rfl
@[simp] theorem setSlot_teamNo (g : Group) (b : Bool) (x : Slot) : (g.setSlot b x).teamNo = g.teamNo := by cases b <;> rfl
@[simp] theorem setSlot_index (g : Group) (b : Bool) (x : Slot) : (g.setSlot b x).index = g.index := by cases b <;> rfl
@[simp] theorem setSlot_role (g : Group) (b : Bool) (x : Slot) : (g.setSlot b x).role = g.role := by cases b <;> rfl
@[simp] theorem setSlot_lcore (g : Group) (b : Bool) (x : Slot) : (g.setSlot b x).lcore = g.lcore := by cases b <;> rfl
@[simp] theorem setSlot_born (g : Group) (b : Bool) (x : Slot) : (g.setSlot b x).born = g.born := by cases b <;> rfl
@[simp] theorem setSlot_prio (g : Group) (b : Bool) (x : Slot) : (g.setSlot b x).prio = g.prio := by cases b <;> rfl
@[simp] theorem setSlot_weight (g : Group) (b : Bool) (x : Slot) : (g.setSlot b x).weight = g.weight := by cases b <;> rfl
@[simp] theorem setSlot_halted (g : Group) (b : Bool) (x : Slot) : (g.setSlot b x).halted = g.halted := by cases b <;> rfl
@[simp] theorem setSlot_saving (g : Group) (b : Bool) (x : Slot) : (g.setSlot b x).saving = g.saving := by cases b <;> rfl
@[simp] theorem setSlot_stalled (g : Group) (b : Bool) (x : Slot) : (g.setSlot b x).stalled = g.stalled := by cases b <;> rfl
@[simp] theorem setSlot_watch (g : Group) (b : Bool) (x : Slot) : (g.setSlot b x).watch = g.watch := by cases b <;> rfl
@[simp] theorem setSlot_bindWait (g : Group) (b : Bool) (x : Slot) : (g.setSlot b x).bindWait = g.bindWait := by cases b <;> rfl
@[simp] theorem setSlot_lidx (g : Group) (b : Bool) (x : Slot) : (g.setSlot b x).lidx = g.lidx := by cases b <;> rfl
@[simp] theorem setSlot_retiredIdx (g : Group) (b : Bool) (x : Slot) : (g.setSlot b x).retiredIdx = g.retiredIdx := by cases b <;> rfl
@[simp] theorem setSlot_h (g : Group) (b : Bool) (x : Slot) : (g.setSlot b x).h = g.h := by cases b <;> rfl
@[simp] theorem setSlot_evicted (g : Group) (b : Bool) (x : Slot) : (g.setSlot b x).evicted = g.evicted := by cases b <;> rfl
@[simp] theorem setSlot_slices (g : Group) (b : Bool) (x : Slot) : (g.setSlot b x).slices = g.slices := by cases b <;> rfl
@[simp] theorem setSlot_k (g : Group) (b : Bool) (x : Slot) : (g.setSlot b x).k = g.k := by cases b <;> rfl
@[simp] theorem setSlot_preds (g : Group) (b : Bool) (x : Slot) : (g.setSlot b x).preds = g.preds := by cases b <;> rfl
@[simp] theorem setSlot_g (g : Group) (b : Bool) (x : Slot) : (g.setSlot b x).g = g.g := by cases b <;> rfl
@[simp] theorem setSlot_latches (g : Group) (b : Bool) (x : Slot) : (g.setSlot b x).latches = g.latches := by cases b <;> rfl
@[simp] theorem setSlot_latchW (g : Group) (b : Bool) (x : Slot) : (g.setSlot b x).latchW = g.latchW := by cases b <;> rfl
@[simp] theorem setSlot_shadowSl (g : Group) (b : Bool) (x : Slot) : (g.setSlot b x).shadowSl = g.shadowSl := by cases b <;> rfl
@[simp] theorem setSlot_shadowK (g : Group) (b : Bool) (x : Slot) : (g.setSlot b x).shadowK = g.shadowK := by cases b <;> rfl
@[simp] theorem setSlot_trapMode (g : Group) (b : Bool) (x : Slot) : (g.setSlot b x).trapMode = g.trapMode := by cases b <;> rfl
@[simp] theorem setSlot_frame (g : Group) (b : Bool) (x : Slot) : (g.setSlot b x).frame = g.frame := by cases b <;> rfl
@[simp] theorem setSlot_treg (g : Group) (b : Bool) (x : Slot) : (g.setSlot b x).treg = g.treg := by cases b <;> rfl
@[simp] theorem setSlot_utrap (g : Group) (b : Bool) (x : Slot) : (g.setSlot b x).utrap = g.utrap := by cases b <;> rfl
@[simp] theorem setSlot_lastS0 (g : Group) (b : Bool) (x : Slot) : (g.setSlot b x).lastS0 = g.lastS0 := by cases b <;> rfl
@[simp] theorem setSlot_rotCount (g : Group) (b : Bool) (x : Slot) : (g.setSlot b x).rotCount = g.rotCount := by cases b <;> rfl
@[simp] theorem setSlot_rotTurn (g : Group) (b : Bool) (x : Slot) : (g.setSlot b x).rotTurn = g.rotTurn := by cases b <;> rfl
@[simp] theorem setSlot_stack (g : Group) (b : Bool) (x : Slot) : (g.setSlot b x).stack = g.stack := by cases b <;> rfl
@[simp] theorem setSlot_c (g : Group) (b : Bool) (x : Slot) : (g.setSlot b x).c = g.c := by cases b <;> rfl
@[simp] theorem setSlot_fpctl (g : Group) (b : Bool) (x : Slot) : (g.setSlot b x).fpctl = g.fpctl := by cases b <;> rfl
@[simp] theorem setSlot_fpflags (g : Group) (b : Bool) (x : Slot) : (g.setSlot b x).fpflags = g.fpflags := by cases b <;> rfl
@[simp] theorem setSlot_srstrm (g : Group) (b : Bool) (x : Slot) : (g.setSlot b x).srstrm = g.srstrm := by cases b <;> rfl
@[simp] theorem setSlot_srctr (g : Group) (b : Bool) (x : Slot) : (g.setSlot b x).srctr = g.srctr := by cases b <;> rfl
@[simp] theorem setSlot_cdepth (g : Group) (b : Bool) (x : Slot) : (g.setSlot b x).cdepth = g.cdepth := by cases b <;> rfl
@[simp] theorem setSlot_spawns (g : Group) (b : Bool) (x : Slot) : (g.setSlot b x).spawns = g.spawns := by cases b <;> rfl
@[simp] theorem setSlot_lpbase (g : Group) (b : Bool) (x : Slot) : (g.setSlot b x).lpbase = g.lpbase := by cases b <;> rfl
@[simp] theorem setSlot_late (g : Group) (b : Bool) (x : Slot) : (g.setSlot b x).late = g.late := by cases b <;> rfl
@[simp] theorem setSlot_efa (g : Group) (b : Bool) (x : Slot) : (g.setSlot b x).efa = g.efa := by cases b <;> rfl
@[simp] theorem setSlot_efh (g : Group) (b : Bool) (x : Slot) : (g.setSlot b x).efh = g.efh := by cases b <;> rfl
@[simp] theorem setSlot_callhi (g : Group) (b : Bool) (x : Slot) : (g.setSlot b x).callhi = g.callhi := by cases b <;> rfl
@[simp] theorem setSlot_callh (g : Group) (b : Bool) (x : Slot) : (g.setSlot b x).callh = g.callh := by cases b <;> rfl
@[simp] theorem setSlot_callg (g : Group) (b : Bool) (x : Slot) : (g.setSlot b x).callg = g.callg := by cases b <;> rfl
@[simp] theorem setSlot_bank (g : Group) (b : Bool) (x : Slot) : (g.setSlot b x).bank = g.bank := by cases b <;> rfl
@[simp] theorem setSlot_bankGen (g : Group) (b : Bool) (x : Slot) : (g.setSlot b x).bankGen = g.bankGen := by cases b <;> rfl
@[simp] theorem setSlot_tsrc (g : Group) (b : Bool) (x : Slot) : (g.setSlot b x).tsrc = g.tsrc := by cases b <;> rfl
@[simp] theorem setSlot_agkey (g : Group) (b : Bool) (x : Slot) : (g.setSlot b x).agkey = g.agkey := by cases b <;> rfl
@[simp] theorem setSlot_det (g : Group) (b : Bool) (x : Slot) : (g.setSlot b x).det = g.det := by cases b <;> rfl
@[simp] theorem setSlot_region (g : Group) (b : Bool) (x : Slot) : (g.setSlot b x).region = g.region := by cases b <;> rfl
@[simp] theorem setSlot_digest (g : Group) (b : Bool) (x : Slot) : (g.setSlot b x).digest = g.digest := by cases b <;> rfl
@[simp] theorem setSlot_effects (g : Group) (b : Bool) (x : Slot) : (g.setSlot b x).effects = g.effects := by cases b <;> rfl
@[simp] theorem setSlot_tasks (g : Group) (b : Bool) (x : Slot) : (g.setSlot b x).tasks = g.tasks := by cases b <;> rfl
@[simp] theorem setSlot_replayed (g : Group) (b : Bool) (x : Slot) : (g.setSlot b x).replayed = g.replayed := by cases b <;> rfl
@[simp] theorem setSlot_parkedAll (g : Group) (b : Bool) (x : Slot) : (g.setSlot b x).parkedAll = g.parkedAll := by cases b <;> rfl
@[simp] theorem setSlot_owed (g : Group) (b : Bool) (x : Slot) : (g.setSlot b x).owed = g.owed := by cases b <;> rfl
@[simp] theorem setSlot_blockedAt (g : Group) (b : Bool) (x : Slot) : (g.setSlot b x).blockedAt = g.blockedAt := by cases b <;> rfl
@[simp] theorem modSlot_die (g : Group) (b : Bool) (f : Slot → Slot) : (g.modSlot b f).die = g.die := by cases b <;> rfl
@[simp] theorem modSlot_core (g : Group) (b : Bool) (f : Slot → Slot) : (g.modSlot b f).core = g.core := by cases b <;> rfl
@[simp] theorem modSlot_quad (g : Group) (b : Bool) (f : Slot → Slot) : (g.modSlot b f).quad = g.quad := by cases b <;> rfl
@[simp] theorem modSlot_gslot (g : Group) (b : Bool) (f : Slot → Slot) : (g.modSlot b f).gslot = g.gslot := by cases b <;> rfl
@[simp] theorem modSlot_tenant (g : Group) (b : Bool) (f : Slot → Slot) : (g.modSlot b f).tenant = g.tenant := by cases b <;> rfl
@[simp] theorem modSlot_sup (g : Group) (b : Bool) (f : Slot → Slot) : (g.modSlot b f).sup = g.sup := by cases b <;> rfl
@[simp] theorem modSlot_grid (g : Group) (b : Bool) (f : Slot → Slot) : (g.modSlot b f).grid = g.grid := by cases b <;> rfl
@[simp] theorem modSlot_team (g : Group) (b : Bool) (f : Slot → Slot) : (g.modSlot b f).team = g.team := by cases b <;> rfl
@[simp] theorem modSlot_teamNo (g : Group) (b : Bool) (f : Slot → Slot) : (g.modSlot b f).teamNo = g.teamNo := by cases b <;> rfl
@[simp] theorem modSlot_index (g : Group) (b : Bool) (f : Slot → Slot) : (g.modSlot b f).index = g.index := by cases b <;> rfl
@[simp] theorem modSlot_role (g : Group) (b : Bool) (f : Slot → Slot) : (g.modSlot b f).role = g.role := by cases b <;> rfl
@[simp] theorem modSlot_lcore (g : Group) (b : Bool) (f : Slot → Slot) : (g.modSlot b f).lcore = g.lcore := by cases b <;> rfl
@[simp] theorem modSlot_born (g : Group) (b : Bool) (f : Slot → Slot) : (g.modSlot b f).born = g.born := by cases b <;> rfl
@[simp] theorem modSlot_prio (g : Group) (b : Bool) (f : Slot → Slot) : (g.modSlot b f).prio = g.prio := by cases b <;> rfl
@[simp] theorem modSlot_weight (g : Group) (b : Bool) (f : Slot → Slot) : (g.modSlot b f).weight = g.weight := by cases b <;> rfl
@[simp] theorem modSlot_halted (g : Group) (b : Bool) (f : Slot → Slot) : (g.modSlot b f).halted = g.halted := by cases b <;> rfl
@[simp] theorem modSlot_saving (g : Group) (b : Bool) (f : Slot → Slot) : (g.modSlot b f).saving = g.saving := by cases b <;> rfl
@[simp] theorem modSlot_stalled (g : Group) (b : Bool) (f : Slot → Slot) : (g.modSlot b f).stalled = g.stalled := by cases b <;> rfl
@[simp] theorem modSlot_watch (g : Group) (b : Bool) (f : Slot → Slot) : (g.modSlot b f).watch = g.watch := by cases b <;> rfl
@[simp] theorem modSlot_bindWait (g : Group) (b : Bool) (f : Slot → Slot) : (g.modSlot b f).bindWait = g.bindWait := by cases b <;> rfl
@[simp] theorem modSlot_lidx (g : Group) (b : Bool) (f : Slot → Slot) : (g.modSlot b f).lidx = g.lidx := by cases b <;> rfl
@[simp] theorem modSlot_retiredIdx (g : Group) (b : Bool) (f : Slot → Slot) : (g.modSlot b f).retiredIdx = g.retiredIdx := by cases b <;> rfl
@[simp] theorem modSlot_h (g : Group) (b : Bool) (f : Slot → Slot) : (g.modSlot b f).h = g.h := by cases b <;> rfl
@[simp] theorem modSlot_evicted (g : Group) (b : Bool) (f : Slot → Slot) : (g.modSlot b f).evicted = g.evicted := by cases b <;> rfl
@[simp] theorem modSlot_slices (g : Group) (b : Bool) (f : Slot → Slot) : (g.modSlot b f).slices = g.slices := by cases b <;> rfl
@[simp] theorem modSlot_k (g : Group) (b : Bool) (f : Slot → Slot) : (g.modSlot b f).k = g.k := by cases b <;> rfl
@[simp] theorem modSlot_preds (g : Group) (b : Bool) (f : Slot → Slot) : (g.modSlot b f).preds = g.preds := by cases b <;> rfl
@[simp] theorem modSlot_g (g : Group) (b : Bool) (f : Slot → Slot) : (g.modSlot b f).g = g.g := by cases b <;> rfl
@[simp] theorem modSlot_latches (g : Group) (b : Bool) (f : Slot → Slot) : (g.modSlot b f).latches = g.latches := by cases b <;> rfl
@[simp] theorem modSlot_latchW (g : Group) (b : Bool) (f : Slot → Slot) : (g.modSlot b f).latchW = g.latchW := by cases b <;> rfl
@[simp] theorem modSlot_shadowSl (g : Group) (b : Bool) (f : Slot → Slot) : (g.modSlot b f).shadowSl = g.shadowSl := by cases b <;> rfl
@[simp] theorem modSlot_shadowK (g : Group) (b : Bool) (f : Slot → Slot) : (g.modSlot b f).shadowK = g.shadowK := by cases b <;> rfl
@[simp] theorem modSlot_trapMode (g : Group) (b : Bool) (f : Slot → Slot) : (g.modSlot b f).trapMode = g.trapMode := by cases b <;> rfl
@[simp] theorem modSlot_frame (g : Group) (b : Bool) (f : Slot → Slot) : (g.modSlot b f).frame = g.frame := by cases b <;> rfl
@[simp] theorem modSlot_treg (g : Group) (b : Bool) (f : Slot → Slot) : (g.modSlot b f).treg = g.treg := by cases b <;> rfl
@[simp] theorem modSlot_utrap (g : Group) (b : Bool) (f : Slot → Slot) : (g.modSlot b f).utrap = g.utrap := by cases b <;> rfl
@[simp] theorem modSlot_lastS0 (g : Group) (b : Bool) (f : Slot → Slot) : (g.modSlot b f).lastS0 = g.lastS0 := by cases b <;> rfl
@[simp] theorem modSlot_rotCount (g : Group) (b : Bool) (f : Slot → Slot) : (g.modSlot b f).rotCount = g.rotCount := by cases b <;> rfl
@[simp] theorem modSlot_rotTurn (g : Group) (b : Bool) (f : Slot → Slot) : (g.modSlot b f).rotTurn = g.rotTurn := by cases b <;> rfl
@[simp] theorem modSlot_stack (g : Group) (b : Bool) (f : Slot → Slot) : (g.modSlot b f).stack = g.stack := by cases b <;> rfl
@[simp] theorem modSlot_c (g : Group) (b : Bool) (f : Slot → Slot) : (g.modSlot b f).c = g.c := by cases b <;> rfl
@[simp] theorem modSlot_fpctl (g : Group) (b : Bool) (f : Slot → Slot) : (g.modSlot b f).fpctl = g.fpctl := by cases b <;> rfl
@[simp] theorem modSlot_fpflags (g : Group) (b : Bool) (f : Slot → Slot) : (g.modSlot b f).fpflags = g.fpflags := by cases b <;> rfl
@[simp] theorem modSlot_srstrm (g : Group) (b : Bool) (f : Slot → Slot) : (g.modSlot b f).srstrm = g.srstrm := by cases b <;> rfl
@[simp] theorem modSlot_srctr (g : Group) (b : Bool) (f : Slot → Slot) : (g.modSlot b f).srctr = g.srctr := by cases b <;> rfl
@[simp] theorem modSlot_cdepth (g : Group) (b : Bool) (f : Slot → Slot) : (g.modSlot b f).cdepth = g.cdepth := by cases b <;> rfl
@[simp] theorem modSlot_spawns (g : Group) (b : Bool) (f : Slot → Slot) : (g.modSlot b f).spawns = g.spawns := by cases b <;> rfl
@[simp] theorem modSlot_lpbase (g : Group) (b : Bool) (f : Slot → Slot) : (g.modSlot b f).lpbase = g.lpbase := by cases b <;> rfl
@[simp] theorem modSlot_late (g : Group) (b : Bool) (f : Slot → Slot) : (g.modSlot b f).late = g.late := by cases b <;> rfl
@[simp] theorem modSlot_efa (g : Group) (b : Bool) (f : Slot → Slot) : (g.modSlot b f).efa = g.efa := by cases b <;> rfl
@[simp] theorem modSlot_efh (g : Group) (b : Bool) (f : Slot → Slot) : (g.modSlot b f).efh = g.efh := by cases b <;> rfl
@[simp] theorem modSlot_callhi (g : Group) (b : Bool) (f : Slot → Slot) : (g.modSlot b f).callhi = g.callhi := by cases b <;> rfl
@[simp] theorem modSlot_callh (g : Group) (b : Bool) (f : Slot → Slot) : (g.modSlot b f).callh = g.callh := by cases b <;> rfl
@[simp] theorem modSlot_callg (g : Group) (b : Bool) (f : Slot → Slot) : (g.modSlot b f).callg = g.callg := by cases b <;> rfl
@[simp] theorem modSlot_bank (g : Group) (b : Bool) (f : Slot → Slot) : (g.modSlot b f).bank = g.bank := by cases b <;> rfl
@[simp] theorem modSlot_bankGen (g : Group) (b : Bool) (f : Slot → Slot) : (g.modSlot b f).bankGen = g.bankGen := by cases b <;> rfl
@[simp] theorem modSlot_tsrc (g : Group) (b : Bool) (f : Slot → Slot) : (g.modSlot b f).tsrc = g.tsrc := by cases b <;> rfl
@[simp] theorem modSlot_agkey (g : Group) (b : Bool) (f : Slot → Slot) : (g.modSlot b f).agkey = g.agkey := by cases b <;> rfl
@[simp] theorem modSlot_det (g : Group) (b : Bool) (f : Slot → Slot) : (g.modSlot b f).det = g.det := by cases b <;> rfl
@[simp] theorem modSlot_region (g : Group) (b : Bool) (f : Slot → Slot) : (g.modSlot b f).region = g.region := by cases b <;> rfl
@[simp] theorem modSlot_digest (g : Group) (b : Bool) (f : Slot → Slot) : (g.modSlot b f).digest = g.digest := by cases b <;> rfl
@[simp] theorem modSlot_effects (g : Group) (b : Bool) (f : Slot → Slot) : (g.modSlot b f).effects = g.effects := by cases b <;> rfl
@[simp] theorem modSlot_tasks (g : Group) (b : Bool) (f : Slot → Slot) : (g.modSlot b f).tasks = g.tasks := by cases b <;> rfl
@[simp] theorem modSlot_replayed (g : Group) (b : Bool) (f : Slot → Slot) : (g.modSlot b f).replayed = g.replayed := by cases b <;> rfl
@[simp] theorem modSlot_parkedAll (g : Group) (b : Bool) (f : Slot → Slot) : (g.modSlot b f).parkedAll = g.parkedAll := by cases b <;> rfl
@[simp] theorem modSlot_owed (g : Group) (b : Bool) (f : Slot → Slot) : (g.modSlot b f).owed = g.owed := by cases b <;> rfl
@[simp] theorem modSlot_blockedAt (g : Group) (b : Bool) (f : Slot → Slot) : (g.modSlot b f).blockedAt = g.blockedAt := by cases b <;> rfl
@[simp] theorem setCtr_die (g : Group) (c : BitVec 2) (n : Nat) : (g.setCtr c n).die = g.die := by
  unfold Group.setCtr; split <;> rfl
@[simp] theorem setCtr_core (g : Group) (c : BitVec 2) (n : Nat) : (g.setCtr c n).core = g.core := by
  unfold Group.setCtr; split <;> rfl
@[simp] theorem setCtr_quad (g : Group) (c : BitVec 2) (n : Nat) : (g.setCtr c n).quad = g.quad := by
  unfold Group.setCtr; split <;> rfl
@[simp] theorem setCtr_gslot (g : Group) (c : BitVec 2) (n : Nat) : (g.setCtr c n).gslot = g.gslot := by
  unfold Group.setCtr; split <;> rfl
@[simp] theorem setCtr_tenant (g : Group) (c : BitVec 2) (n : Nat) : (g.setCtr c n).tenant = g.tenant := by
  unfold Group.setCtr; split <;> rfl
@[simp] theorem setCtr_sup (g : Group) (c : BitVec 2) (n : Nat) : (g.setCtr c n).sup = g.sup := by
  unfold Group.setCtr; split <;> rfl
@[simp] theorem setCtr_grid (g : Group) (c : BitVec 2) (n : Nat) : (g.setCtr c n).grid = g.grid := by
  unfold Group.setCtr; split <;> rfl
@[simp] theorem setCtr_team (g : Group) (c : BitVec 2) (n : Nat) : (g.setCtr c n).team = g.team := by
  unfold Group.setCtr; split <;> rfl
@[simp] theorem setCtr_teamNo (g : Group) (c : BitVec 2) (n : Nat) : (g.setCtr c n).teamNo = g.teamNo := by
  unfold Group.setCtr; split <;> rfl
@[simp] theorem setCtr_index (g : Group) (c : BitVec 2) (n : Nat) : (g.setCtr c n).index = g.index := by
  unfold Group.setCtr; split <;> rfl
@[simp] theorem setCtr_role (g : Group) (c : BitVec 2) (n : Nat) : (g.setCtr c n).role = g.role := by
  unfold Group.setCtr; split <;> rfl
@[simp] theorem setCtr_lcore (g : Group) (c : BitVec 2) (n : Nat) : (g.setCtr c n).lcore = g.lcore := by
  unfold Group.setCtr; split <;> rfl
@[simp] theorem setCtr_born (g : Group) (c : BitVec 2) (n : Nat) : (g.setCtr c n).born = g.born := by
  unfold Group.setCtr; split <;> rfl
@[simp] theorem setCtr_prio (g : Group) (c : BitVec 2) (n : Nat) : (g.setCtr c n).prio = g.prio := by
  unfold Group.setCtr; split <;> rfl
@[simp] theorem setCtr_weight (g : Group) (c : BitVec 2) (n : Nat) : (g.setCtr c n).weight = g.weight := by
  unfold Group.setCtr; split <;> rfl
@[simp] theorem setCtr_halted (g : Group) (c : BitVec 2) (n : Nat) : (g.setCtr c n).halted = g.halted := by
  unfold Group.setCtr; split <;> rfl
@[simp] theorem setCtr_saving (g : Group) (c : BitVec 2) (n : Nat) : (g.setCtr c n).saving = g.saving := by
  unfold Group.setCtr; split <;> rfl
@[simp] theorem setCtr_stalled (g : Group) (c : BitVec 2) (n : Nat) : (g.setCtr c n).stalled = g.stalled := by
  unfold Group.setCtr; split <;> rfl
@[simp] theorem setCtr_watch (g : Group) (c : BitVec 2) (n : Nat) : (g.setCtr c n).watch = g.watch := by
  unfold Group.setCtr; split <;> rfl
@[simp] theorem setCtr_bindWait (g : Group) (c : BitVec 2) (n : Nat) : (g.setCtr c n).bindWait = g.bindWait := by
  unfold Group.setCtr; split <;> rfl
@[simp] theorem setCtr_lidx (g : Group) (c : BitVec 2) (n : Nat) : (g.setCtr c n).lidx = g.lidx := by
  unfold Group.setCtr; split <;> rfl
@[simp] theorem setCtr_retiredIdx (g : Group) (c : BitVec 2) (n : Nat) : (g.setCtr c n).retiredIdx = g.retiredIdx := by
  unfold Group.setCtr; split <;> rfl
@[simp] theorem setCtr_h (g : Group) (c : BitVec 2) (n : Nat) : (g.setCtr c n).h = g.h := by
  unfold Group.setCtr; split <;> rfl
@[simp] theorem setCtr_evicted (g : Group) (c : BitVec 2) (n : Nat) : (g.setCtr c n).evicted = g.evicted := by
  unfold Group.setCtr; split <;> rfl
@[simp] theorem setCtr_slices (g : Group) (c : BitVec 2) (n : Nat) : (g.setCtr c n).slices = g.slices := by
  unfold Group.setCtr; split <;> rfl
@[simp] theorem setCtr_k (g : Group) (c : BitVec 2) (n : Nat) : (g.setCtr c n).k = g.k := by
  unfold Group.setCtr; split <;> rfl
@[simp] theorem setCtr_preds (g : Group) (c : BitVec 2) (n : Nat) : (g.setCtr c n).preds = g.preds := by
  unfold Group.setCtr; split <;> rfl
@[simp] theorem setCtr_g (g : Group) (c : BitVec 2) (n : Nat) : (g.setCtr c n).g = g.g := by
  unfold Group.setCtr; split <;> rfl
@[simp] theorem setCtr_latches (g : Group) (c : BitVec 2) (n : Nat) : (g.setCtr c n).latches = g.latches := by
  unfold Group.setCtr; split <;> rfl
@[simp] theorem setCtr_latchW (g : Group) (c : BitVec 2) (n : Nat) : (g.setCtr c n).latchW = g.latchW := by
  unfold Group.setCtr; split <;> rfl
@[simp] theorem setCtr_shadowSl (g : Group) (c : BitVec 2) (n : Nat) : (g.setCtr c n).shadowSl = g.shadowSl := by
  unfold Group.setCtr; split <;> rfl
@[simp] theorem setCtr_shadowK (g : Group) (c : BitVec 2) (n : Nat) : (g.setCtr c n).shadowK = g.shadowK := by
  unfold Group.setCtr; split <;> rfl
@[simp] theorem setCtr_trapMode (g : Group) (c : BitVec 2) (n : Nat) : (g.setCtr c n).trapMode = g.trapMode := by
  unfold Group.setCtr; split <;> rfl
@[simp] theorem setCtr_frame (g : Group) (c : BitVec 2) (n : Nat) : (g.setCtr c n).frame = g.frame := by
  unfold Group.setCtr; split <;> rfl
@[simp] theorem setCtr_treg (g : Group) (c : BitVec 2) (n : Nat) : (g.setCtr c n).treg = g.treg := by
  unfold Group.setCtr; split <;> rfl
@[simp] theorem setCtr_utrap (g : Group) (c : BitVec 2) (n : Nat) : (g.setCtr c n).utrap = g.utrap := by
  unfold Group.setCtr; split <;> rfl
@[simp] theorem setCtr_lastS0 (g : Group) (c : BitVec 2) (n : Nat) : (g.setCtr c n).lastS0 = g.lastS0 := by
  unfold Group.setCtr; split <;> rfl
@[simp] theorem setCtr_rotCount (g : Group) (c : BitVec 2) (n : Nat) : (g.setCtr c n).rotCount = g.rotCount := by
  unfold Group.setCtr; split <;> rfl
@[simp] theorem setCtr_rotTurn (g : Group) (c : BitVec 2) (n : Nat) : (g.setCtr c n).rotTurn = g.rotTurn := by
  unfold Group.setCtr; split <;> rfl
@[simp] theorem setCtr_stack (g : Group) (c : BitVec 2) (n : Nat) : (g.setCtr c n).stack = g.stack := by
  unfold Group.setCtr; split <;> rfl

@[simp] theorem setCtr_fpctl (g : Group) (c : BitVec 2) (n : Nat) : (g.setCtr c n).fpctl = g.fpctl := by
  unfold Group.setCtr; split <;> rfl
@[simp] theorem setCtr_fpflags (g : Group) (c : BitVec 2) (n : Nat) : (g.setCtr c n).fpflags = g.fpflags := by
  unfold Group.setCtr; split <;> rfl
@[simp] theorem setCtr_srstrm (g : Group) (c : BitVec 2) (n : Nat) : (g.setCtr c n).srstrm = g.srstrm := by
  unfold Group.setCtr; split <;> rfl
@[simp] theorem setCtr_srctr (g : Group) (c : BitVec 2) (n : Nat) : (g.setCtr c n).srctr = g.srctr := by
  unfold Group.setCtr; split <;> rfl
@[simp] theorem setCtr_cdepth (g : Group) (c : BitVec 2) (n : Nat) : (g.setCtr c n).cdepth = g.cdepth := by
  unfold Group.setCtr; split <;> rfl
@[simp] theorem setCtr_spawns (g : Group) (c : BitVec 2) (n : Nat) : (g.setCtr c n).spawns = g.spawns := by
  unfold Group.setCtr; split <;> rfl
@[simp] theorem setCtr_lpbase (g : Group) (c : BitVec 2) (n : Nat) : (g.setCtr c n).lpbase = g.lpbase := by
  unfold Group.setCtr; split <;> rfl
@[simp] theorem setCtr_late (g : Group) (c : BitVec 2) (n : Nat) : (g.setCtr c n).late = g.late := by
  unfold Group.setCtr; split <;> rfl
@[simp] theorem setCtr_efa (g : Group) (c : BitVec 2) (n : Nat) : (g.setCtr c n).efa = g.efa := by
  unfold Group.setCtr; split <;> rfl
@[simp] theorem setCtr_efh (g : Group) (c : BitVec 2) (n : Nat) : (g.setCtr c n).efh = g.efh := by
  unfold Group.setCtr; split <;> rfl
@[simp] theorem setCtr_callhi (g : Group) (c : BitVec 2) (n : Nat) : (g.setCtr c n).callhi = g.callhi := by
  unfold Group.setCtr; split <;> rfl
@[simp] theorem setCtr_callh (g : Group) (c : BitVec 2) (n : Nat) : (g.setCtr c n).callh = g.callh := by
  unfold Group.setCtr; split <;> rfl
@[simp] theorem setCtr_callg (g : Group) (c : BitVec 2) (n : Nat) : (g.setCtr c n).callg = g.callg := by
  unfold Group.setCtr; split <;> rfl
@[simp] theorem setCtr_bank (g : Group) (c : BitVec 2) (n : Nat) : (g.setCtr c n).bank = g.bank := by
  unfold Group.setCtr; split <;> rfl
@[simp] theorem setCtr_bankGen (g : Group) (c : BitVec 2) (n : Nat) : (g.setCtr c n).bankGen = g.bankGen := by
  unfold Group.setCtr; split <;> rfl
@[simp] theorem setCtr_tsrc (g : Group) (c : BitVec 2) (n : Nat) : (g.setCtr c n).tsrc = g.tsrc := by
  unfold Group.setCtr; split <;> rfl
@[simp] theorem setCtr_agkey (g : Group) (c : BitVec 2) (n : Nat) : (g.setCtr c n).agkey = g.agkey := by
  unfold Group.setCtr; split <;> rfl
@[simp] theorem setCtr_det (g : Group) (c : BitVec 2) (n : Nat) : (g.setCtr c n).det = g.det := by
  unfold Group.setCtr; split <;> rfl
@[simp] theorem setCtr_region (g : Group) (c : BitVec 2) (n : Nat) : (g.setCtr c n).region = g.region := by
  unfold Group.setCtr; split <;> rfl
@[simp] theorem setCtr_digest (g : Group) (c : BitVec 2) (n : Nat) : (g.setCtr c n).digest = g.digest := by
  unfold Group.setCtr; split <;> rfl
@[simp] theorem setCtr_effects (g : Group) (c : BitVec 2) (n : Nat) : (g.setCtr c n).effects = g.effects := by
  unfold Group.setCtr; split <;> rfl
@[simp] theorem setCtr_tasks (g : Group) (c : BitVec 2) (n : Nat) : (g.setCtr c n).tasks = g.tasks := by
  unfold Group.setCtr; split <;> rfl
@[simp] theorem setCtr_replayed (g : Group) (c : BitVec 2) (n : Nat) : (g.setCtr c n).replayed = g.replayed := by
  unfold Group.setCtr; split <;> rfl
@[simp] theorem setCtr_parkedAll (g : Group) (c : BitVec 2) (n : Nat) : (g.setCtr c n).parkedAll = g.parkedAll := by
  unfold Group.setCtr; split <;> rfl
@[simp] theorem setCtr_owed (g : Group) (c : BitVec 2) (n : Nat) : (g.setCtr c n).owed = g.owed := by
  unfold Group.setCtr; split <;> rfl
@[simp] theorem setCtr_blockedAt (g : Group) (c : BitVec 2) (n : Nat) : (g.setCtr c n).blockedAt = g.blockedAt := by
  unfold Group.setCtr; split <;> rfl

/-! ### Slots -/

@[simp] theorem advance_pc (x : Slot) (r : Bool) : (x.advance r).pc = x.pc + 8#80 := rfl
@[simp] theorem advance_header (x : Slot) (r : Bool) : (x.advance r).header = x.header := rfl
@[simp] theorem advance_cls (x : Slot) (r : Bool) : (x.advance r).cls = x.cls := rfl
@[simp] theorem advance_left (x : Slot) (r : Bool) : (x.advance r).left = x.left - 1 := rfl
@[simp] theorem advance_pos (x : Slot) (r : Bool) : (x.advance r).pos = x.pos + 1 := rfl
@[simp] theorem advance_yld (x : Slot) (r : Bool) : (x.advance r).yld = x.yld := rfl
@[simp] theorem advance_back (x : Slot) (r : Bool) : (x.advance r).back = x.back := rfl
@[simp] theorem advance_owned (x : Slot) (r : Bool) : (x.advance r).owned = x.owned := rfl
@[simp] theorem advance_mask (x : Slot) (r : Bool) : (x.advance r).mask = x.mask := rfl
@[simp] theorem advance_unfinished (x : Slot) (r : Bool) : (x.advance r).unfinished = 0#96 := rfl
@[simp] theorem advance_redo (x : Slot) (r : Bool) : (x.advance r).redo = none := rfl
@[simp] theorem advance_wait (x : Slot) (r : Bool) : (x.advance r).wait = .ready := rfl
@[simp] theorem advance_age (x : Slot) (r : Bool) : (x.advance r).age = 0 := rfl
@[simp] theorem advance_req (x : Slot) (r : Bool) : (x.advance r).req = none := rfl
@[simp] theorem advance_wctr (x : Slot) (r : Bool) : (x.advance r).wctr = 0#2 := rfl
@[simp] theorem advance_capt (x : Slot) (r : Bool) : (x.advance r).capt = none := rfl
@[simp] theorem advance_frames (x : Slot) (r : Bool) : (x.advance r).frames = [] := rfl
@[simp] theorem advance_feed (x : Slot) (r : Bool) : (x.advance r).feed = none := rfl
@[simp] theorem advance_sleep (x : Slot) (r : Bool) : (x.advance r).sleep = x.sleep := rfl
@[simp] theorem advance_readyAt (x : Slot) (r : Bool) : (x.advance r).readyAt = x.readyAt := rfl
@[simp] theorem advance_arrived (x : Slot) (r : Bool) : (x.advance r).arrived = x.arrived := rfl
@[simp] theorem advance_clock (x : Slot) (r : Bool) : (x.advance r).clock = x.clock := rfl
@[simp] theorem advance_rotated (x : Slot) (r : Bool) : (x.advance r).rotated = x.rotated := rfl
@[simp] theorem advance_afterJoin (x : Slot) (r : Bool) : (x.advance r).afterJoin = x.afterJoin := rfl
@[simp] theorem jump_pc (x : Slot) (d : Addr) : (x.jump d).pc = d := rfl
@[simp] theorem jump_header (x : Slot) (d : Addr) : (x.jump d).header = x.header := rfl
@[simp] theorem jump_cls (x : Slot) (d : Addr) : (x.jump d).cls = x.cls := rfl
@[simp] theorem jump_left (x : Slot) (d : Addr) : (x.jump d).left = 0 := rfl
@[simp] theorem jump_pos (x : Slot) (d : Addr) : (x.jump d).pos = 0 := rfl
@[simp] theorem jump_fresh (x : Slot) (d : Addr) : (x.jump d).fresh = x.fresh := rfl
@[simp] theorem jump_yld (x : Slot) (d : Addr) : (x.jump d).yld = x.yld := rfl
@[simp] theorem jump_back (x : Slot) (d : Addr) : (x.jump d).back = x.back := rfl
@[simp] theorem jump_owned (x : Slot) (d : Addr) : (x.jump d).owned = x.owned := rfl
@[simp] theorem jump_mask (x : Slot) (d : Addr) : (x.jump d).mask = x.mask := rfl
@[simp] theorem jump_unfinished (x : Slot) (d : Addr) : (x.jump d).unfinished = 0#96 := rfl
@[simp] theorem jump_redo (x : Slot) (d : Addr) : (x.jump d).redo = none := rfl
@[simp] theorem jump_wait (x : Slot) (d : Addr) : (x.jump d).wait = .ready := rfl
@[simp] theorem jump_age (x : Slot) (d : Addr) : (x.jump d).age = 0 := rfl
@[simp] theorem jump_req (x : Slot) (d : Addr) : (x.jump d).req = none := rfl
@[simp] theorem jump_wctr (x : Slot) (d : Addr) : (x.jump d).wctr = 0#2 := rfl
@[simp] theorem jump_capt (x : Slot) (d : Addr) : (x.jump d).capt = none := rfl
@[simp] theorem jump_frames (x : Slot) (d : Addr) : (x.jump d).frames = [] := rfl
@[simp] theorem jump_feed (x : Slot) (d : Addr) : (x.jump d).feed = none := rfl
@[simp] theorem jump_sleep (x : Slot) (d : Addr) : (x.jump d).sleep = x.sleep := rfl
@[simp] theorem jump_readyAt (x : Slot) (d : Addr) : (x.jump d).readyAt = x.readyAt := rfl
@[simp] theorem jump_arrived (x : Slot) (d : Addr) : (x.jump d).arrived = x.arrived := rfl
@[simp] theorem jump_clock (x : Slot) (d : Addr) : (x.jump d).clock = x.clock := rfl
@[simp] theorem jump_rotated (x : Slot) (d : Addr) : (x.jump d).rotated = x.rotated := rfl
@[simp] theorem jump_afterJoin (x : Slot) (d : Addr) : (x.jump d).afterJoin = x.afterJoin := rfl

end Sys2Proof.Machine
end

