-- ==== Sys2Proof/Laws/Groups.lean ====
section
/-! SUPPORT. Writing a group twice, and the words that complete in a state that a statement writes out. -/

namespace Sys2Proof.Machine
theorem tset_tset {α : Type} (t : Tab α) (k : Nat) (a b : α) : tset (tset t k a) k b = tset t k b := by
  induction t with
  | nil => simp [tset]
  | cons p r ih =>
    obtain ⟨k', v⟩ := p
    simp only [tset]
    by_cases h1 : k < k'
    · simp [h1, tset]
    · by_cases h2 : k = k'
      · simp [h2, tset]
      · simp [h1, h2, tset, ih]

theorem setGroup_setGroup (s : State) (n : Nat) (a b : Group) : (s.setGroup n a).setGroup n b = s.setGroup n b := by
  simp [State.setGroup, tset_tset]

theorem group_setGroup (s : State) (n : Nat) (a : Group) : (s.setGroup n a).group? n = some a := by
  simp [State.group?, State.setGroup, tget_tset_self]

theorem modGroup_setGroup (s : State) (n : Nat) (a : Group) (f : Group → Group) : (s.setGroup n a).modGroup n f = s.setGroup n (f a) := by
  simp [State.modGroup, group_setGroup, setGroup_setGroup]

/-- The matrix unit's hold changes no group. -/
theorem takeMatrix_group {s s' : State} {g : Group} (h : takeMatrix s g = .ok s') (n : Nat) : s'.group? n = s.group? n := by
  unfold takeMatrix at h
  split at h
  · cases h
  · simp only at h
    split at h
    · split at h
      · cases h; rfl
      · cases h
    · cases h; rfl

theorem passes_groups {i : Instr} {s s' : State} {gid : Nat} {s1 : Bool} {g : Group} {sh : Shape}
    (hp : Passes i s gid s1 g sh s') (n : Nat) : s'.group? n = s.group? n := by
  obtain ⟨_, _, _, hm⟩ := hp
  split at hm
  · exact takeMatrix_group hm.1 n
  · rw [hm]

theorem passes_group {i : Instr} {s s' : State} {gid : Nat} {s1 : Bool} {g : Group} {sh : Shape}
    (hp : Passes i s gid s1 g sh s') : s'.group? gid = some g := by
  rw [passes_groups hp]; exact hp.1.2

/-- A word that uses no accumulator and no matrix unit acts in the state as it is. -/
theorem passes_same {i : Instr} {s s' : State} {gid : Nat} {s1 : Bool} {g : Group} {sh : Shape}
    (hp : Passes i s gid s1 g sh s') (hu : usesMatrix i sh = false) : s' = s := by
  obtain ⟨_, _, _, hm⟩ := hp
  simpa [hu] using hm

theorem completes_of_gate {i : Instr} {ok : Cond} {f : After} {k : State → State → Nat → Bool → Group → Slot → Shape → Out}
    (e : ∀ s, exec i s = gate i s (k s))
    (h : ∀ s s' gid s1 g sh, wordShape i = some sh → s'.group? gid = some g → ok s' gid s1 g sh (g.lanesAt s1 sh) →
      k s s' gid s1 g (g.slot s1) sh = .next (f s' gid s1 g sh (g.lanesAt s1 sh))) : Completes i ok f := by
  intro s gid s1 g sh s' hp ho
  rw [e s, gate_of_passes _ hp]
  exact h _ _ _ _ _ _ hp.2.1 (passes_group hp) ho

end Sys2Proof.Machine
end

