-- ==== Sys2Proof/Laws/Memory.lean ====
section
/-! SUPPORT. Memory keeps its canonical form, a byte reads as it was written, equal memories are equal data; and what a memory
word's meaning can do. -/

namespace Sys2Proof.Machine

/-! ### The list of bytes -/

theorem memWfFrom_cons {lo k : Nat} {v : Byte} {r : Memory} :
    memWfFrom lo ((k, v) :: r) = true ↔ lo ≤ k ∧ v ≠ unlisted ∧ memWfFrom (k + 1) r = true := by
  simp [memWfFrom, and_assoc]

theorem memWfFrom_le {lo lo' : Nat} {m : Memory} (h : memWfFrom lo m = true) (hl : lo' ≤ lo) : memWfFrom lo' m = true := by
  cases m with
  | nil => rfl
  | cons p r => obtain ⟨k, v⟩ := p; rw [memWfFrom_cons] at h ⊢; exact ⟨by omega, h.2⟩

theorem memGet_below {lo a : Nat} {m : Memory} (h : memWfFrom lo m = true) (ha : a < lo) : memGet m a = unlisted := by
  induction m generalizing lo with
  | nil => rfl
  | cons p r ih =>
    obtain ⟨k, v⟩ := p
    rw [memWfFrom_cons] at h
    simp only [memGet, if_neg (show ¬ k = a by omega)]
    exact ih h.2.2 (by omega)

theorem memGet_memPut_ne (m : Memory) {a b : Nat} (v : Byte) (h : b ≠ a) : memGet (memPut m a v) b = memGet m b := by
  induction m with
  | nil => unfold memPut; split <;> simp [memGet, Ne.symm h]
  | cons p r ih =>
    obtain ⟨k, x⟩ := p
    unfold memPut
    split_ifs with h1 h2 h3 h4
    · rfl
    · simp [memGet, Ne.symm h]
    · subst h3; simp [memGet, Ne.symm h]
    · subst h3; simp [memGet, Ne.symm h]
    · simp [memGet, ih]

theorem memGet_memPut_self {lo : Nat} {m : Memory} (a : Nat) (v : Byte) (h : memWfFrom lo m = true) : memGet (memPut m a v) a = v := by
  induction m generalizing lo with
  | nil => unfold memPut; split_ifs with h1 <;> simp [memGet, h1]
  | cons p r ih =>
    obtain ⟨k, x⟩ := p
    rw [memWfFrom_cons] at h
    unfold memPut
    split_ifs with h1 h2 h3 h4
    · rw [memGet_below (lo := k) (memWfFrom_cons.2 ⟨Nat.le_refl k, h.2⟩) h1, h2]
    · simp [memGet]
    · rw [memGet_below h.2.2 (by omega), h4]
    · simp [memGet]
    · simp only [memGet, if_neg (Ne.symm h3)]; exact ih h.2.2

theorem memPut_wfFrom {lo : Nat} {m : Memory} {a : Nat} {v : Byte} (h : memWfFrom lo m = true) (ha : lo ≤ a) :
    memWfFrom lo (memPut m a v) = true := by
  induction m generalizing lo with
  | nil => unfold memPut; split_ifs with h1; · rfl
           exact memWfFrom_cons.2 ⟨ha, h1, rfl⟩
  | cons p r ih =>
    obtain ⟨k, x⟩ := p
    have hc := memWfFrom_cons.1 h
    unfold memPut
    split_ifs with h1 h2 h3 h4
    · exact h
    · exact memWfFrom_cons.2 ⟨ha, h2, memWfFrom_cons.2 ⟨h1, hc.2⟩⟩
    · exact memWfFrom_le hc.2.2 (by omega)
    · exact memWfFrom_cons.2 ⟨ha, h4, by subst h3; exact hc.2.2⟩
    · exact memWfFrom_cons.2 ⟨hc.1, hc.2.1, ih hc.2.2 (by omega)⟩

theorem memPut_wf {m : Memory} (a : Nat) (v : Byte) (h : Memory.wf m = true) : Memory.wf (memPut m a v) = true :=
  memPut_wfFrom h (Nat.zero_le a)

theorem memPuts_wf {m : Memory} (ks : List Nat) (vs : List Byte) (h : Memory.wf m = true) : Memory.wf (memPuts m ks vs) = true := by
  unfold memPuts
  generalize ks.zip vs = l
  induction l generalizing m with
  | nil => exact h
  | cons p r ih => exact ih (memPut_wf _ _ h)

theorem memGet_memPuts_ne (m : Memory) (ks : List Nat) (vs : List Byte) {b : Nat} (h : b ∉ ks) : memGet (memPuts m ks vs) b = memGet m b := by
  unfold memPuts
  induction ks generalizing m vs with
  | nil => simp
  | cons k ks ih =>
    cases vs with
    | nil => simp
    | cons v vs =>
      simp only [List.zip_cons_cons, List.foldl_cons]
      rw [ih _ _ (fun hc => h (List.mem_cons_of_mem _ hc)), memGet_memPut_ne _ _ (fun hc => h (by rw [hc]; exact List.mem_cons_self))]

theorem filter_wfFrom {lo : Nat} {m : Memory} (p : Nat × Byte → Bool) (h : memWfFrom lo m = true) : memWfFrom lo (m.filter p) = true := by
  induction m generalizing lo with
  | nil => exact h
  | cons c r ih =>
    obtain ⟨k, v⟩ := c
    have hc := memWfFrom_cons.1 h
    rw [List.filter_cons]
    split_ifs
    · exact memWfFrom_cons.2 ⟨hc.1, hc.2.1, ih hc.2.2⟩
    · exact memWfFrom_le (ih hc.2.2) (by omega)

theorem filter_wf {m : Memory} (p : Nat × Byte → Bool) (h : Memory.wf m = true) : Memory.wf (m.filter p) = true := filter_wfFrom p h

/-- Memories in the canonical form that give the same byte at every key are the same list. -/
theorem mem_ext {lo lo' : Nat} {m n : Memory} (hm : memWfFrom lo m = true) (hn : memWfFrom lo' n = true) (h : ∀ a, memGet m a = memGet n a) : m = n := by
  induction m generalizing lo lo' n with
  | nil =>
    cases n with
    | nil => rfl
    | cons p r =>
      obtain ⟨k, v⟩ := p
      have := h k
      simp only [memGet, if_true] at this
      exact absurd this.symm (memWfFrom_cons.1 hn).2.1
  | cons p r ih =>
    obtain ⟨k, v⟩ := p
    have hp := memWfFrom_cons.1 hm
    cases n with
    | nil =>
      have := h k
      simp only [memGet, if_true] at this
      exact absurd this hp.2.1
    | cons q t =>
      obtain ⟨k', v'⟩ := q
      have hq := memWfFrom_cons.1 hn
      have hk : k = k' := by
        rcases Nat.lt_trichotomy k k' with hlt | he | hlt
        · have := h k
          simp only [memGet, if_true, if_neg (show ¬ k' = k by omega)] at this
          rw [memGet_below hq.2.2 (by omega)] at this
          exact absurd this hp.2.1
        · exact he
        · have := h k'
          simp only [memGet, if_true, if_neg (show ¬ k = k' by omega)] at this
          rw [memGet_below hp.2.2 (by omega)] at this
          exact absurd this.symm hq.2.1
      subst hk
      have hv : v = v' := by have := h k; simpa [memGet] using this
      subst hv
      congr 1
      refine ih hp.2.2 hq.2.2 fun a => ?_
      by_cases ha : k = a
      · subst ha; rw [memGet_below hp.2.2 (by omega), memGet_below hq.2.2 (by omega)]
      · have := h a; simpa [memGet, ha] using this

/-! ### The home -/

/-- What the invariant speaks of is memory and the L2's list of lines alone. -/
theorem inv_of_eq {s t : State} (h : s.Inv) (hm : t.mem = s.mem) (hl : t.l2 = s.l2) : t.Inv := by
  unfold State.Inv at *; rw [hm, hl]; exact h

theorem window_zero {k : Nat} (h : window k = 0) : lineOf k < 2 ^ 45 := by
  unfold window at h; unfold lineOf; omega

/-- Changing lines of the L2 in place keeps the invariant where their numbers stay. -/
theorem inv_map_l2 {s : State} (f : L2Line → L2Line) (hf : ∀ e, (f e).line = e.line) (h : s.Inv) : ({ s with l2 := s.l2.map f } : State).Inv := by
  refine ⟨h.1, fun e he => ?_, ?_⟩
  · obtain ⟨x, hx, rfl⟩ := List.mem_map.1 he
    rw [hf]; exact h.2.1 x hx
  · have : (s.l2.map f).map L2Line.line = s.l2.map L2Line.line := by
      rw [List.map_map]; exact List.map_congr_left fun e _ => hf e
    simp only []; rw [this]; exact h.2.2

/-- Lines that leave the L2 keep it. -/
theorem inv_filter_l2 {s : State} (p : L2Line → Bool) (h : s.Inv) : ({ s with l2 := s.l2.filter p } : State).Inv :=
  ⟨h.1, fun e he => h.2.1 e (List.mem_of_mem_filter he), h.2.2.sublist (List.filter_sublist.map _)⟩

/-- A line that leaves the L2, or one evicted, adds none. -/
theorem l2Line?_none {s : State} {line : Nat} (h : s.l2Line? line = none) : ∀ e ∈ s.l2, e.line ≠ line := by
  intro e he
  have := List.find?_eq_none.1 h e he
  simpa using this

/-- Transfers between a line's memory and its L2 spend tokens, and nothing else (R322). -/
theorem transfer_eq (s : State) (tenant line : Nat) (sectors : BitVec 4) : ∃ ds, transfer s tenant line sectors = { s with dies := ds } := by
  unfold transfer
  simp only []
  split_ifs
  · exact ⟨s.dies, rfl⟩
  · exact ⟨_, rfl⟩

theorem l2WriteBack_inv {s : State} (line : Nat) (h : s.Inv) : (l2WriteBack s line).Inv := by
  unfold l2WriteBack
  split
  · exact h
  · rename_i e _
    obtain ⟨ds, hd⟩ := transfer_eq s e.tenant line e.dirty
    simp only [hd]
    exact inv_map_l2 (s := { s with dies := ds, mem := _ }) (fun x : L2Line => if x.line = line then
      { x with valid := x.valid ||| wholeSectors x.mask, dirty := 0#4, mask := 0#128 } else x)
      (fun e => by split_ifs <;> rfl) ⟨memPuts_wf _ _ h.1, h.2⟩

theorem l2Drop_inv {s : State} (line : Nat) (h : s.Inv) : (l2Drop s line).Inv := inv_filter_l2 _ h

/-- The lines of the L2 after an eviction were there before. -/
theorem l2Evict_lines {s : State} (d : Nat) (r : Option Resident) : ∀ n ∈ (l2Evict s d r).l2.map L2Line.line, n ∈ s.l2.map L2Line.line := by
  intro n hn
  unfold l2Evict at hn
  split at hn
  · exact hn
  · split_ifs at hn
    · exact hn
    · have h2 : ∀ n ∈ (l2WriteBack s ‹Resident›.line).l2.map L2Line.line, n ∈ s.l2.map L2Line.line := by
        intro n hn
        unfold l2WriteBack at hn
        split at hn
        · exact hn
        · rename_i e _
          obtain ⟨ds, hd⟩ := transfer_eq s e.tenant ‹Resident›.line e.dirty
          simp only [hd, List.mem_map] at hn ⊢
          obtain ⟨x, ⟨y, hy, rfl⟩, rfl⟩ := hn
          refine ⟨y, hy, ?_⟩
          split_ifs <;> rfl
      exact h2 n (((List.filter_sublist (p := fun x : L2Line => decide (x.line ≠ _))).map L2Line.line).subset hn)

theorem l2Evict_inv {s : State} (d : Nat) (r : Option Resident) (h : s.Inv) : (l2Evict s d r).Inv := by
  unfold l2Evict
  split
  · exact h
  · split_ifs
    · exact inv_of_eq h rfl rfl
    · exact l2Drop_inv _ (l2WriteBack_inv _ h)

theorem l2Place_inv {s : State} (tenant : Nat) (pol : BitVec 2) (line : Nat) (hl : line < 2 ^ 45) (h : s.Inv) : (l2Place s tenant pol line).Inv := by
  unfold l2Place
  split_ifs
  · exact h
  · simp only []
    split
    · exact h
    · rename_i w out _
      have h' := l2Evict_inv ((homeDie (line * 128)).getD 0) out h
      refine ⟨h'.1, fun e he => ?_, ?_⟩
      · simp only [List.mem_append, List.mem_singleton] at he
        rcases he with he | rfl
        · exact h'.2.1 e he
        · exact hl
      · simp only [List.map_append, List.map_cons, List.map_nil]
        refine List.nodup_append.2 ⟨h'.2.2, by simp, ?_⟩
        intro n hn m hm he
        subst he
        have hn' := l2Evict_lines _ _ n hn
        simp only [List.mem_singleton] at hm
        subst hm
        obtain ⟨e, he, hle⟩ := List.mem_map.1 hn'
        exact l2Line?_none (by rename_i hno _; simpa using hno) e he hle

theorem l2Move_inv {s : State} (tenant : Nat) (e : L2Line) (h : s.Inv) : (l2Move s tenant e).1.Inv := by
  unfold l2Move
  simp only []
  split
  · split
    · exact l2Evict_inv _ _ h
    · exact l2Drop_inv _ (l2WriteBack_inv _ h)
  · exact h

theorem l2Line?_line {s : State} {line : Nat} {e : L2Line} (h : s.l2Line? line = some e) : e.line = line := by
  have := List.find?_some h; simpa using this

theorem replaced_line {e y : L2Line} {line : Nat} (h : y.line = line) (x : L2Line) (he : e.line = y.line := by rfl) :
    (if x.line = line then e else x).line = x.line := by
  split
  · rename_i hx; rw [he, h, hx]
  · rfl

theorem homePut_inv {s : State} (tenant : Nat) (pol : BitVec 2) (k : Nat) (v : Byte) (h : s.Inv) : (homePut s tenant pol k v).Inv := by
  unfold homePut
  split
  · rename_i hg
    have hw : lineOf k < 2 ^ 45 := window_zero (by simpa using (Bool.and_eq_true_iff.1 hg).2)
    have h1 := l2Place_inv tenant pol (lineOf k) hw h
    simp only []
    split
    · rename_i e he
      have h2 := l2Move_inv tenant e h1
      split
      · rename_i hm; rw [hm] at h2; exact ⟨memPut_wf _ _ h2.1, h2.2⟩
      · rename_i hm; rw [hm] at h2
        refine inv_map_l2 _ (fun x => ?_) h2
        exact replaced_line (l2Line?_line he) x
    · exact ⟨memPut_wf _ _ h1.1, h1.2⟩
  · exact ⟨memPut_wf _ _ h.1, h.2⟩

theorem homePuts_inv {s : State} (tenant : Nat) (pol : BitVec 2) (ks : List Nat) (vs : List Byte) (h : s.Inv) : (homePuts s tenant pol ks vs).Inv := by
  unfold homePuts
  generalize ks.zip vs = l
  induction l generalizing s with
  | nil => exact h
  | cons p r ih => exact ih (homePut_inv _ _ _ _ h)

theorem l2Fill_inv {s : State} (tenant : Nat) (pol : BitVec 2) (line : Nat) (h : s.Inv) : (l2Fill s tenant pol line).Inv := by
  unfold l2Fill
  split_ifs with hg
  · have hl : line < 2 ^ 45 := by
      have := window_zero (k := line * 128) (by simpa using (Bool.and_eq_true_iff.1 hg).2)
      unfold lineOf at this; omega
    have h1 : (transfer (l2Place s tenant pol line) tenant line (missing s line)).Inv := by
      obtain ⟨ds, hd⟩ := transfer_eq (l2Place s tenant pol line) tenant line (missing s line)
      rw [hd]; exact inv_of_eq (l2Place_inv tenant pol line hl h) rfl rfl
    simp only []
    split
    · exact h1
    · rename_i e he
      refine inv_map_l2 _ (fun x => ?_) h1
      exact replaced_line (l2Line?_line he) x
  · exact h

theorem storeBy_inv {s : State} (w : Writer) (ks : List Nat) (vs : List Byte) (h : s.Inv) : (storeBy s w ks vs).Inv := by
  unfold storeBy; exact homePuts_inv _ _ _ _ (inv_of_eq h rfl rfl)

theorem reset_inv : State.reset.Inv := ⟨rfl, fun _ he => (by cases he), List.nodup_nil⟩

/-! ### Memory words -/

theorem lowest_some {m : Mask} (h : m ≠ 0#96) : ∃ l, lowest? m = some l := by
  rcases hx : lowest? m with _ | l
  · exfalso; apply h
    unfold lowest? at hx
    rw [List.find?_eq_none] at hx
    apply BitVec.eq_of_getLsbD_eq
    intro i hi
    have := hx ⟨i, hi⟩ (by simp [allLanes])
    simpa using this
  · exact ⟨l, rfl⟩

/-- No lane's access folds nothing. -/
theorem noteAccess_none (g : Group) (r : MemReq) : g.noteAccess r 0#96 = g := by
  unfold Group.noteAccess
  split
  · have : ∀ f : Lane → BitVec 128, setLanes g.digest 0#96 f = g.digest := fun f => by
      ext i hi; simp [setLanes]
    simp [this]
  · rfl

/-- Outside a region, a word whose effects could go to a log performs in all its lanes. -/
theorem withRegion_free {s : State} {gid : Nat} {s1 : Bool} {g : Group} {sh : Shape} {r : MemReq} {e : Lane → Effect} {m : Mask}
    {perform : State → MemReq → State} (hg : g.region = none) (h0 : m ≠ 0#96) (hm : r.issued = m) (ha : r.once = none → r.agents = m) :
    withRegion s gid s1 g sh r e perform = .next (perform (startReq (s.setGroup gid g) gid r) r) := by
  subst hm
  unfold withRegion regionEffect
  simp only [loggedLanes, hg, Option.isSome_none, Bool.false_and, Bool.false_eq_true, if_false, if_true, BitVec.not_zero,
    BitVec.and_allOnes, ite_self, h0, noteAccess_none]
  have hr : { r with issued := r.issued, agents := if r.once.isSome = true then r.agents else r.agents &&& r.issued } = r := by
    cases r with
    | mk => simp only [] at ha ⊢; split <;> simp_all
  rw [hr]

/-- Every word over memWord is one of Accesses: it skips, traps before any access, or issues its request. -/
theorem memWord_accesses {i : Instr} {op sp pol once align lock ea data data2} {extra : Group → Mask → Option (BitVec 8 × Mask)} {log late free}
    (hx : ∀ s, exec i s = memWord i s op sp pol once align lock ea data data2 extra log)
    (hl : ∀ g m, extra g m = if late g m = 0#96 then none else some (0x0E#8, late g m))
    (hf : ∀ g, free g → log.isSome = true → g.region = none) :
    Accesses i op sp pol once align lock late free ea data data2 := by
  intro s gid s1 g sh s' hp sl m
  have hu : ∀ sl : Slot, sl.uniMask ≠ 0#96 := by
    intro sl; unfold Slot.uniMask; split
    · decide
    · assumption
  have hm : memLanes sl sh.head (execLanes g sl sh.head) = m := by
    show memLanes sl sh.head (execLanes g sl sh.head) = if sh.head.uni = true ∧ execLanes g sl sh.head ≠ 0#96 then sl.uniMask else execLanes g sl sh.head
    unfold memLanes
    by_cases h1 : sh.head.uni = true <;> by_cases h2 : execLanes g sl sh.head = 0#96 <;> simp [h1, h2]
  rw [hx]; unfold memWord; rw [gate_of_passes _ hp]
  simp only []
  rw [show g.slot s1 = sl from rfl, hm]
  constructor
  · intro h0; rw [if_pos h0]; rfl
  · intro h0
    refine ⟨mkReq i s' g sl sh op sp pol once m (ea s' g sl m) (data s' g sl) (data2 s' g sl) (spillData g op), rfl, rfl, rfl, rfl, rfl, rfl, rfl, rfl, rfl, rfl,
      rfl, rfl, ?_, ?_, ?_, rfl, ?_, ?_, ?_, ?_⟩
    · simp [mkReq]
    · obtain ⟨l, hl⟩ := lowest_some h0
      by_cases h1 : sh.head.uni = true <;> by_cases h2 : once = true <;> simp [mkReq, h1, h2, hl]
    · by_cases h1 : sh.head.uni = true <;> by_cases h2 : once = true <;> simp [mkReq, h1, h2, Slot.uniMask]
    · intro l
      refine ⟨by simp [mkReq], by simp [mkReq], by simp [mkReq], ?_⟩
      rintro first n rfl; simp [mkReq, spillData]
    · intro c t ht; rw [if_neg h0, ht]
    · intro ht hlate; rw [if_neg h0, ht, hl, if_neg hlate]
    · intro ht hlate hfr
      rw [if_neg h0, ht, hl, if_pos hlate]
      cases log with
      | none => rfl
      | some e => exact withRegion_free (hf _ hfr rfl) h0 rfl (by by_cases h1 : sh.head.uni = true <;> by_cases h2 : once = true <;> simp [mkReq, h1, h2])

/-! ### Programs -/

theorem progGate_of {s : State} {pid : Nat} {p : Prog} (hc : s.cur = .prog pid) (hp : s.prog? pid = some p) (k) :
    progGate s k = k pid p := by
  unfold progGate; rw [hc]; simp only [hp]

end Sys2Proof.Machine
end

