-- ==== Sys2Proof/Laws/PerInstr.lean ====
section
/-! SUPPORT. Every word of the lane and uniform classes has an encoding, which is no header (R7); one lemma per constructor. -/

namespace Sys2Proof.Laws

open Sys2Proof.Machine

theorem arithF_op (op h d a b rm sub sg aux) : (arithF op h d a b rm sub sg aux).op = op := by
  unfold arithF; split
  · split <;> rfl
  · rfl

theorem threeF_op (op h d a b c) : (threeF op h d a b c).op = op := by
  unfold threeF; split
  · split <;> rfl
  · rfl

theorem memF_op (op h d a b sp pol low) : (memF op h d a b sp pol low).op = op := by unfold memF; split <;> rfl
theorem srF_op (op h d a num) : (srF op h d a num).op = op := by unfold srF; split <;> rfl
theorem cvtF_op (op h d a rm hi b7 b6 lo) : (cvtF op h d a rm hi b7 b6 lo).op = op := by unfold cvtF; split <;> rfl
theorem cmpF_op (op h p a b cond sg) : (cmpF op h p a b cond sg).op = op := arithF_op ..
theorem onceF_op (op h d a b sub aux) : (onceF op h d a b sub aux).op = op := arithF_op ..
theorem ite_op (p : Prop) [Decidable p] (f g : Fields) (op : BitVec 7) (hf : f.op = op) (hg : g.op = op) : (if p then f else g).op = op := by
  split <;> assumption

/-- A word's opcode is not a header's marker. -/
theorem isHeader_pack (f : Fields) : isHeader f.pack = decide (f.op.extractLsb' 1 6 = 0b111111#6) := by
  obtain ⟨op, w, ga, gb, m, c, s, r⟩ := f
  have : (Fields.pack ⟨op, w, ga, gb, m, c, s, r⟩).extractLsb' 58 6 = op.extractLsb' 1 6 := by
    apply BitVec.eq_of_getLsbD_eq
    intro i hi
    have h6 : i < 6 := hi
    simp only [Fields.pack, BitVec.getLsbD_extractLsb', BitVec.getLsbD_append]
    rw [if_neg (by omega), if_neg (by omega), if_neg (by omega), if_neg (by omega), if_neg (by omega), if_neg (by omega), if_neg (by omega)]
    simp only [h6, decide_true, Bool.true_and]
    congr 1
    omega
  unfold isHeader; rw [this]

/-- Every word of a group's classes has an encoding, and it is no header. -/
def Enc.Statement (i : Instr) : Prop := (wordShape i).isSome = true → ∃ x, encode i = some x ∧ isHeader x = false

theorem enc_of {i : Instr} {f : Fields} (op : BitVec 7) (hf : i.fields = some f) (he : encode i = i.fields.map Fields.pack) (ho : f.op = op)
    (hn : decide (op.extractLsb' 1 6 = 0b111111#6) = false) : Enc.Statement i := by
  intro _
  refine ⟨f.pack, by rw [he, hf]; rfl, ?_⟩
  rw [isHeader_pack, ho, hn]

theorem enc_none {i : Instr} (h : wordShape i = none) : Enc.Statement i := by intro hs; rw [h] at hs; exact absurd hs (by decide)

theorem Enc.clauseIssue (cls : BitVec 3) (cnt : BitVec 4) (wait : BitVec 3) (yld : Bool) : Enc.Statement (.clauseIssue cls cnt wait yld) := enc_none rfl
theorem Enc.issueChoice (quad : Nat) : Enc.Statement (.issueChoice quad) := enc_none rfl
theorem Enc.readyWaitExpiry (gid : Nat) (s1 : Bool) : Enc.Statement (.readyWaitExpiry gid s1) := enc_none rfl
theorem Enc.pathRotation (gid : Nat) : Enc.Statement (.pathRotation gid) := enc_none rfl
theorem Enc.faultQueueSpace (die : Nat) : Enc.Statement (.faultQueueSpace die) := enc_none rfl
theorem Enc.tlbWalk (who : Agent) (va : Addr) (kind : AccessKind) : Enc.Statement (.tlbWalk who va kind) := enc_none rfl
theorem Enc.pendingRetry (gid : Nat) (s1 : Bool) : Enc.Statement (.pendingRetry gid s1) := enc_none rfl
theorem Enc.memAccessComplete (id : Nat) : Enc.Statement (.memAccessComplete id) := enc_none rfl
theorem Enc.storeReachHome (id : Nat) : Enc.Statement (.storeReachHome id) := enc_none rfl
theorem Enc.leaseExpiry (line : Nat) : Enc.Statement (.leaseExpiry line) := enc_none rfl
theorem Enc.leaseCopyDrop (die : Nat) (line : Nat) : Enc.Statement (.leaseCopyDrop die line) := enc_none rfl
theorem Enc.oabAdmit (id : Nat) : Enc.Statement (.oabAdmit id) := enc_none rfl
theorem Enc.floorAdvance (grid : Nat) : Enc.Statement (.floorAdvance grid) := enc_none rfl
theorem Enc.carveChangeComplete (core : Nat) : Enc.Statement (.carveChangeComplete core) := enc_none rfl
theorem Enc.claimGrant (quad : Nat) : Enc.Statement (.claimGrant quad) := enc_none rfl
theorem Enc.tagExpiry (quad : Nat) : Enc.Statement (.tagExpiry quad) := enc_none rfl
theorem Enc.sleepExpiry (gid : Nat) (s1 : Bool) : Enc.Statement (.sleepExpiry gid s1) := enc_none rfl
theorem Enc.futWaitWake (gid : Nat) (s1 : Bool) : Enc.Statement (.futWaitWake gid s1) := enc_none rfl
theorem Enc.ringWaitResume (gid : Nat) (s1 : Bool) : Enc.Statement (.ringWaitResume gid s1) := enc_none rfl
theorem Enc.cpyComplete (id : Nat) : Enc.Statement (.cpyComplete id) := enc_none rfl
theorem Enc.tlbinvComplete (id : Nat) : Enc.Statement (.tlbinvComplete id) := enc_none rfl
theorem Enc.tableBankLoad (quad : Nat) : Enc.Statement (.tableBankLoad quad) := enc_none rfl
theorem Enc.matrixOpStart (quad : Nat) : Enc.Statement (.matrixOpStart quad) := enc_none rfl
theorem Enc.rowGroupDone (quad : Nat) : Enc.Statement (.rowGroupDone quad) := enc_none rfl
theorem Enc.engineProgramStart (pid : Nat) : Enc.Statement (.engineProgramStart pid) := enc_none rfl
theorem Enc.engineProgramEnd (pid : Nat) : Enc.Statement (.engineProgramEnd pid) := enc_none rfl
theorem Enc.engineFaultDelivery (gid : Nat) (s1 : Bool) : Enc.Statement (.engineFaultDelivery gid s1) := enc_none rfl
theorem Enc.engineTranslationStop (id : Nat) : Enc.Statement (.engineTranslationStop id) := enc_none rfl
theorem Enc.stepCallDeliver (ctx : Nat) : Enc.Statement (.stepCallDeliver ctx) := enc_none rfl
theorem Enc.stepCombinationDone (ctx : Nat) : Enc.Statement (.stepCombinationDone ctx) := enc_none rfl
theorem Enc.tokenPoll (die : Nat) : Enc.Statement (.tokenPoll die) := enc_none rfl
theorem Enc.teamPlacement (die : Nat) : Enc.Statement (.teamPlacement die) := enc_none rfl
theorem Enc.gridComplete (grid : Nat) : Enc.Statement (.gridComplete grid) := enc_none rfl
theorem Enc.timeSliceSave (die : Nat) : Enc.Statement (.timeSliceSave die) := enc_none rfl
theorem Enc.tenantDrainDeadline (tenant : Nat) : Enc.Statement (.tenantDrainDeadline tenant) := enc_none rfl
theorem Enc.saveSlotRetry (tenant : Nat) : Enc.Statement (.saveSlotRetry tenant) := enc_none rfl
theorem Enc.tgaFormGroup (lcore : Nat) : Enc.Statement (.tgaFormGroup lcore) := enc_none rfl
theorem Enc.stealRequest (lcore : Nat) : Enc.Statement (.stealRequest lcore) := enc_none rfl
theorem Enc.stealServe (victim : Nat) : Enc.Statement (.stealServe victim) := enc_none rfl
theorem Enc.stealRestart (lcore : Nat) : Enc.Statement (.stealRestart lcore) := enc_none rfl
theorem Enc.gatheredGroupSave (gid : Nat) : Enc.Statement (.gatheredGroupSave gid) := enc_none rfl
theorem Enc.gatheredGroupRestore (team : Nat) : Enc.Statement (.gatheredGroupRestore team) := enc_none rfl
theorem Enc.softErrorRewind (gid : Nat) (lane : Nat) (row : Nat) : Enc.Statement (.softErrorRewind gid lane row) := enc_none rfl
theorem Enc.l2TagParityFail (die : Nat) (line : Nat) (slice way : Nat) (eccBad : Bool) : Enc.Statement (.l2TagParityFail die line slice way eccBad) := enc_none rfl
theorem Enc.waySweepDone (die : Nat) (slice way : Nat) : Enc.Statement (.waySweepDone die slice way) := enc_none rfl
theorem Enc.bucketRefill (die : Nat) : Enc.Statement (.bucketRefill die) := enc_none rfl
theorem Enc.energyAccount (die : Nat) : Enc.Statement (.energyAccount die) := enc_none rfl
theorem Enc.hostPostedWrite (mbox : Bool) (offset : Nat) (bytes : List Byte) : Enc.Statement (.hostPostedWrite mbox offset bytes) := enc_none rfl
theorem Enc.hostRead (mbox : Bool) (offset : Nat) (len : Nat) : Enc.Statement (.hostRead mbox offset len) := enc_none rfl
theorem Enc.fabricAck (id : Nat) : Enc.Statement (.fabricAck id) := enc_none rfl
theorem Enc.fabricRetransmit (id : Nat) : Enc.Statement (.fabricRetransmit id) := enc_none rfl
theorem Enc.partcmdQuadrants (die : Nat) : Enc.Statement (.partcmdQuadrants die) := enc_none rfl
theorem Enc.partcmdBanks (die : Nat) : Enc.Statement (.partcmdBanks die) := enc_none rfl
theorem Enc.partcmdL2Ways (die : Nat) : Enc.Statement (.partcmdL2Ways die) := enc_none rfl
theorem Enc.partcmdBuckets (die : Nat) : Enc.Statement (.partcmdBuckets die) := enc_none rfl
theorem Enc.mboxFirmwareCmd (code : BitVec 16) : Enc.Statement (.mboxFirmwareCmd code) := enc_none rfl
theorem Enc.mboxDone (result : BitVec 16) (error : Bool) (vectors : BitVec 64) (put : List (Nat × Byte)) : Enc.Statement (.mboxDone result error vectors put) := enc_none rfl
theorem Enc.mboxWindowBase (v : BitVec 64) : Enc.Statement (.mboxWindowBase v) := enc_none rfl
theorem Enc.mboxIntCauseClear (v : BitVec 64) : Enc.Statement (.mboxIntCauseClear v) := enc_none rfl
theorem Enc.wrsrFpctl (h : Head) (a : Src) : Enc.Statement (.wrsrFpctl h a) :=
  enc_of 0x7C#7 rfl rfl (srF_op ..) (by decide)
theorem Enc.wrsrFpflags (h : Head) (a : Src) : Enc.Statement (.wrsrFpflags h a) :=
  enc_of 0x7C#7 rfl rfl (srF_op ..) (by decide)
theorem Enc.rdsrFpflags (h : Head) (d : Dst) : Enc.Statement (.rdsrFpflags h d) :=
  enc_of 0x7B#7 rfl rfl (srF_op ..) (by decide)
theorem Enc.rdsrClock0 (h : Head) (d : Dst) : Enc.Statement (.rdsrClock0 h d) :=
  enc_of 0x7B#7 rfl rfl (srF_op ..) (by decide)
theorem Enc.wrsrUtrap (h : Head) (word : BitVec 2) (a : Src) : Enc.Statement (.wrsrUtrap h word a) :=
  enc_of 0x7C#7 rfl rfl (srF_op ..) (by decide)
theorem Enc.maskWrite (h : Head) (beat : BitVec 2) (imm : BitVec 32) : Enc.Statement (.maskWrite h beat imm) :=
  enc_of 0x02#7 rfl rfl (rfl) (by decide)
theorem Enc.mfqheadWrite (h : Head) (a : Src) : Enc.Statement (.mfqheadWrite h a) :=
  enc_of 0x7C#7 rfl rfl (srF_op ..) (by decide)
theorem Enc.nop (h : Head) : Enc.Statement (.nop h) :=
  enc_of 0x00#7 rfl rfl (onceF_op ..) (by decide)
theorem Enc.mov (h : Head) (d : Dst) (a : Src) : Enc.Statement (.mov h d a) :=
  enc_of 0x01#7 rfl rfl (arithF_op ..) (by decide)
theorem Enc.movi (h : Head) (d : Dst) (imm : BitVec 32) : Enc.Statement (.movi h d imm) :=
  enc_of 0x02#7 rfl rfl (ite_op _ _ _ _ (by first | rfl | exact arithF_op ..) (by first | rfl | exact arithF_op ..)) (by decide)
theorem Enc.sel (h : Head) (d : Dst) (a b : Src) (p : Guard) : Enc.Statement (.sel h d a b p) :=
  enc_of 0x03#7 rfl rfl (ite_op _ _ _ _ (by first | rfl | exact arithF_op ..) (by first | rfl | exact arithF_op ..)) (by decide)
theorem Enc.iadd (h : Head) (d : Dst) (a b : Src) (sat sg : Bool) : Enc.Statement (.iadd h d a b sat sg) :=
  enc_of 0x04#7 rfl rfl (arithF_op ..) (by decide)
theorem Enc.isub (h : Head) (d : Dst) (a b : Src) (sat sg : Bool) : Enc.Statement (.isub h d a b sat sg) :=
  enc_of 0x05#7 rfl rfl (arithF_op ..) (by decide)
theorem Enc.imul (h : Head) (d : Dst) (a b : Src) (sg : Bool) : Enc.Statement (.imul h d a b sg) :=
  enc_of 0x06#7 rfl rfl (arithF_op ..) (by decide)
theorem Enc.imulh (h : Head) (d : Dst) (a b : Src) (sg : Bool) : Enc.Statement (.imulh h d a b sg) :=
  enc_of 0x07#7 rfl rfl (arithF_op ..) (by decide)
theorem Enc.imad (h : Head) (d : Dst) (a b c : Src) : Enc.Statement (.imad h d a b c) :=
  enc_of 0x08#7 rfl rfl (threeF_op ..) (by decide)
theorem Enc.imin (h : Head) (d : Dst) (a b : Src) (sg : Bool) : Enc.Statement (.imin h d a b sg) :=
  enc_of 0x09#7 rfl rfl (arithF_op ..) (by decide)
theorem Enc.imax (h : Head) (d : Dst) (a b : Src) (sg : Bool) : Enc.Statement (.imax h d a b sg) :=
  enc_of 0x0A#7 rfl rfl (arithF_op ..) (by decide)
theorem Enc.iabs (h : Head) (d : Dst) (a : Src) (sat : Bool) : Enc.Statement (.iabs h d a sat) :=
  enc_of 0x0B#7 rfl rfl (arithF_op ..) (by decide)
theorem Enc.shl (h : Head) (d : Dst) (a b : Src) : Enc.Statement (.shl h d a b) :=
  enc_of 0x0C#7 rfl rfl (arithF_op ..) (by decide)
theorem Enc.shr (h : Head) (d : Dst) (a b : Src) : Enc.Statement (.shr h d a b) :=
  enc_of 0x0D#7 rfl rfl (arithF_op ..) (by decide)
theorem Enc.sar (h : Head) (d : Dst) (a b : Src) : Enc.Statement (.sar h d a b) :=
  enc_of 0x0E#7 rfl rfl (arithF_op ..) (by decide)
theorem Enc.rot (h : Head) (d : Dst) (a b : Src) : Enc.Statement (.rot h d a b) :=
  enc_of 0x0F#7 rfl rfl (arithF_op ..) (by decide)
theorem Enc.and (h : Head) (d : Dst) (a b : Src) : Enc.Statement (.and h d a b) :=
  enc_of 0x10#7 rfl rfl (arithF_op ..) (by decide)
theorem Enc.or (h : Head) (d : Dst) (a b : Src) : Enc.Statement (.or h d a b) :=
  enc_of 0x11#7 rfl rfl (arithF_op ..) (by decide)
theorem Enc.xor (h : Head) (d : Dst) (a b : Src) : Enc.Statement (.xor h d a b) :=
  enc_of 0x12#7 rfl rfl (arithF_op ..) (by decide)
theorem Enc.not (h : Head) (d : Dst) (a : Src) : Enc.Statement (.not h d a) :=
  enc_of 0x13#7 rfl rfl (arithF_op ..) (by decide)
theorem Enc.lop3 (h : Head) (d : Dst) (a b : Src) (table : BitVec 8) : Enc.Statement (.lop3 h d a b table) :=
  enc_of 0x14#7 rfl rfl (ite_op _ _ _ _ (by first | rfl | exact arithF_op ..) (by first | rfl | exact arithF_op ..)) (by decide)
theorem Enc.bfx (h : Head) (d : Dst) (a b : Src) (sg : Bool) : Enc.Statement (.bfx h d a b sg) :=
  enc_of 0x15#7 rfl rfl (arithF_op ..) (by decide)
theorem Enc.bfi (h : Head) (d : Dst) (a b c : Src) : Enc.Statement (.bfi h d a b c) :=
  enc_of 0x16#7 rfl rfl (threeF_op ..) (by decide)
theorem Enc.popc (h : Head) (d : Dst) (a : Src) : Enc.Statement (.popc h d a) :=
  enc_of 0x17#7 rfl rfl (arithF_op ..) (by decide)
theorem Enc.clz (h : Head) (d : Dst) (a : Src) : Enc.Statement (.clz h d a) :=
  enc_of 0x18#7 rfl rfl (arithF_op ..) (by decide)
theorem Enc.brev (h : Head) (d : Dst) (a : Src) : Enc.Statement (.brev h d a) :=
  enc_of 0x19#7 rfl rfl (arithF_op ..) (by decide)
theorem Enc.lea (h : Head) (d : Dst) (a b : Src) (sh : BitVec 3) (sg : Bool) : Enc.Statement (.lea h d a b sh sg) :=
  enc_of 0x1A#7 rfl rfl (ite_op _ _ _ _ (by first | rfl | exact arithF_op ..) (by first | rfl | exact arithF_op ..)) (by decide)
theorem Enc.isetp (h : Head) (p : PDst) (a b : Src) (cond : BitVec 4) (sg : Bool) : Enc.Statement (.isetp h p a b cond sg) :=
  enc_of 0x1B#7 rfl rfl (cmpF_op ..) (by decide)
theorem Enc.iaddi (h : Head) (d : Dst) (a : Src) (imm : BitVec 27) : Enc.Statement (.iaddi h d a imm) :=
  enc_of 0x1F#7 rfl rfl (ite_op _ _ _ _ (by first | rfl | exact arithF_op ..) (by first | rfl | exact arithF_op ..)) (by decide)
theorem Enc.shfl (h : Head) (d : Dst) (a b : Src) (mode : BitVec 4) : Enc.Statement (.shfl h d a b mode) :=
  enc_of 0x1C#7 rfl rfl (arithF_op ..) (by decide)
theorem Enc.vote (h : Head) (p : PDst) (a : Src) (mode : BitVec 4) : Enc.Statement (.vote h p a mode) :=
  enc_of 0x1D#7 rfl rfl (rfl) (by decide)
theorem Enc.voteBallot (h : Head) (k : BitVec 8) (a : Src) : Enc.Statement (.voteBallot h k a) :=
  enc_of 0x1D#7 rfl rfl (rfl) (by decide)
theorem Enc.redx (h : Head) (d : Dst) (a : Src) (op : BitVec 4) (rm : BitVec 3) (sg : Bool) : Enc.Statement (.redx h d a op rm sg) :=
  enc_of 0x1E#7 rfl rfl (arithF_op ..) (by decide)
theorem Enc.fadd (h : Head) (d : Dst) (a b : Src) (rm : BitVec 3) : Enc.Statement (.fadd h d a b rm) :=
  enc_of 0x20#7 rfl rfl (arithF_op ..) (by decide)
theorem Enc.fsub (h : Head) (d : Dst) (a b : Src) (rm : BitVec 3) : Enc.Statement (.fsub h d a b rm) :=
  enc_of 0x21#7 rfl rfl (arithF_op ..) (by decide)
theorem Enc.fmul (h : Head) (d : Dst) (a b : Src) (rm : BitVec 3) : Enc.Statement (.fmul h d a b rm) :=
  enc_of 0x22#7 rfl rfl (arithF_op ..) (by decide)
theorem Enc.ffma (h : Head) (d : Dst) (a b c : Src) : Enc.Statement (.ffma h d a b c) :=
  enc_of 0x23#7 rfl rfl (threeF_op ..) (by decide)
theorem Enc.fmin (h : Head) (d : Dst) (a b : Src) : Enc.Statement (.fmin h d a b) :=
  enc_of 0x24#7 rfl rfl (arithF_op ..) (by decide)
theorem Enc.fmax (h : Head) (d : Dst) (a b : Src) : Enc.Statement (.fmax h d a b) :=
  enc_of 0x25#7 rfl rfl (arithF_op ..) (by decide)
theorem Enc.fsetp (h : Head) (p : PDst) (a b : Src) (cond : BitVec 4) : Enc.Statement (.fsetp h p a b cond) :=
  enc_of 0x26#7 rfl rfl (cmpF_op ..) (by decide)
theorem Enc.fdiv (h : Head) (d : Dst) (a b : Src) (rm : BitVec 3) : Enc.Statement (.fdiv h d a b rm) :=
  enc_of 0x27#7 rfl rfl (arithF_op ..) (by decide)
theorem Enc.fsqrt (h : Head) (d : Dst) (a : Src) (rm : BitVec 3) : Enc.Statement (.fsqrt h d a rm) :=
  enc_of 0x28#7 rfl rfl (arithF_op ..) (by decide)
theorem Enc.frcp (h : Head) (d : Dst) (a : Src) (rm : BitVec 3) : Enc.Statement (.frcp h d a rm) :=
  enc_of 0x29#7 rfl rfl (arithF_op ..) (by decide)
theorem Enc.frsq (h : Head) (d : Dst) (a : Src) (rm : BitVec 3) : Enc.Statement (.frsq h d a rm) :=
  enc_of 0x2A#7 rfl rfl (arithF_op ..) (by decide)
theorem Enc.fex2 (h : Head) (d : Dst) (a : Src) (rm : BitVec 3) : Enc.Statement (.fex2 h d a rm) :=
  enc_of 0x2B#7 rfl rfl (arithF_op ..) (by decide)
theorem Enc.flg2 (h : Head) (d : Dst) (a : Src) (rm : BitVec 3) : Enc.Statement (.flg2 h d a rm) :=
  enc_of 0x2C#7 rfl rfl (arithF_op ..) (by decide)
theorem Enc.fsin (h : Head) (d : Dst) (a : Src) (rm : BitVec 3) : Enc.Statement (.fsin h d a rm) :=
  enc_of 0x2D#7 rfl rfl (arithF_op ..) (by decide)
theorem Enc.fcos (h : Head) (d : Dst) (a : Src) (rm : BitVec 3) : Enc.Statement (.fcos h d a rm) :=
  enc_of 0x2E#7 rfl rfl (arithF_op ..) (by decide)
theorem Enc.frnd (h : Head) (d : Dst) (a : Src) (exact : Bool) (rm : BitVec 3) : Enc.Statement (.frnd h d a exact rm) :=
  enc_of 0x2F#7 rfl rfl (arithF_op ..) (by decide)
theorem Enc.fcls (h : Head) (d : Dst) (a : Src) : Enc.Statement (.fcls h d a) :=
  enc_of 0x30#7 rfl rfl (arithF_op ..) (by decide)
theorem Enc.fcvt (h : Head) (d : Dst) (a : Src) (df sf : BitVec 3) (sat : Bool) (rm : BitVec 3) : Enc.Statement (.fcvt h d a df sf sat rm) :=
  enc_of 0x31#7 rfl rfl (cvtF_op ..) (by decide)
theorem Enc.icvt (h : Head) (d : Dst) (a : Src) (df sw : BitVec 3) (sg : Bool) (rm : BitVec 3) : Enc.Statement (.icvt h d a df sw sg rm) :=
  enc_of 0x32#7 rfl rfl (cvtF_op ..) (by decide)
theorem Enc.fcvti (h : Head) (d : Dst) (a : Src) (sf : BitVec 3) (sg : Bool) (rm : BitVec 3) : Enc.Statement (.fcvti h d a sf sg rm) :=
  enc_of 0x33#7 rfl rfl (cvtF_op ..) (by decide)
theorem Enc.blkq (h : Head) (d : BitVec 9) (a : BitVec 9) (b : Option Src) (ef sf : BitVec 3) (rm : BitVec 3) : Enc.Statement (.blkq h d a b ef sf rm) :=
  enc_of 0x34#7 rfl rfl (rfl) (by decide)
theorem Enc.blkdq (h : Head) (d : BitVec 9) (a b : Src) (df ef : BitVec 3) (rm : BitVec 3) : Enc.Statement (.blkdq h d a b df ef rm) :=
  enc_of 0x35#7 rfl rfl (rfl) (by decide)
theorem Enc.bscale (h : Head) (d : Dst) (a : Src) (ef sf : BitVec 3) : Enc.Statement (.bscale h d a ef sf) :=
  enc_of 0x36#7 rfl rfl (cvtF_op ..) (by decide)
theorem Enc.srnd (h : Head) (d : Dst) (a : Src) (view : BitVec 3) (df sf : BitVec 3) : Enc.Statement (.srnd h d a view df sf) :=
  enc_of 0x37#7 rfl rfl (rfl) (by decide)
theorem Enc.pack (h : Head) (d a : BitVec 9) (mode : BitVec 4) (sg : Bool) (sw : BitVec 3) : Enc.Statement (.pack h d a mode sg sw) :=
  enc_of 0x38#7 rfl rfl (rfl) (by decide)
theorem Enc.unpack (h : Head) (d a : BitVec 9) (sg : Bool) (sw : BitVec 3) : Enc.Statement (.unpack h d a sg sw) :=
  enc_of 0x39#7 rfl rfl (rfl) (by decide)
theorem Enc.tbld (h : Head) (k : Triple) (mask : BitVec 4) (sp : BitVec 3) : Enc.Statement (.tbld h k mask sp) :=
  enc_of 0x3A#7 rfl rfl (rfl) (by decide)
theorem Enc.tbind (h : Head) : Enc.Statement (.tbind h) :=
  enc_of 0x3B#7 rfl rfl (rfl) (by decide)
theorem Enc.teval (h : Head) (d : Dst) (a : Src) (t : BitVec 2) (rm : BitVec 3) : Enc.Statement (.teval h d a t rm) :=
  enc_of 0x3C#7 rfl rfl (rfl) (by decide)
theorem Enc.lzdraw (h : Head) (view : BitVec 3) (a b : Src) : Enc.Statement (.lzdraw h view a b) :=
  enc_of 0x3D#7 rfl rfl (rfl) (by decide)
theorem Enc.lzcmp (h : Head) (p : BitVec 3) (view : BitVec 3) (b : Src) (fixed : Bool) : Enc.Statement (.lzcmp h p view b fixed) :=
  enc_of 0x3E#7 rfl rfl (rfl) (by decide)
theorem Enc.lzcmpExt (h : Head) (view : BitVec 3) (b : Src) : Enc.Statement (.lzcmpExt h view b) :=
  enc_of 0x3E#7 rfl rfl (rfl) (by decide)
theorem Enc.lzval (h : Head) (d : Dst) (view : BitVec 3) (rm : BitVec 3) : Enc.Statement (.lzval h d view rm) :=
  enc_of 0x3F#7 rfl rfl (rfl) (by decide)
theorem Enc.ld (h : Head) (d : Dst) (a b : Src) (sp : BitVec 3) (pol : BitVec 2) (disp : BitVec 11) : Enc.Statement (.ld h d a b sp pol disp) :=
  enc_of 0x40#7 rfl rfl (memF_op ..) (by decide)
theorem Enc.st (h : Head) (a b : Src) (sp : BitVec 3) (pol : BitVec 2) (disp : BitVec 11) : Enc.Statement (.st h a b sp pol disp) :=
  enc_of 0x41#7 rfl rfl (memF_op ..) (by decide)
theorem Enc.ldu (h : Head) (d : Dst) (a : Src) (sp : BitVec 3) (pol : BitVec 2) (disp : BitVec 6) : Enc.Statement (.ldu h d a sp pol disp) :=
  enc_of 0x42#7 rfl rfl (rfl) (by decide)
theorem Enc.gth (h : Head) (d : Dst) (a b : Src) (sp : BitVec 3) (pol : BitVec 2) (disp : BitVec 6) : Enc.Statement (.gth h d a b sp pol disp) :=
  enc_of 0x47#7 rfl rfl (rfl) (by decide)
theorem Enc.sct (h : Head) (data : BitVec 9) (a b : Src) (sp : BitVec 3) (pol : BitVec 2) (disp : BitVec 6) : Enc.Statement (.sct h data a b sp pol disp) :=
  enc_of 0x48#7 rfl rfl (rfl) (by decide)
theorem Enc.atom (h : Head) (d : Dst) (a b : Src) (sp : BitVec 3) (pol : BitVec 2) (op : BitVec 6) : Enc.Statement (.atom h d a b sp pol op) :=
  enc_of 0x43#7 rfl rfl (memF_op ..) (by decide)
theorem Enc.atomo (h : Head) (d : Dst) (a b : Src) (pol : BitVec 2) (op : BitVec 6) : Enc.Statement (.atomo h d a b pol op) :=
  enc_of 0x44#7 rfl rfl (rfl) (by decide)
theorem Enc.atomoFin (h : Head) : Enc.Statement (.atomoFin h) :=
  enc_of 0x44#7 rfl rfl (rfl) (by decide)
theorem Enc.fence (h : Head) (pred succ : BitVec 4) (scope : BitVec 3) : Enc.Statement (.fence h pred succ scope) :=
  enc_of 0x45#7 rfl rfl (rfl) (by decide)
theorem Enc.cpy (h : Head) (dk ak : Triple) (len : Src) (ssp : BitVec 3) (pol : BitVec 2) (dsp : BitVec 3) : Enc.Statement (.cpy h dk ak len ssp pol dsp) :=
  enc_of 0x46#7 rfl rfl (rfl) (by decide)
theorem Enc.cpyCont (h : Head) (dk ak : Triple) (len : BitVec 8) (ssp : BitVec 3) (pol : BitVec 2) (dsp : BitVec 3) : Enc.Statement (.cpyCont h dk ak len ssp pol dsp) :=
  enc_of 0x46#7 rfl rfl (rfl) (by decide)
theorem Enc.pref (h : Head) (a b : Src) (sp : BitVec 3) (pol : BitVec 2) (disp : BitVec 6) : Enc.Statement (.pref h a b sp pol disp) :=
  enc_of 0x49#7 rfl rfl (rfl) (by decide)
theorem Enc.cmntWb (h : Head) (a b : Src) (sp : BitVec 3) (disp : BitVec 6) : Enc.Statement (.cmntWb h a b sp disp) :=
  enc_of 0x4A#7 rfl rfl (rfl) (by decide)
theorem Enc.cmntInv (h : Head) (a b : Src) (sp : BitVec 3) (disp : BitVec 6) : Enc.Statement (.cmntInv h a b sp disp) :=
  enc_of 0x4A#7 rfl rfl (rfl) (by decide)
theorem Enc.cmntL2wb (h : Head) (a b : Src) (sp : BitVec 3) (disp : BitVec 6) : Enc.Statement (.cmntL2wb h a b sp disp) :=
  enc_of 0x4A#7 rfl rfl (rfl) (by decide)
theorem Enc.cmntL2inv (h : Head) (a b : Src) (sp : BitVec 3) (disp : BitVec 6) : Enc.Statement (.cmntL2inv h a b sp disp) :=
  enc_of 0x4A#7 rfl rfl (rfl) (by decide)
theorem Enc.spill (h : Head) (n1 : BitVec 9) (a : Src) (f : BitVec 9) (pol : BitVec 2) (disp : BitVec 6) : Enc.Statement (.spill h n1 a f pol disp) :=
  enc_of 0x4B#7 rfl rfl (rfl) (by decide)
theorem Enc.fill (h : Head) (n1 : BitVec 9) (a : Src) (f : BitVec 9) (pol : BitVec 2) (disp : BitVec 6) : Enc.Statement (.fill h n1 a f pol disp) :=
  enc_of 0x4C#7 rfl rfl (rfl) (by decide)
theorem Enc.ringPush (h : Head) (a : Triple) (b : Src) (sp : BitVec 3) (pol : BitVec 2) : Enc.Statement (.ringPush h a b sp pol) :=
  enc_of 0x4D#7 rfl rfl (rfl) (by decide)
theorem Enc.ringPop (h : Head) (d : Dst) (a : Triple) (sp : BitVec 3) (pol : BitVec 2) : Enc.Statement (.ringPop h d a sp pol) :=
  enc_of 0x4D#7 rfl rfl (rfl) (by decide)
theorem Enc.futFill (h : Head) (a b : Src) (sp : BitVec 3) (pol : BitVec 2) : Enc.Statement (.futFill h a b sp pol) :=
  enc_of 0x4E#7 rfl rfl (rfl) (by decide)
theorem Enc.futWait (h : Head) (d : Dst) (a : Src) (sp : BitVec 3) (pol : BitVec 2) : Enc.Statement (.futWait h d a sp pol) :=
  enc_of 0x4E#7 rfl rfl (rfl) (by decide)
theorem Enc.bra (h : Head) (target : BitVec 22) (reconv : BitVec 16) (hint : Bool) : Enc.Statement (.bra h target reconv hint) :=
  enc_of 0x60#7 rfl rfl (rfl) (by decide)
theorem Enc.braUniform (h : Head) (target : BitVec 22) (reconv : BitVec 16) (hint : Bool) : Enc.Statement (.braUniform h target reconv hint) :=
  enc_of 0x60#7 rfl rfl (rfl) (by decide)
theorem Enc.brx (h : Head) (a : Src) (reconv : BitVec 16) (hint ug : Bool) : Enc.Statement (.brx h a reconv hint ug) :=
  enc_of 0x61#7 rfl rfl (rfl) (by decide)
theorem Enc.call (h : Head) (target : BitVec 22) (reconv : BitVec 16) (hint : Bool) : Enc.Statement (.call h target reconv hint) :=
  enc_of 0x62#7 rfl rfl (rfl) (by decide)
theorem Enc.callUniform (h : Head) (target : BitVec 22) (reconv : BitVec 16) (hint : Bool) : Enc.Statement (.callUniform h target reconv hint) :=
  enc_of 0x62#7 rfl rfl (rfl) (by decide)
theorem Enc.callx (h : Head) (a : Src) (reconv : BitVec 16) (hint ug : Bool) : Enc.Statement (.callx h a reconv hint ug) :=
  enc_of 0x63#7 rfl rfl (rfl) (by decide)
theorem Enc.ret (h : Head) : Enc.Statement (.ret h) :=
  enc_of 0x64#7 rfl rfl (onceF_op ..) (by decide)
theorem Enc.exit (h : Head) : Enc.Statement (.exit h) :=
  enc_of 0x66#7 rfl rfl (onceF_op ..) (by decide)
theorem Enc.exitUniform (h : Head) : Enc.Statement (.exitUniform h) :=
  enc_of 0x66#7 rfl rfl (onceF_op ..) (by decide)
theorem Enc.yield (h : Head) : Enc.Statement (.yield h) :=
  enc_of 0x67#7 rfl rfl (onceF_op ..) (by decide)
theorem Enc.barArrive (h : Head) (a b : Src) : Enc.Statement (.barArrive h a b) :=
  enc_of 0x68#7 rfl rfl (onceF_op ..) (by decide)
theorem Enc.barWait (h : Head) (a : Src) : Enc.Statement (.barWait h a) :=
  enc_of 0x68#7 rfl rfl (onceF_op ..) (by decide)
theorem Enc.barSync (h : Head) (a b : Src) : Enc.Statement (.barSync h a b) :=
  enc_of 0x68#7 rfl rfl (onceF_op ..) (by decide)
theorem Enc.sleep (h : Head) (a : Src) : Enc.Statement (.sleep h a) :=
  enc_of 0x69#7 rfl rfl (onceF_op ..) (by decide)
theorem Enc.trap (h : Head) (a : Src) : Enc.Statement (.trap h a) :=
  enc_of 0x6A#7 rfl rfl (onceF_op ..) (by decide)
theorem Enc.bkpt (h : Head) (a : Src) : Enc.Statement (.bkpt h a) :=
  enc_of 0x6C#7 rfl rfl (onceF_op ..) (by decide)
theorem Enc.rtt (h : Head) : Enc.Statement (.rtt h) :=
  enc_of 0x6B#7 rfl rfl (onceF_op ..) (by decide)
theorem Enc.rttSub (h : Head) (a : Src) : Enc.Statement (.rttSub h a) :=
  enc_of 0x6B#7 rfl rfl (onceF_op ..) (by decide)
theorem Enc.rttSkip (h : Head) : Enc.Statement (.rttSkip h) :=
  enc_of 0x6B#7 rfl rfl (onceF_op ..) (by decide)
theorem Enc.forkMx (h : Head) (d : BitVec 8) (a : Triple) (b : BitVec 8) (n : BitVec 3) : Enc.Statement (.forkMx h d a b n) :=
  enc_of 0x70#7 rfl rfl (onceF_op ..) (by decide)
theorem Enc.forkCp (h : Head) (d : BitVec 8) (a : Triple) (b : BitVec 8) (n : BitVec 3) : Enc.Statement (.forkCp h d a b n) :=
  enc_of 0x70#7 rfl rfl (onceF_op ..) (by decide)
theorem Enc.forkCl (h : Head) (d : BitVec 8) (a : Triple) (b : BitVec 8) (n : BitVec 3) : Enc.Statement (.forkCl h d a b n) :=
  enc_of 0x70#7 rfl rfl (onceF_op ..) (by decide)
theorem Enc.rdv (h : Head) (d : Dst) (a : Src) : Enc.Statement (.rdv h d a) :=
  enc_of 0x71#7 rfl rfl (onceF_op ..) (by decide)
theorem Enc.mfeedDat (h : Head) (tile : BitVec 2) (row : BitVec 6) (a b : Src) : Enc.Statement (.mfeedDat h tile row a b) :=
  enc_of 0x72#7 rfl rfl (rfl) (by decide)
theorem Enc.mfeedScl (h : Head) (tile : BitVec 2) (row : BitVec 6) (a b : Src) : Enc.Statement (.mfeedScl h tile row a b) :=
  enc_of 0x72#7 rfl rfl (rfl) (by decide)
theorem Enc.mfeedBand (h : Head) (tile : BitVec 2) (a b : Src) : Enc.Statement (.mfeedBand h tile a b) :=
  enc_of 0x72#7 rfl rfl (rfl) (by decide)
theorem Enc.mfeedQ (h : Head) (tile : BitVec 2) (row : BitVec 6) (a : BitVec 9) (b : Src) : Enc.Statement (.mfeedQ h tile row a b) :=
  enc_of 0x72#7 rfl rfl (rfl) (by decide)
theorem Enc.mwm (h : Head) (d : Dst) (tile : BitVec 3) : Enc.Statement (.mwm h d tile) :=
  enc_of 0x73#7 rfl rfl (rfl) (by decide)
theorem Enc.stepLdtab (h : Head) (a : Triple) (sp : BitVec 3) : Enc.Statement (.stepLdtab h a sp) :=
  enc_of 0x74#7 rfl rfl (onceF_op ..) (by decide)
theorem Enc.stepBind (h : Head) (a : Triple) (sp : BitVec 3) : Enc.Statement (.stepBind h a sp) :=
  enc_of 0x74#7 rfl rfl (onceF_op ..) (by decide)
theorem Enc.stepRun (h : Head) (a : Triple) (sp : BitVec 3) : Enc.Statement (.stepRun h a sp) :=
  enc_of 0x74#7 rfl rfl (onceF_op ..) (by decide)
theorem Enc.stepWait (h : Head) : Enc.Statement (.stepWait h) :=
  enc_of 0x74#7 rfl rfl (onceF_op ..) (by decide)
theorem Enc.stepDone (h : Head) : Enc.Statement (.stepDone h) :=
  enc_of 0x74#7 rfl rfl (onceF_op ..) (by decide)
theorem Enc.stepQry (h : Head) (d : Triple) (t : Src) : Enc.Statement (.stepQry h d t) :=
  enc_of 0x74#7 rfl rfl (onceF_op ..) (by decide)
theorem Enc.stepStat (h : Head) (d : Triple) (sp : BitVec 3) : Enc.Statement (.stepStat h d sp) :=
  enc_of 0x74#7 rfl rfl (onceF_op ..) (by decide)
theorem Enc.stepStop (h : Head) : Enc.Statement (.stepStop h) :=
  enc_of 0x74#7 rfl rfl (onceF_op ..) (by decide)
theorem Enc.spawn (h : Head) (a : Src) (f : BitVec 9) : Enc.Statement (.spawn h a f) :=
  enc_of 0x75#7 rfl rfl (rfl) (by decide)
theorem Enc.spawnUniform (h : Head) (a b : BitVec 8) : Enc.Statement (.spawnUniform h a b) :=
  enc_of 0x75#7 rfl rfl (rfl) (by decide)
theorem Enc.tend (h : Head) : Enc.Statement (.tend h) :=
  enc_of 0x76#7 rfl rfl (onceF_op ..) (by decide)
theorem Enc.claim (h : Head) (n : Src) : Enc.Statement (.claim h n) :=
  enc_of 0x77#7 rfl rfl (onceF_op ..) (by decide)
theorem Enc.give (h : Head) (n : Src) : Enc.Statement (.give h n) :=
  enc_of 0x78#7 rfl rfl (onceF_op ..) (by decide)
theorem Enc.giveRole (h : Head) (n r : Src) : Enc.Statement (.giveRole h n r) :=
  enc_of 0x78#7 rfl rfl (onceF_op ..) (by decide)
theorem Enc.regionBegin (h : Head) : Enc.Statement (.regionBegin h) :=
  enc_of 0x79#7 rfl rfl (onceF_op ..) (by decide)
theorem Enc.regionEnd (h : Head) : Enc.Statement (.regionEnd h) :=
  enc_of 0x79#7 rfl rfl (onceF_op ..) (by decide)
theorem Enc.digestRd (h : Head) (d : Dst) (n : BitVec 2) : Enc.Statement (.digestRd h d n) :=
  enc_of 0x7A#7 rfl rfl (rfl) (by decide)
theorem Enc.digestFold (h : Head) (a : Src) : Enc.Statement (.digestFold h a) :=
  enc_of 0x7A#7 rfl rfl (rfl) (by decide)
theorem Enc.rdsr (h : Head) (d : Dst) (num : BitVec 11) : Enc.Statement (.rdsr h d num) :=
  enc_of 0x7B#7 rfl rfl (srF_op ..) (by decide)
theorem Enc.wrsr (h : Head) (num : BitVec 11) (a : Src) : Enc.Statement (.wrsr h num a) :=
  enc_of 0x7C#7 rfl rfl (srF_op ..) (by decide)
theorem Enc.sysLaunch (h : Head) (a : Triple) (b : Src) (sp : BitVec 3) : Enc.Statement (.sysLaunch h a b sp) :=
  enc_of 0x7D#7 rfl rfl (onceF_op ..) (by decide)
theorem Enc.sysTlbinv (h : Head) (a : Triple) (b : BitVec 8) (sc : BitVec 3) : Enc.Statement (.sysTlbinv h a b sc) :=
  enc_of 0x7D#7 rfl rfl (onceF_op ..) (by decide)
theorem Enc.sysCarve (h : Head) (a : BitVec 8) : Enc.Statement (.sysCarve h a) :=
  enc_of 0x7D#7 rfl rfl (onceF_op ..) (by decide)
theorem Enc.sysHalt (h : Head) (a : BitVec 8) : Enc.Statement (.sysHalt h a) :=
  enc_of 0x7D#7 rfl rfl (onceF_op ..) (by decide)
theorem Enc.sysReplay (h : Head) (a : BitVec 8) : Enc.Statement (.sysReplay h a) :=
  enc_of 0x7D#7 rfl rfl (onceF_op ..) (by decide)
theorem Enc.sysEfail (h : Head) (a : BitVec 8) : Enc.Statement (.sysEfail h a) :=
  enc_of 0x7D#7 rfl rfl (onceF_op ..) (by decide)
theorem Enc.sysDebug (h : Head) (a b : BitVec 8) : Enc.Statement (.sysDebug h a b) :=
  enc_of 0x7D#7 rfl rfl (onceF_op ..) (by decide)
theorem Enc.sysSlice (h : Head) (a b : BitVec 8) : Enc.Statement (.sysSlice h a b) :=
  enc_of 0x7D#7 rfl rfl (onceF_op ..) (by decide)
theorem Enc.smov (d a : SReg) : Enc.Statement (.smov d a) := enc_none rfl
theorem Enc.smovi (d : SReg) (imm : BitVec 32) : Enc.Statement (.smovi d imm) := enc_none rfl
theorem Enc.sadd (d a b : SReg) : Enc.Statement (.sadd d a b) := enc_none rfl
theorem Enc.saddi (d a : SReg) (imm : BitVec 32) : Enc.Statement (.saddi d a imm) := enc_none rfl
theorem Enc.ssub (d a b : SReg) : Enc.Statement (.ssub d a b) := enc_none rfl
theorem Enc.smul (d a b : SReg) : Enc.Statement (.smul d a b) := enc_none rfl
theorem Enc.sshl (d a b : SReg) : Enc.Statement (.sshl d a b) := enc_none rfl
theorem Enc.sshr (d a b : SReg) : Enc.Statement (.sshr d a b) := enc_none rfl
theorem Enc.sand (d a b : SReg) : Enc.Statement (.sand d a b) := enc_none rfl
theorem Enc.sor (d a b : SReg) : Enc.Statement (.sor d a b) := enc_none rfl
theorem Enc.scmp (d a b : SReg) (cond : BitVec 3) : Enc.Statement (.scmp d a b cond) := enc_none rfl
theorem Enc.sbra (a b : SReg) (cond : BitVec 3) (imm : BitVec 32) : Enc.Statement (.sbra a b cond imm) := enc_none rfl
theorem Enc.sloop (d : SReg) (imm : BitVec 32) : Enc.Statement (.sloop d imm) := enc_none rfl
theorem Enc.ssig (sp : BitVec 4) (a : SReg) (imm : BitVec 32) : Enc.Statement (.ssig sp a imm) := enc_none rfl
theorem Enc.mma (fmt : BitVec 4) (at_ : BitVec 2) (reuse : Bool) (acc : BitVec 3) (b c : SReg) (k : BitVec 6) : Enc.Statement (.mma fmt at_ reuse acc b c k) := enc_none rfl
theorem Enc.mzero (acc : BitVec 3) : Enc.Statement (.mzero acc) := enc_none rfl
theorem Enc.mwaitAt (at_ : BitVec 2) : Enc.Statement (.mwaitAt at_) := enc_none rfl
theorem Enc.mwaitAcc (acc : BitVec 3) : Enc.Statement (.mwaitAcc acc) := enc_none rfl
theorem Enc.mrel (at_ : BitVec 2) : Enc.Statement (.mrel at_) := enc_none rfl
theorem Enc.mbscale (acc : BitVec 3) (f : SReg) : Enc.Statement (.mbscale acc f) := enc_none rfl
theorem Enc.cld (w : BitVec 3) (d a n x : SReg) (dsp ssp : BitVec 3) (pol : BitVec 2) : Enc.Statement (.cld w d a n x dsp ssp pol) := enc_none rfl
theorem Enc.cst (w : BitVec 3) (d a n x : SReg) (dsp ssp : BitVec 3) (pol : BitVec 2) : Enc.Statement (.cst w d a n x dsp ssp pol) := enc_none rfl
theorem Enc.cgth (w : BitVec 3) (d a n x : SReg) (dsp ssp : BitVec 3) (pol : BitVec 2) : Enc.Statement (.cgth w d a n x dsp ssp pol) := enc_none rfl
theorem Enc.csct (w : BitVec 3) (d a n x : SReg) (dsp ssp : BitVec 3) (pol : BitVec 2) : Enc.Statement (.csct w d a n x dsp ssp pol) := enc_none rfl
theorem Enc.cacc (w : BitVec 3) (d a n x : SReg) (dsp ssp : BitVec 3) (pol : BitVec 2) (tile : BitVec 3) : Enc.Statement (.cacc w d a n x dsp ssp pol tile) := enc_none rfl
theorem Enc.ccoll (w : BitVec 3) (d a n x : SReg) (dsp ssp : BitVec 3) (pol : BitVec 2) (op scope : BitVec 3) : Enc.Statement (.ccoll w d a n x dsp ssp pol op scope) := enc_none rfl
theorem Enc.cwait (w : BitVec 3) (a n : SReg) (ssp : BitVec 3) (pol : BitVec 2) : Enc.Statement (.cwait w a n ssp pol) := enc_none rfl
theorem Enc.cfill (w : BitVec 3) (d a n : SReg) (dsp : BitVec 3) (pol : BitVec 2) : Enc.Statement (.cfill w d a n dsp pol) := enc_none rfl
theorem Enc.lazyInstructionComplete (id : Nat) : Enc.Statement (.lazyInstructionComplete id) := enc_none rfl
theorem Enc.copyOperationComplete (id : Nat) : Enc.Statement (.copyOperationComplete id) := enc_none rfl
theorem Enc.fabricRemoteAccess (access : RemoteAccess) (addr : Nat) : Enc.Statement (.fabricRemoteAccess access addr) := enc_none rfl
theorem Enc.mboxNop : Enc.Statement (.mboxNop) := enc_none rfl
theorem Enc.mboxAttest : Enc.Statement (.mboxAttest) := enc_none rfl
theorem Enc.mboxTelemetry : Enc.Statement (.mboxTelemetry) := enc_none rfl
theorem Enc.resetBoot : Enc.Statement (.resetBoot) := enc_none rfl
theorem Enc.thermalTrip : Enc.Statement (.thermalTrip) := enc_none rfl
theorem Enc.join : Enc.Statement (.join) :=
  enc_of 0x65#7 rfl rfl (rfl) (by decide)
theorem Enc.snop : Enc.Statement (.snop) := enc_none rfl
theorem Enc.send : Enc.Statement (.send) := enc_none rfl

end Sys2Proof.Laws
end

