-- ==== Sys2Proof/Laws/Step.lean ====
section
/-! SUPPORT. One step by the turn that it takes. -/

namespace Sys2Proof.Machine

theorem takeTurn_cons {s : State} {t : Turn} {r : List Turn} (h : s.turns = t :: r) : takeTurn s = (t, { s with turns := r }) := by
  simp [takeTurn, h]

theorem noteWaits_turns (s : State) : (noteWaits s).turns = s.turns := rfl

theorem noteWaits_tripped (s : State) : (noteWaits s).tripped = s.tripped := rfl

theorem step_go {s u : State} {a : Agent} (h : takeTurn (noteWaits s) = (.go a, u)) (hp : u.tripped = false) : step s = goTurn u a := by
  unfold step
  simp only [h, allowed, hp]
  rfl

theorem step_ev {s u : State} {i : Instr} (h : takeTurn (noteWaits s) = (.ev i, u)) (hp : u.tripped = false) :
    step s = exec i (startEvent u) := by
  unfold step
  have : allowed u (.ev i) = true := by cases i <;> simp [allowed, hp]
  simp [h, this]

theorem step_tick {s u : State} {n : Nat} (h : takeTurn (noteWaits s) = (.tick n, u)) :
    step s = .next { u with now := u.now + BitVec.ofNat 64 n, cur := .none } := by
  unfold step
  simp [h, allowed]

theorem step_refused {s u : State} {t : Turn} (h : takeTurn (noteWaits s) = (t, u)) (ha : allowed u t = false) :
    step s = .next (startEvent u) := by
  unfold step
  simp [h, ha]

/-! ### What an agent's turn comes to -/

theorem goTurn_slot {u : State} {gid : Nat} {s1 : Bool} (hq : slotProbes u gid s1 = false) (hr : agentReady u (.slot gid s1) = true) :
    goTurn u (.slot gid s1) = runWord (startTurn u (.slot gid s1)) (.slot gid s1) := by
  simp [goTurn, hq, hr]

theorem goTurn_probe {u : State} {gid : Nat} {s1 : Bool} (hq : slotProbes u gid s1 = true) :
    goTurn u (.slot gid s1) = probeWord u gid s1 := by
  simp [goTurn, hq]

theorem goTurn_prog {u : State} {pid : Nat} (hr : agentReady u (.prog pid) = true) :
    goTurn u (.prog pid) = runWord (startTurn u (.prog pid)) (.prog pid) := by
  simp [goTurn, hr]

theorem goTurn_notReady {u : State} {a : Agent} (hq : ∀ gid s1, a = .slot gid s1 → slotProbes u gid s1 = false) (hr : agentReady u a = false) :
    goTurn u a = .next (startEvent u) := by
  cases a <;> simp_all [goTurn]

/-! ### What a slot's turn fetches -/

theorem nextWord_slot {u : State} {gid : Nat} {s1 : Bool} {g : Group} (hg : u.group? gid = some g) :
    nextWord u (.slot gid s1) = match fetchSlot u gid s1 g with
      | (s, .fault) => (s, .inl (execEngineFaultDelivery gid s1 s))
      | (s, .park e) => (s, .inl (.next (parkSlot s gid s1 e.2 e.1 3#8 (g.slot s1).mask)))
      | (s, .bad c lanes x) => (s, .inl (.next (rawTrap s gid s1 c lanes x)))
      | (s, .instr i) => (s, .inr i) := by
  simp only [nextWord, hg] <;> split <;> simp_all

theorem nextWord_prog {u : State} {pid : Nat} {p : Prog} (hp : u.prog? pid = some p) :
    nextWord u (.prog pid) = match fetchProg u p with
      | (s, .fault) => (s, .inl (.next s))
      | (s, .park e) => (s, .inl (.next (stopProg s pid e.2 e.1)))
      | (s, .bad c _ _) => (s, .inl (.next (progFault s pid c 0#80)))
      | (s, .instr i) => (s, .inr i) := by
  simp only [nextWord, hp] <;> split <;> simp_all

theorem startTurn_slot (s : State) (gid : Nat) (s1 : Bool) :
    (startTurn s (.slot gid s1)).cur = .slot gid s1 ∧ (startTurn s (.slot gid s1)).now = s.now + 1#64 := by
  simp only [startTurn, takePort]
  split
  · exact ⟨rfl, rfl⟩
  · simp only [State.modGroup, State.setGroup, State.setQuad]
    split <;> exact ⟨rfl, rfl⟩

end Sys2Proof.Machine
end

