-- ==== Sys2Proof/Tests/Slice0.lean ====
section
/-! SUPPORT. Tests: what the checks of well-formedness refuse, words of the manual decoded, the words' first steps, and for every
statement with hypotheses a state and operands that meet them. -/

namespace Sys2Proof.Tests

open Sys2Proof Sys2Proof.Machine

set_option Elab.async false

/-! ### A place for the witnesses -/

/-- A team of one group. -/
def tTeam : Team :=
  { grid := 2 ^ 32, num := 0, die := 0, clu := 0, groups := [0], roles := 2, scBase := List.replicate 8 0, scSize := 4096,
    bars := Vector.replicate 16 { phase := false, arrivals := 0, expected := 0, all := false }, ctx := none, placedAt := 0 }

/-- A group of a team at the word at 0x1000, in supervisor mode and with all its registers, after `f`. -/
def tGroup (f : Group → Group) : Group :=
  f { loneGroup State.reset 0x1000#80 with
        team := some 7, sup := true, h := 3,
        s0 := { (loneGroup State.reset 0x1000#80).s0 with cls := 0#3, left := 1, header := 0xFF8#80 } }

/-- It is this group's turn, whose word is `x`. -/
def tHere (x : Word64) (f : Group → Group) (u : State → State) : State :=
  let s := State.reset.withFetchWord 64 x.toNat
  u { s with cur := .slot 0 false, teams := [(7, tTeam)], groups := [(0, tGroup f)] }

/-- The word, which is well formed, passes its checks at the group's slot, and `ok` holds of the state, the group, the shape and the
lanes. -/
def Meets (i : Instr) (s : State) (ok : State → Group → Shape → Mask → Bool) : Prop :=
  i.wf = true ∧ ∃ g sh s', Passes i s 0 false g sh s' ∧ ok s' g sh (g.lanesAt false sh) = true

def meetsB (i : Instr) (s : State) (ok : State → Group → Shape → Mask → Bool) : Bool :=
  i.wf && match s.group? 0, wordShape i with
  | some g, some sh =>
    decide (s.cur = .slot 0 false) && decide (wordFault g (g.slot false) i sh = none) &&
      (if usesMatrix i sh = true ∧ execLanes g (g.slot false) sh.head ≠ 0#96 then
        match takeMatrix s g with
        | .ok s' => !accBusy s' g sh && ok s' g sh (g.lanesAt false sh)
        | .error _ => false
      else ok s g sh (g.lanesAt false sh))
  | _, _ => false

theorem meets_of (i : Instr) (s : State) (ok : State → Group → Shape → Mask → Bool) (h : meetsB i s ok = true) : Meets i s ok := by
  unfold meetsB at h
  rw [Bool.and_eq_true] at h
  obtain ⟨hw, h⟩ := h
  refine ⟨hw, ?_⟩
  split at h
  · rename_i g sh hg hsh
    rw [Bool.and_eq_true, Bool.and_eq_true] at h
    obtain ⟨⟨hc, hf⟩, h⟩ := h
    have hc := of_decide_eq_true hc
    have hf := of_decide_eq_true hf
    split at h
    · rename_i hu
      split at h
      · rename_i s' hm
        rw [Bool.and_eq_true] at h
        exact ⟨g, sh, s', ⟨⟨hc, hg⟩, hsh, hf, by rw [if_pos hu]; exact ⟨hm, by simpa using h.1⟩⟩, h.2⟩
      · exact absurd h (by decide)
    · rename_i hu
      exact ⟨g, sh, s, ⟨⟨hc, hg⟩, hsh, hf, by rw [if_neg hu]⟩, h⟩
  · exact absurd h (by decide)

theorem all_meet {l : List (Instr × (State → Group → Shape → Mask → Bool))} {s : State}
    (h : (l.all fun p => meetsB p.1 s p.2) = true) : ∀ p ∈ l, Meets p.1 s p.2 :=
  fun p hp => meets_of _ _ _ (List.all_eq_true.mp h p hp)

/-- The word executes in some lane. -/
def runs' : State → Group → Shape → Mask → Bool := fun _ _ _ m => decide (m ≠ 0#96)

/-- The word executes in no lane. -/
def skips' : State → Group → Shape → Mask → Bool := fun _ _ _ m => decide (m = 0#96)

theorem all_run {l : List Instr} {s : State} (h : (l.all fun i => meetsB i s runs') = true) : ∀ i ∈ l, Meets i s runs' :=
  fun i hi => meets_of _ _ _ (List.all_eq_true.mp h i hi)

theorem all_skip {l : List Instr} {s : State} (h : (l.all fun i => meetsB i s skips') = true) : ∀ i ∈ l, Meets i s skips' :=
  fun i hi => meets_of _ _ _ (List.all_eq_true.mp h i hi)

/-- A head of the lane class, one of the uniform class, and one whose guard p0 no lane meets. -/
def tHd (w : BitVec 3) : Head := { uni := false, w := w, ga := ⟨false, 7#3⟩, gb := ⟨false, 7#3⟩, sup := false, ctr := 0#2 }
def tHu (w : BitVec 3) : Head := { tHd w with uni := true }
def tHn (w : BitVec 3) : Head := { tHd w with ga := ⟨false, 0#3⟩ }
def tPlain : State := tHere 0#64 id id
/-! ### Witnesses: the words whose result is a register or a predicate -/

theorem witness_Integer : ∀ i ∈ [Instr.iadd (tHd 5#3) (.slice 0#9) (.slice 8#9) (.imm 3#9) false false,
    .isub (tHd 5#3) (.slice 0#9) (.slice 8#9) (.imm 3#9) false false, .imul (tHd 3#3) (.slice 0#9) (.slice 8#9) (.slice 16#9) true,
    .imad (tHd 5#3) (.slice 0#9) (.slice 8#9) (.slice 16#9) (.slice 24#9), .iaddi (tHd 7#3) (.slice 0#9) (.slice 496#9) 5#27,
    .iadd (tHd 3#3) (.slice 40#9) (.slice 44#9) (.imm 0x1FF#9) true true, .isub (tHd 3#3) (.slice 40#9) (.slice 44#9) (.imm 1#9) true false,
    .imulh (tHd 5#3) (.slice 40#9) (.slice 48#9) (.imm 1#9) true, .imin (tHu 5#3) (.ureg 4#8) (.ureg 5#8) (.uimm 7#11) false,
    .imax (tHd 5#3) (.slice 0#9) (.slice 8#9) (.imm 3#9) true, .iabs (tHd 5#3) (.slice 0#9) (.slice 8#9) false,
    .iabs (tHd 5#3) (.slice 0#9) (.slice 8#9) true], Meets i tPlain runs' := all_run (by decide +kernel)

theorem witness_Shifts : ∀ i ∈ [Instr.shl (tHd 5#3) (.slice 0#9) (.slice 8#9) (.imm 32#9), .shr (tHd 5#3) (.slice 0#9) (.slice 8#9) (.imm 31#9),
    .sar (tHd 3#3) (.slice 0#9) (.slice 8#9) (.slice 12#9), .rot (tHd 5#3) (.slice 0#9) (.slice 8#9) (.imm 33#9)], Meets i tPlain runs' :=
  all_run (by decide +kernel)

theorem witness_LogicAndFields : ∀ i ∈ [Instr.mov (tHd 7#3) (.slice 496#9) (.slice 480#9), .movi (tHu 5#3) (.ureg 3#8) 7#32,
    .sel (tHd 5#3) (.slice 0#9) (.slice 8#9) (.slice 16#9) ⟨true, 2#3⟩, .and (tHd 5#3) (.slice 104#9) (.ureg 8#8) (.imm 0xFF#9),
    .or (tHd 5#3) (.slice 0#9) (.slice 8#9) (.slice 16#9), .xor (tHd 5#3) (.slice 0#9) (.slice 8#9) (.slice 16#9),
    .not (tHd 5#3) (.slice 0#9) (.slice 8#9), .lop3 (tHd 5#3) (.slice 0#9) (.slice 8#9) (.slice 16#9) 0x96#8,
    .bfx (tHd 5#3) (.slice 0#9) (.slice 8#9) (.slice 16#9) true, .bfi (tHd 5#3) (.slice 0#9) (.slice 8#9) (.slice 16#9) (.slice 24#9),
    .popc (tHd 5#3) (.slice 0#9) (.slice 8#9), .clz (tHd 7#3) (.slice 0#9) (.slice 16#9), .brev (tHd 0#3) (.slice 0#9) (.slice 1#9),
    .lea (tHd 5#3) (.slice 0#9) (.slice 40#9) (.slice 64#9) 2#3 true, .shfl (tHd 5#3) (.slice 0#9) (.slice 8#9) (.imm 1#9) 2#4],
    Meets i tPlain runs' := all_run (by decide +kernel)

theorem witness_PredicatesAndPacking : ∀ i ∈ [Instr.isetp (tHd 5#3) (.p 1#3) (.slice 0#9) (.imm 2#9) 5#4 true,
    .isetp (tHd 5#3) (.p 7#3) (.slice 0#9) (.imm 2#9) 0#4 false, .vote (tHd 5#3) (.g 2#3) (.slice 0#9) 1#4, .voteBallot (tHd 5#3) 157#8 (.slice 0#9),
    .voteBallot (tHd 5#3) 3#8 (.slice 0#9), .nop (tHd 0#3), .maskWrite (tHu 5#3) 2#2 5#32,
    .pack (tHd 3#3) 64#9 0#9 1#4 true 5#3, .unpack (tHd 5#3) 64#9 0#9 false 3#3], Meets i tPlain runs' := all_run (by decide +kernel)

theorem witness_Skips : ∀ i ∈ [Instr.iadd (tHn 5#3) (.slice 0#9) (.slice 8#9) (.imm 3#9) false false, .voteBallot (tHn 5#3) 157#8 (.slice 0#9),
    .fence (tHn 0#3) 12#4 4#4 2#3, .trap (tHn 0#3) (.imm 1#9), .spawn (tHn 5#3) (.slice 0#9) 64#9, .rdv { tHu 5#3 with ga := ⟨false, 0#3⟩ } (.ureg 8#8) (.ureg 9#8),
    .cpy (tHn 3#3) 4#8 8#8 (.imm 4#9) 5#3 0#2 4#3], Meets i tPlain skips' := all_skip (by decide +kernel)
/-! ### Witnesses: floating point, conversions and tables -/

theorem getLsbD_or_false (p : Lane → Bool) (l : Lane) : (maskOf p).getLsbD l.val = p l := getLsbD_maskOf p l

/-- Where no trap is enabled no lane's flags trap, whatever they are. -/
theorem no_flag_traps (g : Group) (m : Mask) (fl : Lane → FFlags) (h : trapEnables g = 0#6) : flagTraps g m fl = 0#96 := by
  have e : (fun l : Lane => decide ((fl l &&& trapEnables g) ≠ 0#6)) = fun _ => false := by
    funext l; rw [h]; simp
  unfold flagTraps
  rw [e]
  have z : maskOf (fun _ => false) = 0#96 := by decide +kernel
  rw [z]; simp

/-- The word executes in some lane, and no floating-point trap is enabled. -/
def calm : State → Group → Shape → Mask → Bool := fun _ g _ m => decide (m ≠ 0#96 ∧ trapEnables g = 0#6)

theorem witness_Float : ∀ p ∈ ([Instr.fadd (tHd 5#3) (.slice 0#9) (.slice 8#9) (.slice 16#9) 0#3, .fsub (tHd 7#3) (.slice 0#9) (.slice 16#9) (.slice 32#9) 5#3,
    .fmul (tHd 3#3) (.slice 0#9) (.slice 4#9) (.slice 8#9) 1#3, .fdiv (tHd 5#3) (.slice 0#9) (.slice 8#9) (.slice 16#9) 2#3,
    .ffma (tHd 7#3) (.slice 64#9) (.slice 48#9) (.slice 16#9) (.slice 64#9), .fsqrt (tHd 5#3) (.slice 0#9) (.slice 8#9) 0#3,
    .frcp (tHd 5#3) (.slice 0#9) (.slice 8#9) 0#3, .frsq (tHd 5#3) (.slice 0#9) (.slice 8#9) 0#3, .fex2 (tHd 5#3) (.slice 0#9) (.slice 8#9) 0#3,
    .flg2 (tHd 5#3) (.slice 0#9) (.slice 8#9) 0#3, .fsin (tHd 5#3) (.slice 0#9) (.slice 8#9) 0#3, .fcos (tHd 5#3) (.slice 0#9) (.slice 8#9) 0#3,
    .frnd (tHd 5#3) (.slice 0#9) (.slice 8#9) true 0#3, .fcls (tHd 5#3) (.slice 0#9) (.slice 8#9), .fmin (tHd 5#3) (.slice 0#9) (.slice 8#9) (.slice 16#9),
    .fmax (tHd 5#3) (.slice 0#9) (.slice 8#9) (.slice 16#9), .fsetp (tHd 5#3) (.p 2#3) (.slice 8#9) (.slice 16#9) 6#4,
    .redx (tHd 5#3) (.slice 0#9) (.slice 8#9) 5#4 0#3 false, .redx (tHd 5#3) (.slice 0#9) (.slice 8#9) 6#4 1#3 false,
    .fcvt (tHd 1#3) (.slice 0#9) (.slice 8#9) 4#3 1#3 true 0#3, .icvt (tHd 5#3) (.slice 0#9) (.slice 8#9) 1#3 3#3 true 0#3,
    .fcvti (tHd 5#3) (.slice 0#9) (.slice 8#9) 1#3 true 0#3, .bscale (tHd 1#3) (.slice 0#9) (.slice 8#9) 6#3 1#3,
    .blkdq (tHd 3#3) 0#9 (.slice 64#9) (.slice 80#9) 2#3 4#3 0#3, .teval (tHd 5#3) (.slice 0#9) (.slice 8#9) 1#2 0#3,
    .blkq (tHd 7#3) 0#9 64#9 (some (.slice 32#9)) 4#3 1#3 0#3].map fun i => (i, calm)), Meets p.1 tPlain p.2 := all_meet (by decide +kernel)

/-- The quotient of zero by zero, as the division's meaning has it. -/
def zeroOverZero : State → Group → Slot → Lane → FRes (fBits 5#3) := fun s g sl l =>
  roundIn g (fmtOf (tHd 5#3)) (fpMode g 1#3) l 0
    (fDiv (readF s g sl l (.slice 8#9) (fmtOf (tHd 5#3))) (readF s g sl l (.slice 16#9) (fmtOf (tHd 5#3))))

def divWord : Instr := .fdiv (tHd 5#3) (.slice 0#9) (.slice 8#9) (.slice 16#9) 1#3

/-- 0 over 0 in a group whose invalid trap is enabled: the flag traps, in every lane. -/
theorem witness_FloatTraps :
    (∀ s, exec divWord s = runF divWord s 1#3 1 zeroOverZero) ∧
    Meets divWord (tHere 0#64 (fun g => { g with fpctl := 0x3F01#32 }) id) (fun s g sh m =>
      decide (flagTraps g m (fun l => (zeroOverZero s g g.s0 l).2) ≠ 0#96 ∧ sh.head.uni = false)) :=
  ⟨fun s => (exec_fdiv _ _ _ _ _ s).trans (by unfold execFdiv fltBin divWord zeroOverZero; rfl), meets_of _ _ _ (by decide +kernel)⟩
/-! ### Witnesses: reset, steps, traps, special registers and lazy words -/

/-- A word that a group's slot is at: its state lets it issue, its eight bytes decode in their class, and no engine fault is due. -/
theorem witness_StepRunsSlotWord :
    let s := State.reset.withFetchWord 64 0x08DDC28059FFC0C0
    let n := { noteWaits s with turns := [] }
    let u := startTurn n (.slot 0 false)
    s.turns = [.go (.slot 0 false)] ∧ s.tripped = false ∧ slotProbes n 0 false = false ∧ agentReady n (.slot 0 false) = true ∧ dueFault u 0 false = none ∧
      (u.group? 0).any fun g => decide ((fetchGroup u g (g.slot false).pc).2.toOption = some 0x08DDC28059FFC0C0#64 ∧ (g.slot false).left = 1 ∧
          ((decode (g.slot false).cls 0x08DDC28059FFC0C0#64).toOption).isSome = true) := by decide +kernel

/-- A header, a word of no instruction, and a fetch that does not translate. -/
theorem witness_StepRunsSlotWord_others :
    (let s := State.reset.withFetchWord 64 0xFC08800000000000
     let n := { noteWaits s with turns := [] }
     let u := startTurn n (.slot 0 false)
     slotProbes n 0 false = false ∧ agentReady n (.slot 0 false) = true ∧ dueFault u 0 false = none ∧
      (u.group? 0).any fun g => decide ((g.slot false).left = 0 ∧ (fetchGroup u g (g.slot false).pc).2.toOption = some 0xFC08800000000000#64 ∧
          (decodeHeader 0xFC08800000000000#64).toOption.isSome = true)) ∧
    (let s := State.reset.withFetchWord 64 0xCA1DC00000000001
     let n := { noteWaits s with turns := [] }
     let u := startTurn n (.slot 0 false)
     slotProbes n 0 false = false ∧ agentReady n (.slot 0 false) = true ∧
      (u.group? 0).any fun g => decide ((g.slot false).left = 1 ∧ (fetchGroup u g (g.slot false).pc).2.toOption = some 0xCA1DC00000000001#64 ∧
          (decode (g.slot false).cls 0xCA1DC00000000001#64).toOption = none)) ∧
    (let s := { State.reset.withFetchWord 64 0 with cores := [] }
     let n := { noteWaits s with turns := [] }
     let u := startTurn n (.slot 0 false)
     slotProbes n 0 false = false ∧ agentReady n (.slot 0 false) = true ∧
      (u.group? 0).any fun g => decide ((fetchGroup u g (g.slot false).pc).2.toOption = none)) ∧
    -- a blocked word's turn; a slot that may not issue; a path that began at a page that did not translate
    (slotProbes (noteWaits (tHere 0#64 (fun g => { g with s0 := { g.s0 with wait := .other } }) id)) 0 false = true) ∧
    (let n := noteWaits (tHere 0#64 (fun g => { g with s0 := { g.s0 with wait := .parked 0 6#32 } }) id)
     slotProbes n 0 false = false ∧ agentReady n (.slot 0 false) = false) ∧
    (let n := noteWaits (tHere 0xFC08800000000000#64 (fun g => { g with s0 := { g.s0 with left := 0, afterJoin := true } }) id)
     slotProbes n 0 false = false ∧ agentReady n (.slot 0 false) = true) := by decide +kernel

/-- A program of a matrix sequencer at a word of its class, at one of none, and at one that does not translate. -/
theorem witness_StepRunsPrograms :
    (let s := State.reset.withFetchWord 128 (0xFD20000000000000 + 0x4200000000000000 * 2 ^ 64)
     s.turns = [.go (.prog 0)] ∧ s.tripped = false ∧ progReady (noteWaits s) 0 = true ∧
      (s.prog? 0).any fun p => decide (p.left = 1 ∧
        (fetchAt { s with turns := [], now := 1#64, cur := .prog 0 } p.die p.core p.tenant false p.pc).2.toOption = some 0x4200000000000000#64 ∧
        (decode p.cls 0x4200000000000000#64).toOption.isSome = true)) ∧
    (let s := { State.reset.withFetchWord 128 (0xFD20000000000000 + 0x4200000000000000 * 2 ^ 64) with cores := [] }
     progReady (noteWaits s) 0 = true ∧
      (s.prog? 0).any fun p => decide ((fetchAt { s with turns := [], now := 1#64, cur := .prog 0 } p.die p.core p.tenant false p.pc).2.toOption = none)) ∧
    (decode 2#3 0x42FFFFFFFFFFFFFF#64).toOption = none ∧
    ({ State.reset with turns := [.ev .resetBoot] } : State).turns = .ev .resetBoot :: [] := by decide +kernel

/-- The boot's stages are states, and a tripped state has a next step. -/
theorem witness_BootAndTrip :
    ({ State.reset with boot := .images 3 } : State).boot = .images 3 ∧ ({ State.reset with boot := .diesUp } : State).tripped = false ∧
    (∃ t, step { State.reset with tripped := true, turns := [.go .none, .ev .resetBoot] } = .next t) ∧
    ∃ t, step { State.reset with tripped := true, turns := [.ev .resetBoot] } = .next t := by
  refine ⟨rfl, rfl, ⟨_, rfl⟩, ⟨_, rfl⟩⟩

/-- A state with the form of memory and a step. -/
theorem witness_EveryStepKeepsMemoryForm :
    State.reset.Inv ∧ ∃ t, step { State.reset with turns := [.tick 1] } = .next t :=
  ⟨⟨by decide +kernel, by simp [State.reset], List.nodup_nil⟩, _, rfl⟩

/-- An instruction with each form of the round trips. -/
theorem witness_RoundTrips :
    (∀ i ∈ [Instr.iadd (tHd 3#3) (.slice 40#9) (.slice 44#9) (.imm 0x1FF#9) true true, .rttSkip (tHu 0#3), .exit (tHd 0#3)],
      i.wf = true ∧ (wordShape i).isSome = true ∧ (encode i).isSome = true) ∧
    (∀ i ∈ [Instr.mma 4#4 1#2 true 3#3 2#4 5#4 0#6, .cld 5#3 1#4 2#4 3#4 4#4 1#3 5#3 0#2, .snop, .send],
      i.wf = true ∧ wordShape i = none ∧ (encode i).isSome = true) ∧
    (Instr.clauseIssue 1#3 15#4 7#3 true).wf = true := by decide +kernel

/-- The kinds of fault that a word's own fields give: a latch of no result, a register beyond the group's, a privileged word; the
matrix unit without a team, and of another team. -/
theorem witness_WordFaultsTrap :
    (∀ p ∈ [(Instr.mov (tHd 5#3) (.slice 0#9) (.latch 3#3), 0x02#8), (.mov (tHd 5#3) (.slice 0#9) (.slice 508#9), 0x04#8),
      (.sysHalt (tHu 0#3) 4#8, 0x03#8)],
      let s := tHere 0#64 (fun g => { g with sup := false, h := 2 }) id
      s.cur = .slot 0 false ∧ (s.group? 0).any fun g => (wordShape p.1).any fun sh => decide (wordFault g (g.slot false) p.1 sh = some p.2)) ∧
    (let s := tHere 0#64 (fun g => { g with team := none }) id
     let i := Instr.mwm (tHd 5#3) (.slice 0#9) 0#3
     (s.group? 0).any fun g => (wordShape i).any fun sh => decide (g.team = none ∧ wordFault g (g.slot false) i sh = none ∧
        usesMatrix i sh = true ∧ g.lanesAt false sh ≠ 0#96)) ∧
    (let s := tHere 0#64 id fun s => { s with quads := [(0, { Quad.reset with mx := { MxUnit.reset with holder := some 8 } })] }
     (s.group? 0).any fun g => decide (g.team = some 7 ∧ (s.quad g.die g.core g.quad).mx.holder = some 8)) ∧ State.reset.cur = .none ∧
    -- a branch to a word that is no header, one to a page that does not translate, and one to a header
    (∀ p ∈ [(2#22, 0), (0x201#22, 1), (4#22, 2)],
      let s := tHere 0xFC08800000000000#64 id fun s => homePuts s 0 0#2 (upFrom 0x1018 8) (wordBytes 0xFC08800000000000#64)
      let i := Instr.bra (tHd 0#3) p.1 0#16 false
      (s.group? 0).any fun g => (wordShape i).any fun sh => decide ((badLanding s g (transfersTo i s g (g.slot false) sh) ≠ 0#96) = (p.2 = 0))) := by
  decide +kernel

/-- A frame of a trap at an addition to v40, and the group in trap mode. -/
def tFrame : Frame :=
  { s0 := (tGroup id).s0, s1 := Slot.reset, faultS1 := false, latches := constLanes 0#512, height := 0, whole := false, res := true, issued := BitVec.allOnes 96 }

def tTrapped (g : Group) : Group :=
  { g with trapMode := true, frame := some tFrame,
           treg := { cause := 0x0A#32, dst := 0#32, inst := 0x08DDC28059FFC0C0#64, pc := 0x1000#80, mask := 5#96 } }

theorem witness_TrapEntry :
    encode (.iadd (tHd 3#3) (.slice 40#9) (.slice 44#9) (.imm 0x1FF#9) true true) = some 0x08DDC28059FFC0C0#64 ∧
    ((tHere 0#64 (fun g => { g with utrap := 0x2000#80 }) id).group? 0).any (fun g => decide (g.trapMode = false ∧ g.utrap ≠ 0#80)) ∧
    ((tHere 0#64 tTrapped id).group? 0).any (fun g => decide (g.trapMode = true)) ∧
    ((tHere 0#64 id id).group? 0).any (fun g => decide (g.utrap = 0#80)) := by decide +kernel

/-- The group is in trap mode, its word issues in either class, and nothing that its handler began is left. -/
def mayReturn : State → Group → Shape → Mask → Bool := fun _ g _ _ =>
  decide (g.trapMode = true ∧ g.uniIssues (tHu 0#3) = true ∧ (g.slot true).owned = 0#96) && g.frame.any fun fr => decide (g.stack.length ≤ fr.height)

/-- rtt and rtt.skip in trap mode, outside it, and where their guard does not let them issue; rtt.sub. -/
theorem witness_ReturnFromTrap :
    (∀ p ∈ [Instr.rtt (tHd 0#3), .rttSkip (tHd 0#3), .rtt (tHu 0#3)].map fun i => (i, mayReturn), Meets p.1 (tHere 0#64 tTrapped id) p.2) ∧
    Meets (.rtt (tHd 0#3)) tPlain (fun _ g _ _ => decide (g.trapMode = false)) ∧
    Meets (.rttSkip { tHu 0#3 with ga := ⟨false, 0#3⟩ }) (tHere 0#64 tTrapped id)
      (fun _ g _ _ => decide (g.uniIssues { tHu 0#3 with ga := ⟨false, 0#3⟩ } = false)) ∧
    Meets (.rttSub (tHd 0#3) (.slice 0#9)) (tHere 0#64 tTrapped id) (fun _ g _ _ => g.frame.any fun fr => (faultShape g fr).any fun fsh =>
      decide (subBits fsh ≠ 0 ∧ subFault (tHd 0#3) g (.slice 0#9) (subBits fsh) = none ∧ (subFault (tHd 0#3) g (.slice 511#9) (subBits fsh)).isSome = true ∧ g.stack.length ≤ fr.height ∧ (g.slot true).owned = 0#96)) :=
  ⟨all_meet (by decide +kernel), meets_of _ _ _ (by decide +kernel), meets_of _ _ _ (by decide +kernel), meets_of _ _ _ (by decide +kernel)⟩

/-- trap and bkpt in issued lanes, where the supervisor does not debug the tenant and where it does. -/
theorem witness_SoftwareTraps : (∀ i ∈ [Instr.trap (tHd 0#3) (.imm 1#9), .bkpt (tHd 0#3) (.ureg 8#8)], Meets i tPlain runs') ∧
    Meets (.bkpt (tHd 0#3) (.imm 1#9)) tPlain (fun s g _ m => decide (m ≠ 0#96 ∧ (s.tenant g.tenant).debug = false)) ∧
    Meets (.bkpt (tHd 0#3) (.imm 1#9)) (tHere 0#64 id fun s => s.setTenant 0 { Tenant.reset with debug := true })
      (fun s g _ m => decide (m ≠ 0#96 ∧ (s.tenant g.tenant).debug = true)) ∧
    (encode (.bkpt (tHd 0#3) (.imm 1#9))).isSome = true :=
  ⟨all_run (by decide +kernel), meets_of _ _ _ (by decide +kernel), meets_of _ _ _ (by decide +kernel), by decide +kernel⟩

/-- The special registers of their own rows: a value in range and one outside it, and a lazy instruction of the group or none. -/
theorem witness_NamedSpecialRegisters :
    (∀ i ∈ [Instr.wrsrFpctl (tHd 5#3) (.imm 5#9), .wrsrFpctl (tHd 5#3) (.imm 6#9), .wrsrFpflags (tHd 5#3) (.imm 63#9), .wrsrUtrap (tHd 5#3) 0#2 (.imm 8#9),
      .wrsrUtrap (tHd 5#3) 0#2 (.imm 4#9), .mfqheadWrite (tHd 5#3) (.imm 1#9), .rdsrFpflags (tHd 5#3) (.slice 0#9), .rdsrClock0 (tHd 5#3) (.slice 0#9)],
      Meets i tPlain runs') ∧
    (tPlain.group? 0).any (fun g => decide (readSrc tPlain g g.s0 0 (.imm 5#9) 32 = 5#32 ∧ readSrc tPlain g g.s0 0 (.imm 6#9) 32 = 6#32 ∧
      setWord80 g.utrap 0 (readSrc tPlain g g.s0 0 (.imm 8#9) 32) = 8#80 ∧ setWord80 g.utrap 0 (readSrc tPlain g g.s0 0 (.imm 4#9) 32) = 4#80)) ∧
    tPlain.lazies = [] :=
  ⟨all_run (by decide +kernel), by decide +kernel, by decide +kernel⟩

theorem witness_SpecialRegisters : ∀ i ∈ [Instr.rdsr (tHd 5#3) (.slice 0#9) 0x000#11, .rdsr (tHd 5#3) (.slice 0#9) 0x120#11, .rdsr (tHd 5#3) (.slice 0#9) 0x064#11,
    .rdsr (tHd 5#3) (.slice 0#9) 0x03F#11, .wrsr (tHd 5#3) 0x022#11 (.imm 3#9), .wrsr (tHd 5#3) 0x00A#11 (.imm 3#9), 
    .wrsr (tHd 5#3) 0x023#11 (.slice 0#9), .wrsr (tHd 5#3) 0x103#11 (.imm 3#9), .wrsr (tHd 5#3) 0x105#11 (.imm 3#9),
    .wrsr (tHd 5#3) 0x10B#11 (.imm 3#9), .wrsr (tHd 5#3) 0x10D#11 (.imm 3#9), .wrsr (tHd 5#3) 0x114#11 (.imm 3#9), .wrsr (tHd 5#3) 0x106#11 (.imm 3#9),
    .wrsr (tHd 5#3) 0x108#11 (.imm 0x0FF#9), .wrsr (tHd 5#3) 0x117#11 (.imm 3#9), .wrsr (tHd 5#3) 0x11A#11 (.imm 3#9), .wrsr (tHd 5#3) 0x11F#11 (.imm 3#9),
    .wrsr (tHd 5#3) 0x110#11 (.imm 3#9), .wrsr (tHd 5#3) 0x107#11 (.imm 3#9), .wrsr (tHd 5#3) 0x120#11 (.imm 23#9)], Meets i tPlain runs' :=
  all_run (by decide +kernel)

/-- The first and last number of every clause about rdsr; the trap bank's in trap mode, with 512 slices and with fewer. -/
theorem witness_ReadSpecialRegister :
    (∀ n ∈ [0x000, 0x001, 0x002, 0x003, 0x004, 0x005, 0x006, 0x007, 0x008, 0x009, 0x00A, 0x00B, 0x00C, 0x00D, 0x00F, 0x011, 0x012, 0x014, 0x017, 0x020, 0x022,
      0x023, 0x030, 0x032, 0x033, 0x034, 0x035, 0x036, 0x037, 0x039, 0x03A, 0x03C, 0x03D, 0x03F, 0x040, 0x060, 0x061, 0x062, 0x063, 0x064, 0x100, 0x103, 0x104, 0x105,
      0x106, 0x107, 0x108, 0x109, 0x10B, 0x10C, 0x10D, 0x10E, 0x110, 0x111, 0x112, 0x114, 0x115, 0x117, 0x118, 0x11A, 0x11B, 0x11C, 0x11D, 0x11F, 0x120],
      Meets (.rdsr (tHd 5#3) (.slice 0#9) (BitVec.ofNat 11 n)) tPlain runs') ∧
    (∀ n ∈ [0x044, 0x047], Meets (.rdsr (tHd 5#3) (.slice 0#9) (BitVec.ofNat 11 n)) (tHere 0#64 (fun g => { tTrapped g with h := 3 }) id)
      fun _ g _ m => decide (m ≠ 0#96 ∧ g.alloc = 512)) ∧
    (∀ n ∈ [0x044, 0x047, 0x048, 0x04F], Meets (.rdsr (tHd 5#3) (.slice 0#9) (BitVec.ofNat 11 n)) (tHere 0#64 (fun g => { tTrapped g with h := 2 }) id)
      fun _ g _ m => decide (m ≠ 0#96 ∧ g.alloc ≠ 512)) :=
  ⟨fun _ h => meets_of _ _ _ (List.all_eq_true.mp (show List.all _ (fun n => meetsB (.rdsr (tHd 5#3) (.slice 0#9) (BitVec.ofNat 11 n)) tPlain runs') = true by decide +kernel) _ h),
    fun _ h => meets_of _ _ _ (List.all_eq_true.mp (show List.all _ (fun n => meetsB (.rdsr (tHd 5#3) (.slice 0#9) (BitVec.ofNat 11 n)) _ _) = true by decide +kernel) _ h),
    fun _ h => meets_of _ _ _ (List.all_eq_true.mp (show List.all _ (fun n => meetsB (.rdsr (tHd 5#3) (.slice 0#9) (BitVec.ofNat 11 n)) _ _) = true by decide +kernel) _ h)⟩

/-- Values outside a register's range. -/
theorem witness_SpecialRegisterRanges :
    (∀ i ∈ [Instr.wrsr (tHd 5#3) 0x022#11 (.imm 0x1FF#9), .wrsr (tHd 5#3) 0x108#11 (.imm 0x1FF#9), .wrsr (tHd 5#3) 0x107#11 (.imm 0x1FF#9)], Meets i tPlain runs') ∧
    (tPlain.group? 0).any (fun g => decide (readSrc tPlain g g.s0 0 (.imm 0x1FF#9) 32 = 0xFFFFFFFF#32)) = true :=
  ⟨all_run (by decide +kernel), by decide +kernel⟩

/-- The trap bank's registers, which only trap mode names. -/
theorem witness_TrapBank : ∀ i ∈ [Instr.wrsr (tHd 5#3) 0x048#11 (.imm 3#9), .wrsr (tHd 5#3) 0x04F#11 (.imm 3#9), .wrsr (tHd 5#3) 0x044#11 (.slice 0#9),
    .wrsr (tHd 5#3) 0x047#11 (.slice 0#9), .rdsr (tHd 5#3) (.slice 0#9) 0x047#11], Meets i (tHere 0#64 tTrapped id) runs' := all_run (by decide +kernel)

/-- A partition command while one is busy. -/
theorem witness_PartitionBusy : Meets (.wrsr (tHd 5#3) 0x120#11 (.imm 0#9))
    (tHere 0#64 id fun s => s.setDie 0 { Die.reset with partbusy := true }) (fun s g _ m => decide (m ≠ 0#96 ∧ (s.die g.die).partbusy = true)) :=
  meets_of _ _ _ (by decide +kernel)

/-- Lanes execute, every view is sound, and no trap is enabled. -/
def soundViews : State → Group → Shape → Mask → Bool := fun _ g _ m =>
  decide (m ≠ 0#96 ∧ (∀ l ∈ List.finRange 96, (g.view l 2#3).count ≤ 48) ∧ trapEnables g = 0#6)

/-- The lazy words, with sound views in every lane and no trap enabled. -/
theorem witness_LazyWordsSettle : ∀ p ∈ ([Instr.lzdraw (tHd 5#3) 2#3 (.ureg 10#8) (.ureg 11#8), .lzcmp (tHd 5#3) 1#3 2#3 (.slice 0#9) false,
    .lzcmp (tHd 5#3) 1#3 2#3 (.slice 0#9) true, .lzcmpExt (tHd 5#3) 2#3 (.imm 4#9), .lzval (tHd 5#3) (.slice 0#9) 2#3 0#3,
    .srnd (tHd 3#3) (.slice 0#9) (.slice 8#9) 2#3 2#3 1#3].map fun i => (i, soundViews)), Meets p.1 tPlain p.2 := all_meet (by decide +kernel)

/-- A lazy instruction that is over. -/
def tLazy : LazyOp :=
  { id := 9, gid := 0, s1 := false, instr := .lzval (tHd 5#3) (.slice 0#9) 2#3 0#3, lanes := 3#96, vals := constLanes 0#64, view := 2#3,
    views := constLanes 0#256, flags := constLanes 0#6, latch := 0#3, hold := true, ctr := 0#2, trap := false }

theorem witness_LazyWordsEnd :
    let s := tHere 0#64 id fun s => { s with lazies := [tLazy] }
    (s.lazies.find? fun o => o.id = 9) = some tLazy ∧ (wordShape tLazy.instr).isSome = true ∧
    (s.group? tLazy.gid).any fun g => decide (g.trapMode = false ∧ g.halted = false ∧ lazyTraps g tLazy = 0#96) &&
      decide (tLazy.lanes &&& (maskOf fun l => decide ({ tLazy with flags := constLanes 1#6 }.flags[l] &&& (0x101#32).extractLsb' 8 6 ≠ 0#6)) ≠ 0#96) := by decide +kernel

/-- A load of a table that may begin, one whose image is not aligned; a load that stands first, and images that translate. -/
theorem witness_TableWords :
    (∀ p ∈ [(0x1000, true), (0x1004, false)], Meets (.tbld (tHd 0#3) 4#8 1#4 4#3) (tHere 0#64 (fun g => { g with k := BitVec.ofNat 5120 (p.1 * 2 ^ 128) }) id)
      fun s g _ m => decide (m ≠ 0#96 ∧ ((readTriple g (g.slot false) 4#8).toNat % 16 = 0) = p.2 ∧ (g.slot false).unfinished = 0#96 ∧
        imageLocked s g 1#4 .g (readTriple g (g.slot false) 4#8) = false)) ∧
    Meets (.tbind (tHd 0#3)) tPlain runs' ∧
    (let w : TblWait := { gid := 0, s1 := false, mask := 1#4, space := .sc, addr := 0#80, ctr := 0#2, agents := 1#96, trap := false, srcs := none }
     let q := { Quad.reset with loads := [w] }
     let s := tHere 0#64 (fun g => { g with bank := Quad.reset.bank }) fun s => { s with quads := [(0, q)] }
     tget s.quads 0 = some q ∧ q.loads = w :: [] ∧ w.srcs = none ∧
      (∀ p ∈ s.groups, quadKey p.2.die p.2.core p.2.quad = 0 → p.2.sup = false → p.2.bindWait = false → p.2.bank = q.bank) ∧
      (s.group? w.gid).any fun g => decide (g.frozen = false) &&
        match loadTables s g w q.tables[bankOf q.bank] (List.finRange 4) with | (_, .ok _) => true | _ => false) :=
  ⟨fun p hp => by
      simp only [List.mem_cons, List.not_mem_nil, or_false] at hp
      rcases hp with rfl | rfl <;> exact meets_of _ _ _ (by decide +kernel),
    meets_of _ _ _ (by decide +kernel), by decide +kernel⟩
/-! ### Witnesses: memory, rings and futures -/

/-- A lane's access is at slices 0 and up, or at k4 to k6; the scratchpad is the space. -/
theorem witness_MemoryWordsIssue : ∀ i ∈ [Instr.ld (tHd 5#3) (.slice 64#9) (.slice 0#9) (.slice 32#9) 1#3 0#2 0x7FF#11,
    .ld (tHu 5#3) (.ureg 8#8) (.ureg 4#8) (.imm 0#9) 1#3 0#2 0#11, .st (tHd 5#3) (.slice 0#9) (.slice 32#9) 1#3 0#2 0#11,
    .ldu (tHd 5#3) (.slice 64#9) (.ureg 4#8) 1#3 0#2 0x3F#6, .gth (tHd 5#3) (.slice 64#9) (.slice 0#9) (.slice 32#9) 1#3 0#2 0#6,
    .sct (tHd 5#3) 64#9 (.slice 0#9) (.slice 32#9) 1#3 0#2 0#6, .atom (tHd 5#3) (.slice 64#9) (.slice 0#9) (.slice 32#9) 1#3 0#2 9#6,
    .atom (tHd 7#3) (.slice 64#9) (.slice 0#9) (.slice 32#9) 1#3 0#2 1#6, .atomo (tHd 5#3) (.slice 64#9) (.slice 0#9) (.slice 32#9) 0#2 1#6,
    .spill (tHd 0#3) 7#9 (.ureg 4#8) 64#9 0#2 0#6, .fill (tHd 0#3) 7#9 (.ureg 4#8) 64#9 0#2 0#6, .fence (tHd 0#3) 14#4 14#4 2#3,
    .pref (tHd 5#3) (.slice 0#9) (.slice 32#9) 4#3 0#2 0#6, .cmntWb (tHd 5#3) (.slice 0#9) (.slice 32#9) 4#3 0#6, .cmntInv (tHd 5#3) (.slice 0#9) (.slice 32#9) 4#3 0#6,
    .cmntL2wb (tHd 5#3) (.slice 0#9) (.slice 32#9) 4#3 0#6, .cmntL2inv (tHd 5#3) (.slice 0#9) (.slice 32#9) 4#3 0#6, .atomoFin (tHd 5#3),
    .ringPush (tHd 5#3) 4#8 (.slice 0#9) 1#3 0#2, .ringPop (tHd 5#3) (.slice 64#9) 4#8 1#3 0#2, .futFill (tHd 7#3) (.slice 0#9) (.slice 32#9) 1#3 0#2,
    .futWait (tHd 7#3) (.slice 64#9) (.slice 0#9) 1#3 0#2], Meets i tPlain runs' := all_run (by decide +kernel)

theorem witness_MemoryWordsIssue_conditions :
    (tPlain.group? 0).any (fun g => decide (g.region = none ∧ BitVec.allOnes 96 &&& g.retiredIdx = 0#96)) ∧ tPlain.fences = [] ∧
    (tPlain.group? 0).any (fun g => decide (fenceWaits tPlain 0 (BitVec.allOnes 96) 14#4 = [] ∧ fenceMore tPlain g 14#4 2#3 = [])) ∧
    Meets (.atomoFin (tHd 5#3)) (tHere 0#64 (fun g => { g with retiredIdx := 1#96 }) id) (fun _ g _ m => decide (m &&& g.retiredIdx ≠ 0#96)) :=
  ⟨by decide +kernel, by decide +kernel, by decide +kernel, meets_of _ _ _ (by decide +kernel)⟩

/-- A request of the lanes of `m` at addresses that rise by `n` from `a`. -/
def tReq (op : MemOp) (sp : Space) (w : BitVec 3) (m : Mask) (a n : Nat) : MemReq :=
  { id := 5, instr := .nop (tHd 0#3), op := op, space := sp, w := w, pol := 0#2, dst := none, latch := none, res := false, once := none, ctr := 0#2,
    base := constLanes 0#80, ea := Vector.ofFn fun l : Lane => BitVec.ofNat 80 (a + n * l.val), data := constLanes 7#64, data2 := constLanes 0#64,
    wide := constLanes 0#2048, issued := m, agents := m, ring := none, touched := false, seen := [], acked := false }

/-- No trap; the address range at its end; an alignment; a range lock. -/
theorem witness_AccessChecks :
    (tPlain.group? 0).any (fun g => decide (memTrap tPlain g (tReq .load .sc 5#3 (BitVec.allOnes 96) 0 4) 4 1 (some false) (BitVec.allOnes 96) = none ∧
      memTrap tPlain g (tReq .load .sc 5#3 3#96 4088 4) 4 1 (some false) 3#96 = none ∧
      memTrap tPlain g (tReq .load .sc 5#3 3#96 4092 4) 4 1 (some false) 3#96 = some (0x07#8, 2#96) ∧
      memTrap tPlain g (tReq (.atomic 1#6) .sc 5#3 3#96 2 2) 4 4 (some true) 3#96 = some (0x08#8, 1#96))) ∧
    (let s := tHere 0#64 id fun s => s.setCore 0 0 { CoreSt.reset with
       rlt := [{ owner := .copy 3, tenant := 0, space := .sc, lo := 4, len := 4, write := true }] }
     (s.group? 0).any fun g => decide (memTrap s g (tReq .load .sc 5#3 3#96 0 4) 4 1 (some false) 3#96 = some (0x09#8, 2#96))) := by decide +kernel

theorem witness_ScratchpadStoresIssue :
    (tPlain.group? 0).any (fun g => decide ((tPlain.teamOf g).isSome = true)) ∧
    (let r := tReq .store .sc 5#3 (BitVec.allOnes 96) 0 4
     r.op = .store ∧ r.space = .sc ∧ r.once = none ∧ r.issued ≠ 0#96 ∧ 8 ≤ wBits r.w) := by decide +kernel

def tStore (sp : Space) (keys : List Nat) (bytes : List Byte) : StoreRec :=
  { id := 11, parent := 10, gid := 0, agents := 1#96, die := 0, core := 0, tenant := 0, space := sp, pol := 0#2, keys := keys, bytes := bytes, s1 := false,
    trap := false, va := 0#80, ctr := 0#2, mse := [], reserve := [] }

/-- A store to DRAM, one to another module, and one to private memory in a core with an L1. -/
theorem witness_StoresReachHome :
    (let r := tStore .g [64, 65] [1#8, 0#8]
     let s := { tPlain with stores := [r] }
     (s.stores.find? fun x => x.id = 11) = some r ∧ storeDue s r = true ∧ Memory.wf s.mem = true ∧ (∀ e ∈ s.l2, e.line < 2 ^ 45) ∧ (s.l2.map L2Line.line).Nodup ∧ r.keys.Nodup ∧
      r.bytes.length = r.keys.length ∧ isRemote r.keys = false ∧ ¬(r.space = .lp ∧ hasL1 s r.die r.core = true)) ∧
    (let r := tStore .g [3 * 2 ^ 52] [1#8]
     storeDue { tPlain with stores := [r] } r = true ∧ isRemote r.keys = true) ∧
    (let r := tStore .lp [64] [1#8]
     let s := { tPlain with stores := [r] }
     storeDue s r = true ∧ isRemote r.keys = false ∧ r.space = .lp ∧ hasL1 s r.die r.core = true) := by decide +kernel

def tAcc (op : MemOp) (sp : Space) (keys : List Nat) : Acc :=
  { id := 11, parent := 10, gid := 0, agents := 1#96, die := 0, core := 0, tenant := 0, op := op, space := sp, w := 5#3, pol := 0#2, keys := keys,
    off := 0, data := 7#64, data2 := 0#64, ctr := 0#2, mse := [], reserve := [], inReserve := false, got := [], admitted := false, rejected := false, age := 0, idx := 0#128,
    grid := 3, s1 := false, trap := false, va := 0#80 }

/-- An atomic, an ordered one whose index is the floor, a load that may perform, one behind an earlier atomic, and an atomic to another
module. -/
theorem witness_AtomicsAndLoads :
    (let a := tAcc (.atomic 1#6) .g [64, 65, 66, 67]
     let s := { tPlain with accs := [a] }
     (s.accs.find? fun x => x.id = 11) = some a ∧ accDue s a = true ∧ s.flits = [] ∧ isRemote a.keys = false ∧ Memory.wf s.mem = true ∧ (∀ e ∈ s.l2, e.line < 2 ^ 45) ∧ (s.l2.map L2Line.line).Nodup ∧ a.keys.Nodup ∧
      a.keys.length = wBits a.w / 8 ∧ wBits a.w = 32) ∧
    (let a := { tAcc (.ordered 1#6) .g [64, 65, 66, 67] with admitted := true }
     accDue { tPlain with accs := [a], grids := [(3, { noGrid with floor := some 0#128 })] } a = true) ∧
    (let a := tAcc .load .sc [2 ^ 56, 2 ^ 56 + 1, 2 ^ 56 + 2, 2 ^ 56 + 3]
     let s := { tPlain with accs := [a] }
     accDue s a = true ∧ (∀ k ∈ a.keys, 2 ^ 56 ≤ k) ∧ s.stores = [] ∧ s.held = []) ∧
    (let a := tAcc .load .g [64]
     accDue { tPlain with accs := [{ tAcc (.atomic 1#6) .g [64] with id := 10, parent := 9 }, a] } a = false) ∧
    (let a := tAcc (.atomic 1#6) .g [3 * 2 ^ 52]
     accDue { tPlain with accs := [a] } a = true ∧ isRemote a.keys = true) := by decide +kernel

/-- A dirty line of L1 and one of the L2. -/
theorem witness_WriteBacks :
    let e : L1Line := { line := 1, way := 7, valid := 15#4, dirty := 1#4, data := 9#1024, tenant := 0, lp := false, owner := (0, 0#96), stamp := 0 }
    let f : L2Line := { line := 1, die := 0, slice := 1, way := 0, valid := 15#4, dirty := 1#4, mask := 1#128, data := 9#1024, tenant := 0, kept := false, rewritten := 0#128,
                        stamp := 0 }
    let s : State := { State.reset with l2 := [f], cores := [(0, { CoreSt.reset with l1 := [e] })] }
    Memory.wf s.mem = true ∧ (∀ x ∈ s.l2, x.line < 2 ^ 45) ∧ (s.l2.map L2Line.line).Nodup ∧ s.l1Line? 0 0 1 = some e ∧ State.reset.l1Line? 0 0 1 = none := by decide +kernel

/-- Ordered atomics that are not admitted, in an empty slice and in one with 63 entries, of the floor's index and of another; a
group with no retired index; a grid whose floor may move; leases that have run out and that have not. -/
theorem witness_OrderedAtomicsAndLeases :
    let a := tAcc (.ordered 1#6) .g [64, 65, 66, 67]
    let full := (List.range 63).map fun n => { a with id := 100 + n, idx := BitVec.ofNat 128 (n + 1), admitted := true }
    let s0 := { tPlain with accs := [a], grids := [(3, noGrid)] }
    let s1 := { tPlain with accs := a :: full, grids := [(3, { noGrid with floor := some 0#128 })] }
    let here := fun s : State => s.accs.filter fun x => x.admitted && decide (accSlice s x = accSlice s a)
    (here s0).length < 63 ∧ s0.floorOf a.grid ≠ some a.idx ∧ (here s1).length = 63 ∧ s1.floorOf a.grid = some a.idx ∧
    (¬ ∃ x ∈ here s1, x.grid = a.grid ∧ x.idx = a.idx) ∧ { s1 with grids := [] }.floorOf a.grid ≠ some a.idx ∧
    noGrid.late = [] ∧ noGrid.digests = [] ∧ noGrid.again = none ∧ (computeFloor s0 3 noGrid).isSome = true ∧
    (let l : Lease := { line := 4, die := 1, expiry := 20, copy := true, data := 0#1024, slice := 0, way := 0, tenant := 0, kept := false, stamp := 0 }
     (∃ x ∈ [l], x.line = 4 ∧ State.reset.now.toNat < x.expiry) ∧ ∀ x ∈ [{ l with expiry := 0 }], x.line = 4 → x.expiry ≤ State.reset.now.toNat) := by
  decide +kernel

/-- A ring of two slots at the start of the team's scratchpad, whose array begins at 256: counters n, n, n, n but for the ends. -/
def tRing (pushRes tail popRes head : Nat) : Memory :=
  [(2 ^ 56 + 1, 1#8), (2 ^ 56 + 10, 1#8), (2 ^ 56 + 12, 0x80#8), (2 ^ 56 + 13, 1#8)] ++
    (([(16, pushRes), (20, tail), (24, popRes), (28, head)].filter fun p => p.2 ≠ 0).map fun p => (2 ^ 56 + p.1, BitVec.ofNat 8 p.2))

/-- A group whose slot waits in a ring word. -/
def tRingState (m : Memory) (w : SlotWait) (r : MemReq) : State :=
  tHere 0#64 (fun g => { g with s0 := { g.s0 with wait := w, req := some r } }) fun s => { s with mem := m }

/-- A ring that is sound and one that is not; a push that has room, one that has none, and one that has written its slot and may
publish; a pop with data, one without, and one that may publish. -/
theorem witness_Rings :
    let push := tReq .ringPush .sc 5#3 (BitVec.allOnes 96) 0 0
    let pop := tReq .ringPop .sc 5#3 (BitVec.allOnes 96) 0 0
    let q := fun (s : State) (r : MemReq) (p : State → List Nat → Ring → Bool) => (s.group? 0).any fun g =>
      match ringKeys s g r with
      | (s', .ok ks) => p s' ks (Ring.ofBytes (ks.map (homeByte s')))
      | _ => false
    let bad := fun x : Ring => x.log > 20 ∨ x.size = 0 ∨ x.size < 96 * 4 ∨ x.zero ≠ 0#8
    q (tRingState [] .ready push) push (fun _ _ x => decide (bad x)) = true ∧
    q (tRingState (tRing 0 0 0 0) .ready push) push (fun s' _ x => (s'.group? 0).any fun g => decide (¬ bad x ∧
      inSpace s' (s'.teamOf g) g.die g.grid .sc x.base (2 ^ x.log * x.size) = true ∧
      lockHit s' g.die g.core g.tenant true .sc x.base (2 ^ x.log * x.size) = false)) = true ∧
    q (tRingState (tRing 2 1 0 0) (.ringPush 1#32) push) push (fun _ _ x => decide ((1#32 - x.head).toNat < 2 ^ x.log)) = true ∧
    q (tRingState (tRing 3 2 0 0) (.ringPush 2#32) push) push (fun _ _ x => decide (¬ (2#32 - x.head).toNat < 2 ^ x.log)) = true ∧
    q (tRingState (tRing 2 1 0 0) (.ringPush 1#32) { push with touched := true }) { push with touched := true }
      (fun s' _ x => decide (x.tail = 1#32 ∧ released s' 0 0 (BitVec.allOnes 96) (naturalScope .sc) 5 = true)) = true ∧
    q (tRingState (tRing 1 1 1 0) (.ringPop 0#32) pop) pop (fun _ _ x => decide (0 < (x.tail - 0#32).toInt)) = true ∧
    q (tRingState (tRing 0 0 1 0) (.ringPop 0#32) pop) pop (fun _ _ x => decide (¬ 0 < (x.tail - 0#32).toInt)) = true ∧
    q (tRingState (tRing 1 1 1 0) (.ringPop 0#32) { pop with touched := true }) { pop with touched := true } (fun _ _ x => decide (x.head = 0#32)) = true := by
  decide +kernel

/-- Futures of three lanes: one of them full, and none; a wait for full ones and for an empty one; a request of a slot that may try again. -/
theorem witness_Futures :
    let r := tReq .futWait .sc 7#3 7#96 0 8
    let some' := { tPlain with mem := [(2 ^ 56 + 15, 0x80#8)] }
    let all := { tPlain with mem := [(2 ^ 56 + 7, 0x80#8), (2 ^ 56 + 15, 0x80#8), (2 ^ 56 + 23, 0x80#8)] }
    let x := fun (s : State) (p : State → Xlated → Bool) => (s.group? 0).any fun g =>
      let t := xlateLanes s g .sc .atomic r.ea 8 (lanesOf 7#96)
      p t.1 t.2
    let full := fun (s : State) (ks : List Nat) => (BitVec.ofNat 64 (natOfBytes (ks.map (homeByte s)))).getLsbD 63
    x some' (fun s y => decide ((∃ p ∈ y.keys, full s p.2 = true) ∧ (∀ p ∈ y.keys, p.1 < 96) ∧
      y.keys.Pairwise fun p q => p.1 ≠ q.1 ∧ p.2 ≠ q.2)) = true ∧
    x tPlain (fun s y => decide ((∀ p ∈ y.keys, full s p.2 = false) ∧ y.keys.Pairwise (fun p q => p.2 ≠ q.2)) && y.first.isNone) = true ∧
    ((all.group? 0).any fun g => (futCheck all 0 false g r).2.any fun ks => ks.all fun p => full all p.2) = true ∧
    ((some'.group? 0).any fun g => (futCheck some' 0 false g r).2.any fun ks => ks.any fun p => !full some' p.2) = true ∧
    (let s := tRingState [] .pending r
     (s.group? 0).any fun g => decide (g.halted = false ∧ g.saving = false ∧ (g.slot false).wait = .pending ∧ (g.slot false).req = some r)) := by
  decide +kernel
/-! ### Witnesses: control, tasks and regions -/

/-- At 0x1000 a header, at 0x1010 a join, and at 0x1018 another header; private memory has its own pages from 2^40 on. -/
def tCode (s : State) : State :=
  let s := homePuts s 0 0#2 (upFrom 0x1010 8) (wordBytes joinWord)
  let s := homePuts s 0 0#2 (upFrom 0x1018 8) (wordBytes 0xFC08800000000000#64)
  let c := s.core 0 0
  s.setCore 0 0 { c with tlb := c.tlb ++ [{ wordEntry with base := 2 ^ 40, log2 := 32, phys := 2 ^ 33 }] }

/-- Two lanes, of which p0 holds in the first; slice 0 holds 8 in the first and `b` in the other. -/
def tTwo (b : Nat) (g : Group) : Group :=
  { g with s0 := { g.s0 with owned := 3#96, mask := 3#96 }, preds := g.preds.set 0 1#96, lpbase := BitVec.ofNat 80 (2 ^ 40),
           slices := (constLanes (BitVec.ofNat 2048 b)).set 0 8#2048 }

def tControl (b : Nat) (f : Group → Group) : State := tHere 0xFC08800000000000#64 (fun g => f (tTwo b g)) tCode

/-- A long stack. -/
def tDeep (g : Group) : Group := { g with stack := List.replicate 16336 (joinEntry g 0#80 0#96) }

/-- Branches: to a header, to another word and to a page that does not translate, of all lanes, of none and of some, with a join and without one, and on a full stack. -/
theorem witness_Branches :
    (let dest := fun (g : Group) (n : BitVec 22) => (g.slot false).header + 8#80 * n.signExtend 80
     (∀ p ∈ [(tHn 0#3, 1#22, 0#16, fun (s : State) (g : Group) (sh : Shape) (_ : Mask) => decide (trapLanes g g.s0 sh = 1#96 ∧
          landing s g (dest g 1#22) = .header)),
        (tHd 0#3, 2#22, 0#16, fun s g sh _ => decide (trapLanes g g.s0 sh = 3#96 ∧ landing s g (dest g 2#22) = .bad)),
        (tHd 0#3, 0x201#22, 0#16, fun s g sh _ => decide (trapLanes g g.s0 sh = 3#96) && match landing s g (dest g 0x201#22) with | .fault _ => true | _ => false),
        (tHn 0#3, 1#22, 1#16, fun s g _ _ => decide (joinsAt s g (g.s0.header + 8#80) = false)),
        (tHn 0#3, 1#22, 2#16, fun s g _ _ => decide (joinsAt s g (g.s0.header + 16#80) = true ∧ g.stack.length + 1 ≤ 16336 ∧ g.s1.owned = 0#96)),
        (tHd 0#3, 1#22, 0#16, fun _ g sh _ => decide (trapLanes g g.s0 sh = 3#96 ∧ g.s0.mask &&& ~~~3#96 = 0#96))],
        Meets (.bra p.1 p.2.1 p.2.2.1 false) (tControl 8 id) p.2.2.2) ∧
     Meets (.bra (tHn 0#3) 1#22 0#16 false) (tControl 8 fun g => { g with preds := Vector.replicate 7 0#96 }) (fun _ g sh _ => decide (trapLanes g g.s0 sh = 0#96)) ∧
     Meets (.bra (tHn 0#3) 1#22 0#16 false) (tControl 8 fun g => { g with s1 := { g.s1 with owned := 4#96, mask := 4#96 } }) (fun _ g _ _ => decide (g.s1.owned ≠ 0#96))) ∧
    ∀ g, (tDeep g).stack.length = 16336 :=
  ⟨⟨fun p hp => by
      simp only [List.mem_cons, List.not_mem_nil, or_false] at hp
      rcases hp with rfl | rfl | rfl | rfl | rfl | rfl <;> exact meets_of _ _ _ (by decide +kernel),
    meets_of _ _ _ (by decide +kernel), meets_of _ _ _ (by decide +kernel)⟩, fun _ => List.length_replicate⟩

theorem witness_UniformBranches :
    Meets (.braUniform (tHu 1#3) 1#22 0#16 false) (tControl 8 id) (fun s g _ _ => decide (g.uniIssues (tHu 0#3) = true ∧ landing s g (g.s0.header + 8#80) = .header)) ∧
    Meets (.braUniform (tHd 1#3) 2#22 0#16 false) (tControl 8 id) (fun s g _ _ => decide (g.s0.mask ≠ 0#96 ∧ landing s g (g.s0.header + 16#80) = .bad)) ∧
    Meets (.braUniform { tHu 1#3 with ga := ⟨false, 0#3⟩ } 1#22 0#16 false) (tControl 8 id) (fun _ g _ _ => decide (g.uniIssues { tHu 0#3 with ga := ⟨false, 0#3⟩ } = false)) ∧
    Meets (.brx (tHd 0#3) (.slice 0#9) 0#16 false false) (tControl 8 id) (fun s g _ _ => decide (∀ l ∈ [(0 : Lane), 1],
      g.s0.header + (readSrc s g g.s0 l (.slice 0#9) 32).signExtend 80 = 0x1000#80 ∧ landing s g 0x1000#80 = .header)) ∧
    Meets (.brx (tHd 0#3) (.slice 0#9) 2#16 false false) (tControl 0x20 id) (fun s g sh _ => decide ((splitClasses g.s0
      (fun l => g.s0.header + (readSrc s g g.s0 l (.slice 0#9) 32).signExtend 80) (trapLanes g g.s0 sh) 0x1008#80).length = 2 ∧
      landing s g 0x1018#80 = .header ∧ joinsAt s g 0x1008#80 = true)) ∧
    Meets (.brx (tHd 0#3) (.slice 0#9) 0#16 false false) (tControl 0x10 id) (fun s g _ _ => decide (landing s g 0x1008#80 = .bad)) ∧
    Meets (.brx (tHn 0#3) (.slice 0#9) 0#16 false false) (tControl 8 fun g => { g with preds := Vector.replicate 7 0#96 }) (fun _ g sh _ => decide (trapLanes g g.s0 sh = 0#96)) :=
  ⟨meets_of _ _ _ (by decide +kernel), meets_of _ _ _ (by decide +kernel), meets_of _ _ _ (by decide +kernel), meets_of _ _ _ (by decide +kernel),
    meets_of _ _ _ (by decide +kernel), meets_of _ _ _ (by decide +kernel), meets_of _ _ _ (by decide +kernel)⟩

/-- An entry of the reconvergence stack for this clause. -/
def tJoin (g : Group) (expected : Mask) : Reconv := joinEntry g 0xFF8#80 expected

/-- Joins: with no entry, in the middle of a clause, with an entry under another, and with the last lanes while the other slot has its own. -/
theorem witness_Joins :
    Meets .join (tControl 8 id) (fun _ g _ _ => decide (g.s0.pos = 0 ∧ g.stack = [])) ∧
    Meets .join (tControl 8 fun g => { g with stack := [joinEntry g 0#80 0#96, tJoin g 7#96] }) (fun _ g _ _ => decide (g.s0.pos = 0 ∧
      g.stack = [joinEntry g 0#80 0#96] ++ tJoin g 7#96 :: [] ∧ (joinEntry g 0#80 0#96).join ≠ some g.s0.header ∧ (tJoin g 7#96).expected &&& g.s0.owned ≠ 0#96)) ∧
    Meets .join (tControl 8 fun g => { g with stack := [{ tJoin g 7#96 with arrived := 4#96 }], s1 := { g.s1 with owned := 8#96 } }) (fun _ g _ _ =>
      decide (g.s1.owned ≠ 0#96) && g.stack.all fun e => decide (e.path = 0#96 ∧ e.expected &&& ~~~(e.arrived ||| g.s0.owned) = 0#96 ∧
        g.s0.owned &&& ~~~e.expected = 0#96)) :=
  ⟨meets_of _ _ _ (by decide +kernel), meets_of _ _ _ (by decide +kernel), meets_of _ _ _ (by decide +kernel)⟩

theorem witness_WaitsAndBarriers :
    (∀ i ∈ [Instr.yield (tHd 0#3), .sleep (tHd 0#3) (.imm 5#9), .barArrive (tHd 0#3) (.imm 15#9) (.imm 1#9), .barWait (tHd 0#3) (.imm 0#9),
      .barSync (tHd 0#3) (.imm 15#9) (.imm 0#9)], Meets i tPlain runs') ∧
    (tget tPlain.teams 7).any (fun t => decide (teamSize tPlain t = 1 ∧ t.bars[15].arrivals = 0)) ∧
    (tPlain.group? 0).any (fun g => decide (g.team = some 7 ∧ tget g.s0.arrived 0 = none ∧ (readSrc tPlain g g.s0 0 (.imm 15#9) 32).toNat = 15)) ∧
    Meets (.barWait (tHd 0#3) (.imm 0#9)) (tHere 0#64 (fun g => { g with s0 := { g.s0 with arrived := [(0, false)] } }) id)
      (fun _ g _ _ => decide ((tget g.s0.arrived 0).isSome = true)) ∧
    Meets (.barArrive (tHd 0#3) (.imm 0#9) (.imm 2#9)) tPlain (fun s g _ _ => decide ((readSrc s g g.s0 0 (.imm 2#9) 32).toNat = 2)) ∧
    (let full : Team := { tTeam with bars := tTeam.bars.set 0 { phase := false, arrivals := 1, expected := 1, all := false } }
     tget { tPlain with teams := [(7, full)] }.teams 7 = some full ∧ 0 < full.bars[0].arrivals ∧ full.bars[0].expected ≤ full.bars[0].arrivals) :=
  ⟨all_run (by decide +kernel), by decide +kernel, by decide +kernel, meets_of _ _ _ (by decide +kernel), meets_of _ _ _ (by decide +kernel), by decide +kernel⟩

/-- Calls of all lanes, of one of two, of none, to two targets, and from a clause that does not name its own end; frames translate. -/
theorem witness_Calls :
    (∀ p ∈ [(Instr.call (tHd 0#3) 1#22 2#16 false, 3#96), (.call (tHn 0#3) 1#22 2#16 false, 1#96), (.callUniform (tHu 1#3) 1#22 2#16 false, 3#96),
        (.callx (tHd 0#3) (.slice 0#9) 2#16 false false, 3#96)], Meets p.1 (tControl 0x20 id) fun s g _ _ =>
      decide (g.s0.header + 8#80 * 2#80 = g.s0.pc + 8#80 ∧ landing s g 0x1000#80 = .header ∧ landing s g 0x1018#80 = .header ∧ joinsAt s g 0x1008#80 = true ∧
        (∀ l ∈ [(0 : Lane), 1], g.cdepth[l].toNat < 4096) ∧ g.stack.length + 2 ≤ 16336 ∧ (pushFrames s 0 false g p.2 0x1008#80).2 = false)) ∧
    Meets (.call (tHd 0#3) 1#22 1#16 false) (tControl 8 id) (fun _ g _ _ => decide (g.s0.header + 8#80 * 1#80 ≠ g.s0.pc + 8#80)) ∧
    Meets (.call (tHn 0#3) 1#22 2#16 false) (tControl 8 fun g => { g with preds := Vector.replicate 7 0#96 }) (fun _ g sh _ => decide (trapLanes g g.s0 sh = 0#96)) :=
  ⟨fun p hp => by
      simp only [List.mem_cons, List.not_mem_nil, or_false] at hp
      rcases hp with rfl | rfl | rfl | rfl <;> exact meets_of _ _ _ (by decide +kernel),
    meets_of _ _ _ (by decide +kernel), meets_of _ _ _ (by decide +kernel)⟩

/-- A return of both lanes to the address in their frames, and exits. -/
theorem witness_ReturnsAndExits :
    Meets (.ret (tHd 0#3)) (tHere 0xFC08800000000000#64 (fun g => { tTwo 8 g with cdepth := constLanes 1#13 })
      fun s => homePuts (tCode s) 0 0#2 [10187964417, 10187964421] [0x10#8, 0x10#8]) (fun s g _ _ =>
      decide (g.issuedLanes g.s0 (tHd 0#3) = g.s0.mask ∧ (∀ l ∈ [(0 : Lane), 1], g.cdepth[l] ≠ 0#13)) &&
        (let r := frameKeys s 0 false g .read (fun l => g.cdepth[l].toNat - 1) 10 3#96
         let v := r.2.1.foldl (fun x p => p.2.foldl (fun x k => fetchFor x g.die g.core g.tenant .lp 0#2 k) x) r.1
         decide (r.2.2 = false ∧ landing v g 0x1000#80 = .header) && [0, 1].all fun l => (tget r.2.1 l).any fun k =>
           decide (BitVec.ofNat 80 (natOfBytes (lpBytes v g.die g.core k)) = 0x1000#80))) ∧
    Meets (.ret (tHn 0#3)) (tControl 8 fun g => { g with preds := Vector.replicate 7 0#96 }) (fun _ g _ _ => decide (g.issuedLanes g.s0 (tHn 0#3) = 0#96)) ∧
    (∀ i ∈ [Instr.exit (tHd 0#3), .exitUniform (tHu 0#3)], Meets i tPlain fun _ g _ _ => decide (g.trapMode = false ∧ g.region = none)) ∧
    Meets (.exit (tHd 0#3)) (tHere 0#64 tTrapped id) (fun _ g _ _ => decide (g.trapMode = true)) ∧
    (∃ g, (exitLanes tPlain 0 false 1#96).group? 0 = some g) :=
  ⟨meets_of _ _ _ (by decide +kernel), meets_of _ _ _ (by decide +kernel), fun i hi => by
      simp only [List.mem_cons, List.not_mem_nil, or_false] at hi
      rcases hi with rfl | rfl <;> exact meets_of _ _ _ (by decide +kernel),
    meets_of _ _ _ (by decide +kernel), Option.isSome_iff_exists.mp (by decide +kernel)⟩

/-- An open region that began at this word and has written row 0. -/
def tRegion (g : Group) : Region :=
  { pc := g.s0.pc, header := g.s0.header, cls := g.s0.cls, left := g.s0.left, yld := false, owned := g.s0.owned, mask := g.s0.mask, height := 0,
    srctr := g.srctr, cdepth := g.cdepth, digest := g.digest, spawns := g.spawns, logs := constLanes 0, rows := 1#8, escaped := false }

def tOpen (g : Group) : Group := { g with region := some (tRegion g), det := true }

theorem witness_Tasks :
    (∀ p ∈ [(Instr.spawn (tHd 5#3) (.slice 0#9) 64#9), .spawnUniform (tHu 5#3) 16#8 24#8].map fun i => (i, fun (s : State) (g : Group) (_ : Shape) (m : Mask) =>
      let r := deviceKeys s 0 false g .write (fun _ => 0xFC0000#80) 4 m
      decide (m ≠ 0#96 ∧ g.region = none ∧ (∀ l ∈ [(0 : Lane), 1], (childIndex g.lidx[l] g.spawns[l].toNat).isSome = true) ∧ r.2.2 = false ∧
        (r.1.deque g.lcore).tasks.length + 2 ≤ 1049600 ∧
        (g.s0.header + (readSrc s g g.s0 0 (.slice 0#9) 32).signExtend 80).extractLsb' 0 3 = 0#3)), Meets p.1 (tControl 0x20 id) p.2) ∧
    Meets (.spawn (tHd 5#3) (.slice 0#9) 64#9) (tControl 4 id) (fun s g _ _ =>
      decide ((g.s0.header + (readSrc s g g.s0 1 (.slice 0#9) 32).signExtend 80).extractLsb' 0 3 ≠ 0#3)) ∧
    Meets (.spawn (tHd 5#3) (.slice 0#9) 64#9) (tControl 8 fun g => { g with spawns := constLanes 0xFFFFFFFF#32, lidx := constLanes (BitVec.allOnes 128) })
      (fun _ g _ _ => decide (childIndex g.lidx[(0 : Lane)] g.spawns[(0 : Lane)].toNat = none)) ∧
    Meets (.tend (tHd 0#3)) tPlain (fun _ g _ _ => decide (g.trapMode = false ∧ g.team = some 7)) ∧
    Meets (.tend (tHd 0#3)) (tHere 0#64 tTrapped id) (fun _ g _ _ => decide (g.trapMode = true)) ∧
    Meets (.tend (tHd 0#3)) (tHere 0#64 (fun g => tOpen { g with team := none }) id) (fun _ g _ _ => decide (g.team = none ∧ g.region.isSome = true)) ∧
    Meets (.tend (tHd 0#3)) (tHere 0#64 (fun g => { g with team := none }) id) (fun _ g _ _ => decide (g.team = none ∧ g.region = none)) :=
  ⟨fun p hp => by
      simp only [List.map, List.mem_cons, List.not_mem_nil, or_false] at hp
      rcases hp with rfl | rfl <;> exact meets_of _ _ _ (by decide +kernel),
    meets_of _ _ _ (by decide +kernel), meets_of _ _ _ (by decide +kernel), meets_of _ _ _ (by decide +kernel), meets_of _ _ _ (by decide +kernel),
    meets_of _ _ _ (by decide +kernel), meets_of _ _ _ (by decide +kernel)⟩

/-- Budgets: a claim within the file and one beyond it; gives within and beyond, with a role and without a team; a claim that waits. -/
theorem witness_Budgets :
    let two := tHere 0#64 (fun g => { g with h := 2, s0 := { g.s0 with wait := .claim 1 } }) id
    let v := fun (s : State) (g : Group) (n : BitVec 9) => (readSrc s g g.s0 0 (.imm n) 32).toNat
    let out := fun (s : State) (g : Group) => (((s.quad g.die g.core g.quad).claims.filter fun c => c.gid = 0).map Claim.units).foldl (· + ·) 0
    (Meets (.claim (tHd 0#3) (.imm 1#9)) two fun s g _ m => decide (m ≠ 0#96 ∧ v s g 1#9 = 1 ∧ g.h + out s g + 1 ≤ 3)) ∧
    (Meets (.claim (tHd 0#3) (.imm 2#9)) two fun s g _ _ => decide (v s g 2#9 = 2 ∧ 3 < g.h + out s g + 2)) ∧
    (Meets (.give (tHd 0#3) (.imm 2#9)) two fun s g _ _ => decide (v s g 2#9 = 2 ∧ 2 ≤ g.h ∧ pendingAbove s 0 (128 * (1 + g.h - 2)) = false)) ∧
    (Meets (.give (tHd 0#3) (.imm 3#9)) two fun _ g _ _ => decide (g.h < 3)) ∧
    (Meets (.giveRole (tHd 0#3) (.imm 1#9) (.imm 1#9)) two fun s g _ _ => decide (g.team = some 7 ∧ v s g 1#9 = 1 ∧ pendingAbove s 0 (128 * (1 + g.h - 1)) = false) &&
      (tget s.teams 7).any fun t => decide (1 < t.roles)) ∧
    (Meets (.giveRole (tHd 0#3) (.imm 1#9) (.imm 1#9)) (tHere 0#64 (fun g => { g with team := none }) id) fun _ g _ _ => decide (g.team = none)) ∧
    ((two.group? 0).any fun g => decide (g.evicted = false ∧ g.trapMode = false ∧ 512 * (1 + g.h) ≤ 2048)) ∧
    tget { State.reset with quads := [(5, Quad.reset)] }.quads 5 = some Quad.reset :=
  ⟨meets_of _ _ _ (by decide +kernel), meets_of _ _ _ (by decide +kernel), meets_of _ _ _ (by decide +kernel), meets_of _ _ _ (by decide +kernel),
    meets_of _ _ _ (by decide +kernel), meets_of _ _ _ (by decide +kernel), by decide +kernel, by decide +kernel⟩

theorem witness_Regions :
    (∀ i ∈ [Instr.regionBegin (tHd 0#3), .regionEnd (tHd 0#3), .digestRd (tHd 5#3) (.slice 0#9) 3#2, .digestFold (tHd 5#3) (.slice 0#9)], Meets i tPlain runs') ∧
    Meets (.regionBegin (tHd 0#3)) tPlain (fun _ g _ _ => decide (g.s1.owned = 0#96 ∧ g.det = false)) ∧
    Meets (.regionBegin (tHd 0#3)) (tHere 0#64 (fun g => { g with s1 := { g.s1 with owned := 8#96 } }) id) (fun _ g _ _ => decide (g.s1.owned ≠ 0#96)) ∧
    Meets (.digestFold (tHd 5#3) (.slice 0#9)) (tHere 0#64 tOpen id) (fun _ g _ _ => decide (g.det = true ∧ g.region.isSome = true ∧ g.effects[(0 : Lane)].length < 2048)) ∧
    -- soft errors: no region, a row not written, an escaped region, and one that rewinds
    (∀ p ∈ [(fun g : Group => g, false, false), (fun g => { g with region := some { tRegion g with rows := 0#8 } }, true, false),
        (fun g => { g with region := some { tRegion g with escaped := true } }, true, true), (fun g => { g with region := some (tRegion g) }, true, true)],
      let s := tHere 0#64 p.1 id
      (s.group? 0).any fun g => decide (g.halted = false ∧ 64 * 0 < g.alloc ∧ g.region.isSome = p.2.1 ∧ (g.region.any fun r => r.rows.getLsbD 0) = p.2.2 ∧
        g.trapMode = false ∧ groupBusy s 0 = false)) :=
  ⟨all_run (by decide +kernel), meets_of _ _ _ (by decide +kernel), meets_of _ _ _ (by decide +kernel), meets_of _ _ _ (by decide +kernel), by decide +kernel⟩
/-! ### Witnesses: engines, copies and the matrix unit -/

/-- k4 to k6 hold an address, k8 to k10 zero; k12 and k13 hold a length and the continuation's place. -/
def tCopyGroup (dst k13 : Nat) (g : Group) : Group :=
  { g with k := BitVec.ofNat 5120 (dst * 2 ^ 128 + 4 * 2 ^ (32 * 12) + k13 * 2 ^ (32 * 13)) }

/-- A program of an engine at its word, the last of its clause, with scratchpad addresses in its registers. -/
def tProg (eng : Nat) : Prog :=
  { eng := eng, die := 0, core := 0, quad := 0, gid := 0, s1 := false, team := some 7, grid := 2 ^ 32, tenant := 0, handle := 5#32, pc := 0x1000#80,
    header := 0xFF8#80, left := 1, s := Vector.ofFn fun n : Fin 16 => BitVec.ofNat 80 (16 * n.val), running := true, sent := false, ended := false,
    status := 9#32, ctr := 0#2, stopped := none, stopVa := 0#80, trap := false, after := [], place := 0#8 }

def tProgState (p : Prog) (u : State → State) : State :=
  u { State.reset.withFetchWord 64 0xFC08800000000000 with cur := .prog 4, progs := [(4, p)], teams := [(7, tTeam)], groups := [(0, tGroup id)] }

def tFault : EngineFault :=
  { gid := 0, s1 := false, detail := 0x42#8, addr := 0x40#80, handle := 5#32, ctr := 0#2, cont := false, trap := false, die := 0, core := 0,
    tenant := 0, place := 0#8 }

/-- fork on each engine with room, and on a matrix sequencer whose queue is full; rdv of no program, of one that runs, of one that
has ended, and of one with a fault. -/
theorem witness_ForkAndRdv :
    (∀ i ∈ [Instr.forkMx (tHd 5#3) 16#8 4#8 20#8 2#3, .forkCp (tHd 5#3) 16#8 4#8 20#8 5#3, .forkCl (tHd 5#3) 16#8 4#8 20#8 0#3], Meets i tPlain runs') ∧
    engineQueued tPlain (tProg 0) = [] ∧
    (engineQueued (tHere 0#64 id fun s => { s with progs := (List.range 4).map fun n => (n, { tProg 0 with running := false }) }) (tProg 0)).length = 4 ∧
    (let hd := fun (s : State) (g : Group) => readSrc s g g.s0 0 (.ureg 4#8) 32
     let i := Instr.rdv (tHd 5#3) (.slice 0#9) (.ureg 4#8)
     Meets i (tHere 0#64 (tCopyGroup 5 0) id) (fun s g _ m => decide (m ≠ 0#96 ∧ s.efaults = [] ∧ findProg s 0 g (hd s g) = none)) ∧
     Meets i (tHere 0#64 (tCopyGroup 5 0) fun s => { s with progs := [(4, tProg 0)] }) (fun s g _ _ => (findProg s 0 g (hd s g)).any fun p => !p.ended) ∧
     Meets i (tHere 0#64 (tCopyGroup 5 0) fun s => { s with progs := [(4, { tProg 0 with ended := true })] }) (fun s g _ _ => (findProg s 0 g (hd s g)).any fun p => p.ended) ∧
     Meets i (tHere 0#64 (tCopyGroup 5 0) fun s => { s with efaults := [tFault] }) (fun s g _ _ => s.efaults.any fun f => decide (f.gid = 0 ∧ f.s1 = false ∧ f.handle = hd s g ∧
       f.trap = g.trapMode))) :=
  ⟨all_run (by decide +kernel), by decide +kernel, by decide +kernel, meets_of _ _ _ (by decide +kernel), meets_of _ _ _ (by decide +kernel),
    meets_of _ _ _ (by decide +kernel), meets_of _ _ _ (by decide +kernel)⟩

/-- A program that may start, one that may end, and a fault that is due at a header. -/
theorem witness_ProgramsAndFaults :
    (let p := { tProg 1 with running := false }
     let s := tProgState p id
     s.prog? 4 = some p ∧ (engineQueued s p).head? = some 4 ∧ engineRunning s p < 8 ∧ stillPending s p.after = false) ∧
    (let p := { tProg 1 with sent := true }
     let s := tProgState p id
     s.prog? 4 = some p ∧ p.running = true ∧ p.ended = false ∧ opsDone s 4 p = true) ∧
    (let s := { tHere 0xFC08800000000000#64 (fun g => { g with utrap := 0x2000#80, s0 := { g.s0 with left := 0 } }) id with efaults := [tFault] }
     dueFault s 0 false = some tFault ∧ (s.group? 0).any fun g => decide (g.trapMode = false ∧ g.utrap ≠ 0#80)) ∧
    -- the fault of a group that has retired
    (let s := { State.reset with efaults := [tFault] }
     s.group? 0 = none ∧ s.saved = [] ∧ (s.efaults.find? fun f => f.gid = 0 && f.s1 = false) = some tFault) := by decide +kernel

/-- A collective of one participant, that its program waits for. -/
def tColl : CopyOp :=
  { id := 11, pid := some 4, gid := 0, s1 := false, die := 0, core := 0, tenant := 0, team := some 7, grid := 2 ^ 32, sup := false,
    kind := .coll 1#3 2#3 9#32 1 0 0, w := 5#3, count := 4, dst := 0x100#80, dspace := .sc, src := 0#80, sspace := .sc, idx := 0#80, idxs := some [],
    pol := 0#2, ctr := 0#2, cont := false, rows := [], data := none, wrote := 0, moved := false, stopped := none, stopVa := 0#80, trap := false,
    after := [], place := 0#8 }

/-- A program's words: a branch that is taken and one that is not, a loop's last turn, a target that is no header; words that do not end their
clause; a signal and a wait at a scratchpad word, that a collective delays, a misaligned one, and one outside the scratchpad. -/
theorem witness_SequencerWords :
    (let s := tProgState (tProg 1) id
     let p := tProg 1
     let r := fun n : Nat => p.s[(Fin.ofNat 16 n)]
     s.cur = .prog 4 ∧ s.prog? 4 = some p ∧ p.left = 1 ∧ r 1 = r 1 ∧ r 1 ≠ r 2 ∧
      (progPeek s p (p.header + 8#80 * 1#80)).any (fun x => isHeader x) = true ∧ (progPeek s p (p.header + 8#80 * 2#80)).any (fun x => !isHeader x) = true ∧
      (r 1).toNat % 4 = 0 ∧ opsDone s 4 p = true ∧ lockHit s p.die p.core p.tenant false .sc (r 1) 4 = false ∧
      (match (engineKeys s p.team p.die p.core p.grid p.tenant false .sc .write (r 1) 4).2 with | .ok ks => ks.length | _ => 0) = 4) ∧
    ({ tProg 1 with s := Vector.replicate 16 1#80 } : Prog).s[(Fin.ofNat 16 3)] - 1#80 = 0#80 ∧
    (Vector.replicate 16 2#80)[(Fin.ofNat 16 1)].toNat % 4 ≠ 0 ∧ { tProg 1 with left := 2 }.left ≠ 1 ∧
    inSpace (tProgState (tProg 1) id) ((tProg 1).team.bind (tget [(7, tTeam)])) 0 (2 ^ 32) .sc 0x1000#80 4 = false ∧
    (let s := tProgState (tProg 1) fun s => { s with copies := [tColl] }
     opsDone s 4 (tProg 1) = false ∧ ∃ y ∈ s.copies, y.pid = some 4 ∧ y.kind = .coll 1#3 2#3 9#32 1 0 0) := by decide +kernel

/-- A staging tile that is full for mma of e4m3 with blocks, and another that is empty. -/
def tFull : Staging := { Staging.reset with dataFill := BitVec.allOnes 64, scaleFill := BitVec.allOnes 64, word := some 0x12#32 }

def tMatrix (u : MxUnit → MxUnit) (s : State) : State :=
  { s with quads := [(0, { Quad.reset with mx := u { MxUnit.reset with holder := some 7 } })] }

/-- Feeds: one legal word for all lanes, two words, an illegal one, a word that is not the tile's, and rows that are not clear; a feed that
has waited and may land, and one that waits on. -/
theorem witness_MatrixFeeds :
    (∀ i ∈ [Instr.mfeedDat (tHd 5#3) 0#2 0#6 (.slice 0#9) (.slice 8#9), .mfeedScl (tHd 5#3) 0#2 63#6 (.slice 0#9) (.slice 8#9),
      .mfeedBand (tHd 5#3) 0#2 (.slice 0#9) (.slice 8#9), .mfeedQ (tHd 5#3) 0#2 0#6 64#9 (.slice 8#9), .mwm (tHd 5#3) (.slice 0#9) 7#3], Meets i tPlain runs') ∧
    fwLegal 0x12#32 = true ∧ fwBlock 0x12#32 ≠ 0 ∧ fwLegal 0x100#32 = false ∧ fwLegal 0x10#32 = true ∧ fwElem 0x10#32 = 0 ∧
    (fwLegal 0x112#32 = true ∧ fwBand 0x112#32 = true) ∧
    canFeed Staging.reset { data := [(0, 0#1024)], scales := [], band := none, flags := 0#6 } = true ∧
    canFeed tFull { data := [(0, 0#1024)], scales := [], band := none, flags := 0#6 } = false ∧
    (let s := tHere 0#64 (fun g => { g with slices := constLanes (BitVec.ofNat 2048 (0x12 * 2 ^ 32)) }) id
     Meets (.mfeedDat (tHd 5#3) 0#2 0#6 (.slice 0#9) (.slice 8#9)) s fun s g _ _ => decide (∀ l ∈ List.finRange 96, readSrc s g g.s0 l (.slice 8#9) 32 = 0x12#32)) ∧
    (let x : Feed := { data := [(0, 0#1024)], scales := [], band := none, flags := 0#6 }
     let s := fun u => tHere 0#64 (fun g => { g with s0 := { g.s0 with feed := some (0#2, 0x12#32, x) } }) (tMatrix u)
     Meets (.mfeedDat (tHd 5#3) 0#2 0#6 (.slice 0#9) (.slice 8#9)) (s id) (fun s g _ _ => decide (g.s0.feed = some (0#2, 0x12#32, x) ∧
       stillPending s (pendingOf s 0 g.s0.owned) = false ∧ canFeed (s.quad 0 0 0).mx.staging[0] x = true)) ∧
     Meets (.mfeedDat (tHd 5#3) 0#2 0#6 (.slice 0#9) (.slice 8#9)) (s fun u => { u with staging := u.staging.set 0 tFull }) (fun s _ _ _ =>
       decide (canFeed (s.quad 0 0 0).mx.staging[0] x = false))) ∧
    (let s := tHere 0#64 (fun g => { g with slices := (constLanes (BitVec.ofNat 2048 (0x12 * 2 ^ 32))).set 0 0#2048 }) id
     Meets (.mfeedDat (tHd 5#3) 0#2 0#6 (.slice 0#9) (.slice 8#9)) s fun s g _ _ =>
      decide (readSrc s g g.s0 0 (.slice 8#9) 32 ≠ readSrc s g g.s0 1 (.slice 8#9) 32)) ∧
    (let s := tHere 0#64 (fun g => { g with slices := constLanes (BitVec.ofNat 2048 (0x10 * 2 ^ 32)) }) id
     Meets (.mfeedQ (tHd 5#3) 0#2 0#6 64#9 (.slice 8#9)) s fun s g _ _ => decide (trapEnables g = 0#6 ∧ (∀ l ∈ List.finRange 96,
      readSrc s g g.s0 l (.slice 8#9) 32 = 0x10#32 ∧ ((List.range 8).map (blockElem g l 64#9 .f32)).all FVal.isNaN = false))) :=
  ⟨all_run (by decide +kernel), by decide +kernel, by decide +kernel, by decide +kernel, by decide +kernel, by decide +kernel, by decide +kernel,
    by decide +kernel, by decide +kernel, meets_of _ _ _ (by decide +kernel), ⟨meets_of _ _ _ (by decide +kernel), meets_of _ _ _ (by decide +kernel)⟩,
    meets_of _ _ _ (by decide +kernel), meets_of _ _ _ (by decide +kernel)⟩

/-- A program that waits for the unit, tiles, and operations that start, run and end; a slot that waits to read a tile, and a lock over an operand. -/
theorem witness_MatrixUnit :
    (let s := tProgState (tProg 0) (tMatrix id)
     let u := (s.quad 0 0 0).mx
     u.next = none ∧ u.op = none ∧ u.staging[(Fin.ofNat 4 0)].full = false) ∧
    (let busy := tProgState (tProg 0) (tMatrix fun u => { u with staging := u.staging.set 0 tFull, op := some { kind := .zero, tile := 3, group := 7, team := 7 },
                                                                   next := some { pid := 4, instr := .mzero 1#3 } })
     let u := (busy.quad 0 0 0).mx
     u.next ≠ none ∧ u.staging[(Fin.ofNat 4 0)].full = true ∧ u.op.any (fun o => decide (o.tile = (3#3 : BitVec 3).toNat ∧ o.tile < 8)) = true) ∧
    (∀ i ∈ [Instr.mzero 1#3, .mbscale 1#3 2#4, .mma 2#4 0#2 true 1#3 2#4 3#4 0#6],
      let s := tProgState (tProg 0) (tMatrix fun u => { u with staging := u.staging.set 0 tFull, next := some { pid := 4, instr := i } })
      (tget s.quads 0).any (fun q => decide (q.mx.next = some { pid := 4, instr := i } ∧ q.mx.op = none)) = true ∧ s.prog? 4 = some (tProg 0) ∧
      scOperand s (tProg 0) 0x20#80 256 4 = none ∧ rowWaits s 0 1 = false ∧ lockHit s 0 0 0 false .sc 0x20#80 256 = false ∧ fwElem 0x12#32 = 2 ∧ fwBand 0x12#32 = false) ∧
    (let s := tProgState (tProg 0) fun s => { s with groups := [(0, tGroup fun g => { g with s0 := { g.s0 with wait := .acc [1] } })] }
     rowWaits s 0 1 = true) ∧
    (let s := tProgState (tProg 0) fun s => s.setCore 0 0 { CoreSt.reset with
       rlt := [{ owner := .copy 3, tenant := 0, space := .sc, lo := 0x40, len := 4, write := true }] }
     lockHit s 0 0 0 false .sc 0x20#80 256 = true) ∧
    scOperand (tProgState (tProg 0) id) (tProg 0) 0x21#80 256 4 = some 0x08#8 ∧ scOperand (tProgState (tProg 0) id) (tProg 0) 0xF20#80 256 4 = some 0x07#8 ∧
    -- finite elements, an infinite one under a scale that is NaN, and an operation of either kind of element
    decodeF (elFormat 2) 0x38 = .fin false 1 ∧ decodeF .bf16 0x3F80 = .fin false 1 ∧ (decodeF .bf16 0x7FC0).isNaN = true ∧ (decodeF .f32 0x7FC00000).isNaN = true ∧
    (let o : MxOp := { kind := .mma 2#4 0x12#32 0#80 0#80 64 [] [] 0#16, tile := 3, group := 0, team := 7 }
     o.tile < 8 ∧ fwElem 0x12#32 ≠ 1 ∧ fwElem 0x12#32 ≠ 4 ∧ decodeF .f32 0 = .fin false 0) ∧
    (scOperand (tProgState { tProg 0 with team := some 7 } fun s => { s with teams := [(7, { tTeam with scSize := 2 ^ 17 })] }) (tProg 0) 0x20#80
      (96 * colPitch 0x12#32) 8 = none) ∧ fwElem 0x01#32 = 1 ∧ fwLegal 0x01#32 = true := by decide +kernel

/-- A copy of `count` elements inside the scratchpad. -/
def tCopy (pid : Option Nat) : CopyOp :=
  { id := 11, pid := pid, gid := 0, s1 := false, die := 0, core := 0, tenant := 0, team := some 7, grid := 2 ^ 32, sup := false, kind := .block 1 0 0, w := 5#3,
    count := 4, dst := 0x100#80, dspace := .sc, src := 0#80, sspace := .sc, idx := 0#80, idxs := some [], pol := 0#2, ctr := 0#2, cont := false, rows := [],
    data := none, wrote := 0, moved := false, stopped := none, stopVa := 0#80, trap := false, after := [], place := 0#8 }

/-- A copy in its space, one outside it, one whose locks conflict; a continuation at a word's address and at none. -/
theorem witness_Cpy :
    (let i := Instr.cpy (tHd 5#3) 4#8 8#8 (.imm 4#9) 1#3 0#2 1#3
     (Meets i (tHere 0#64 (tCopyGroup 0x100 8) id) fun s g _ m => decide (m ≠ 0#96 ∧ readTriple g g.s0 4#8 = 0x100#80 ∧ outside? s (tCopy none) = none ∧
       (takeLocks s 0 0 (tCopy none).locks).isSome = true)) ∧
     (Meets i (tHere 0#64 (tCopyGroup 0x1000 8) id) fun s g _ _ => decide (readTriple g g.s0 4#8 = 0x1000#80 ∧
       (outside? s { tCopy none with dst := 0x1000#80 }).isSome = true)) ∧
     (Meets i (tHere 0#64 (tCopyGroup 0x100 8) fun s => s.setCore 0 0 { s.core 0 0 with rlt := (tCopy none).locks }) fun s _ _ _ =>
       decide (outside? s (tCopy none) = none ∧ takeLocks s 0 0 (tCopy none).locks = none))) ∧
    (let i := Instr.cpyCont (tHd 5#3) 4#8 8#8 12#8 1#3 0#2 1#3
     (Meets i (tHere 0#64 (tCopyGroup 0x100 8) id) fun _ g _ _ => decide ((g.kreg g.s0 13).extractLsb' 0 3 = 0#3 ∧ (g.kreg g.s0 12).toNat = 4)) ∧
     (Meets i (tHere 0#64 (tCopyGroup 0x100 9) id) fun _ g _ _ => decide ((g.kreg g.s0 13).extractLsb' 0 3 ≠ 0#3))) :=
  ⟨⟨meets_of _ _ _ (by decide +kernel), meets_of _ _ _ (by decide +kernel), meets_of _ _ _ (by decide +kernel)⟩, meets_of _ _ _ (by decide +kernel),
    meets_of _ _ _ (by decide +kernel)⟩

/-- A copy that ends, its keys, and one that continues; a drain's next row, one that is not final
yet, and none; a copy that has written, with a store of it held back and without; a list of indices to read; a collective. -/
theorem witness_Copies :
    (let c := tCopy none
     let s := { tPlain with copies := [c] }
     (s.copies.find? fun y => y.id = 11) = some c ∧ c.pid = none ∧ c.stopped = none ∧ stillPending s c.after = false ∧ c.moved = false ∧ c.kind.reads = true ∧
      (match (moveKeys s c c.sspace .read (c.moves.map Prod.snd)).2 with | .ok a => a.length | _ => 0) = 4 ∧ c.data = none) ∧
    (let c := { tCopy none with sspace := .g, src := 0x8000#80 }
     (match moveKeys tPlain c c.sspace .read (c.moves.map Prod.snd) with | (_, .error (.inr _)) => true | _ => false) = true) ∧
    (let c := { tCopy none with data := some (List.replicate 4 [1#8, 2#8, 3#8, 4#8]), wrote := 3 }
     c.data.isSome = true ∧ c.writes = [(0x10C#80, [1#8, 2#8, 3#8, 4#8])] ∧
      (match engineKeys tPlain c.team c.die c.core c.grid c.tenant c.sup c.dspace .write 0x10C#80 4 with | (_, .ok ks) => ks.length | _ => 0) = 4 ∧
      (match engineKeys tPlain c.team c.die c.core c.grid c.tenant c.sup .g .write 0x8000#80 4 with | (_, .stop _ _) => true | _ => false) = true) ∧
    (let c := { tCopy none with after := [12] }
     stillPending { tPlain with stores := [{ tStore .sc [] [] with id := 12 }] } c.after = true) ∧
    (let s := { tHere 0#64 (fun g => { g with s0 := { g.s0 with wait := .cpyCont 11 0x1000#80 } }) id with copies := [{ tCopy none with cont := true }] }
     s.fences = [] ∧ (s.group? 0).any fun g => decide (g.frame = none ∧ (g.slot false).wait = .cpyCont 11 0x1000#80)) ∧
    (let c := { tCopy (some 4) with kind := .acc 0 0 0 384 }
     let s := tProgState (tProg 1) (tMatrix id)
     c.idxs.isSome = true ∧ drainNext s c = some (some 0#3072) ∧ drainNext s { c with rows := List.replicate 4 0#3072 } = none ∧ drainNext s (tCopy (some 4)) = none ∧
      drainNext (tProgState (tProg 1) (tMatrix fun u => { u with acc := u.acc.set 0 { AccTile.reset with watermark := 0 } })) c = some none) ∧
    (let h : Held := { w := (tCopy none).writer, line := 4, die := 1, old := [(512, 0#8)], until_ := 99, readers := [] }
     landed tPlain 0 11 = true ∧ landed { tPlain with held := [h] } 0 11 = false ∧ ({ tCopy none with moved := true } : CopyOp).moved = true) ∧
    -- a list of indices whose elements' locks are free, and whose are not
    (let c := { tCopy (some 4) with kind := .gather, idxs := none, idx := 0x40#80, sspace := .sc }
     c.idxs = none ∧ (match moveKeys tPlain { c with w := 5#3 } c.sspace .read ((List.range c.count).map fun i => c.idx + BitVec.ofNat 80 (4 * i)) with
       | (u, .ok ks) =>
         let x := readMoves u c ks
         let c' := { c with idxs := some (x.2.map natOfBytes) }
         let other : Lock := { owner := .copy 12, tenant := 0, space := .sc, lo := 0x100, len := 4, write := true }
         decide (outside? x.1 c' = none ∧ (takeLocks (dropLocks x.1 c.die c.core (.copy c.id)) c.die c.core c'.locks).isSome = true ∧
           (takeLocks (x.1.setCore 0 0 { x.1.core 0 0 with rlt := [other] }) c.die c.core c'.locks) = none)
       | _ => false) = true) ∧
    -- a byte that stands in a flit of the copy's own
    (let f : Flit := { id := 12, parent := 0, gid := 0, agents := 0#96, eng := some 11, die := 0, core := 0, tenant := 0, retries := 0, keys := [3 * 2 ^ 52],
                       bytes := [7#8], s1 := false, trap := false, va := 0#80, ctr := 0#2, mse := [], reserve := [] }
     [f].getLast? = some f ∧ f.eng = some 11 ∧ tget (f.keys.zip f.bytes) (3 * 2 ^ 52) = some 7#8 ∧ isGlobal (3 * 2 ^ 52) = true) ∧
    -- collectives: of one participant that may move, of one whose program has other work, and of two that differ
    (let s := tProgState (tProg 1) fun s => { s with copies := [tColl] }
     participants s tColl = [tColl] ∧ tColl.stopped = none ∧ agentLanded s Config.dies 4 = true ∧
      (collKeys s [tColl]).2.toOption.isSome = true ∧ s.prog? 4 = some (tProg 1)) ∧
    (let s := tProgState (tProg 1) fun s => { s with copies := [{ tCopy (some 4) with id := 10 }, tColl] }
     (s.copies.any fun z => decide (z.pid = tColl.pid ∧ z.id < tColl.id)) = true) ∧
    (let s := tProgState (tProg 1) fun s => { s with copies := [tColl, { tColl with id := 12, pid := some 5, count := 5 }] }
     (participants s tColl).length = 2) := by
  refine ⟨?_, ?_, ?_, ?_, ?_, ?_, ?_, ?_, ?_, ?_, ?_, ?_⟩ <;> decide +kernel

/-- The copy class of a program: sound operands, and each word's own conditions. -/
theorem witness_CopyClass :
    let p := { tProg 1 with s := Vector.ofFn fun n : Fin 16 => BitVec.ofNat 80 (match n.val with | 1 => 0x100 | 2 => 0 | 3 => 4 | 4 => 1 | 5 => 384 | 6 => 0x300000000 | _ => 2) }
    let r := fun n : Nat => p.s[(Fin.ofNat 16 n)]
    let s := tProgState p (tMatrix id)
    let op := fun (kind : CopyKind) (src idx : Addr) (ids : Option (List Nat)) => copyOfProg s 4 p 5#3 kind (r 3).toNat (r 1) src idx 1#3 1#3 0#2 ids
    s.cur = .prog 4 ∧ s.prog? 4 = some p ∧ outside? s (op (.block 1 0 0) (r 2) 0#80 (some [])) = none ∧
    (takeLocks s 0 0 (op (.block 1 0 0) (r 2) 0#80 (some [])).locks).isSome = true ∧ outside? s (op (.fill 0#64) 0#80 0#80 (some [])) = none ∧
    (op .gather (r 2) (r 4) none).idx.toNat % 4 ≠ 0 ∧ (op .gather (r 2) (r 2) none).count ≠ 0 ∧
    (∀ j, j < 4 → inSpace s (p.team.bind (tget s.teams)) 0 p.grid .sc (r 2 + BitVec.ofNat 80 (4 * j)) 4 = true) ∧
    (let c := op (.acc 0 0 0 384) 0#80 0#80 (some [])
     1 ≤ c.count ∧ c.count ≤ 64 ∧ (r 5).toNat % 4 = 0 ∧ (r 1).toNat % 4 = 0 ∧ outside? s c = none ∧ (s.quad 0 0 0).mx.holder = p.team) ∧
    (let q := { p with eng := 2 }
     let parts := ((r 6).extractLsb' 32 8).toNat
     q.eng = 2 ∧ parts = 3 ∧ ((r 6).extractLsb' 40 2).toNat = 0 ∧ (r 6).extractLsb' 42 6 = 0#6 ∧ (r 6).extractLsb' 59 21 = 0#21 ∧
      outside? s (copyOfProg s 4 q 5#3 (.coll 0#3 4#3 0#32 parts 0 0) 4 (r 1) (r 2) 0#80 1#3 1#3 0#2 (some [])) = none) := by decide +kernel
/-! ### Witnesses: the stepper, the supervisor's words, issuing and walks -/

/-- Euler's method with a linear interpolant, and a binding of one element in the cluster's scratchpads. -/
def tEuler : Tableau :=
  { s := 1, kind := 0, p := 1, q := 0, d := 1, fsal := false, c := [0#64], a := [0#64], ai := [], b := [0x3FF0000000000000#64], bh := [],
    beta := [0#64, 0x3FF0000000000000#64] }

def tBind : Binding :=
  { state := 0x400#80, space := .cl, fp32 := false, n := 1, deriv := 0x440#80, input := 0x500#80, work := 0x600#80, event := 0x700#80, atol := 0#64,
    rtol := 0#64, m := 0, role := 0 }

def tCtx : StepCtx := { StepCtx.new 7 0 5 with tab := some tEuler, bind := some tBind }

/-- The team holds context 0, which is `x`; k4 to k6 hold `a`; memory holds `m`. -/
def tStep (a : Nat) (x : StepCtx) (m : Memory) (f : Group → Group) : State :=
  tHere 0#64 (fun g => f (tCopyGroup a 8 g)) fun s => { s with teams := [(7, { tTeam with ctx := some 0 })], ctxs := [(0, x)], mem := m }

/-- A step word acts on its team's context. -/
def onCtx (ok : State → Group → StepCtx → Bool) : State → Group → Shape → Mask → Bool := fun s g _ m =>
  decide (m ≠ 0#96 ∧ g.team = some 7 ∧ stillPending s (pendingOf s 0 (g.slot false).owned) = false) &&
    (tget s.teams 7).any fun t => (takeCtx s 7 t g).any fun p => ok p.1 g p.2.2

def readOk (s : State) (g : Group) (a n : Nat) (p : List Byte → Bool) : Bool :=
  match stepRead s 0 g g.s0.uniMask .g (BitVec.ofNat 80 a) n with
  | (_, .ok bs) => p bs
  | _ => false

/-- A team without a context takes one; one that waits for its accesses; no team. -/
theorem witness_StepperContexts :
    (∀ p ∈ [Instr.stepLdtab (tHd 0#3) 4#8 4#3, .stepBind (tHd 0#3) 4#8 4#3, .stepRun (tHd 0#3) 4#8 4#3, .stepWait (tHd 0#3), .stepDone (tHd 0#3),
        .stepQry (tHd 7#3) 4#8 (.slice 0#9), .stepStat (tHd 0#3) 4#8 1#3, .stepStop (tHd 0#3)].map fun i => (i, onCtx fun _ _ x => decide (x.st = .idle ∧ x.tab = none)),
      Meets p.1 tPlain p.2) ∧
    Meets (.stepStop (tHd 0#3)) (tHere 0#64 (fun g => { g with team := none }) id) (fun _ g _ m => decide (m ≠ 0#96 ∧ g.team = none)) ∧
    Meets (.stepStop (tHd 0#3)) (tHere 0#64 id fun s => { s with stores := [tStore .sc [] []] })
      (fun s g _ _ => decide (stillPending s (pendingOf s 0 (g.slot false).owned) = true)) :=
  ⟨all_meet (by decide +kernel), meets_of _ _ _ (by decide +kernel), meets_of _ _ _ (by decide +kernel)⟩

/-- A lock of a context over a region. -/
def tLock (q : Addr × Nat) : Lock := { owner := .step 1, tenant := 0, space := .cl, lo := q.1.toNat, len := q.2, write := true }

/-- Records of a tableau that is sound, of one with a bad header, of a binding, and of a run that goes on, whose regions are free or locked. -/
theorem witness_StepperRecords :
    (let m : Memory := [(0x1100, 1#8), (0x1102, 1#8), (0x111E, 0xF0#8), (0x111F, 0x3F#8)]
     Meets (.stepLdtab (tHd 0#3) 4#8 4#3) (tStep 0x1100 tCtx m id) (onCtx fun s g x => decide (x.st ≠ .running ∧ readTriple g g.s0 4#8 = 0x1100#80) &&
       readOk s g 0x1100 8 fun hd => headerOk hd && readOk s g 0x1108 (8 * descWords hd) fun bs => (mkTableau hd (words64 bs)).legal (words64 bs))) ∧
    Meets (.stepLdtab (tHd 0#3) 4#8 4#3) (tStep 0x1100 tCtx [] id) (onCtx fun s g _ => readOk s g 0x1100 8 fun hd => !headerOk hd) ∧
    Meets (.stepBind (tHd 0#3) 4#8 4#3) (tStep 0x1100 tCtx [] id) (onCtx fun s g x => decide (x.st ≠ .running) && readOk s g 0x1100 80 fun _ => true) ∧
    Meets (.stepBind (tHd 0#3) 4#8 4#3) (tStep 0x1104 tCtx [] id) (onCtx fun _ g _ => decide ((readTriple g g.s0 4#8).toNat % 8 ≠ 0)) ∧
    Meets (.stepBind (tHd 0#3) 4#8 4#3) (tStep 0x1100 { tCtx with st := .running } [] id) (onCtx fun _ _ x => decide (x.st = .running)) ∧
    (let m : Memory := [(0x120E, 0xF0#8), (0x120F, 0x3F#8), (0x1216, 0xE0#8), (0x1217, 0x3F#8)]
     Meets (.stepRun (tHd 0#3) 4#8 4#3) (tStep 0x1200 tCtx m id) (onCtx fun s g x => readOk s g 0x1200 32 fun r => runLegal s g x r &&
       decide (rat64 ((words64 r).getD 1 0#64) ≠ rat64 ((words64 r).getD 0 0#64) ∧ (s.core g.die g.core).rlt = [])) ∧
     Meets (.stepRun (tHd 0#3) 4#8 4#3) (let s := tStep 0x1200 tCtx m id; s.setCore 0 0 { s.core 0 0 with rlt := (tBind.regions 3).map fun q => tLock q })
       (onCtx fun s g _ => ((tBind.regions 3).map tLock).any (lockMeets s g.die g.core))) ∧
    Meets (.stepRun (tHd 0#3) 4#8 4#3) (tStep 0x1200 tCtx [] id) (onCtx fun s g x => readOk s g 0x1200 32 fun r => !runLegal s g x r) ∧
    (let m : Memory := [(0x1216, 0xE0#8), (0x1217, 0x3F#8)]
     Meets (.stepRun (tHd 0#3) 4#8 4#3) (tStep 0x1200 tCtx m id) (onCtx fun s g x => readOk s g 0x1200 32 fun r => runLegal s g x r &&
       decide (rat64 ((words64 r).getD 1 0#64) = rat64 ((words64 r).getD 0 0#64)))) :=
  ⟨meets_of _ _ _ (by decide +kernel), meets_of _ _ _ (by decide +kernel), meets_of _ _ _ (by decide +kernel), meets_of _ _ _ (by decide +kernel),
    meets_of _ _ _ (by decide +kernel), ⟨meets_of _ _ _ (by decide +kernel), meets_of _ _ _ (by decide +kernel)⟩, meets_of _ _ _ (by decide +kernel),
    meets_of _ _ _ (by decide +kernel)⟩

/-- A run whose first right-hand side is outstanding, to group 0. -/
def tRun : StepCtx := { tCtx with st := .running, phase := .out (.rhs 0 0 0), owing := [0], toTake := [0], run := some (0, 0, false), calls := 1#32 }

theorem witness_StepperCalls :
    (∀ x ∈ [tCtx, { tCtx with st := .stopped }, tRun, { tRun with toTake := [] }, { tRun with phase := .comb .candidate }, { tRun with bind := some { tBind with role := 1 } }],
      Meets (.stepWait (tHd 0#3)) (tStep 0 x [] id) (onCtx fun _ _ y => decide (y = x))) ∧
    Meets (.stepDone (tHd 0#3)) (tStep 0 { tRun with toTake := [] } [] id) (onCtx fun _ g x => decide (g.role = 0 ∧ 0 ∈ x.owing ∧ 0 ∉ x.toTake ∧ x.st = .running)) ∧
    Meets (.stepDone (tHd 0#3)) (tStep 0 tRun [] id) (onCtx fun _ _ x => decide (0 ∈ x.toTake)) ∧
    (∀ x ∈ [tCtx, tRun, { tRun with phase := .comb .candidate }], Meets (.stepStop (tHd 0#3)) (tStep 0 x [] id) (onCtx fun _ _ y => decide (y = x))) ∧
    Meets (.stepStat (tHd 0#3) 4#8 1#3) (tStep 0xFE0 tRun [] id) (onCtx fun s g _ => decide (inSpace s (s.teamOf g) g.die g.grid .sc 0xFE0#80 32 = true) &&
      (match laneKeys s g .sc .write 0 0xFE0#80 32 with | (_, .ok _) => true | _ => false)) ∧
    Meets (.stepStat (tHd 0#3) 4#8 1#3) (tStep 0xFE8 tRun [] id) (onCtx fun s g _ => decide (inSpace s (s.teamOf g) g.die g.grid .sc 0xFE8#80 32 = false)) :=
  ⟨fun x hx => by
      simp only [List.mem_cons, List.not_mem_nil, or_false] at hx
      rcases hx with rfl | rfl | rfl | rfl | rfl | rfl <;> exact meets_of _ _ _ (by decide +kernel),
    meets_of _ _ _ (by decide +kernel), meets_of _ _ _ (by decide +kernel),
    fun x hx => by
      simp only [List.mem_cons, List.not_mem_nil, or_false] at hx
      rcases hx with rfl | rfl | rfl <;> exact meets_of _ _ _ (by decide +kernel),
    meets_of _ _ _ (by decide +kernel), meets_of _ _ _ (by decide +kernel)⟩

/-- A query at the start of the retained step, and combinations and calls of a run that may end; words whose results have performed or not. -/
theorem witness_StepperCombinations :
    (let x := { tCtx with st := .stopped, retained := some { ts := 0#64, hs := 0x3FF0000000000000#64, tEnd := 0x3FF0000000000000#64, thetaMax := 0x3FF0000000000000#64 } }
     Meets (.stepQry (tHd 7#3) 4#8 (.slice 0#9)) (tStep 0x800 x [] id) (onCtx fun s g y => decide ((queryTheta y tEuler 0#64).isSome = true ∧
       inSpace s (s.teamOf g) g.die g.grid .cl 0x800#80 8 = true ∧ (∀ q ∈ tBind.regions tEuler.slots, meets 0x800 8 q.1.toNat q.2 = false)) &&
       (match (queryTheta y tEuler 0#64), runAsg s 0 0 g.core y tBind (.lin 0x800#80 (denseTerms tEuler tBind (tBind.vec tBind.work 2) 0x3FF0000000000000#64 0)) with
        | some (some _), (_, .ok ()) => true | _, _ => false))) ∧
    Meets (.stepQry (tHd 7#3) 4#8 (.slice 0#9)) (tStep 0x800 tCtx [] id) (onCtx fun _ _ y => decide (queryTheta y tEuler 0#64 = none)) ∧
    (let s := tStep 0 { tRun with phase := .comb .candidate } [] id
     tget s.ctxs 0 = some { tRun with phase := .comb .candidate } ∧
      (match readVec s 0 0 { tRun with phase := .comb .candidate } tBind tBind.state 1 with
       | (v, .ok _) => (match runAsgs v 0 0 0 { tRun with phase := .comb .candidate } tBind (planOf { tRun with phase := .comb .candidate } tEuler tBind .candidate) with
          | (_, .ok ()) => true | _ => false)
       | _ => false) = true) ∧
    (let s := tStep 0 { tRun with phase := .call (.rhs 0 0 0) } [] id
     (tget s.teams 7).any fun t => decide (t.groups.filter (fun gid => match s.group? gid with | some g => decide (g.role = tBind.role) | none => false) ≠ [])) ∧
    (let held := fun s : State => { s with held := [{ w := tCtx.writer 0 0 0 0, line := 4, die := 1, old := [(512, 0#8)], until_ := 99, readers := [] }] }
     agentLanded (tStep 0 tCtx [] id) 0 tCtx.agent = true ∧ agentLanded (held (tStep 0 tCtx [] id)) 0 tCtx.agent = false) ∧
    ({ tRun with owing := [] } : StepCtx).owing = [] ∧ tRun.settling.all (performed (tStep 0 tRun [] id) (ctxDie 0) tBind.scope) = true ∧ tRun.owing ≠ [] :=
  ⟨meets_of _ _ _ (by decide +kernel), meets_of _ _ _ (by decide +kernel), by decide +kernel, by decide +kernel, by decide +kernel, by decide +kernel, by decide +kernel, by decide +kernel⟩

/-- A launch record of one group, the same with a bad entry, and a queue that is full. -/
theorem witness_Launch :
    (let m : Memory := [(0x110A, 1#8), (0x110C, 1#8), (0x110E, 1#8), (0x1110, 1#8), (0x1114, 1#8)]
     let s := tHere 0#64 (tCopyGroup 0x1100 8) fun s => { s with mem := m }
     Meets (.sysLaunch (tHu 0#3) 4#8 (.ureg 8#8) 4#3) s fun s g _ k => decide (k ≠ 0#96 ∧ released s 0 0 (g.slot false).uniMask 4 s.seqNo = true ∧
        (s.die 0).queue.length < 64) && readOk s g 0x1100 40 fun r => (parseLaunch r).any fun p => decide (p.2.1 = 0 ∧ launchFits p.1 = true)) ∧
    Meets (.sysLaunch (tHu 0#3) 4#8 (.ureg 8#8) 4#3) (tHere 0#64 (tCopyGroup 0x1100 8) fun s => { s with mem := [] }) (fun s g _ _ => readOk s g 0x1100 40 fun r => (parseLaunch r).isNone) ∧
    Meets (.sysLaunch (tHu 0#3) 4#8 (.ureg 8#8) 4#3) (tHere 0#64 id fun s => s.setDie 0 { Die.reset with queue := List.range 64 })
      (fun s _ _ _ => decide (64 ≤ (s.die 0).queue.length)) ∧
    noGrid.record.det = false ∧ noGrid.record.tokens = [] :=
  ⟨meets_of _ _ _ (by decide +kernel), meets_of _ _ _ (by decide +kernel), meets_of _ _ _ (by decide +kernel), by decide +kernel⟩

def tInv : TlbInv :=
  { fence := { id := 9, gid := 0, lanes := 1#96, succ := 0#4, scope := 4#3, waits := [], more := [],
               counted := false, ctr := 0#2, ends := none }, tenant := 0, lo := 0x1000, log := 12, die := none }

/-- The other words of the supervisor, and what ends them. -/
theorem witness_SupervisorWords :
    (∀ i ∈ [Instr.sysTlbinv (tHd 0#3) 4#8 13#8 4#3, .sysCarve (tHd 0#3) 4#8, .sysReplay (tHd 0#3) 4#8, .sysEfail (tHd 0#3) 4#8, .sysDebug (tHd 0#3) 8#8 9#8,
      .sysSlice (tHd 0#3) 8#8 9#8], Meets i (tHere 0#64 (tCopyGroup 0x20000 12) id) runs') ∧
    Meets (.sysCarve (tHd 0#3) 4#8) (tHere 0#64 (tCopyGroup 0x20000 12) id) (fun s g _ _ => decide (((g.kreg g.s0 4).extractLsb' 0 11).toNat = 0 ∧ (s.core 0 0).carveTo = none)) ∧
    Meets (.sysCarve (tHd 0#3) 4#8) (tHere 0#64 (tCopyGroup 0x20000 12) fun s => s.setCore 0 0 { s.core 0 0 with carveTo := some 2 }) (fun s _ _ _ => decide ((s.core 0 0).carveTo.isSome = true)) ∧
    Meets (.sysHalt (tHd 0#3) 4#8) (tHere 0#64 id fun s => { s with grids := [(0, noGrid)] }) (fun s g _ m => decide (m ≠ 0#96) && (tget s.grids (g.kreg g.s0 4).toNat).isSome) ∧
    (tPlain.group? 0).any (fun g => decide (g.parkedAll = none ∧ tPlain.grids = [] ∧ tPlain.saved = [])) ∧
    ((tHere 0#64 (fun g => { g with parkedAll := some (0, 6#32) }) id).groups.map fun p => p.2.parkedAll) = [some (0, 6#32)] ∧
    (let s := { tPlain with tlbinvs := [tInv] }
     (s.tlbinvs.find? fun x => x.fence.id = 9) = some tInv ∧ fenceMet s tInv.fence tInv.fence.waits = true ∧
      fenceMet { s with stores := [{ tStore .g [] [] with id := 3 }] } tInv.fence [3] = false) ∧
    (let c : CoreSt := { CoreSt.reset with carveTo := some 2, carveBy := some (0, 1#2) }
     let s : State := { State.reset with cores := [(0, c)] }
     s.core 0 0 = c ∧ ¬ (2 < c.carve ∧ scratchAbove s 0 0 (2 * 2 ^ 17) = true)) ∧
    (let c : CoreSt := { CoreSt.reset with carveTo := some 0 }
     let s := { tPlain with cores := [(0, c)] }
     0 < c.carve ∧ scratchAbove s 0 0 (0 * 2 ^ 17) = true) ∧
    (let c := { tCopy (some 4) with stopped := some (0, 6#32) }
     ({ tPlain with copies := [c] } : State).copies = [c] ∧ tPlain.progs = [] ∧ tPlain.ctxs = [] ∧ c.stopped = some (0, 6#32)) ∧
    ({ tPlain with ctxs := [(0, { tRun with stopped := some (0, 6#32) })] } : State).ctxs = [(0, { tRun with stopped := some (0, 6#32) })] :=
  ⟨all_run (by decide +kernel), meets_of _ _ _ (by decide +kernel), meets_of _ _ _ (by decide +kernel), meets_of _ _ _ (by decide +kernel), by decide +kernel,
    by decide +kernel, by decide +kernel, by decide +kernel, by decide +kernel, by decide +kernel, rfl⟩

/-- A header that a group or a program may begin, one that waits for a counter, and one whose words do not translate. -/
theorem witness_ClauseIssue :
    (let s := tHere 0xFC08800000000000#64 (fun g => { g with s0 := { g.s0 with left := 0 } }) id
     s.cur = .slot 0 false ∧ (encode (.clauseIssue 1#3 0#4 7#3 true)).isSome = true ∧
      (s.group? 0).any fun g => decide (g.sup = true ∧ g.ctr 1#2 = 0 ∧ g.ctr 2#2 = 0 ∧ g.ctr 3#2 = 0) &&
        (match clauseFetch s g 0x1008#80 1 with | (_, .ok ()) => true | _ => false) && (match clauseFetch s g 0x2000#80 1 with | (_, .error _) => true | _ => false)) ∧
    ((tHere 0#64 (fun g => { g with c := Vector.replicate 3 1 }) id).group? 0).any (fun g => decide (g.ctr 1#2 ≠ 0)) ∧
    (let s := tProgState (tProg 1) id
     s.cur = .prog 4 ∧ (s.prog? 4).any fun p => decide (p.cls = 3#3)) := by decide +kernel

/-- A quadrant whose port is free, with a slot to choose; one that has waited for 256 cycles; one that has the port. -/
theorem witness_IssueChoice :
    (let s := tHere 0xFC08800000000000#64 (fun g => { g with s0 := { g.s0 with left := 0 } }) id
     portHolder s 0 = none ∧ (candidates s 0).length = 1 ∧ (∀ d ∈ candidates s 0, d.waited < 256) ∧ slotReady s 0 false = true) ∧
    (let s := tHere 0xFC08800000000000#64 (fun g => { g with s0 := { g.s0 with left := 0 } }) fun s => { s with now := 256#64 }
     (∃ d ∈ candidates s 0, 256 ≤ d.waited) ∧ (s.group? 0).any fun g => decide (g.s0.readyAt + 256 ≤ s.now.toNat)) ∧
    (let s := tHere 0x08DDC28059FFC0C0#64 id fun s => { s with quads := [(0, { Quad.reset with last := some (0, false), holds := true })] }
     portHolder s 0 = some (0, false) ∧ portHolder { s with quads := [(0, { Quad.reset with last := some (0, false) })] } 0 = none) := by decide +kernel

/-- A path that waits at the bottom of the stack when a rotation is due; a record that waits for the fault queue, and a full one; a page whose
leaf lies in the root table, one with none; a program whose next word does not translate, and a copy
whose source does not. -/
theorem witness_RotationQueueAndWalk :
    (let s := tHere 0#64 (fun g => { g with
        rotCount := 256, s0 := { g.s0 with left := 0, owned := 1#96, mask := 1#96 }, s1 := { g.s0 with left := 0, owned := 2#96, mask := 2#96 },
        stack := [{ joinEntry g 0#80 0#96 with join := none, pathPc := 0x40#80, path := 4#96 }] }) id
     (s.group? 0).any fun g => decide (256 ≤ g.rotCount ∧ 3 ≤ g.paths ∧ slotRuns s g (rotationTurn s g) = true ∧ (g.slot (rotationTurn s g)).wait = .ready ∧
       (g.slot (rotationTurn s g)).left = 0 ∧ (takeBottom g).isSome = true)) ∧
    (let r : FaultRec := { addr := 0#80, cause := 6#8, kind := 6#8, tenant := 0, core := 0, place := 0#8, mask := 0#96, seq := 0#32 }
     let d := { Die.reset with mfqWait := [r] }
     d.mfqtail + 1#12 ≠ d.mfqhead ∧ d.mfqWait = [r] ∧ { d with mfqhead := 1#12 }.mfqtail + 1#12 = { d with mfqhead := 1#12 }.mfqhead) ∧
    (let s := tHere 0#64 id fun s => { s with mem := [(0, 0x3F#8)] }
     (s.group? 0).any fun g => decide (tlbHit (s.core g.die g.core).tlb g.tenant 0x10#80 = none ∧ tlbHit (s.die g.die).tlb g.tenant 0x10#80 = none ∧
        (walk s g.die g.core g.tenant g.sup 0x10#80 .read).2.toOption.isSome = true ∧ (walk s g.die g.core g.tenant g.sup (BitVec.ofNat 80 (2 ^ 79)) .read).2.toOption = none ∧
        (tlbHit (s.core g.die g.core).tlb g.tenant 0x1000#80).isSome = true)) ∧
    (let s := tProgState { tProg 1 with pc := 0x2000#80 } id
     (s.copies.find? fun c => c.id = 4).isNone = true ∧ progReady s 4 = true ∧ (s.prog? 4).any fun p => (fetchAt s p.die p.core p.tenant false p.pc).2.toOption.isNone) ∧
    (let c := { tCopy none with sspace := .g, src := 0x8000#80 }
     let s := { tPlain with copies := [c] }
     (s.copies.find? fun x => x.id = 11) = some c ∧ c.moved = false ∧ c.stopped = none ∧ stillPending s c.after = false ∧ c.idxs.isSome = true ∧ c.kind.reads = true ∧ c.data = none ∧
      (match moveKeys s c c.sspace .read (c.moves.map Prod.snd) with | (_, .error (.inr _)) => true | _ => false) = true) := by
  decide +kernel
/-! ### Witnesses: grids, teams, tasks, partitions and the host -/

def tWait (target : Nat) : Token := { addr := 0x1000#80, signal := false, target := BitVec.ofNat 32 target }
def tSignal : Token := { addr := 0x1000#80, signal := true, target := 0#32 }

/-- A grid of one team of one group. -/
def tGrid (f : Grid → Grid) : Grid :=
  f { noGrid with num := 3#32, record := { noGrid.record with entry := 0x1000#80, budgets := [1, 0, 0, 0], taskBudget := 1, args := [7#32] } }

/-- Grid 3 alone, in the queue of die 0. -/
def tQueue (f : Grid → Grid) (u : State → State) : State :=
  let s := State.reset.withFetchWord 64 0
  u ({ s with groups := [], grids := [(3, tGrid f)] }.setDie 0 { Die.reset with queue := [3] })

/-- A wait token whose target is reached, one that is not, and one that does not translate. -/
theorem witness_Tokens :
    (let s := tQueue (fun g => { g with eligible := false, record := { g.record with tokens := [tWait 0] } }) fun s => { s with now := 1200#64 }
     (s.die 0).polledAt + 1200 ≤ s.now.toNat ∧ State.reset.now.toNat < (State.reset.die 0).polledAt + 1200 ∧ s.grids = [(3, tGrid fun g => { g with eligible := false, record := { g.record with tokens := [tWait 0] } })] ∧
      (readTokens s 0 0 [] 0 [tWait 0]).2 = (true, [])) ∧
    (let s := tQueue id id
     (readTokens s 0 0 [] 0 [tWait 0, tSignal, tWait 1]).2 = (false, []) ∧ (readTokens s 0 0 [(0, 5#32)] 0 [tWait 0]).2 = (false, []) ∧
      (readTokens s 0 0 [] 0 [{ tWait 0 with addr := 0x8000#80 }, tWait 0]).2 = (false, [(0, 0#32)]) ∧
      (match xlateBytes s 0 0 0 true .read ((List.range 4).map fun i => 0x8000#80 + BitVec.ofNat 80 i) with | (_, .error _) => true | _ => false) = true ∧
      (match xlateBytes s 0 0 0 true .read ((List.range 4).map fun i => 0x1000#80 + BitVec.ofNat 80 i) with | (_, .ok ks) => ks.length | _ => 0) = 4 ∧
      (match xlateBytes s 0 0 0 true .atomic ((List.range 4).map fun i => 0x1000#80 + BitVec.ofNat 80 i) with | (_, .ok ks) => ks.length | _ => 0) = 4) := by
  decide +kernel

/-- A grid with a team to place, one outside its tenant's slice, and one whose teams are placed. -/
theorem witness_Placement :
    (let s := tQueue id id
     (s.tenant 0).inSlice = true ∧ s.saved = [] ∧ (tget s.grids 3).isSome = true ∧ 1 ≤ (tGrid id).record.teams ∧ (tGrid id).placed < (tGrid id).record.teams ∧
      (placementOrder s 0).length = 1 ∧ (grantDs s 3 (tGrid id)).isSome = true ∧ (placeTeam s 3 (tGrid id)).isSome = true ∧
      (tGrid id).record.args.length ≤ 32 ∧ (tGrid id).record.groups = 1 ∧ (findCluster s (tGrid id) (newDemands (tGrid id))).any (fun x => decide (x.1 < 8)) = true) ∧
    ((State.reset.setTenant 0 { Tenant.reset with inSlice := false }).tenant 0).inSlice = false ∧ (tGrid fun g => { g with placed := 1 }).placed = noGrid.record.teams ∧
    (placeTeam (tQueue id id) 3 (tGrid fun g => { g with record := { g.record with scratch := 2 ^ 21 } })) = none := by decide +kernel

/-- A grid that is over and quiet, with a signal token that translates and with one that does not; and one whose task still runs. -/
theorem witness_GridEnd :
    (let g := tGrid fun g => { g with ended := 1, record := { g.record with tokens := [tSignal] } }
     let s := tQueue (fun g => { g with ended := 1, record := { g.record with tokens := [tSignal] } }) id
     tget s.grids 3 = some g ∧ g.eligible = true ∧ g.tokenStops = [] ∧ gridEnded s 3 g = true ∧ gridQuiet s 3 g = true ∧
      (match signalTokens s 3 0 0 [tSignal] with | (u, none) => decide (u.grids.map Prod.fst = [3]) | _ => false) = true ∧
      (match signalTokens s 3 0 0 [{ tSignal with addr := 0x8000#80 }] with | (_, some _) => true | _ => false) = true) ∧
    gridEnded (tQueue id id) 3 (tGrid fun g => { g with ended := 1, tasks := 1 }) = false := by decide +kernel

/-- A team that has waited for a quantum while another has been resident for one; a drain that is due; a group to save. -/
theorem witness_SlicesAndSaves :
    (let s := tQueue id fun s => { s with now := 5000000#64, teams := [(7, tTeam)] }
     (s.die 0).slicing = none ∧ s.groups = [] ∧ (sliceChoice s 0 (waitingTeams s (placementOrder s 0))).any (fun x => decide (x.2 = 7)) = true) ∧
    (({ Die.reset with slicing := some (7, 3, none) } : Die).slicing = some (7, 3, none)) ∧
    (let s := tQueue (fun g => { g with placed := 1 }) id
     sliceChoice s 0 (waitingTeams s (placementOrder s 0)) = none) ∧
    (let s := { tPlain with now := 9#64 }.setTenant 0 { Tenant.reset with drainAt := some 9 }
     (s.tenant 0).drainAt = some 9 ∧ 9 ≤ s.now.toNat ∧ s.groups.all fun p => decide (p.2.tenant = 0 ∧ p.2.sup = true)) ∧
    (∀ p ∈ (tHere 0#64 (fun g => { g with sup := false }) id).groups, p.2.tenant = 0 ∧ p.2.sup = false ∧ p.2.saving = false) ∧
    (let g := tGroup fun g => { g with team := none, grid := 3 }
     let u := fun (n : BitVec 16) => (tQueue id fun s => { s with groups := [(0, g)] }).setTenant 0 { Tenant.reset with csabase := 0x1000#80, csasize := 16#16, csacount := n }
     saveSettled (u 1#16) 0 = true ∧ tget (u 1#16).teams 0 = none ∧ (u 1#16).group? 0 = some g ∧ g.team = none ∧ g.stack = [] ∧ g.parkedAll = none ∧
      (tget (u 1#16).grids g.grid).isSome = true ∧ (findSlot (u 0#16) g.die g.tenant (recordSize 0 0 1)).2 = none ∧
      (findSlot (u 1#16) g.die g.tenant (recordSize 0 0 1)).2 = some 0x1000#80) ∧
    saveSettled { tPlain with stores := [tStore .sc [] []] } 7 = false := by decide +kernel

/-- Gathered groups: one that does not wait, one that waits with nothing behind it, and one that has waited for 4,096 cycles on a full core;
a saved one that may return. -/
theorem witness_GatheredGroups :
    (let f := fun g : Group => { g with team := none, sup := false }
     ((tHere 0#64 f id).group? 0).any (fun g => !groupStuck (tHere 0#64 f id) 0 g) = true) ∧
    (let r := tReq .futWait .sc 7#3 7#96 0 8
     let f := fun g : Group => { g with team := none, sup := false, blockedAt := some 0, s0 := { g.s0 with wait := .futWait, req := some r } }
     let many := (List.range 64).map fun n => (n, { tGroup f with quad := n / 16, gslot := n % 16 })
     let s := { tPlain with groups := many, grids := [(3, tGrid id)], now := 4096#64, deques := [(0, { Deque.reset with tasks := [{ grid := 3, entry := 0#80, arg := 0#256, idx := 0#128 }] })] }
     (s.group? 0).any fun g => groupStuck s 0 g && coreCrowded s g && saveSettled s 0 && decide (g.blockedAt = some 0)) ∧
    (let g := tGroup fun g => { g with team := none, grid := 3 }
     let x : Saved := { key := 0, team := none, groups := [(0, g)], grid := 3, tenant := 0, die := 0, slotAddr := 0#80, ctx := none, units := [], progs := [],
                        loads := [], waitSince := 0, drained := false, settled := [], watch := some [(64, 1#8)] }
     let s := tQueue id fun s => { s with saved := [x] }
     (s.saved.find? fun y => y.key = 0) = some x ∧ x.team = none ∧ watchChanged s x = true ∧ (s.tenant 0).inSlice = true ∧
      restoreSaved { s with grids := [] } x = none) := by decide +kernel

def tTask (n : Nat) : Task := { grid := 3, entry := 0x1000#80, arg := 5#256, idx := BitVec.ofNat 128 n }

/-- Tasks to gather, with a quadrant and without one; an idle thief and one whose round is over; a victim that is asked. -/
theorem witness_TasksAndThieves :
    (let s := tQueue id fun s => { s with deques := [(0, { Deque.reset with tasks := [tTask 1, tTask 2] })] }
     (s.deque 0).tasks = tTask 1 :: [tTask 2] ∧ (nextTask s 0).any (fun x => decide (x.1 = tTask 1 ∧ x.2.2.1 = 0 ∧ x.2.2.2.1 = 0)) = true ∧
      formTurn (s.core 0 0).tgaLast (formable s 0 0) = some 0 ∧ formTurn none (formable s 0 0) ≠ some 1 ∧ nextTask s 64 = none) ∧
    (let s := tQueue id id
     let t := thiefOf s 64
     (s.deque 64).tasks = [] ∧ couldForm s 64 = true ∧ couldForm State.reset 64 = false ∧ t.req = none ∧ t.emptyAt = none ∧ t.left = [] ∧
      mayAsk s 64 65 = true ∧ (64 < 24 * 64)) ∧
    (let s := (tQueue (fun g => { g with record := { g.record with det := true }, spinel := [0x80000000#32] }) id).setCore 0 0
        { CoreSt.reset with thief := { Thief.reset with left := [1] } }
     (s.deque 0).tasks = [] ∧ couldForm s 0 = true ∧ (thiefOf s 0).req = none ∧ (thiefOf s 0).emptyAt = none ∧ stealOrder s 0 = []) ∧
    (let s := (tQueue id fun s => { s with deques := [(0, { Deque.reset with tasks := [tTask 1] })] }).setCore 0 1
        { CoreSt.reset with thief := { Thief.reset with req := some (0, 0) } }
     requestsAt s 0 ≠ [] ∧ (stealRound false (requestsAt s 0)).2.isSome = true ∧ (s.deque 0).tasks ≠ []) ∧
    (let s := { State.reset with now := 256#64 }.setCore 0 1 { CoreSt.reset with thief := { Thief.reset with emptyAt := some (0, 0) } }
     (thiefOf s 1).emptyAt = some (0, 0) ∧ 0 + 256 ≤ s.now.toNat ∧ (s.die 0).pushes = 0) := by decide +kernel

/-- Die 0 with a page of tables from 2^40 on. -/
def tParts (d : Die) : State :=
  State.setDie { State.reset with now := 1200#64, cores := [(0, { CoreSt.reset with tlb := [{ wordEntry with base := 2 ^ 40, log2 := 32, phys := 2 ^ 33 }] })] } 0 d

/-- A busy partition command of each section, whose table translates or not, all of whose bytes are zero; a bad owner. -/
theorem witness_PartitionCommands :
    (∀ p ∈ [(0, 0, 256), (1, 0x100, 512)],
      let d := { Die.reset with partbusy := true, partcmd := BitVec.ofNat 10 (p.1 * 256), partbase := BitVec.ofNat 80 (2 ^ 40) }
      let s := tParts d
      (s.die 0).partbusy = true ∧ ((s.die 0).partcmd.extractLsb' 8 2).toNat = p.1 ∧
        (match devRead s 0 0 ((s.die 0).partbase + BitVec.ofNat 80 p.2.1) p.2.2 with | (_, some bs) => decide (bs.length = p.2.2) | _ => false) = true ∧
        (devRead { s with cores := [] } 0 0 ((s.die 0).partbase + BitVec.ofNat 80 p.2.1) p.2.2).2 = none) ∧
    (∀ n ∈ [2, 3], (({ Die.reset with partbusy := true, partcmd := BitVec.ofNat 10 (n * 256) } : Die).partcmd.extractLsb' 8 2).toNat = n) ∧
    (0x40#8 ≠ 0xFF#8 ∧ (0x40#8).getLsbD 6 = true ∧ 64 ≤ (0x40#8).toNat) ∧ State.reset.now.toNat / 1200 ≤ (State.reset.die 0).accounted := by decide +kernel

set_option maxRecDepth 40000 in
/-- The section of the buckets, and that of the ways, read whole. -/
theorem witness_PartitionCommands_long :
    let s := tParts { Die.reset with partbase := BitVec.ofNat 80 (2 ^ 40) }
    (devRead s 0 0 ((s.die 0).partbase + 0x2480#80) 0x1020).2.isSome = true ∧ (devRead s 0 0 ((s.die 0).partbase + 0x400#80) 0x2080).2.isSome = true := by
  decide +kernel

/-- Quadrants whose owner may change and may not; a way under sweep, a line in it; a dirty line and a clean one; windows that have begun. -/
theorem witness_PartitionsAndUpkeep :
    (∃ p ∈ (tHere 0#64 (fun g => { g with sup := false }) id).onQuad 0 0 0, ¬ ((5#8 : BitVec 8) = 0xFF#8 ∨ ((5#8 : BitVec 8).extractLsb' 0 6).toNat = p.2.tenant)) ∧
    (∀ p ∈ (tHere 0#64 (fun g => { g with sup := false }) id).onQuad 0 0 0, ((0#8 : BitVec 8).extractLsb' 0 6).toNat = p.2.tenant) ∧
    (let f : L2Line := { line := 1, die := 0, slice := 1, way := 0, valid := 15#4, dirty := 15#4, mask := BitVec.allOnes 128, data := 9#1024, tenant := 0, kept := false,
                         rewritten := 0#128, stamp := 0 }
     let s : State := { State.reset with l2 := [f], dies := [(0, { Die.reset with sweeps := [{ slice := 1, way := 0, tenant := 0 }] })] }
     (∃ w ∈ (s.die 0).sweeps, w.slice = 1 ∧ w.way = 0) ∧ f ∈ s.l2 ∧ (∀ x ∈ s.l2, x.line = f.line → x = f) ∧ Memory.wf s.mem = true ∧ (∀ x ∈ s.l2, x.line < 2 ^ 45) ∧ (s.l2.map L2Line.line).Nodup ∧
      (∃ e ∈ s.l2, e.line = 1 ∧ e.dirty ≠ 0#4)) ∧
    wayConcerns { Die.reset with ways := [(0, 2#24)] } 0 0 0 = false ∧ wayConcerns { Die.reset with ways := [(0, 2#24)] } 0 1 0 = true ∧
    (∃ gid g, tPlain.groups = [(gid, g)] ∧ g.halted = false) ∧
    (let s : State := { State.reset with now := 2400#64 }
     let d := { s.die 0 with coeffs := Vector.replicate 8 1#32 }
     (s.die 0).window < s.now.toNat / 1200 ∧ (s.die 0).accounted < s.now.toNat / 1200 ∧ (∀ i : Fin 8, (s.die 0).coeffs[i] = 0#32) ∧ (∃ i : Fin 8, d.coeffs[i] ≠ 0#32)) ∧
    (devRead { State.reset.withFetchWord 64 0 with fresh := 8 } 0 0 0x1000#80 8).2.isSome = true :=
  ⟨by decide +kernel, by decide +kernel, by decide +kernel, by decide +kernel, by decide +kernel, ⟨0, _, rfl, rfl⟩, by decide +kernel, by decide +kernel⟩

/-- A flit that waits for a lease and one that does not, the last of whose attempts has failed; accesses of the host and of another
module inside their windows; the mailbox's accesses. -/
theorem witness_HostFabricAndMailbox :
    (let f : Flit := { id := 5, parent := 4, gid := 0, agents := 1#96, eng := none, die := 0, core := 0, tenant := 0, retries := 8, keys := [3 * 2 ^ 52],
                       bytes := [1#8], s1 := false, trap := false, va := 0#80, ctr := 0#2, mse := [], reserve := [] }
     let s : State := { State.reset with flits := [f] }
     (s.flits.find? fun x => x.id = 5) = some f ∧ s.leases = [] ∧ (∀ q ∈ s.flits, ¬ q.id < f.id) ∧ 8 ≤ f.retries ∧ { f with retries := 7 }.retries < 8 ∧
      (∃ l ∈ [({ line := 3 * 2 ^ 45, die := 32, expiry := 9, copy := true, data := 0#1024, slice := 0, way := 0, tenant := 0, kept := false, stamp := 0 } : Lease)], s.now.toNat < l.expiry ∧ ∃ k ∈ f.keys, lineOf k = l.line) ∧
      -- the flit of an atomic, and an engine's, after an earlier one to the same place or not
      s.accs = [] ∧ (({ s with accs := [{ tAcc (.atomic 1#6) .g f.keys with id := 5 }] } : State).accs.find? fun x => x.id = 5).any (fun a => decide (a.op = .atomic 1#6)) = true ∧
      ({ f with eng := some 4 } : Flit).eng = some 4 ∧ State.reset.flits = []) ∧
    ((tProgState (tProg 1) id).prog? 4 = some (tProg 1) ∧ tPlain.prog? 11 = none ∧ (({ tPlain with copies := [tCopy none] } : State).copies.find? fun x => x.id = 11) = some (tCopy none) ∧
      tPlain.copies = [] ∧ ([(0, tCtx)].find? fun x : Nat × StepCtx => x.2.agent = 5) = some (0, tCtx)) ∧
    (State.reset.posted = [] ∧ State.reset.leases = [] ∧ State.reset.held = [] ∧ (∀ x ∈ upFrom 64 4, ownMemory State.reset x = true) ∧
      (∃ x ∈ upFrom (2 ^ 36 - 2) 4, ownMemory State.reset x = false) ∧ (2 ^ 36 - 4 + 4 ≤ 2 ^ 36) ∧
      (∃ x ∈ upFrom (2 ^ 36 - 4) 4, ownMemory State.reset x = false)) ∧
    (let s : State := { State.reset with expBase := 0, expSize := 4096 }
     0 + 4 ≤ s.expSize ∧ ∀ x ∈ upFrom (s.expBase + 0) 4, ownMemory s x = true) ∧
    (let p : Posted := { id := some 3, addr := 0, bytes := [] }
     ({ State.reset with posted := [p] } : State).posted.head? = some p ∧
      ∃ h ∈ [({ w := Writer.device 3 0, line := 0, die := 0, old := [], until_ := 0, readers := [] } : Held)], h.w.id = 3) ∧
    ((8 = 4 ∨ 8 = 8) ∧ 0x1000 % 8 = 0 ∧ (0x80000100#64 : Word64).getLsbD 31 = true ∧ (0x80000100#64 : Word64).extractLsb' 0 16 ≠ 1#16 ∧
      (0x80000100#64 : Word64).extractLsb' 0 16 ≠ 2#16 ∧ (0x100#64 : Word64).getLsbD 31 = false) ∧
    (State.reset.mbox.go = false ∧ ({ State.reset.mbox with go := true } : Mailbox).go = true) := by decide +kernel
/-! ### Witnesses: the corners of the statements -/

/-- A block without a scale operand; views that are malformed, that may trap at their end, and that trap at once. -/
theorem witness_BlocksAndViews :
    Meets (.blkq (tHd 7#3) 0#9 64#9 none 4#3 1#3 0#3) tPlain calm ∧
    Meets (.lzcmpExt (tHd 5#3) 2#3 (.imm 4#9)) (tHere 0#64 (fun g => { g with slices := constLanes (BitVec.allOnes 2048) }) id)
      (fun _ g _ m => decide (m &&& maskOf (fun l => decide (48 < (g.view l 2#3).count)) ≠ 0#96)) ∧
    Meets (.lzval (tHd 5#3) (.slice 0#9) 2#3 0#3) (tHere 0#64 (fun g => { g with fpctl := fLzx.setWidth 32 <<< 8 }) id)
      (fun _ g _ m => decide (m ≠ 0#96 ∧ trapEnables g &&& (fLzx ||| fNx) ≠ 0#6)) ∧
    Meets (.srnd (tHd 3#3) (.slice 0#9) (.slice 8#9) 2#3 2#3 1#3)
      (tHere 0#64 (fun g => { g with fpctl := fNv.setWidth 32 <<< 8, slices := constLanes (BitVec.ofNat 2048 (0x7F800001 * 2 ^ 32)) }) id)
      (fun s g _ _ => decide (trapEnables g &&& (fLzx ||| fNx) = 0#6 ∧ (g.view 0 2#3).count = 0 ∧
        (convTo (Format.ofCode 2#3) .sr (ftzOn g) (readF s g g.s0 0 (.slice 8#9) (Format.ofCode 1#3)) fun q more => (g.view 0 2#3).less g.agkey q more).flags &&&
          trapEnables g ≠ 0#6)) :=
  ⟨meets_of _ _ _ (by decide +kernel), meets_of _ _ _ (by decide +kernel), meets_of _ _ _ (by decide +kernel), meets_of _ _ _ (by decide +kernel)⟩

/-- Ordered atomics of a retired index, that wait for admission or for the floor, and that come first for the reserve; an atomic behind
another; a grid without an open index, and one that retires its lanes out of order. -/
theorem witness_FloorsAndTurns :
    Meets (.atomo (tHd 5#3) (.slice 64#9) (.slice 0#9) (.slice 32#9) 0#2 1#6) (tHere 0#64 (fun g => { g with retiredIdx := 1#96 }) id) (fun s g _ m =>
      decide (m &&& g.retiredIdx ≠ 0#96 ∧ memTrap s g { tReq (.ordered 1#6) .g 5#3 m 0 4 with } 4 4 (some true) m = none)) ∧
    (let a := tAcc (.ordered 1#6) .g [64, 65, 66, 67]
     let at_ := fun f : BitVec 128 => { tPlain with accs := [a], grids := [(3, { noGrid with floor := some f })] }
     a.admitted = false ∧ (at_ 1#128).floorOf a.grid ≠ some a.idx ∧ accDue (at_ 0#128) a = false ∧ accDue (at_ 1#128) { a with admitted := true } = false) ∧
    (let a := tAcc (.atomic 1#6) .g [64, 65, 66, 67]
     let b := { a with id := 10, parent := 9 }
     ∃ x ∈ ({ tPlain with accs := [b, a] } : State).accs, x.id < a.id ∧ x.gid = a.gid ∧ x.agents &&& a.agents ≠ 0#96) ∧
    (let a := { tAcc (.ordered 1#6) .g [64, 65, 66, 67] with rejected := true, age := 8 }
     let s := { tPlain with accs := [a], grids := [(3, noGrid)] }
     0 < (freeEntries s a.die a.core).2 ∧ 8 ≤ a.age ∧ ∀ c ∈ claimants s a.die a.core, c.id = a.parent ∨ Claimant.before c ⟨0, a.age, a.parent⟩ = false) ∧
    (let gr := { noGrid with low := 96 }
     computeFloor { tPlain with grids := [(3, gr)] } 3 gr = none ∧ gr.late = [] ∧ gr.digests = [] ∧ gr.again = none) ∧
    (let gr := { noGrid with retired := [2, 5] }
     gr.retired.Pairwise (· < ·) ∧ ∀ x ∈ gr.retired, gr.low < x) :=
  ⟨meets_of _ _ _ (by decide +kernel), by decide +kernel, by decide +kernel, by decide +kernel, by decide +kernel, by decide +kernel⟩

/-- Returns at depth 0, in trap mode and in a region too, to two headers, to a word that is none, to frames that do not translate, and where no
transfer may stand. -/
theorem witness_ReturnsThatPart :
    let deep := fun (b : Nat) (f : Group → Group) => tHere 0xFC08800000000000#64 (fun g => f { tTwo 8 g with cdepth := constLanes 1#13 })
      fun s => homePuts (tCode s) 0 0#2 [10187964417, 10187964421, 10187964416, 10187964420] [0x10#8, 0x10#8, 0#8, BitVec.ofNat 8 b]
    let frames := fun (s : State) (g : Group) (p : State → List (Nat × Addr) → Bool → Bool) => let r := readFrames s 0 false g 3#96; p r.1 r.2.1 r.2.2
    (∀ p ∈ [((fun g => g : Group → Group), fun g : Group => decide (g.trapMode = false ∧ g.region = none)), (tTrapped, fun g => g.trapMode),
        ((fun g => { g with region := some (tRegion g) }), fun g => decide (g.trapMode = false ∧ g.region.isSome = true))],
      Meets (.ret (tHd 0#3)) (tControl 8 p.1) fun _ g _ _ => p.2 g && decide (retLanes (tHd 0#3) g g.s0 = 3#96 ∧ ∀ l ∈ [(0 : Lane), 1], g.cdepth[l] = 0#13)) ∧
    Meets (.ret (tHd 0#3)) (deep 0x18 id) (fun s g _ _ => frames s g fun u fs stop => decide (stop = false ∧ tget fs 0 = some 0x1000#80 ∧
      tget fs 1 = some 0x1018#80 ∧ landing u g 0x1000#80 = .header ∧ landing u g 0x1018#80 = .header ∧ g.stack.length ≤ 32)) ∧
    Meets (.ret (tHd 0#3)) (deep 8 id) (fun s g _ _ => frames s g fun u fs stop => decide (stop = false ∧ tget fs 1 = some 0x1008#80 ∧ landing u g 0x1008#80 = .bad)) ∧
    Meets (.ret (tHd 0#3)) (deep 0 fun g => { g with lpbase := 0x8000#80 }) (fun s g _ _ => frames s g fun _ _ stop => stop) ∧
    (let s := deep 0 fun g => { g with s0 := { g.s0 with left := 2 } }
     s.cur = .slot 0 false ∧ (s.group? 0).any fun g => decide (g.s0.left ≠ 1) && frames s g fun _ _ stop => !stop) ∧
    (let sl := fun g : Group => { g.s0 with frames := [(0, 0x1000#80)] }
     (tPlain.group? 0).any fun g => decide (3#96 &&& maskOf (fun l => decide (∀ p ∈ (sl g).frames, p.1 ≠ l.val)) = 2#96)) := by
  refine ⟨fun p hp => ?_, meets_of _ _ _ (by decide +kernel), meets_of _ _ _ (by decide +kernel), meets_of _ _ _ (by decide +kernel), by decide +kernel, by decide +kernel⟩
  simp only [List.mem_cons, List.not_mem_nil, or_false] at hp
  rcases hp with rfl | rfl | rfl <;> exact meets_of _ _ _ (by decide +kernel)

/-- 1, 2 and −1 in FP64. -/
def one64 : Word64 := 0x3FF0000000000000#64
def two64 : Word64 := 0x4000000000000000#64
def neg1 : Word64 := 0xBFF0000000000000#64

/-- Queries past the step and at its end; elements of combinations; norms, whose sums are numbers, infinite and none; the controller; Newton
iterations that end in each way. -/
theorem witness_StepperValues :
    (let x := { tCtx with st := .stopped, retained := some { ts := 0#64, hs := one64, tEnd := one64, thetaMax := one64 } }
     queryTheta x tEuler one64 = some none ∧ (queryTheta x tEuler two64 = none ∧ queryTheta x tEuler neg1 = none) ∧ fin64 two64 = true ∧ rat64 two64 ≠ rat64 one64) ∧
    (combElem .f64 [(.fin false 0, [1])] 0 = 0 ∧ combElem .f64 [(one, [one64.toNat])] 0 = one64.toNat ∧ combElem .f64 [(one, [0x7FF8000000000001])] 0 = Format.f64.canonNaN ∧
      combElem .f64 [(one, [2 ^ 63])] 0 = 2 ^ 63) ∧
    (zero64 (0#64) = true ∧ zero64 one64 = false ∧ fin64 one64 = true ∧ neg64 one64 = false ∧ nan64 (normOf [0x7FF8000000000000#64]) = true ∧
      inf64 (normOf [0x7FF0000000000000#64]) = true ∧ normOf [one64] = one64) ∧
    (nan64 0x7FF8000000000000#64 = true ∧ inf64 0x7FF0000000000000#64 = true ∧ (control two64 one64 1).1 = false ∧ (control one64 one64 1).1 = true ∧
      inf64 (round64 (.real false (rootRat 2 (1 / rat64 one64)).1 (rootRat 2 (1 / rat64 one64)).2)) = false ∧ inf64 (rne64 (rat64 c09)) = false) ∧
    ([newtonNext 1 none 0x7FF8000000000000#64, newtonNext 1 none 0#64, newtonNext 1 none one64, newtonNext 15 none one64,
      newtonNext 2 (some one64) 0x7FF0000000000000#64, newtonNext 2 (some one64) two64, newtonNext 2 (some one64) 0x3FE0000000000000#64,
      newtonNext 2 (some one64) 0x3F80000000000000#64] = [.fail, .converged, .more, .fail, .fail, .fail, .more, .converged]) ∧
    (let b := { tBind with atol := one64 }
     fin64 b.atol = true ∧ fin64 b.rtol = true ∧ rat64 b.atol + rat64 b.rtol * 0 ≠ 0 ∧ 0 < b.n) := by decide +kernel

/-- What follows a combination and a call: values that are read, the end of an interval, its limit, a further attempt; an attempt that moves and one
that stands still; a stop that is asked; events without a sign change, with one, and with none that is a number. -/
theorem witness_StepperProgress :
    (let x := { tRun with t := 0#64, tEnd := two64, h := one64, hs := one64 }
     let s := tStep 0 x [] id
     (match readVec s 0 0 x tBind (tBind.vec tBind.deriv 0) 1 with | (_, .ok d) => decide (d = [0]) | _ => false) = true ∧
     (match readVecs s 0 0 x tBind [(one, tBind.vec tBind.deriv 0)] with | (v, .ok _) => (match readVec v 0 0 x tBind (tBind.vec tBind.work 0) 1 with
       | (_, .ok z) => decide (∀ e ∈ z, decodeF tBind.fmt e = .fin false 0) | _ => false) | _ => false) = true ∧
     rat64 (stepEnd x) ≠ rat64 x.tEnd ∧ rat64 (stepEnd { x with clamped := true }) = rat64 x.tEnd ∧ ¬ (x.limit ≠ 0#32) ∧
     ({ x with limit := 1#32 }.limit ≠ 0#32 ∧ 1 ≤ (x.accepted + 1#32).toNat) ∧ rat64 one64 = 1 ∧
     rat64 (stepTime x.t x.hs 1) ≠ rat64 x.t ∧ rat64 (stepTime one64 0x3C00000000000000#64 1) = rat64 one64 ∧ { x with stopReq := true }.stopReq = true) ∧
    (let g := eventValues tBind
     (g [0x7FF8000000000000]).any nan64 = true ∧ (g [one64.toNat]).any nan64 = false ∧ lowestChange [one64] [one64] [one64] = none ∧
       lowestChange [one64] [one64] [neg1] = some 0 ∧ changes one64 one64 (0#64) = true) ∧
    (let l : Illinois := { ta := 0#64, tb := one64, ga := [one64], gb := [neg1], wa := 0, wb := 0, lastB := none, trials := 0 }
     let x := { tRun with gref := some [one64] }
     64 ≤ { l with trials := 64 }.trials ∧ ¬ (64 ≤ l.trials ∨ rat64 l.tb - rat64 l.ta ≤ pow2 (-40)) ∧
     (locate x l).phase = .comb (.trial 0x3FE0000000000000#64) ∧
     -- the cut rounds to the end of the bracket; no function changes its sign
     (locate x { l with gb := [0x8010000000000000#64] }).phase = .comb (.trial 0x3FE0000000000000#64) ∧ secant { l with gb := [0x8010000000000000#64] } one64 0x8010000000000000#64 = one64 ∧
     changes one64 one64 neg1 = true ∧ (∀ e ∈ [0], changes one64 ([one64].getD e 0#64) ([one64].getD e 0#64) = false) ∧
     changes one64 one64 (0#64) = true ∧ zero64 (0#64) = true ∧ zero64 neg1 = false) := by decide +kernel

/-- Two slots of a group that have waited equally long, of which the first goes; the rotation's turn where a slot sleeps; a word that has stopped
inside its clause. -/
theorem witness_PortsAndTurns :
    (let s := tHere 0xFC08800000000000#64 (fun g => { g with s0 := { g.s0 with left := 0 }, s1 := { g.s0 with left := 0, mask := 1#96, owned := 1#96 } })
       fun s => { s with now := 300#64 }
     (candidates s 0).length = 2 ∧ (∀ d ∈ candidates s 0, d.waited = 300) ∧ (chooseSlot s 0).isSome = true) ∧
    (let g := tGroup fun g => { g with s0 := { g.s0 with sleep := 9, owned := 1#96 }, s1 := { g.s0 with owned := 2#96 } }
     State.reset.now.toNat < (g.slot g.rotTurn).sleep ∧ rotationTurn State.reset g = !g.rotTurn) ∧
    (let s := tHere 0x08DDC28059FFC0C0#64 id fun s => { s with quads := [(0, { Quad.reset with last := some (0, false) })] }
     portHolder s 0 = none ∧ candidates s 0 ≠ []) := by decide +kernel

/-- A saved gathered group of a tenant. -/
def tSaved (f : Saved → Saved) : Saved :=
  f { key := 0, team := none, groups := [(0, tGroup fun g => { g with team := none, grid := 3 })], grid := 3, tenant := 0, die := 0, slotAddr := 0#80, ctx := none,
      units := [], progs := [], loads := [], waitSince := 0, drained := false, settled := [], watch := none }

/-- Grids that place nothing, whose saved teams do not return, whose scratchpad has no room or a lowest place, and whose team does not fit; one whose
saved teams come back in turn; teams that wait, and saves that stall. -/
theorem witness_PlacementCorners :
    (let out := (tQueue id id).setTenant 0 { Tenant.reset with inSlice := false }
     (out.tenant 0).inSlice = false ∧ (restoreAll (tQueue id id) (savedOf (tQueue id id) 3 (tGrid id))).2 = true ∧
       (placeNew (tQueue id id) 3 1).2 = true) ∧
    (let x := tSaved id
     let s := tQueue id fun s => { s with saved := [x] }
     savedOf s 3 (tGrid id) = [x] ∧ restoreSaved s x = none ∧ (restoreAll s (savedOf s 3 (tGrid id))).2 = false ∧ (s.saved.map Saved.key).Nodup ∧
       ∀ y ∈ s.saved, y.drained = false) ∧
    (let y := tSaved fun x => { x with grid := 4, drained := true }
     let s := tQueue id fun s => { s with saved := [y] }
     (s.saved.find? fun x => x.drained && x.waits && x.tenant = 0 && x.die = 0) = some y ∧ y.grid ≠ 3 ∧ ∃ x ∈ s.saved, x.drained = true ∧ x.tenant = 0) ∧
    (let gr := fun n => tGrid fun g => { g with record := { g.record with dscratch := n } }
     let s := fun n => tQueue (fun g => { g with record := { g.record with dscratch := n } }) fun s => { s with dsAlloc := [(0, 0, 4096, 9)] }
     (gr 4096).ds = none ∧ (gr 4096).record.dscratch ≠ 0 ∧ (grantDs (s 4096) 3 (gr 4096)).isSome = true ∧ (grantDs (tQueue id id) 3 (tGrid id)).isSome = true ∧
       meets 4096 4096 0 4096 = false ∧ meets 0 4096 0 4096 = true) ∧
    (let gr := tGrid fun g => { g with record := { g.record with scratch := 2 ^ 21 } }
     let s := tQueue (fun g => { g with record := { g.record with scratch := 2 ^ 21 } }) id
     gr.placed < gr.record.teams ∧ s.saved = [] ∧ grantDs s 3 gr = some s ∧ placeTeam s 3 gr = none) ∧
    (let v := fun (f : Group → Group) => tHere 0#64 f fun s => s.setDie 0 { Die.reset with slicing := some (7, 3, some 5) }
     (v id |>.die 0).slicing = some (7, 3, some 5) ∧ savedGids (v id) 7 = [0] ∧ saveStalls (v id) 7 = false ∧ saveStalls (v fun g => { g with stalled := true }) 7 = true ∧
       savedGids { v id with teams := [] } 7 = []) ∧
    (let s := tQueue id fun s => { s with saved := [tSaved fun x => { x with key := 5 }] }
     (s.saved.find? fun y => y.key = 5) = some (tSaved fun x => { x with key := 5 }) ∧ (∀ x ∈ s.saved, x.key ≠ 6) ∧ (tget s.grids 3).isSome = true ∧
       (s.tenant 0).inSlice = true) := by decide +kernel

/-- What a saved group watches that has changed and that has not; a thief that may not hold its victim's task, a version that has been served, and
a deque that is empty; what a steal takes. -/
theorem witness_WatchesAndVersions :
    (let x := tSaved fun x => { x with watch := some [(64, 0#8)] }
     homeByte State.reset 64 = 0#8 ∧ watchChanged State.reset x = false ∧ ∀ g ∈ x.groups, g.2.s0.wait ≠ .spawn ∧ g.2.s1.wait ≠ .spawn) ∧
    (let det := fun (u : State → State) => (tQueue (fun g => { g with record := { g.record with det := true }, spinel := [0x80000000#32, 0x80000020#32] })
       fun s => u { s with deques := [(0, { Deque.reset with tasks := [tTask 1], served := [17] })] })
     let ask := fun (n c : Nat) => (det id).setCore 0 c { CoreSt.reset with thief := { Thief.reset with req := some (0, n) } }
     canHold (det id) 1 (tTask 1) = true ∧ canHold (det id) 2 (tTask 1) = false ∧ (requestsAt (ask 17 1) 0).map (fun r => (r.1, r.2.1)) = [(1, 17)] ∧
       ((ask 17 1).deque 0).served.contains 17 = true ∧ (stealRound true (requestsAt (ask 18 1) 0)).2 = some 1) ∧
    (let s := (tQueue id id).setCore 0 1 { CoreSt.reset with thief := { Thief.reset with req := some (0, 0) } }
     requestsAt s 0 ≠ [] ∧ (s.deque 0).tasks = [] ∧ (stealRound false (requestsAt s 0)).2 = some 1) ∧
    (stealTail (fun _ => true) [tTask 1, tTask 2, tTask 3]).2 = [tTask 2, tTask 3] ∧ (stealTail (fun _ => false) [tTask 1]).2 = [] ∧
    gather (tTask 1) 1 [tTask 1, tTask 2] = ([tTask 1], [tTask 2]) := by decide +kernel

/-- Groups that halt, saved ones among them; buckets with tokens, without, strict ones, and ones that lend; tables that translate for an energy count. -/
theorem witness_TokensAndHalts :
    (let s := { tPlain with saved := [tSaved id] }
     (∃ y ∈ s.saved, ∃ x ∈ y.groups, x.2.tenant = 0 ∧ x.2.halted = false) ∧ ∃ y ∈ (haltTenants s fun t => t = 0).saved, ∃ x ∈ y.groups, x.2.halted = true) ∧
    (let s := tParts { Die.reset with partTable := BitVec.ofNat 80 (2 ^ 40) }
     (devRead { s with fresh := s.fresh + 8 } 0 0 ((s.die 0).partTable + 0x3800#80) 8).2.isSome = true ∧
       (devRead { State.reset with fresh := 8 } 0 0 ((State.reset.die 0).partTable + 0x3800#80) 8).2 = none) := by decide +kernel

/-- Buckets of whichever controller a block belongs to: with a token, empty and strict, and empty beside one that lends. -/
theorem witness_Buckets (c : Nat) :
    let own := 64 * c + 1
    let d := fun (n : Nat) (strict : Word64) (rest : List (Nat × Nat)) => { Die.reset with buckets := [(own, strict <<< 32)], tokens := (own, n) :: rest }
    (d 1 0#64 []).buckets ≠ [] ∧ 0 < (tget (d 1 0#64 []).tokens own).getD 0 ∧ ((tget (d 0 1#64 []).buckets own).getD 0#64).getLsbD 32 = true ∧
    ¬ 0 < (tget (d 0 0#64 []).tokens own).getD 0 ∧ ((tget (d 0 0#64 []).buckets own).getD 0#64).getLsbD 32 = false ∧ 64 * c / 64 = own / 64 ∧
    0 < (tget (d 0 0#64 [(64 * c, 1)]).tokens (64 * c)).getD 0 := by
  refine ⟨by simp, by simp [tget], by simp [tget], by simp [tget], by simp [tget], by omega, by simp [tget]⟩

/-- The flit of a word that waits, answered and given up, in its slot and without one; what the host reaches; a command that is taken and one that ends. -/
theorem witness_WordsOfOtherModules :
    (let r := { tReq .futWait .g 7#3 1#96 0 8 with id := 5 }
     let f : Flit := { id := 5, parent := 5, gid := 0, agents := 1#96, eng := none, die := 0, core := 0, tenant := 0, retries := 8, keys := [3 * 2 ^ 52],
                       bytes := [], s1 := false, trap := false, va := 0#80, ctr := 0#2, mse := [], reserve := [] }
     let s := tHere 0#64 (fun g => { g with s0 := { g.s0 with wait := .futWait, req := some r } }) fun s => { s with flits := [f] }
     flitDue s f = true ∧ (s.accs.find? fun a => a.id = 5) = none ∧ f.eng = none ∧ f.bytes = [] ∧ 8 ≤ f.retries ∧
       ((s.group? 0).any fun g => decide ((g.slotIn f.s1 f.trap).req = some r ∧ r.id = f.id ∧ f.trap = g.trapMode)) = true ∧
       ((tPlain.group? 0).any fun g => decide ((g.slotIn f.s1 f.trap).req = none)) = true) ∧
    hostReaches State.reset (2 ^ 53) = true ∧ hostReaches State.reset (2 ^ 37 * 24) = false ∧
    (let m := { State.reset.mbox with go := true, command := 1#16 }
     m.taken = false ∧ { m with taken := true }.taken = true ∧ ¬ (3 ≤ m.command.toNat ∧ m.command.toNat < 0x100) ∧ { m with command := 3#16 }.command.toNat < 0x100) ∧
    (0x08 % 8 = 0 ∧ ¬ ((3 = 4 ∨ 3 = 8) ∧ 0 % 3 = 0)) := by decide +kernel

/-- What a task follows: a parent's store outstanding, and none; the task's atomic and store that wait for it, and a follower that goes on. -/
theorem witness_Followers :
    (let p : Prior := { gid := 9, die := 0, lanes := 1#96, last := 20 }
     let x : Follower := { gid := 0, lanes := 1#96, prior := p }
     let out := { tStore .g [64] [1#8] with gid := 9 }
     let s := { tPlain with stores := [out], followers := [x], seqNo := 21 }
     let a := tAcc (.atomic 1#6) .g [64, 65, 66, 67]
     priorOf s 9 0 1#96 = some p ∧ priorOf tPlain 9 0 1#96 = none ∧ released s 9 0 1#96 4 20 = false ∧
       released { s with stores := [] } 9 0 1#96 4 20 = true ∧ heldBack s a.gid a.agents = true ∧ a.op ≠ .prefetch ∧ sharedLoad s a = false ∧
       heldBack s 0 (tStore .g [80] [1#8]).agents = true ∧ storeDue s (tStore .g [80] [1#8]) = false ∧
       (settleFollower { s with stores := [] } x).followers = []) := by decide +kernel

/-! ### What well-formedness refuses

One term for each check of WellFormed.lean, refused; the rules stand there. -/

/-- Every instruction of the list is refused. -/
def allBad (l : List Instr) : Bool := l.all fun i => !i.wf

/-- Slice 8, k8 and the immediate 1, as sources; slice 0 as a destination. -/
def xs : Src := .slice 8#9
def xk : Src := .ureg 8#8
def xi : Src := .imm 1#9
def d0 : Dst := .slice 0#9
def xp (w : BitVec 3) : Head := { tHd w with sup := true }
def xn (w : BitVec 3) : Head := { tHd w with ga := ⟨false, 1#3⟩ }

/-- `int1`, `int2`, `wOk`, `dstOk`, `srcOk`, `srcBOk`, `uregOk`: a width of the uniform class, a suppressed destination that is not zero, a
k register above 159, a pair above 158 or odd in the uniform class, a slice in the uniform class, an accumulator fragment that is not 32 bits
wide, an immediate of the other class, and .sat at a width without it. -/
theorem bad_integer : allBad
    [.iadd (tHu 3#3) (.ureg 3#8) xk xk false false, .iadd { tHu 5#3 with sup := true } (.ureg 3#8) xk xk false false,
      .iadd (xp 5#3) (.slice 8#9) xs xs false false, .iadd (xp 5#3) (.ureg 0#8) xs xs false false, .iadd (tHd 5#3) (.ureg 160#8) xs xs false false,
      .iadd (tHd 7#3) (.ureg 159#8) xs xs false false, .iadd (tHu 7#3) (.ureg 3#8) xk xk false false, .iadd (tHu 5#3) d0 xk xk false false,
      .iadd (tHu 5#3) (.ureg 3#8) xs xk false false, .iadd (tHu 5#3) (.ureg 3#8) xi xk false false, .iadd (tHu 5#3) (.ureg 3#8) (.uimm 1#11) xk false false,
      .iadd (tHd 5#3) d0 xs (.uimm 1#11) false false, .iadd (tHu 5#3) (.ureg 3#8) (.latch 0#3) xk false false, .iadd (tHd 7#3) d0 (.acc 0#3 0#6) xs false false,
      .iadd (tHd 4#3) d0 xs xs true false, .iabs (tHd 2#3) d0 xs true, .imad (tHd 5#3) d0 xs xs (.ureg 160#8),
      .mov (tHu 3#3) (.ureg 3#8) xk, .shl (tHd 5#3) (.ureg 160#8) xs xs, .not (tHd 5#3) d0 (.ureg 160#8), .nop (tHd 1#3), .nop (xp 0#3)] := by
  decide +kernel

/-- The rest of the integer words: movi's and iaddi's immediates and movi to k157 to k159, lop3, bfx, bfi, lea, isetp, shfl, vote, ballot, redx. -/
theorem bad_integer_rest : allBad
    [.movi (tHd 5#3) d0 0x00200000#32, .movi (tHu 5#3) (.ureg 157#8) 0#32, .iaddi (tHd 5#3) d0 xs 0x0200000#27, .sel (tHd 5#3) d0 xs (.uimm 1#11) ⟨false, 1#3⟩,
      .lop3 (tHu 3#3) (.ureg 3#8) xk xk 0#8, .bfx (tHd 5#3) d0 xs (.ureg 160#8) false, .bfi (tHd 5#3) d0 xs xs (.ureg 160#8),
      .lea (tHd 5#3) (.ureg 158#8) xs xs 0#3 false, .lea (tHd 5#3) d0 xi xs 0#3 false, .isetp (tHd 5#3) (.g 1#3) xs xs 0#4 false,
      .isetp (tHu 5#3) (.p 1#3) xk xk 0#4 false, .isetp (tHd 5#3) (.p 1#3) xs xs 6#4 false, .isetp (xp 5#3) (.p 1#3) xs xs 0#4 false,
      .shfl (tHu 5#3) (.ureg 3#8) xk xk 0#4, .shfl (tHd 5#3) d0 xs xs 4#4, .vote (tHd 5#3) (.p 0#3) xs 3#4, .vote (xp 5#3) (.p 0#3) xs 0#4,
      .voteBallot (tHd 5#3) 158#8 xs, .voteBallot (tHd 7#3) 0#8 xs, .redx (tHd 1#3) d0 xs 6#4 0#3 false, .redx (tHd 5#3) d0 xs 6#4 5#3 false,
      .redx (tHd 5#3) d0 xs 6#4 0#3 true, .redx (tHd 5#3) d0 xs 7#4 0#3 false, .redx (tHd 5#3) d0 xs 0#4 1#3 false, .redx (tHd 5#3) d0 xs 3#4 0#3 true] := by
  decide +kernel

/-- Floating point and conversions: a width that is no format, a reserved rounding, a condition above 13, the uniform class where there is none,
and W of another width than the format's. -/
theorem bad_float : allBad
    [.fadd (tHd 1#3) d0 xs xs 0#3, .fadd (tHd 5#3) d0 xs xs 6#3, .ffma (tHd 5#3) d0 xs xs (.ureg 160#8), .fmin (tHd 0#3) d0 xs xs,
      .fsetp (tHd 5#3) (.p 0#3) xs xs 14#4, .fsetp (tHd 6#3) (.p 0#3) xs xs 0#4, .fdiv (tHu 5#3) (.ureg 3#8) xk xk 0#3, .fsqrt (tHd 4#3) d0 xs 0#3,
      .fsqrt (tHd 5#3) d0 xs 7#3, .frnd (tHu 5#3) (.ureg 3#8) xk false 0#3, .fcls (tHd 1#3) d0 xs, .fcvt (tHd 5#3) d0 xs 5#3 1#3 false 0#3,
      .fcvt (tHd 1#3) d0 xs 5#3 1#3 false 6#3, .icvt (tHd 5#3) d0 xs 1#3 0#3 true 0#3, .icvt (tHd 7#3) d0 xs 1#3 5#3 true 0#3, .fcvti (tHd 0#3) d0 xs 1#3 true 0#3,
      .fcvti (tHd 5#3) d0 xs 4#3 true 0#3, .blkq (tHd 7#3) 0#9 0#9 none 3#3 1#3 0#3, .blkq (tHd 7#3) 0#9 0#9 none 4#3 0#3 0#3, .blkq (tHd 5#3) 0#9 0#9 none 4#3 1#3 0#3,
      .blkq (xp 7#3) 8#9 0#9 none 4#3 1#3 0#3, .blkdq (tHd 5#3) 0#9 xs xs 0#3 4#3 0#3, .blkdq (tHd 5#3) 0#9 xs xs 1#3 7#3 0#3, .bscale (tHd 5#3) d0 xs 4#3 1#3,
      .srnd (tHd 5#3) d0 xs 0#3 5#3 1#3, .pack (tHd 5#3) 0#9 0#9 1#4 false 3#3, .pack (tHd 3#3) 0#9 0#9 0#4 true 5#3, .pack (tHd 3#3) 0#9 0#9 2#4 false 5#3,
      .unpack (tHd 3#3) 0#9 0#9 false 5#3, .tbld (tHd 0#3) 0#8 0#4 4#3, .tbld (tHd 0#3) 0#8 1#4 2#3, .tbld (tHd 0#3) 158#8 1#4 4#3, .tbind (tHd 5#3),
      .teval (tHd 7#3) d0 xs 0#2 0#3, .lzdraw (tHd 7#3) 0#3 xk xk, .lzcmp (tHd 3#3) 0#3 0#3 xs false, .lzcmpExt (tHd 5#3) 0#3 (.imm 0#9),
      .lzcmpExt (tHd 5#3) 0#3 (.imm 49#9), .lzval (tHd 5#3) d0 0#3 5#3, .lzval (tHd 1#3) d0 0#3 0#3] := by decide +kernel

/-- Memory: widths of 4 and 12 bits, an address that is no slice or triple, the spaces, the displacement, the operation codes of the atomics,
fence sets, copy lengths and their registers, and the words that have no uniform form. -/
theorem bad_memory : allBad
    [.ld (tHd 0#3) d0 xk xi 4#3 0#2 0#11, .ld (tHd 5#3) d0 xi xi 4#3 0#2 0#11, .ld (tHd 5#3) d0 (.ureg 158#8) xi 4#3 0#2 0#11, .ld (tHd 5#3) d0 xk xi 6#3 0#2 0#11,
      .ld (tHd 5#3) d0 xk xi 4#3 0#2 32#11, .ld (tHd 5#3) d0 xk (.acc 0#3 0#6) 4#3 0#2 0#11, .ld (tHu 5#3) (.ureg 3#8) xk xk 4#3 0#2 0#11,
      .st (tHd 5#3) xk xs 5#3 0#2 0#11, .st (xp 5#3) xk xs 4#3 0#2 0#11, .ldu (tHu 5#3) (.ureg 3#8) xk 4#3 0#2 0#6, .gth (tHd 2#3) d0 xk xs 4#3 0#2 0#6,
      .sct (tHd 5#3) 0#9 xk xs 5#3 0#2 0#6, .atom (tHd 3#3) d0 xk xs 4#3 0#2 1#6, .atom (tHd 5#3) d0 xk xs 0#3 0#2 1#6, .atom (tHd 5#3) d0 xk xs 4#3 0#2 0x11#6,
      .atom (tHd 5#3) d0 xk xs 4#3 0#2 0xC#6, .atom (tHd 5#3) d0 xk xi 4#3 0#2 9#6, .atom (tHd 7#3) d0 xk (.ureg 157#8) 4#3 0#2 9#6,
      .atomo (tHd 5#3) d0 xk xs 0#2 9#6, .atomo (tHd 5#3) d0 xk xs 0#2 0#6, .atomo (tHu 5#3) (.ureg 3#8) xk xk 0#2 1#6, .atomoFin (tHd 0#3), .atomoFin (xp 5#3),
      .fence (tHd 0#3) 0#4 1#4 0#3, .fence (tHd 0#3) 1#4 0#4 0#3, .fence (tHd 0#3) 1#4 1#4 6#3, .fence (tHd 5#3) 1#4 1#4 0#3,
      .cpy (tHd 5#3) 158#8 0#8 xi 4#3 0#2 4#3, .cpy (tHd 5#3) 0#8 158#8 xi 4#3 0#2 4#3, .cpy (tHd 5#3) 0#8 0#8 xs 4#3 0#2 4#3, .cpy (tHd 5#3) 0#8 0#8 (.imm 0x1FF#9) 4#3 0#2 4#3,
      .cpy (tHd 5#3) 0#8 0#8 xi 0#3 0#2 4#3, .cpy (tHd 5#3) 0#8 0#8 xi 4#3 0#2 5#3, .cpyCont (xn 5#3) 0#8 0#8 0#8 4#3 0#2 4#3, .cpyCont (tHd 5#3) 0#8 0#8 159#8 4#3 0#2 4#3,
      .cpyCont { tHd 5#3 with ctr := 1#2 } 0#8 0#8 0#8 4#3 0#2 4#3, .pref (tHd 5#3) xk xi 1#3 0#2 0#6, .cmntWb (tHu 5#3) xk xk 4#3 0#6, .cmntL2wb (xp 5#3) xk xi 4#3 0#6,
      .spill (tHd 5#3) 0#9 xk 0#9 0#2 0#6, .fill (tHu 0#3) 0#9 xk 0#9 0#2 0#6, .ringPush (tHd 5#3) 158#8 xs 4#3 0#2, .ringPush (tHd 5#3) 0#8 xs 5#3 0#2,
      .ringPop (tHd 0#3) d0 0#8 4#3 0#2, .futFill (tHd 5#3) xk xs 4#3 0#2, .futWait (tHd 7#3) d0 xk 0#3 0#2] := by decide +kernel

/-- Control: branch words with a width or of the other class, guards of the uniform kind, barrier numbers and counts, and traps. -/
theorem bad_control : allBad
    [.bra (tHd 1#3) 0#22 0#16 false, .bra (tHu 0#3) 0#22 0#16 false, .braUniform (tHd 0#3) 0#22 0#16 false, .braUniform (tHu 1#3) 0#22 1#16 false,
      .brx (tHd 1#3) xs 0#16 false false, .brx (tHd 0#3) xs 0#16 false true, .callx (xp 0#3) xs 0#16 false false, .call (tHd 1#3) 0#22 0#16 false,
      .callUniform (tHd 0#3) 0#22 0#16 false, .ret (tHd 5#3), .exit (tHu 0#3), .exitUniform (tHd 0#3), .yield (xp 0#3), .barArrive (tHd 0#3) (.imm 16#9) xi,
      .barSync (tHd 0#3) xi (.imm 0x1FF#9), .barSync (tHd 5#3) xi xi, .barWait (tHd 0#3) xs, .barWait (tHd 0#3) (.imm 0x1FF#9), .sleep (tHd 0#3) (.latch 0#3),
      .sleep (tHd 0#3) (.imm 0x1FF#9), .trap (tHd 0#3) xs, .trap (tHd 0#3) (.imm 0x1FF#9), .bkpt (tHd 5#3) xi, .rtt (tHd 5#3), .rttSkip (xp 0#3), .rttSub (tHd 5#3) xi] := by
  decide +kernel

/-- Tasks, system words and special registers: guards on words that run once, register runs past k159, roles, steps, scopes, and a register that has
a word of its own. -/
theorem bad_system : allBad
    [.forkMx (tHd 0#3) 0#8 0#8 0#8 0#3, .forkMx (xn 5#3) 0#8 0#8 0#8 0#3, .forkCp (tHd 5#3) 0#8 158#8 0#8 0#3, .forkCl (tHd 5#3) 0#8 0#8 140#8 7#3, .rdv (tHd 5#3) d0 xi,
      .mfeedDat (tHd 7#3) 0#2 0#6 xs xs, .mfeedScl (tHd 5#3) 0#2 0#6 (.acc 0#3 0#6) xs, .mfeedBand (tHu 5#3) 0#2 xs xs, .mfeedQ (tHd 5#3) 0#2 0#6 0#9 (.acc 0#3 0#6), .mwm (tHd 7#3) d0 0#3,
      .stepLdtab (tHd 0#3) 158#8 4#3, .stepBind (tHd 0#3) 0#8 3#3, .stepRun (xn 0#3) 0#8 4#3, .stepWait (tHd 5#3), .stepDone (xp 0#3), .stepStop (xn 0#3), .stepQry (tHd 5#3) 0#8 xk,
      .stepQry (tHd 7#3) 0#8 xi, .stepStat (tHd 0#3) 0#8 0#3, .spawn (tHu 5#3) xk 0#9, .spawn (tHd 5#3) (.acc 0#3 0#6) 0#9, .spawnUniform (tHd 5#3) 0#8 0#8,
      .spawnUniform (tHu 5#3) 0#8 153#8, .tend (tHd 5#3), .claim (xn 0#3) xi, .claim (tHd 0#3) (.imm 0#9), .claim (tHd 0#3) (.imm 4#9), .give (tHd 0#3) xs,
      .giveRole (tHd 0#3) xi (.imm 4#9), .regionBegin (xn 0#3), .regionEnd { tHd 0#3 with ctr := 1#2 }, .digestRd (tHd 7#3) d0 0#2, .digestFold (tHd 3#3) xs,
      .rdsr (tHd 5#3) d0 0x021#11, .rdsr (tHd 7#3) d0 0#11, .wrsr (tHd 5#3) 0x020#11 xs, .wrsr (xp 5#3) 0#11 xs, .wrsrFpctl (tHd 7#3) xs, .wrsrUtrap (tHd 5#3) 3#2 xs,
      .maskWrite (tHd 5#3) 0#2 0#32, .maskWrite (tHu 5#3) 3#2 0#32, .sysLaunch (tHd 0#3) 158#8 xi 4#3, .sysLaunch (tHd 0#3) 0#8 xi 3#3, .sysTlbinv (tHd 0#3) 0#8 0#8 2#3,
      .sysHalt (tHd 5#3) 0#8, .sysReplay (xn 0#3) 0#8, .sysDebug (tHd 0#3) 160#8 0#8, .sysSlice (tHd 0#3) 0#8 160#8] := by decide +kernel

/-- Headers and the sequencer classes: a class above 3, waits of a sequencer's header, conditions above 6, element formats and K-counts, and the spaces
and widths of copies. -/
theorem bad_sequencers : allBad
    [.clauseIssue 4#3 0#4 0#3 false, .clauseIssue 2#3 0#4 1#3 false, .clauseIssue 3#3 0#4 0#3 true, .scmp 0#4 0#4 0#4 7#3, .sbra 0#4 0#4 7#3 0#32, .ssig 0#4 0#4 0#32, .ssig 5#4 0#4 0#32,
      .mma 7#4 0#2 false 0#3 0#4 0#4 0#6, .mma 0#4 0#2 false 0#3 0#4 0#4 32#6, .mma 2#4 0#2 false 0#3 0#4 0#4 16#6, .mma 5#4 0#2 false 0#3 0#4 0#4 8#6,
      .cld 0#3 0#4 0#4 0#4 0#4 1#3 4#3 0#2, .cld 5#3 0#4 0#4 0#4 0#4 4#3 4#3 0#2, .cgth 5#3 0#4 0#4 0#4 0#4 1#3 0#3 0#2, .cst 5#3 0#4 0#4 0#4 0#4 3#3 1#3 0#2,
      .csct 5#3 0#4 0#4 0#4 0#4 4#3 4#3 0#2, .cacc 7#3 0#4 0#4 0#4 0#4 4#3 0#3 0#2 0#3, .cacc 5#3 0#4 0#4 0#4 0#4 4#3 1#3 0#2 0#3, .cwait 7#3 0#4 0#4 4#3 0#2,
      .cfill 5#3 0#4 0#4 0#4 5#3 0#2] := by decide +kernel
/-! ### Words that the manual writes out, by family

Each word stands in the manual beside the instruction; the numbers in the comments are the rules of its encoding. -/

/-- The word decodes to the instruction in its class, and the instruction encodes to the word. -/
def isWord (cls : BitVec 3) (x : Word64) (i : Instr) : Bool :=
  decide ((decode cls x).toOption = some i ∧ encode i = some x ∧ i.wf = true)

/-- R155, R157: `iadd.sat.s16 v40:16, v44:16, -1`, its form without .sat, `and.b32 v104:32, k8, 0xFF`, `shl.b32 v104:32, v104:32, 4`, `iaddi.b32 v104:32, v104:32,
32`, `sel.b64 v32:64, v112:64, v80:64, p2`; R24: `iadd.s32 k3, k4, 12` in the uniform class. -/
theorem test_decode_integer :
    isWord 0#3 0x08DDC28059FFC0C0#64 (.iadd (tHd 3#3) (.slice 40#9) (.slice 44#9) (.imm 0x1FF#9) true true) ∧
    isWord 0#3 0x08DDC28059FFC040#64 (.iadd (tHd 3#3) (.slice 40#9) (.slice 44#9) (.imm 0x1FF#9) false true) ∧
    isWord 0#3 0x215DC68411BFC000#64 (.and (tHd 5#3) (.slice 104#9) (.ureg 8#8) (.imm 0xFF#9)) ∧
    isWord 0#3 0x195DC680D1810000#64 (.shl (tHd 5#3) (.slice 104#9) (.slice 104#9) (.imm 4#9)) ∧
    isWord 0#3 0x3F5DC680D0000100#64 (.iaddi (tHd 5#3) (.slice 104#9) (.slice 104#9) 32#27) ∧
    isWord 0#3 0x07DDC200E0140010#64 (.sel (tHd 7#3) (.slice 32#9) (.slice 112#9) (.slice 80#9) ⟨false, 2#3⟩) ∧
    isWord 1#3 0x095DC0C100004064#64 (.iadd (tHu 5#3) (.ureg 3#8) (.ureg 4#8) (.uimm 12#11) false true) := by decide +kernel

/-- R159, R161, R163: `isetp.ge.n32 p1, v96:32, 2`, `(p2) shfl.down.b32 v16:32, v32:32, k10`, `redx.fadd.rne.f32 k20, v0:32`, `redx.max.s32 k60, v8:32`. -/
theorem test_decode_lanes :
    isWord 0#3 0x375DC010C1808280#64 (.isetp (tHd 5#3) (.p 1#3) (.slice 96#9) (.imm 2#9) 5#4 false) ∧
    isWord 0#3 0x3949C10040828100#64 (.shfl { tHd 5#3 with ga := ⟨false, 2#3⟩ } (.slice 16#9) (.slice 32#9) (.ureg 10#8) 2#4) ∧
    isWord 0#3 0x3D5DE14000000B00#64 (.redx (tHd 5#3) (.ureg 20#8) (.slice 0#9) 6#4 1#3 false) ∧
    isWord 0#3 0x3D5DE3C010000140#64 (.redx (tHd 5#3) (.ureg 60#8) (.slice 8#9) 2#4 0#3 true) := by decide +kernel

/-- R192 to R196: `fmul.f64`, `ffma.f64` with a slice and with a latch, `fadd.f32.rne`, `fsqrt.f32.rne`, `fdiv.f32.rne`, `fsetp.lt.f64 p2, v0:64, 0`. -/
theorem test_decode_float :
    isWord 0#3 0x45DDC40040000000#64 (.fmul (tHd 7#3) (.slice 64#9) (.slice 32#9) (.slice 0#9) 0#3) ∧
    isWord 0#3 0x47DDC40060040200#64 (.ffma (tHd 7#3) (.slice 64#9) (.slice 48#9) (.slice 16#9) (.slice 64#9)) ∧
    isWord 0#3 0x47DDC40060041800#64 (.ffma (tHd 7#3) (.slice 64#9) (.slice 48#9) (.slice 16#9) (.latch 0#3)) ∧
    isWord 0#3 0x415DC00001810800#64 (.fadd (tHd 5#3) (.slice 0#9) (.slice 0#9) (.imm 4#9) 1#3) ∧
    isWord 0#3 0x515DC10000000800#64 (.fsqrt (tHd 5#3) (.slice 16#9) (.slice 0#9) 1#3) ∧
    isWord 0#3 0x4F5DC18020020800#64 (.fdiv (tHd 5#3) (.slice 24#9) (.slice 16#9) (.slice 8#9) 1#3) ∧
    isWord 0#3 0x4DDDC02001800100#64 (.fsetp (tHd 7#3) (.p 2#3) (.slice 0#9) (.imm 0#9) 2#4) := by decide +kernel

/-- R199, R207, R216, R217: `fcvt.e4m3.f32.rne v40:8, v0:32`, `teval.f32.rne v8:32, v0:32, 2`, `lzdraw q2, k10, k11`, `lzcmp.f32 p3, q2, k20, sig=c1`,
`lzcmp.n32 p2, q1, v232:32`. -/
theorem test_decode_conversions :
    isWord 0#3 0x625DC28000000D08#64 (.fcvt (tHd 1#3) (.slice 40#9) (.slice 0#9) 5#3 1#3 false 1#3) ∧
    isWord 0#3 0x795DC08000000810#64 (.teval (tHd 5#3) (.slice 8#9) (.slice 0#9) 2#2 1#3) ∧
    isWord 0#3 0x7B5DC8041482C000#64 (.lzdraw (tHd 5#3) 2#3 (.ureg 10#8) (.ureg 11#8)) ∧
    isWord 0#3 0x7D5DC03100850001#64 (.lzcmp { tHd 5#3 with ctr := 1#2 } 3#3 2#3 (.ureg 20#8) false) ∧
    isWord 0#3 0x7D5DC020803A0008#64 (.lzcmp (tHd 5#3) 2#3 1#3 (.slice 232#9) true) := by decide +kernel

/-- R70 to R83: `ld.b64.cl v0:64, [k20]` and `[k20+8]`, `sct.b64.cl [k24, v96:32], v64:64`, `gth.b64.cl v0:64, [k24, v96:32]`, `(p1) gth.b32.g v0:32,
[k0, v104:32]`, `atom.add.s32.g v8:32, [k30], 1`, `ring.push.b32.cl [k30], v136:32`, `ring.pop.b32.cl v0:32, [k74]`. -/
theorem test_decode_memory :
    isWord 0#3 0x81DDC00429801000#64 (.ld (tHd 7#3) (.slice 0#9) (.ureg 20#8) (.imm 0#9) 2#3 0#2 0#11) ∧
    isWord 0#3 0x81DDC10429801008#64 (.ld (tHd 7#3) (.slice 16#9) (.ureg 20#8) (.imm 0#9) 2#3 0#2 1#11) ∧
    isWord 0#3 0x91DDC40430181000#64 (.sct (tHd 7#3) 64#9 (.ureg 24#8) (.slice 96#9) 2#3 0#2 0#6) ∧
    isWord 0#3 0x8FDDC00430181000#64 (.gth (tHd 7#3) (.slice 0#9) (.ureg 24#8) (.slice 96#9) 2#3 0#2 0#6) ∧
    isWord 0#3 0x8F45C004001A2000#64 (.gth { tHd 5#3 with ga := ⟨false, 1#3⟩ } (.slice 0#9) (.ureg 0#8) (.slice 104#9) 4#3 0#2 0#6) ∧
    isWord 0#3 0x875DC0843D806008#64 (.atom (tHd 5#3) (.slice 8#9) (.ureg 30#8) (.imm 1#9) 4#3 0#2 1#6) ∧
    isWord 0#3 0x9B5DC0043C221000#64 (.ringPush (tHd 5#3) 30#8 (.slice 136#9) 2#3 0#2) ∧
    isWord 0#3 0x9B5DC00494001008#64 (.ringPop (tHd 5#3) (.slice 0#9) 74#8 2#3 0#2) := by decide +kernel

/-- R92: `fence.clu rw, w`, `fence.clu r, rw`, `fence.die w, r`, `fence.die rwe, w`, `fence.mod rw, w`, `fence.sys rw, w`. -/
theorem test_decode_fences :
    isWord 0#3 0x8A1DF11000000000#64 (.fence (tHd 0#3) 12#4 4#4 2#3) ∧ isWord 0#3 0x8A1DE31000000000#64 (.fence (tHd 0#3) 8#4 12#4 2#3) ∧
    isWord 0#3 0x8A1DD21800000000#64 (.fence (tHd 0#3) 4#4 8#4 3#3) ∧ isWord 0#3 0x8A1DF51800000000#64 (.fence (tHd 0#3) 13#4 4#4 3#3) ∧
    isWord 0#3 0x8A1DF12000000000#64 (.fence (tHd 0#3) 12#4 4#4 4#3) ∧ isWord 0#3 0x8A1DF12800000000#64 (.fence (tHd 0#3) 12#4 4#4 5#3) := by decide +kernel

/-- R23, R166 to R176: `bra` by −8 words, `brx v104:32` without and with a join, `join`, `(p1) exit`, `bar.sync 0, 0`, `rtt.sub 0`. -/
theorem test_decode_control :
    isWord 0#3 0xC01DFFFFF8000000#64 (.bra (tHd 0#3) (-8#22) 0#16 false) ∧
    isWord 0#3 0xC21DC34000000000#64 (.brx (tHd 0#3) (.slice 104#9) 0#16 false false) ∧
    isWord 0#3 0xCA1DC00000000000#64 .join ∧ isWord 0#3 0xCC05C00000000000#64 (.exit { tHd 0#3 with ga := ⟨false, 1#3⟩ }) ∧
    isWord 0#3 0xD01DC00C01800100#64 (.barSync (tHd 0#3) (.imm 0#9) (.imm 0#9)) ∧ isWord 0#3 0xD61DC00C00000080#64 (.rttSub (tHd 0#3) (.imm 0#9)) := by decide +kernel

/-- R128, R129, R290, R309, R311, R313: `claim 2`, `give.role 1, 2`, `(p4) spawn -248, v0`, `region.begin`, `region.end`, the step words, `rdsr v96:32, sr.lane`. -/
theorem test_decode_system :
    isWord 0#3 0xEE1DC00C04000000#64 (.claim (tHd 0#3) (.imm 2#9)) ∧ isWord 0#3 0xF01DC00C03808080#64 (.giveRole (tHd 0#3) (.imm 1#9) (.imm 2#9)) ∧
    isWord 0#3 0xEB51C00E10000000#64 (.spawn { tHd 5#3 with ga := ⟨false, 4#3⟩ } (.imm 0x108#9) 0#9) ∧
    isWord 0#3 0xF21DC00000000000#64 (.regionBegin (tHd 0#3)) ∧ isWord 0#3 0xF21DC00000000080#64 (.regionEnd (tHd 0#3)) ∧
    isWord 0#3 0xE81DC00428000028#64 (.stepLdtab (tHd 0#3) 20#8 5#3) ∧ isWord 0#3 0xE81DC004280000A8#64 (.stepBind (tHd 0#3) 20#8 5#3) ∧
    isWord 0#3 0xE81DC00428000128#64 (.stepRun (tHd 0#3) 20#8 5#3) ∧ isWord 0#3 0xE81DC00000000180#64 (.stepWait (tHd 0#3)) ∧
    isWord 0#3 0xE81DC00000000200#64 (.stepDone (tHd 0#3)) ∧ isWord 0#3 0xE81DE14000000310#64 (.stepStat (tHd 0#3) 20#8 2#3) ∧
    isWord 0#3 0xE9DDE1843C000280#64 (.stepQry (tHd 7#3) 24#8 (.ureg 30#8)) ∧ isWord 0#3 0xE81DC00000000380#64 (.stepStop (tHd 0#3)) ∧
    isWord 0#3 0xF75DC60000000000#64 (.rdsr (tHd 5#3) (.slice 96#9) 0#11) := by decide +kernel

/-- R227, R295: `fork.cp k50, [k20], k24, 3` and `fork.mx k40, [k17], k24, 5` in the uniform class, the feeds of at1, `mfeed.q at0.3, v0, k21`, `mwm v12:32, 0`. -/
theorem test_decode_engines :
    isWord 1#3 0xE15DCC8506008018#64 (.forkCp (tHu 5#3) 50#8 20#8 24#8 3#3) ∧ isWord 1#3 0xE15DCA0446000028#64 (.forkMx (tHu 5#3) 40#8 17#8 24#8 5#3) ∧
    isWord 0#3 0xE55DC400000A0000#64 (.mfeedDat (tHd 5#3) 1#2 0#6 (.slice 0#9) (.slice 40#9)) ∧
    isWord 0#3 0xE55DC400100A0080#64 (.mfeedScl (tHd 5#3) 1#2 0#6 (.slice 8#9) (.slice 40#9)) ∧
    isWord 0#3 0xE55DC400200A0100#64 (.mfeedBand (tHd 5#3) 1#2 (.slice 16#9) (.slice 40#9)) ∧
    isWord 0#3 0xE55DC03000854180#64 (.mfeedQ (tHd 5#3) 0#2 3#6 0#9 (.ureg 21#8)) ∧ isWord 0#3 0xE75DC0CC00000000#64 (.mwm (tHd 5#3) (.slice 12#9) 0#3) := by
  decide +kernel

/-- R26, R27, R301 to R306: the matrix words of R233 to R235, `sloop s4` by −3 words, `send`, `cld.b32.sc.g [s1], [s0], s2, s3`, `cacc.b32.g [s0], [s1], s2, s3,
acc0`. -/
theorem test_decode_sequencers :
    isWord 2#3 0x400C228000000000#64 (.mma 0#4 1#2 true 0#3 4#4 5#4 0#6) ∧ isWord 2#3 0x4008228400000000#64 (.mma 0#4 1#2 false 0#3 4#4 5#4 2#6) ∧
    isWord 2#3 0x4200000000000000#64 (.mzero 0#3) ∧ isWord 2#3 0x4408000000000000#64 (.mwaitAt 1#2) ∧ isWord 2#3 0x4404000000000000#64 (.mwaitAcc 0#3) ∧
    isWord 2#3 0x4608000000000000#64 (.mrel 1#2) ∧ isWord 2#3 0x4801300000000000#64 (.mbscale 2#3 6#4) ∧
    isWord 2#3 0x1A800007FFFFFFE8#64 (.sloop 4#4 (-3#32)) ∧ isWord 3#3 0x1C00000000000000#64 .send ∧
    isWord 3#3 0x414408CC00000000#64 (.cld 5#3 1#4 0#4 2#4 3#4 1#3 4#3 0#2) ∧ isWord 3#3 0x494048E000000000#64 (.cacc 5#3 0#4 1#4 2#4 3#4 4#3 0#3 0#2 0#3) := by
  decide +kernel

/-- R8, R9: a header of the lane class of 2 words that gives way, the uniform header of R24's example, a matrix header of 5 words; a header's word is no
instruction, and reserved words are none. -/
theorem test_decode_headers :
    (decodeHeader 0xFC08800000000000#64).toOption = some (.clauseIssue 0#3 1#4 0#3 true) ∧ (decodeHeader 0xFC80800000000000#64).toOption = some (.clauseIssue 1#3 0#4 0#3 true) ∧
    (decodeHeader 0xFD20000000000000#64).toOption = some (.clauseIssue 2#3 4#4 0#3 false) ∧ (decode 0#3 0xFC08800000000000#64).toOption = none ∧
    (decode 0#3 0xFA00000000000000#64).toOption = none ∧ (decode 1#3 0xCA1DC00000000000#64).toOption = none := by decide +kernel

/-! ### What a word does

The word runs in the group of `tHere`. The expected values stand in the manual's example of the rule named, or were worked out by hand from its
equations. -/

/-- The group after the word, with `f` applied to it before. -/
def after (i : Instr) (f : Group → Group) (ok : Group → Bool) : Bool :=
  i.wf && match exec i (tHere 0#64 f id) with
    | .next t => (t.group? 0).any ok
    | _ => false

/-- Lane 3 holds the value from the slice on. -/
def has {n : Nat} (p : Nat) (x : BitVec n) (g : Group) : Group :=
  { g with slices := g.slices.set 3 (setField g.slices[3] (4 * p) x) }

/-- Lane 3's value of `n` bits from the slice on. -/
def at3 (g : Group) (p n : Nat) : BitVec n := g.slices[3].extractLsb' (4 * p) n

/-- R155: the manual's saturating add of 0x8000 and −1, and the same line without .sat. -/
theorem test_iadd_sat : after (.iadd (tHd 3#3) (.slice 40#9) (.slice 44#9) (.imm 0x1FF#9) true true) (has 44 0x8000#16) (fun g => at3 g 40 16 = 0x8000#16) ∧
    after (.iadd (tHd 3#3) (.slice 40#9) (.slice 44#9) (.imm 0x1FF#9) false true) (has 44 0x8000#16) (fun g => at3 g 40 16 = 0x7FFF#16) := by decide +kernel

/-- R155: 3 − 5, the high half of −128 × −128, of 255 × 255 without sign, and 7 × 9 + 200. -/
theorem test_arithmetic : after (.isub (tHd 5#3) (.slice 0#9) (.imm 3#9) (.imm 5#9) false true) id (fun g => at3 g 0 32 = 0xFFFFFFFE#32) ∧
    after (.imulh (tHd 1#3) (.slice 0#9) (.slice 8#9) (.slice 8#9) true) (has 8 0x80#8) (fun g => at3 g 0 8 = 0x40#8) ∧
    after (.imulh (tHd 1#3) (.slice 0#9) (.slice 8#9) (.slice 8#9) false) (has 8 0xFF#8) (fun g => at3 g 0 8 = 0xFE#8) ∧
    after (.imad (tHd 1#3) (.slice 0#9) (.imm 7#9) (.imm 9#9) (.slice 8#9)) (has 8 200#8) (fun g => at3 g 0 8 = 7#8) := by decide +kernel

/-- R155: iabs of the least value with and without .sat, sar and rot, popc, clz and brev. -/
theorem test_bits : after (.iabs (tHd 3#3) (.slice 0#9) (.slice 8#9) true) (has 8 0x8000#16) (fun g => at3 g 0 16 = 0x7FFF#16) ∧
    after (.iabs (tHd 3#3) (.slice 0#9) (.slice 8#9) false) (has 8 0x8000#16) (fun g => at3 g 0 16 = 0x8000#16) ∧
    after (.sar (tHd 1#3) (.slice 0#9) (.slice 8#9) (.imm 3#9)) (has 8 0x80#8) (fun g => at3 g 0 8 = 0xF0#8) ∧
    after (.rot (tHd 3#3) (.slice 0#9) (.slice 8#9) (.imm 4#9)) (has 8 0x1234#16) (fun g => at3 g 0 16 = 0x2341#16) ∧
    after (.popc (tHd 3#3) (.slice 0#9) (.slice 8#9)) (has 8 0x1234#16) (fun g => at3 g 0 16 = 5#16) ∧
    after (.clz (tHd 3#3) (.slice 0#9) (.slice 8#9)) (has 8 0x1234#16) (fun g => at3 g 0 16 = 3#16) ∧
    after (.brev (tHd 3#3) (.slice 0#9) (.slice 8#9)) (has 8 0x1234#16) (fun g => at3 g 0 16 = 0x2C48#16) := by decide +kernel

/-- R156, R157: the manual's bfx of 12 bits from 4 on, a bfi of 4 bits at 8, the exclusive or and the majority of three, with D as source. -/
theorem test_fields : after (.bfx (tHd 5#3) (.slice 0#9) (.slice 8#9) (.ureg 5#8) true) (fun g => { has 8 0xF805#32 g with k := setField g.k (32 * 5) 0xC04#32 })
      (fun g => at3 g 0 32 = 0xFFFFFF80#32) ∧
    after (.bfi (tHd 5#3) (.slice 0#9) (.slice 8#9) (.slice 16#9) (.ureg 5#8)) (fun g => { has 16 0x75#32 (has 8 0xFFFFFFFF#32 g) with k := setField g.k (32 * 5) 0x408#32 })
      (fun g => at3 g 0 32 = 0xFFFFF5FF#32) ∧
    after (.lop3 (tHd 1#3) (.slice 0#9) (.slice 8#9) (.slice 16#9) 0x96#8) (fun g => has 0 0xF0#8 (has 8 0xCC#8 (has 16 0xAA#8 g))) (fun g => at3 g 0 8 = 0x96#8) ∧
    after (.lop3 (tHd 1#3) (.slice 0#9) (.slice 8#9) (.slice 16#9) 0xE8#8) (fun g => has 0 0xF0#8 (has 8 0xCC#8 (has 16 0xAA#8 g))) (fun g => at3 g 0 8 = 0xE8#8) := by
  decide +kernel

/-- R158, R159, R314: an index of −2 scaled by 8, a comparison with and without sign, and sr.lane. -/
theorem test_index : after (.lea (tHd 3#3) (.slice 0#9) (.slice 32#9) (.slice 64#9) 3#3 true) (fun g => has 32 0x1000#80 (has 64 0xFFFE#16 g)) (fun g => at3 g 0 80 = 0xFF0#80) ∧
    after (.isetp (tHd 5#3) (.p 1#3) (.slice 8#9) (.imm 0#9) 2#4 true) (has 8 0xFFFFFFFF#32) (fun g => g.preds[1] = 8#96) ∧
    after (.isetp (tHd 5#3) (.p 1#3) (.slice 8#9) (.imm 0#9) 2#4 false) (has 8 0xFFFFFFFF#32) (fun g => g.preds[1] = 0#96) ∧
    after (.rdsr (tHd 5#3) (.slice 0#9) 0#11) id (fun g => at3 g 0 32 = 3#32) := by decide +kernel

/-- R192, R196: 1 + 1; 2^−25 beyond 1 is lost; −0 is not below 0 and −1 is. -/
theorem test_float : after (.fadd (tHd 5#3) (.slice 0#9) (.imm 1#9) (.imm 1#9) 0#3) id (fun g => at3 g 0 32 = 0x40000000#32 ∧ g.fpflags = 0#32) ∧
    after (.fadd (tHd 5#3) (.slice 0#9) (.imm 1#9) (.slice 8#9) 1#3) (has 8 0x33000000#32) (fun g => at3 g 0 32 = 0x3F800000#32) ∧
    after (.fsetp (tHd 7#3) (.p 2#3) (.slice 0#9) (.imm 0#9) 2#4) (has 0 0x8000000000000000#64) (fun g => g.preds[2] = 0#96) ∧
    after (.fsetp (tHd 7#3) (.p 2#3) (.slice 0#9) (.imm 0#9) 2#4) (has 0 0xBFF0000000000000#64) (fun g => g.preds[2] = 8#96) := by decide +kernel

/-- R204: the manual's pack of −100 to four bits, saturated and truncated. -/
theorem test_pack : after (.pack (tHd 0#3) 0#9 8#9 1#4 true 1#3) (has 8 0x9C#8) (fun g => at3 g 0 4 = 8#4) ∧
    after (.pack (tHd 0#3) 0#9 8#9 0#4 false 1#3) (has 8 0x9C#8) (fun g => at3 g 0 4 = 0xC#4) := by decide +kernel

/-- R23, R282: bra goes to the header 4 words after this clause's; without a trap vector a trap halts the group, and exit halts nothing. -/
theorem test_control : (match exec (.bra (tHd 0#3) 4#22 0#16 false) (tControl 8 id) with
      | .next t => (t.group? 0).any fun g => decide (g.s0.pc = 0x1018#80)
      | _ => false) = true ∧
    after (.trap (tHd 0#3) (.imm 1#9)) id (fun g => g.halted) ∧ after (.exit (tHd 0#3)) id (fun g => g.halted) = false := by decide +kernel

/-- The running example's words (R6, R192): −4 × 1 is −4, and −2 × 1 − 4 is −6, with D as source C. -/
theorem test_running_example : after (.fmul (tHd 7#3) (.slice 64#9) (.slice 32#9) (.slice 0#9) 0#3)
      (fun g => has 32 0xC010000000000000#64 (has 0 0x3FF0000000000000#64 g)) (fun g => at3 g 64 64 = 0xC010000000000000#64) ∧
    after (.ffma (tHd 7#3) (.slice 64#9) (.slice 48#9) (.slice 16#9) (.slice 64#9))
      (fun g => has 48 0xC000000000000000#64 (has 16 0x3FF0000000000000#64 (has 64 0xC010000000000000#64 g))) (fun g => at3 g 64 64 = 0xC018000000000000#64) := by
  decide +kernel

/-- R202, R203: the manual's block of 10, −5, 1.5, 0.5, 0, 2, −12 and 6 becomes 0x5F2002C6 under the scale 0x80, and that block 8, −4, 2, 0, 0, 2, −12, 6. -/
theorem test_block : after (.blkq (tHd 5#3) 64#9 0#9 none 6#3 1#3 1#3)
      (has 0 0x40C00000C140000040000000000000003F0000003FC00000C0A0000041200000#256)
      (fun g => at3 g 64 32 = 0x5F2002C6#32 ∧ at3 g 72 8 = 0x80#8) ∧
    after (.blkdq (tHd 5#3) 0#9 (.slice 64#9) (.slice 72#9) 1#3 6#3 1#3) (fun g => has 64 0x5F2002C6#32 (has 72 0x80#8 g))
      (fun g => at3 g 0 256 = 0x40C00000C140000040000000000000000000000040000000C080000041000000#256) := by decide +kernel

/-- One step fetches the word and runs it: the manual's saturating add, of zeros and −1. -/
theorem test_step : (match step (State.reset.withFetchWord 64 0x08DDC28059FFC0C0) with
    | .next t => t.groups.any fun p => at3 p.2 40 16 = 0xFFFF#16 ∧ p.2.s0.pc = 0x1008#80
    | _ => false) = true := by decide +kernel

end Sys2Proof.Tests
end

section
namespace Sys2Proof.Machine

/-! ### Writes of special registers (R313) -/

/-- A word of shape `shapeM` has the head that it is written with. -/
theorem head_of_shapeM {i : Instr} {h : Head} {srcs : List (Src × Nat)} (hi : wordShape i = some (shapeM h srcs)) :
    ∀ sh, wordShape i = some sh → sh.head = h := by
  intro sh hs
  cases hi.symm.trans hs
  rfl

/-- In no lane a write does nothing. -/
theorem wrsrOnce_skips {i : Instr} {h : Head} {a : Src} {put : State → Nat → Group → Word32 → Option State}
    (he : ∀ s, exec i s = wrsrOnce i h a s put) (hh : ∀ sh, wordShape i = some sh → sh.head = h) : Skips i :=
  completes_of_gate he fun s s' gid s1 g sh hsh _ hm => by
    have hl : execLanes g (g.slot s1) h = 0#96 := by rw [← hh sh hsh]; exact hm
    simp only [hl, if_true]
    rfl

/-- A write that `put` takes leaves what `put` leaves, and the slot goes on. -/
theorem wrsrOnce_writes {i : Instr} {h : Head} {a : Src} {put : State → Nat → Group → Word32 → Option State} {ok : Cond} {f : After}
    (he : ∀ s, exec i s = wrsrOnce i h a s put) (hh : ∀ sh, wordShape i = some sh → sh.head = h)
    (hp : ∀ s gid s1 g sh m, s.group? gid = some g → ok s gid s1 g sh m → m ≠ 0#96 ∧
      ∃ t, put s gid g (readOnce s g (g.slot s1) m a 32) = some t ∧ f s gid s1 g sh m = t.modGroup gid fun g => g.done s1 sh) :
    Completes i ok f :=
  completes_of_gate he fun s s' gid s1 g sh hsh hg ho => by
    have hl : g.lanesAt s1 sh = execLanes g (g.slot s1) h := by rw [← hh sh hsh]; rfl
    obtain ⟨hm, t, ht, hf⟩ := hp s' gid s1 g sh _ hg ho
    rw [hl] at hm ht
    simp only [if_neg hm, ht, hf]

/-- A write that `put` refuses traps with illegal-instruction. -/
theorem wrsrOnce_traps {i : Instr} {h : Head} {a : Src} {put : State → Nat → Group → Word32 → Option State} {ok : Cond}
    (he : ∀ s, exec i s = wrsrOnce i h a s put) (hh : ∀ sh, wordShape i = some sh → sh.head = h)
    (hp : ∀ s gid s1 g sh m, ok s gid s1 g sh m → m ≠ 0#96 ∧ put s gid g (readOnce s g (g.slot s1) m a 32) = none) :
    Completes i ok fun s gid s1 g sh _ => trapWord s gid s1 i sh 0x02#8 0#8 (trapLanes g (g.slot s1) sh) true :=
  completes_of_gate he fun s s' gid s1 g sh hsh _ ho => by
    have hl : g.lanesAt s1 sh = execLanes g (g.slot s1) h := by rw [← hh sh hsh]; rfl
    obtain ⟨hm, ht⟩ := hp s' gid s1 g sh _ ho
    rw [hl] at hm ht
    simp only [if_neg hm, ht]
    rfl

theorem goesOn_eq (s : State) (gid : Nat) (s1 : Bool) (sh : Shape) (x : Group) :
    s.goesOn gid s1 sh x = (s.setGroup gid x).modGroup gid fun g => g.done s1 sh := by
  rw [modGroup_setGroup]; rfl

/-- The values that sr.fpctl takes (R186). -/
theorem fpctlOk_iff (v : Word32) : fpctlOk v = true ↔
    v &&& 0xFFFF80F8#32 = 0#32 ∧ 1 ≤ (v.extractLsb' 0 3).toNat ∧ (v.extractLsb' 0 3).toNat ≤ 5 := by
  simp [fpctlOk]

/-- A slot waits for rows of the matrix unit. -/
def Slot.awaitsRows (sl : Slot) : Bool := match sl.wait with | .acc _ | .feed => true | _ => false

theorem awaitsRows_iff (sl : Slot) : sl.awaitsRows = true ↔ sl.wait = .feed ∨ ∃ n, sl.wait = .acc n := by
  unfold Slot.awaitsRows
  cases sl.wait <;> simp

theorem flagsDue_eq (s : State) (gid : Nat) (g : Group) :
    flagsDue s gid g = ((s.lazies.any fun o => o.gid = gid) || g.s0.awaitsRows || g.s1.awaitsRows) := rfl

theorem flagsDue_iff (s : State) (gid : Nat) (g : Group) : flagsDue s gid g = true ↔
    (∃ o ∈ s.lazies, o.gid = gid) ∨ (g.s0.wait = .feed ∨ ∃ n, g.s0.wait = .acc n) ∨ (g.s1.wait = .feed ∨ ∃ n, g.s1.wait = .acc n) := by
  rw [flagsDue_eq, Bool.or_eq_true, Bool.or_eq_true, awaitsRows_iff, awaitsRows_iff, List.any_eq_true, or_assoc]
  simp only [decide_eq_true_eq]

theorem rdsrFpflags_ready {h : Head} {d : Dst} {s s' : State} {gid : Nat} {s1 : Bool} {g : Group} {sh : Shape}
    (hp : Passes (.rdsrFpflags h d) s gid s1 g sh s') (hd : flagsDue s gid g = false) :
    ∃ t, exec (.rdsrFpflags h d) s = .next t ∧ RegResult s t gid s1 g sh (g.lanesAt s1 sh) fun _ => g.fpflags := by
  cases hp.2.1
  cases passes_same hp rfl
  refine ⟨_, ?_, result_done (by decide) s gid s1 g _ _ _⟩
  rw [exec_rdsrFpflags, execRdsrFpflags, gate_of_passes _ hp, hd]
  simp only [Bool.and_false, Bool.false_eq_true, if_false]
  rfl

theorem rdsrFpflags_waits {h : Head} {d : Dst} {s s' : State} {gid : Nat} {s1 : Bool} {g : Group} {sh : Shape}
    (hp : Passes (.rdsrFpflags h d) s gid s1 g sh s') (hd : flagsDue s gid g = true) (hm : g.lanesAt s1 sh ≠ 0#96) :
    exec (.rdsrFpflags h d) s = .next (s.modSlot gid s1 fun x => { x with wait := .other }) := by
  cases hp.2.1
  cases passes_same hp rfl
  have hl : execLanes g (g.slot s1) h ≠ 0#96 := hm
  rw [exec_rdsrFpflags, execRdsrFpflags, gate_of_passes _ hp, hd]
  simp [hl]

theorem rdsrClock0_gives {h : Head} {d : Dst} {s s' : State} {gid : Nat} {s1 : Bool} {g : Group} {sh : Shape}
    (hp : Passes (.rdsrClock0 h d) s gid s1 g sh s') :
    ∃ t, exec (.rdsrClock0 h d) s = .next t ∧
      RegResult s t gid s1 (if g.lanesAt s1 sh = 0#96 then g else g.modSlot s1 fun x => { x with clock := s.now }) sh
        (g.lanesAt s1 sh) fun _ => (s.now.setWidth 32 : Word32) := by
  cases hp.2.1
  cases passes_same hp rfl
  refine ⟨_, ?_, result_done (by decide) s gid s1 _ _ _ _⟩
  rw [exec_rdsrClock0, execRdsrClock0, gate_of_passes _ hp]
  rfl

/-- Settles O30: each write is one of wrsrOnce, and each read a result once no flag is due. -/
theorem namedSpecialRegisters : Obligations.NamedSpecialRegisters := by
  unfold Obligations.NamedSpecialRegisters
  intro h d a word
  have hctl := head_of_shapeM (show wordShape (.wrsrFpctl h a) = _ from rfl)
  have hfl := head_of_shapeM (show wordShape (.wrsrFpflags h a) = _ from rfl)
  have hut := head_of_shapeM (show wordShape (.wrsrUtrap h word a) = _ from rfl)
  have hmf := head_of_shapeM (show wordShape (.mfqheadWrite h a) = _ from rfl)
  refine ⟨?_, ?_, ?_, ?_, ?_, ?_, wrsrOnce_skips (exec_wrsrFpctl h a) hctl, wrsrOnce_skips (exec_wrsrFpflags h a) hfl,
    wrsrOnce_skips (exec_wrsrUtrap h word a) hut, wrsrOnce_skips (exec_mfqheadWrite h a) hmf, ?_, ?_⟩
  · refine wrsrOnce_writes (exec_wrsrFpctl h a) hctl fun s gid s1 g sh m _ ⟨hm, hv⟩ => ⟨hm, _, if_pos ((fpctlOk_iff _).2 hv), ?_⟩
    exact goesOn_eq _ _ _ _ _
  · exact wrsrOnce_traps (exec_wrsrFpctl h a) hctl fun s gid s1 g sh m ⟨hm, hv⟩ => ⟨hm, if_neg fun hc => hv ((fpctlOk_iff _).1 hc)⟩
  · exact wrsrOnce_writes (exec_wrsrFpflags h a) hfl fun s gid s1 g sh m _ hm => ⟨hm, _, rfl, goesOn_eq _ _ _ _ _⟩
  · exact wrsrOnce_writes (exec_wrsrUtrap h word a) hut fun s gid s1 g sh m _ ⟨hm, hv⟩ => ⟨hm, _, if_pos hv, goesOn_eq _ _ _ _ _⟩
  · exact wrsrOnce_traps (exec_wrsrUtrap h word a) hut fun s gid s1 g sh m ⟨hm, hv⟩ => ⟨hm, if_neg hv⟩
  · refine wrsrOnce_writes (exec_mfqheadWrite h a) hmf fun s gid s1 g sh m hg hm => ⟨hm, _, rfl, ?_⟩
    unfold State.modGroup
    rw [show State.group? (s.setDie _ _) gid = some g from hg]
    rfl
  · intro s gid s1 g sh s' hp feeds
    constructor
    · intro hz h0 h1
      refine rdsrFpflags_ready hp (Bool.eq_false_iff.2 fun hd => ?_)
      rcases (flagsDue_iff s gid g).1 hd with ⟨o, ho, hg⟩ | hf | hf
      · exact hz o ho hg
      · exact h0 hf
      · exact h1 hf
    · intro hd hm
      exact rdsrFpflags_waits hp ((flagsDue_iff s gid g).2 hd) hm
  · intro s gid s1 g sh s' hp
    exact rdsrClock0_gives hp

end Sys2Proof.Machine
end

section
namespace Sys2Proof.Machine

/-! ### The checks before any access (R39, R67, R69) -/

/-- A mask of one lane has that lane alone. -/
theorem getLsbD_oneLane (n : Nat) (l : Lane) : (oneLane n).getLsbD l.val = decide (l.val = n) := by
  unfold oneLane
  have := l.isLt
  simp only [BitVec.getLsbD_shiftLeft, BitVec.getLsbD_one, l.isLt, decide_true, Bool.true_and]
  by_cases h : l.val = n
  · simp [h]
  · by_cases h2 : l.val < n
    · simp [h, h2]
    · have : ¬ l.val - n = 0 := by omega
      simp [h, this]

/-- A mask is zero when it has no lane. -/
theorem mask_eq_zero {m : Mask} (h : ∀ l : Lane, m.getLsbD l.val = false) : m = 0#96 :=
  BitVec.eq_of_getLsbD_eq fun i hi => by rw [h ⟨i, hi⟩, BitVec.getLsbD_zero]

theorem mask_ne_zero {m : Mask} : m ≠ 0#96 ↔ ∃ l : Lane, m.getLsbD l.val = true := by
  constructor
  · intro h
    obtain ⟨l, hl⟩ := lowest_some h
    exact ⟨l, lowest_mem hl⟩
  · rintro ⟨l, hl⟩ rfl
    simp at hl

/-- The lane makes an access of its own: it is the one that stands for the group, or one of the mask. -/
def MemReq.makes (r : MemReq) (m : Mask) (l : Lane) : Prop :=
  if r.once.isSome then r.once = some l.val ∧ m ≠ 0#96 else m.getLsbD l.val = true

theorem getLsbD_makers (r : MemReq) (m : Mask) (l : Lane) : (r.makers m).getLsbD l.val = true ↔ r.makes m l := by
  unfold MemReq.makers MemReq.makes
  cases ho : r.once with
  | none => simp
  | some k =>
    by_cases hm : m = 0#96
    · simp [hm]
    · show (if m = 0#96 then 0#96 else oneLane k).getLsbD l.val = true ↔ some k = some l.val ∧ m ≠ 0#96
      rw [if_neg hm, getLsbD_oneLane, decide_eq_true_eq, Option.some.injEq, and_iff_left hm, eq_comm]

/-- The lanes that a check of R67 names: the makers that fail it, or the whole mask where one of them stands for the group. -/
def MemReq.failing (r : MemReq) (m : Mask) (p : Lane → Bool) : Mask :=
  let x := r.makers m &&& maskOf p
  if x = 0#96 then x else r.stands m ((lowest? x).getD 0).val ||| x

theorem getLsbD_failers (r : MemReq) (m : Mask) (p : Lane → Bool) (l : Lane) :
    (r.makers m &&& maskOf p).getLsbD l.val = true ↔ r.makes m l ∧ p l = true := by
  rw [BitVec.getLsbD_and, getLsbD_maskOf, Bool.and_eq_true, getLsbD_makers]

/-- A check holds when every lane that makes an access passes it. -/
theorem failing_ne_zero (r : MemReq) (m : Mask) (p : Lane → Bool) : r.failing m p ≠ 0#96 ↔ ∃ l, r.makes m l ∧ p l = true := by
  have hx := @mask_ne_zero (r.makers m &&& maskOf p)
  simp only [getLsbD_failers] at hx
  rw [← hx]
  unfold MemReq.failing
  by_cases h : r.makers m &&& maskOf p = 0#96
  · simp [h]
  · simp only [h, if_false, ne_eq, not_false_iff, iff_true]
    intro hc
    exact h (by simpa [BitVec.or_eq_zero_iff] using (BitVec.or_eq_zero_iff.1 hc).2)

/-- The lanes of a failed check. -/
theorem getLsbD_failing (r : MemReq) (m : Mask) (p : Lane → Bool) (h : ∃ l, r.makes m l ∧ p l = true) (l : Lane) :
    (r.failing m p).getLsbD l.val = true ↔ (r.makes m l ∧ p l = true) ∨ (r.once.isSome = true ∧ m.getLsbD l.val = true) := by
  have hx : r.makers m &&& maskOf p ≠ 0#96 := mask_ne_zero.2 (by simpa only [getLsbD_failers] using h)
  obtain ⟨k, hk⟩ := lowest_some hx
  have hkf := (getLsbD_failers r m p k).1 (lowest_mem hk)
  unfold MemReq.failing
  simp only [if_neg hx, hk, Option.getD_some, BitVec.getLsbD_or, Bool.or_eq_true, getLsbD_failers, MemReq.stands]
  cases ho : r.once with
  | some n => simp [or_comm]
  | none =>
    simp only [Option.isSome_none, Bool.false_eq_true, if_false, false_and, or_false, getLsbD_oneLane, decide_eq_true_eq,
      or_iff_right_iff_imp]
    intro hl
    rw [Fin.ext hl]
    exact hkf

/-- The lane's bytes lie within its space, by the limits of R39. -/
def MemReq.fits (s : State) (g : Group) (r : MemReq) (n : Nat) (l : Lane) : Prop :=
  let ea := r.ea[l].toNat
  let size := match g.team.bind (tget s.teams) with | some t => t.scSize | none => 0
  match r.space with
  | .lp => ea + n ≤ 2 ^ 24
  | .sc => ea < 2 ^ 20 ∧ ea + n ≤ size
  | .cl => ea < 2 ^ 23 ∧ ea % 2 ^ 20 + n ≤ size
  | .ds => ea < 2 ^ 25 ∧ ea + n ≤ (s.dsRange g.die g.grid).2
  | .g | .ro => True

theorem inSpace_iff (s : State) (g : Group) (r : MemReq) (n : Nat) (l : Lane) :
    inSpace s (s.teamOf g) g.die g.grid r.space r.ea[l] n = true ↔ r.fits s g n l := by
  unfold inSpace MemReq.fits State.teamOf
  cases r.space <;> simp only [decide_eq_true_eq] <;> rfl

/-- A range lock covers a byte of the lane's. -/
def MemReq.locked (s : State) (g : Group) (r : MemReq) (n : Nat) (lock : Option Bool) (l : Lane) : Bool :=
  match lock with
  | some wr => lockHit s g.die g.core g.tenant wr r.space r.ea[l] n
  | none => false

/-- The three checks, in the order of R67. -/
theorem memTrap_eq (s : State) (g : Group) (r : MemReq) (n align : Nat) (lock : Option Bool) (m : Mask) :
    memTrap s g r n align lock m =
      let space := r.failing m fun l => !inSpace s (s.teamOf g) g.die g.grid r.space r.ea[l] n
      let al := r.failing m fun l => decide (r.ea[l].toNat % align ≠ 0)
      let lk := r.failing m (r.locked s g n lock)
      if space ≠ 0#96 then some (0x07#8, space) else if al ≠ 0#96 then some (0x08#8, al)
        else if lk ≠ 0#96 then some (0x09#8, lk) else none := by
  cases lock with
  | some wr => rfl
  | none =>
    have hz : r.failing m (r.locked s g n none) = 0#96 := by
      by_contra h
      obtain ⟨_, _, hl⟩ := (failing_ne_zero r m _).1 h
      cases hl
    rw [hz]
    rfl

/-- The mask of a trap: some lane that makes an access fails the check, and the mask has those that do, and the whole group where one access
stands for it. -/
def MemReq.names (r : MemReq) (m t : Mask) (bad : Lane → Prop) : Prop :=
  (∃ l, r.makes m l ∧ bad l) ∧
    ∀ l : Lane, t.getLsbD l.val = true ↔ (r.makes m l ∧ bad l) ∨ (r.once.isSome = true ∧ m.getLsbD l.val = true)

theorem failing_names {r : MemReq} {m : Mask} {p : Lane → Bool} {bad : Lane → Prop} (hb : ∀ l, p l = true ↔ bad l)
    (h : r.failing m p ≠ 0#96) : r.names m (r.failing m p) bad := by
  have hx := (failing_ne_zero r m p).1 h
  refine ⟨by simpa only [hb] using hx, fun l => ?_⟩
  rw [getLsbD_failing r m p hx, hb]

theorem failing_eq_zero {r : MemReq} {m : Mask} {p : Lane → Bool} {good : Lane → Prop} (hb : ∀ l, p l = true ↔ ¬ good l) :
    r.failing m p = 0#96 ↔ ∀ l, r.makes m l → good l := by
  rw [← not_iff_not, ← ne_eq, failing_ne_zero]
  simp only [hb, not_forall, exists_prop]

section
variable (s : State) (g : Group) (r : MemReq) (n align : Nat) (lock : Option Bool)

theorem outOfSpace_iff (l : Lane) : (!inSpace s (s.teamOf g) g.die g.grid r.space r.ea[l] n) = true ↔ ¬ r.fits s g n l := by
  rw [← inSpace_iff, Bool.not_eq_true', Bool.not_eq_true]

theorem misaligned_iff (l : Lane) : decide (r.ea[l].toNat % align ≠ 0) = true ↔ ¬ r.ea[l].toNat % align = 0 := by
  rw [decide_eq_true_eq]

theorem locked_iff (l : Lane) : r.locked s g n lock l = true ↔ ¬ ¬ r.locked s g n lock l = true := by
  rw [not_not]

/-- No trap is taken when every access passes all three checks. -/
theorem memTrap_none_iff (m : Mask) : memTrap s g r n align lock m = none ↔
    ∀ l, r.makes m l → r.fits s g n l ∧ r.ea[l].toNat % align = 0 ∧ ¬ r.locked s g n lock l = true := by
  rw [memTrap_eq]
  simp only [forall_and]
  rw [← failing_eq_zero (outOfSpace_iff s g r n), ← failing_eq_zero (misaligned_iff r align), ← failing_eq_zero (locked_iff s g r n lock)]
  split_ifs <;> simp_all

/-- A trap is that of the first check which some lane's access fails, and names the lanes that fail it. -/
theorem memTrap_some {m t : Mask} {c : BitVec 8} (h : memTrap s g r n align lock m = some (c, t)) :
    (c = 0x07#8 ∧ r.names m t fun l => ¬ r.fits s g n l) ∨
    (c = 0x08#8 ∧ (∀ l, r.makes m l → r.fits s g n l) ∧ r.names m t fun l => r.ea[l].toNat % align ≠ 0) ∨
    (c = 0x09#8 ∧ (∀ l, r.makes m l → r.fits s g n l ∧ r.ea[l].toNat % align = 0) ∧ r.names m t fun l => r.locked s g n lock l = true) := by
  rw [memTrap_eq] at h
  have fit := @failing_eq_zero r m _ _ (outOfSpace_iff s g r n)
  have aligned := @failing_eq_zero r m _ _ (misaligned_iff r align)
  simp only at h
  split_ifs at h with h1 h2 h3
  · cases h
    exact .inl ⟨rfl, failing_names (outOfSpace_iff s g r n) h1⟩
  · cases h
    exact .inr (.inl ⟨rfl, fit.1 (not_not.1 h1), failing_names (misaligned_iff r align) h2⟩)
  · cases h
    exact .inr (.inr ⟨rfl, fun l hl => ⟨fit.1 (not_not.1 h1) l hl, aligned.1 (not_not.1 h2) l hl⟩,
      failing_names (fun _ => Iff.rfl) h3⟩)

end

theorem locked_eq (s : State) (g : Group) (r : MemReq) (n : Nat) (lock : Option Bool) (l : Lane) :
    (r.locked s g n lock l = true) = match lock with
      | some wr => lockHit s g.die g.core g.tenant wr r.space r.ea[l] n = true
      | none => False := by
  cases lock <;> simp [MemReq.locked]

/-- Settles O37: the checks are three masks of failing lanes, looked at in the order of R67. -/
theorem accessChecks : Obligations.AccessChecks := by
  unfold Obligations.AccessChecks
  intro s g r n align lock m fits locked makes lanes
  have hl : locked = fun l => r.locked s g n lock l = true := by
    funext l
    exact (locked_eq s g r n lock l).symm
  have hf : fits = r.fits s g n := rfl
  have hm : makes = r.makes m := rfl
  simp only [lanes, hl, hf, hm]
  exact ⟨memTrap_none_iff s g r n align lock m, fun c t h => memTrap_some s g r n align lock h⟩

end Sys2Proof.Machine
end

section
namespace Sys2Proof.Machine

/-! ### Stores to the scratchpad (R39, R55, R63, R66, R71) -/

/-- The pieces of an element are its bytes, in order. -/
theorem pieces_keys {w : BitVec 3} {ea : Addr} {ks : List Nat} (h : ks.length = elemSize w) : (pieces w ea ks).flatMap Prod.snd = ks := by
  unfold pieces
  split_ifs with h1 h2
  · simp
  · obtain ⟨rfl, -⟩ := h2
    match ks, h with
    | [a, b, c, d, e, f], _ => rfl
  · rw [List.flatMap_map]
    rw [← List.map_eq_flatMap]
    exact List.zipIdx_map_fst 0 ks

/-- One byte of a value. -/
theorem byte_shift {w : Nat} (x : BitVec w) (i j : Nat) : (x >>> (8 * i)).extractLsb' (8 * j) 8 = x.extractLsb' (8 * (i + j)) 8 := by
  apply BitVec.eq_of_getLsbD_eq
  intro k hk
  simp only [BitVec.getLsbD_extractLsb', BitVec.getLsbD_ushiftRight, hk, decide_true, Bool.true_and]
  congr 1
  omega

/-- The pieces' bytes are those of the whole value. -/
theorem pieces_bytes {w : BitVec 3} {ea : Addr} {ks : List Nat} (h : ks.length = elemSize w) (x : BitVec 64) :
    (pieces w ea ks).flatMap (fun p => toBytes (x >>> (8 * p.1)) p.2.length) = toBytes x ks.length := by
  unfold pieces
  split_ifs with h1 h2
  · simp
  · obtain ⟨rfl, -⟩ := h2
    match ks, h with
    | [a, b, c, d, e, f], _ => simp [List.range_succ, toBytes, byte_shift]
  · rw [List.flatMap_map]
    simp only [List.length_singleton, toBytes, List.range_one, List.map_cons, List.map_nil, byte_shift, Nat.add_zero]
    rw [← List.map_eq_flatMap, List.range_eq_range', ← List.zipIdx_map_snd, List.map_map]
    rfl

theorem elemSize_three (w : BitVec 3) : elemSize w = 3 ↔ w = 4#3 := by revert w; decide
theorem elemSize_six (w : BitVec 3) : elemSize w = 6 ↔ w = 6#3 := by revert w; decide

/-- The bytes that one piece holds (R66). -/
theorem pieces_size {w : BitVec 3} {ea : Addr} {ks : List Nat} (h : ks.length = elemSize w) {p : Nat × List Nat} (hp : p ∈ pieces w ea ks) :
    p.2.length = if elemSize w ≠ 3 ∧ elemSize w ≠ 6 ∧ ea.toNat % elemSize w = 0 then elemSize w
      else if elemSize w = 6 ∧ ea.toNat % 2 = 0 then 2 else 1 := by
  unfold pieces at hp
  simp only [ne_eq, elemSize_three, elemSize_six]
  split_ifs at hp ⊢ with h1 h2
  · rw [List.mem_singleton.1 hp, h]
  · obtain ⟨i, hi, rfl⟩ := List.mem_map.1 hp
    rw [h2.1] at h
    have : i < 3 := List.mem_range.1 hi
    have h6 : ks.length = 6 := h
    simp only [List.length_take, List.length_drop]
    omega
  · obtain ⟨q, -, rfl⟩ := List.mem_map.1 hp
    rfl

theorem pieces_ne_nil {w : BitVec 3} {ea : Addr} {ks : List Nat} (h : ks ≠ []) : pieces w ea ks ≠ [] := by
  unfold pieces
  split_ifs
  · simp
  · simp [List.range_succ]
  · simpa using h

/-- A space that no page table maps needs no translation: every lane has its keys. -/
theorem xlateFrom_unmapped {s : State} {g : Group} {sp : Space} (h : sp.mapped = false) (k : AccessKind) (ea : Lanes Addr) (n : Nat)
    (found : List TlbEntry) (ls : List Lane) :
    xlateFrom s g sp k ea n found ls =
      (s, { keys := ls.map fun l => (l.val, chipKeys s (s.teamOf g) g.die g.core g.grid sp ea[l] n), faulted := 0#96, first := none }) := by
  induction ls with
  | nil => rfl
  | cons l r ih => simp [xlateFrom, lanePages, h, ih]

/-- Lanes that need no miss-status entry are all granted. -/
theorem grantEntries_free {lines : Nat → List Nat} {ks : List (Nat × List Nat)} (h : ∀ p ∈ ks, lines p.1 = []) (held : List (Nat × Bool))
    (gen res : Nat) : grantEntries lines held gen res ks = (ks.map fun p => (p.1, p.2, [], []), 0#96) := by
  induction ks generalizing held gen res with
  | nil => rfl
  | cons p r ih =>
    obtain ⟨l, k⟩ := p
    have hl : lines l = [] := h (l, k) List.mem_cons_self
    simp [grantEntries, hl, ih fun q hq => h q (List.mem_cons_of_mem _ hq)]

/-- Accesses to the core's own scratchpad hold no miss-status entry (R54). -/
theorem askEntries_sc {r : MemReq} (h : r.space = .sc) (s : State) (s1 : Bool) (g : Group) (ks : List (Nat × List Nat)) :
    askEntries s s1 g r ks = (ks.map fun p => (p.1, p.2, [], []), 0#96) := by
  refine grantEntries_free (fun p _ => ?_) _ _ _
  rw [h]
  split <;> rfl

/-- The digest is all that an access changes of its group when it is noted. -/
theorem noteAccess_digest (g : Group) (r : MemReq) (m : Mask) : ∃ d, g.noteAccess r m = { g with digest := d } := by
  unfold Group.noteAccess
  split_ifs
  · exact ⟨_, rfl⟩
  · exact ⟨g.digest, rfl⟩

/-- The stores of one lane's element, numbered from `first`. -/
def laneStores (gid : Nat) (s1 : Bool) (g : Group) (r : MemReq) (l : Lane) (ks : List Nat) (first : Nat) : List StoreRec :=
  (pieces r.w r.ea[l] ks).zipIdx.map fun p =>
    { id := first + p.2, parent := r.id, gid := gid, agents := oneLane l.val, die := g.die, core := g.core, tenant := g.tenant,
      space := r.space, pol := r.pol, keys := p.1.2, bytes := toBytes (r.data[l] >>> (8 * p.1.1)) p.1.2.length, s1 := s1,
      trap := g.trapMode, va := r.ea[l], ctr := r.ctr, mse := [], reserve := [] }

/-- Stores join those on their way, and the next free number is `n`. -/
def State.addStores (s : State) (xs : List StoreRec) (n : Nat) : State := { s with stores := s.stores ++ xs, seqNo := n }

theorem addStores_addStores (s : State) (xs ys : List StoreRec) (n k : Nat) : (s.addStores xs n).addStores ys k = s.addStores (xs ++ ys) k := by
  unfold State.addStores
  simp only [List.append_assoc]

theorem modSlot_addStores (s : State) (xs : List StoreRec) (n gid : Nat) (s1 : Bool) (f : Slot → Slot) :
    (s.addStores xs n).modSlot gid s1 f = (s.modSlot gid s1 f).addStores xs n := by
  unfold State.modSlot State.modGroup
  rw [show (s.addStores xs n).group? gid = s.group? gid from rfl]
  cases s.group? gid <;> rfl

theorem issueOne_store {s : State} {gid : Nat} {g : Group} {r : MemReq} (hg : s.group? gid = some g) (hop : r.op = .store)
    (ho : r.once = none) (s1 : Bool) (todo : Mask) (l : Lane) (ks : List Nat) :
    issueOne s gid s1 r todo (l.val, ks, [], []) =
      s.addStores (laneStores gid s1 g r l ks s.seqNo) (s.seqNo + (pieces r.w r.ea[l] ks).length) := by
  have hl : Fin.ofNat 96 l.val = l := Fin.ext (Nat.mod_eq_of_lt l.isLt)
  unfold issueOne
  simp only [hg, hop, ho, hl, MemReq.stands, Option.isSome_none, Bool.false_eq_true, if_false]
  rfl

/-- The stores of a lane's element: its bytes in order, each store one piece that the lane's agent makes. -/
structure LaneStores (gid : Nat) (r : MemReq) (l : Lane) (ks : List Nat) (xs : List StoreRec) : Prop where
  keys : xs.flatMap StoreRec.keys = ks
  bytes : xs.flatMap StoreRec.bytes = toBytes r.data[l] ks.length
  size : ∀ x ∈ xs, x.keys.length = x.bytes.length ∧
    x.keys.length = if elemSize r.w ≠ 3 ∧ elemSize r.w ≠ 6 ∧ r.ea[l].toNat % elemSize r.w = 0 then elemSize r.w
      else if elemSize r.w = 6 ∧ r.ea[l].toNat % 2 = 0 then 2 else 1
  own : ∀ x ∈ xs, x.agents = oneLane l.val ∧ x.parent = r.id ∧ x.gid = gid ∧ x.space = r.space ∧ x.ctr = r.ctr ∧ x.mse = []

theorem toBytes_length {w : Nat} (x : BitVec w) (n : Nat) : (toBytes x n).length = n := by simp [toBytes]

theorem flatMap_zipIdx {α β : Type} (xs : List α) (f : α → List β) : xs.zipIdx.flatMap (fun p => f p.1) = xs.flatMap f := by
  conv_rhs => rw [← List.zipIdx_map_fst 0 xs, List.flatMap_map]

theorem laneStores_spec (gid : Nat) (s1 : Bool) (g : Group) (r : MemReq) (l : Lane) {ks : List Nat} (h : ks.length = elemSize r.w)
    (first : Nat) : LaneStores gid r l ks (laneStores gid s1 g r l ks first) := by
  refine ⟨?_, ?_, ?_, ?_⟩
  · rw [laneStores, List.flatMap_map]
    exact (flatMap_zipIdx _ Prod.snd).trans (pieces_keys h)
  · rw [laneStores, List.flatMap_map, ← pieces_bytes h r.data[l]]
    exact flatMap_zipIdx _ fun p : Nat × List Nat => toBytes (r.data[l] >>> (8 * p.1)) p.2.length
  · intro x hx
    obtain ⟨p, hp, rfl⟩ := List.mem_map.1 hx
    have hs := pieces_size h (List.fst_mem_of_mem_zipIdx hp)
    simp only [toBytes_length, true_and]
    exact hs
  · intro x hx
    obtain ⟨p, hp, rfl⟩ := List.mem_map.1 hx
    exact ⟨rfl, rfl, rfl, rfl, rfl, rfl⟩

/-- The lanes issue their stores one after the other. -/
theorem issueAll_stores {gid : Nat} {g : Group} {r : MemReq} (hop : r.op = .store) (ho : r.once = none) (s1 : Bool) (todo : Mask)
    (place : Lane → List Nat) (ls : List Lane) (hd : ls.Nodup) (s : State) (hg : s.group? gid = some g) :
    ∃ (recs : Lane → List StoreRec) (n : Nat),
      ((ls.map fun l => (l.val, place l)).map fun p => (p.1, p.2, [], [])).foldl (fun s p => issueOne s gid s1 r todo p) s =
        s.addStores (ls.flatMap recs) n ∧
      ∀ l ∈ ls, ∃ first, recs l = laneStores gid s1 g r l (place l) first := by
  induction ls generalizing s with
  | nil => exact ⟨fun _ => [], s.seqNo, by simp [State.addStores], by simp⟩
  | cons a ls ih =>
    obtain ⟨ha, hd⟩ := List.nodup_cons.1 hd
    let mine := laneStores gid s1 g r a (place a) s.seqNo
    obtain ⟨recs, n, he, hr⟩ := ih hd (s.addStores mine (s.seqNo + (pieces r.w r.ea[a] (place a)).length)) hg
    have other : ∀ l ∈ ls, Function.update recs a mine l = recs l := fun l hl => Function.update_of_ne (ne_of_mem_of_not_mem hl ha) _ _
    refine ⟨Function.update recs a mine, n, ?_, ?_⟩
    · simp only [List.map_cons, List.foldl_cons, issueOne_store hg hop ho]
      rw [he, addStores_addStores, List.flatMap_cons, Function.update_self, List.flatMap_congr other]
    · intro l hl
      rcases List.mem_cons.1 hl with rfl | hl
      · exact ⟨s.seqNo, Function.update_self ..⟩
      · rw [other l hl]
        exact hr l hl

theorem reqDone_open {s : State} {id : Nat} (h : s.reqOpen id = true) (gid : Nat) (ctr : BitVec 2) : s.reqDone gid ctr id = s := by
  unfold State.reqDone
  rw [h, Bool.or_true, if_pos rfl]

theorem lanesOf_nodup (m : Mask) : (lanesOf m).Nodup := (List.nodup_finRange 96).filter _

/-- A word whose lanes all translate and all find their entries issues whole: the accesses are noted and issued, and the slot goes on. -/
theorem memIssue_whole {s u : State} {gid : Nat} {g : Group} {r : MemReq} {ks : List (Nat × List Nat)}
    {ok : List (Nat × List Nat × List Nat × List Nat)} (s1 : Bool) (hg : s.group? gid = some g)
    (hx : xlateLanes s g r.space r.op.kind r.ea r.bytes (lanesOf (r.makers r.issued)) = (u, { keys := ks, faulted := 0#96, first := none }))
    (ha : askEntries u s1 g r ks = (ok, 0#96)) :
    ∃ m, memIssue s gid s1 r r.issued =
      ((ok.foldl (fun s p => issueOne s gid s1 r r.issued p) (u.modGroup gid fun g => g.noteAccess r m)).modSlot gid s1 fun sl =>
        sl.advance r.res).reqDone gid r.ctr r.id := by
  refine ⟨?m, ?eq⟩
  case eq =>
    unfold memIssue
    simp only [hg, hx, ha, keepBelow, ne_eq, not_true_eq_false, and_false, if_false, decide_false, Bool.false_and, Bool.false_eq_true,
      BitVec.or_self, if_true]
    rfl

/-- The bytes of a lane's element in the team's part of the core's scratchpad (R55). -/
def MemReq.scratchKeys (r : MemReq) (g : Group) (team : Team) (l : Lane) : List Nat :=
  upFrom (2 ^ 56 + (g.die * 64 + g.core) * 2 ^ 20 + (team.scBase.getD (g.core % 8) 0 + r.ea[l].toNat)) (elemSize r.w)

section
variable {s : State} {gid : Nat} {g : Group} {r : MemReq} {team : Team}

theorem xlateLanes_scratch (ht : s.teamOf g = some team) (hop : r.op = .store) (hsp : r.space = .sc) (ho : r.once = none) :
    xlateLanes s g r.space r.op.kind r.ea r.bytes (lanesOf (r.makers r.issued)) =
      (s, { keys := (lanesOf r.issued).map fun l => (l.val, r.scratchKeys g team l), faulted := 0#96, first := none }) := by
  have hb : r.bytes = elemSize r.w := by unfold MemReq.bytes; rw [hop]
  have hm : r.makers r.issued = r.issued := by unfold MemReq.makers; rw [ho]
  rw [xlateLanes, xlateFrom_unmapped (by rw [hsp]; rfl), hb, hm, hsp, ht]
  rfl

/-- The stores join those on their way, the accesses join their lanes' digests, and the slot goes on; the counter of a word that has lanes
does not fall yet. -/
theorem memIssue_scratch (s1 : Bool) (hg : s.group? gid = some g) (ht : s.teamOf g = some team) (hop : r.op = .store) (hsp : r.space = .sc)
    (ho : r.once = none) :
    ∃ (d : Lanes (BitVec 128)) (recs : Lane → List StoreRec) (n : Nat),
      memIssue s gid s1 r r.issued =
        (((s.setGroup gid { g with digest := d }).addStores ((lanesOf r.issued).flatMap recs) n).modSlot gid s1 fun sl =>
          sl.advance r.res).reqDone gid r.ctr r.id ∧
      ∀ l ∈ lanesOf r.issued, ∃ first, recs l = laneStores gid s1 { g with digest := d } r l (r.scratchKeys g team l) first := by
  obtain ⟨m, he⟩ := memIssue_whole s1 hg (xlateLanes_scratch ht hop hsp ho) (askEntries_sc hsp s s1 g _)
  obtain ⟨d, hd⟩ := noteAccess_digest g r m
  obtain ⟨recs, n, hf, hr⟩ := issueAll_stores (g := { g with digest := d }) hop ho s1 r.issued (r.scratchKeys g team) _ (lanesOf_nodup r.issued)
    (s.setGroup gid { g with digest := d }) (group_setGroup _ _ _)
  refine ⟨d, recs, n, ?_, hr⟩
  rw [he, State.modGroup, hg]
  simp only [hd, hf]

end

/-- An element of at least a byte has a store. -/
theorem LaneStores.exists_mem {gid : Nat} {r : MemReq} {l : Lane} {ks : List Nat} {xs : List StoreRec} (h : LaneStores gid r l ks xs)
    (hk : ks ≠ []) : ∃ x ∈ xs, x.parent = r.id := by
  cases xs with
  | nil => exact absurd h.keys.symm hk
  | cons x xs => exact ⟨x, List.mem_cons_self, (h.own x List.mem_cons_self).2.1⟩

theorem reqOpen_of_store {s : State} {id : Nat} {x : StoreRec} (hx : x ∈ s.stores) (hp : x.parent = id) : s.reqOpen id = true := by
  have : (s.stores.any fun r => r.parent = id) = true := List.any_eq_true.2 ⟨x, hx, decide_eq_true hp⟩
  simp [State.reqOpen, this]

/-- Settles O38: the lanes issue one after the other, each its pieces, and the word's open stores keep its counter up. -/
theorem scratchpadStoresIssue : Obligations.ScratchpadStoresIssue := by
  unfold Obligations.ScratchpadStoresIssue
  intro s gid s1 g r team hg ht hop hsp ho h0 hw t n
  obtain ⟨d, recs, k, he, hr⟩ := memIssue_scratch s1 hg ht hop hsp ho
  have hlen : ∀ l, (r.scratchKeys g team l).length = elemSize r.w := fun l => by simp [MemReq.scratchKeys, upFrom]
  have hspec : ∀ l, r.issued.getLsbD l.val = true → LaneStores gid r l (r.scratchKeys g team l) (recs l) := by
    intro l hl
    obtain ⟨first, hf⟩ := hr l ((mem_lanesOf _ l).2 hl)
    rw [hf]
    exact laneStores_spec _ _ _ _ _ (hlen l) _
  have hopen : ((lanesOf r.issued).flatMap recs).any (fun x => x.parent = r.id) = true := by
    obtain ⟨l, hl⟩ := lowest_some h0
    have hne : r.scratchKeys g team l ≠ [] := by
      rw [← List.length_pos_iff, hlen, elemSize]
      omega
    obtain ⟨x, hx, hp⟩ := (hspec l (lowest_mem hl)).exists_mem hne
    exact List.any_eq_true.2 ⟨x, List.mem_flatMap.2 ⟨l, (mem_lanesOf _ l).2 (lowest_mem hl), hx⟩, decide_eq_true hp⟩
  have hend : t = (s.setGroup gid (({ g with digest := d } : Group).modSlot s1 fun sl => sl.advance r.res)).addStores
      ((lanesOf r.issued).flatMap recs) k := by
    obtain ⟨x, hx, hp⟩ := List.any_eq_true.1 hopen
    show memIssue s gid s1 r r.issued = _
    rw [he, modSlot_addStores, State.modSlot, modGroup_setGroup, reqDone_open]
    exact reqOpen_of_store (List.mem_append_right _ hx) (of_decide_eq_true hp)
  refine ⟨by rw [hend]; rfl, by rw [hend]; rfl, by rw [hend]; rfl, ⟨recs, by rw [hend]; rfl, fun l hl => ?_⟩, ?_⟩
  · have h := hspec l hl
    refine ⟨h.keys, ?_, h.size, ?_⟩
    · rw [h.bytes, hlen]; rfl
    · simpa only [hsp] using h.own
  · refine ⟨_, by rw [hend]; exact group_setGroup s gid _, ?_, ?_, ?_⟩
    · cases s1 <;> rfl
    · cases s1 <;> rfl
    · cases s1 <;> rfl

end Sys2Proof.Machine
end

section
namespace Sys2Proof.Machine

/-! ### Reaching a ring or a future (R63, R64, R109) -/

section
variable {s : State} {gid : Nat} {s1 : Bool} {g : Group} {r : MemReq} {wait : SlotWait} {whole : Bool} {todo : Mask} {ks : List (Nat × List Nat)}

theorem reach_acked (h : r.acked = true) : reach s gid s1 g r wait whole todo ks = .ok (ks.foldl (fun m p => m ||| oneLane p.1) 0#96) := by
  unfold reach
  simp only [h, if_true]

theorem reach_sent (h : r.acked = false) (hf : ∃ f ∈ s.flits, f.id = r.id) : reach s gid s1 g r wait whole todo ks = .error s := by
  have hany : (s.flits.any fun f => f.id = r.id) = true := by simpa using hf
  unfold reach
  simp only [h, Bool.false_eq_true, if_false, hany, if_true]

/-- An access that has not been sent asks for entries first, and is sent where it goes to another module. -/
theorem reach_asks (h : r.acked = false) (hf : ∀ f ∈ s.flits, f.id ≠ r.id) :
    reach s gid s1 g r wait whole todo ks =
      if (askEntries s s1 g r ks).2 ≠ 0#96 && (whole || isRemote (ks.flatMap Prod.snd) || (askEntries s s1 g r ks).1.isEmpty) then
        .error (waitEntries s gid s1 wait r todo)
      else if isRemote (ks.flatMap Prod.snd) then
        .error ((sendWait s gid s1 g r (askEntries s s1 g r ks).1).modSlot gid s1 fun sl =>
          { sl with wait := wait, unfinished := todo, req := some r, age := 0 })
      else .ok (ks.foldl (fun m p => m ||| oneLane p.1) 0#96 &&& ~~~(askEntries s s1 g r ks).2) := by
  have hany : ¬ (s.flits.any fun f => f.id = r.id) = true := by simpa using hf
  unfold reach
  simp only [h, Bool.false_eq_true, if_false, hany]

/-- Lanes without an entry keep the whole word waiting, where it moves as a whole, goes to another module, or no lane has one. -/
theorem reach_rejected (h : r.acked = false) (hf : ∀ f ∈ s.flits, f.id ≠ r.id) (hx : (askEntries s s1 g r ks).2 ≠ 0#96)
    (hw : whole = true ∨ isRemote (ks.flatMap Prod.snd) = true ∨ (askEntries s s1 g r ks).1 = []) :
    reach s gid s1 g r wait whole todo ks = .error (waitEntries s gid s1 wait r todo) := by
  rw [reach_asks h hf]
  refine if_pos ?_
  rw [Bool.and_eq_true, decide_eq_true_eq, Bool.or_eq_true, Bool.or_eq_true, List.isEmpty_iff]
  exact ⟨hx, or_assoc.2 hw⟩

/-- Else the lanes that have entries perform. -/
theorem reach_part (h : r.acked = false) (hf : ∀ f ∈ s.flits, f.id ≠ r.id) (haw : isRemote (ks.flatMap Prod.snd) = false)
    (hne : (askEntries s s1 g r ks).1 ≠ []) :
    reach s gid s1 g r wait false todo ks = .ok (ks.foldl (fun m p => m ||| oneLane p.1) 0#96 &&& ~~~(askEntries s s1 g r ks).2) := by
  have he : (askEntries s s1 g r ks).1.isEmpty = false := by rw [← Bool.not_eq_true, List.isEmpty_iff]; exact hne
  rw [reach_asks h hf, haw, he]
  simp only [Bool.or_self, Bool.and_false, Bool.false_eq_true, if_false]

/-- With all its entries, an access to another module leaves for it. -/
theorem reach_leaves (h : r.acked = false) (hf : ∀ f ∈ s.flits, f.id ≠ r.id) (hx : (askEntries s s1 g r ks).2 = 0#96)
    (haw : isRemote (ks.flatMap Prod.snd) = true) :
    reach s gid s1 g r wait whole todo ks = .error ((sendWait s gid s1 g r (askEntries s s1 g r ks).1).modSlot gid s1 fun sl =>
      { sl with wait := wait, unfinished := todo, req := some r, age := 0 }) := by
  rw [reach_asks h hf, haw, hx]
  simp only [ne_eq, not_true_eq_false, decide_false, Bool.false_and, Bool.false_eq_true, if_false, if_true]

/-- With all its entries, an access within the module performs. -/
theorem reach_performs (h : r.acked = false) (hf : ∀ f ∈ s.flits, f.id ≠ r.id) (hx : (askEntries s s1 g r ks).2 = 0#96)
    (haw : isRemote (ks.flatMap Prod.snd) = false) :
    reach s gid s1 g r wait whole todo ks = .ok (ks.foldl (fun m p => m ||| oneLane p.1) 0#96) := by
  rw [reach_asks h hf, haw, hx]
  simp only [ne_eq, not_true_eq_false, decide_false, Bool.false_and, Bool.false_eq_true, if_false, BitVec.not_zero, BitVec.and_allOnes]

end

/-! ### Ring words (R82, R83) -/

theorem ringWord_skips {i : Instr} {op : MemOp} {sp : BitVec 3} {pol : BitVec 2} {k : Triple} {data : State → Group → Slot → Lane → BitVec 64}
    (he : ∀ s, exec i s = ringWord i s op sp pol k data) : Skips i :=
  completes_of_gate he fun s s' gid s1 g sh _ _ hm => by
    have hl : execLanes g (g.slot s1) sh.head = 0#96 := hm
    simp only [hl, if_true]
    rfl

/-- The request of a ring word: all its lanes at the descriptor's address. -/
def ringReq (i : Instr) (s : State) (g : Group) (sl : Slot) (sh : Shape) (op : MemOp) (sp : BitVec 3) (pol : BitVec 2) (k : Triple)
    (data : State → Group → Slot → Lane → BitVec 64) (m : Mask) : MemReq :=
  { mkReq i s g sl sh op (Space.ofCode sp) pol false m (fun _ => readTriple g sl k) (data s g sl) (fun _ => 0#64) (fun _ => 0#2048) with
      agents := m }

/-- Writing a group as it is, before its counter rises, changes nothing. -/
theorem startReq_setGroup {s : State} {gid : Nat} {g : Group} (hg : s.group? gid = some g) (r : MemReq) :
    startReq (s.setGroup gid g) gid r = startReq s gid r := by
  unfold startReq State.ctrUp State.modGroup
  rw [show (s.setGroup gid g).nextId.2.group? gid = some g from group_setGroup s gid g,
    show s.nextId.2.group? gid = some g from hg]
  exact setGroup_setGroup s.nextId.2 gid g _

section
variable {i : Instr} {op : MemOp} {sp : BitVec 3} {pol : BitVec 2} {k : Triple} {data : State → Group → Slot → Lane → BitVec 64}
  {s s' : State} {gid : Nat} {s1 : Bool} {g : Group} {sh : Shape}

/-- A ring word's checks of its descriptor's place come before anything; then it starts. -/
theorem ringWord_checks (he : ∀ s, exec i s = ringWord i s op sp pol k data) (hp : Passes i s gid s1 g sh s') (hm : g.lanesAt s1 sh ≠ 0#96) :
    let r := ringReq i s' g (g.slot s1) sh op sp pol k data (g.lanesAt s1 sh)
    exec i s = match memTrap s' g { r with once := (lowest? r.issued).map Fin.val } 32 8 (some true) r.issued with
      | some (c, t) => .next (trapWord s' gid s1 i sh c 0#8 t true)
      | none =>
        if op = .ringPush then
          withRegion s' gid s1 g sh r (fun l => .push r.space (readTriple g (g.slot s1) k) r.w r.data[l]) fun s r => ringStart s gid s1 sh r
        else .next (ringStart (startReq s' gid r) gid s1 sh r) := by
  intro r
  obtain ⟨l, hl⟩ := lowest_some hm
  have hl' : (lowest? r.issued).map Fin.val = some ((lowest? (g.lanesAt s1 sh)).getD 0).val := by
    show (lowest? (g.lanesAt s1 sh)).map Fin.val = _
    rw [hl]
    rfl
  rw [hl', he, ringWord, gate_of_passes _ hp]
  exact if_neg hm

theorem ringWord_traps (he : ∀ s, exec i s = ringWord i s op sp pol k data) (hp : Passes i s gid s1 g sh s') (hm : g.lanesAt s1 sh ≠ 0#96)
    {c : BitVec 8} {t : Mask} :
    let r := ringReq i s' g (g.slot s1) sh op sp pol k data (g.lanesAt s1 sh)
    memTrap s' g { r with once := (lowest? r.issued).map Fin.val } 32 8 (some true) r.issued = some (c, t) →
      exec i s = .next (trapWord s' gid s1 i sh c 0#8 t true) := by
  intro r ht
  rw [ringWord_checks he hp hm, ht]

theorem ringWord_starts (he : ∀ s, exec i s = ringWord i s op sp pol k data) (hp : Passes i s gid s1 g sh s') (hm : g.lanesAt s1 sh ≠ 0#96)
    (hreg : op = .ringPush → g.region = none) :
    let r := ringReq i s' g (g.slot s1) sh op sp pol k data (g.lanesAt s1 sh)
    memTrap s' g { r with once := (lowest? r.issued).map Fin.val } 32 8 (some true) r.issued = none →
      exec i s = .next (ringStart (startReq (s'.setGroup gid g) gid r) gid s1 sh r) := by
  intro r ht
  rw [ringWord_checks he hp hm, ht]
  by_cases hop : op = .ringPush
  · simp only [if_pos hop]
    exact withRegion_free (hreg hop) hm rfl fun _ => rfl
  · simp only [if_neg hop, startReq_setGroup (passes_group hp)]
    rfl

end

/-! ### The start of a ring word, and its turn (R83) -/

section
variable {s s' : State} {gid : Nat} {s1 : Bool} {g : Group} {r : MemReq} {ks : List Nat}

theorem ringStart_reach_error {sh : Shape} {x : State} (hg : s.group? gid = some g) (hk : ringKeys s g r = (s', .ok ks))
    (hr : reach s' gid s1 g r .pending true r.issued [(0, ks)] = .error x) : ringStart s gid s1 sh r = x := by
  unfold ringStart
  simp only [hg, hk, hr]

/-- A ring word that reaches its descriptor: the checks of the descriptor and of the slot array, and then the reservation. -/
theorem ringStart_reach_ok {sh : Shape} {m : Mask} (hg : s.group? gid = some g) (hk : ringKeys s g r = (s', .ok ks))
    (hr : reach s' gid s1 g r .pending true r.issued [(0, ks)] = .ok m) :
    let q := readRing s' ks
    let push := decide (r.op = .ringPush)
    let res := if push then q.pushRes else q.popRes
    ringStart s gid s1 sh r =
      if q.bad (elemSize r.w) then trapStarted s' gid s1 sh r 0x0C#8 r.issued
      else if !inSpace s' (s'.teamOf g) g.die g.grid r.space q.base (q.count * q.size) then trapStarted s' gid s1 sh r 0x07#8 r.issued
      else if lockHit s' g.die g.core g.tenant push r.space q.base (q.count * q.size) then trapStarted s' gid s1 sh r 0x09#8 r.issued
      else (bumpRing s' r gid g ks (if push then 16 else 24) res).modSlot gid s1 fun sl =>
        { sl with wait := ringWait r res, unfinished := 0#96, age := 0, req := some { r with ring := some res, acked := false } } := by
  unfold ringStart
  simp only [hg, hk, hr]
  rfl

/-- The descriptors that R83 refuses. -/
theorem ringBad_iff (q : Ring) (n : Nat) : q.bad n = true ↔ q.log > 20 ∨ q.size = 0 ∨ q.size < 96 * n ∨ q.zero ≠ 0#8 := by
  simp only [Ring.bad, decide_eq_true_eq, gt_iff_lt]

section
variable {sh : Shape} {m : Mask} (hg : s.group? gid = some g) (hk : ringKeys s g r = (s', .ok ks))
  (hr : reach s' gid s1 g r .pending true r.issued [(0, ks)] = .ok m)
include hg hk hr

theorem ringStart_badDescriptor (hb : (readRing s' ks).bad (elemSize r.w) = true) :
    ringStart s gid s1 sh r = trapStarted s' gid s1 sh r 0x0C#8 r.issued :=
  (ringStart_reach_ok hg hk hr).trans (if_pos hb)

theorem ringStart_outOfSpace (hb : ¬ (readRing s' ks).bad (elemSize r.w) = true)
    (hs : inSpace s' (s'.teamOf g) g.die g.grid r.space (readRing s' ks).base ((readRing s' ks).count * (readRing s' ks).size) = false) :
    ringStart s gid s1 sh r = trapStarted s' gid s1 sh r 0x07#8 r.issued :=
  (ringStart_reach_ok hg hk hr).trans ((if_neg hb).trans (if_pos (by rw [hs]; rfl)))

/-- A ring word whose descriptor and slot array pass takes the next number of its end of the ring, and waits for its turn. -/
theorem ringStart_reserves (hb : ¬ (readRing s' ks).bad (elemSize r.w) = true)
    (hs : inSpace s' (s'.teamOf g) g.die g.grid r.space (readRing s' ks).base ((readRing s' ks).count * (readRing s' ks).size) = true)
    (hl : lockHit s' g.die g.core g.tenant (decide (r.op = .ringPush)) r.space (readRing s' ks).base
      ((readRing s' ks).count * (readRing s' ks).size) = false) :
    let res := if r.op = .ringPush then (readRing s' ks).pushRes else (readRing s' ks).popRes
    ringStart s gid s1 sh r =
      (bumpRing s' r gid g ks (if r.op = .ringPush then 16 else 24) res).modSlot gid s1 fun sl =>
        { sl with wait := ringWait r res, unfinished := 0#96, age := 0, req := some { r with ring := some res, acked := false } } := by
  intro res
  refine (ringStart_reach_ok hg hk hr).trans ((if_neg hb).trans ((if_neg (by rw [hs]; exact Bool.false_ne_true)).trans
    ((if_neg (by rw [hl]; exact Bool.false_ne_true)).trans ?_)))
  simp only [decide_eq_true_eq]
  rfl

end

/-- The turn of a ring word that waits and whose descriptor translates: its slot accesses where the ring has room or data, then its publish
step, once its own turn has come. -/
theorem ringWaitResume_turn {n : Word32} (hg : s.group? gid = some g) (hf : g.frozen = false) (hr : (g.slot s1).req = some r)
    (hw : (g.slot s1).wait = .ringPush n ∨ (g.slot s1).wait = .ringPop n) (hk : ringKeys s g r = (s', .ok ks)) :
    let q := readRing s' ks
    let push := decide (r.op = .ringPush)
    let todo := if (g.slot s1).unfinished = 0#96 then r.issued else (g.slot s1).unfinished
    exec (.ringWaitResume gid s1) s =
      if !r.touched then
        if (if push then decide ((n - q.head).toNat < q.count) else decide (0 < (q.tail - n).toInt)) then
          .next (ringTouch s' gid s1 g r q n todo)
        else .next s
      else if (if push then decide (q.tail = n) && released s' gid g.die r.agents (naturalScope r.space) r.id else decide (q.head = n)) then
        match reach s' gid s1 g r (ringWait r n) true r.issued [(0, ks)] with
        | .error s => .next (s.modSlot gid s1 fun sl => { sl with unfinished := 0#96 })
        | .ok _ =>
          let s := bumpRing s' r gid g ks (if push then 20 else 28) n
          let s := if push then s else naturalAcquire s g r.space
          .next (settleFences (finishWait s gid s1 r))
      else .next s := by
  rw [exec_ringWaitResume]
  unfold execRingWaitResume
  rcases hw with hw | hw <;> simp only [hg, hw, hr, hf, hk, Bool.false_eq_true, if_false] <;> rfl

section
variable {n : Word32} (hg : s.group? gid = some g) (hf : g.frozen = false) (hr : (g.slot s1).req = some r) (hk : ringKeys s g r = (s', .ok ks))
include hg hf hr hk

/-- A push that waits for room: it moves its elements once the ring has room for them. -/
theorem ringPush_turn (hw : (g.slot s1).wait = .ringPush n) (hop : r.op = .ringPush) (ht : r.touched = false) :
    exec (.ringWaitResume gid s1) s =
      if (n - (readRing s' ks).head).toNat < (readRing s' ks).count then
        .next (ringTouch s' gid s1 g r (readRing s' ks) n (if (g.slot s1).unfinished = 0#96 then r.issued else (g.slot s1).unfinished))
      else .next s := by
  rw [ringWaitResume_turn hg hf hr (.inl hw) hk]
  simp only [hop, ht, Bool.not_false, decide_true, if_true, decide_eq_true_eq]

/-- A pop that waits for data: it moves its elements once the ring has some. -/
theorem ringPop_turn (hw : (g.slot s1).wait = .ringPop n) (hop : r.op = .ringPop) (ht : r.touched = false) :
    exec (.ringWaitResume gid s1) s =
      if 0 < ((readRing s' ks).tail - n).toInt then
        .next (ringTouch s' gid s1 g r (readRing s' ks) n (if (g.slot s1).unfinished = 0#96 then r.issued else (g.slot s1).unfinished))
      else .next s := by
  rw [ringWaitResume_turn hg hf hr (.inr hw) hk]
  simp only [hop, ht, reduceCtorEq, Bool.not_false, decide_false, Bool.false_eq_true, if_false, if_true, decide_eq_true_eq]

/-- A push that has moved its elements publishes its number in the order of the reservations, once its earlier accesses have performed. -/
theorem ringPush_publishes (hw : (g.slot s1).wait = .ringPush n) (hop : r.op = .ringPush) (ht : r.touched = true)
    (hq : (readRing s' ks).tail = n) (hrel : released s' gid g.die r.agents (naturalScope r.space) r.id = true) {m : Mask}
    (hm : reach s' gid s1 g r (ringWait r n) true r.issued [(0, ks)] = .ok m) :
    exec (.ringWaitResume gid s1) s = .next (settleFences (finishWait (bumpRing s' r gid g ks 20 n) gid s1 r)) := by
  rw [ringWaitResume_turn hg hf hr (.inl hw) hk]
  simp only [hop, ht, Bool.not_true, Bool.false_eq_true, if_false, hq, hrel, decide_true, Bool.and_self, if_true, hm]

/-- A pop that has moved its elements publishes its number in the order of the reservations, with acquire order. -/
theorem ringPop_publishes (hw : (g.slot s1).wait = .ringPop n) (hop : r.op = .ringPop) (ht : r.touched = true)
    (hq : (readRing s' ks).head = n) {m : Mask} (hm : reach s' gid s1 g r (ringWait r n) true r.issued [(0, ks)] = .ok m) :
    exec (.ringWaitResume gid s1) s =
      .next (settleFences (finishWait (naturalAcquire (bumpRing s' r gid g ks 28 n) g r.space) gid s1 r)) := by
  rw [ringWaitResume_turn hg hf hr (.inr hw) hk]
  simp only [hop, ht, reduceCtorEq, Bool.not_true, Bool.false_eq_true, if_false, hq, decide_true, decide_false, if_true, hm]

end

end

/-! ### Futures (R84) -/

theorem futFill_skips (h : Head) (a b : Src) (sp : BitVec 3) (pol : BitVec 2) : Skips (.futFill h a b sp pol) :=
  completes_of_gate (exec_futFill h a b sp pol) fun s s' gid s1 g sh hsh _ hm => by
    cases hsh
    exact if_pos hm

theorem futWait_skips (h : Head) (d : Dst) (a : Src) (sp : BitVec 3) (pol : BitVec 2) : Skips (.futWait h d a sp pol) :=
  completes_of_gate (exec_futWait h d a sp pol) fun s s' gid s1 g sh hsh _ hm => by
    cases hsh
    exact if_pos hm

/-- The request of a word on futures. -/
def futReq (i : Instr) (s : State) (g : Group) (sl : Slot) (sh : Shape) (op : MemOp) (sp : BitVec 3) (pol : BitVec 2) (a : Src)
    (data : Lane → BitVec 64) (m : Mask) : MemReq :=
  mkReq i s g sl sh op (Space.ofCode sp) pol false m (fun l => readAddr s g sl l a) data (fun _ => 0#64) (fun _ => 0#2048)

theorem futReq_agents {i : Instr} {s : State} {g : Group} {sl : Slot} {sh : Shape} {op : MemOp} {sp : BitVec 3} {pol : BitVec 2} {a : Src}
    {data : Lane → BitVec 64} {m : Mask} (h : sh.head.uni = false) :
    (futReq i s g sl sh op sp pol a data m).agents = m ∧ (futReq i s g sl sh op sp pol a data m).once = none := by
  unfold futReq mkReq
  simp only [h, Bool.or_self, Bool.false_eq_true, if_false, and_self]

section
variable {h : Head} {d : Dst} {a b : Src} {sp : BitVec 3} {pol : BitVec 2} {s s' : State} {gid : Nat} {s1 : Bool} {g : Group} {sh : Shape}

theorem futFill_starts (hp : Passes (.futFill h a b sp pol) s gid s1 g sh s') (hm : g.lanesAt s1 sh ≠ 0#96) (hreg : g.region = none) :
    let r := futReq (.futFill h a b sp pol) s' g (g.slot s1) sh .futFill sp pol a (fun l => readSrc s' g (g.slot s1) l b 64) (g.lanesAt s1 sh)
    (∀ c t, memTrap s' g r 8 8 (some true) r.issued = some (c, t) →
      exec (.futFill h a b sp pol) s = .next (trapWord s' gid s1 (.futFill h a b sp pol) sh c 0#8 t true)) ∧
    (memTrap s' g r 8 8 (some true) r.issued = none →
      exec (.futFill h a b sp pol) s = .next (futFillIssue (startReq (s'.setGroup gid g) gid r) gid s1 sh r)) := by
  intro r
  have e : exec (.futFill h a b sp pol) s = match memTrap s' g r 8 8 (some true) r.issued with
      | some (c, t) => .next (trapWord s' gid s1 (.futFill h a b sp pol) sh c 0#8 t true)
      | none => withRegion s' gid s1 g sh r (fun l => .futFill r.space r.ea[l] r.data[l]) fun s r => futFillIssue s gid s1 sh r := by
    rw [exec_futFill, execFutFill, gate_of_passes _ hp]
    cases hp.2.1
    exact if_neg hm
  constructor
  · intro c t ht
    rw [e, ht]
  · intro ht
    rw [e, ht]
    refine withRegion_free hreg hm rfl fun ho => ?_
    cases hu : sh.head.uni with
    | false => exact (futReq_agents hu).1
    | true => simp [r, futReq, mkReq, hu] at ho

theorem futWait_starts (hp : Passes (.futWait h d a sp pol) s gid s1 g sh s') (hm : g.lanesAt s1 sh ≠ 0#96) :
    let r := futReq (.futWait h d a sp pol) s' g (g.slot s1) sh .futWait sp pol a (fun _ => 0#64) (g.lanesAt s1 sh)
    (∀ c t, memTrap s' g r 8 8 (some false) r.issued = some (c, t) →
      exec (.futWait h d a sp pol) s = .next (trapWord s' gid s1 (.futWait h d a sp pol) sh c 0#8 t true)) ∧
    (memTrap s' g r 8 8 (some false) r.issued = none → ∀ v ks, futCheck (startReq s' gid r) gid s1 g r = (v, some ks) →
      exec (.futWait h d a sp pol) s = .next (v.modSlot gid s1 fun x => { x with wait := .futWait, req := some r })) := by
  intro r
  have e : exec (.futWait h d a sp pol) s = match memTrap s' g r 8 8 (some false) r.issued with
      | some (c, t) => .next (trapWord s' gid s1 (.futWait h d a sp pol) sh c 0#8 t true)
      | none =>
        match futCheck (startReq s' gid r) gid s1 g r with
        | (s, none) => .next s
        | (s, some _) => .next (s.modSlot gid s1 fun sl => { sl with wait := .futWait, req := some r }) := by
    rw [exec_futWait, execFutWait, gate_of_passes _ hp]
    cases hp.2.1
    exact if_neg hm
  constructor
  · intro c t ht
    rw [e, ht]
  · intro ht v ks hk
    rw [e, ht]
    simp only [hk]

end

/-- Where no two lanes name the same bytes, a fill is refused in the lanes whose future is full. -/
theorem getLsbD_refills {s : State} {ks : List (Nat × List Nat)} {seen : List (List Nat)} (hs : ∀ p ∈ ks, p.2 ∉ seen)
    (hd : ks.Pairwise fun p q => p.2 ≠ q.2) (l : Lane) :
    (refills s seen ks).getLsbD l.val = true ↔ ∃ p ∈ ks, p.1 = l.val ∧ futFull (p.2.map (homeByte s)) = true := by
  induction ks generalizing seen with
  | nil => simp [refills]
  | cons p ks ih =>
    obtain ⟨n, k⟩ := p
    obtain ⟨hne, hd⟩ := List.pairwise_cons.1 hd
    have hk : seen.contains k = false := by simpa using hs (n, k) List.mem_cons_self
    have hseen : ∀ p ∈ ks, p.2 ∉ k :: seen := fun p hp hc => by
      rcases List.mem_cons.1 hc with h | h
      · exact hne p hp h.symm
      · exact hs p (List.mem_cons_of_mem _ hp) h
    rw [refills, BitVec.getLsbD_or, Bool.or_eq_true, ih hseen hd, List.exists_mem_cons_iff, hk, Bool.or_false]
    by_cases hfull : futFull (k.map (homeByte s)) = true
    · simp only [hfull, if_true, getLsbD_oneLane, decide_eq_true_eq, and_true, eq_comm (a := n)]
    · simp [hfull]

section
variable {s s' : State} {gid : Nat} {s1 : Bool} {g : Group} {r : MemReq}

theorem futFillIssue_reach_error {sh : Shape} {x : Xlated} {y : State} (hg : s.group? gid = some g)
    (hx : xlateLanes s g r.space .atomic r.ea 8 (lanesOf r.issued) = (s', x))
    (hr : reach s' gid s1 g r .pending true r.issued x.keys = .error y) : futFillIssue s gid s1 sh r = y := by
  unfold futFillIssue
  simp only [hg, hx, hr]

/-- Fills that reach their futures: a trap where one is full, the slot parked where a lane does not translate, and else all of them. -/
theorem futFillIssue_reach_ok {sh : Shape} {x : Xlated} {m : Mask} (hg : s.group? gid = some g)
    (hx : xlateLanes s g r.space .atomic r.ea 8 (lanesOf r.issued) = (s', x))
    (hr : reach s' gid s1 g r .pending true r.issued x.keys = .ok m) :
    futFillIssue s gid s1 sh r =
      if refills s' [] x.keys ≠ 0#96 then trapStarted s' gid s1 sh r 0x0D#8 (refills s' [] x.keys)
      else match x.first with
        | some (va, c) => (parkSlot s' gid s1 va c 2#8 x.faulted).modSlot gid s1 fun sl => { sl with req := some { r with acked := false } }
        | none => finishWait (x.keys.foldl (fun y p =>
            storeBy (l1Drops y g.die g.core p.2) (r.writer gid g (oneLane p.1)) p.2
              (toBytes (r.data[(Fin.ofNat 96 p.1 : Lane)] ||| (1#64 <<< 63)) 8)) s') gid s1 r := by
  unfold futFillIssue
  simp only [hg, hx, hr]
  rfl

section
variable {sh : Shape} {x : Xlated} {m : Mask} (hg : s.group? gid = some g)
  (hx : xlateLanes s g r.space .atomic r.ea 8 (lanesOf r.issued) = (s', x)) (hr : reach s' gid s1 g r .pending true r.issued x.keys = .ok m)
include hg hx hr

/-- A fill that finds a future full traps, and fills none. -/
theorem futFillIssue_traps (hd : x.keys.Pairwise fun p q => p.2 ≠ q.2) (hl : ∀ p ∈ x.keys, p.1 < 96)
    (hfull : ∃ p ∈ x.keys, futFull (p.2.map (homeByte s')) = true) :
    ∃ t, futFillIssue s gid s1 sh r = trapStarted s' gid s1 sh r 0x0D#8 t ∧
      ∀ l : Lane, t.getLsbD l.val = true ↔ ∃ p ∈ x.keys, p.1 = l.val ∧ futFull (p.2.map (homeByte s')) = true := by
  have bits := @getLsbD_refills s' x.keys [] (fun _ _ => List.not_mem_nil) hd
  obtain ⟨p, hp, hf⟩ := hfull
  have ht : refills s' [] x.keys ≠ 0#96 := mask_ne_zero.2 ⟨⟨p.1, hl p hp⟩, (bits _).2 ⟨p, hp, rfl, hf⟩⟩
  exact ⟨_, (futFillIssue_reach_ok hg hx hr).trans (if_pos ht), bits⟩

/-- Where every future is empty, the slot is parked if a lane does not translate, and every lane fills its own otherwise. -/
theorem futFillIssue_empty (hd : x.keys.Pairwise fun p q => p.2 ≠ q.2) (hnone : ∀ p ∈ x.keys, ¬ futFull (p.2.map (homeByte s')) = true) :
    futFillIssue s gid s1 sh r = match x.first with
      | some (va, c) => (parkSlot s' gid s1 va c 2#8 x.faulted).modSlot gid s1 fun sl => { sl with req := some { r with acked := false } }
      | none => finishWait (x.keys.foldl (fun y p =>
          storeBy (l1Drops y g.die g.core p.2) (r.writer gid g (oneLane p.1)) p.2
            (toBytes (r.data[(Fin.ofNat 96 p.1 : Lane)] ||| (1#64 <<< 63)) 8)) s') gid s1 r := by
  refine (futFillIssue_reach_ok hg hx hr).trans (if_neg fun ht => ?_)
  obtain ⟨l, hl⟩ := mask_ne_zero.1 ht
  obtain ⟨p, hp, -, hf⟩ := (getLsbD_refills (fun _ _ => List.not_mem_nil) hd l).1 hl
  exact hnone p hp hf

end

/-- The lanes of a word have earlier accesses to these bytes on their way. -/
theorem earlierThere_iff (ks : List (Nat × List Nat)) :
    let there := fun (x parent : Nat) (m : Mask) (keys : List Nat) =>
      x = gid ∧ m &&& r.issued ≠ 0#96 ∧ parent ≠ r.id ∧ ∃ p ∈ ks, ∃ k ∈ keys, k ∈ p.2
    earlierThere s gid r ks = true ↔ (∃ x ∈ s.stores, there x.gid x.parent x.agents x.keys) ∨
      (∃ x ∈ s.accs, there x.gid x.parent x.agents x.keys) ∨ ∃ x ∈ s.flits, there x.gid x.parent x.agents x.keys := by
  simp [earlierThere, shareKey, or_assoc, and_assoc]

/-- A wait whose futures translate ends where all are full, none of its lanes has an earlier access there, and it reaches them. -/
theorem futWaitWake_turn {ks : List (Nat × List Nat)} (hg : s.group? gid = some g) (hf : g.frozen = false) (hw : (g.slot s1).wait = .futWait)
    (hr : (g.slot s1).req = some r) (hk : futCheck s gid s1 g r = (s', some ks)) :
    let word := fun p : Nat × List Nat => p.2.map (agentByte s' gid (oneLane p.1) g.die)
    exec (.futWaitWake gid s1) s =
      if (ks.all fun p => futFull (word p)) && !earlierThere s' gid r ks then
        match reach s' gid s1 g r .futWait true r.issued ks with
        | .error s => .next s
        | .ok _ => .next (settleFences (finishWait (naturalAcquire (ks.foldl (fun s p =>
            (noteRead s g.die g.core gid (oneLane p.1) r.op.classes p.2).modGroup gid fun g =>
              g.receive s1 r p.1 ((ofBytes (word p) 64 : BitVec 64) &&& ~~~(1#64 <<< 63))) s') g r.space) gid s1 r))
      else .next s := by
  rw [exec_futWaitWake]
  unfold execFutWaitWake
  simp only [hg, hw, hr, hf, hk, Bool.false_eq_true, if_false] <;> rfl

/-- The condition on which a wait ends. -/
theorem futReady_iff {word : Nat × List Nat → List Byte} (ks : List (Nat × List Nat)) :
    ((ks.all fun p => futFull (word p)) && !earlierThere s' gid r ks) = true ↔
      (∀ p ∈ ks, futFull (word p) = true) ∧ ¬ earlierThere s' gid r ks = true := by
  rw [Bool.and_eq_true, List.all_eq_true, Bool.not_eq_true', ← Bool.not_eq_true]

theorem pendingRetry_resumes (hg : s.group? gid = some g) (hf : g.frozen = false) (hw : (g.slot s1).wait = .pending)
    (hr : (g.slot s1).req = some r) : exec (.pendingRetry gid s1) s = .next (resumeReq s gid s1 r (g.slot s1).unfinished) := by
  rw [exec_pendingRetry]
  unfold execPendingRetry
  simp only [hg, hw, hr, hf, Bool.false_eq_true, if_false]

end

/-- Settles O45: each word by what its start, its turn and its retry come to. -/
theorem ringAndFutureWords : Obligations.RingAndFutureWords := by
  unfold Obligations.RingAndFutureWords
  intro h d k a b sp pol put
  refine ⟨?reach, ?ring, ?start, ?turn, futFill_skips h a b sp pol, futWait_skips h d a sp pol, ?future, ?fill, ?wake, ?retry⟩
  case reach =>
    intro s gid s1 g r wait whole todo ks all away x
    refine ⟨reach_acked, reach_sent, fun ha hf => ⟨reach_rejected ha hf, fun _ hw haw hne => ?_, reach_leaves ha hf, reach_performs ha hf⟩⟩
    rw [hw]
    exact reach_part ha hf haw hne
  case ring =>
    intro push i
    cases push with
    | true =>
      have he := exec_ringPush h k b sp pol
      refine ⟨ringWord_skips he, fun s gid s1 g sh s' hp hm hreg => ?_⟩
      cases hp.2.1
      refine ⟨ringReq (.ringPush h k b sp pol) s' g (g.slot s1) _ .ringPush sp pol k (fun s g sl l => (readSrc s g sl l b (wBits h.w)).setWidth 64) _,
        rfl, rfl, rfl, rfl, rfl, rfl, rfl, rfl, rfl, rfl, fun l => ⟨?_, fun _ => ?_⟩, fun c t => ringWord_traps he hp hm,
        ringWord_starts he hp hm fun _ => hreg rfl⟩ <;>
      simp only [ringReq, mkReq, Fin.getElem_fin, Vector.getElem_ofFn]
    | false =>
      have he := exec_ringPop h d k sp pol
      refine ⟨ringWord_skips he, fun s gid s1 g sh s' hp hm _ => ?_⟩
      cases hp.2.1
      refine ⟨ringReq (.ringPop h d k sp pol) s' g (g.slot s1) _ .ringPop sp pol k noData _,
        rfl, rfl, rfl, rfl, rfl, rfl, rfl, rfl, rfl, rfl, fun l => ⟨?_, fun hc => (nomatch hc)⟩, fun c t => ringWord_traps he hp hm,
        ringWord_starts he hp hm fun hc => (nomatch hc)⟩
      simp only [ringReq, mkReq, Fin.getElem_fin, Vector.getElem_ofFn]
  case start =>
    intro s s' gid s1 sh r g ks hg hk _
    refine ⟨fun x => ringStart_reach_error hg hk, ?_⟩
    intro m hr q res size
    have hbad := ringBad_iff q size
    exact ⟨fun hb => ringStart_badDescriptor hg hk hr (hbad.2 hb), fun hb => ⟨ringStart_outOfSpace hg hk hr (mt hbad.1 hb),
      ringStart_reserves hg hk hr (mt hbad.1 hb)⟩⟩
  case turn =>
    intro s s' gid s1 g r n ks hg hf hr hk q todo
    exact ⟨fun hw hop => ⟨fun ht hn => (ringPush_turn hg hf hr hk hw hop ht).trans (if_pos hn),
        fun ht hn => (ringPush_turn hg hf hr hk hw hop ht).trans (if_neg hn),
        fun ht hq hrel m => ringPush_publishes hg hf hr hk hw hop ht hq hrel⟩,
      fun hw hop => ⟨fun ht hn => (ringPop_turn hg hf hr hk hw hop ht).trans (if_pos hn),
        fun ht hn => (ringPop_turn hg hf hr hk hw hop ht).trans (if_neg hn), fun ht hq m => ringPop_publishes hg hf hr hk hw hop ht hq⟩⟩
  case future =>
    intro fill i s gid s1 g sh s' hp hm hreg
    cases fill with
    | true =>
      cases hp.2.1
      obtain ⟨ht, hs⟩ := futFill_starts hp hm (hreg rfl)
      refine ⟨_, rfl, rfl, rfl, rfl, rfl, rfl, fun hu => futReq_agents hu, fun l => ⟨?_, fun _ => ?_⟩, ht,
        fun hn => ⟨fun _ => hs hn, fun hc => (nomatch hc)⟩⟩ <;>
      simp only [futReq, mkReq, Fin.getElem_fin, Vector.getElem_ofFn]
    | false =>
      cases hp.2.1
      obtain ⟨ht, hs⟩ := futWait_starts hp hm
      refine ⟨_, rfl, rfl, rfl, rfl, rfl, rfl, fun hu => futReq_agents hu, fun l => ⟨?_, fun hc => (nomatch hc)⟩, ht,
        fun hn => ⟨fun hc => (nomatch hc), fun _ => hs hn⟩⟩
      simp only [futReq, mkReq, Fin.getElem_fin, Vector.getElem_ofFn]
  case fill =>
    intro s s' gid s1 sh r g x hg hx full
    refine ⟨fun y => futFillIssue_reach_error hg hx, fun m hr => ⟨fun hfull hd hl => ?_, fun hnone hd => ?_⟩⟩
    · exact futFillIssue_traps hg hx hr (hd.imp And.right) hl hfull
    · rw [futFillIssue_empty hg hx hr hd hnone]
      exact ⟨fun hf => by rw [hf], fun va c hf => by rw [hf]⟩
  case wake =>
    intro s s' gid s1 g r ks hg hf hw hr hk word there own
    have hown := earlierThere_iff (s := s') (gid := gid) (r := r) ks
    rw [futWaitWake_turn hg hf hw hr hk]
    refine ⟨fun hfull hno m hm => ?_, fun h => if_neg ?_⟩
    · refine (if_pos ((futReady_iff ks).2 ⟨hfull, mt hown.1 hno⟩)).trans ?_
      simp only [hm]
      rfl
    · rw [futReady_iff]
      rintro ⟨hall, hearly⟩
      rcases h with ⟨p, hp, hempty⟩ | ho
      · exact absurd (hall p hp) (by rw [Bool.not_eq_true]; exact hempty)
      · exact hearly (hown.2 ho)
  case retry =>
    intro s gid s1 g r hg hf hw hr
    exact pendingRetry_resumes hg hf hw hr

end Sys2Proof.Machine
end

section
namespace Sys2Proof.Machine

/-! ### sys.launch (R263 to R265) -/

section
variable {h : Head} {a : Triple} {b : Src} {sp : BitVec 3} {s s' : State} {gid : Nat} {s1 : Bool} {g : Group} {sh : Shape}

/-- The die that sys.launch names: the operand's for the supervisor, the group's own otherwise. -/
def launchDie (g : Group) (sl : Slot) (b : Src) : Nat := if g.sup then (match b with | .ureg k => (g.kreg sl k.toNat).toNat | _ => 0) else g.die

/-- What sys.launch does with the state that a read of its record leaves: the read's fault, or the rest of the word. -/
def launchRest (gid : Nat) (s1 : Bool) (i : Instr) (sh : Shape) (lanes : Mask) (x : State × StepRead) (k : State → List Byte → Out) : Out :=
  match x with
  | (s, .trap c) => .next (trapWord s gid s1 i sh c 0#8 lanes true)
  | (s, .park e) => .next (parkSlot s gid s1 e.2 e.1 0#8 lanes)
  | (s, .ok bs) => k s bs

theorem sysLaunch_skips (hp : Passes (.sysLaunch h a b sp) s gid s1 g sh s') (hm : g.lanesAt s1 sh = 0#96) :
    exec (.sysLaunch h a b sp) s = .next (s'.goesOn gid s1 sh g) := by
  cases hp.2.1
  rw [exec_sysLaunch]
  unfold execSysLaunch
  exact (gate_of_passes _ hp).trans (if_pos hm)

theorem sysLaunch_waits (hp : Passes (.sysLaunch h a b sp) s gid s1 g sh s') (hm : g.lanesAt s1 sh ≠ 0#96)
    (hf : released s' gid g.die (g.slot s1).uniMask 4 s'.seqNo = false ∨
      64 ≤ (s'.die (launchDie g (g.slot s1) b)).queue.length) :
    exec (.sysLaunch h a b sp) s = .next (s'.modSlot gid s1 fun x => { x with wait := .other }) := by
  cases hp.2.1
  rw [exec_sysLaunch]
  unfold execSysLaunch
  refine (gate_of_passes _ hp).trans ((if_neg hm).trans (if_pos ?_))
  rw [Bool.or_eq_true, Bool.not_eq_true', decide_eq_true_eq]
  exact hf

/-- With its lanes' accesses performed and space in the queue, sys.launch reads its record. -/
theorem sysLaunch_reads (hp : Passes (.sysLaunch h a b sp) s gid s1 g sh s') (hm : g.lanesAt s1 sh ≠ 0#96)
    (hf : ¬ (released s' gid g.die (g.slot s1).uniMask 4 s'.seqNo = false ∨ 64 ≤ (s'.die (launchDie g (g.slot s1) b)).queue.length)) :
    let lanes := trapLanes g (g.slot s1) sh
    let addr := readTriple g (g.slot s1) a
    let rest := launchRest gid s1 (.sysLaunch h a b sp) sh lanes
    let trap := fun u => Host.Outcome.next (trapWord u gid s1 (.sysLaunch h a b sp) sh 0x16#8 0#8 lanes true)
    let read := fun s a n => launchRead s gid g (g.slot s1).uniMask (Space.ofCode sp) a n
    exec (.sysLaunch h a b sp) s =
      rest (stepRead s' gid g (g.slot s1).uniMask (Space.ofCode sp) addr 40) fun s r =>
        match parseLaunch r with
        | none => trap s
        | some (rec, nTok, nArg, argAddr) => rest (read s (addr + 40#80) (16 * nTok)) fun s tb =>
          let toks := (List.range nTok).filterMap fun j => parseToken ((tb.drop (16 * j)).take 16)
          if toks.length ≠ nTok ∨ !launchFits rec then trap s
          else rest (read s argAddr (4 * nArg)) fun s ab =>
            .next (enterGrid (s.goesOn gid s1 sh g) (launchDie g (g.slot s1) b) g.tenant { rec with tokens := toks, args := words32 ab }) := by
  cases hp.2.1
  rw [exec_sysLaunch]
  unfold execSysLaunch
  refine (gate_of_passes _ hp).trans ((if_neg hm).trans ((if_neg ?_).trans rfl))
  rw [Bool.or_eq_true, Bool.not_eq_true', decide_eq_true_eq]
  exact hf

end

/-! ### The supervisor's words that act at once (R175, R263, R283, R300, R315, R316) -/

/-- A word behind the gate that does nothing where it has no lane. -/
theorem skips_of_gate {i : Instr} {h : Head} {srcs : List (Src × Nat)} {k : State → State → Nat → Bool → Group → Slot → Shape → Out}
    (hi : wordShape i = some (shapeM h srcs)) (he : ∀ s, exec i s = gate i s (k s))
    (hk : ∀ s s' gid s1 g sl sh, execLanes g sl h = 0#96 → k s s' gid s1 g sl sh = .next (s'.setGroup gid (g.done s1 sh))) : Skips i :=
  completes_of_gate he fun s s' gid s1 g sh hsh _ hm => by
    have hh := head_of_shapeM hi sh hsh
    subst hh
    exact hk _ _ _ _ _ _ _ hm

/-- A word behind the gate that has lanes, and what it then does. -/
theorem completes_of_lanes {i : Instr} {h : Head} {srcs : List (Src × Nat)} {k : State → State → Nat → Bool → Group → Slot → Shape → Out}
    {ok : Cond} {f : After} (hi : wordShape i = some (shapeM h srcs)) (he : ∀ s, exec i s = gate i s (k s))
    (hk : ∀ s s' gid s1 g sh, execLanes g (g.slot s1) h ≠ 0#96 → ok s' gid s1 g sh (execLanes g (g.slot s1) h) →
      k s s' gid s1 g (g.slot s1) sh = .next (f s' gid s1 g sh (execLanes g (g.slot s1) h)))
    (hok : ∀ s gid s1 g sh m, ok s gid s1 g sh m → m ≠ 0#96) : Completes i ok f :=
  completes_of_gate he fun s s' gid s1 g sh hsh _ ho => by
    have hh := head_of_shapeM hi sh hsh
    subst hh
    exact hk _ _ _ _ _ _ (hok _ _ _ _ _ _ ho) ho

section
variable (h : Head) (a : Triple) (b : Src) (k k2 : BitVec 8) (sp sc : BitVec 3)

/-- In no lane a supervisor's word does nothing. -/
theorem supervisor_skips : ∀ i ∈ [Instr.sysLaunch h a b sp, .sysTlbinv h a k sc, .sysCarve h k, .sysHalt h k, .sysReplay h k, .sysEfail h k,
    .sysDebug h k k2, .sysSlice h k k2], Skips i := by
  simp only [List.forall_mem_cons, List.not_mem_nil, false_imp_iff, implies_true, and_true]
  refine ⟨fun s gid s1 g sh s' hp hm => sysLaunch_skips hp hm, skips_of_gate rfl (exec_sysTlbinv h a k sc) ?_,
    skips_of_gate rfl (exec_sysCarve h k) ?_, skips_of_gate rfl (exec_sysHalt h k) ?_, skips_of_gate rfl (exec_sysReplay h k) ?_,
    skips_of_gate rfl (exec_sysEfail h k) ?_, skips_of_gate rfl (exec_sysDebug h k k2) ?_, skips_of_gate rfl (exec_sysSlice h k k2) ?_⟩ <;>
  exact fun _ _ _ _ _ _ _ hm => if_pos hm

theorem sysTlbinv_completes : Completes (.sysTlbinv h a k sc) (fun _ _ _ _ _ m => m ≠ 0#96) (fun s gid s1 g sh _ =>
    let v := g.kreg (g.slot s1) k.toNat
    let log := (v.extractLsb' 0 7).toNat
    let t : TlbInv :=
      { fence := { id := s.seqNo, gid := gid, lanes := (g.slot s1).uniMask, succ := 0#4, scope := sc,
                   waits := fenceWaits s gid (g.slot s1).uniMask 4#4, more := [], counted := false, ctr := h.ctr, ends := none },
        tenant := g.tenant, lo := (readTriple g (g.slot s1) a).toNat / 2 ^ log * 2 ^ log, log := log,
        die := if sc = 3#3 then some (v.extractLsb' 8 5).toNat else none }
    let u := (s.goesOn gid s1 sh g).nextId.2.ctrUp gid h.ctr
    { u with tlbinvs := u.tlbinvs ++ [t] }) :=
  completes_of_lanes rfl (exec_sysTlbinv h a k sc) (fun _ _ _ _ _ _ hm _ => if_neg hm) fun _ _ _ _ _ _ ho => ho

theorem sysReplay_completes : Completes (.sysReplay h k) (fun _ _ _ _ _ m => m ≠ 0#96) fun s gid s1 g sh _ =>
    replayAll (s.goesOn gid s1 sh g) (g.kreg (g.slot s1) k.toNat) :=
  completes_of_lanes rfl (exec_sysReplay h k) (fun _ _ _ _ _ _ hm _ => if_neg hm) fun _ _ _ _ _ _ ho => ho

theorem sysEfail_completes : Completes (.sysEfail h k) (fun _ _ _ _ _ m => m ≠ 0#96) fun s gid s1 g sh _ =>
    efailAll (s.goesOn gid s1 sh g) (g.kreg (g.slot s1) k.toNat) :=
  completes_of_lanes rfl (exec_sysEfail h k) (fun _ _ _ _ _ _ hm _ => if_neg hm) fun _ _ _ _ _ _ ho => ho

theorem sysHalt_completes : Completes (.sysHalt h k) (fun _ _ _ _ _ m => m ≠ 0#96) fun s gid s1 g sh _ =>
    haltGrid (s.goesOn gid s1 sh g) (g.kreg (g.slot s1) k.toNat).toNat :=
  completes_of_lanes rfl (exec_sysHalt h k) (fun _ _ _ _ _ _ hm _ => if_neg hm) fun _ _ _ _ _ _ ho => ho

theorem sysDebug_completes : Completes (.sysDebug h k k2) (fun _ _ _ _ _ m => m ≠ 0#96) fun s gid s1 g sh _ =>
    let t := (g.kreg (g.slot s1) k.toNat).toNat
    (s.goesOn gid s1 sh g).setTenant t { s.tenant t with debug := (g.kreg (g.slot s1) k2.toNat).getLsbD 0 } :=
  completes_of_lanes rfl (exec_sysDebug h k k2) (fun _ _ _ _ _ _ hm _ => if_neg hm) fun _ _ _ _ _ _ ho => ho

theorem sysSlice_completes : Completes (.sysSlice h k k2) (fun _ _ _ _ _ m => m ≠ 0#96) fun s gid s1 g sh _ =>
    let t := (g.kreg (g.slot s1) k.toNat).toNat
    let begins := (g.kreg (g.slot s1) k2.toNat).getLsbD 0
    (s.goesOn gid s1 sh g).setTenant t { s.tenant t with inSlice := begins, drainAt := if begins then none else some (s.now.toNat + 2400000) } :=
  completes_of_lanes rfl (exec_sysSlice h k k2) (fun _ _ _ _ _ _ hm _ => if_neg hm) fun _ _ _ _ _ _ ho => ho

/-- A change of a core's carve waits for one that is under way. -/
theorem sysCarve_waits : Completes (.sysCarve h k)
    (fun s _ s1 g _ m => m ≠ 0#96 ∧
      (s.core (((g.kreg (g.slot s1) k.toNat).extractLsb' 0 11).toNat / 64) (((g.kreg (g.slot s1) k.toNat).extractLsb' 0 11).toNat % 64)).carveTo.isSome = true)
    (fun s gid s1 _ _ _ => s.modSlot gid s1 fun x => { x with wait := .other }) :=
  completes_of_lanes rfl (exec_sysCarve h k) (fun _ _ _ _ _ _ hm ho => (if_neg hm).trans (if_pos ho.2)) fun _ _ _ _ _ _ ho => ho.1

theorem sysCarve_begins : Completes (.sysCarve h k)
    (fun s _ s1 g _ m => m ≠ 0#96 ∧
      (s.core (((g.kreg (g.slot s1) k.toNat).extractLsb' 0 11).toNat / 64) (((g.kreg (g.slot s1) k.toNat).extractLsb' 0 11).toNat % 64)).carveTo = none)
    (fun s gid s1 g sh _ =>
      let n := ((g.kreg (g.slot s1) k.toNat).extractLsb' 0 11).toNat
      let dest := ((g.kreg (g.slot s1) k.toNat).extractLsb' 16 4).toNat
      let u := leaveWays ((s.goesOn gid s1 sh g).ctrUp gid h.ctr) (n / 64) (n % 64) dest
      u.setCore (n / 64) (n % 64) { u.core (n / 64) (n % 64) with carveTo := some dest, carveBy := some (gid, h.ctr) }) :=
  completes_of_lanes rfl (exec_sysCarve h k)
    (fun _ _ _ _ _ _ hm ho => (if_neg hm).trans (if_neg (by rw [ho.2]; exact Bool.false_ne_true))) fun _ _ _ _ _ _ ho => ho.1

end

end Sys2Proof.Machine
end

section
namespace Sys2Proof.Machine

/-! ### A grid enters its die's queue (R265) -/

/-- The grid of a launch that waits for no token: eligible at once. -/
def launchedGrid (s : State) (die tenant : Nat) (r : LaunchRec) : Grid :=
  { num := BitVec.ofNat 5 die ++ (s.die die).counter, die := die, tenant := tenant, record := r, eligible := true, tokenStops := [],
    waitSince := s.now.toNat, ds := none, placed := 0, ended := 0, gids := [], tasks := 0, floor := some 0#128, low := 0, retired := [],
    liveTasks := [], spinel := [], digests := [], late := [], again := none, signalled := 0 }

/-- A launch without tokens, of a grid in free mode, changes the die's queue and counter and the table of grids alone. -/
theorem enterGrid_eq (s : State) (die tenant : Nat) (r : LaunchRec) (hdet : r.det = false) (htok : r.tokens = []) :
    enterGrid s die tenant r =
      let num : Word32 := BitVec.ofNat 5 die ++ (s.die die).counter
      { s.setDie die { s.die die with counter := (s.die die).counter + 1#27, queue := (s.die die).queue ++ [num.toNat] } with
        grids := tset s.grids num.toNat (launchedGrid s die tenant r) } := by
  unfold enterGrid readSpinel pollGrid
  simp only [hdet, htok, Bool.false_eq_true, if_false, tget_tset_self, readTokens, State.modGrid, if_true, tset_tset]
  rfl

theorem die_setDie (s : State) (d : Nat) (x : Die) : (s.setDie d x).die d = x := by
  simp [State.die, State.setDie]

/-! ### The invalidation of translations (R49) -/

/-- A value of a table after a change of each of its rows. -/
theorem tget_map {α : Type} (t : Tab α) (f : Nat × α → Nat × α) (hf : ∀ p, (f p).1 = p.1) (k : Nat) :
    tget (t.map f) k = (tget t k).map fun v => (f (k, v)).2 := by
  induction t with
  | nil => rfl
  | cons p r ih =>
    obtain ⟨n, v⟩ := p
    have h1 : (f (n, v)).1 = n := hf (n, v)
    simp only [List.map_cons, tget, h1]
    by_cases h : n = k
    · subst h
      simp
    · simp only [if_neg h, ih]

/-- A translation that covers an address of the range is dropped. -/
theorem tlbHit_tlbDrop (l : List TlbEntry) (tenant lo log : Nat) (va : Addr) (h : lo ≤ va.toNat ∧ va.toNat < lo + 2 ^ log) :
    tlbHit (tlbDrop l tenant lo log) tenant va = none := by
  unfold tlbHit tlbDrop
  rw [List.find?_eq_none]
  intro e he hhit
  obtain ⟨-, hkeep⟩ := List.mem_filter.1 he
  simp only [Bool.and_eq_true, decide_eq_true_eq, Bool.not_eq_true', Bool.and_eq_false_iff, decide_eq_false_iff_not] at hhit hkeep
  obtain ⟨ht, hb⟩ := hhit
  have hpos : 0 < 2 ^ e.log2 := Nat.two_pow_pos _
  have hdiv := Nat.div_add_mod va.toNat (2 ^ e.log2)
  have hmod := Nat.mod_lt va.toNat hpos
  have hcomm : va.toNat / 2 ^ e.log2 * 2 ^ e.log2 = 2 ^ e.log2 * (va.toNat / 2 ^ e.log2) := Nat.mul_comm _ _
  omega

/-- Other tenants keep their translations. -/
theorem tlbHit_tlbDrop_ne (l : List TlbEntry) (tenant lo log : Nat) (va : Addr) {other : Nat} (h : other ≠ tenant) :
    tlbHit (tlbDrop l tenant lo log) other va = tlbHit l other va := by
  unfold tlbHit tlbDrop
  rw [List.find?_filter]
  congr 1
  funext e
  by_cases he : e.tenant = other
  · simp [he, h]
  · simp [he]

/-- A die is in the scope of an invalidation. -/
def TlbInv.covers (t : TlbInv) (d : Nat) : Bool := match t.die with | some x => decide (x = d) | none => true

theorem covers_of_scope {t : TlbInv} {d : Nat} (h : t.die = none ∨ t.die = some d) : t.covers d = true := by
  unfold TlbInv.covers
  rcases h with h | h <;> rw [h]
  exact decide_eq_true rfl

theorem dropTranslations_eq (s : State) (t : TlbInv) : dropTranslations s t =
    { s with cores := s.cores.map fun c => if t.covers (c.1 / 64 % 25) then (c.1, { c.2 with tlb := tlbDrop c.2.tlb t.tenant t.lo t.log }) else c,
             dies := s.dies.map fun d => if t.covers d.1 then (d.1, { d.2 with tlb := tlbDrop d.2.tlb t.tenant t.lo t.log }) else d } := rfl

/-- The translations of a core of a die in scope. -/
theorem dropTranslations_core (s : State) {t : TlbInv} {d c : Nat} (hc : c < 64) (hd : d < 24) (ht : t.die = none ∨ t.die = some d) :
    ((dropTranslations s t).core d c).tlb = tlbDrop (s.core d c).tlb t.tenant t.lo t.log := by
  have hk : coreKey d c / 64 % 25 = d := by unfold coreKey; omega
  rw [dropTranslations_eq]
  unfold State.core
  rw [tget_map _ _ (fun p => by split_ifs <;> rfl)]
  simp only [hk, covers_of_scope ht, if_true]
  cases tget s.cores (coreKey d c) <;> rfl

/-- The translations of a die in scope. -/
theorem dropTranslations_die (s : State) {t : TlbInv} {d : Nat} (ht : t.die = none ∨ t.die = some d) :
    ((dropTranslations s t).die d).tlb = tlbDrop (s.die d).tlb t.tenant t.lo t.log := by
  rw [dropTranslations_eq]
  unfold State.die
  rw [tget_map _ _ (fun p => by split_ifs <;> rfl)]
  simp only [covers_of_scope ht, if_true]
  cases tget s.dies d <;> rfl

/-- An invalidation ends once the writes that it orders have performed. -/
theorem tlbinvComplete_eq {s : State} {id : Nat} {t : TlbInv} (h : (s.tlbinvs.find? fun x => x.fence.id = id) = some t) :
    exec (.tlbinvComplete id) s =
      if fenceMet s t.fence t.fence.waits then
        .next ((dropTranslations { s with tlbinvs := s.tlbinvs.filter fun x => x.fence.id ≠ id } t).ctrDown t.fence.gid t.fence.ctr)
      else .next s := by
  rw [exec_tlbinvComplete]
  unfold execTlbinvComplete
  simp only [h]

/-! ### The carve of a core (R55, R57) -/

theorem core_setCore (s : State) (d c : Nat) (x : CoreSt) : (s.setCore d c x).core d c = x := by
  simp [State.core, State.setCore]

/-- No line stays in the ways that leave the L1. -/
theorem leaveWays_kept (s : State) (die core dest : Nat) : ∀ e ∈ ((leaveWays s die core dest).core die core).l1, dest ≤ e.way := by
  intro e he
  unfold leaveWays at he
  rw [core_setCore] at he
  have hk := (List.mem_filter.1 he).2
  simpa using hk

/-- A change of the carve ends, unless it shrinks the scratchpad and an allocation is in the banks that it takes. -/
theorem carveChangeComplete_eq {s : State} {n dest : Nat} (h : (s.core (n / 64) (n % 64)).carveTo = some dest) :
    exec (.carveChangeComplete n) s =
      if dest < (s.core (n / 64) (n % 64)).carve && scratchAbove s (n / 64) (n % 64) (dest * 2 ^ 17) then .next s
      else
        let s' := s.setCore (n / 64) (n % 64) { s.core (n / 64) (n % 64) with carve := dest, carveTo := none, carveBy := none }
        .next (match (s.core (n / 64) (n % 64)).carveBy with | some (gid, ctr) => s'.ctrDown gid ctr | none => s') := by
  rw [exec_carveChangeComplete]
  unfold execCarveChangeComplete
  simp only [h] <;> rfl

/-! ### sys.replay and sys.efail (R52, R300) -/

theorem slotReplay_parked (now : Nat) (seq : Word32) (sl : Slot) (d : Nat) (h : sl.wait = .parked d seq) :
    Slot.replay now seq sl =
      if sl.req.isSome = true then { sl with wait := .pending, readyAt := now } else { sl with wait := .ready, unfinished := 0#96, readyAt := now } := by
  unfold Slot.replay
  simp only [h, ne_eq, not_true_eq_false, if_false]

/-- Groups that no record has parked stay as they are. -/
theorem replayGroups_none {s : State} (seq : Word32) (h : ∀ x ∈ s.groups, x.2.parkedAll = none) : replayGroups s seq = s := by
  have hz : (s.groups.filter fun g => stoppedAt seq g.2.parkedAll) = [] :=
    List.filter_eq_nil_iff.2 fun x hx => by rw [h x hx]; exact Bool.false_ne_true
  unfold replayGroups
  rw [hz]
  rfl

theorem replayGroups_one {s : State} {seq : Word32} {gid d : Nat} {g : Group} (hs : s.groups = [(gid, g)]) (hp : g.parkedAll = some (d, seq)) :
    replayGroups s seq = stackTransfers (s.setGroup gid { g with parkedAll := none }) gid g.owed := by
  have hg : s.group? gid = some g := by simp [State.group?, hs, tget]
  have hf : (s.groups.filter fun g => stoppedAt seq g.2.parkedAll) = [(gid, g)] := by
    rw [hs]
    exact List.filter_eq_self.2 fun x hx => by rw [List.mem_singleton.1 hx, hp]; exact decide_eq_true rfl
  unfold replayGroups
  rw [hf]
  simp only [List.foldl_cons, List.foldl_nil, State.modGroup, hg]

/-- A stop that a record of the number made is lifted. -/
def lifted (seq : Word32) (x : Option (Nat × Word32)) : Option (Nat × Word32) :=
  match x with | some r => if r.2 = seq then none else some r | none => none

theorem lifted_eq (seq : Word32) (x : Option (Nat × Word32)) : (if stoppedAt seq x then none else x) = lifted seq x := by
  cases x with
  | none => rfl
  | some r => by_cases h : r.2 = seq <;> simp [stoppedAt, lifted, h]

/-- Where no record has stopped a grid's tokens, a load of tables or a whole group, the replay lifts the stops of slots and operations. -/
theorem replayAll_slots {s : State} (seq : Word32) (ht : ∀ x ∈ s.grids, x.2.tokenStops = []) (hl : ∀ q ∈ s.quads, q.2.loads = [])
    (hp : ∀ x ∈ s.groups, x.2.parkedAll = none) :
    replayAll s seq = { s with
      groups := s.groups.map fun (x : Nat × Group) => (x.1, x.2.mapSlots (Slot.replay s.now.toNat seq)),
      progs := s.progs.map fun (p : Nat × Prog) => (p.1, { p.2 with stopped := lifted seq p.2.stopped }),
      copies := s.copies.map fun (c : CopyOp) => { c with stopped := lifted seq c.stopped },
      ctxs := s.ctxs.map fun (c : Nat × StepCtx) => (c.1, { c.2 with stopped := lifted seq c.2.stopped }),
      saved := s.saved.map (Saved.replay s.now.toNat seq) } := by
  have hg : (s.grids.filter fun g => g.2.tokenStops.any fun x => x.2 = seq) = [] :=
    List.filter_eq_nil_iff.2 fun x hx => by rw [ht x hx]; exact Bool.false_ne_true
  have hq : (s.quads.flatMap fun q => q.2.loads) = [] := List.flatMap_eq_nil_iff.2 hl
  unfold replayAll
  simp only [hg, hq, List.map_nil, List.foldl_nil, lifted_eq]
  refine replayGroups_none seq fun x hx => ?_
  obtain ⟨y, hy, rfl⟩ := List.mem_map.1 hx
  exact hp y hy

end Sys2Proof.Machine
end

section
namespace Sys2Proof.Machine

/-! ### What fences and changes of owner keep (R92, R319) -/

theorem mem_tset {α : Type} {t : Tab α} {k : Nat} {v : α} {p : Nat × α} (h : p ∈ tset t k v) : p = (k, v) ∨ p ∈ t := by
  induction t with
  | nil => exact .inl (List.mem_singleton.1 h)
  | cons q r ih =>
    obtain ⟨n, x⟩ := q
    unfold tset at h
    split_ifs at h
    · exact List.mem_cons.1 h
    · rcases List.mem_cons.1 h with h | h
      · exact .inl h
      · exact .inr (List.mem_cons_of_mem _ h)
    · rcases List.mem_cons.1 h with h | h
      · exact .inr (h ▸ List.mem_cons_self)
      · exact (ih h).imp_right (List.mem_cons_of_mem _)

theorem mem_of_tget {α : Type} {t : Tab α} {k : Nat} {v : α} (h : tget t k = some v) : (k, v) ∈ t := by
  induction t with
  | nil => cases h
  | cons q r ih =>
    obtain ⟨n, x⟩ := q
    unfold tget at h
    split_ifs at h with hn
    · cases h
      exact hn ▸ List.mem_cons_self
    · exact List.mem_cons_of_mem _ (ih h)

theorem modSlotIn_grid (g : Group) (s1 trap : Bool) (f : Slot → Slot) : (g.modSlotIn s1 trap f).grid = g.grid := by
  unfold Group.modSlotIn
  split
  · split_ifs
    · exact modSlot_grid g s1 f
    all_goals rfl
  · exact modSlot_grid g s1 f

/-- The counter of a fence falls, unless it has fallen before. -/
def countFence (s : State) (f : FenceRec) : State :=
  if f.counted then s else
    State.ctrDown { s with fences := s.fences.map fun (x : FenceRec) => if x.id = f.id then { x with counted := true } else x } f.gid f.ctr

/-- A fence is over: its slot goes on, and the L1's shared lines are dropped where its scope asks for it. -/
def endFence (s : State) (f : FenceRec) : State :=
  let s := f.release { s with fences := s.fences.filter fun x => x.id ≠ f.id }
  match s.group? f.gid with
  | some g => if fenceDrops f.scope f.succ then l1Invalidate s g.die g.core else s
  | none => s

theorem settleFence_eq (s : State) (f : FenceRec) : settleFence s f =
    if !fenceMet s f f.waits then s
    else if !fenceMet (countFence s f) f f.more then countFence s f else endFence (countFence s f) f := rfl

/-- A property that no change of a group within its grid, of a core, or of the lists of fences and followers ends. -/
structure Kept (P : State → Prop) : Prop where
  group : ∀ {s : State} (gid : Nat) (f : Group → Group), (∀ g, (f g).grid = g.grid) → P s → P (s.modGroup gid f)
  core : ∀ {s : State} (d c : Nat) (x : CoreSt), P s → P (s.setCore d c x)
  fences : ∀ {s : State} (xs : List FenceRec), P s → P { s with fences := xs }
  followers : ∀ {s : State} (xs : List Follower), P s → P { s with followers := xs }

section
variable {P : State → Prop} (hP : Kept P)
include hP

theorem Kept.ctrDown {s : State} (h : P s) (gid : Nat) (c : BitVec 2) : P (s.ctrDown gid c) :=
  hP.group gid _ (fun g => setCtr_grid g c _) h

theorem Kept.l1Invalidate {s : State} (h : P s) (d c : Nat) : P (l1Invalidate s d c) := hP.core d c _ h

theorem Kept.release {s : State} (h : P s) (f : FenceRec) : P (f.release s) := by
  unfold FenceRec.release
  split
  · exact h
  · exact hP.group _ _ (fun g => modSlotIn_grid g _ _ _) h

theorem Kept.countFence {s : State} (h : P s) (f : FenceRec) : P (countFence s f) := by
  unfold Machine.countFence
  split_ifs
  · exact h
  · exact hP.ctrDown (hP.fences _ h) _ _

theorem Kept.endFence {s : State} (h : P s) (f : FenceRec) : P (endFence s f) := by
  have hr := hP.release (hP.fences (s.fences.filter fun x => x.id ≠ f.id) h) f
  unfold Machine.endFence
  simp only
  split
  · split_ifs
    · exact hP.l1Invalidate hr _ _
    · exact hr
  · exact hr

theorem Kept.settleFence {s : State} (h : P s) (f : FenceRec) : P (settleFence s f) := by
  rw [settleFence_eq]
  split_ifs
  · exact h
  · exact hP.countFence h f
  · exact hP.endFence (hP.countFence h f) f

theorem Kept.settleFollower {s : State} (h : P s) (a : Follower) : P (settleFollower s a) := by
  unfold Machine.settleFollower
  split_ifs
  · exact h
  · simp only
    split
    · exact hP.l1Invalidate (hP.followers _ h) _ _
    · exact hP.followers _ h

theorem Kept.settleFences {s : State} (h : P s) : P (settleFences s) := by
  unfold Machine.settleFences
  refine List.foldlRecOn _ _ ?_ fun s hs a _ => hP.settleFollower hs a
  exact List.foldlRecOn _ _ h fun s hs f _ => hP.settleFence hs f

end

/-! ### What is left of a halted grid (R316) -/

/-- Nothing of the grid `n` is left, and the queue of the die that had it lists it no more. -/
structure Cleared (n die : Nat) (t : State) : Prop where
  grid : tget t.grids n = none
  groups : ∀ p ∈ t.groups, p.2.grid ≠ n
  teams : ∀ p ∈ t.teams, p.2.grid ≠ n
  saved : ∀ x ∈ t.saved, x.grid ≠ n
  progs : ∀ p ∈ t.progs, p.2.grid ≠ n
  copies : ∀ c ∈ t.copies, c.grid ≠ n
  accs : ∀ x ∈ t.accs, x.grid ≠ n
  tasks : ∀ d ∈ t.deques, ∀ x ∈ d.2.tasks, x.grid ≠ n
  queue : n ∉ (t.die die).queue

theorem cleared_modGroup {n die : Nat} {s : State} (h : Cleared n die s) (gid : Nat) {f : Group → Group} (hf : ∀ g, (f g).grid = g.grid) :
    Cleared n die (s.modGroup gid f) := by
  unfold State.modGroup
  split
  · rename_i g hg
    refine ⟨h.grid, fun p hp => ?_, h.teams, h.saved, h.progs, h.copies, h.accs, h.tasks, h.queue⟩
    rcases mem_tset hp with rfl | hp
    · rw [hf]
      exact h.groups _ (mem_of_tget hg)
    · exact h.groups p hp
  · exact h

theorem cleared_kept (n die : Nat) : Kept (Cleared n die) where
  group gid _ hf h := cleared_modGroup h gid hf
  core _ _ _ h := ⟨h.grid, h.groups, h.teams, h.saved, h.progs, h.copies, h.accs, h.tasks, h.queue⟩
  fences _ h := ⟨h.grid, h.groups, h.teams, h.saved, h.progs, h.copies, h.accs, h.tasks, h.queue⟩
  followers _ h := ⟨h.grid, h.groups, h.teams, h.saved, h.progs, h.copies, h.accs, h.tasks, h.queue⟩

theorem cleared_settleCtr {n die : Nat} {s : State} (h : Cleared n die s) (gid : Nat) (c : BitVec 2) : Cleared n die (s.settleCtr gid c) := by
  unfold State.settleCtr
  split
  · exact (cleared_kept n die).ctrDown h gid c
  · refine ⟨h.grid, h.groups, h.teams, fun x hx => ?_, h.progs, h.copies, h.accs, h.tasks, h.queue⟩
    obtain ⟨y, hy, rfl⟩ := List.mem_map.1 hx
    split_ifs
    · exact h.saved y hy
    · exact h.saved y hy

theorem cleared_resetUnit {n die : Nat} {s : State} (h : Cleared n die s) (d core quad : Nat) : Cleared n die (resetUnit s d core quad) := by
  refine List.foldlRecOn _ _ ?_ fun s hs p _ => cleared_settleCtr hs _ _
  exact ⟨h.grid, h.groups, h.teams, h.saved, fun p hp => h.progs p (List.mem_of_mem_filter hp), h.copies, h.accs, h.tasks, h.queue⟩

/-- A change of a die that leaves its queue as it is. -/
theorem cleared_setDie {n die : Nat} {s : State} (h : Cleared n die s) (d : Nat) {x : Die} (hx : x.queue = (s.die d).queue) :
    Cleared n die (s.setDie d x) := by
  refine ⟨h.grid, h.groups, h.teams, h.saved, h.progs, h.copies, h.accs, h.tasks, ?_⟩
  by_cases hd : die = d
  · subst hd
    rw [die_setDie, hx]
    exact h.queue
  · rw [State.die, State.setDie, tget_tset_ne _ _ _ _ hd]
    exact h.queue

theorem cleared_settleQuad {n die : Nat} {s : State} (h : Cleared n die s) (d : Nat) (p : Nat × BitVec 8) : Cleared n die (settleQuad s d p) := by
  unfold settleQuad
  split_ifs
  · exact h
  · refine cleared_resetUnit ?_ _ _ _
    exact cleared_setDie h d rfl

theorem cleared_settleBank {n die : Nat} {s : State} (h : Cleared n die s) (d : Nat) (p : Nat × BitVec 8) : Cleared n die (settleBank s d p) := by
  unfold settleBank
  split_ifs
  · exact h
  · exact cleared_setDie h d rfl

theorem cleared_settleOwners {n die : Nat} {s : State} (h : Cleared n die s) : Cleared n die (settleOwners s) := by
  unfold settleOwners
  refine List.foldlRecOn _ _ h fun s hs d _ => ?_
  refine List.foldlRecOn _ _ ?_ fun s hs p _ => cleared_settleBank hs _ _
  exact List.foldlRecOn _ _ hs fun s hs p _ => cleared_settleQuad hs _ _

theorem tget_tdel_self {α : Type} (t : Tab α) (k : Nat) : tget (tdel t k) k = none := by
  induction t with
  | nil => rfl
  | cons p r ih =>
    obtain ⟨n, v⟩ := p
    unfold tdel at ih ⊢
    rw [List.filter_cons]
    split_ifs with h
    · rw [tget, if_neg (of_decide_eq_true h), ih]
    · exact ih

theorem ne_of_mem_filter_ne {α : Type} {xs : List α} {f : α → Nat} {n : Nat} {x : α} (h : x ∈ xs.filter fun y => decide (f y ≠ n)) : f x ≠ n :=
  of_decide_eq_true (List.mem_filter.1 h).2

/-- sys.halt leaves nothing of the grid that it names. -/
theorem haltGrid_cleared {s : State} {n : Nat} {gr : Grid} (h : tget s.grids n = some gr) : Cleared n gr.die (haltGrid s n) := by
  unfold haltGrid
  simp only [h]
  refine (cleared_kept n gr.die).settleFences (cleared_settleOwners ?_)
  refine ⟨tget_tdel_self _ n, fun p hp => ne_of_mem_filter_ne (f := fun p : Nat × Group => p.2.grid) hp,
    fun p hp => ne_of_mem_filter_ne (f := fun p : Nat × Team => p.2.grid) hp, fun x hx => ne_of_mem_filter_ne (f := Saved.grid) hx,
    fun p hp => ne_of_mem_filter_ne (f := fun p : Nat × Prog => p.2.grid) hp, fun c hc => ne_of_mem_filter_ne (f := CopyOp.grid) hc,
    fun x hx => ?_, fun d hd x hx => ?_, ?_⟩
  · exact of_decide_eq_true (Bool.and_eq_true_iff.1 (List.mem_filter.1 hx).2).2
  · obtain ⟨y, -, rfl⟩ := List.mem_map.1 hd
    exact ne_of_mem_filter_ne (f := Task.grid) hx
  · rw [die_setDie]
    exact fun hx => ne_of_mem_filter_ne (f := id) hx rfl

end Sys2Proof.Machine
end

section
namespace Sys2Proof.Machine

/-! ### What sys.efail ends (R300) -/

theorem saved_modGroup (s : State) (gid : Nat) (f : Group → Group) : (s.modGroup gid f).saved = s.saved := by
  unfold State.modGroup
  split <;> rfl

theorem savedNil_kept : Kept fun s => s.saved = [] where
  group gid f _ h := by rw [saved_modGroup]; exact h
  core _ _ _ h := h
  fences _ h := h
  followers _ h := h

theorem savedNil_settleFences {s : State} (h : s.saved = []) : (settleFences s).saved = [] := savedNil_kept.settleFences h

theorem savedNil_settleCtr {s : State} (h : s.saved = []) (gid : Nat) (c : BitVec 2) : (s.settleCtr gid c).saved = [] := by
  unfold State.settleCtr
  split
  · exact savedNil_kept.ctrDown h gid c
  · simp only [h, List.map_nil]

theorem saved_foldl {α : Type} {f : State → α → State} (hf : ∀ s a, (f s a).saved = s.saved) (xs : List α) (s : State) :
    (xs.foldl f s).saved = s.saved :=
  List.foldlRecOn (motive := fun u : State => u.saved = s.saved) xs f rfl fun u hu a _ => (hf u a).trans hu

theorem savedNil_dropOps {s : State} (h : s.saved = []) (pid : Nat) : (dropOps s pid).saved = [] := by
  have hf : (dropOps s pid).saved = ((s.copies.filter fun c => c.pid = some pid).foldl (fun s c => dropLocks s c.die c.core (.copy c.id)) s).saved := rfl
  exact (hf.trans (saved_foldl (f := fun s (c : CopyOp) => dropLocks s c.die c.core (.copy c.id)) (fun _ _ => rfl) _ s)).trans h

theorem savedNil_progFault {s : State} (h : s.saved = []) (pid : Nat) (detail : BitVec 8) (addr : Addr) : (progFault s pid detail addr).saved = [] := by
  unfold progFault
  split
  · exact h
  · refine savedNil_settleFences (savedNil_settleCtr ?_ _ _)
    exact savedNil_dropOps h pid

theorem savedNil_copyDone {s : State} (h : s.saved = []) (c : CopyOp) : (copyDone s c).saved = [] := by
  have hlocks : (dropLocks { s with copies := s.copies.filter fun x => x.id ≠ c.id } c.die c.core (.copy c.id)).saved = [] := h
  unfold copyDone
  refine savedNil_settleFences ?_
  split_ifs
  · exact (saved_modGroup _ _ _).trans hlocks
  · exact (saved_modGroup _ _ _).trans (savedNil_settleCtr hlocks _ _)
  · exact hlocks
  · exact savedNil_settleCtr hlocks _ _

theorem savedNil_copyFault {s : State} (h : s.saved = []) (c : CopyOp) (detail : BitVec 8) (addr : Addr) : (copyFault s c detail addr).saved = [] := by
  unfold copyFault
  split
  · exact savedNil_progFault h _ _ _
  · refine savedNil_copyDone ?_ c
    exact h

theorem saved_giveCall (s : State) (gid : Nat) (w : Bool × Bool) (put : Group → Group) : (giveCall s gid w put).saved = s.saved := by
  unfold giveCall
  split
  · rfl
  · exact saved_modGroup _ _ _

theorem saved_stopRun (s : State) (c : Nat) (status event : BitVec 8) : (stopRun s c status event).saved = s.saved := by
  unfold stopRun
  split
  · rfl
  · refine (saved_foldl (fun _ _ => saved_giveCall _ _ _ _) _ _).trans ?_
    simp only
    split <;> rfl

/-- With no team saved, sys.efail ends nothing beside the programs, copies and runs of the table. -/
theorem efail_noneSaved {s : State} (h : s.saved = []) (seq : Word32) :
    ({ s with saved := s.saved.map (Saved.efail seq),
              efaults := s.efaults ++ (s.saved.flatMap fun x => x.progs.filter fun p => stoppedAt seq p.2.2.stopped).map fun p =>
                p.2.2.fault dEndedBySupervisor p.2.2.stopVa } : State) = s := by
  cases s
  cases h
  simp only [List.map_nil, List.flatMap_nil, List.append_nil]

/-- No program stopped: the copies that the records of the number stopped fault, and the runs stop. -/
theorem efailAll_eq {s : State} {seq : Word32} (hs : s.saved = []) (hp : ∀ p ∈ s.progs, stoppedAt seq p.2.stopped = false) :
    efailAll s seq =
      ((s.ctxs.filter fun c => stoppedAt seq c.2.stopped).map Prod.fst).foldl (fun s c => stopRun s c 0x09#8 0xFF#8)
        ((s.copies.filter fun c => stoppedAt seq c.stopped).foldl (fun s c => copyFault s c 0x42#8 c.stopVa) s) := by
  have hz : (s.progs.filter fun p => stoppedAt seq p.2.stopped) = [] :=
    List.filter_eq_nil_iff.2 fun p hq => by rw [hp p hq]; exact Bool.false_ne_true
  unfold efailAll
  simp only [hz, List.foldl_nil]
  refine efail_noneSaved ?_ seq
  rw [saved_foldl fun _ _ => saved_stopRun _ _ _ _]
  exact List.foldlRecOn (motive := fun u : State => u.saved = []) _ _ hs fun u hu c _ => savedNil_copyFault hu _ _ _

theorem stoppedAt_iff (seq : Word32) (x : Option (Nat × Word32)) : stoppedAt seq x = true ↔ ∃ d, x = some (d, seq) := by
  cases x with
  | none => simp [stoppedAt]
  | some r =>
    obtain ⟨n, k⟩ := r
    simp [stoppedAt]

theorem stoppedAt_false {seq : Word32} {x : Option (Nat × Word32)} (h : ¬ ∃ d, x = some (d, seq)) : stoppedAt seq x = false :=
  Bool.eq_false_iff.2 (mt (stoppedAt_iff seq x).1 h)

theorem filter_stopped_nil {α : Type} {seq : Word32} {xs : List α} {f : α → Option (Nat × Word32)} (h : ∀ x ∈ xs, ¬ ∃ d, f x = some (d, seq)) :
    (xs.filter fun x => stoppedAt seq (f x)) = [] :=
  List.filter_eq_nil_iff.2 fun x hx => by rw [stoppedAt_false (h x hx)]; exact Bool.false_ne_true

/-- What sys.efail does to the operations that the records of its number stopped, where no team is saved. -/
theorem efailAll_cases {s : State} {seq : Word32} (hs : s.saved = []) :
    let hit := fun (x : Option (Nat × Word32)) => ∃ d, x = some (d, seq)
    (∀ p ∈ s.progs, ¬ hit p.2.stopped) →
    ((∀ c ∈ s.copies, ¬ hit c.stopped) → (∀ x ∈ s.ctxs, ¬ hit x.2.stopped) → efailAll s seq = s) ∧
    (∀ c, s.copies = [c] → hit c.stopped → (∀ x ∈ s.ctxs, ¬ hit x.2.stopped) → efailAll s seq = copyFault s c 0x42#8 c.stopVa) ∧
    ∀ x, (∀ c ∈ s.copies, ¬ hit c.stopped) → s.ctxs = [x] → hit x.2.stopped → efailAll s seq = stopRun s x.1 0x09#8 0xFF#8 := by
  intro hit hp
  have he := efailAll_eq hs fun p hq => stoppedAt_false (hp p hq)
  refine ⟨fun hc hx => ?_, fun c hc hcs hx => ?_, fun x hc hx hxs => ?_⟩
  · rw [he, filter_stopped_nil hc, filter_stopped_nil (f := fun x : Nat × StepCtx => x.2.stopped) hx]
    rfl
  · rw [he, filter_stopped_nil (f := fun x : Nat × StepCtx => x.2.stopped) hx, hc, List.filter_cons, if_pos ((stoppedAt_iff seq _).2 hcs)]
    rfl
  · rw [he, filter_stopped_nil hc, hx, List.filter_cons, if_pos ((stoppedAt_iff seq _).2 hxs)]
    rfl

/-! ### The statement of the supervisor's words -/

/-- The outcomes of sys.launch once it reads its record. -/
theorem sysLaunch_outcomes {h : Head} {a : Triple} {b : Src} {sp : BitVec 3} {s s' : State} {gid : Nat} {s1 : Bool} {g : Group} {sh : Shape}
    (hp : Passes (.sysLaunch h a b sp) s gid s1 g sh s') (hm : g.lanesAt s1 sh ≠ 0#96)
    (hf : ¬ (released s' gid g.die (g.slot s1).uniMask 4 s'.seqNo = false ∨ 64 ≤ (s'.die (launchDie g (g.slot s1) b)).queue.length))
    {u : State} {r : List Byte} (hr : stepRead s' gid g (g.slot s1).uniMask (Space.ofCode sp) (readTriple g (g.slot s1) a) 40 = (u, .ok r)) :
    let i := Instr.sysLaunch h a b sp
    let bad := fun u : State => exec i s = .next (trapWord u gid s1 i sh 0x16#8 0#8 (trapLanes g (g.slot s1) sh) true)
    (parseLaunch r = none → bad u) ∧
      ∀ rec nTok nArg argAddr v tb, parseLaunch r = some (rec, nTok, nArg, argAddr) →
        launchRead u gid g (g.slot s1).uniMask (Space.ofCode sp) (readTriple g (g.slot s1) a + 40#80) (16 * nTok) = (v, .ok tb) →
        let toks := (List.range nTok).filterMap fun j => parseToken ((tb.drop (16 * j)).take 16)
        (toks.length ≠ nTok ∨ launchFits rec = false → bad v) ∧
        (toks.length = nTok → launchFits rec = true →
          ∀ w ab, launchRead v gid g (g.slot s1).uniMask (Space.ofCode sp) argAddr (4 * nArg) = (w, .ok ab) →
          exec i s = .next (enterGrid (w.goesOn gid s1 sh g) (launchDie g (g.slot s1) b) g.tenant { rec with tokens := toks, args := words32 ab })) := by
  intro i bad
  have he := sysLaunch_reads hp hm hf
  simp only [hr, launchRest] at he
  refine ⟨fun hn => ?_, ?_⟩
  · rw [hn] at he
    exact he
  · intro rec nTok nArg argAddr v tb hl hv toks
    rw [hl] at he
    simp only [hv] at he
    refine ⟨fun hbad => he.trans (if_pos ?_), fun htok hfits w ab hw => he.trans ((if_neg ?_).trans ?_)⟩
    · rw [Bool.not_eq_true']
      exact hbad
    · rw [Bool.not_eq_true', not_or]
      exact ⟨not_not_intro htok, by rw [hfits]; exact Bool.noConfusion⟩
    · rw [hw]

/-- Settles O56: each word by its own lemma above. -/
theorem supervisorWords : Obligations.SupervisorWords := by
  unfold Obligations.SupervisorWords
  intro h a b k k2 sp sc K
  refine ⟨supervisor_skips h a b k k2 sp sc, ?launch, ?enter, sysTlbinv_completes h a k sc, ?inval, ?drop, sysCarve_waits h k, sysCarve_begins h k,
    leaveWays_kept, ?carve, ?halt, ?replaySlots, sysReplay_completes h k, slotReplay_parked, ?groups, sysEfail_completes h k, ?efail,
    sysDebug_completes h k k2, sysSlice_completes h k k2⟩
  case launch =>
    intro s gid s1 g sh s' hp hm i die bad full
    refine ⟨sysLaunch_waits hp hm, fun hf u r hr => ?_⟩
    exact sysLaunch_outcomes hp hm hf hr
  case enter =>
    intro s die tenant r hdet htok num t
    have ht : t = _ := enterGrid_eq s die tenant r hdet htok
    have hd : t.die die = { s.die die with counter := (s.die die).counter + 1#27, queue := (s.die die).queue ++ [num.toNat] } := by
      rw [ht]
      exact die_setDie s die _
    rw [hd, ht]
    exact ⟨⟨rfl, rfl⟩, ⟨_, tget_tset_self _ _ _, rfl, rfl, rfl, rfl, rfl, rfl, rfl, rfl⟩, fun n hn => tget_tset_ne _ _ _ _ hn, rfl, rfl⟩
  case inval =>
    intro s id t ht
    rw [tlbinvComplete_eq ht]
    exact ⟨fun hw => if_neg (by rw [hw]; exact Bool.false_ne_true), fun hw => if_pos hw⟩
  case drop =>
    intro s t d c va hc hd ht
    rw [dropTranslations_core s hc hd ht, dropTranslations_die s ht]
    exact ⟨fun hr => ⟨tlbHit_tlbDrop _ _ _ _ _ hr, tlbHit_tlbDrop _ _ _ _ _ hr⟩, fun tenant hn => tlbHit_tlbDrop_ne _ _ _ _ _ hn⟩
  case carve =>
    intro s n dest c hc hto waits
    subst hc
    rw [carveChangeComplete_eq hto]
    have hw : (dest < (s.core (n / 64) (n % 64)).carve && scratchAbove s (n / 64) (n % 64) (dest * 2 ^ 17)) = true ↔ waits := by
      rw [Bool.and_eq_true, decide_eq_true_eq]
    refine ⟨fun h => if_pos (hw.2 h), fun h gid ctr hb => (if_neg (mt hw.1 h)).trans ?_⟩
    simp only [hb]
  case halt =>
    intro s gid s1 g sh s' gr hp hm hgr n
    have hc : Cleared n gr.die (haltGrid (s'.goesOn gid s1 sh g) n) := haltGrid_cleared hgr
    exact ⟨_, sysHalt_completes h k s gid s1 g sh s' hp hm, hc.grid, hc.groups, hc.teams, hc.saved, hc.progs, hc.copies, hc.accs, hc.tasks, hc.queue⟩
  case replaySlots =>
    rintro s gid s1 g sh s' hp ⟨hm, hgrid, hquad, hgroups, hg⟩
    refine (sysReplay_completes h k s gid s1 g sh s' hp hm).trans (congrArg Host.Outcome.next ?_)
    refine replayAll_slots (s := s'.goesOn gid s1 sh g) _ hgrid hquad fun x hx => ?_
    rcases mem_tset hx with rfl | hx
    · exact (modSlot_parkedAll g s1 _).trans hg
    · exact hgroups x hx
  case groups =>
    intro s seq gid d g hs hp
    exact replayGroups_one hs hp
  case efail =>
    intro s seq hs
    exact efailAll_cases hs

end Sys2Proof.Machine
end

section
namespace Sys2Proof.Machine

/-! ### The memory's form and the L2's lines through every step (log entry 1; R60, R61, R320)

What `State.Inv` speaks of is `mem` and `l2` alone, so that a step that writes neither field keeps it as it stands (`exact h`, for the
form of the new state unfolds to that of the old one). Only the home's operations write them, whose lemmas stand in Laws/Memory.lean.
One lemma for each function of the model that answers a state, in the order of the model, carries the form on to `step`. -/

/-- A next state has the memory's form. -/
def OutInv : Out → Prop
  | .next t => t.Inv
  | _ => True

theorem inv_of_outInv {o : Out} {t : State} (h : OutInv o) (e : o = .next t) : t.Inv := by
  subst e
  exact h

section
variable {α β : Type} {s t : State}

/-- The state of a pair, once the pair is taken apart. -/
theorem inv_fst {p : State × α} {x : α} (h : p.1.Inv) (e : p = (t, x)) : t.Inv := by
  subst e
  exact h

theorem inv_snd {p : α × State} {x : α} (h : p.2.Inv) (e : p = (x, t)) : t.Inv := by
  subst e
  exact h

theorem inv_foldl {f : State → α → State} (l : List α) (h : s.Inv) (hf : ∀ t a, t.Inv → (f t a).Inv) : (l.foldl f s).Inv :=
  List.foldlRecOn l f h fun t ht a _ => hf t a ht

theorem inv_ite {p : Prop} [Decidable p] (hs : s.Inv) (ht : t.Inv) : (if p then s else t).Inv := by
  split
  · exact hs
  · exact ht

theorem outInv_ite {p : Prop} [Decidable p] {o q : Out} (ho : OutInv o) (hq : OutInv q) : OutInv (if p then o else q) := by
  split
  · exact ho
  · exact hq

theorem inv_getD {o : Option State} (h : s.Inv) (ho : ∀ t, o = some t → t.Inv) : (o.getD s).Inv := by
  cases o with
  | none => exact h
  | some t => exact ho t rfl

end

/-! #### The hierarchy (Machine/Hier.lean) -/

section
variable {s t : State} {die core tenant d k line id : Nat} {pol : BitVec 2} {sp : Space} {w : Writer} {ks : List Nat} {vs : List Byte}
  {v : Byte} {e : L1Line} {lp : Bool}

theorem leaseBits_inv (h : s.Inv) : (leaseBits s k).2.Inv := by
  unfold leaseBits
  split
  · exact h
  · exact h

theorem leaseFetch_inv (h : s.Inv) : (leaseFetch s d tenant pol k).Inv := by
  have hf : (l2Fill s tenant pol (lineOf k)).Inv := l2Fill_inv _ _ _ h
  unfold leaseFetch
  extract_lets ln u slice x
  have hx : x.Inv := hf
  split
  · exact h
  · split
    · exact h
    · split
      · exact h
      · split
        · exact hx
        · exact l2Evict_inv _ _ (leaseBits_inv hx)

theorem l2Read_inv (h : s.Inv) : (l2Read s d tenant pol k).Inv := by
  unfold l2Read
  split
  · exact l2Fill_inv _ _ _ h
  · exact leaseFetch_inv h

theorem storeHome_inv (h : s.Inv) : (storeHome s id tenant ks vs).Inv := storeBy_inv _ _ _ h

theorem drainPosted_inv (l : List Posted) (h : s.Inv) : (drainPosted s l).Inv := by
  induction l generalizing s with
  | nil => exact h
  | cons p r ih =>
    unfold drainPosted
    simp only []
    split
    · split_ifs
      · exact h
      · exact ih h
    · split_ifs
      · exact storeHome_inv h
      · exact ih (storeHome_inv h)

theorem settleOutside_inv (h : s.Inv) : (settleOutside s).Inv := drainPosted_inv _ h

theorem l1WriteBackLine_inv (h : s.Inv) : (l1WriteBackLine s die core e).Inv := storeBy_inv _ _ _ h

theorem l1WriteBack_inv (h : s.Inv) : (l1WriteBack s die core line).Inv := by
  unfold l1WriteBack
  split
  · exact h
  · exact l1WriteBackLine_inv h

theorem l1Flush_inv {p : L1Line → Bool} (h : s.Inv) : (l1Flush s die core p).Inv :=
  inv_foldl _ h fun _ _ ht => l1WriteBack_inv ht

theorem l1Drops_inv (h : s.Inv) : (l1Drops s die core ks).Inv :=
  inv_foldl _ h fun _ _ ht => l1WriteBack_inv ht

theorem l1Alloc_inv (h : s.Inv) : (l1Alloc s die core tenant line pol lp).Inv := by
  unfold l1Alloc
  simp only []
  split
  · exact h
  · split
    · exact h
    · exact l1WriteBackLine_inv h

theorem fetchFor_inv (h : s.Inv) : (fetchFor s die core tenant sp pol k).Inv := by
  have hr : (l2Read s die tenant pol k).Inv := l2Read_inv h
  unfold fetchFor
  simp only []
  split_ifs
  · exact h
  · split
    · split_ifs
      · exact h
      · exact hr
    · split
      · exact l1Alloc_inv hr
      · exact l1Alloc_inv hr
  · exact hr

theorem fetchAll_inv (h : s.Inv) : (ks.foldl (fun s k => fetchFor s die core tenant sp pol k) s).Inv :=
  inv_foldl _ h fun _ _ ht => fetchFor_inv ht

theorem l1Patch_inv {o : Option Writer} (h : s.Inv) : (l1Patch s die core k v o).Inv := by
  unfold l1Patch
  split
  · exact h
  · split_ifs
    · exact h
    · exact h

theorem l1Patches_inv (h : s.Inv) : (l1Patches s die core ks vs).Inv := inv_foldl _ h fun _ _ ht => l1Patch_inv ht

theorem lpPut_inv (h : s.Inv) : (lpPut s w k v).Inv := by
  unfold lpPut
  simp only []
  split_ifs
  · exact l1Patch_inv (fetchFor_inv h)
  · exact storeBy_inv _ _ _ (fetchFor_inv h)
  · exact storeBy_inv _ _ _ h

theorem lpPuts_inv (h : s.Inv) : (lpPuts s w ks vs).Inv := inv_foldl _ h fun _ _ ht => lpPut_inv ht

end

/-! #### Translation (Machine/Xlate.lean) -/

section
variable {s t : State} {die core tenant pte : Nat} {sup again : Bool} {va : Addr} {k : AccessKind} {e : TlbEntry} {old new : Word64}

theorem casEntry_inv (h : s.Inv) (he : casEntry s pte old new = some t) : t.Inv := by
  unfold casEntry at he
  simp only [] at he
  split at he
  · cases he
    exact storeHome_inv h
  · cases he

theorem casUnless_inv {p : Prop} [Decidable p] (h : s.Inv) (he : (if p then some s else casEntry s pte old new) = some t) : t.Inv := by
  split at he
  · cases he
    exact h
  · exact casEntry_inv h he

/-- What a walk leaves: a leaf's accessed and dirty bits may have been written (log entry 20). -/
theorem walkOnce_inv {r : State × Except PageFault TlbEntry} (h : s.Inv) (he : walkOnce s die core tenant sup va k again = some r) :
    r.1.Inv := by
  unfold walkOnce at he
  split at he
  · cases he
    exact h
  · split at he
    · cases he
      exact h
    · split at he
      · cases he
        exact h
      · obtain ⟨u, hu, rfl⟩ := Option.map_eq_some_iff.1 he
        have hc : u.Inv := casUnless_inv h hu
        exact hc

theorem walk_inv (h : s.Inv) : (walk s die core tenant sup va k).1.Inv := by
  unfold walk
  split
  · exact walkOnce_inv h ‹_›
  · cases hw : walkOnce s die core tenant sup va k true with
    | none => exact h
    | some r => exact walkOnce_inv h hw

theorem dirtyFor_inv (h : s.Inv) : (dirtyFor s die core tenant sup va k e).1.Inv := by
  unfold dirtyFor
  split
  · exact h
  · simp only []
    split
    · have hc := casEntry_inv h ‹_›
      exact hc
    · exact walk_inv h

theorem lookup_inv (h : s.Inv) : (lookup s die core tenant sup va k).1.Inv := by
  unfold lookup
  split
  · split
    · exact h
    · exact dirtyFor_inv h
  · split
    · exact h
    · exact dirtyFor_inv h
  · exact walk_inv h

theorem xlatePages_inv (l : List Addr) (found : List TlbEntry) (h : s.Inv) : (xlatePages s die core tenant sup k found l).1.Inv := by
  induction l generalizing s found with
  | nil => exact h
  | cons va r ih =>
    unfold xlatePages
    split
    · split
      · exact inv_fst (ih _ h) ‹_›
      · exact ih _ h
    · split
      · exact inv_fst (lookup_inv h) ‹_›
      · have hl := inv_fst (lookup_inv h) ‹_›
        split
        · exact inv_fst (ih _ hl) ‹_›
        · exact ih _ hl

theorem xlateBytes_inv {vas : List Addr} (h : s.Inv) : (xlateBytes s die core tenant sup k vas).1.Inv := xlatePages_inv _ _ h

end

end Sys2Proof.Machine
end

section
namespace Sys2Proof.Machine

/-! #### Groups, fault records and traps (Machine/Ops.lean) -/

section
variable {s t : State} {gid die tenant n : Nat} {s1 trap skip whole : Bool} {c : BitVec 2} {k : AccessKind} {va pc : Addr} {bs : List Byte}
  {r : FaultRec} {cause kind detail : BitVec 8} {m issued : Mask} {f : Group → Group} {fs : Slot → Slot} {ti : TrapInfo} {dst : Word32}
  {inst : Word64} {g : Group} {fr : Frame} {latches : Lanes (BitVec 512)} {pf : PageFault} {i : Instr} {sh : Shape}

theorem modGroup_inv (h : s.Inv) : (s.modGroup gid f).Inv := by
  unfold State.modGroup
  split
  · exact h
  · exact h

theorem modSlot_inv (h : s.Inv) : (s.modSlot gid s1 fs).Inv := modGroup_inv h

theorem ctrUp_inv (h : s.Inv) : (s.ctrUp gid c).Inv := modGroup_inv h

theorem ctrDown_inv (h : s.Inv) : (s.ctrDown gid c).Inv := modGroup_inv h

/-- The memory's form is kept by all that fences keep. -/
theorem inv_kept : Kept State.Inv where
  group _ _ _ h := modGroup_inv h
  core _ _ _ h := h
  fences _ h := h
  followers _ h := h

theorem settleFences_inv (h : s.Inv) : (settleFences s).Inv := inv_kept.settleFences h

theorem nextId_inv (h : s.Inv) : s.nextId.2.Inv := h

theorem free_inv (h : s.Inv) : s.free.2.Inv := h

theorem settleCtr_inv (h : s.Inv) : (s.settleCtr gid c).Inv := by
  unfold State.settleCtr
  split
  · exact ctrDown_inv h
  · exact h

theorem devKeys_inv (h : s.Inv) : (devKeys s die tenant va n k).1.Inv := by
  unfold devKeys
  split
  · exact inv_fst (xlateBytes_inv h) ‹_›
  · exact inv_fst (xlateBytes_inv h) ‹_›

theorem devRead_inv (h : s.Inv) : (devRead s die tenant va n).1.Inv := by
  unfold devRead
  split
  · exact inv_fst (devKeys_inv h) ‹_›
  · exact inv_fst (devKeys_inv h) ‹_›

theorem devWrite_inv (h : s.Inv) : (devWrite s die tenant va bs).Inv := by
  unfold devWrite
  split
  · exact storeHome_inv (inv_fst (devKeys_inv h) ‹_›)
  · exact inv_fst (devKeys_inv h) ‹_›

theorem putRecord_inv (h : s.Inv) (he : putRecord s die r = some t) : t.Inv := by
  unfold putRecord at he
  extract_lets at he
  split at he
  · cases he
  · split at he
    · have hd := inv_fst (devKeys_inv h) ‹_›
      cases he
      exact storeHome_inv hd
    · cases he

theorem appendRecord_inv (h : s.Inv) : (appendRecord s die r).1.Inv := by
  unfold appendRecord
  extract_lets d r u d' wait
  have hu : u.Inv := h
  split
  · exact inv_getD hu fun t ht => putRecord_inv hu ht
  · exact hu

theorem haltGroup_inv (h : s.Inv) : (haltGroup s gid cause pc m).Inv := by
  unfold haltGroup
  split
  · exact h
  · exact appendRecord_inv h

theorem takeTrap_inv (h : s.Inv) : (takeTrap s gid s1 ti dst inst issued).Inv := by
  unfold takeTrap
  split
  · exact h
  · extract_lets
    split
    · exact haltGroup_inv h
    · exact h

theorem leaveTrap_inv (h : s.Inv) : (leaveTrap s gid g fr skip latches).Inv := h

theorem parkSlotIn_inv (h : s.Inv) : (parkSlotIn s gid s1 trap va pf kind m).Inv := by
  unfold parkSlotIn
  split
  · exact h
  · exact modGroup_inv (appendRecord_inv h)

theorem parkSlot_inv (h : s.Inv) : (parkSlot s gid s1 va pf kind m).Inv := by
  unfold parkSlot
  split
  · exact h
  · exact parkSlotIn_inv h

theorem parkGroup_inv (h : s.Inv) : (parkGroup s gid s1 va pf kind m).Inv := by
  unfold parkGroup
  split
  · exact h
  · exact modGroup_inv (appendRecord_inv h)

theorem trapWord_inv (h : s.Inv) : (trapWord s gid s1 i sh cause detail m whole).Inv := by
  unfold trapWord
  split
  · exact h
  · exact takeTrap_inv h

end

/-! #### The gate of a word (Machine/Operands.lean) -/

section
variable {s t : State} {gid die core quad : Nat} {s1 : Bool} {i : Instr} {g : Group} {o : Option Nat} {w : Nat}

theorem emptyUnit_inv (h : s.Inv) : (emptyUnit s die core quad o).Inv := h

theorem resetUnit_inv (h : s.Inv) : (resetUnit s die core quad).Inv :=
  inv_foldl _ (emptyUnit_inv h) fun _ _ ht => settleCtr_inv ht

theorem takeMatrix_inv (h : s.Inv) (he : takeMatrix s g = .ok t) : t.Inv := by
  unfold takeMatrix at he
  split at he
  · cases he
  · extract_lets at he
    split at he
    · split at he
      · cases he
        exact h
      · cases he
    · cases he
      exact emptyUnit_inv h

/-- A word keeps the form if what it does behind its gate does. -/
theorem gate_inv {f : State → Nat → Bool → Group → Slot → Shape → Out} (h : s.Inv)
    (hf : ∀ s gid s1 g sl sh, s.Inv → OutInv (f s gid s1 g sl sh)) : OutInv (gate i s f) := by
  unfold gate
  split
  · split
    · extract_lets
      split
      · exact trapWord_inv h
      · split
        · split
          · exact trapWord_inv h
          · have ht := takeMatrix_inv h ‹_›
            split
            · exact modSlot_inv ht
            · exact hf _ _ _ _ _ _ ht
        · exact hf _ _ _ _ _ _ h
    · trivial
  · trivial

theorem runV_inv {f : State → Group → Slot → Mask → Lane → BitVec w} (h : s.Inv) : OutInv (runV i s f) :=
  gate_inv h fun _ _ _ _ _ _ h => h

theorem runP_inv {f : State → Group → Slot → Lane → Bool} (h : s.Inv) : OutInv (runP i s f) := gate_inv h fun _ _ _ _ _ _ h => h

end

/-! #### Accesses (Machine/Access.lean) -/

section
variable {s t : State} {gid lane n first id : Nat} {s1 once write : Bool} {g : Group} {sp : Space} {k : AccessKind} {ea : Addr}
  {found : List TlbEntry} {eas : Lanes Addr} {ls : List Lane} {wait : SlotWait} {r : MemReq} {todo m log : Mask} {x : Writer} {op : BitVec 6}
  {w3 : BitVec 3} {ks : List Nat} {b b2 : BitVec 64} {ctr pol : BitVec 2} {y : Nat × List Nat × List Nat × List Nat} {place : Lane → Addr}
  {e : Lane → Effect} {sh : Shape} {i : Instr}

theorem lanePages_inv (h : s.Inv) : (lanePages s g sp k found lane ea n).1.Inv := by
  unfold lanePages
  split
  · exact xlatePages_inv _ _ h
  · exact h

theorem laneKeys_inv (h : s.Inv) : (laneKeys s g sp k lane ea n).1.Inv := by
  unfold laneKeys
  split
  · exact inv_fst (lanePages_inv h) ‹_›
  · exact inv_fst (lanePages_inv h) ‹_›

theorem xlateFrom_inv (l : List Lane) (found : List TlbEntry) (h : s.Inv) : (xlateFrom s g sp k eas n found l).1.Inv := by
  induction l generalizing s found with
  | nil => exact h
  | cons l r ih =>
    unfold xlateFrom
    split
    · exact ih _ (inv_fst (lanePages_inv h) ‹_›)
    · exact ih _ (inv_fst (lanePages_inv h) ‹_›)

theorem xlateLanes_inv (h : s.Inv) : (xlateLanes s g sp k eas n ls).1.Inv := xlateFrom_inv _ _ h

theorem waitEntries_inv (h : s.Inv) : (waitEntries s gid s1 wait r todo).Inv := modSlot_inv h

theorem noteRead_inv {die core : Nat} {cls : BitVec 4} (h : s.Inv) : (noteRead s die core gid m cls ks).Inv := h

theorem applyAtom_inv (h : s.Inv) : (applyAtom s x op w3 ks b b2).2.Inv := storeBy_inv _ _ _ (noteRead_inv (l1Drops_inv h))

theorem reqDone_inv (h : s.Inv) : (s.reqDone gid ctr id).Inv := by
  unfold State.reqDone
  split
  · exact h
  · exact ctrDown_inv h

theorem issueOne_inv (h : s.Inv) : (issueOne s gid s1 r todo y).Inv := by
  unfold issueOne
  split
  · exact h
  · split
    extract_lets _ _ _ _ _ u
    have hu : u.Inv := h
    split
    · exact hu
    · exact lpPuts_inv hu
    · exact modGroup_inv (fetchAll_inv hu)
    · exact hu

theorem keepBelow_inv (h : s.Inv) : (keepBelow s g r todo first).Inv := by
  unfold keepBelow
  split
  · exact h
  · exact h

theorem memIssue_inv (h : s.Inv) : (memIssue s gid s1 r todo).Inv := by
  unfold memIssue
  split
  · exact h
  · extract_lets full
    split
    have hx := inv_fst (xlateLanes_inv h) ‹_›
    extract_lets mine
    split
    extract_lets okMask v first w left drew older
    have hw : w.Inv := keepBelow_inv (inv_foldl _ (modGroup_inv hx) fun _ _ ht => issueOne_inv ht)
    clear_value w
    split
    · exact modSlot_inv (parkSlot_inv hw)
    · split
      · exact reqDone_inv (modSlot_inv hw)
      · exact modSlot_inv hw

theorem startReq_inv (h : s.Inv) : (startReq s gid r).Inv := ctrUp_inv h

theorem deviceKeys_inv (h : s.Inv) : (deviceKeys s gid s1 g k place n m).1.Inv := by
  unfold deviceKeys
  split
  have hx := inv_fst (xlateLanes_inv h) ‹_›
  split
  · exact parkGroup_inv hx
  · exact hx

theorem putAll_inv {w : Nat × List Nat → Writer} {bs : Nat × List Nat → List Byte} (l : List (Nat × List Nat)) (h : s.Inv) :
    (l.foldl (fun s p => lpPuts s (w p) p.2 (bs p)) s).Inv :=
  inv_foldl _ h fun _ _ ht => lpPuts_inv ht

theorem regionEffect_inv (h : s.Inv) : (regionEffect s gid s1 g m log e).1.Inv := by
  unfold regionEffect
  split
  · exact h
  · split
    have hk := inv_fst (deviceKeys_inv h) ‹_›
    split
    · exact hk
    · exact putAll_inv _ hk

theorem logLatch_inv (h : s.Inv) : (logLatch s gid s1 sh log g).Inv := h

theorem withRegion_inv {perform : State → MemReq → State} (h : s.Inv) (hp : ∀ s r, s.Inv → (perform s r).Inv) :
    OutInv (withRegion s gid s1 g sh r e perform) := by
  unfold withRegion
  extract_lets mk log
  split
  · exact inv_fst (regionEffect_inv h) ‹_›
  · have hr := inv_fst (regionEffect_inv h) ‹_›
    extract_lets g' u
    have hu : u.Inv := inv_ite hr (logLatch_inv hr)
    clear_value u
    split
    · exact modGroup_inv hu
    · exact hp _ _ (startReq_inv hu)

end

end Sys2Proof.Machine
end

section
namespace Sys2Proof.Machine

/-! #### Memory words and their completion (Machine/Memory.lean) -/

section
variable {s t : State} {gid n id : Nat} {s1 once : Bool} {i : Instr} {op : MemOp} {sp : Space} {pol w2 : BitVec 2} {align lane : Nat} {lock : Option Bool}
  {ea : State → Group → Slot → Mask → Lane → Addr} {data data2 : State → Group → Slot → Lane → BitVec 64} {g : Group} {a : Acc}
  {extra : Group → Mask → Option (BitVec 8 × Mask)} {log : Option (MemReq → Lane → Effect)} {ad : Addr} {x y : Src} {disp : BitVec 6}
  {w : BitVec 3} {ks : List (Nat × List Nat)} {vs : List Byte} {kvs : List (Nat × Byte)} {v : BitVec 64} {aop : BitVec 6} {sh : Shape} {r : MemReq}

theorem memWord_inv (h : s.Inv) : OutInv (memWord i s op sp pol once align lock ea data data2 extra log) :=
  gate_inv h fun s gid s1 g sl sh h => by
    extract_lets m r
    split
    · exact h
    · split
      · exact trapWord_inv h
      · exact trapWord_inv h
      · split
        · exact withRegion_inv h fun _ _ ht => memIssue_inv ht
        · exact memIssue_inv (startReq_inv h)

theorem softKeys_inv {found : List TlbEntry} (h : s.Inv) : (softKeys s g sp found lane ad n).1.Inv := by
  unfold softKeys
  split
  · exact h
  · split
    · exact inv_fst (lanePages_inv h) ‹_›
    · exact inv_fst (lanePages_inv h) ‹_›

theorem softLanes_inv {eas : Lane → Addr} (ls : List Lane) (found : List TlbEntry) (h : s.Inv) : (softLanes g sp n eas s found ls).1.Inv := by
  induction ls generalizing s found with
  | nil => exact h
  | cons l r ih =>
    unfold softLanes
    split
    · exact ih _ (inv_fst (softKeys_inv h) ‹_›)
    · exact ih _ (inv_fst (softKeys_inv h) ‹_›)

theorem lineWord_inv {act : State → Group → Nat → State} (h : s.Inv) (ha : ∀ s g k, s.Inv → (act s g k).Inv) :
    OutInv (lineWord i s sp n x y disp act) :=
  gate_inv h fun _ _ _ _ _ _ h => inv_foldl _ (softLanes_inv _ _ h) fun _ _ ht => ha _ _ _ ht

theorem prefFill_inv (h : s.Inv) : (prefFill s a).Inv :=
  inv_foldl _ h fun _ _ ht => by
    extract_lets k
    split
    · exact l2Read_inv ht
    · exact inv_foldl _ ht fun _ _ hu => fetchFor_inv hu

theorem dropStale_inv (h : s.Inv) : (dropStale s a vs).Inv := by
  unfold dropStale
  split
  · refine inv_foldl _ h fun _ _ ht => ?_
    split
    · split
      · exact ht
      · exact ht
    · exact ht
  · exact h

theorem shareLoaded_inv (h : s.Inv) : (shareLoaded s a kvs).Inv := modGroup_inv h

theorem accDone_inv (h : s.Inv) : (accDone s a v).Inv := settleFences_inv (reqDone_inv (modGroup_inv h))

theorem atomDone_inv (h : s.Inv) : (atomDone s a aop).Inv := accDone_inv (applyAtom_inv h)

theorem loadDone_inv (h : s.Inv) : (loadDone s a).Inv :=
  accDone_inv (shareLoaded_inv (noteRead_inv (dropStale_inv (inv_foldl _ h fun _ _ ht => fetchFor_inv ht))))

theorem accAnswered_inv (h : s.Inv) : (accAnswered s a).Inv := by
  unfold accAnswered
  split
  · exact atomDone_inv h
  · exact atomDone_inv h
  · exact loadDone_inv h

theorem execFence_inv {hd : Head} {pred succ : BitVec 4} {scope : BitVec 3} (h : s.Inv) : OutInv (execFence hd pred succ scope s) :=
  gate_inv h fun s gid s1 g sl sh h => by
    extract_lets m f u
    split
    · exact h
    · exact settleFences_inv (ctrUp_inv h)

theorem execPref_inv {hd : Head} {sp : BitVec 3} (h : s.Inv) : OutInv (execPref hd x y sp pol disp s) :=
  gate_inv h fun _ _ _ _ _ _ h => softLanes_inv _ _ h

theorem execMemAccessComplete_inv (h : s.Inv) : OutInv (execMemAccessComplete id s) := by
  unfold execMemAccessComplete
  split
  · exact h
  · split
    · exact h
    · extract_lets away
      split
      · exact prefFill_inv h
      · exact inv_ite h (accAnswered_inv h)

theorem execStoreReachHome_inv (h : s.Inv) : OutInv (execStoreReachHome id s) := by
  unfold execStoreReachHome
  split
  · exact h
  · split
    · exact h
    · extract_lets u w
      have hw : w.Inv := inv_ite (lpPuts_inv h) (l1Patches_inv (storeBy_inv _ _ _ h))
      split
      · exact h
      · exact settleFences_inv (reqDone_inv hw)

theorem execLeaseExpiry_inv (h : s.Inv) : OutInv (execLeaseExpiry n s) := by
  unfold execLeaseExpiry
  split
  · exact h
  · exact settleFences_inv (settleOutside_inv h)

theorem execLeaseCopyDrop_inv {die line : Nat} (h : s.Inv) : OutInv (execLeaseCopyDrop die line s) := h

end

end Sys2Proof.Machine
end

section
namespace Sys2Proof.Machine

/-! #### Rings and futures (Machine/Sync.lean) -/

section
variable {s t : State} {gid n : Nat} {s1 whole trap : Bool} {g : Group} {r : MemReq} {ok : List (Nat × List Nat × List Nat × List Nat)}
  {wait : SlotWait} {todo m : Mask} {ks : List (Nat × List Nat)} {kl : List Nat} {off : Nat} {v : Word32} {sh : Shape} {cause : BitVec 8}
  {i : Instr} {op : MemOp} {sp : BitVec 3} {pol : BitVec 2} {a : Triple} {data : State → Group → Slot → Lane → BitVec 64} {space : Space} {d : Ring}

theorem ringKeys_inv (h : s.Inv) : (ringKeys s g r).1.Inv := laneKeys_inv h

theorem sendWait_inv (h : s.Inv) : (sendWait s gid s1 g r ok).Inv := h

/-- A word that does not reach its home waits. -/
theorem reach_inv (h : s.Inv) (he : reach s gid s1 g r wait whole todo ks = .error t) : t.Inv := by
  unfold reach at he
  extract_lets at he
  split at he
  · cases he
  · split at he
    · cases he
      exact h
    · split at he
      split at he
      · cases he
        exact waitEntries_inv h
      · split at he
        · cases he
          exact modSlot_inv (sendWait_inv h)
        · cases he

theorem bumpRing_inv (h : s.Inv) : (bumpRing s r gid g kl off v).Inv := storeBy_inv _ _ _ (noteRead_inv (l1Drops_inv h))

theorem trapStarted_inv (h : s.Inv) : (trapStarted s gid s1 sh r cause m).Inv := ctrDown_inv (trapWord_inv (modSlot_inv h))

theorem ringStart_inv (h : s.Inv) : (ringStart s gid s1 sh r).Inv := by
  unfold ringStart
  split
  · exact h
  · split
    · exact modSlot_inv (parkSlot_inv (inv_fst (ringKeys_inv h) ‹_›))
    · have hk := inv_fst (ringKeys_inv h) ‹_›
      split
      · exact reach_inv hk ‹_›
      · extract_lets d push n
        split
        · exact trapStarted_inv hk
        · split
          · exact trapStarted_inv hk
          · split
            · exact trapStarted_inv hk
            · exact modSlot_inv (bumpRing_inv hk)

theorem ringWord_inv (h : s.Inv) : OutInv (ringWord i s op sp pol a data) :=
  gate_inv h fun s gid s1 g sl sh h => by
    extract_lets m r
    split
    · exact h
    · split
      · exact trapWord_inv h
      · split
        · exact withRegion_inv h fun _ _ ht => ringStart_inv ht
        · exact ringStart_inv (startReq_inv h)

theorem ringTouch_inv (h : s.Inv) : (ringTouch s gid s1 g r d v todo).Inv := by
  unfold ringTouch
  extract_lets push
  split
  have hx := inv_fst (xlateLanes_inv h) ‹_›
  split
  · exact reach_inv hx ‹_›
  · extract_lets keys u w left
    have hw : w.Inv := inv_ite (modGroup_inv (inv_foldl _ hx fun _ _ ht => l1Patches_inv (storeBy_inv _ _ _ ht)))
      (inv_foldl _ hx fun _ _ ht => modGroup_inv (noteRead_inv ht))
    clear_value w
    split
    · exact modSlot_inv (parkSlot_inv hw)
    · split
      · exact modSlot_inv hw
      · exact waitEntries_inv hw

theorem finishWait_inv (h : s.Inv) : (finishWait s gid s1 r).Inv := reqDone_inv (modSlot_inv h)

theorem l1Invalidate_inv {die core : Nat} (h : s.Inv) : (l1Invalidate s die core).Inv := h

theorem naturalAcquire_inv (h : s.Inv) : (naturalAcquire s g space).Inv := by
  unfold naturalAcquire
  split
  · exact l1Invalidate_inv h
  · exact h

theorem execRingWaitResume_inv (h : s.Inv) : OutInv (execRingWaitResume gid s1 s) := by
  unfold execRingWaitResume
  split
  · exact h
  · extract_lets sl
    cases sl.wait with
    | ringPush n | ringPop n =>
      cases sl.req with
      | none => exact h
      | some r =>
        refine outInv_ite h ?_
        split
        · exact modSlot_inv (parkSlot_inv (inv_fst (ringKeys_inv h) ‹_›))
        · have hk := inv_fst (ringKeys_inv h) ‹_›
          extract_lets d push todo
          refine outInv_ite (outInv_ite (ringTouch_inv hk) h) (outInv_ite ?_ h)
          split
          · exact modSlot_inv (reach_inv hk ‹_›)
          · exact settleFences_inv (finishWait_inv (inv_ite (bumpRing_inv hk) (naturalAcquire_inv (bumpRing_inv hk))))
    | _ => exact h

theorem futFillIssue_inv (h : s.Inv) : (futFillIssue s gid s1 sh r).Inv := by
  unfold futFillIssue
  split
  · exact h
  · split
    have hx := inv_fst (xlateLanes_inv h) ‹_›
    split
    · exact reach_inv hx ‹_›
    · extract_lets m
      split
      · exact trapStarted_inv hx
      · split
        · exact modSlot_inv (parkSlot_inv hx)
        · exact finishWait_inv (inv_foldl _ hx fun _ _ ht => storeBy_inv _ _ _ (l1Drops_inv ht))

theorem execFutFill_inv {hd : Head} {a b : Src} (h : s.Inv) : OutInv (execFutFill hd a b sp pol s) :=
  gate_inv h fun s gid s1 g sl sh h => by
    extract_lets m r
    split
    · exact h
    · split
      · exact trapWord_inv h
      · exact withRegion_inv h fun _ _ ht => futFillIssue_inv ht

theorem futCheck_inv (h : s.Inv) : (futCheck s gid s1 g r).1.Inv := by
  unfold futCheck
  split
  have hx := inv_fst (xlateLanes_inv h) ‹_›
  split
  · exact modSlot_inv (parkSlot_inv hx)
  · exact hx

theorem execFutWait_inv {hd : Head} {dd : Dst} {a : Src} (h : s.Inv) : OutInv (execFutWait hd dd a sp pol s) :=
  gate_inv h fun s gid s1 g sl sh h => by
    extract_lets m r
    split
    · exact h
    · split
      · exact trapWord_inv h
      · split
        · exact inv_fst (futCheck_inv (startReq_inv h)) ‹_›
        · exact modSlot_inv (inv_fst (futCheck_inv (startReq_inv h)) ‹_›)

theorem execFutWaitWake_inv (h : s.Inv) : OutInv (execFutWaitWake gid s1 s) := by
  unfold execFutWaitWake
  split
  · exact h
  · extract_lets sl
    split
    · split
      · exact h
      · split
        · exact inv_fst (futCheck_inv h) ‹_›
        · have hk := inv_fst (futCheck_inv h) ‹_›
          extract_lets word
          split
          · split
            · exact reach_inv hk ‹_›
            · refine settleFences_inv (finishWait_inv (naturalAcquire_inv ?_))
              exact inv_foldl _ hk fun _ _ ht => modGroup_inv (noteRead_inv ht)
          · exact h
    · exact h

theorem resumeReq_inv (h : s.Inv) : (resumeReq s gid s1 r todo).Inv := by
  unfold resumeReq
  cases r.op with
  | ringPush | ringPop =>
    cases r.ring with
    | none =>
      cases wordShape r.instr with
      | none => exact memIssue_inv h
      | some sh => exact ringStart_inv h
    | some n => exact modSlot_inv h
  | futFill =>
    cases wordShape r.instr with
    | none => exact memIssue_inv h
    | some sh => exact futFillIssue_inv h
  | futWait => exact modSlot_inv h
  | _ => exact memIssue_inv h

theorem execPendingRetry_inv (h : s.Inv) : OutInv (execPendingRetry gid s1 s) := by
  unfold execPendingRetry
  split
  · exact h
  · extract_lets sl
    split
    · split
      · exact h
      · exact resumeReq_inv h
    · exact h

theorem failWait_inv (h : s.Inv) : (failWait s gid s1 trap r).Inv := by
  unfold failWait
  extract_lets returns u
  have hu : u.Inv := inv_ite (inv_foldl _ h fun _ _ ht => modGroup_inv ht) h
  clear_value u
  exact reqDone_inv (modGroup_inv hu)

theorem resumeWait_inv (h : s.Inv) : OutInv (resumeWait s gid s1) := by
  unfold resumeWait
  split
  · exact h
  · rename_i g _
    cases (g.slot s1).wait with
    | ringPush _ | ringPop _ => exact execRingWaitResume_inv h
    | futWait => exact execFutWaitWake_inv h
    | pending => exact execPendingRetry_inv h
    | _ => exact h

end

end Sys2Proof.Machine
end

section
namespace Sys2Proof.Machine

/-! #### Reconvergence stacks (Machine/Stack.lean) -/

section
variable {s t : State} {gid j : Nat} {write : Bool} {g : Group}

theorem transferEntry_inv (h : s.Inv) : (transferEntry s gid j write).1.Inv := by
  unfold transferEntry
  split
  · exact h
  · extract_lets
    split
    · exact h
    · split
      · exact parkGroup_inv (inv_fst (xlateBytes_inv h) ‹_›)
      · have hx := inv_fst (xlateBytes_inv h) ‹_›
        split
        · exact lpPuts_inv hx
        · exact modGroup_inv (fetchAll_inv hx)

theorem stackTransfers_inv (l : List (Nat × Bool)) (h : s.Inv) : (stackTransfers s gid l).Inv := by
  induction l generalizing s with
  | nil => exact modGroup_inv h
  | cons x r ih =>
    unfold stackTransfers
    split
    · exact ih (inv_fst (transferEntry_inv h) ‹_›)
    · exact modGroup_inv (inv_fst (transferEntry_inv h) ‹_›)

theorem readBelow_inv (l : List Nat) (h : s.Inv) : (readBelow s gid l).1.Inv := by
  induction l generalizing s with
  | nil => exact h
  | cons x r ih =>
    unfold readBelow
    split
    · exact ih (inv_fst (transferEntry_inv h) ‹_›)
    · exact inv_fst (transferEntry_inv h) ‹_›

theorem withStack_inv {k : State → Group → Out} (h : s.Inv) (hk : ∀ s g, s.Inv → OutInv (k s g)) : OutInv (withStack s gid k) := by
  unfold withStack
  split
  · exact h
  · split
    · exact inv_fst (readBelow_inv _ h) ‹_›
    · have hr := inv_fst (readBelow_inv _ h) ‹_›
      split
      · exact hk _ _ hr
      · exact hr

theorem putPaths_inv (h : s.Inv) : (s.putPaths gid g).Inv := stackTransfers_inv _ h

end

/-! #### Tasks, effect logs and the ends of groups (Machine/Life.lean) -/

section
variable {s t : State} {gid lcore n die core quad grid tid id role c : Nat} {x : Source} {acked s1 : Bool} {sp : Space} {k : AccessKind} {ea : Addr}
  {w : BitVec 3} {data data2 : BitVec 64} {idx : BitVec 128} {e : Effect} {ks : List Nat} {op : MemOp} {l : Lane} {m : Mask} {task : Task}
  {ts : List Task} {f : Grid → Grid} {g : Group} {status event : BitVec 8} {p : Slot → Bool} {fs : Slot → Slot} {o : LockOwner}
  {cx : StepCtx} {w2 : Bool × Bool} {put : Group → Group} {q : Nat × BitVec 8} {team : Team}

theorem spillTask_inv (h : s.Inv) : (spillTask s lcore n task).Inv := devWrite_inv h

theorem appendTasks_inv (h : s.Inv) : (appendTasks s lcore ts).Inv := by
  unfold appendTasks
  exact inv_foldl (s := s.setDeque _ _) _ h fun _ _ ht => spillTask_inv ht

theorem pushTasks_inv (h : s.Inv) : (pushTasks s lcore ts).Inv := appendTasks_inv h

theorem sourceKeys_inv (h : s.Inv) : (sourceKeys s x sp k ea n).1.Inv := by
  unfold sourceKeys
  split
  · split
    · exact inv_fst (xlateBytes_inv h) ‹_›
    · exact inv_fst (xlateBytes_inv h) ‹_›
  · exact h

theorem releasePush_inv (h : s.Inv) : (releasePush s x acked sp ea w data).1.Inv := by
  unfold releasePush
  split
  · exact inv_fst (sourceKeys_inv h) ‹_›
  · have hk := inv_fst (sourceKeys_inv h) ‹_›
    extract_lets d n put
    split
    · exact hk
    · split
      · exact hk
      · split
        · exact hk
        · split
          · exact inv_fst (sourceKeys_inv hk) ‹_›
          · have he := inv_fst (sourceKeys_inv hk) ‹_›
            exact storeBy_inv _ _ _ (storeBy_inv _ _ _ (l1Drops_inv (l1Patches_inv (storeBy_inv _ _ _ he))))

theorem releaseAcc_inv (h : s.Inv) : (releaseAcc s x op sp w ea ks data data2 idx).Inv := h

theorem releaseOne_inv (h : s.Inv) : (releaseOne s x acked idx e).1.Inv := by
  unfold releaseOne
  split
  · split
    · exact inv_fst (sourceKeys_inv h) ‹_›
    · exact releaseAcc_inv (inv_fst (sourceKeys_inv h) ‹_›)
  · split
    · exact inv_fst (sourceKeys_inv h) ‹_›
    · exact releaseAcc_inv (inv_fst (sourceKeys_inv h) ‹_›)
  · split
    · exact inv_fst (sourceKeys_inv h) ‹_›
    · have hk := inv_fst (sourceKeys_inv h) ‹_›
      split
      · exact hk
      · split
        · exact hk
        · split
          · exact hk
          · exact storeBy_inv _ _ _ (l1Drops_inv hk)
  · split
    · exact releasePush_inv h
    · exact h
  · split
    · exact pushTasks_inv h
    · exact h

theorem sendEffect_inv (h : s.Inv) : (sendEffect s x ks).2.Inv := h

theorem releaseFault_inv (h : s.Inv) : (releaseFault s x).Inv := by
  unfold releaseFault
  split
  · exact haltGroup_inv h
  · exact appendRecord_inv h

theorem modGrid_inv (h : s.Inv) : (s.modGrid grid f).Inv := by
  unfold State.modGrid
  split
  · exact h
  · exact h

theorem releaseLog_inv (l : List Effect) (h : s.Inv) : (releaseLog s x idx l).Inv := by
  induction l generalizing s with
  | nil => exact h
  | cons e r ih =>
    unfold releaseLog
    extract_lets keep
    split
    · exact ih (inv_fst (releaseOne_inv h) ‹_›)
    · exact modGrid_inv h
    · exact modGrid_inv (sendEffect_inv (inv_fst (releaseOne_inv h) ‹_›))
    · exact releaseFault_inv (inv_fst (releaseOne_inv h) ‹_›)

theorem retireLane_inv (h : s.Inv) : (retireLane s gid l).Inv := by
  unfold retireLane
  split
  · exact h
  · extract_lets x log mode keep ret cleared u v
    have hv : v.Inv := modGrid_inv h
    exact inv_ite h (inv_ite (inv_ite h (inv_ite h (releaseLog_inv _ (modGrid_inv h)))) (inv_ite hv (releaseLog_inv _ hv)))

theorem retireLanes_inv (h : s.Inv) : (retireLanes s gid m).Inv := inv_foldl _ h fun _ _ ht => retireLane_inv ht

theorem releaseBars_inv (h : s.Inv) : (releaseBars s gid).Inv := by
  unfold releaseBars
  split
  · exact h
  · extract_lets slots due u v
    have hv : v.Inv := inv_foldl (s := u) _ h fun _ _ ht => ctrDown_inv ht
    exact inv_ite h (l1Invalidate_inv hv)

theorem settleBar_inv (h : s.Inv) : (settleBar s tid id).Inv := by
  unfold settleBar
  split
  · exact h
  · split
    · extract_lets b b' u
      have hu : u.Inv := h
      exact inv_ite (inv_foldl _ hu fun _ _ ht => releaseBars_inv (modGroup_inv ht)) h
    · exact h

theorem settleBars_inv (h : s.Inv) : (settleBars s tid).Inv := inv_foldl _ h fun _ _ ht => settleBar_inv ht

theorem modWaiting_inv (h : s.Inv) : (s.modWaiting gid s1 p fs).Inv := modGroup_inv h

theorem dropLocks_inv (h : s.Inv) : (dropLocks s die core o).Inv := h

theorem giveCall_inv (h : s.Inv) : (giveCall s gid w2 put).Inv := by
  unfold giveCall
  split
  · exact h
  · exact ctrDown_inv (l1Invalidate_inv h)

theorem callOver_inv (h : s.Inv) : (callOver s cx).Inv := inv_foldl _ h fun _ _ ht => giveCall_inv ht

theorem stopRun_inv (h : s.Inv) : (stopRun s c status event).Inv := by
  unfold stopRun
  split
  · exact h
  · extract_lets u
    have hu : u.Inv := by
      dsimp only [u]
      split
      · exact dropLocks_inv h
      · exact h
    exact callOver_inv hu

theorem servingLost_inv (h : s.Inv) : (servingLost s tid role).Inv := by
  unfold servingLost
  split
  · exact h
  · split
    · exact h
    · exact inv_ite (stopRun_inv h) h

theorem settleQuad_inv (h : s.Inv) : (settleQuad s die q).Inv := inv_ite h (resetUnit_inv h)

theorem settleBank_inv (h : s.Inv) : (settleBank s die q).Inv := inv_ite h h

theorem settleOwners_inv (h : s.Inv) : (settleOwners s).Inv :=
  inv_foldl _ h fun _ _ ht => inv_foldl _ (inv_foldl _ ht fun _ _ hu => settleQuad_inv hu) fun _ _ hu => settleBank_inv hu

theorem freeMatrix_inv (h : s.Inv) : (freeMatrix s die core quad tid).Inv := inv_ite h (inv_ite (resetUnit_inv h) h)

theorem endTeam_inv (h : s.Inv) : (endTeam s tid).Inv := by
  unfold endTeam
  split
  · exact h
  · extract_lets u
    have hu : u.Inv := by
      dsimp only [u]
      split
      · exact stopRun_inv h
      · exact h
    exact inv_ite (modGrid_inv hu) h

theorem retireGroup_inv (h : s.Inv) : (retireGroup s gid).Inv := by
  unfold retireGroup
  split
  · exact h
  · extract_lets u v
    have hv : v.Inv := modGrid_inv h
    refine inv_ite h ?_
    split
    · exact settleOwners_inv hv
    · extract_lets w x
      have hw : w.Inv := by
        dsimp only [w]
        split
        · exact hv
        · exact hv
      exact settleOwners_inv (endTeam_inv (settleBars_inv (servingLost_inv (freeMatrix_inv hw))))

theorem endTasks_inv (h : s.Inv) : (endTasks s g m).Inv := inv_ite h (modGrid_inv h)

theorem exitLanes_inv (h : s.Inv) : (exitLanes s gid s1 m).Inv := by
  unfold exitLanes
  split
  · exact h
  · extract_lets u v
    have hv : v.Inv := retireLanes_inv (endTasks_inv h)
    split
    · exact hv
    · exact retireGroup_inv (putPaths_inv hv)

end

end Sys2Proof.Machine
end

section
namespace Sys2Proof.Machine

/-! #### Engines and their programs (Machine/Engines.lean, Machine/Flags.lean) -/

section
variable {s t : State} {gid die core pid tenant eng grid n id : Nat} {s1 res sup taken : Bool} {ks : List Nat} {w : Writer} {va ea : Addr} {bs : List Byte}
  {detail place : BitVec 8} {c : PageFault} {f : EngineFault} {dst : Word32} {word : Word64} {g : Group} {i : Instr} {hd : Head} {a b : BitVec 8}
  {n3 : BitVec 3} {p : Prog} {imm : BitVec 32} {team : Option Nat} {sp : Space} {k : AccessKind} {sh : Shape} {m : Mask} {fl : Lane → FFlags} {adv : Nat}
  {put : Group → Mask → Bool → Group} {width : Nat} {rm : BitVec 3}

theorem l1Shed_inv (h : s.Inv) : (l1Shed s die core ks).Inv :=
  inv_foldl _ h fun _ _ ht => by
    split
    · exact inv_ite ht ht
    · exact ht

theorem engineStore_inv (h : s.Inv) : (engineStore s w va ks bs).Inv := inv_ite h (l1Shed_inv (storeBy_inv _ _ _ h))

theorem engineRead_inv (h : s.Inv) : (engineRead s w ks).1.Inv := inv_foldl _ h fun _ _ ht => l2Read_inv ht

theorem dropOps_inv (h : s.Inv) : (dropOps s pid).Inv := by
  have hd : ((s.copies.filter fun c => c.pid = some pid).foldl (fun s c => dropLocks s c.die c.core (.copy c.id)) s).Inv :=
    inv_foldl _ h fun _ _ ht => dropLocks_inv ht
  exact hd

theorem progFault_inv (h : s.Inv) : (progFault s pid detail ea).Inv := by
  unfold progFault
  split
  · exact h
  · exact settleFences_inv (settleCtr_inv (dropOps_inv h))

theorem stopRecord_inv (h : s.Inv) : (stopRecord s die core tenant place va c).1.Inv := appendRecord_inv h

theorem stopProg_inv (h : s.Inv) : (stopProg s pid va c).Inv := by
  unfold stopProg
  split
  · exact h
  · exact stopRecord_inv h

theorem deliverFault_inv (h : s.Inv) : (deliverFault s gid s1 f dst word res).Inv := by
  unfold deliverFault
  extract_lets u
  have hu : u.Inv := h
  split
  · exact hu
  · exact takeTrap_inv hu

theorem execEngineFaultDelivery_inv (h : s.Inv) : OutInv (execEngineFaultDelivery gid s1 s) := by
  unfold execEngineFaultDelivery
  split
  · split
    · exact h
    · exact deliverFault_inv h
  · extract_lets gone
    split
    · refine outInv_ite h ?_
      exact appendRecord_inv h
    · exact h

theorem execEngineProgramStart_inv (h : s.Inv) : OutInv (execEngineProgramStart pid s) := by
  unfold execEngineProgramStart
  split
  · exact h
  · exact outInv_ite h h

theorem execEngineProgramEnd_inv (h : s.Inv) : OutInv (execEngineProgramEnd pid s) := by
  unfold execEngineProgramEnd
  split
  · exact h
  · exact outInv_ite h (settleFences_inv (settleCtr_inv h))

theorem takeSeq_inv (h : s.Inv) : (takeSeq s g eng).2.Inv := by
  unfold takeSeq
  split
  · exact h
  · exact h

theorem forkWord_inv (h : s.Inv) : OutInv (forkWord i hd eng a b n3 s) :=
  gate_inv h fun s gid s1 g sl sh h => by
    extract_lets m
    refine outInv_ite h ?_
    split
    have ht := inv_snd (takeSeq_inv h) ‹_›
    split
    have hn := inv_snd (nextId_inv ht) ‹_›
    exact outInv_ite (modSlot_inv h) hn

theorem execRdv_inv {d : Dst} {a : Src} (h : s.Inv) : OutInv (execRdv hd d a s) := by
  unfold execRdv
  refine gate_inv h fun s gid s1 g sl sh h => ?_
  extract_lets m x finish
  have hf : ∀ v, OutInv (finish v) := fun _ => naturalAcquire_inv h
  clear_value finish x
  -- `findProg` cuts its list by a large literal, which must not be evaluated
  generalize findProg s gid g x = q
  split
  · exact h
  · generalize List.find? _ _ = o
    cases o with
    | some f => exact deliverFault_inv h
    | none =>
      cases q with
      | none => exact hf _
      | some p => exact outInv_ite (hf _) (modSlot_inv h)

theorem progGate_inv {f : Nat → Prog → Out} (hf : ∀ pid p, OutInv (f pid p)) : OutInv (progGate s f) := by
  unfold progGate
  split
  · split
    · exact hf _ _
    · trivial
  · trivial

theorem seqWord_inv {f : Prog → Prog} (h : s.Inv) : OutInv (seqWord s f) := progGate_inv fun _ _ => h

theorem seqBranch_inv (h : s.Inv) : OutInv (seqBranch s pid p taken imm) :=
  outInv_ite (progFault_inv h) (outInv_ite (progFault_inv h) (outInv_ite h h))

theorem engineKeys_inv (h : s.Inv) : (engineKeys s team die core grid tenant sup sp k ea n).1.Inv := by
  unfold engineKeys
  extract_lets t
  split
  · exact h
  · split
    · split
      · exact inv_fst (xlateBytes_inv h) ‹_›
      · exact inv_fst (xlateBytes_inv h) ‹_›
    · exact h

theorem execSsig_inv {sp : BitVec 4} {a : SReg} (h : s.Inv) : OutInv (execSsig sp a imm s) :=
  progGate_inv fun pid p => by
    extract_lets ea space
    refine outInv_ite (progFault_inv h) ?_
    split
    · exact progFault_inv (inv_fst (engineKeys_inv h) ‹_›)
    · exact stopProg_inv (inv_fst (engineKeys_inv h) ‹_›)
    · exact outInv_ite h (engineStore_inv (inv_fst (engineKeys_inv h) ‹_›))

theorem execSbra_inv {a b : SReg} {cond : BitVec 3} (h : s.Inv) : OutInv (execSbra a b cond imm s) := progGate_inv fun _ _ => seqBranch_inv h

theorem execSloop_inv {d : SReg} (h : s.Inv) : OutInv (execSloop d imm s) := progGate_inv fun _ _ => seqBranch_inv h

theorem execSend_inv (h : s.Inv) : OutInv (execSend s) := progGate_inv fun _ _ => outInv_ite (progFault_inv h) h

theorem finishF_inv (h : s.Inv) : OutInv (finishF i s gid s1 g sh m fl adv put) := outInv_ite h (trapWord_inv h)

theorem runF_inv {f : State → Group → Slot → Lane → FRes width} (h : s.Inv) : OutInv (runF i s rm adv f) :=
  gate_inv h fun _ _ _ _ _ _ h => finishF_inv h

end

end Sys2Proof.Machine
end

section
namespace Sys2Proof.Machine

/-! #### Copies and collectives (Machine/Copy.lean) -/

section
variable {s t : State} {gid die core pid id n kind root : Nat} {s1 : Bool} {ls : List Lock} {c : CopyOp} {sp : Space} {k : AccessKind}
  {srcs : List (List Nat)} {detail : BitVec 8} {va : Addr} {f : PageFault} {g : Group} {sl : Slot} {sh : Shape} {cont : Option Addr} {i : Instr}
  {p : Prog} {fc : CopyOp → CopyOp} {w : BitVec 3} {d a nn x : SReg} {dsp ssp : BitVec 3} {pol : BitVec 2} {ck : CopyKind} {op : BitVec 3}
  {r : List (Nat × Bool)} {ps : List CopyOp}

theorem takeLocks_inv (h : s.Inv) (he : takeLocks s die core ls = some t) : t.Inv := by
  unfold takeLocks at he
  extract_lets at he
  split at he
  · cases he
  · cases he
    exact h

theorem moveKeys_inv (l : List Addr) (h : s.Inv) : (moveKeys s c sp k l).1.Inv := by
  induction l generalizing s with
  | nil => exact h
  | cons a r ih =>
    unfold moveKeys
    split
    · exact inv_fst (engineKeys_inv h) ‹_›
    · exact inv_fst (engineKeys_inv h) ‹_›
    · have hk := ih (inv_fst (engineKeys_inv h) ‹_›)
      split
      · exact inv_fst hk ‹_›
      · exact inv_fst hk ‹_›

theorem readMoves_inv (l : List (List Nat)) (h : s.Inv) : (readMoves s c l).1.Inv := by
  induction l generalizing s with
  | nil => exact h
  | cons ks r ih => exact ih (engineRead_inv h)

theorem moveData_inv (h : s.Inv) : (moveData s c srcs).1.Inv := by
  unfold moveData
  split
  · exact h
  · exact h
  · exact readMoves_inv _ h

theorem copyDone_inv (h : s.Inv) : (copyDone s c).Inv := by
  unfold copyDone
  extract_lets u v w
  have hv : v.Inv := inv_ite (dropLocks_inv h) (settleCtr_inv (dropLocks_inv h))
  exact settleFences_inv (inv_ite (modWaiting_inv hv) hv)

theorem copyFault_inv (h : s.Inv) : (copyFault s c detail va).Inv := by
  unfold copyFault
  split
  · exact progFault_inv h
  · exact copyDone_inv h

theorem copyStop_inv (h : s.Inv) : (copyStop s c f va).Inv := by
  have hr : (stopRecord s c.die c.core c.tenant c.place va f).1.Inv := stopRecord_inv h
  exact hr

theorem modCopy_inv (h : s.Inv) : (s.modCopy id fc).Inv := h

theorem finishCopy_inv (h : s.Inv) : (finishCopy s c).Inv := inv_ite (copyDone_inv h) (modCopy_inv h)

theorem putMoves_inv (l : List (Addr × List Byte)) (n : Nat) (h : s.Inv) : (putMoves s c n l).Inv := by
  induction l generalizing s n with
  | nil => exact finishCopy_inv h
  | cons w r ih =>
    unfold putMoves
    split
    · exact copyFault_inv (inv_fst (engineKeys_inv h) ‹_›)
    · exact copyStop_inv (modCopy_inv (inv_fst (engineKeys_inv h) ‹_›))
    · exact ih _ (engineStore_inv (inv_fst (engineKeys_inv h) ‹_›))

/-- The keys of a move's sources, where it has any. -/
theorem sourcesOf_inv {p : Prop} [Decidable p] {l : List Addr} (h : s.Inv) :
    (if p then moveKeys s c sp k l else (s, .ok [])).1.Inv := by
  split
  · exact moveKeys_inv _ h
  · exact h

theorem moveAll_inv (h : s.Inv) : (moveAll s c).Inv := by
  unfold moveAll
  refine inv_ite (putMoves_inv _ _ h) ?_
  split
  · exact copyFault_inv (inv_fst (sourcesOf_inv h) ‹_›)
  · exact copyStop_inv (inv_fst (sourcesOf_inv h) ‹_›)
  · have hk := inv_fst (sourcesOf_inv h) ‹_›
    split
    exact putMoves_inv _ _ (modCopy_inv (inv_fst (moveData_inv hk) ‹_›))

theorem cpyIssue_inv (h : s.Inv) : OutInv (cpyIssue i s gid s1 g sl sh c cont) := by
  unfold cpyIssue
  refine outInv_ite (trapWord_inv h) ?_
  split
  · exact modSlot_inv h
  · have ht := takeLocks_inv h ‹_›
    split
    · exact ht
    · exact ht

theorem execCpy_inv {hd : Head} {dk ak : Triple} {len : Src} (h : s.Inv) : OutInv (execCpy hd dk ak len ssp pol dsp s) := by
  unfold execCpy
  refine gate_inv h fun _ _ _ _ _ _ h => ?_
  exact outInv_ite h (cpyIssue_inv h)

theorem execCpyCont_inv {hd : Head} {dk ak : Triple} {len : BitVec 8} (h : s.Inv) : OutInv (execCpyCont hd dk ak len ssp pol dsp s) := by
  unfold execCpyCont
  refine gate_inv h fun _ _ _ _ _ _ h => ?_
  exact outInv_ite (trapWord_inv h) (outInv_ite (modSlot_inv h) (cpyIssue_inv h))

theorem execCpyComplete_inv (h : s.Inv) : OutInv (execCpyComplete id s) := by
  unfold execCpyComplete
  split
  · exact h
  · exact outInv_ite h (outInv_ite (finishCopy_inv h) (moveAll_inv h))

theorem copyIssue_inv (h : s.Inv) : OutInv (copyIssue s pid p c ls) := by
  unfold copyIssue
  refine outInv_ite h (outInv_ite h ?_)
  split
  · exact h
  · have ht := takeLocks_inv h ‹_›
    exact ht

theorem blockWord_inv (h : s.Inv) : OutInv (blockWord s w d a nn x dsp ssp pol) :=
  progGate_inv fun pid p => by
    extract_lets r c
    split
    · exact progFault_inv h
    · exact copyIssue_inv h

theorem indexWord_inv (h : s.Inv) : OutInv (indexWord s w ck d a nn x dsp ssp pol) :=
  progGate_inv fun pid p => by
    extract_lets c
    refine outInv_ite h (outInv_ite (progFault_inv h) ?_)
    split
    · exact progFault_inv h
    · exact copyIssue_inv h

theorem execCacc_inv {tile : BitVec 3} (h : s.Inv) : OutInv (execCacc w d a nn x dsp ssp pol tile s) :=
  progGate_inv fun pid p => by
    extract_lets v row quad count pitch c
    refine outInv_ite (progFault_inv h) (outInv_ite (progFault_inv h) (outInv_ite (progFault_inv h) ?_))
    split
    · exact progFault_inv h
    · exact outInv_ite (progFault_inv h) (copyIssue_inv h)

theorem execCfill_inv (h : s.Inv) : OutInv (execCfill w d a nn dsp pol s) :=
  progGate_inv fun pid p => by
    extract_lets c
    split
    · exact progFault_inv h
    · exact copyIssue_inv h

theorem execCwait_inv (h : s.Inv) : OutInv (execCwait w a nn ssp pol s) :=
  progGate_inv fun pid p => by
    extract_lets ea
    refine outInv_ite (progFault_inv h) ?_
    split
    · exact progFault_inv (inv_fst (engineKeys_inv h) ‹_›)
    · exact stopProg_inv (inv_fst (engineKeys_inv h) ‹_›)
    · have hk := inv_fst (engineKeys_inv h) ‹_›
      exact outInv_ite hk h

theorem execCcoll_inv {scope : BitVec 3} (h : s.Inv) : OutInv (execCcoll w d a nn x dsp ssp pol op scope s) :=
  progGate_inv fun pid p => by
    extract_lets v parts kind c
    refine outInv_ite (progFault_inv h) ?_
    split
    · exact progFault_inv h
    · exact copyIssue_inv h

theorem readIndices_inv (h : s.Inv) : (readIndices s c).Inv := by
  unfold readIndices
  split
  · exact copyFault_inv (inv_fst (moveKeys_inv _ h) ‹_›)
  · exact copyStop_inv (inv_fst (moveKeys_inv _ h) ‹_›)
  · have hk := inv_fst (moveKeys_inv _ h) ‹_›
    split
    have hr := inv_fst (readMoves_inv _ hk) ‹_›
    extract_lets c'
    split
    · exact copyFault_inv hr
    · split
      · exact h
      · exact modCopy_inv (takeLocks_inv (dropLocks_inv hr) ‹_›)

theorem collKeys_inv (l : List CopyOp) (h : s.Inv) : (collKeys s l).1.Inv := by
  induction l generalizing s with
  | nil => exact h
  | cons c r ih =>
    unfold collKeys
    split
    · exact inv_fst (moveKeys_inv _ h) ‹_›
    · have hk := ih (inv_fst (moveKeys_inv _ h) ‹_›)
      split
      · exact inv_fst hk ‹_›
      · exact inv_fst hk ‹_›

theorem collRead_inv (l : List (CopyOp × List (List Nat))) (h : s.Inv) : (collRead s l).1.Inv := by
  induction l generalizing s with
  | nil => exact h
  | cons x r ih => exact ih (readMoves_inv _ h)

theorem collTake_inv (h : s.Inv) : (collTake s kind root r c).Inv := by
  unfold collTake
  extract_lets bytes u c'
  have hu : u.Inv := by
    dsimp only [u]
    split
    · exact inv_ite h h
    · exact h
  exact putMoves_inv _ _ (modCopy_inv hu)

theorem collMove_inv (h : s.Inv) : (collMove s op kind root ps).Inv := by
  unfold collMove
  split
  · exact copyFault_inv (inv_fst (collKeys_inv _ h) ‹_›)
  · exact copyStop_inv (inv_fst (collKeys_inv _ h) ‹_›)
  · have hk := inv_fst (collKeys_inv _ h) ‹_›
    split
    exact inv_foldl _ (inv_fst (collRead_inv _ hk) ‹_›) fun _ _ ht => collTake_inv ht

theorem collStep_inv (h : s.Inv) : (collStep s c).Inv := by
  unfold collStep
  split
  · exact inv_ite (inv_foldl _ h fun _ _ ht => copyFault_inv ht) (inv_ite (collMove_inv h) h)
  · exact h

theorem execCopyOperationComplete_inv (h : s.Inv) : OutInv (execCopyOperationComplete id s) := by
  unfold execCopyOperationComplete
  split
  · exact h
  · refine outInv_ite h (outInv_ite (finishCopy_inv h) ?_)
    split
    · exact collStep_inv h
    · refine outInv_ite (readIndices_inv h) ?_
      split
      · exact moveAll_inv h
      · exact h
      · exact modCopy_inv h

end

end Sys2Proof.Machine
end

section
namespace Sys2Proof.Machine

/-! #### Lane arithmetic (Machine/Alu.lean to Machine/Convert.lean) -/

section
variable {s t : State} {i : Instr} {w n : Nat} {a b : Src} {hd : Head} {rm : BitVec 3} {d : Dst} {op : BitVec 4} {sg max : Bool}

theorem intUn_inv {f : BitVec w → BitVec n} (h : s.Inv) : OutInv (intUn i s w a f) := runV_inv h

theorem intBin_inv {f : BitVec w → BitVec w → BitVec w} (h : s.Inv) : OutInv (intBin i s w a b f) := runV_inv h

theorem fltBin_inv {f : RMode → FVal → FVal → Exact × FFlags} (h : s.Inv) : OutInv (fltBin i s hd a b rm f) := runF_inv h

theorem fltUn_inv {f : UnFn} (h : s.Inv) : OutInv (fltUn i s hd a rm f) := runF_inv h

theorem fltMinMax_inv (h : s.Inv) : OutInv (fltMinMax i s hd a b max) := runF_inv h

theorem execNop_inv (h : s.Inv) : OutInv (execNop hd s) := gate_inv h fun _ _ _ _ _ _ h => h

theorem execMaskWrite_inv {beat : BitVec 2} {imm : BitVec 32} (h : s.Inv) : OutInv (execMaskWrite hd beat imm s) :=
  gate_inv h fun _ _ _ _ _ _ h => h

theorem execVote_inv {p : PDst} (h : s.Inv) : OutInv (execVote hd p a op s) := gate_inv h fun _ _ _ _ _ _ h => h

theorem execVoteBallot_inv {k : BitVec 8} (h : s.Inv) : OutInv (execVoteBallot hd k a s) := gate_inv h fun _ _ _ _ _ _ h => h

theorem execFsetp_inv {p : PDst} (h : s.Inv) : OutInv (execFsetp hd p a b op s) := gate_inv h fun _ _ _ _ _ _ h => finishF_inv h

theorem execRedx_inv (h : s.Inv) : OutInv (execRedx hd d a op rm sg s) := by
  unfold execRedx
  refine outInv_ite ?_ (runV_inv h)
  exact gate_inv h fun _ _ _ _ _ _ h => outInv_ite h (finishF_inv h)

theorem execBlkq_inv {d a : BitVec 9} {b : Option Src} {ef sf : BitVec 3} (h : s.Inv) : OutInv (execBlkq hd d a b ef sf rm s) :=
  gate_inv h fun s gid s1 g sl sh h => by
    extract_lets m f elems r u
    have hu : u.Inv := inv_ite h h
    exact finishF_inv hu

end

/-! #### The matrix unit (Machine/Matrix.lean) -/

section
variable {s t : State} {gid quad pid tile team : Nat} {s1 : Bool} {g : Group} {sh : Shape} {t2 : BitVec 2} {w0 : Word32} {f : Feed} {i : Instr} {b : Src}
  {fits : Word32 → Bool} {hd : Head} {p : Prog} {kind : MxKind} {latch : Option (Nat × BitVec 4)} {d : Dst} {t3 : BitVec 3}

theorem feedLand_inv (h : s.Inv) : OutInv (feedLand s gid s1 g sh t2 w0 f) := outInv_ite h h

/-- The state that the reading of a feed's operands leaves has the form, whether it traps or not. -/
def FeedInv : Except State (State × Group × Feed) → Prop
  | .error t => t.Inv
  | .ok x => x.1.Inv

theorem feedWith_inv {f : State → Nat → Bool → Group → Slot → Shape → Mask → Word32 → Except State (State × Group × Feed)} (h : s.Inv)
    (hf : ∀ s gid s1 g sl sh m w, s.Inv → FeedInv (f s gid s1 g sl sh m w)) : OutInv (feedWith i t2 b fits f s) :=
  gate_inv h fun s gid s1 g sl sh h => by
    extract_lets m fw
    split
    · exact feedLand_inv h
    · exact h
    · rename_i l0 _ _
      split
      · exact trapWord_inv h
      · have hx := hf s gid s1 g sl sh m (fw l0) h
        generalize f s gid s1 g sl sh m (fw l0) = x at hx ⊢
        cases x with
        | error t => exact hx
        | ok x => exact feedLand_inv hx

theorem feedWord_inv {f : State → Group → Slot → Mask → Word32 → Feed} (h : s.Inv) : OutInv (feedWord i t2 b fits f s) :=
  feedWith_inv h fun _ _ _ _ _ _ _ _ h => h

theorem execMfeedQ_inv {row : BitVec 6} {a : BitVec 9} (h : s.Inv) : OutInv (execMfeedQ hd t2 row a b s) := by
  unfold execMfeedQ
  refine feedWith_inv h fun s gid s1 g sl sh m w h => ?_
  extract_lets md elems r u fl t g1 rows
  have hu : u.Inv := inv_ite h h
  clear_value u
  split
  · exact trapWord_inv hu
  · exact hu

theorem execMwm_inv (h : s.Inv) : OutInv (execMwm hd d t3 s) := gate_inv h fun _ _ _ _ _ _ h => h

theorem startOp_inv (h : s.Inv) : (startOp s quad pid p kind tile team latch).Inv := h

theorem execMatrixOpStart_inv (h : s.Inv) : OutInv (execMatrixOpStart quad s) := by
  unfold execMatrixOpStart
  extract_lets q
  split
  · split
    · exact h
    · refine outInv_ite h ?_
      split
      · exact startOp_inv h
      · extract_lets ea
        split
        · exact progFault_inv h
        · exact outInv_ite h (startOp_inv h)
      · extract_lets x
        split
        · exact h
        · refine outInv_ite h (outInv_ite (progFault_inv h) ?_)
          split
          · exact progFault_inv h
          · split
            · exact progFault_inv h
            · exact outInv_ite h (startOp_inv h)
      · exact h
  · exact h

theorem execRowGroupDone_inv (h : s.Inv) : OutInv (execRowGroupDone quad s) := by
  unfold execRowGroupDone
  extract_lets q
  split
  · exact h
  · exact h

theorem reachOp_inv (h : s.Inv) : OutInv (reachOp i s) :=
  progGate_inv fun pid p => by
    extract_lets q
    split
    · exact h
    · exact h

theorem execMwaitAt_inv (h : s.Inv) : OutInv (execMwaitAt t2 s) := progGate_inv fun _ _ => outInv_ite h h

theorem execMwaitAcc_inv (h : s.Inv) : OutInv (execMwaitAcc t3 s) :=
  progGate_inv fun pid p => by
    split
    · exact outInv_ite h h
    · exact h

theorem execMrel_inv (h : s.Inv) : OutInv (execMrel t2 s) := progGate_inv fun _ _ => h

end

end Sys2Proof.Machine
end

section
namespace Sys2Proof.Machine

/-! #### The stepper (Machine/Stepper.lean) -/

section
variable {s t : State} {gid c core tid n role agent first : Nat} {s1 engine : Bool} {x : StepCtx} {b : Binding} {k : AccessKind} {a : Addr}
  {ks y vs : List Nat} {bs : List Byte} {asg : Asg} {tb : Tableau} {hs : Word64} {e : PageFault × Addr} {o : StepOp} {sc : StepCall} {g : Group}
  {team : Team} {i : Instr} {hd : Head} {sl : Slot} {sh : Shape} {cause : BitVec 8} {agents : Mask} {sp : Space} {w : Bool × Bool} {ctr : BitVec 2}
  {scope sp3 : BitVec 3} {ends : Option Bool} {d : Triple}

theorem bindKeys_inv (h : s.Inv) : (bindKeys s c core x b k a n).1.Inv := by
  unfold bindKeys
  split
  · exact h
  · exact xlateBytes_inv h

theorem readVec_inv (h : s.Inv) : (readVec s c core x b a n).1.Inv := by
  unfold readVec
  split
  · exact inv_fst (bindKeys_inv h) ‹_›
  · exact engineRead_inv (inv_fst (bindKeys_inv h) ‹_›)

theorem ctxStore_inv (h : s.Inv) : (x.store s gid c core a ks bs).Inv := engineStore_inv (nextId_inv h)

theorem writeVec_inv (h : s.Inv) : (writeVec s gid c core x b a vs).1.Inv := by
  unfold writeVec
  split
  · exact inv_fst (bindKeys_inv h) ‹_›
  · exact ctxStore_inv (inv_fst (bindKeys_inv h) ‹_›)

theorem readVecs_inv (l : List (FVal × Addr)) (h : s.Inv) : (readVecs s c core x b l).1.Inv := by
  induction l generalizing s with
  | nil => exact h
  | cons p r ih =>
    unfold readVecs
    split
    · exact inv_fst (readVec_inv h) ‹_›
    · have hr := ih (inv_fst (readVec_inv h) ‹_›)
      split
      · exact inv_fst hr ‹_›
      · exact inv_fst hr ‹_›

theorem runAsg_inv (h : s.Inv) : (runAsg s gid c core x b asg).1.Inv := by
  unfold runAsg
  split
  · split
    · exact inv_fst (readVec_inv h) ‹_›
    · exact writeVec_inv (inv_fst (readVec_inv h) ‹_›)
  · split
    · exact inv_fst (readVecs_inv _ h) ‹_›
    · exact writeVec_inv (inv_fst (readVecs_inv _ h) ‹_›)

theorem runAsgs_inv (l : List Asg) (h : s.Inv) : (runAsgs s gid c core x b l).1.Inv := by
  induction l generalizing s with
  | nil => exact h
  | cons a r ih =>
    unfold runAsgs
    split
    · exact inv_fst (runAsg_inv h) ‹_›
    · exact ih (inv_fst (runAsg_inv h) ‹_›)

theorem setCtx_inv (h : s.Inv) : (setCtx s c x).Inv := h

theorem beginAttempt_inv (h : s.Inv) : (beginAttempt s c x tb).Inv := inv_ite (stopRun_inv (setCtx_inv h)) (setCtx_inv h)

theorem rejectStep_inv (h : s.Inv) : (rejectStep s c x tb hs).Inv := beginAttempt_inv h

theorem ctxPark_inv (h : s.Inv) : (ctxPark s c x e).Inv := by
  unfold ctxPark
  extract_lets r
  split
  exact setCtx_inv (inv_fst (stopRecord_inv h) ‹_›)

theorem afterComb_inv (h : s.Inv) : (afterComb s c core x tb b y o).Inv := by
  unfold afterComb
  extract_lets go part
  have hg : ∀ p, (go p).Inv := fun _ => setCtx_inv h
  split
  · exact hg _
  · exact hg _
  · exact setCtx_inv h
  · exact hg _
  · exact hg _
  · exact inv_ite (hg _) (hg _)
  · exact hg _
  · exact hg _
  · split
    · exact ctxPark_inv (inv_fst (readVec_inv h) ‹_›)
    · have hr := inv_fst (readVec_inv h) ‹_›
      extract_lets nrm
      split
      · exact setCtx_inv hr
      · exact setCtx_inv hr
      · exact rejectStep_inv hr
  · split
    · exact ctxPark_inv (inv_fst (readVecs_inv _ h) ‹_›)
    · have hr := inv_fst (readVecs_inv _ h) ‹_›
      split
      · exact ctxPark_inv (inv_fst (readVec_inv hr) ‹_›)
      · have hy := inv_fst (readVec_inv hr) ‹_›
        exact inv_ite (inv_ite (stopRun_inv hy) (setCtx_inv hy)) (inv_ite (setCtx_inv hy) (rejectStep_inv hy))
  · exact inv_ite (stopRun_inv (setCtx_inv h)) (inv_ite (stopRun_inv (setCtx_inv h)) (beginAttempt_inv h))
  · exact stopRun_inv (setCtx_inv h)

theorem afterCall_inv (h : s.Inv) : (afterCall s c core x tb b sc).Inv := by
  unfold afterCall
  extract_lets x' events
  have he : ∀ f, (∀ s x g, s.Inv → (f s x g).Inv) → (events f).Inv := by
    intro f hf
    dsimp only [events]
    split
    · exact ctxPark_inv (inv_fst (readVec_inv h) ‹_›)
    · have hr := inv_fst (readVec_inv h) ‹_›
      exact inv_ite (stopRun_inv hr) (hf _ _ _ hr)
  clear_value events
  refine inv_ite (stopRun_inv h) ?_
  split
  · exact inv_ite (setCtx_inv h) (inv_ite (setCtx_inv h) (setCtx_inv h))
  · exact setCtx_inv h
  · exact he _ fun _ _ _ ht => setCtx_inv ht
  · refine he _ fun _ _ _ ht => ?_
    extract_lets ref
    split
    · exact setCtx_inv ht
    · exact setCtx_inv ht
  · refine he _ fun _ _ _ ht => ?_
    split
    · exact setCtx_inv ht
    · exact ht

theorem execStepCallDeliver_inv (h : s.Inv) : OutInv (execStepCallDeliver c s) := by
  unfold execStepCallDeliver
  split
  · exact h
  · split
    · exact outInv_ite (stopRun_inv h) (outInv_ite h (inv_foldl _ (setCtx_inv h) fun _ _ ht => giveCall_inv ht))
    · exact h

theorem execStepCombinationDone_inv (h : s.Inv) : OutInv (execStepCombinationDone c s) := by
  unfold execStepCombinationDone
  split
  · exact h
  · split
    · refine outInv_ite h ?_
      split
      · split
        · exact ctxPark_inv (inv_fst (readVec_inv h) ‹_›)
        · have hr := inv_fst (readVec_inv h) ‹_›
          split
          · exact ctxPark_inv (inv_fst (runAsgs_inv _ hr) ‹_›)
          · exact afterComb_inv (inv_fst (runAsgs_inv _ hr) ‹_›)
      · exact outInv_ite (afterCall_inv h) h
      · exact h
    · exact h

theorem takeCtx_inv {r : Nat × StepCtx} (h : s.Inv) (he : takeCtx s tid team g = some (t, r)) : t.Inv := by
  unfold takeCtx at he
  split at he
  · obtain ⟨x, -, hx⟩ := Option.map_eq_some_iff.1 he
    cases hx
    exact h
  · extract_lets at he
    split at he
    · cases he
    · cases he
      exact h

theorem stepWord_inv {f : State → Nat → Bool → Group → Slot → Shape → Nat → StepCtx → Out} (h : s.Inv)
    (hf : ∀ s gid s1 g sl sh c x, s.Inv → OutInv (f s gid s1 g sl sh c x)) : OutInv (stepWord i hd engine s f) :=
  gate_inv h fun s gid s1 g sl sh h => by
    extract_lets hold
    have hh : OutInv hold := modSlot_inv h
    refine outInv_ite h ?_
    split
    · refine outInv_ite hh ?_
      split
      · exact hh
      · exact hf _ _ _ _ _ _ _ _ (takeCtx_inv h ‹_›)
    · exact trapWord_inv h

theorem stepTrap_inv (h : s.Inv) : OutInv (stepTrap s gid s1 i g sl sh cause) := trapWord_inv h

theorem recordRead_inv (h : s.Inv) : (recordRead s gid g agents sp a n).1.Inv := by
  unfold recordRead
  split
  · exact h
  · split
    · exact inv_fst (laneKeys_inv h) ‹_›
    · exact noteRead_inv (fetchAll_inv (inv_fst (laneKeys_inv h) ‹_›))

theorem stepRead_inv (h : s.Inv) : (stepRead s gid g agents sp a n).1.Inv := by
  unfold stepRead
  split
  · exact h
  · exact recordRead_inv h

theorem stepReading_inv {f : State → List Byte → Out} (h : s.Inv) (hf : ∀ s bs, s.Inv → OutInv (f s bs)) :
    OutInv (stepReading s gid s1 i g sl sh x sp3 a n f) := by
  unfold stepReading
  refine outInv_ite (stepTrap_inv h) ?_
  split
  · exact stepTrap_inv (inv_fst (stepRead_inv h) ‹_›)
  · exact parkSlot_inv (inv_fst (stepRead_inv h) ‹_›)
  · exact hf _ _ (inv_fst (stepRead_inv h) ‹_›)

theorem execStepLdtab_inv (h : s.Inv) : OutInv (execStepLdtab hd d sp3 s) := by
  unfold execStepLdtab
  refine stepWord_inv h fun s gid s1 g sl sh c x h => ?_
  refine stepReading_inv h fun s bs h => ?_
  exact outInv_ite h (stepReading_inv h fun s bs h => h)

theorem execStepBind_inv (h : s.Inv) : OutInv (execStepBind hd d sp3 s) := by
  unfold execStepBind
  exact stepWord_inv h fun s gid s1 g sl sh c x h => stepReading_inv h fun s bs h => h

theorem refuseWait_inv (h : s.Inv) : (refuseWait s gid w).Inv := by
  unfold refuseWait
  split
  · exact h
  · extract_lets ctr u sl
    have hu : u.Inv := ctrDown_inv h
    clear_value u
    split
    · split
      · exact inv_ite hu (trapWord_inv hu)
      · exact hu
    · exact hu

theorem checkRoles_inv (h : s.Inv) : (checkRoles s tid role).Inv := inv_foldl _ h fun _ _ ht => refuseWait_inv ht

theorem execStepRun_inv (h : s.Inv) : OutInv (execStepRun hd d sp3 s) := by
  unfold execStepRun
  refine stepWord_inv h fun s gid s1 g sl sh c x h => ?_
  refine stepReading_inv h fun s bs h => ?_
  extract_lets wds t0 te h0 x0 done
  have hd : ∀ {s}, s.Inv → OutInv (done s) := fun h => modGroup_inv h
  clear_value done
  refine outInv_ite (hd (stopRun_inv (setCtx_inv h))) (outInv_ite (hd (stopRun_inv (setCtx_inv h))) ?_)
  split
  · split
    · exact modSlot_inv h
    · have ht := takeLocks_inv h ‹_›
      exact beginAttempt_inv (checkRoles_inv (modGroup_inv (setCtx_inv ht)))
  · exact hd h

theorem execStepWait_inv (h : s.Inv) : OutInv (execStepWait hd s) := by
  unfold execStepWait
  refine stepWord_inv h fun s gid s1 g sl sh c x h => ?_
  extract_lets take hold
  have ht : ∀ {s} put, s.Inv → OutInv (take s put) := fun _ h => l1Invalidate_inv h
  have hh : OutInv hold := ctrUp_inv (modSlot_inv h)
  clear_value take hold
  refine outInv_ite (stepTrap_inv h) ?_
  split
  · exact ht _ h
  · exact outInv_ite (ht _ (setCtx_inv h)) hh
  · exact hh

theorem execStepDone_inv (h : s.Inv) : OutInv (execStepDone hd s) := by
  unfold execStepDone
  refine stepWord_inv h fun s gid s1 g sl sh c x h => ?_
  exact outInv_ite (stepTrap_inv h) h

theorem stepAcquire_inv (h : s.Inv) : (stepAcquire s gid g ctr scope agent first ends).Inv := by
  unfold stepAcquire
  split
  have hn := inv_snd (nextId_inv h) ‹_›
  extract_lets more f u
  have hu : u.Inv := ctrUp_inv hn
  refine settleFences_inv ?_
  split
  · exact modSlot_inv hu
  · exact hu

theorem execStepQry_inv {q : Src} (h : s.Inv) : OutInv (execStepQry hd d q s) := by
  unfold execStepQry
  refine stepWord_inv h fun s gid s1 g sl sh c x h => ?_
  extract_lets dst m
  split
  · split
    · exact stepTrap_inv h
    · refine outInv_ite (stepTrap_inv h) ?_
      extract_lets asg
      split
      · exact parkGroup_inv (inv_fst (runAsg_inv h) ‹_›)
      · exact stepAcquire_inv (inv_fst (runAsg_inv h) ‹_›)
  · exact stepTrap_inv h

theorem execStepStat_inv (h : s.Inv) : OutInv (execStepStat hd d sp3 s) := by
  unfold execStepStat
  refine stepWord_inv h fun s gid s1 g sl sh c x h => ?_
  extract_lets dst space
  refine outInv_ite (stepTrap_inv h) (outInv_ite (stepTrap_inv h) ?_)
  split
  · exact parkGroup_inv (inv_fst (laneKeys_inv h) ‹_›)
  · exact stepAcquire_inv (ctxStore_inv (inv_fst (laneKeys_inv h) ‹_›))

theorem execStepStop_inv (h : s.Inv) : OutInv (execStepStop hd s) :=
  stepWord_inv h fun s gid s1 g sl sh c x h => by
    extract_lets u
    have hu : u.Inv := h
    refine outInv_ite hu ?_
    split
    · exact setCtx_inv hu
    · exact stopRun_inv hu

end

end Sys2Proof.Machine
end

section
namespace Sys2Proof.Machine

/-! #### Control transfers (Machine/Control.lean) -/

section
variable {s t : State} {gid pushes : Nat} {s1 parked splits skip wait : Bool} {i : Instr} {sh : Shape} {c : BitVec 8} {m tm mis : Mask} {g : Group}
  {cs : List Class} {k : AccessKind} {depth : Lane → Nat} {n : Nat} {fs : List (Nat × Addr)} {ret : Addr} {sl : Slot} {reconv : BitVec 16}
  {go : Group → Group} {hd : Head} {addr : Lane → Addr} {a : Src} {count : Option Src} {check : Group → Frame → Option (BitVec 8)}
  {sub : State → Group → Slot → Frame → Group → Group} {target : BitVec 22} {hint ug : Bool}

theorem trapTransfer_inv (h : s.Inv) : OutInv (trapTransfer s gid s1 i sh c m) := trapWord_inv h

theorem landThen_inv {o : Out} (h : s.Inv) (ho : OutInv o) : OutInv (landThen s gid s1 i sh g cs o) := outInv_ite ho (trapTransfer_inv h)

theorem landGate_inv {f : State → Nat → Bool → Group → Slot → Shape → Out} (h : s.Inv)
    (hf : ∀ s gid s1 g sl sh, s.Inv → OutInv (f s gid s1 g sl sh)) : OutInv (landGate i s f) := by
  unfold landGate
  split
  · split
    · exact landThen_inv h (gate_inv h hf)
    · exact gate_inv h hf
  · exact gate_inv h hf

theorem frameKeys_inv (h : s.Inv) : (frameKeys s gid s1 g k depth n m).1.Inv := deviceKeys_inv h

theorem keepFrames_inv (h : s.Inv) : (keepFrames s gid s1 parked fs).Inv := inv_ite (modSlot_inv h) h

theorem pushFrames_inv (h : s.Inv) : (pushFrames s gid s1 g m ret).1.Inv := by
  unfold pushFrames
  split
  exact keepFrames_inv (putAll_inv _ (inv_fst (frameKeys_inv h) ‹_›))

theorem readFrames_inv (h : s.Inv) : (readFrames s gid s1 g m).1.Inv := by
  unfold readFrames
  split
  exact keepFrames_inv (inv_foldl _ (inv_fst (frameKeys_inv h) ‹_›) fun _ _ ht => fetchAll_inv ht)

theorem callWith_inv (h : s.Inv) : OutInv (callWith s gid s1 sl i sh reconv tm mis splits pushes go) := by
  unfold callWith
  split
  · exact h
  · extract_lets ret past
    have ht : ∀ {c m}, OutInv (trapTransfer s gid s1 i sh c m) := trapTransfer_inv h
    refine outInv_ite ht (outInv_ite h (outInv_ite ht (outInv_ite ht (outInv_ite ht (outInv_ite ht ?_)))))
    split
    have hp := inv_fst (pushFrames_inv h) ‹_›
    exact outInv_ite hp (putPaths_inv hp)

theorem examined_inv (h : s.Inv) : (s.examined gid s1).Inv := by
  unfold State.examined
  split
  · exact h
  · exact putPaths_inv h

theorem retGate_inv {f : State → Nat → Bool → Group → Slot → Shape → Out} (h : s.Inv)
    (hf : ∀ s gid s1 g sl sh, s.Inv → OutInv (f s gid s1 g sl sh)) : OutInv (retGate i hd s f) := by
  unfold retGate
  split
  · split
    · extract_lets sl m back
      refine outInv_ite (gate_inv h hf) ?_
      split
      · exact gate_inv h hf
      · exact outInv_ite (gate_inv h hf) (trapTransfer_inv h)
    · exact gate_inv h hf
  · exact gate_inv h hf

theorem returnLanes_inv (h : s.Inv) : OutInv (returnLanes i s gid s1 g sl sh m addr) := by
  unfold returnLanes
  extract_lets ex back own cs bad
  refine outInv_ite (trapTransfer_inv h) ?_
  split
  · exact trapTransfer_inv h
  · refine outInv_ite (trapTransfer_inv h) (withStack_inv h fun s g h => ?_)
    exact inv_ite (examined_inv (putPaths_inv h)) (exitLanes_inv (putPaths_inv h))

theorem exitWord_inv (h : s.Inv) : OutInv (exitWord i s gid s1 g sl sh m) := by
  unfold exitWord
  refine outInv_ite h ?_
  split
  · exact trapTransfer_inv h
  · exact withStack_inv h fun _ _ h => exitLanes_inv h

theorem barWord_inv (h : s.Inv) : OutInv (barWord i hd a count wait s) :=
  gate_inv h fun s gid s1 g sl sh h => by
    extract_lets m fail
    have hf : ∀ c, OutInv (fail c) := fun _ => trapWord_inv h
    refine outInv_ite h ?_
    split
    · extract_lets after
      clear_value after
      split
      · exact hf _
      · exact releaseBars_inv (settleBar_inv h)
    · exact hf _

theorem rttWord_inv (h : s.Inv) : OutInv (rttWord i hd skip check sub s) :=
  gate_inv h fun s gid s1 g sl sh h => by
    refine outInv_ite h ?_
    split
    · refine outInv_ite (trapTransfer_inv h) ?_
      split
      · exact trapTransfer_inv h
      · exact modGroup_inv (leaveTrap_inv h)
    · exact trapTransfer_inv h

theorem execBra_inv (h : s.Inv) : OutInv (execBra hd target reconv hint s) := by
  unfold execBra
  refine landGate_inv h fun s gid s1 g sl sh h => ?_
  exact outInv_ite (trapTransfer_inv h) (outInv_ite (trapTransfer_inv h) (putPaths_inv h))

theorem execBraUniform_inv (h : s.Inv) : OutInv (execBraUniform hd target reconv hint s) := by
  unfold execBraUniform
  exact landGate_inv h fun s gid s1 g sl sh h => h

theorem execBrx_inv (h : s.Inv) : OutInv (execBrx hd a reconv hint ug s) := by
  unfold execBrx
  refine landGate_inv h fun s gid s1 g sl sh h => ?_
  refine outInv_ite h (landThen_inv h ?_)
  exact outInv_ite (trapTransfer_inv h) (outInv_ite (trapTransfer_inv h) (outInv_ite (trapTransfer_inv h) (putPaths_inv h)))

theorem execCall_inv (h : s.Inv) : OutInv (execCall hd target reconv hint s) := by
  unfold execCall
  exact landGate_inv h fun s gid s1 g sl sh h => callWith_inv h

theorem execCallUniform_inv (h : s.Inv) : OutInv (execCallUniform hd target reconv hint s) := by
  unfold execCallUniform
  exact landGate_inv h fun s gid s1 g sl sh h => callWith_inv h

theorem execCallx_inv (h : s.Inv) : OutInv (execCallx hd a reconv hint ug s) := by
  unfold execCallx
  exact landGate_inv h fun s gid s1 g sl sh h => landThen_inv h (callWith_inv h)

theorem execRet_inv (h : s.Inv) : OutInv (execRet hd s) := by
  unfold execRet
  refine retGate_inv h fun s gid s1 g sl sh h => ?_
  extract_lets m
  refine outInv_ite h ?_
  split
  · exact inv_fst (readFrames_inv h) ‹_›
  · exact returnLanes_inv (inv_fst (readFrames_inv h) ‹_›)

theorem execJoin_inv (h : s.Inv) : OutInv (execJoin s) :=
  gate_inv h fun s gid s1 g sl sh h => withStack_inv h fun s g h => by
    split
    · exact h
    · exact putPaths_inv h

theorem execExit_inv (h : s.Inv) : OutInv (execExit hd s) := gate_inv h fun _ _ _ _ _ _ h => exitWord_inv h

theorem execExitUniform_inv (h : s.Inv) : OutInv (execExitUniform hd s) := gate_inv h fun _ _ _ _ _ _ h => exitWord_inv h

theorem execYield_inv (h : s.Inv) : OutInv (execYield hd s) := gate_inv h fun _ _ _ _ _ _ h => h

theorem execSleep_inv (h : s.Inv) : OutInv (execSleep hd a s) := gate_inv h fun _ _ _ _ _ _ h => h

theorem execSleepExpiry_inv (h : s.Inv) : OutInv (execSleepExpiry gid s1 s) := modSlot_inv h

theorem execTrap_inv (h : s.Inv) : OutInv (execTrap hd a s) := gate_inv h fun _ _ _ _ _ _ h => outInv_ite h (trapWord_inv h)

theorem execBkpt_inv (h : s.Inv) : OutInv (execBkpt hd a s) :=
  gate_inv h fun s gid s1 g sl sh h => by
    extract_lets m code lanes tr
    exact outInv_ite h (outInv_ite (haltGroup_inv h) (trapWord_inv h))

end

/-! #### Tasks, budgets and regions (Machine/Tasks.lean) -/

section
variable {s t : State} {gid die core quad fuel : Nat} {s1 : Bool} {i : Instr} {g : Group} {sl : Slot} {sh : Shape} {m : Mask} {ts : List Spawn} {hd : Head}
  {n : Src} {role : Option Src} {k : AccessKind} {c : Claim} {r : Region} {a : Src}

theorem spawnWord_inv (h : s.Inv) : OutInv (spawnWord i s gid s1 g sl sh m ts) := by
  unfold spawnWord
  extract_lets bad idx log now arg
  refine outInv_ite (trapWord_inv h) (outInv_ite (trapWord_inv h) (outInv_ite (modSlot_inv h) ?_))
  split
  have hk := inv_fst (deviceKeys_inv h) ‹_›
  refine outInv_ite hk ?_
  split
  · exact inv_fst (regionEffect_inv hk) ‹_›
  · have hp := putAll_inv (w := fun p => g.deviceWriter gid (oneLane p.1))
      (bs := fun p => toBytes (g.spawns[(Fin.ofNat 96 p.1 : Lane)] + 1#32) 4) ‹_› (inv_fst (regionEffect_inv hk) ‹_›)
    exact modGrid_inv (inv_ite hp (pushTasks_inv hp))

theorem execSpawn_inv {f : BitVec 9} (h : s.Inv) : OutInv (execSpawn hd a f s) := by
  unfold execSpawn
  refine gate_inv h fun s gid s1 g sl sh h => ?_
  exact outInv_ite h (spawnWord_inv h)

theorem execSpawnUniform_inv {a b : BitVec 8} (h : s.Inv) : OutInv (execSpawnUniform hd a b s) := by
  unfold execSpawnUniform
  refine gate_inv h fun s gid s1 g sl sh h => ?_
  exact outInv_ite h (spawnWord_inv h)

theorem execTend_inv (h : s.Inv) : OutInv (execTend hd s) := by
  unfold execTend
  refine gate_inv h fun s gid s1 g sl sh h => ?_
  exact outInv_ite (trapWord_inv h) (exitWord_inv h)

theorem budgetTrap_inv (h : s.Inv) : OutInv (budgetTrap s gid s1 i g sl sh) := trapWord_inv h

theorem execClaim_inv (h : s.Inv) : OutInv (execClaim hd n s) := by
  unfold execClaim
  refine gate_inv h fun s gid s1 g sl sh h => ?_
  exact outInv_ite h (outInv_ite (budgetTrap_inv h) h)

theorem giveWord_inv (h : s.Inv) : OutInv (giveWord i hd n role s) :=
  gate_inv h fun s gid s1 g sl sh h => by
    extract_lets m k r q
    exact outInv_ite h (outInv_ite (trapWord_inv h) (outInv_ite (budgetTrap_inv h) (outInv_ite (modSlot_inv h) h)))

theorem unitKeys_inv (l : List (Nat × Nat)) (h : s.Inv) : (unitKeys s g k l).1.Inv := by
  induction l generalizing s with
  | nil => exact h
  | cons p r ih =>
    unfold unitKeys
    split
    · exact inv_fst (xlateBytes_inv h) ‹_›
    · have hk := ih (inv_fst (xlateBytes_inv h) ‹_›)
      split
      · exact inv_fst hk ‹_›
      · exact inv_fst hk ‹_›

theorem evictGroup_inv (h : s.Inv) : (evictGroup s gid).Inv := by
  unfold evictGroup
  split
  · exact h
  · split
    · exact parkGroup_inv (inv_fst (unitKeys_inv _ h) ‹_›)
    · exact l1Flush_inv (inv_foldl _ (inv_fst (unitKeys_inv _ h) ‹_›) fun _ _ ht => lpPuts_inv ht)

theorem refillGroup_inv (h : s.Inv) : (refillGroup s gid).1.Inv := by
  unfold refillGroup
  split
  · exact h
  · split
    · exact h
    · split
      · exact parkGroup_inv (inv_fst (unitKeys_inv _ h) ‹_›)
      · have hu := inv_fst (unitKeys_inv _ h) ‹_›
        exact inv_foldl _ hu fun _ _ ht => fetchAll_inv ht

theorem grantClaim_inv (h : s.Inv) : (grantClaim s die core quad c).1.Inv := by
  unfold grantClaim
  extract_lets need
  split
  · exact inv_fst (refillGroup_inv h) ‹_›
  · have hr := inv_fst (refillGroup_inv h) ‹_›
    split
    · exact hr
    · exact hr

theorem settleClaims_inv (h : s.Inv) : (settleClaims s die core quad fuel).Inv := by
  induction fuel generalizing s with
  | zero => exact h
  | succ fuel ih =>
    unfold settleClaims
    split
    · split
      · exact ih (inv_fst (grantClaim_inv h) ‹_›)
      · exact inv_fst (grantClaim_inv h) ‹_›
    · split
      · exact ih (evictGroup_inv h)
      · exact h

theorem execClaimGrant_inv (h : s.Inv) : OutInv (execClaimGrant quad s) := settleClaims_inv h

theorem rewindSpawns_inv (h : s.Inv) : (rewindSpawns s gid g r).Inv := by
  unfold rewindSpawns
  extract_lets m
  split
  exact putAll_inv _ (inv_fst (xlateLanes_inv h) ‹_›)

theorem execRegionBegin_inv (h : s.Inv) : OutInv (execRegionBegin hd s) := by
  unfold execRegionBegin
  refine gate_inv h fun s gid s1 g sl sh h => ?_
  exact outInv_ite h (outInv_ite (trapWord_inv h) h)

theorem execRegionEnd_inv (h : s.Inv) : OutInv (execRegionEnd hd s) := gate_inv h fun _ _ _ _ _ _ h => h

theorem execDigestFold_inv (h : s.Inv) : OutInv (execDigestFold hd a s) := gate_inv h fun _ _ _ _ _ _ h => h

theorem execTagExpiry_inv (h : s.Inv) : OutInv (execTagExpiry quad s) := h

end

end Sys2Proof.Machine
end

section
namespace Sys2Proof.Machine

/-! #### The supervisor's words (Machine/System.lean) -/

section
variable {s t : State} {gid die core tenant grid n num id : Nat} {s1 sup : Bool} {i : Instr} {g : Group} {hd : Head} {a b : BitVec 8} {v seq : Word32}
  {sp : Space} {sc : BitVec 3} {agents : Mask} {ad : Addr} {src : Src} {d : Dst}

theorem wrsrOnce_inv {put : State → Nat → Group → Word32 → Option State} (h : s.Inv)
    (hp : ∀ s gid g v t, s.Inv → put s gid g v = some t → t.Inv) : OutInv (wrsrOnce i hd src s put) := by
  unfold wrsrOnce
  refine gate_inv h fun s gid s1 g sl sh h => ?_
  refine outInv_ite h ?_
  split
  · exact modGroup_inv (hp _ _ _ _ _ h ‹_›)
  · exact trapWord_inv h

/-- Each special register is a field of a group, a core, a die or a tenant, or `spinbase`; a few take their value under a condition. -/
theorem srPut_inv (h : s.Inv) (he : srPut s gid g num v = some t) : t.Inv := by
  unfold srPut at he
  extract_lets t d tenant die at he
  split at he
  all_goals (try split at he)
  all_goals cases he
  all_goals exact h

theorem launchRead_inv (h : s.Inv) : (launchRead s gid g agents sp ad n).1.Inv := by
  unfold launchRead
  split
  · exact h
  · exact recordRead_inv h

theorem readTokens_inv {stops : List (Nat × Word32)} (l : List Token) (h : s.Inv) : (readTokens s die tenant stops n l).1.Inv := by
  induction l generalizing s n with
  | nil => exact h
  | cons x r ih =>
    unfold readTokens
    split
    · exact ih h
    · split
      · exact ih h
      · split
        · have hx := inv_fst (xlateBytes_inv h) ‹_›
          exact ih (appendRecord_inv hx)
        · exact ih (inv_fst (xlateBytes_inv h) ‹_›)

theorem pollGrid_inv (h : s.Inv) : (pollGrid s grid).Inv := by
  unfold pollGrid
  split
  · exact h
  · split
    · exact h
    · exact modGrid_inv (readTokens_inv _ h)

theorem pollGrids_inv {p : Nat → Bool} (h : s.Inv) : (pollGrids s p).Inv := inv_foldl _ h fun _ _ h => pollGrid_inv h

theorem readSpinel_inv {det : Bool} (h : s.Inv) : (readSpinel s die det).1.Inv := by
  unfold readSpinel
  split
  · split
    · exact inv_fst (devRead_inv h) ‹_›
    · exact inv_fst (devRead_inv h) ‹_›
  · exact h

theorem enterGrid_inv {r : LaunchRec} (h : s.Inv) : (enterGrid s die tenant r).Inv := by
  unfold enterGrid
  extract_lets d num s1
  have h1 : s1.Inv := h
  clear_value s1
  split
  have hq := inv_fst (readSpinel_inv h1) ‹_›
  exact pollGrid_inv hq

theorem leaveWays_inv (h : s.Inv) : (leaveWays s die core n).Inv :=
  inv_foldl (f := fun s e => l1WriteBackLine s die core e) _ h fun _ _ h => l1WriteBackLine_inv h

theorem haltGrid_inv (h : s.Inv) : (haltGrid s grid).Inv := by
  unfold haltGrid
  split
  · exact h
  · extract_lets gone teams ctxs pids s1 s2 mine s3 s4 s5 d
    have h1 : s1.Inv := inv_foldl _ h fun _ _ h => dropOps_inv h
    have h2 : s2.Inv := inv_foldl _ h1 fun _ _ h => devWrite_inv h
    have h3 : s3.Inv := inv_foldl _ h2 fun _ _ h => dropLocks_inv h
    have h4 : s4.Inv := inv_foldl _ h3 fun _ _ h => stopRun_inv h
    exact settleFences_inv (settleOwners_inv h4)

theorem replayGroups_inv (h : s.Inv) : (replayGroups s seq).Inv :=
  inv_foldl _ h fun _ _ h => stackTransfers_inv _ (modGroup_inv h)

theorem replayAll_inv (h : s.Inv) : (replayAll s seq).Inv := by
  unfold replayAll
  extract_lets free stopped s1 s2 s3
  have h1 : s1.Inv := inv_foldl _ h fun _ _ h => modGroup_inv h
  exact inv_foldl _ (replayGroups_inv h1) fun _ _ h => pollGrid_inv (modGrid_inv h)

theorem efailAll_inv (h : s.Inv) : (efailAll s seq).Inv := by
  unfold efailAll
  extract_lets pids cs xs s1 s2 s3
  have h1 : s1.Inv := inv_foldl _ h fun _ _ h => progFault_inv h
  have h2 : s2.Inv := inv_foldl _ h1 fun _ _ h => copyFault_inv h
  have h3 : s3.Inv := inv_foldl _ h2 fun _ _ h => stopRun_inv h
  exact h3

theorem execRdsr_inv {num : BitVec 11} (h : s.Inv) : OutInv (execRdsr hd d num s) :=
  gate_inv h fun _ _ _ _ _ _ h => inv_ite h h

theorem execRdsrFpflags_inv (h : s.Inv) : OutInv (execRdsrFpflags hd d s) :=
  gate_inv h fun _ _ _ _ _ _ h => outInv_ite (modSlot_inv h) h

theorem execRdsrClock0_inv (h : s.Inv) : OutInv (execRdsrClock0 hd d s) := gate_inv h fun _ _ _ _ _ _ h => h

theorem execWrsrFpctl_inv (h : s.Inv) : OutInv (execWrsrFpctl hd src s) :=
  wrsrOnce_inv h fun s gid g v t h he => by
    split at he
    · cases he
      exact h
    · cases he

theorem execWrsrFpflags_inv (h : s.Inv) : OutInv (execWrsrFpflags hd src s) :=
  wrsrOnce_inv h fun s gid g v t h he => by
    cases he
    exact h

theorem execWrsrUtrap_inv {word : BitVec 2} (h : s.Inv) : OutInv (execWrsrUtrap hd word src s) :=
  wrsrOnce_inv h fun s gid g v t h he => by
    extract_lets u at he
    split at he
    · cases he
      exact h
    · cases he

theorem execMfqheadWrite_inv (h : s.Inv) : OutInv (execMfqheadWrite hd src s) :=
  wrsrOnce_inv h fun s gid g v t h he => by
    cases he
    exact h

theorem execWrsr_inv {num : BitVec 11} (h : s.Inv) : OutInv (execWrsr hd num src s) := by
  unfold execWrsr
  refine gate_inv h fun s gid s1 g sl sh h => ?_
  refine outInv_ite h ?_
  split
  · exact h
  · refine outInv_ite (modSlot_inv h) ?_
    split
    · exact modGroup_inv (srPut_inv h ‹_›)
    · exact trapWord_inv h

theorem execSysLaunch_inv {a : Triple} (h : s.Inv) : OutInv (execSysLaunch hd a src sc s) := by
  unfold execSysLaunch
  refine gate_inv h fun s gid s1 g sl sh h => ?_
  extract_lets lanes die space addr trap reading
  have hr : ∀ r k, r.1.Inv → (∀ s bs, s.Inv → OutInv (k s bs)) → OutInv (reading r k) := fun r k h hk => by
    dsimp only [reading, trap]
    split
    · exact trapWord_inv h
    · exact parkSlot_inv h
    · exact hk _ _ h
  have ht : ∀ s c, s.Inv → OutInv (trap s c) := fun s c h => trapWord_inv h
  clear_value reading trap
  refine outInv_ite h (outInv_ite (modSlot_inv h) (hr _ _ (stepRead_inv h) fun s bs h => ?_))
  split
  · exact ht _ _ h
  · refine hr _ _ (launchRead_inv h) fun s tb h => ?_
    exact outInv_ite (ht _ _ h) (hr _ _ (launchRead_inv h) fun s bs h => enterGrid_inv h)

theorem execSysTlbinv_inv {a : Triple} (h : s.Inv) : OutInv (execSysTlbinv hd a b sc s) := by
  unfold execSysTlbinv
  refine gate_inv h fun s gid s1 g sl sh h => ?_
  exact outInv_ite h (ctrUp_inv (nextId_inv h))

theorem execTlbinvComplete_inv (h : s.Inv) : OutInv (execTlbinvComplete id s) := by
  unfold execTlbinvComplete
  split
  · exact h
  · exact outInv_ite (ctrDown_inv h) h

theorem execSysCarve_inv (h : s.Inv) : OutInv (execSysCarve hd a s) := by
  unfold execSysCarve
  refine gate_inv h fun s gid s1 g sl sh h => ?_
  exact outInv_ite h (outInv_ite (modSlot_inv h) (leaveWays_inv (ctrUp_inv h)))

theorem execCarveChangeComplete_inv (h : s.Inv) : OutInv (execCarveChangeComplete core s) := by
  unfold execCarveChangeComplete
  extract_lets die c
  split
  · exact h
  · refine outInv_ite h ?_
    split
    · exact ctrDown_inv h
    · exact h

theorem execSysHalt_inv (h : s.Inv) : OutInv (execSysHalt hd a s) := gate_inv h fun _ _ _ _ _ _ h => outInv_ite h (haltGrid_inv h)

theorem execSysReplay_inv (h : s.Inv) : OutInv (execSysReplay hd a s) := gate_inv h fun _ _ _ _ _ _ h => outInv_ite h (replayAll_inv h)

theorem execSysEfail_inv (h : s.Inv) : OutInv (execSysEfail hd a s) := gate_inv h fun _ _ _ _ _ _ h => outInv_ite h (efailAll_inv h)

theorem execSysDebug_inv (h : s.Inv) : OutInv (execSysDebug hd a b s) := gate_inv h fun _ _ _ _ _ _ h => outInv_ite h h

theorem execSysSlice_inv (h : s.Inv) : OutInv (execSysSlice hd a b s) := gate_inv h fun _ _ _ _ _ _ h => outInv_ite h h

theorem execAtomoFin_inv (h : s.Inv) : OutInv (execAtomoFin hd s) :=
  gate_inv h fun s gid s1 g sl sh h => by
    extract_lets m
    split
    · exact trapWord_inv h
    · exact retireLanes_inv h

end

/-! #### Fetching and issuing (Machine/Issue.lean) -/

section
variable {s t : State} {gid die core tenant quad id n : Nat} {s1 sup : Bool} {g : Group} {cause : BitVec 8} {x : Word64} {lanes : Mask} {ad : Addr}
  {p : Prog} {sp : Space} {agents : Mask} {w : TblWait}

theorem fetchAt_inv (h : s.Inv) : (fetchAt s die core tenant sup ad).1.Inv := by
  unfold fetchAt
  split
  · exact inv_fst (xlateBytes_inv h) ‹_›
  · exact inv_fst (xlateBytes_inv h) ‹_›

theorem fetchGroup_inv (h : s.Inv) : (fetchGroup s g ad).1.Inv := fetchAt_inv h

theorem rawTrap_inv (h : s.Inv) : (rawTrap s gid s1 cause lanes x).Inv := takeTrap_inv h

theorem clauseFetch_inv (h : s.Inv) : (clauseFetch s g ad n).1.Inv := by
  unfold clauseFetch
  split
  · exact inv_fst (xlateBytes_inv h) ‹_›
  · exact inv_fst (xlateBytes_inv h) ‹_›

theorem takePort_inv (h : s.Inv) : (takePort s gid s1).Inv := by
  unfold takePort
  split
  · exact h
  · exact modGroup_inv h

theorem fetchSlot_inv (h : s.Inv) : (fetchSlot s gid s1 g).1.Inv := by
  unfold fetchSlot
  split
  · exact h
  · extract_lets sl s'
    have h' : s'.Inv := h
    clear_value s'
    split
    · exact inv_fst (fetchGroup_inv h') ‹_›
    · have hf := inv_fst (fetchGroup_inv h') ‹_›
      split
      · split
        · exact hf
        · exact hf
      · split
        · exact hf
        · exact hf

theorem fetchProg_inv (h : s.Inv) : (fetchProg s p).1.Inv := by
  unfold fetchProg
  split
  · exact h
  · split
    · exact inv_fst (fetchAt_inv h) ‹_›
    · have hf := inv_fst (fetchAt_inv h) ‹_›
      split
      · split
        · exact hf
        · exact hf
      · split
        · exact hf
        · exact hf

theorem execClauseIssue_inv {cls wait : BitVec 3} {cnt : BitVec 4} {yld : Bool} (h : s.Inv) : OutInv (execClauseIssue cls cnt wait yld s) := by
  unfold execClauseIssue
  split
  · split
    · exact trivial
    · refine outInv_ite (rawTrap_inv h) (outInv_ite h ?_)
      split
      · exact parkSlot_inv (inv_fst (clauseFetch_inv h) ‹_›)
      · have hc := inv_fst (clauseFetch_inv h) ‹_›
        exact hc
  · split
    · exact trivial
    · exact outInv_ite (progFault_inv h) h
  · exact trivial

theorem execIssueChoice_inv (h : s.Inv) : OutInv (execIssueChoice quad s) := by
  unfold execIssueChoice
  split
  · exact h
  · exact h

theorem execReadyWaitExpiry_inv (h : s.Inv) : OutInv (execReadyWaitExpiry gid s1 s) := by
  unfold execReadyWaitExpiry
  split
  · exact h
  · exact outInv_ite h h

theorem execPathRotation_inv (h : s.Inv) : OutInv (execPathRotation gid s) := by
  unfold execPathRotation
  split
  · exact h
  · refine outInv_ite h (withStack_inv h fun s g h => ?_)
    split
    · exact h
    · exact putPaths_inv h

/-! #### Fault records and walks (Machine/Record.lean) -/

theorem drainRecords_inv (l : List FaultRec) (h : s.Inv) : (drainRecords s die l).Inv := by
  induction l generalizing s with
  | nil => exact h
  | cons r rest ih =>
    unfold drainRecords
    split
    · exact h
    · have hp := putRecord_inv h ‹_›
      exact ih hp

theorem execFaultQueueSpace_inv (h : s.Inv) : OutInv (execFaultQueueSpace die s) := drainRecords_inv _ h

theorem execTlbWalk_inv {who : Agent} {kind : AccessKind} (h : s.Inv) : OutInv (execTlbWalk who ad kind s) := by
  unfold execTlbWalk
  extract_lets go
  have hg : ∀ die core tenant sup, OutInv (go die core tenant sup) := fun die core tenant sup => by
    dsimp only [go]
    split
    · exact walk_inv h
    · exact h
  clear_value go
  split
  · exact h
  · split
    · exact hg _ _ _ _
    · exact h
  · split
    · exact hg _ _ _ _
    · exact h

theorem execEngineTranslationStop_inv (h : s.Inv) : OutInv (execEngineTranslationStop id s) := by
  unfold execEngineTranslationStop
  split
  · refine outInv_ite h ?_
    split
    · exact copyStop_inv (inv_fst (moveKeys_inv _ h) ‹_›)
    · exact h
    · have hm := inv_fst (moveKeys_inv _ h) ‹_›
      split
      · exact copyStop_inv (inv_fst (moveKeys_inv _ hm) ‹_›)
      · exact h
  · split
    · exact h
    · refine outInv_ite h ?_
      split
      · exact stopProg_inv (inv_fst (fetchAt_inv h) ‹_›)
      · exact h

/-! #### Tables (Machine/Tables.lean) -/

theorem readImage_inv (h : s.Inv) : (readImage s gid g agents sp ad).1.Inv := by
  unfold readImage
  split
  · exact inv_fst (laneKeys_inv h) ‹_›
  · exact inv_fst (laneKeys_inv h) ‹_›

theorem loadTables_inv {cur : Vector Table 4} (l : List (Fin 4)) (h : s.Inv) : (loadTables s g w cur l).1.Inv := by
  induction l generalizing s cur with
  | nil => exact h
  | cons x r ih =>
    unfold loadTables
    split
    · exact ih h
    · exact ih h
    · split
      · exact inv_fst (readImage_inv h) ‹_›
      · exact ih (inv_fst (readImage_inv h) ‹_›)

theorem execTbld_inv {hd : Head} {k : Triple} {mask : BitVec 4} {sp3 : BitVec 3} (h : s.Inv) : OutInv (execTbld hd k mask sp3 s) := by
  unfold execTbld
  refine gate_inv h fun s gid s1 g sl sh h => ?_
  exact outInv_ite h (outInv_ite (trapWord_inv h) (outInv_ite (trapWord_inv h) h))

theorem execTbind_inv {hd : Head} (h : s.Inv) : OutInv (execTbind hd s) := gate_inv h fun _ _ _ _ _ _ h => h

theorem execTableBankLoad_inv (h : s.Inv) : OutInv (execTableBankLoad quad s) := by
  unfold execTableBankLoad
  extract_lets q
  split
  · exact h
  · split
    · exact h
    · refine outInv_ite h (outInv_ite h ?_)
      split
      · have hl := inv_fst (loadTables_inv _ h) ‹_›
        exact outInv_ite (parkGroup_inv hl) (parkSlotIn_inv hl)
      · have hl := inv_fst (loadTables_inv _ h) ‹_›
        exact inv_ite (modGroup_inv hl) (modGroup_inv hl)

end

end Sys2Proof.Machine
end

section
namespace Sys2Proof.Machine

/-! #### Saving and restoring teams (Machine/Save.lean) -/

section
variable {s t : State} {gid die core quad tenant grid key need lcore clu n c : Nat} {s1 write : Bool} {g : Group} {gr : Grid} {x : Saved} {tm : Team}
  {cx : StepCtx}

/-- A step that leaves the L2 keeps the invariant where the new memory is well formed. -/
theorem inv_setMem {m : Memory} (h : s.Inv) (hm : Memory.wf m = true) : ({ s with mem := m } : State).Inv := ⟨hm, h.2⟩

theorem inv_memPuts {ks : List Nat} {vs : List Byte} (h : s.Inv) : ({ s with mem := memPuts s.mem ks vs } : State).Inv :=
  inv_setMem h (memPuts_wf ks vs h.1)

theorem inv_filterMem {p : Nat × Byte → Bool} (h : s.Inv) : ({ s with mem := s.mem.filter p } : State).Inv := inv_setMem h (filter_wf p h.1)

theorem freeLpbase_inv (h : s.Inv) : s.freeLpbase.2.Inv := free_inv (free_inv h)

theorem installGroup_inv (h : s.Inv) : (installGroup s gid g die core quad).Inv := l1Invalidate_inv h

theorem teamGroup_inv (h : s.Inv) : (teamGroup s gr key n clu).1.Inv := freeLpbase_inv h

theorem zeroScratch_inv (h : s.Inv) : (zeroScratch s tm).Inv :=
  inv_setMem h (List.foldlRecOn (motive := fun m => Memory.wf m = true) _ _ h.1 fun _ hm _ _ => filter_wf _ hm)

theorem placeGroups_inv {tid : Nat} (l : List Nat) (h : s.Inv) : (placeGroups s gr tid n clu l).1.Inv := by
  induction l generalizing s with
  | nil => exact h
  | cons i r ih => exact ih (installGroup_inv (teamGroup_inv (gr := gr) (key := tid) (n := n) (clu := i) (nextId_inv h)))

theorem placeTeam_inv (h : s.Inv) (he : placeTeam s grid gr = some t) : t.Inv := by
  unfold placeTeam at he
  split at he
  · cases he
  · cases he
    exact modGrid_inv (placeGroups_inv _ (zeroScratch_inv (nextId_inv h)))

theorem beginSave_inv (h : s.Inv) : (beginSave s key).Inv := inv_foldl _ h fun _ _ h => modGroup_inv h

theorem findSlotGo_inv {tt : Tenant} (h : s.Inv) : (findSlot.go die tenant tt n s key c).1.Inv := by
  induction c generalizing s key with
  | zero => exact h
  | succ c ih =>
    unfold findSlot.go
    extract_lets a
    split
    · have hd := inv_fst (devRead_inv h) ‹_›
      split
      · exact hd
      · exact ih hd
    · exact ih (inv_fst (devRead_inv h) ‹_›)

theorem findSlot_inv (h : s.Inv) : (findSlot s die tenant need).1.Inv := by
  unfold findSlot
  extract_lets tt size
  split
  · exact findSlotGo_inv h
  · exact h

theorem stallSave_inv (h : s.Inv) : (stallSave s key).Inv := by
  unfold stallSave
  split
  · exact h
  · split
    · exact h
    · split
      · exact h
      · exact appendRecord_inv (inv_foldl _ h fun _ _ h => modGroup_inv h)

theorem freeSaved_inv {gids : List Nat} {o : Option Nat} (h : s.Inv) : (freeSaved s key gids o).Inv := by
  unfold freeSaved
  extract_lets u
  have hu : u.Inv := by
    dsimp only [u]
    split
    · split
      · next c _ r _ =>
        have hd : (dropLocks s (ctxDie c) r.1 (.step c)).Inv := dropLocks_inv h
        exact hd
      · exact h
    · exact h
  exact hu

theorem chipTransfers_inv (h : s.Inv) : (chipTransfers s gid write).Inv := by
  unfold chipTransfers
  split
  · exact h
  · split
    · exact h
    · exact stackTransfers_inv _ h

theorem saveSpawns_inv (h : s.Inv) : (saveSpawns s gid).Inv := by
  unfold saveSpawns
  split
  · exact h
  · split
    · exact inv_ite h (rewindSpawns_inv h)
    · exact h

theorem l1FlushGroup_inv (h : s.Inv) : (l1FlushGroup s gid).Inv := by
  unfold l1FlushGroup
  split
  · exact h
  · exact l1Flush_inv h

/-- The search for a slot stays a variable: the kernel would evaluate it in comparing the outcomes. -/
theorem finishSave_inv (h : s.Inv) : (finishSave s key).Inv := by
  unfold finishSave
  extract_lets gids s1 s2 gs
  have h1 : s1.Inv := inv_foldl _ h fun _ _ h => chipTransfers_inv (saveSpawns_inv h)
  have h2 : s2.Inv := inv_foldl _ h1 fun _ _ h => l1FlushGroup_inv h
  obtain ⟨find, hx⟩ : ∃ find, findSlot s2 = find := ⟨_, rfl⟩
  have hfind (die tenant need : Nat) : (find die tenant need).1.Inv := hx ▸ findSlot_inv h2
  rw [hx]
  clear_value s2 gs
  split
  · exact h2
  · split
    · exact h2
    · extract_lets count
      split
      · exact stallSave_inv (inv_fst (hfind _ _ _) ‹_›)
      · have hf := inv_fst (hfind _ _ _) ‹_›
        exact inv_of_eq (settleOwners_inv (freeSaved_inv (devWrite_inv hf))) rfl rfl

theorem trySave_inv (h : s.Inv) : (trySave s key).Inv := inv_ite (finishSave_inv h) h

theorem rejoin_inv {loads : List TblWait} (h : s.Inv) : (rejoin s gid loads).Inv := by
  unfold rejoin
  split
  · exact h
  · exact chipTransfers_inv h

theorem readRecord_inv (h : s.Inv) : (readRecord s x n).1.Inv := devRead_inv h

theorem freeSlot_inv (h : s.Inv) : (freeSlot s x).Inv := devWrite_inv h

theorem settle_inv (h : s.Inv) : (x.settle s).Inv := inv_foldl _ h fun _ _ h => ctrDown_inv h

theorem relock_inv (h : s.Inv) (he : relock s c cx core = some t) : t.Inv := by
  unfold relock at he
  split at he
  · exact takeLocks_inv h he
  · cases he
    exact h

theorem restoreCtx_inv (h : s.Inv) : (restoreCtx s x key clu).Inv := by
  unfold restoreCtx
  split
  · split
    · exact h
    · next he =>
      have hr := relock_inv (by exact h) he
      exact inv_ite (callOver_inv hr) hr
  · exact h

/-- The read of the record stays a variable: the kernel would evaluate it in comparing the outcomes. -/
theorem restoreTeam_inv (h : s.Inv) (he : restoreTeam s x tm gr = some t) : t.Inv := by
  obtain ⟨read, hx⟩ : ∃ read, readRecord s x = read := ⟨_, rfl⟩
  have hread (n : Nat) : (read n).1.Inv := hx ▸ readRecord_inv h
  unfold restoreTeam at he
  rw [hx] at he
  split at he
  · cases he
  · extract_lets n base gOff at he
    split at he
    · cases he
    · have hr := inv_fst (hread _) ‹_›
      extract_lets t0 t1 u keys u1 u2 blockOf u3 u4 at he
      have h0 : u.Inv := inv_of_eq hr rfl rfl
      have h1 : u1.Inv := inv_memPuts h0
      have h2 : u2.Inv := inv_foldl _ h1 fun _ _ h => h
      have h3 : u3.Inv := inv_foldl _ h2 fun _ _ h => h
      have h4 : u4.Inv := inv_foldl _ h3 fun _ _ h => rejoin_inv (installGroup_inv h)
      cases he
      exact freeSlot_inv (restoreCtx_inv (settle_inv h4))

theorem restoreGathered_inv (h : s.Inv) (he : restoreGathered s x gid g gr = some t) : t.Inv := by
  unfold restoreGathered at he
  split at he
  · cases he
  · split at he
    · cases he
    · next hr =>
      cases he
      split at hr
      · have hu := inv_fst (readRecord_inv h) hr
        exact freeSlot_inv (settle_inv (rejoin_inv (installGroup_inv hu)))
      · cases hr

theorem restoreSaved_inv (h : s.Inv) (he : restoreSaved s x = some t) : t.Inv := by
  unfold restoreSaved at he
  split at he
  · cases he
  · split at he
    · exact restoreTeam_inv h he
    · exact restoreGathered_inv h he
    · cases he

theorem execSaveSlotRetry_inv (h : s.Inv) : OutInv (execSaveSlotRetry tenant s) :=
  inv_foldl (f := fun s k => trySave s k) _ h fun _ _ h => trySave_inv h

theorem execTenantDrainDeadline_inv (h : s.Inv) : OutInv (execTenantDrainDeadline tenant s) := by
  unfold execTenantDrainDeadline
  extract_lets tt
  split
  · exact h
  · refine outInv_ite h ?_
    exact inv_foldl (f := fun s k => trySave (beginSave s k) k) _ h fun _ _ h => trySave_inv (beginSave_inv h)

end

/-! #### Grids, teams and gathered groups (Machine/Sched.lean) -/

section
variable {s t : State} {gid die core quad tenant grid key lcore n id victim : Nat} {g : Group} {gr : Grid} {x : Saved} {r : Retiree} {m : Mask}
  {ts : List Task}

theorem grantDs_inv (h : s.Inv) (he : grantDs s grid gr = some t) : t.Inv := by
  unfold grantDs at he
  extract_lets n taken at he
  split at he
  · cases he
    exact h
  · generalize List.find? _ _ = o at he
    cases o with
    | none => cases he
    | some b =>
      cases he
      exact modGrid_inv (inv_filterMem h)

theorem placeNew_inv (h : s.Inv) : (placeNew s grid n).1.Inv := by
  induction n generalizing s with
  | zero => exact h
  | succ n ih =>
    unfold placeNew
    split
    · exact h
    · split
      · exact h
      · split
        · exact h
        · have hg := grantDs_inv h ‹_›
          split
          · exact hg
          · exact ih (placeTeam_inv hg ‹_›)

theorem restoreAll_inv (l : List Saved) (h : s.Inv) : (restoreAll s l).1.Inv := by
  induction l generalizing s with
  | nil => exact h
  | cons x r ih =>
    unfold restoreAll
    split
    · exact ih (restoreSaved_inv h ‹_›)
    · exact h

theorem placeGrids_inv (l : List (Nat × Grid)) (h : s.Inv) : (placeGrids s l).Inv := by
  induction l generalizing s with
  | nil => exact h
  | cons p r ih =>
    unfold placeGrids
    split
    · exact ih h
    · split
      · exact inv_fst (restoreAll_inv _ h) ‹_›
      · have hr := inv_fst (restoreAll_inv _ h) ‹_›
        split
        · exact inv_fst (placeNew_inv hr) ‹_›
        · exact ih (inv_fst (placeNew_inv hr) ‹_›)

theorem placeSliced_inv (h : s.Inv) : (placeSliced s die).Inv := by
  unfold placeSliced
  split
  · exact h
  · refine inv_ite h (inv_ite h ?_)
    split
    · split
      · exact inv_getD h fun t he => restoreSaved_inv (by exact h) he
      · exact h
    · exact placeNew_inv h

theorem signalTokens_inv (l : List Token) (h : s.Inv) : (signalTokens s grid die tenant l).1.Inv := by
  induction l generalizing s with
  | nil => exact h
  | cons x r ih =>
    unfold signalTokens
    extract_lets next
    have hn : ∀ s, s.Inv → (next s).1.Inv := fun s h => ih (modGrid_inv h)
    clear_value next
    split
    · exact hn _ h
    · split
      · exact appendRecord_inv (inv_fst (xlateBytes_inv h) ‹_›)
      · exact hn _ (storeHome_inv (inv_fst (xlateBytes_inv h) ‹_›))

theorem gatheredGroup_inv (h : s.Inv) : (gatheredGroup s gr lcore ts).1.Inv := freeLpbase_inv h

theorem startGathered_inv (h : s.Inv) : (startGathered s gr lcore die core quad ts m).Inv := by
  unfold startGathered
  split
  split
  have hg := inv_fst (gatheredGroup_inv (inv_snd (nextId_inv h) ‹_›)) ‹_›
  extract_lets u
  have hu : u.Inv := installGroup_inv hg
  clear_value u
  exact modGrid_inv hu

theorem loseSteal_inv (h : s.Inv) : (loseSteal victim s lcore).Inv := h

theorem failReplay_inv (h : s.Inv) : (failReplay s r).Inv := releaseFault_inv h

theorem mismatch_inv (h : s.Inv) : (mismatch s grid r).Inv := by
  unfold mismatch
  extract_lets again rewound u
  have ha : ∀ s, s.Inv → (again s).Inv := fun s h => modGrid_inv h
  have hu : u.Inv := by
    dsimp only [u]
    split
    · split
      · exact rewindSpawns_inv h
      · exact h
    · exact h
  clear_value again rewound u
  refine inv_ite (failReplay_inv h) ?_
  split
  · exact ha _ h
  · exact ha _ (putPaths_inv hu)
  · exact failReplay_inv h

theorem settleDigest_inv (h : s.Inv) : (settleDigest s grid gr r).Inv := by
  unfold settleDigest
  extract_lets tt waits u passed
  have hu : u.Inv := modGrid_inv h
  have hp : passed.Inv := hu
  clear_value u passed
  refine inv_ite (devWrite_inv hp) (inv_ite ?_ hu)
  split
  · have hd := inv_fst (devRead_inv hu) ‹_›
    exact inv_ite (releaseLog_inv _ (modGroup_inv (modGrid_inv hd))) (inv_ite (failReplay_inv (modGrid_inv hd)) (mismatch_inv hd))
  · exact h

theorem settleDigests_inv (h : s.Inv) : (settleDigests s grid n).Inv := by
  induction n generalizing s with
  | zero => exact h
  | succ n ih =>
    unfold settleDigests
    split
    · exact h
    · split
      · split
        · exact ih (settleDigest_inv h)
        · exact h
      · split
        · exact ih (settleDigest_inv h)
        · exact h

theorem startReplay_inv (h : s.Inv) : (startReplay s grid).Inv := by
  unfold startReplay
  split
  · exact h
  · split
    · exact h
    · refine inv_ite h ?_
      split
      · exact startGathered_inv (modGrid_inv h)
      · exact h

theorem retryLate_inv (l : List LateEffect) (h : s.Inv) : (retryLate s grid l).Inv := by
  induction l generalizing s with
  | nil => exact h
  | cons e r ih =>
    unfold retryLate
    extract_lets put
    have hp : ∀ s l, s.Inv → (put s l).Inv := fun s l h => modGrid_inv h
    clear_value put
    split
    · exact h
    · split
      · exact ih (hp _ _ (inv_fst (releaseOne_inv h) ‹_›))
      · exact inv_ite (hp _ _ (inv_fst (releaseOne_inv h) ‹_›)) h
      · have hr := inv_fst (releaseOne_inv h) ‹_›
        exact hp _ _ (sendEffect_inv hr)
      · have hr := inv_fst (releaseOne_inv h) ‹_›
        exact releaseFault_inv (hp _ _ hr)

theorem execTokenPoll_inv (h : s.Inv) : OutInv (execTokenPoll die s) := outInv_ite h (pollGrids_inv h)

theorem execTeamPlacement_inv (h : s.Inv) : OutInv (execTeamPlacement die s) := placeGrids_inv _ (placeSliced_inv h)

theorem execGridComplete_inv (h : s.Inv) : OutInv (execGridComplete grid s) := by
  unfold execGridComplete
  split
  · exact h
  · refine outInv_ite h ?_
    split
    · exact modGrid_inv (inv_fst (signalTokens_inv _ h) ‹_›)
    · have hk := inv_fst (signalTokens_inv _ h) ‹_›
      exact pollGrids_inv hk

theorem execTimeSliceSave_inv (h : s.Inv) : OutInv (execTimeSliceSave die s) := by
  unfold execTimeSliceSave
  extract_lets choose
  have hc : ∀ s, s.Inv → (choose s).Inv := fun s h => by
    dsimp only [choose]
    split
    · exact h
    · exact placeSliced_inv (trySave_inv (beginSave_inv h))
  clear_value choose
  split
  · next v _ _ _ =>
    have hp : (placeSliced (trySave s v) die).Inv := placeSliced_inv (trySave_inv h)
    exact inv_ite (hc _ hp) hp
  · exact hc _ h

theorem execTgaFormGroup_inv (h : s.Inv) : OutInv (execTgaFormGroup lcore s) := by
  unfold execTgaFormGroup
  split
  · exact h
  · exact outInv_ite h (startGathered_inv h)

theorem execStealRequest_inv (h : s.Inv) : OutInv (execStealRequest lcore s) := by
  unfold execStealRequest
  extract_lets t idle
  refine outInv_ite h ?_
  split
  · exact h
  · exact h

theorem loseSteals_inv (l : List Nat) (h : s.Inv) : (l.foldl (loseSteal victim) s).Inv := inv_foldl _ h fun _ _ h => loseSteal_inv h

theorem execStealServe_inv (h : s.Inv) : OutInv (execStealServe victim s) := by
  unfold execStealServe
  extract_lets d det holds late rs lost
  split
  · exact loseSteals_inv _ h
  · refine outInv_ite (loseSteals_inv _ h) ?_
    exact loseSteals_inv _ (appendTasks_inv h)

theorem execStealRestart_inv (h : s.Inv) : OutInv (execStealRestart lcore s) := by
  unfold execStealRestart
  split
  · exact h
  · exact outInv_ite h h

theorem execGatheredGroupSave_inv (h : s.Inv) : OutInv (execGatheredGroupSave gid s) := by
  unfold execGatheredGroupSave
  split
  · exact h
  · refine outInv_ite h ?_
    split
    · exact h
    · exact outInv_ite (trySave_inv (beginSave_inv (modGroup_inv h))) h

theorem execGatheredGroupRestore_inv (h : s.Inv) : OutInv (execGatheredGroupRestore key s) := by
  unfold execGatheredGroupRestore
  split
  · exact h
  · exact outInv_ite (inv_getD h fun t he => restoreSaved_inv h he) h

theorem execFloorAdvance_inv (h : s.Inv) : OutInv (execFloorAdvance grid s) := by
  unfold execFloorAdvance
  split
  · exact h
  · exact startReplay_inv (settleDigests_inv (retryLate_inv _ (modGrid_inv h)))

theorem execSoftErrorRewind_inv {row lane : Nat} (h : s.Inv) : OutInv (execSoftErrorRewind gid lane row s) := by
  unfold execSoftErrorRewind
  split
  · exact h
  · extract_lets halt
    have hh : ∀ c, OutInv (halt c) := fun _ => haltGroup_inv h
    clear_value halt
    refine outInv_ite h ?_
    split
    · exact outInv_ite (hh _) (outInv_ite (hh _) (outInv_ite h (putPaths_inv (rewindSpawns_inv h))))
    · exact hh _

theorem execOabAdmit_inv (h : s.Inv) : OutInv (execOabAdmit id s) := by
  unfold execOabAdmit
  split
  · exact h
  · extract_lets here floor twin general room fr me entry put
    have hp : ∀ f, OutInv (put f) := fun _ => h
    clear_value put
    split
    · exact outInv_ite h (outInv_ite (hp _) (hp _))
    · exact h

end

end Sys2Proof.Machine
end

section
namespace Sys2Proof.Machine

/-! #### The device's upkeep, the host and the fabric (Machine/Device.lean) -/

section
variable {s t : State} {die core tenant id n sec off line slice way : Nat} {f : Flit} {va : Addr} {code : BitVec 16} {v keep : Word64} {d : Die} {error : Bool}

theorem haltTenants_inv {p : Nat → Bool} (h : s.Inv) : (haltTenants s p).Inv := by
  unfold haltTenants
  extract_lets u away halt
  have hu : u.Inv := inv_foldl _ h fun _ _ h => haltGroup_inv h
  exact inv_foldl _ hu fun _ _ h => appendRecord_inv h

theorem execL2TagParityFail_inv {bad : Bool} (h : s.Inv) : OutInv (execL2TagParityFail die line slice way bad s) := by
  unfold execL2TagParityFail
  extract_lets here elsewhere dirty u u'
  have hu' : u'.Inv := inv_filter_l2 _ h
  exact outInv_ite h (inv_ite (haltTenants_inv hu') hu')

theorem execWaySweepDone_inv (h : s.Inv) : OutInv (execWaySweepDone die slice way s) :=
  outInv_ite (inv_foldl (f := fun s ln => l2Drop (l2WriteBack s ln) ln) _ h fun _ _ h => l2Drop_inv _ (l2WriteBack_inv _ h)) h

theorem execBucketRefill_inv (h : s.Inv) : OutInv (execBucketRefill die s) := outInv_ite h h

theorem addEnergy_inv (h : s.Inv) : (addEnergy die d s n).Inv := by
  unfold addEnergy
  extract_lets a e u
  have hu : u.Inv := h
  clear_value u
  split
  · exact devWrite_inv (inv_fst (devRead_inv hu) ‹_›)
  · exact inv_fst (devRead_inv hu) ‹_›

theorem execEnergyAccount_inv (h : s.Inv) : OutInv (execEnergyAccount die s) := by
  unfold execEnergyAccount
  extract_lets d u
  have hu : u.Inv := inv_ite h (inv_foldl _ h fun _ _ h => addEnergy_inv h)
  exact outInv_ite h hu

theorem mboxPut_inv (h : s.Inv) : (mboxPut s off v keep).Inv := by
  unfold mboxPut
  split
  all_goals exact h

theorem mboxWrite_inv {bs : List Byte} (h : s.Inv) : (mboxWrite s off bs).Inv := inv_ite h (inv_ite h (mboxPut_inv h))

theorem mboxSubmit_inv (h : s.Inv) : (mboxSubmit s code).Inv := mboxPut_inv h

theorem execMboxNop_inv (h : s.Inv) : OutInv (execMboxNop s) := mboxSubmit_inv h

theorem execMboxAttest_inv (h : s.Inv) : OutInv (execMboxAttest s) := mboxSubmit_inv h

theorem execMboxTelemetry_inv (h : s.Inv) : OutInv (execMboxTelemetry s) := mboxSubmit_inv h

theorem execMboxFirmwareCmd_inv (h : s.Inv) : OutInv (execMboxFirmwareCmd code s) := mboxSubmit_inv h

theorem execMboxDone_inv {vectors : BitVec 64} {put : List (Nat × Byte)} (h : s.Inv) : OutInv (execMboxDone code error vectors put s) :=
  outInv_ite h h

theorem execMboxWindowBase_inv (h : s.Inv) : OutInv (execMboxWindowBase v s) := mboxPut_inv h

theorem execMboxIntCauseClear_inv (h : s.Inv) : OutInv (execMboxIntCauseClear v s) := mboxPut_inv h

theorem execHostPostedWrite_inv {mbox : Bool} {bytes : List Byte} (h : s.Inv) : OutInv (execHostPostedWrite mbox off bytes s) :=
  outInv_ite (mboxWrite_inv h) (outInv_ite h (drainPosted_inv _ h))

theorem execHostRead_inv {mbox : Bool} (h : s.Inv) : OutInv (execHostRead mbox off n s) := outInv_ite h (outInv_ite h h)

theorem modFlit_inv {g : LateEffect → Option LateEffect} (h : s.Inv) : (s.modFlit n g).Inv := h

theorem waitAnswered_inv (h : s.Inv) : OutInv (waitAnswered s f) := by
  unfold waitAnswered
  extract_lets mine u
  have hu : u.Inv := modFlit_inv h
  clear_value u
  split
  · exact hu
  · exact outInv_ite hu (outInv_ite (resumeWait_inv hu) hu)

theorem waitFailed_inv (h : s.Inv) : (waitFailed s f).Inv := by
  unfold waitFailed
  extract_lets u
  have hu : u.Inv := modFlit_inv h
  clear_value u
  split
  · exact inv_ite (failWait_inv hu) hu
  · exact hu

theorem agentFault_inv (h : s.Inv) : (agentFault s n va).Inv := by
  unfold agentFault
  split
  · exact progFault_inv h
  · exact copyFault_inv h
  · exact stopRun_inv h
  · exact h

theorem execFabricAck_inv (h : s.Inv) : OutInv (execFabricAck id s) := by
  unfold execFabricAck
  split
  · exact h
  · refine outInv_ite h ?_
    extract_lets u u'
    have hu : u.Inv := h
    have hu' : u'.Inv := inv_memPuts hu
    clear_value u u'
    split
    · exact accAnswered_inv hu
    · exact outInv_ite (waitAnswered_inv hu) (settleFences_inv (inv_ite (l1Shed_inv hu') (reqDone_inv (l1Patches_inv hu'))))

theorem execFabricRetransmit_inv (h : s.Inv) : OutInv (execFabricRetransmit id s) := by
  unfold execFabricRetransmit
  split
  · exact h
  · refine outInv_ite h ?_
    extract_lets u
    have hu : u.Inv := h
    clear_value u
    split
    · exact settleFences_inv (agentFault_inv hu)
    · split
      extract_lets e u'
      have hf := inv_snd (free_inv hu) ‹_›
      have hu' : u'.Inv := hf
      clear_value u'
      split
      · exact accDone_inv (free_inv hu')
      · exact settleFences_inv (reqDone_inv (inv_ite (waitFailed_inv hu') hu'))

theorem remoteStored_inv (h : s.Inv) : (remoteStored s n).Inv := settleOutside_inv h

theorem execFabricRemoteAccess_inv {access : RemoteAccess} (h : s.Inv) : OutInv (execFabricRemoteAccess access n s) := by
  unfold execFabricRemoteAccess
  refine outInv_ite h ?_
  split
  · exact inv_foldl (f := fun s k => leaseFetch s outsideDie 0 0#2 k) _ h fun _ _ h => leaseFetch_inv h
  · exact remoteStored_inv (storeHome_inv (nextId_inv h))
  · exact remoteStored_inv (applyAtom_inv (nextId_inv h))

theorem partSection_inv {x : Nat × Option (List Byte)} (h : s.Inv) (he : partSection s die sec off n = some (t, x)) : t.Inv := by
  unfold partSection at he
  extract_lets d r at he
  split at he
  · cases he
  · cases he
    exact devRead_inv h

theorem partDone_inv (h : s.Inv) : OutInv (partDone s die error) := h

theorem partApplied_inv (h : s.Inv) : OutInv (partApplied s die n) := partDone_inv h

theorem execPartcmdQuadrants_inv (h : s.Inv) : OutInv (execPartcmdQuadrants die s) := by
  unfold execPartcmdQuadrants
  split
  · exact h
  · have hp := partSection_inv h ‹_›
    exact outInv_ite (partApplied_inv (settleOwners_inv hp)) (partDone_inv hp)
  · have hp := partSection_inv h ‹_›
    exact partDone_inv hp

theorem execPartcmdBanks_inv (h : s.Inv) : OutInv (execPartcmdBanks die s) := by
  unfold execPartcmdBanks
  split
  · exact h
  · have hp := partSection_inv h ‹_›
    exact outInv_ite (partApplied_inv (settleOwners_inv hp)) (partDone_inv hp)
  · have hp := partSection_inv h ‹_›
    exact partDone_inv hp

theorem execPartcmdL2Ways_inv (h : s.Inv) : OutInv (execPartcmdL2Ways die s) := by
  unfold execPartcmdL2Ways
  split
  · exact h
  · have hp := partSection_inv h ‹_›
    exact outInv_ite (partApplied_inv hp) (partDone_inv hp)
  · have hp := partSection_inv h ‹_›
    exact partDone_inv hp

theorem execPartcmdBuckets_inv (h : s.Inv) : OutInv (execPartcmdBuckets die s) := by
  unfold execPartcmdBuckets
  split
  · exact h
  · have hp := partSection_inv h ‹_›
    extract_lets b d tokens
    clear_value b
    exact outInv_ite (partDone_inv hp) (outInv_ite hp (partApplied_inv hp))
  · have hp := partSection_inv h ‹_›
    exact partDone_inv hp

/-! #### Reset and boot (R329, R330) -/

theorem restart_inv (h : s.Inv) : s.restart.Inv := ⟨filter_wf _ h.1, reset_inv.2⟩

theorem setWindows_inv (h : s.Inv) : (setWindows s).Inv := by
  unfold setWindows
  extract_lets u w
  have hu : u.Inv := inv_foldl _ h fun _ _ h => h
  clear_value u w
  exact hu

theorem startSupervisor_inv (h : s.Inv) : (startSupervisor s).Inv := by
  unfold startSupervisor
  extract_lets u
  have hu : u.Inv := inv_foldl _ h fun _ _ h => h
  clear_value u
  exact setWindows_inv hu

theorem execResetBoot_inv (h : s.Inv) : OutInv (execResetBoot s) := by
  unfold execResetBoot
  refine outInv_ite (restart_inv h) ?_
  split
  · exact h
  · exact outInv_ite h h
  · exact h
  · exact startSupervisor_inv h
  · exact restart_inv h
  · exact restart_inv h

theorem execThermalTrip_inv (h : s.Inv) : OutInv (execThermalTrip s) := restart_inv h

end

/-! #### Lazy words (Machine/Lazy.lean) -/

section
variable {s t : State} {gid id : Nat} {g : Group} {op : LazyOp} {sh : Shape} {m : Mask} {i : Instr} {view : BitVec 3}

theorem lazyTrap_inv (h : s.Inv) : (lazyTrap s gid g op sh m).Inv := trapWord_inv h

theorem lazyWord_inv {f : State → Group → Slot → Lane → View → Lazy} (h : s.Inv) : OutInv (lazyWord i s view f) :=
  gate_inv h fun s gid s1 g sl sh h => by
    extract_lets m bad r te op t
    exact outInv_ite h (outInv_ite (trapWord_inv h) (outInv_ite (lazyTrap_inv (nextId_inv h)) (nextId_inv h)))

theorem execLzdraw_inv {hd : Head} {a b : Src} (h : s.Inv) : OutInv (execLzdraw hd view a b s) := gate_inv h fun _ _ _ _ _ _ h => h

theorem execLazyInstructionComplete_inv (h : s.Inv) : OutInv (execLazyInstructionComplete id s) := by
  unfold execLazyInstructionComplete
  split
  · exact h
  · extract_lets u
    have hu : u.Inv := h
    clear_value u
    split
    · exact outInv_ite hu (outInv_ite hu (outInv_ite hu (ctrDown_inv (lazyTrap_inv hu))))
    · exact hu

end

end Sys2Proof.Machine
end

section
namespace Sys2Proof.Machine

/-! #### The step (Machine/Turn.lean) -/

section
variable {s : State} {i : Instr} {a : Agent} {gid : Nat} {s1 : Bool}

/-- Every instruction keeps the memory's form, those that share a function by that function's lemma. -/
theorem exec_inv (h : s.Inv) : OutInv (exec i s) := by
  unfold exec
  cases i with
  | clauseIssue => exact execClauseIssue_inv h
  | issueChoice => exact execIssueChoice_inv h
  | readyWaitExpiry => exact execReadyWaitExpiry_inv h
  | pathRotation => exact execPathRotation_inv h
  | faultQueueSpace => exact execFaultQueueSpace_inv h
  | tlbWalk => exact execTlbWalk_inv h
  | pendingRetry => exact execPendingRetry_inv h
  | memAccessComplete => exact execMemAccessComplete_inv h
  | storeReachHome => exact execStoreReachHome_inv h
  | leaseExpiry => exact execLeaseExpiry_inv h
  | leaseCopyDrop => exact execLeaseCopyDrop_inv h
  | oabAdmit => exact execOabAdmit_inv h
  | floorAdvance => exact execFloorAdvance_inv h
  | carveChangeComplete => exact execCarveChangeComplete_inv h
  | claimGrant => exact execClaimGrant_inv h
  | tagExpiry => exact execTagExpiry_inv h
  | sleepExpiry => exact execSleepExpiry_inv h
  | futWaitWake => exact execFutWaitWake_inv h
  | ringWaitResume => exact execRingWaitResume_inv h
  | cpyComplete => exact execCpyComplete_inv h
  | tlbinvComplete => exact execTlbinvComplete_inv h
  | tableBankLoad => exact execTableBankLoad_inv h
  | matrixOpStart => exact execMatrixOpStart_inv h
  | rowGroupDone => exact execRowGroupDone_inv h
  | engineProgramStart => exact execEngineProgramStart_inv h
  | engineProgramEnd => exact execEngineProgramEnd_inv h
  | engineFaultDelivery => exact execEngineFaultDelivery_inv h
  | engineTranslationStop => exact execEngineTranslationStop_inv h
  | stepCallDeliver => exact execStepCallDeliver_inv h
  | stepCombinationDone => exact execStepCombinationDone_inv h
  | tokenPoll => exact execTokenPoll_inv h
  | teamPlacement => exact execTeamPlacement_inv h
  | gridComplete => exact execGridComplete_inv h
  | timeSliceSave => exact execTimeSliceSave_inv h
  | tenantDrainDeadline => exact execTenantDrainDeadline_inv h
  | saveSlotRetry => exact execSaveSlotRetry_inv h
  | tgaFormGroup => exact execTgaFormGroup_inv h
  | stealRequest => exact execStealRequest_inv h
  | stealServe => exact execStealServe_inv h
  | stealRestart => exact execStealRestart_inv h
  | gatheredGroupSave => exact execGatheredGroupSave_inv h
  | gatheredGroupRestore => exact execGatheredGroupRestore_inv h
  | softErrorRewind => exact execSoftErrorRewind_inv h
  | l2TagParityFail => exact execL2TagParityFail_inv h
  | waySweepDone => exact execWaySweepDone_inv h
  | bucketRefill => exact execBucketRefill_inv h
  | energyAccount => exact execEnergyAccount_inv h
  | hostPostedWrite => exact execHostPostedWrite_inv h
  | hostRead => exact execHostRead_inv h
  | fabricAck => exact execFabricAck_inv h
  | fabricRetransmit => exact execFabricRetransmit_inv h
  | partcmdQuadrants => exact execPartcmdQuadrants_inv h
  | partcmdBanks => exact execPartcmdBanks_inv h
  | partcmdL2Ways => exact execPartcmdL2Ways_inv h
  | partcmdBuckets => exact execPartcmdBuckets_inv h
  | mboxFirmwareCmd => exact execMboxFirmwareCmd_inv h
  | mboxDone => exact execMboxDone_inv h
  | mboxWindowBase => exact execMboxWindowBase_inv h
  | mboxIntCauseClear => exact execMboxIntCauseClear_inv h
  | wrsrFpctl => exact execWrsrFpctl_inv h
  | wrsrFpflags => exact execWrsrFpflags_inv h
  | rdsrFpflags => exact execRdsrFpflags_inv h
  | rdsrClock0 => exact execRdsrClock0_inv h
  | wrsrUtrap => exact execWrsrUtrap_inv h
  | maskWrite => exact execMaskWrite_inv h
  | mfqheadWrite => exact execMfqheadWrite_inv h
  | nop => exact execNop_inv h
  | mov | iabs | not | popc | clz | brev | iaddi => exact intUn_inv h
  | movi | sel | imad | lop3 | bfx | bfi | lea | shfl | fcls | pack | unpack | digestRd => exact runV_inv h
  | iadd | isub | imul | imulh | imin | imax | shl | shr | sar | rot | and | or | xor => exact intBin_inv h
  | isetp => exact runP_inv h
  | vote => exact execVote_inv h
  | voteBallot => exact execVoteBallot_inv h
  | redx => exact execRedx_inv h
  | fadd | fsub | fmul | fdiv => exact fltBin_inv h
  | ffma | frnd | fcvt | icvt | fcvti | blkdq | bscale | teval => exact runF_inv h
  | fmin | fmax => exact fltMinMax_inv h
  | fsetp => exact execFsetp_inv h
  | fsqrt | frcp | frsq | fex2 | flg2 | fsin | fcos => exact fltUn_inv h
  | blkq => exact execBlkq_inv h
  | srnd | lzcmp | lzcmpExt | lzval => exact lazyWord_inv h
  | tbld => exact execTbld_inv h
  | tbind => exact execTbind_inv h
  | lzdraw => exact execLzdraw_inv h
  | ld | st | ldu | gth | sct | atom | atomo | spill | fill => exact memWord_inv h
  | atomoFin => exact execAtomoFin_inv h
  | fence => exact execFence_inv h
  | cpy => exact execCpy_inv h
  | cpyCont => exact execCpyCont_inv h
  | pref => exact execPref_inv h
  | cmntWb => exact lineWord_inv h fun _ _ _ h => l1WriteBack_inv h
  | cmntInv => exact lineWord_inv h fun _ _ _ h => l1WriteBack_inv h
  | cmntL2wb => exact lineWord_inv h fun _ _ _ h => l2WriteBack_inv _ h
  | cmntL2inv => exact lineWord_inv h fun _ _ _ h => l2Drop_inv _ (l2WriteBack_inv _ h)
  | ringPush | ringPop => exact ringWord_inv h
  | futFill => exact execFutFill_inv h
  | futWait => exact execFutWait_inv h
  | bra => exact execBra_inv h
  | braUniform => exact execBraUniform_inv h
  | brx => exact execBrx_inv h
  | call => exact execCall_inv h
  | callUniform => exact execCallUniform_inv h
  | callx => exact execCallx_inv h
  | ret => exact execRet_inv h
  | exit => exact execExit_inv h
  | exitUniform => exact execExitUniform_inv h
  | yield => exact execYield_inv h
  | barArrive | barWait | barSync => exact barWord_inv h
  | sleep => exact execSleep_inv h
  | trap => exact execTrap_inv h
  | bkpt => exact execBkpt_inv h
  | rtt | rttSub | rttSkip => exact rttWord_inv h
  | forkMx | forkCp | forkCl => exact forkWord_inv h
  | rdv => exact execRdv_inv h
  | mfeedDat | mfeedScl | mfeedBand => exact feedWord_inv h
  | mfeedQ => exact execMfeedQ_inv h
  | mwm => exact execMwm_inv h
  | stepLdtab => exact execStepLdtab_inv h
  | stepBind => exact execStepBind_inv h
  | stepRun => exact execStepRun_inv h
  | stepWait => exact execStepWait_inv h
  | stepDone => exact execStepDone_inv h
  | stepQry => exact execStepQry_inv h
  | stepStat => exact execStepStat_inv h
  | stepStop => exact execStepStop_inv h
  | spawn => exact execSpawn_inv h
  | spawnUniform => exact execSpawnUniform_inv h
  | tend => exact execTend_inv h
  | claim => exact execClaim_inv h
  | give | giveRole => exact giveWord_inv h
  | regionBegin => exact execRegionBegin_inv h
  | regionEnd => exact execRegionEnd_inv h
  | digestFold => exact execDigestFold_inv h
  | rdsr => exact execRdsr_inv h
  | wrsr => exact execWrsr_inv h
  | sysLaunch => exact execSysLaunch_inv h
  | sysTlbinv => exact execSysTlbinv_inv h
  | sysCarve => exact execSysCarve_inv h
  | sysHalt => exact execSysHalt_inv h
  | sysReplay => exact execSysReplay_inv h
  | sysEfail => exact execSysEfail_inv h
  | sysDebug => exact execSysDebug_inv h
  | sysSlice => exact execSysSlice_inv h
  | smov | smovi | sadd | saddi | ssub | smul | sshl | sshr | sand | sor | scmp | snop => exact seqWord_inv h
  | sbra => exact execSbra_inv h
  | sloop => exact execSloop_inv h
  | ssig => exact execSsig_inv h
  | mma | mzero | mbscale => exact reachOp_inv h
  | mwaitAt => exact execMwaitAt_inv h
  | mwaitAcc => exact execMwaitAcc_inv h
  | mrel => exact execMrel_inv h
  | cld | cst => exact blockWord_inv h
  | cgth | csct => exact indexWord_inv h
  | cacc => exact execCacc_inv h
  | ccoll => exact execCcoll_inv h
  | cwait => exact execCwait_inv h
  | cfill => exact execCfill_inv h
  | lazyInstructionComplete => exact execLazyInstructionComplete_inv h
  | copyOperationComplete => exact execCopyOperationComplete_inv h
  | fabricRemoteAccess => exact execFabricRemoteAccess_inv h
  | mboxNop => exact execMboxNop_inv h
  | mboxAttest => exact execMboxAttest_inv h
  | mboxTelemetry => exact execMboxTelemetry_inv h
  | resetBoot => exact execResetBoot_inv h
  | thermalTrip => exact execThermalTrip_inv h
  | join => exact execJoin_inv h
  | send => exact execSend_inv h
theorem startTurn_inv (h : s.Inv) : (startTurn s a).Inv := by
  unfold startTurn
  split
  · exact takePort_inv h
  · exact h

theorem startEvent_inv (h : s.Inv) : (startEvent s).Inv := h

/-- The outcome in place of a word that is not there. -/
def WordInv : State × Sum Out Instr → Prop
  | (_, .inl o) => OutInv o
  | (s, .inr _) => s.Inv

theorem nextWord_inv (h : s.Inv) : WordInv (nextWord s a) := by
  unfold nextWord
  split
  · exact h
  · split
    · exact h
    · split
      · exact execEngineFaultDelivery_inv (inv_fst (fetchSlot_inv h) ‹_›)
      · have hf := inv_fst (fetchSlot_inv h) ‹_›
        exact parkSlot_inv hf
      · have hf := inv_fst (fetchSlot_inv h) ‹_›
        exact rawTrap_inv hf
      · exact inv_fst (fetchSlot_inv h) ‹_›
  · split
    · exact h
    · split
      · exact inv_fst (fetchProg_inv h) ‹_›
      · have hf := inv_fst (fetchProg_inv h) ‹_›
        exact stopProg_inv hf
      · have hf := inv_fst (fetchProg_inv h) ‹_›
        exact progFault_inv hf
      · exact inv_fst (fetchProg_inv h) ‹_›

theorem runWord_inv (h : s.Inv) : OutInv (runWord s a) := by
  have hw : WordInv (nextWord s a) := nextWord_inv h
  unfold runWord
  generalize nextWord s a = w at hw ⊢
  obtain ⟨u, o | i⟩ := w
  · exact hw
  · exact exec_inv hw

theorem tryWord_inv (h : s.Inv) : OutInv (tryWord s gid s1).1 := by
  have hs : (startEvent s).Inv := startEvent_inv h
  exact runWord_inv hs

theorem probeWord_inv (h : s.Inv) : OutInv (probeWord s gid s1) := by
  have ho : OutInv (tryWord s gid s1).1 := tryWord_inv h
  unfold probeWord
  generalize tryWord s gid s1 = r at ho ⊢
  obtain ⟨o, b⟩ := r
  cases b with
  | true => exact startEvent_inv h
  | false =>
    dsimp only
    split
    · exact startEvent_inv h
    · exact outInv_ite ho (modSlot_inv (startEvent_inv h))

theorem goTurn_inv (h : s.Inv) : OutInv (goTurn s a) := by
  unfold goTurn
  extract_lets issue
  have hi : OutInv issue := outInv_ite (runWord_inv (startTurn_inv h)) (startEvent_inv h)
  clear_value issue
  split
  · exact outInv_ite (probeWord_inv h) hi
  · exact hi

theorem noteWaits_inv (h : s.Inv) : (noteWaits s).Inv := h

theorem takeTurn_inv (h : s.Inv) : (takeTurn s).2.Inv := by
  unfold takeTurn
  split
  · exact h
  · exact h

theorem step_inv (h : s.Inv) : OutInv (step s) := by
  have ht : (takeTurn (noteWaits s)).2.Inv := takeTurn_inv (noteWaits_inv h)
  unfold step
  generalize takeTurn (noteWaits s) = r at ht ⊢
  obtain ⟨t, u⟩ := r
  refine outInv_ite (startEvent_inv ht) ?_
  cases t with
  | tick n => exact ht
  | ev i => exact exec_inv (startEvent_inv ht)
  | go a => exact goTurn_inv ht

end

/-- Settles O25: the lemmas above carry the memory's form through every function that a step runs. -/
theorem everyStepKeepsMemoryForm : Obligations.EveryStepKeepsMemoryForm := fun _ _ h e => inv_of_outInv (step_inv h) e

end Sys2Proof.Machine
end

section
namespace Sys2Proof.Machine

/-! ### The byte at its home (R60, R61, R79)

What a write-back, an eviction, a line's place and a byte's store do to the bytes as the home gives them, and to the lines of the L2. -/

section
variable {s t u : State} {e : L2Line} {k j n line tenant d w : Nat} {pol : BitVec 2} {v : Byte} {out : Option Resident} {r : Resident} {ks : List Nat}

/-- The home's byte is read from memory and the L2's lines alone. -/
theorem homeByte_congr (hm : t.mem = s.mem) (hl : t.l2 = s.l2) : homeByte t k = homeByte s k := by
  unfold homeByte State.l2Line?
  rw [hm, hl]

theorem homeByte_none (h : s.l2Line? (lineOf k) = none) : homeByte s k = memGet s.mem k := by
  unfold homeByte
  rw [h]

theorem homeByte_some (h : s.l2Line? (lineOf k) = some e) :
    homeByte s k = if e.mask.getLsbD (k % 128) then lineByte e.data (k % 128) else memGet s.mem k := by
  unfold homeByte
  rw [h]

/-- Lines changed in place are found under their numbers. -/
theorem l2Line?_map {f : L2Line → L2Line} (hf : ∀ x, (f x).line = x.line) (hl : t.l2 = s.l2.map f) : t.l2Line? n = (s.l2Line? n).map f := by
  unfold State.l2Line?
  rw [hl, List.find?_map]
  congr 2
  funext x
  simp only [Function.comp_apply, hf]

theorem memGet_memPuts_map {m : Memory} (f : Nat → Byte) (h : Memory.wf m = true) :
    memGet (memPuts m ks (ks.map f)) k = if k ∈ ks then f k else memGet m k := by
  induction ks generalizing m with
  | nil => rfl
  | cons a r ih =>
    have hs : memPuts m (a :: r) ((a :: r).map f) = memPuts (memPut m a (f a)) r (r.map f) := rfl
    rw [hs, ih (memPut_wf _ _ h)]
    by_cases hr : k ∈ r
    · rw [if_pos hr, if_pos (List.mem_cons_of_mem _ hr)]
    · rw [if_neg hr]
      by_cases ha : k = a
      · rw [ha, memGet_memPut_self a _ h, if_pos List.mem_cons_self]
      · rw [memGet_memPut_ne _ _ ha, if_neg]
        exact fun hc => (List.mem_cons.1 hc).elim ha hr

theorem mem_lineKeys {p : Nat → Bool} : k ∈ (upFrom (line * 128) 128).filter p ↔ lineOf k = line ∧ p k = true := by
  have hu : k ∈ upFrom (line * 128) 128 ↔ lineOf k = line := by
    unfold upFrom lineOf
    simp only [List.mem_map, List.mem_range]
    constructor
    · rintro ⟨o, ho, rfl⟩
      omega
    · intro h
      exact ⟨k % 128, by omega, by omega⟩
  rw [List.mem_filter, hu]

/-! #### Write-back and removal -/

/-- A line of the L2 once its dirty sectors have gone to memory. -/
def L2Line.cleaned (e : L2Line) : L2Line := { e with valid := e.valid ||| wholeSectors e.mask, dirty := 0#4, mask := 0#128 }

/-- A write-back changes the line and memory, and spends tokens. -/
theorem l2WriteBack_some (h : s.l2Line? line = some e) : ∃ ds, l2WriteBack s line =
    { s with dies := ds,
             mem := memPuts s.mem ((upFrom (line * 128) 128).filter fun k => e.mask.getLsbD (k % 128))
               (((upFrom (line * 128) 128).filter fun k => e.mask.getLsbD (k % 128)).map fun k => lineByte e.data (k % 128)),
             l2 := s.l2.map fun x => if x.line = line then x.cleaned else x } := by
  obtain ⟨ds, hd⟩ := transfer_eq s e.tenant line e.dirty
  refine ⟨ds, ?_⟩
  unfold l2WriteBack
  rw [h]
  dsimp only
  rw [hd]
  rfl

theorem l2WriteBack_none (h : s.l2Line? line = none) : l2WriteBack s line = s := by
  unfold l2WriteBack
  rw [h]

theorem l2Line?_l2WriteBack : (l2WriteBack s line).l2Line? n = (s.l2Line? n).map fun x => if x.line = line then x.cleaned else x := by
  cases h : s.l2Line? line with
  | none =>
    rw [l2WriteBack_none h]
    cases hn : s.l2Line? n with
    | none => rfl
    | some x =>
      have hx : x.line ≠ line := l2Line?_none h x (List.mem_of_find?_eq_some hn)
      rw [Option.map_some, if_neg hx]
  | some e =>
    obtain ⟨ds, hd⟩ := l2WriteBack_some h
    refine l2Line?_map (fun x => ?_) (by rw [hd])
    split
    · rfl
    · rfl

theorem memGet_l2WriteBack (h : s.Inv) : memGet (l2WriteBack s line).mem k = if lineOf k = line then homeByte s k else memGet s.mem k := by
  cases hl : s.l2Line? line with
  | none =>
    rw [l2WriteBack_none hl]
    split
    · next hk => exact (homeByte_none (hk ▸ hl)).symm
    · rfl
  | some e =>
    obtain ⟨ds, hd⟩ := l2WriteBack_some hl
    rw [hd, memGet_memPuts_map _ h.1]
    by_cases hk : lineOf k = line
    · rw [if_pos hk, homeByte_some (hk ▸ hl)]
      simp only [mem_lineKeys, hk, true_and]
    · simp only [mem_lineKeys, hk, false_and, if_false]

theorem homeByte_l2WriteBack (h : s.Inv) : homeByte (l2WriteBack s line) k = homeByte s k := by
  have hl : (l2WriteBack s line).l2Line? (lineOf k) = _ := l2Line?_l2WriteBack
  have hm := memGet_l2WriteBack (line := line) (k := k) h
  cases hs : s.l2Line? (lineOf k) with
  | none =>
    rw [hs] at hl
    rw [homeByte_none hl, hm, homeByte_none hs, ite_self]
  | some e =>
    have he : e.line = lineOf k := l2Line?_line hs
    rw [hs, Option.map_some, he] at hl
    rw [homeByte_some hl, hm]
    by_cases hk : lineOf k = line
    · simp only [if_pos hk, L2Line.cleaned, BitVec.getLsbD_zero, Bool.false_eq_true, if_false]
    · simp only [if_neg hk]
      exact (homeByte_some hs).symm

theorem l2Line?_l2Drop : (l2Drop s line).l2Line? n = if n = line then none else s.l2Line? n := by
  unfold l2Drop State.l2Line?
  rw [List.find?_filter]
  split
  · next hn =>
    refine List.find?_eq_none.2 fun x _ => ?_
    simp [hn]
  · next hn =>
    congr 1
    funext x
    by_cases hx : x.line = n <;> simp [hx, hn]

theorem homeByte_l2Drop_l2WriteBack (h : s.Inv) : homeByte (l2Drop (l2WriteBack s line) line) k = homeByte s k := by
  by_cases hk : lineOf k = line
  · have hn : (l2Drop (l2WriteBack s line) line).l2Line? (lineOf k) = none := l2Line?_l2Drop.trans (if_pos hk)
    rw [homeByte_none hn]
    exact (memGet_l2WriteBack h).trans (if_pos hk)
  · have hn : (l2Drop (l2WriteBack s line) line).l2Line? (lineOf k) = (l2WriteBack s line).l2Line? (lineOf k) := l2Line?_l2Drop.trans (if_neg hk)
    rw [← homeByte_l2WriteBack (line := line) h]
    unfold homeByte
    rw [hn]
    rfl

/-! #### A line's place -/

theorem homeByte_l2Evict (h : s.Inv) : homeByte (l2Evict s d out) k = homeByte s k := by
  cases out with
  | none => rfl
  | some r =>
    unfold l2Evict
    dsimp only
    split
    · rfl
    · exact homeByte_l2Drop_l2WriteBack h

/-- An eviction leaves every line but that which it takes. -/
theorem l2Line?_l2Evict (ho : ∀ r, out = some r → r.leased = false → r.line ≠ n) : (l2Evict s d out).l2Line? n = s.l2Line? n := by
  cases out with
  | none => rfl
  | some r =>
    unfold l2Evict
    dsimp only
    split
    · rfl
    · next hr =>
      have hn : r.line ≠ n := ho r rfl (Bool.not_eq_true _ ▸ hr)
      rw [l2Line?_l2Drop, if_neg hn.symm, l2Line?_l2WriteBack]
      cases hs : s.l2Line? n with
      | none => rfl
      | some x => rw [Option.map_some, if_neg (l2Line?_line hs ▸ hn.symm)]

/-- A line that the L2 lacks is not there after an eviction. -/
theorem l2Line?_l2Evict_none (h : s.l2Line? n = none) : (l2Evict s d out).l2Line? n = none := by
  refine List.find?_eq_none.2 fun x hx hn => ?_
  obtain ⟨y, hy, hl⟩ := List.mem_map.1 (l2Evict_lines d out x.line (List.mem_map_of_mem hx))
  exact l2Line?_none h y hy (hl.trans (of_decide_eq_true hn))

theorem homeByte_l2Place (h : s.Inv) : homeByte (l2Place s tenant pol line) k = homeByte s k := by
  unfold l2Place
  split
  · rfl
  · next hs =>
    have hno : s.l2Line? line = none := by simpa using hs
    extract_lets d slice
    split
    · rfl
    · next w out _ =>
      extract_lets e u
      have hu : u.l2Line? line = none := l2Line?_l2Evict_none hno
      have hb : homeByte u k = homeByte s k := homeByte_l2Evict h
      clear_value u
      rw [← hb]
      have hl : ({ u with l2 := u.l2 ++ [e] } : State).l2Line? (lineOf k) = (u.l2Line? (lineOf k)).or (if line = lineOf k then some e else none) := by
        unfold State.l2Line?
        rw [List.find?_append, List.find?_singleton]
        simp only [decide_eq_true_eq]
        rfl
      cases hk : u.l2Line? (lineOf k) with
      | some x =>
        rw [hk, Option.some_or] at hl
        rw [homeByte_some hl, homeByte_some hk]
      | none =>
        rw [hk, Option.none_or] at hl
        rw [homeByte_none hk]
        by_cases he : line = lineOf k
        · rw [if_pos he] at hl
          rw [homeByte_some hl]
          exact if_neg (by simp [e])
        · rw [if_neg he] at hl
          exact homeByte_none hl

theorem firstOut_mem {l : List Resident} (h : firstOut l = some r) : r ∈ l := by
  induction l generalizing r with
  | nil => cases h
  | cons a l ih =>
    unfold firstOut at h
    split at h
    · cases h
      exact List.mem_cons_self
    · next x hx =>
      cases h
      split
      · exact List.mem_cons_of_mem _ (ih hx)
      · exact List.mem_cons_self

/-- What leaves its way for a line is in the line's set, in one of the ways asked for. -/
theorem wayIn_out {slice : Nat} {ws : List Nat} (h : wayIn s d slice line ws = some (w, some r)) : r ∈ residents s d slice line ∧ r.way ∈ ws := by
  unfold wayIn at h
  extract_lets here at h
  split at h
  · cases h
  · obtain ⟨x, hx, he⟩ := Option.map_eq_some_iff.1 h
    cases he
    have hm := List.mem_filter.1 (firstOut_mem hx)
    exact ⟨hm.1, by simpa using hm.2⟩

/-- A home line of a die's slice is a line of the L2, in its way. -/
theorem residents_home {slice : Nat} (h : r ∈ residents s d slice line) (hr : r.leased = false) :
    ∃ x ∈ s.l2, x.line = r.line ∧ x.way = r.way := by
  unfold residents at h
  rcases List.mem_append.1 h with h | h
  · obtain ⟨x, hx, rfl⟩ := List.mem_map.1 h
    exact ⟨x, List.mem_of_mem_filter hx, rfl, rfl⟩
  · obtain ⟨x, hx, rfl⟩ := List.mem_map.1 h
    cases hr

/-- The ways open to a line are not being swept. -/
theorem openWays_not_swept {slice : Nat}
    (h : w ∈ if (allowedWays s d slice tenant).isEmpty then
        (List.range 24).filter fun w => (poolMask (s.die d) slice).getLsbD w && !waySwept (s.die d) slice w
      else allowedWays s d slice tenant) : waySwept (s.die d) slice w = false := by
  split at h
  · have hm := (List.mem_filter.1 h).2
    simp only [Bool.and_eq_true, Bool.not_eq_true'] at hm
    exact hm.2
  · have hm := (List.mem_filter.1 h).2
    simp only [Bool.and_eq_true, Bool.not_eq_true'] at hm
    exact hm.2

theorem homeByte_l2Move (h : s.Inv) : homeByte (l2Move s tenant e).1 k = homeByte s k := by
  unfold l2Move
  extract_lets x rest pool
  split
  · split
    · exact homeByte_l2Evict h
    · exact homeByte_l2Drop_l2WriteBack h
  · rfl

/-- Lines have numbers of their own. -/
theorem l2_line_inj {x y : L2Line} (h : s.Inv) (hx : x ∈ s.l2) (hy : y ∈ s.l2) (he : x.line = y.line) : x = y :=
  List.inj_on_of_nodup_map h.2.2 hx hy he

/-- A line that moves into another way stays in the L2: what leaves for it is in a way that is not being swept. -/
theorem l2Line?_l2Move (h : s.Inv) (he : s.l2Line? n = some e) (hm : l2Move s tenant e = (u, some w)) : u.l2Line? n = some e := by
  unfold l2Move at hm
  extract_lets x rest pool at hm
  split at hm
  · next hswept =>
    split at hm
    · next out hw =>
      cases hm
      rw [l2Line?_l2Evict, he]
      rintro r rfl hr hn
      obtain ⟨hres, hway⟩ := wayIn_out hw
      obtain ⟨y, hy, hyl, hyw⟩ := residents_home hres hr
      have hye : y = e := l2_line_inj h hy (List.mem_of_find?_eq_some he) (hyl.trans (hn.trans (l2Line?_line he).symm))
      have hno := openWays_not_swept hway
      rw [← hyw, hye] at hno
      exact Bool.false_ne_true (hno.symm.trans hswept)
    · cases hm
  · cases hm
    exact he

/-- A line for which there is no way leaves the L2. -/
theorem l2Line?_l2Move_none (hm : l2Move s tenant e = (u, none)) : u.l2Line? e.line = none := by
  unfold l2Move at hm
  extract_lets x rest pool at hm
  split at hm
  · split at hm
    · cases hm
    · cases hm
      rw [l2Line?_l2Drop, if_pos rfl]
  · cases hm

/-! #### A byte written -/

theorem lineByte_setLineByte_self (data : BitVec 1024) {o : Nat} (ho : o < 128) : lineByte (setLineByte data o v) o = v :=
  getField_setField data (8 * o) v (by omega)

theorem lineByte_setLineByte_ne (data : BitVec 1024) {o p : Nat} (ho : o < 128) (h : o ≠ p) :
    lineByte (setLineByte data p v) o = lineByte data o :=
  getField_setField_ne data (8 * p) v (8 * o) (by omega) (by omega)

theorem getLsbD_or_bit (m : BitVec 128) {o : Nat} (p : Nat) (ho : o < 128) :
    (m ||| 1#128 <<< p).getLsbD o = (m.getLsbD o || decide (o = p)) := by
  rw [BitVec.getLsbD_or, BitVec.getLsbD_shiftLeft, BitVec.getLsbD_one]
  congr 1
  by_cases hp : o = p
  · simp [hp, hp ▸ ho]
  · simp only [hp, decide_false, Bool.and_eq_false_imp, Bool.and_eq_true, decide_eq_true_eq, Bool.not_eq_true', decide_eq_false_iff_not]
    omega

theorem homeByte_memPut (h : Memory.wf s.mem = true) (hn : s.l2Line? (lineOf k) = none) :
    homeByte { s with mem := memPut s.mem k v } j = if j = k then v else homeByte s j := by
  by_cases hj : j = k
  · subst hj
    rw [if_pos rfl]
    exact (homeByte_none (s := { s with mem := memPut s.mem j v }) hn).trans (memGet_memPut_self j v h)
  · rw [if_neg hj]
    unfold homeByte
    rw [memGet_memPut_ne _ _ hj]
    rfl

/-- A key outside the module's memory has no line in the L2. -/
theorem l2Line?_outside (h : s.Inv) (hk : ¬ (isGlobal k && window k = 0) = true) : s.l2Line? (lineOf k) = none := by
  refine List.find?_eq_none.2 fun x hx hn => hk ?_
  have hl := h.2.1 x hx
  have he : x.line = lineOf k := of_decide_eq_true hn
  unfold lineOf at he
  unfold isGlobal window
  have hk : k < 2 ^ 52 := by omega
  simp only [Bool.and_eq_true, decide_eq_true_eq]
  omega

/-- A line of the L2 that takes a byte gives that byte, and its other bytes as before. -/
theorem homeByte_replaced {e' : L2Line} (he : s.l2Line? (lineOf k) = some e) (hl : e'.line = e.line)
    (hmask : e'.mask = e.mask ||| 1#128 <<< (k % 128)) (hdata : e'.data = setLineByte e.data (k % 128) v) :
    homeByte { s with l2 := s.l2.map fun x => if x.line = lineOf k then e' else x } j = if j = k then v else homeByte s j := by
  have hline := l2Line?_line he
  have hf : ∀ n, ({ s with l2 := s.l2.map fun x => if x.line = lineOf k then e' else x } : State).l2Line? n =
      (s.l2Line? n).map fun x => if x.line = lineOf k then e' else x :=
    fun n => l2Line?_map (fun x => replaced_line hline x hl) rfl
  by_cases hj : lineOf j = lineOf k
  · have hj' := hf (lineOf j)
    rw [congrArg s.l2Line? hj, he, Option.map_some, if_pos hline] at hj'
    rw [homeByte_some hj', homeByte_some (hj ▸ he), hmask, hdata]
    have hb := getLsbD_or_bit e.mask (k % 128) (Nat.mod_lt j (show 128 > 0 by decide))
    unfold lineOf at hj
    by_cases hjk : j = k
    · subst hjk
      rw [hb, if_pos rfl, if_pos (by simp), lineByte_setLineByte_self _ (Nat.mod_lt _ (by decide))]
    · have hne : j % 128 ≠ k % 128 := by omega
      rw [hb, if_neg hjk, lineByte_setLineByte_ne _ (Nat.mod_lt _ (by decide)) hne]
      simp only [hne, decide_false, Bool.or_false]
  · rw [if_neg (fun hc : j = k => hj (congrArg lineOf hc))]
    have hj' := hf (lineOf j)
    have hsame : ({ s with l2 := s.l2.map fun x => if x.line = lineOf k then e' else x } : State).l2Line? (lineOf j) = s.l2Line? (lineOf j) := by
      rw [hj']
      cases hs : s.l2Line? (lineOf j) with
      | none => rfl
      | some x => rw [Option.map_some, if_neg (l2Line?_line hs ▸ hj)]
    unfold homeByte
    rw [hsame]

/-- A byte written at its home is the byte that the home gives, and no other changes. -/
theorem homeByte_homePut (h : s.Inv) : homeByte (homePut s tenant pol k v) j = if j = k then v else homeByte s j := by
  unfold homePut
  split
  · next hg =>
    have hk : lineOf k < 2 ^ 45 := window_zero (by simpa using (Bool.and_eq_true_iff.1 hg).2)
    extract_lets p
    have hp : p.Inv := l2Place_inv tenant pol _ hk h
    have hb : homeByte p j = homeByte s j := homeByte_l2Place h
    clear_value p
    rw [← hb]
    split
    · next e he =>
      extract_lets room
      have hm : homeByte (l2Move p tenant e).1 j = homeByte p j := homeByte_l2Move hp
      have hi : (l2Move p tenant e).1.Inv := l2Move_inv tenant e hp
      split
      · next q hq =>
        rw [hq] at hm hi
        rw [← hm]
        exact homeByte_memPut hi.1 (l2Line?_line he ▸ l2Line?_l2Move_none hq)
      · next q w hq =>
        rw [hq] at hm
        rw [← hm]
        exact homeByte_replaced (l2Line?_l2Move hp he hq) rfl rfl rfl
    · next hn => exact homeByte_memPut hp.1 hn
  · next hg => exact homeByte_memPut h.1 (l2Line?_outside h hg)

/-- Bytes that are a function of their keys, written at their homes. -/
theorem homeByte_homePuts (f : Nat → Byte) (h : s.Inv) :
    homeByte (homePuts s tenant pol ks (ks.map f)) k = if k ∈ ks then f k else homeByte s k := by
  induction ks generalizing s with
  | nil => rfl
  | cons a r ih =>
    have hs : homePuts s tenant pol (a :: r) ((a :: r).map f) = homePuts (homePut s tenant pol a (f a)) tenant pol r (r.map f) := rfl
    rw [hs, ih (homePut_inv _ _ _ _ h), homeByte_homePut h]
    by_cases hr : k ∈ r
    · rw [if_pos hr, if_pos (List.mem_cons_of_mem _ hr)]
    · rw [if_neg hr]
      by_cases ha : k = a
      · rw [if_pos ha, if_pos (ha ▸ List.mem_cons_self), ha]
      · rw [if_neg ha, if_neg]
        exact fun hc => (List.mem_cons.1 hc).elim ha hr

theorem homeByte_storeBy {x : Writer} (f : Nat → Byte) (h : s.Inv) :
    homeByte (storeBy s x ks (ks.map f)) k = if k ∈ ks then f k else homeByte s k := by
  unfold storeBy
  extract_lets leased lines hs u
  have hu : u.Inv := h
  have hb : homeByte u k = homeByte s k := homeByte_congr rfl rfl
  rw [← hb]
  exact homeByte_homePuts f hu

end

/-! #### What the homes leave as it is -/

/-- All that an operation of the homes may change: memory, the L2 with its leased copies, and the dies' tokens. -/
def HomeStep (s t : State) : Prop := ∃ m l ls ds, t = { s with mem := m, l2 := l, leases := ls, dies := ds }

section
variable {s t u : State} {e : L2Line} {k line tenant d : Nat} {pol : BitVec 2} {v : Byte} {out : Option Resident} {ks : List Nat} {vs : List Byte}

theorem HomeStep.refl (s : State) : HomeStep s s := ⟨_, _, _, _, rfl⟩

theorem HomeStep.trans (h : HomeStep s t) (h' : HomeStep t u) : HomeStep s u := by
  obtain ⟨_, _, _, _, rfl⟩ := h
  obtain ⟨m, l, ls, ds, rfl⟩ := h'
  exact ⟨m, l, ls, ds, rfl⟩

theorem HomeStep.cores (h : HomeStep s t) : t.cores = s.cores := by
  obtain ⟨_, _, _, _, rfl⟩ := h
  rfl

theorem homeStep_l2WriteBack : HomeStep s (l2WriteBack s line) := by
  cases h : s.l2Line? line with
  | none =>
    rw [l2WriteBack_none h]
    exact HomeStep.refl s
  | some e =>
    obtain ⟨ds, hd⟩ := l2WriteBack_some h
    rw [hd]
    exact ⟨_, _, _, _, rfl⟩

theorem homeStep_l2Drop : HomeStep s (l2Drop (l2WriteBack s line) line) := homeStep_l2WriteBack.trans ⟨_, _, _, _, rfl⟩

theorem homeStep_l2Evict : HomeStep s (l2Evict s d out) := by
  cases out with
  | none => exact HomeStep.refl s
  | some r =>
    unfold l2Evict
    dsimp only
    split
    · exact ⟨_, _, _, _, rfl⟩
    · exact homeStep_l2Drop

theorem homeStep_l2Place : HomeStep s (l2Place s tenant pol line) := by
  unfold l2Place
  split
  · exact HomeStep.refl s
  · extract_lets d slice
    split
    · exact HomeStep.refl s
    · exact homeStep_l2Evict.trans ⟨_, _, _, _, rfl⟩

theorem homeStep_l2Move : HomeStep s (l2Move s tenant e).1 := by
  unfold l2Move
  extract_lets x rest pool
  split
  · split
    · exact homeStep_l2Evict
    · exact homeStep_l2Drop
  · exact HomeStep.refl s

theorem homeStep_homePut : HomeStep s (homePut s tenant pol k v) := by
  unfold homePut
  split
  · extract_lets p
    have hp : HomeStep s p := homeStep_l2Place
    refine hp.trans ?_
    split
    · next e he =>
      have hm : HomeStep p (l2Move p tenant e).1 := homeStep_l2Move
      split
      · next q hq =>
        rw [hq] at hm
        exact hm.trans ⟨_, _, _, _, rfl⟩
      · next q w hq =>
        rw [hq] at hm
        exact hm.trans ⟨_, _, _, _, rfl⟩
    · exact ⟨_, _, _, _, rfl⟩
  · exact ⟨_, _, _, _, rfl⟩

theorem homeStep_homePuts : HomeStep s (homePuts s tenant pol ks vs) :=
  List.foldlRecOn (motive := fun t => HomeStep s t) _ _ (HomeStep.refl s) fun _ h _ _ => h.trans homeStep_homePut

theorem cores_storeBy {x : Writer} : (storeBy s x ks vs).cores = s.cores := by
  unfold storeBy
  exact homeStep_homePuts.cores

end

/-! ### The write-backs (R58, R60, R61, R79) -/

section
variable {s : State} {die core line k : Nat} {e : L1Line}

theorem l1Line?_line (h : s.l1Line? die core line = some e) : e.line = line := of_decide_eq_true (List.find?_some h :)

/-- The dirty sectors of a line of the L1 go home, and no other byte changes there. -/
theorem homeByte_l1WriteBackLine (h : s.Inv) : homeByte (l1WriteBackLine s die core e) k =
    if lineOf k = e.line ∧ e.dirty.getLsbD (sectorOf k) = true then lineByte e.data (k % 128) else homeByte s k := by
  unfold l1WriteBackLine
  rw [homeByte_storeBy _ h]
  simp only [mem_lineKeys]

/-- A line of a core's L1 that is updated is found as it is now. -/
theorem l1Line?_l1Update {e' : L1Line} (h : s.l1Line? die core e'.line = some e) : (l1Update s die core e').l1Line? die core e'.line = some e' := by
  have hm : ∀ l : List L1Line, (l.map fun x => if x.line = e'.line then e' else x).find? (fun x => decide (x.line = e'.line)) =
      (l.find? fun x => decide (x.line = e'.line)).map fun x => if x.line = e'.line then e' else x := fun l => by
    rw [List.find?_map]
    congr 2
    funext x
    by_cases hx : x.line = e'.line <;> simp [hx]
  unfold State.l1Line? at h ⊢
  unfold l1Update
  rw [core_setCore, hm, h, Option.map_some, if_pos]
  exact of_decide_eq_true (List.find?_some h :)

theorem l1Line?_l1WriteBackLine {n : Nat} : (l1WriteBackLine s die core e).l1Line? die core n = s.l1Line? die core n := by
  unfold State.l1Line? State.core l1WriteBackLine
  rw [cores_storeBy]

theorem l1WriteBack_some (h : s.l1Line? die core line = some e) :
    l1WriteBack s die core line = l1Update (l1WriteBackLine s die core e) die core { e with dirty := 0#4 } := by
  unfold l1WriteBack
  rw [h]

end

/-- Settles O43: the L2's write-backs by what they do to the home's bytes, the L1's by the bytes that its store writes there. -/
theorem writeBacksKeepBytes : Obligations.WriteBacksKeepBytes := by
  unfold Obligations.WriteBacksKeepBytes
  intro s die core line h
  refine ⟨fun k => homeByte_l2WriteBack h, fun k => homeByte_l2Drop_l2WriteBack h, fun k hk => (memGet_l2WriteBack h).trans (if_pos hk), ?_, ?_⟩
  · intro hn
    unfold l1WriteBack
    rw [hn]
  · intro e he
    have hl := l1Line?_line he
    rw [l1WriteBack_some he]
    refine ⟨fun k => ?_, ?_⟩
    · have hb := homeByte_l1WriteBackLine (die := die) (core := core) (e := e) (k := k) h
      rw [hl] at hb
      exact hb
    · have hu := l1Line?_l1Update (e' := { e with dirty := 0#4 }) ((l1Line?_l1WriteBackLine (e := e)).trans (hl ▸ he))
      rw [← hl, hu]
      rfl

end Sys2Proof.Machine
end

section
namespace Sys2Proof.Machine

/-! ### A load completes (R59, R63, R66, R68, R78, R85, R88, R97, R109) -/

/-- All that fetches through the caches and changes of the L1 may touch. -/
def HierStep (s t : State) : Prop :=
  ∃ m l ls ds hs cs n, t = { s with mem := m, l2 := l, leases := ls, dies := ds, held := hs, cores := cs, fresh := n }

section
variable {s t u : State} {die core tenant k line d id : Nat} {sp : Space} {pol : BitVec 2} {w : Writer} {ks : List Nat} {vs : List Byte}
  {e : L1Line} {lp : Bool} {a : Acc}

theorem HierStep.refl (s : State) : HierStep s s := ⟨_, _, _, _, _, _, _, rfl⟩

theorem HierStep.trans (h : HierStep s t) (h' : HierStep t u) : HierStep s u := by
  obtain ⟨_, _, _, _, _, _, _, rfl⟩ := h
  obtain ⟨m, l, ls, ds, hs, cs, n, rfl⟩ := h'
  exact ⟨m, l, ls, ds, hs, cs, n, rfl⟩

theorem HierStep.accs (h : HierStep s t) : t.accs = s.accs := by
  obtain ⟨_, _, _, _, _, _, _, rfl⟩ := h
  rfl

theorem HomeStep.hier (h : HomeStep s t) : HierStep s t := by
  obtain ⟨m, l, ls, ds, rfl⟩ := h
  exact ⟨m, l, ls, ds, _, _, _, rfl⟩

theorem hierStep_storeBy : HierStep s (storeBy s w ks vs) := by
  have hh (hs : List Held) : HierStep s { s with held := hs } := ⟨_, _, _, _, _, _, _, rfl⟩
  unfold storeBy
  exact (hh _).trans homeStep_homePuts.hier

theorem homeStep_l2Fill : HomeStep s (l2Fill s tenant pol line) := by
  unfold l2Fill
  split
  · extract_lets p
    have hp : HomeStep s p := by
      obtain ⟨ds, hd⟩ := transfer_eq (l2Place s tenant pol line) tenant line (missing s line)
      have hu : HomeStep (l2Place s tenant pol line) p := ⟨_, _, _, ds, hd⟩
      exact homeStep_l2Place.trans hu
    clear_value p
    refine hp.trans ?_
    split
    · exact HomeStep.refl p
    · exact ⟨_, _, _, _, rfl⟩
  · exact HomeStep.refl s

theorem hierStep_leaseFetch : HierStep s (leaseFetch s d tenant pol k) := by
  have hl (t : State) (ls : List Lease) : HierStep t { t with leases := ls } := ⟨_, _, _, _, _, _, _, rfl⟩
  have hb (t : State) : HierStep t (leaseBits t k).2 := by
    unfold leaseBits
    split
    · exact HierStep.refl t
    · exact ⟨_, _, _, _, _, _, _, rfl⟩
  unfold leaseFetch
  extract_lets ln p slice q
  have hq : HierStep s q := homeStep_l2Fill.hier.trans (hl _ _)
  clear_value q
  split
  · exact HierStep.refl s
  · split
    · exact hl _ _
    · split
      · exact HierStep.refl s
      · split
        · exact hq
        · exact ((hq.trans (hb q)).trans homeStep_l2Evict.hier).trans (hl _ _)

theorem hierStep_l2Read : HierStep s (l2Read s d tenant pol k) := by
  unfold l2Read
  split
  · exact homeStep_l2Fill.hier
  · exact hierStep_leaseFetch

theorem hierStep_setCore {c : CoreSt} : HierStep s (s.setCore die core c) := ⟨_, _, _, _, _, _, _, rfl⟩

theorem hierStep_l1Alloc : HierStep s (l1Alloc s die core tenant line pol lp) := by
  unfold l1Alloc
  extract_lets ways set here mk
  split
  · exact hierStep_setCore
  · split
    · exact HierStep.refl s
    · exact hierStep_storeBy.trans hierStep_setCore

theorem hierStep_l1Update : HierStep s (l1Update s die core e) := hierStep_setCore

theorem hierStep_fetchFor : HierStep s (fetchFor s die core tenant sp pol k) := by
  unfold fetchFor
  extract_lets strm p q
  have hp : HierStep s p := hierStep_l2Read
  have hq : HierStep s q := hp.trans hierStep_l1Alloc
  clear_value p q
  split
  · exact HierStep.refl s
  · split
    · split
      · split
        · exact hierStep_l1Update
        · exact hp.trans hierStep_l1Update
      · split
        · exact hq.trans hierStep_l1Update
        · exact hq
    · exact hierStep_l2Read

theorem hierStep_fetches {qs : List Nat} : HierStep s (qs.foldl (fun x q => fetchFor x die core tenant sp pol (32 * q)) s) :=
  List.foldlRecOn (motive := fun t => HierStep s t) qs _ (HierStep.refl s) fun _ h _ _ => h.trans hierStep_fetchFor

/-- On-chip bytes are fetched by no cache. -/
theorem fetchFor_onChip (hk : 2 ^ 56 ≤ k) : fetchFor s die core tenant sp pol k = s := by
  unfold fetchFor
  extract_lets strm
  refine if_pos ?_
  unfold isGlobal
  simpa using hk

theorem fetches_onChip {ks : List Nat} (hk : ∀ k ∈ ks, 2 ^ 56 ≤ k) :
    ((ks.map (· / 32)).eraseDups).foldl (fun x q => fetchFor x die core tenant sp pol (32 * q)) s = s := by
  refine List.foldlRecOn (motive := fun t => t = s) _ _ rfl fun t ht q hq => ?_
  obtain ⟨k, hm, rfl⟩ := List.mem_map.1 (List.mem_eraseDups.1 hq)
  have := hk k hm
  exact (fetchFor_onChip (by omega)).trans ht

/-- A group with no store on its way has no byte of its own to read. -/
theorem ownStore_none {gid before : Nat} {agents : Mask} (h : ∀ r ∈ s.stores, r.gid ≠ gid) : ownStore s gid agents before k = none := by
  unfold ownStore
  refine List.foldlRecOn (motive := fun o => o = none) _ _ rfl fun o ho r hr => ?_
  rw [if_neg]
  · exact ho
  · simp [h r hr]

theorem readKey_onChip (hk : 2 ^ 56 ≤ k) (hg : a.got = []) (hs : ∀ r ∈ s.stores, r.gid ≠ a.gid) : readKey s a k = memGet s.mem k := by
  have hl : isGlobal k = false := decide_eq_false (Nat.not_lt.2 hk)
  unfold readKey
  rw [hg, ownStore_none hs]
  unfold tget groupByte hierByte
  simp only [hl, Bool.not_false, Bool.true_or, if_true, Option.getD_none]

/-! #### The load's own state -/

theorem modGroup_eq (s : State) (gid : Nat) (f : Group → Group) : ∃ gs, s.modGroup gid f = { s with groups := gs } := by
  unfold State.modGroup
  split
  · exact ⟨_, rfl⟩
  · exact ⟨_, rfl⟩

/-- An older copy that leaves the L1 changes its core alone. -/
theorem dropStale_eq (s : State) (a : Acc) (vs : List Byte) : ∃ cs, dropStale s a vs = { s with cores := cs } := by
  unfold dropStale
  split
  · refine List.foldlRecOn (motive := fun t : State => ∃ cs, t = { s with cores := cs }) _ _ ⟨_, rfl⟩ fun t ht p _ => ?_
    obtain ⟨cs, rfl⟩ := ht
    split
    · split
      · exact ⟨_, rfl⟩
      · exact ⟨cs, rfl⟩
    · exact ⟨cs, rfl⟩
  · exact ⟨_, rfl⟩

/-- What a load's other lanes take, and what it notes, leaves memory, the L2 and the stores as they are. -/
theorem shareLoaded_eq (s : State) (a : Acc) (vs : List (Nat × Byte)) : ∃ gs, shareLoaded s a vs =
    { s with groups := gs,
             accs := s.accs.map fun (x : Acc) =>
               if x.parent = a.parent then { x with got := x.got ++ vs.filter fun (p : Nat × Byte) => x.keys.contains p.1 } else x } := by
  unfold shareLoaded
  extract_lets note p
  obtain ⟨gs, hg⟩ := modGroup_eq p a.gid fun g =>
    { g with s0 := note g.s0, s1 := note g.s1, frame := g.frame.map fun (f : Frame) => { f with s0 := note f.s0, s1 := note f.s1 } }
  exact ⟨gs, hg⟩

/-! #### The outcomes -/

theorem accAnswered_load (hop : ∀ op, a.op ≠ .atomic op ∧ a.op ≠ .ordered op) : accAnswered s a = loadDone s a := by
  unfold accAnswered
  cases h : a.op with
  | atomic op => exact absurd h (hop op).1
  | ordered op => exact absurd h (hop op).2
  | _ => rfl

theorem memAccessComplete_waits (he : (s.accs.find? fun x => x.id = id) = some a) (hd : accDue s a = false) :
    exec (.memAccessComplete id) s = .next s := by
  rw [exec_memAccessComplete]
  unfold execMemAccessComplete
  rw [he]
  dsimp only
  rw [hd, if_pos (by rfl)]

theorem memAccessComplete_prefetch (he : (s.accs.find? fun x => x.id = id) = some a) (hf : ∀ x ∈ s.flits, x.id ≠ id)
    (hd : accDue s a = true) (hop : a.op = .prefetch) :
    exec (.memAccessComplete id) s = .next { prefFill s a with accs := s.accs.filter fun x => x.id ≠ id } := by
  have hn : (s.flits.any fun x => decide (x.id = id)) = false := List.any_eq_false.2 fun x hx => by simpa using hf x hx
  rw [exec_memAccessComplete]
  unfold execMemAccessComplete
  rw [he]
  dsimp only
  rw [hd, hn, if_neg (by decide), hop]

theorem memAccessComplete_load (he : (s.accs.find? fun x => x.id = id) = some a) (hf : ∀ x ∈ s.flits, x.id ≠ id)
    (hop : ∀ op, a.op ≠ .atomic op ∧ a.op ≠ .ordered op) (hd : accDue s a = true) (hp : a.op ≠ .prefetch) :
    exec (.memAccessComplete id) s = .next (if remoteMiss s a then { s with flits := s.flits ++ [accFlit a] } else loadDone s a) := by
  have hn : (s.flits.any fun x => decide (x.id = id)) = false := List.any_eq_false.2 fun x hx => by simpa using hf x hx
  rw [exec_memAccessComplete]
  unfold execMemAccessComplete
  rw [he]
  dsimp only
  rw [hd, hn, if_neg (by decide), accAnswered_load hop]
  cases h : a.op with
  | atomic op => exact absurd h (hop op).1
  | ordered op => exact absurd h (hop op).2
  | prefetch => exact absurd h hp
  | _ => rfl

end

/-- Settles O41: the outcomes by the case of the access, and what a load's caches and lanes change by the frames above. -/
theorem loadsComplete : Obligations.LoadsComplete := by
  unfold Obligations.LoadsComplete
  intro s id a he hf hop u vs v w
  have hid : a.id = id := of_decide_eq_true (List.find?_some he :)
  refine ⟨fun hd hp hr => ?_, fun hd hp hr => ?_, fun hd hp => memAccessComplete_prefetch he hf hd hp,
    fun hd => memAccessComplete_waits he hd, fun _ => ?_, fun hk hg hs _ => ?_⟩
  · rw [memAccessComplete_load he hf hop hd hp, if_pos hr]
  · rw [memAccessComplete_load he hf hop hd hp, if_neg (by rw [hr]; decide), ← hid]
    rfl
  · have hu : u.accs = s.accs := HierStep.accs hierStep_fetches
    obtain ⟨cs, hc⟩ := dropStale_eq u a vs
    obtain ⟨gs, hw⟩ := shareLoaded_eq (noteRead (dropStale u a vs) a.die a.core a.gid a.agents a.op.classes a.keys) a (a.keys.zip vs)
    have hw' : w = _ := hw
    rw [hc] at hw'
    rw [hw']
    refine ⟨rfl, rfl, rfl, fun x hx hxp => ?_⟩
    refine List.mem_map.2 ⟨x, ?_, if_pos hxp⟩
    exact hu ▸ hx
  · have hus : u = s := fetches_onChip hk
    refine ⟨hus, List.map_congr_left fun k hm => ?_⟩
    rw [hus]
    exact readKey_onChip (hk k hm) hg hs

end Sys2Proof.Machine
end

section
namespace Sys2Proof.Machine

/-! ### Reset and the start of a group (R55, R105, R139, R186, R268, R279, R314, R326) -/

/-- A group starts with every predicate but the constant true one false. -/
theorem pred_start (tenant : Tenant) (now : Nat) (lp : Addr) (gr : Grid) (entry : Addr) (owned : Mask) {n : BitVec 3} (l : Lane) (hn : n ≠ 7#3) :
    (Group.start tenant now lp gr entry owned).pred n l = false := by
  have hlt : n.toNat < 7 := by bv_omega
  unfold Group.pred
  rw [dif_pos hlt]
  have hp : (Group.start tenant now lp gr entry owned).preds[n.toNat] = 0#96 := Vector.getElem_replicate _
  rw [hp, BitVec.getLsbD_zero]

/-- Settles O24: no byte is listed at reset, and an unlisted byte reads zero. -/
theorem resetMemoryForm : Obligations.ResetMemoryForm := ⟨reset_inv, fun _ => rfl⟩

/-- Settles O22: nothing is listed in the tables of the reset state, so that each entry reads as its reset value. -/
theorem resetValues : Obligations.ResetValues := by
  unfold Obligations.ResetValues
  intro s
  refine ⟨fun _ _ => ⟨rfl, rfl, rfl, rfl, rfl⟩, fun _ => ⟨rfl, rfl, rfl, rfl, rfl, rfl, rfl, rfl, rfl⟩,
    fun _ => ⟨rfl, rfl, rfl, rfl, rfl, rfl, rfl⟩, rfl, rfl, rfl, rfl, rfl, rfl, rfl, rfl, rfl, rfl, rfl, rfl, rfl, ?_⟩
  intro tenant now lp gr entry owned g
  refine ⟨rfl, rfl, rfl, rfl, rfl, rfl, rfl, rfl, rfl, rfl, rfl, rfl, fun l => ⟨?_, ?_, ?_⟩, fun n l => pred_start tenant now lp gr entry owned l⟩
  · exact Vector.getElem_ofFn _
  · exact Vector.getElem_ofFn _
  · exact Vector.getElem_ofFn _
end Sys2Proof.Machine
end

section
namespace Sys2Proof.Machine

/-! ### Words of the memory family as they issue (R65, R70 to R73, R80) -/

/-- A memory word with no trap of its own beside those of R67, and whose effects go to no log. -/
theorem plainWord_accesses {i : Instr} {op : MemOp} {sp : Space} {pol : BitVec 2} {once : Bool} {align : Nat} {lock : Option Bool}
    {ea : State → Group → Slot → Mask → Lane → Addr} {data data2 : State → Group → Slot → Lane → BitVec 64}
    (hx : ∀ s, exec i s = memWord i s op sp pol once align lock ea data data2 noExtra none) :
    Accesses i op sp pol once align lock (fun _ _ => 0#96) (fun _ => True) ea data data2 :=
  memWord_accesses hx (fun _ _ => (if_pos rfl).symm) fun _ _ h => nomatch h

/-- A memory word with no trap of its own, whose effects go to a log in an open region alone. -/
theorem loggedWord_accesses {i : Instr} {op : MemOp} {sp : Space} {pol : BitVec 2} {once : Bool} {align : Nat} {lock : Option Bool}
    {ea : State → Group → Slot → Mask → Lane → Addr} {data data2 : State → Group → Slot → Lane → BitVec 64} {log : MemReq → Lane → Effect}
    (hx : ∀ s, exec i s = memWord i s op sp pol once align lock ea data data2 noExtra (some log)) :
    Accesses i op sp pol once align lock (fun _ _ => 0#96) (fun g => g.region = none) ea data data2 :=
  memWord_accesses hx (fun _ _ => (if_pos rfl).symm) fun _ h _ => h

/-- Settles O36: each word is `memWord` with its own addresses and data; of them atomo alone has a further trap, and atom and atomo alone
have a log. -/
theorem memoryWordsIssue : Obligations.MemoryWordsIssue := by
  unfold Obligations.MemoryWordsIssue
  intro h d a b sp pol far disp op n1 f v size no any calm never off val
  refine ⟨?ld, ?st, ?ldu, ?gth, ?sct, ?atom, ?atomo, ?spill, ?fill⟩
  case ld => exact plainWord_accesses fun s => exec_ld h d a b sp pol far s
  case st => exact plainWord_accesses fun s => exec_st h a b sp pol far s
  case ldu => exact plainWord_accesses fun s => exec_ldu h d a sp pol disp s
  case gth => exact plainWord_accesses fun s => exec_gth h d a b sp pol disp s
  case sct => exact plainWord_accesses fun s => exec_sct h v a b sp pol disp s
  case atom => exact loggedWord_accesses fun s => exec_atom h d a b sp pol op s
  case atomo => exact memWord_accesses (fun s => exec_atomo h d a b pol op s) (fun _ _ => rfl) fun _ h _ => h
  case spill => exact plainWord_accesses fun s => exec_spill h n1 a f pol disp s
  case fill => exact plainWord_accesses fun s => exec_fill h n1 a f pol disp s

end Sys2Proof.Machine
end

section
namespace Sys2Proof.Machine

/-! ### What a late result and the fences leave of a group (R18, R92, R133) -/

/-- The register files, the latches and the late results of two groups are the same. -/
structure SameFiles (g g' : Group) : Prop where
  slices : g'.slices = g.slices
  k : g'.k = g.k
  latches : g'.latches = g.latches
  late : g'.late = g.late

theorem SameFiles.refl (g : Group) : SameFiles g g := ⟨rfl, rfl, rfl, rfl⟩

theorem SameFiles.trans {a b c : Group} (h : SameFiles a b) (h' : SameFiles b c) : SameFiles a c :=
  ⟨h'.slices.trans h.slices, h'.k.trans h.k, h'.latches.trans h.latches, h'.late.trans h.late⟩

theorem sameFiles_ctrDown (g : Group) (c : BitVec 2) : SameFiles g (g.ctrDown c) :=
  ⟨setCtr_slices g c _, setCtr_k g c _, setCtr_latches g c _, setCtr_late g c _⟩

theorem sameFiles_modSlotIn (g : Group) (s1 trap : Bool) (f : Slot → Slot) : SameFiles g (g.modSlotIn s1 trap f) := by
  have hm : SameFiles g (g.modSlot s1 f) := ⟨modSlot_slices g s1 f, modSlot_k g s1 f, modSlot_latches g s1 f, modSlot_late g s1 f⟩
  unfold Group.modSlotIn
  split
  · split
    · exact hm
    · exact ⟨rfl, rfl, rfl, rfl⟩
  · exact hm

/-- What fences that settle may change: the groups but not their files, the cores, and the lists of fences and followers. -/
def SettleStep (s t : State) : Prop :=
  (∃ gs cs fs fo, t = { s with groups := gs, cores := cs, fences := fs, followers := fo }) ∧
    ∀ n g, s.group? n = some g → ∃ g', t.group? n = some g' ∧ SameFiles g g'

section
variable {s t u : State}

theorem SettleStep.refl (s : State) : SettleStep s s := ⟨⟨_, _, _, _, rfl⟩, fun _ g h => ⟨g, h, SameFiles.refl g⟩⟩

theorem SettleStep.trans (h : SettleStep s t) (h' : SettleStep t u) : SettleStep s u := by
  obtain ⟨⟨_, _, _, _, rfl⟩, hg⟩ := h
  obtain ⟨⟨gs, cs, fs, fo, rfl⟩, hg'⟩ := h'
  refine ⟨⟨gs, cs, fs, fo, rfl⟩, fun n g hn => ?_⟩
  obtain ⟨g1, h1, e1⟩ := hg n g hn
  obtain ⟨g2, h2, e2⟩ := hg' n g1 h1
  exact ⟨g2, h2, e1.trans e2⟩

theorem group?_modGroup (s : State) (gid : Nat) (f : Group → Group) (n : Nat) :
    (s.modGroup gid f).group? n = if n = gid then (s.group? n).map f else s.group? n := by
  by_cases hn : n = gid
  · subst hn
    rw [if_pos rfl]
    unfold State.modGroup
    cases h : s.group? n with
    | none => exact h
    | some g => exact group_setGroup s n (f g)
  · rw [if_neg hn]
    unfold State.modGroup
    cases s.group? gid with
    | none => rfl
    | some g => exact tget_tset_ne _ _ _ _ hn

theorem settleStep_modGroup (gid : Nat) {f : Group → Group} (hf : ∀ g, SameFiles g (f g)) : SettleStep s (s.modGroup gid f) := by
  obtain ⟨gs, hg⟩ := modGroup_eq s gid f
  refine ⟨⟨gs, s.cores, s.fences, s.followers, hg⟩, fun n g hn => ?_⟩
  rw [group?_modGroup, hn]
  split
  · exact ⟨f g, rfl, hf g⟩
  · exact ⟨g, rfl, SameFiles.refl g⟩

theorem settleStep_lists (gs : List FenceRec) (fo : List Follower) : SettleStep s { s with fences := gs, followers := fo } :=
  ⟨⟨_, _, _, _, rfl⟩, fun _ g h => ⟨g, h, SameFiles.refl g⟩⟩

theorem settleStep_ctrDown (gid : Nat) (c : BitVec 2) : SettleStep s (s.ctrDown gid c) := settleStep_modGroup gid fun g => sameFiles_ctrDown g c

theorem settleStep_l1Invalidate (die core : Nat) : SettleStep s (l1Invalidate s die core) :=
  ⟨⟨_, _, _, _, rfl⟩, fun _ g h => ⟨g, h, SameFiles.refl g⟩⟩

theorem settleStep_release (f : FenceRec) : SettleStep s (f.release s) := by
  unfold FenceRec.release
  split
  · exact SettleStep.refl s
  · exact settleStep_modGroup _ fun g => sameFiles_modSlotIn g _ _ _

theorem settleStep_countFence (f : FenceRec) : SettleStep s (countFence s f) := by
  unfold countFence
  split
  · exact SettleStep.refl s
  · exact (settleStep_lists _ s.followers).trans (settleStep_ctrDown _ _)

theorem settleStep_endFence (f : FenceRec) : SettleStep s (endFence s f) := by
  have hr : SettleStep s (f.release { s with fences := s.fences.filter fun x => x.id ≠ f.id }) :=
    (settleStep_lists _ s.followers).trans (settleStep_release f)
  unfold endFence
  dsimp only
  split
  · split
    · exact hr.trans (settleStep_l1Invalidate _ _)
    · exact hr
  · exact hr

theorem settleStep_settleFence (f : FenceRec) : SettleStep s (settleFence s f) := by
  rw [settleFence_eq]
  split
  · exact SettleStep.refl s
  · split
    · exact settleStep_countFence f
    · exact (settleStep_countFence f).trans (settleStep_endFence f)

theorem settleStep_settleFollower (a : Follower) : SettleStep s (settleFollower s a) := by
  have hl : SettleStep s { s with followers := s.followers.filter fun x => x ≠ a } := settleStep_lists s.fences _
  unfold settleFollower
  split
  · exact SettleStep.refl s
  · dsimp only
    split
    · exact hl.trans (settleStep_l1Invalidate _ _)
    · exact hl

theorem settleStep_settleFences : SettleStep s (settleFences s) := by
  have hf : SettleStep s (s.fences.foldl settleFence s) :=
    List.foldlRecOn (motive := fun t => SettleStep s t) _ _ (SettleStep.refl s) fun _ h f _ => h.trans (settleStep_settleFence f)
  exact List.foldlRecOn (motive := fun t => SettleStep s t) _ _ hf fun _ h a _ => h.trans (settleStep_settleFollower a)

theorem settleStep_reqDone (gid : Nat) (ctr : BitVec 2) (id : Nat) : SettleStep s (s.reqDone gid ctr id) := by
  unfold State.reqDone
  split
  · exact SettleStep.refl s
  · exact settleStep_ctrDown gid ctr

theorem SettleStep.homeByte (h : SettleStep s t) (k : Nat) : homeByte t k = homeByte s k := by
  obtain ⟨⟨_, _, _, _, rfl⟩, -⟩ := h
  rfl

end

theorem swapBanks_late (g : Group) : g.swapBanks.late = g.late := by unfold Group.swapBanks; dsimp only

theorem inBank_late {g : Group} {f : Group → Group} (hf : ∀ g, (f g).late = g.late) (trap : Bool) : (g.inBank trap f).late = g.late := by
  unfold Group.inBank
  split
  · exact hf g
  · split
    · dsimp only
      rw [swapBanks_late, hf]
      dsimp only
      rw [swapBanks_late]
    · dsimp only
      rw [swapBanks_late, hf, swapBanks_late]

theorem kput_late {w : Nat} (g : Group) (s1 : Bool) (n : Nat) (v : BitVec w) : (g.kput s1 n v).late = g.late := by
  unfold Group.kput
  refine List.foldlRecOn (motive := fun x : Group => x.late = g.late) _ _ rfl fun x hx i _ => ?_
  dsimp only
  unfold Group.kset
  split
  · exact (modSlot_late _ _ _).trans hx
  · exact hx

theorem slicePut_late {w : Nat} (g : Group) (m : Mask) (start : Nat) (f : Lane → BitVec w) : (g.slicePut m start f).late = g.late := by
  unfold Group.slicePut; dsimp only

theorem latchPut_late {w : Nat} (g : Group) (m : Mask) (n : Nat) (wc : BitVec 3) (f : Lane → BitVec w) : (g.latchPut m n wc f).late = g.late := by
  unfold Group.latchPut; dsimp only

/-- A value that lands leaves the late results as they are. -/
theorem land_late {n : Nat} (g : Group) (v : BitVec n) (x : Late) : (g.land v x).late = g.late := by
  unfold Group.land
  refine inBank_late (fun g => ?_) x.trap
  extract_lets mix y
  have hy : y.late = g.late := by
    subst y
    split
    · exact slicePut_late _ _ _ _
    · exact kput_late _ _ _ _
    · rfl
  clear_value y
  split
  · exact (latchPut_late _ _ _ _ _).trans hy
  · exact hy

theorem deliver_late {n : Nat} (g : Group) (acc : Nat) (v : BitVec n) : (g.deliver acc v).late = g.late.filter fun x => x.acc ≠ acc :=
  List.foldlRecOn (motive := fun t : Group => t.late = g.late.filter fun x => x.acc ≠ acc) _ _ rfl fun t ht x _ => (land_late t v x).trans ht

/-! ### A line that leaves the L1 (R58) -/

/-- The core's L1 holds no dirty sector. -/
def CleanL1 (s : State) (die core : Nat) : Prop := ∀ e ∈ (s.core die core).l1, e.dirty = 0#4

section
variable {s : State} {die core line k : Nat} {ks : List Nat}

theorem hierStep_l1WriteBack : HierStep s (l1WriteBack s die core line) := by
  unfold l1WriteBack
  split
  · exact HierStep.refl s
  · exact hierStep_storeBy.trans hierStep_l1Update

theorem hierStep_l1Drop : HierStep s (l1Drop s die core line) := hierStep_l1WriteBack.trans hierStep_setCore

theorem hierStep_l1Drops : HierStep s (l1Drops s die core ks) :=
  List.foldlRecOn (motive := fun t => HierStep s t) _ _ (HierStep.refl s) fun _ h _ _ => h.trans hierStep_l1Drop

/-- Of a clean L1 no byte goes home. -/
theorem homeByte_l1WriteBack_clean (h : s.Inv) (hc : CleanL1 s die core) : homeByte (l1WriteBack s die core line) k = homeByte s k := by
  unfold l1WriteBack
  split
  · rfl
  · next e he =>
    have hd : e.dirty = 0#4 := hc e (List.mem_of_find?_eq_some he)
    have hb := homeByte_l1WriteBackLine (die := die) (core := core) (e := e) (k := k) h
    rw [hd, BitVec.getLsbD_zero, if_neg fun hx => Bool.false_ne_true hx.2] at hb
    exact hb

theorem cleanL1_l1Drop (hc : CleanL1 s die core) : CleanL1 (l1Drop s die core line) die core := by
  have hw : CleanL1 (l1WriteBack s die core line) die core := by
    unfold l1WriteBack
    split
    · exact hc
    · intro e he
      unfold l1Update at he
      rw [core_setCore] at he
      obtain ⟨x, hx, rfl⟩ := List.mem_map.1 he
      split
      · rfl
      · refine hc x ?_
        unfold l1WriteBackLine State.core at hx
        rw [cores_storeBy] at hx
        exact hx
  intro e he
  unfold l1Drop l1Remove at he
  rw [core_setCore] at he
  exact hw e (List.mem_of_mem_filter he)

theorem homeByte_l1Drops_clean (h : s.Inv) (hc : CleanL1 s die core) : homeByte (l1Drops s die core ks) k = homeByte s k := by
  have hall : (l1Drops s die core ks).Inv ∧ CleanL1 (l1Drops s die core ks) die core ∧ homeByte (l1Drops s die core ks) k = homeByte s k := by
    refine List.foldlRecOn (motive := fun t => State.Inv t ∧ CleanL1 t die core ∧ homeByte t k = homeByte s k) _ _ ⟨h, hc, rfl⟩ ?_
    rintro t ⟨hi, hcl, hb⟩ ln _
    exact ⟨l1WriteBack_inv hi, cleanL1_l1Drop hcl, (homeByte_l1WriteBack_clean hi hcl).trans hb⟩
  exact hall.2.2

end

/-! ### What an atomic writes (R72) -/

section
variable {w : Nat} (old b b2 : BitVec w)

theorem ofInt_min : BitVec.ofInt w (min old.toInt b.toInt) = if old.toInt ≤ b.toInt then old else b := by
  rw [min_def]
  split
  · exact BitVec.ofInt_toInt
  · exact BitVec.ofInt_toInt

theorem ofInt_max : BitVec.ofInt w (max old.toInt b.toInt) = if b.toInt ≤ old.toInt then old else b := by
  rw [max_comm, max_def]
  split
  · exact BitVec.ofInt_toInt
  · exact BitVec.ofInt_toInt

theorem ofNat_min : BitVec.ofNat w (min old.toNat b.toNat) = if old ≤ b then old else b := by
  by_cases h : old ≤ b
  · rw [if_pos h, min_eq_left (BitVec.le_def.1 h), BitVec.ofNat_toNat, BitVec.setWidth_eq]
  · rw [if_neg h, min_eq_right (Nat.le_of_not_le fun c => h (BitVec.le_def.2 c)), BitVec.ofNat_toNat, BitVec.setWidth_eq]

theorem ofNat_max : BitVec.ofNat w (max old.toNat b.toNat) = if b ≤ old then old else b := by
  by_cases h : b ≤ old
  · rw [if_pos h, max_eq_left (BitVec.le_def.1 h), BitVec.ofNat_toNat, BitVec.setWidth_eq]
  · rw [if_neg h, max_eq_right (Nat.le_of_not_le fun c => h (BitVec.le_def.2 c)), BitVec.ofNat_toNat, BitVec.setWidth_eq]

end

/-- The bytes of a value at keys that are all different: a function of the key. -/
theorem toBytes_map_idxOf {w : Nat} (x : BitVec w) {ks : List Nat} (h : ks.Nodup) :
    toBytes x ks.length = ks.map fun k => x.extractLsb' (8 * ks.idxOf k) 8 := by
  refine List.ext_getElem (by simp [toBytes]) fun i hi _ => ?_
  simp [toBytes, h.idxOf_getElem]

/-! ### An atomic completes (R58, R72, R73, R85, R89, R109) -/

section
variable {s t : State} {x : Writer} {op : BitVec 6} {w : BitVec 3} {ks : List Nat} {b b2 : BitVec 64} {a : Acc} {id : Nat}

theorem HierStep.groups (h : HierStep s t) : t.groups = s.groups := by
  obtain ⟨_, _, _, _, _, _, _, rfl⟩ := h
  rfl

theorem HierStep.stores (h : HierStep s t) : t.stores = s.stores := by
  obtain ⟨_, _, _, _, _, _, _, rfl⟩ := h
  rfl

theorem hierStep_applyAtom : HierStep s (applyAtom s x op w ks b b2).2 := by
  have hn (u : State) (d : Nat) : HierStep u (noteRead u d x.core x.gid x.agents x.cls ks) := ⟨_, _, _, _, _, _, _, rfl⟩
  exact (hierStep_l1Drops.trans (hn _ _)).trans hierStep_storeBy

/-- The value that an atomic finds at its keys, once their lines have left its core's L1. -/
def atomOld (s : State) (x : Writer) (w : BitVec 3) (ks : List Nat) : BitVec (wBits w) :=
  ofBytes (ks.map (homeByte (l1Drops s x.die x.core ks))) (wBits w)

theorem applyAtom_fst : (applyAtom s x op w ks b b2).1 = (atomOld s x w ks).setWidth 64 := rfl

/-- The new value stands at the atomic's keys, and every other byte is as the L1's lines left it. -/
theorem homeByte_applyAtom (h : s.Inv) (hn : ks.Nodup) (hl : ks.length = elemSize w) (k : Nat) :
    homeByte (applyAtom s x op w ks b b2).2 k =
      if k ∈ ks then (atomNew op (atomOld s x w ks) (b.setWidth (wBits w)) (b2.setWidth (wBits w))).extractLsb' (8 * ks.idxOf k) 8
      else homeByte (l1Drops s x.die x.core ks) k := by
  unfold applyAtom
  dsimp only
  rw [← hl, toBytes_map_idxOf _ hn]
  exact homeByte_storeBy _ (noteRead_inv (l1Drops_inv h))

/-- An access that is over: its value is delivered, and then fences may settle. -/
theorem settleStep_accDone (v : BitVec 64) :
    SettleStep (({ s with accs := s.accs.filter fun y => y.id ≠ a.id } : State).modGroup a.gid fun g =>
      g.deliver a.id ((v <<< a.off).setWidth (wBits a.w))) (accDone s a v) :=
  (settleStep_reqDone _ _ _).trans settleStep_settleFences

theorem accDone_accs (v : BitVec 64) : (accDone s a v).accs = s.accs.filter fun y => y.id ≠ a.id := by
  obtain ⟨⟨_, _, _, _, he⟩, -⟩ := settleStep_accDone (s := s) (a := a) v
  obtain ⟨_, hm⟩ := modGroup_eq ({ s with accs := s.accs.filter fun y => y.id ≠ a.id } : State) a.gid fun g =>
    g.deliver a.id ((v <<< a.off).setWidth (wBits a.w))
  rw [he, hm]

theorem accDone_stores (v : BitVec 64) : (accDone s a v).stores = s.stores := by
  obtain ⟨⟨_, _, _, _, he⟩, -⟩ := settleStep_accDone (s := s) (a := a) v
  obtain ⟨_, hm⟩ := modGroup_eq ({ s with accs := s.accs.filter fun y => y.id ≠ a.id } : State) a.gid fun g =>
    g.deliver a.id ((v <<< a.off).setWidth (wBits a.w))
  rw [he, hm]

theorem homeByte_accDone (v : BitVec 64) (k : Nat) : homeByte (accDone s a v) k = homeByte s k := by
  obtain ⟨_, hm⟩ := modGroup_eq ({ s with accs := s.accs.filter fun y => y.id ≠ a.id } : State) a.gid fun g =>
    g.deliver a.id ((v <<< a.off).setWidth (wBits a.w))
  rw [(settleStep_accDone v).homeByte, hm]
  rfl

theorem group?_accDone (v : BitVec 64) {g : Group} (hg : s.group? a.gid = some g) :
    ∃ g', (accDone s a v).group? a.gid = some g' ∧ SameFiles (g.deliver a.id ((v <<< a.off).setWidth (wBits a.w))) g' := by
  refine (settleStep_accDone v).2 a.gid _ ?_
  rw [group?_modGroup, if_pos rfl]
  exact congrArg (Option.map _) hg

theorem accDue_atomic_earlier (hop : a.op = .atomic op ∨ a.op = .ordered op)
    (h : ∃ y ∈ s.accs, y.id < a.id ∧ y.gid = a.gid ∧ y.agents &&& a.agents ≠ 0#96) : accDue s a = false := by
  obtain ⟨y, hy, hid, hgid, hag⟩ := h
  have hm : (((s.accs.filter fun x => decide (x.id < a.id) && decide (x.gid = a.gid)).filter fun x =>
      decide (x.agents &&& a.agents ≠ 0#96)).isEmpty) = false := by
    rw [List.isEmpty_eq_false_iff_exists_mem]
    exact ⟨y, by simp [hy, hid, hgid, hag]⟩
  unfold accDue
  rcases hop with hop | hop
  · rw [hop]
    dsimp only
    rw [hm]
    simp
  · rw [hop]
    dsimp only
    rw [hm]
    simp

theorem accDue_ordered_waits (hop : a.op = .ordered op) (h : a.admitted = false ∨ s.floorOf a.grid ≠ some a.idx) : accDue s a = false := by
  unfold accDue
  rw [hop]
  rcases h with h | h
  · simp [h]
  · simp [h]

theorem memAccessComplete_atomic (he : (s.accs.find? fun y => y.id = id) = some a) (hf : ∀ y ∈ s.flits, y.id ≠ id)
    (hop : a.op = .atomic op ∨ a.op = .ordered op) (hd : accDue s a = true) :
    exec (.memAccessComplete id) s = .next (if isRemote a.keys then { s with flits := s.flits ++ [accFlit a] } else atomDone s a op) := by
  have hn : (s.flits.any fun y => decide (y.id = id)) = false := List.any_eq_false.2 fun y hy => by simpa using hf y hy
  rw [exec_memAccessComplete]
  unfold execMemAccessComplete
  rw [he]
  dsimp only
  rw [hd, hn, if_neg (by decide)]
  unfold accAnswered
  rcases hop with hop | hop
  · rw [hop]
  · rw [hop]

end

/-- Settles O40: what an atomic does at its home by `homeByte_applyAtom`, and what completes by the frames of `accDone`. -/
theorem atomicsPerform : Obligations.AtomicsPerform := by
  unfold Obligations.AtomicsPerform
  intro s id a op he hop
  have hid : a.id = id := of_decide_eq_true (List.find?_some he :)
  refine ⟨fun hd => memAccessComplete_waits he hd, accDue_atomic_earlier hop, fun ho => accDue_ordered_waits ho, fun hd hf => ⟨fun hr => ?_, ?_⟩⟩
  · rw [memAccessComplete_atomic he hf hop hd, if_pos hr]
    rfl
  · intro hr hi hn hl _ n u old v b fadd new
    have hold : atomOld s a.writer a.w a.keys = old := rfl
    have hnew : atomNew op old b (a.data2.setWidth n) = new := by
      have hop' (m : BitVec 6) (hm : op.toNat = m.toNat) : op = m := BitVec.eq_of_toNat_eq hm
      subst new
      split
      next h => rw [hop' 0#6 h]; rfl
      next h => rw [hop' 1#6 h]; rfl
      next h => rw [hop' 2#6 h, ofInt_min]; rfl
      next h => rw [hop' 3#6 h, ofNat_min]; rfl
      next h => rw [hop' 4#6 h, ofInt_max]; rfl
      next h => rw [hop' 5#6 h, ofNat_max]; rfl
      next h => rw [hop' 6#6 h]; rfl
      next h => rw [hop' 7#6 h]; rfl
      next h => rw [hop' 8#6 h]; rfl
      next h => rw [hop' 9#6 h]; rfl
      next h => rw [hop' 10#6 h]; rfl
      next h => rw [hop' 11#6 h]; rfl
      next h => rw [hop' 16#6 h]; rfl
      next h => rw [hop' 17#6 h]; rfl
      next => rfl
    have hbyte (k : Nat) := homeByte_applyAtom (x := a.writer) (op := op) (b := a.data) (b2 := a.data2) hi hn hl k
    have hx : HierStep s (applyAtom s a.writer op a.w a.keys a.data a.data2).2 := hierStep_applyAtom
    refine ⟨accDone (applyAtom s a.writer op a.w a.keys a.data a.data2).2 a (old.setWidth 64), ?_, ?_, ?_,
      fun hc k => homeByte_l1Drops_clean hi hc, fun k hk => ?_, fun j hj => ?_, fun g hg => ?_⟩
    · rw [memAccessComplete_atomic he hf hop hd, if_neg (by rw [hr]; decide)]
      rfl
    · rw [accDone_accs, hx.accs, hid]
    · rw [accDone_stores, hx.stores]
    · rw [homeByte_accDone, hbyte, if_neg hk]
      rfl
    · rw [homeByte_accDone, hbyte, if_pos (List.getElem_mem hj), hn.idxOf_getElem, hold, ← hnew]
    · have hg' : (applyAtom s a.writer op a.w a.keys a.data a.data2).2.group? a.gid = some g := by
        unfold State.group?
        rw [hx.groups]
        exact hg
      obtain ⟨g', hg', hfs⟩ := group?_accDone (old.setWidth 64) hg'
      rw [hid] at hfs
      exact ⟨g', hg', hfs.slices, hfs.k, hfs.latches, hfs.late.trans (deliver_late _ _ _)⟩

end Sys2Proof.Machine
end

section
namespace Sys2Proof.Machine

/-! ### What leaves every group as it is: translation, the device's writes, and effects that are released (R48, R53, R292) -/

section
variable {s t : State} {die core tenant pte lcore line : Nat} {sup again acked : Bool} {va ea : Addr} {k : AccessKind} {e : TlbEntry}
  {old new : Word64} {gs : Tab Group} {w : Writer} {ks : List Nat} {bs vs : List Byte} {x : Source} {sp : Space} {w3 : BitVec 3} {data : BitVec 64}

theorem groups_fst {α : Type} {p : State × α} {a : α} (h : p.1.groups = gs) (e : p = (t, a)) : t.groups = gs := by
  subst e
  exact h

theorem groups_foldl {α : Type} {f : State → α → State} (hf : ∀ s a, (f s a).groups = s.groups) (xs : List α) (s : State) :
    (xs.foldl f s).groups = s.groups :=
  List.foldlRecOn (motive := fun u : State => u.groups = s.groups) xs f rfl fun u hu a _ => (hf u a).trans hu

theorem storeBy_groups : (storeBy s w ks vs).groups = s.groups := hierStep_storeBy.groups

theorem casEntry_groups (he : casEntry s pte old new = some t) : t.groups = s.groups := by
  unfold casEntry at he
  extract_lets k at he
  split at he
  · cases he
    exact storeBy_groups
  · cases he

theorem casUnless_groups {p : Prop} [Decidable p] (he : (if p then some s else casEntry s pte old new) = some t) : t.groups = s.groups := by
  split at he
  · cases he
    rfl
  · exact casEntry_groups he

theorem walkOnce_groups {r : State × Except PageFault TlbEntry} (he : walkOnce s die core tenant sup va k again = some r) :
    r.1.groups = s.groups := by
  unfold walkOnce at he
  split at he
  · cases he
    rfl
  · split at he
    · cases he
      rfl
    · split at he
      · cases he
        rfl
      · obtain ⟨u, hu, rfl⟩ := Option.map_eq_some_iff.1 he
        have hc : u.groups = s.groups := casUnless_groups hu
        exact hc

theorem walk_groups : (walk s die core tenant sup va k).1.groups = s.groups := by
  unfold walk
  split
  · exact walkOnce_groups ‹_›
  · cases hw : walkOnce s die core tenant sup va k true with
    | none => rfl
    | some r => exact walkOnce_groups hw

theorem dirtyFor_groups : (dirtyFor s die core tenant sup va k e).1.groups = s.groups := by
  unfold dirtyFor
  split
  · rfl
  · extract_lets new
    split
    · have hc := casEntry_groups ‹_›
      exact hc
    · exact walk_groups

theorem lookup_groups : (lookup s die core tenant sup va k).1.groups = s.groups := by
  unfold lookup
  split
  · split
    · rfl
    · exact dirtyFor_groups
  · split
    · rfl
    · exact dirtyFor_groups
  · exact walk_groups

theorem xlatePages_groups (l : List Addr) (found : List TlbEntry) : (xlatePages s die core tenant sup k found l).1.groups = s.groups := by
  induction l generalizing s found with
  | nil => rfl
  | cons va r ih =>
    unfold xlatePages
    split
    · split
      · exact groups_fst (ih _) ‹_›
      · exact ih _
    · split
      · exact groups_fst lookup_groups ‹_›
      · have hl := groups_fst lookup_groups ‹_›
        split
        · exact (groups_fst (ih _) ‹_›).trans hl
        · exact (ih _).trans hl

theorem xlateBytes_groups {vas : List Addr} : (xlateBytes s die core tenant sup k vas).1.groups = s.groups := xlatePages_groups _ _

theorem devKeys_groups {n : Nat} : (devKeys s die tenant va n k).1.groups = s.groups := by
  unfold devKeys
  split
  · exact groups_fst xlateBytes_groups ‹_›
  · exact groups_fst xlateBytes_groups ‹_›

theorem devWrite_groups : (devWrite s die tenant va bs).groups = s.groups := by
  unfold devWrite
  split
  · exact storeBy_groups.trans (groups_fst devKeys_groups ‹_›)
  · exact groups_fst devKeys_groups ‹_›

theorem putRecord_groups {r : FaultRec} (h : putRecord s die r = some t) : t.groups = s.groups := by
  unfold putRecord at h
  extract_lets d at h
  split at h
  · cases h
  · split at h
    · cases h
      exact storeBy_groups.trans (groups_fst devKeys_groups ‹_›)
    · cases h

theorem appendRecord_groups (r : FaultRec) : (appendRecord s die r).1.groups = s.groups := by
  unfold appendRecord
  extract_lets d r u d' wait
  dsimp only
  split
  · cases hp : putRecord u die r with
    | none => rfl
    | some v =>
      have hv : v.groups = u.groups := putRecord_groups hp
      exact hv
  · rfl

theorem appendTasks_groups {ts : List Task} : (appendTasks s lcore ts).groups = s.groups := by
  unfold appendTasks
  extract_lets d u
  exact groups_foldl (fun _ _ => devWrite_groups) _ u

theorem pushTasks_groups {ts : List Task} : (pushTasks s lcore ts).groups = s.groups := appendTasks_groups (s := s) (lcore := lcore) (ts := ts)

theorem sourceKeys_groups {n : Nat} : (sourceKeys s x sp k ea n).1.groups = s.groups := by
  unfold sourceKeys
  split
  · split
    · exact groups_fst xlateBytes_groups ‹_›
    · exact groups_fst xlateBytes_groups ‹_›
  · rfl

theorem l1Patches_groups : (l1Patches s die core ks vs).groups = s.groups :=
  groups_foldl (fun s p => by
    unfold l1Patch
    split
    · rfl
    · split <;> rfl) _ s

theorem releasePush_groups : (releasePush s x acked sp ea w3 data).1.groups = s.groups := by
  unfold releasePush
  split
  · exact groups_fst sourceKeys_groups ‹_›
  · have hk := groups_fst sourceKeys_groups ‹_›
    extract_lets d n put
    split
    · exact hk
    · split
      · exact hk
      · split
        · exact hk
        · split
          · exact (groups_fst sourceKeys_groups ‹_›).trans hk
          · have he := (groups_fst sourceKeys_groups ‹_›).trans hk
            exact storeBy_groups.trans (storeBy_groups.trans (hierStep_l1Drops.groups.trans (l1Patches_groups.trans (storeBy_groups.trans he))))

theorem releaseOne_groups {idx : BitVec 128} {e : Effect} : (releaseOne s x acked idx e).1.groups = s.groups := by
  unfold releaseOne
  split
  · split
    · exact groups_fst sourceKeys_groups ‹_›
    · have hk := groups_fst sourceKeys_groups ‹_›
      exact hk
  · split
    · exact groups_fst sourceKeys_groups ‹_›
    · have hk := groups_fst sourceKeys_groups ‹_›
      exact hk
  · split
    · exact groups_fst sourceKeys_groups ‹_›
    · have hk := groups_fst sourceKeys_groups ‹_›
      split
      · exact hk
      · split
        · exact hk
        · split
          · exact hk
          · exact storeBy_groups.trans (hierStep_l1Drops.groups.trans hk)
  · split
    · exact releasePush_groups
    · rfl
  · split
    · exact pushTasks_groups
    · rfl

theorem modGrid_groups {grid : Nat} {f : Grid → Grid} : (s.modGrid grid f).groups = s.groups := by
  unfold State.modGrid
  split <;> rfl

end

/-! ### The index of a lane retires (R73, R292) -/

section
variable {s t u : State} {gid : Nat} {g : Group} {m : Mask}

/-- The group's retired indices are those of `m`. -/
def RetiredAt (gid : Nat) (m : Mask) (s : State) : Prop := ∃ g, s.group? gid = some g ∧ g.retiredIdx = m

theorem RetiredAt.congr (h : RetiredAt gid m s) (e : t.groups = s.groups) : RetiredAt gid m t := by
  unfold RetiredAt State.group? at h ⊢
  rwa [e]

theorem RetiredAt.setGroup (h : RetiredAt gid m s) {n : Nat} (hn : s.group? n = some g) {g' : Group} (e : g'.retiredIdx = g.retiredIdx) :
    RetiredAt gid m (s.setGroup n g') := by
  obtain ⟨x, hx, hm⟩ := h
  by_cases hg : gid = n
  · subst hg
    cases hx.symm.trans hn
    exact ⟨g', group_setGroup _ _ _, e.trans hm⟩
  · exact ⟨x, (tget_tset_ne _ _ _ _ hg).trans hx, hm⟩

theorem RetiredAt.haltGroup (h : RetiredAt gid m s) (n : Nat) (cause : BitVec 8) (pc : Addr) (mask : Mask) :
    RetiredAt gid m (haltGroup s n cause pc mask) := by
  unfold Machine.haltGroup
  split
  · exact h
  · next g hg => exact (h.setGroup hg (g' := { g with halted := true }) rfl).congr (appendRecord_groups _)

theorem RetiredAt.releaseFault (h : RetiredAt gid m s) (x : Source) : RetiredAt gid m (releaseFault s x) := by
  unfold Machine.releaseFault
  split
  · exact h.haltGroup _ _ _ _
  · exact h.congr (appendRecord_groups _)

theorem RetiredAt.releaseLog (h : RetiredAt gid m s) (x : Source) (idx : BitVec 128) (log : List Effect) :
    RetiredAt gid m (releaseLog s x idx log) := by
  induction log generalizing s with
  | nil => exact h
  | cons e r ih =>
    unfold Machine.releaseLog
    extract_lets keep
    split
    · exact ih (h.congr (groups_fst releaseOne_groups ‹_›))
    · exact h.congr modGrid_groups
    · have ho := h.congr (groups_fst releaseOne_groups ‹_›)
      exact ho.congr modGrid_groups
    · exact (h.congr (groups_fst releaseOne_groups ‹_›)).releaseFault _

theorem or_oneLane_of_getLsbD {l : Lane} (h : m.getLsbD l.val = true) : m ||| oneLane l.val = m := by
  apply BitVec.eq_of_getLsbD_eq
  intro i hi
  have ho : (oneLane l.val).getLsbD i = decide (i = l.val) := getLsbD_oneLane l.val ⟨i, hi⟩
  rw [BitVec.getLsbD_or, ho]
  by_cases hl : i = l.val
  · simp [hl, h]
  · simp [hl]

theorem retireLane_retired {l : Lane} (hg : s.group? gid = some g) (hs : g.sup = false) :
    RetiredAt gid (g.retiredIdx ||| oneLane l.val) (retireLane s gid l) := by
  have hin : RetiredAt gid g.retiredIdx s := ⟨g, hg, rfl⟩
  have hcl : (g.clearLog l).retiredIdx = g.retiredIdx := rfl
  unfold retireLane
  rw [hg]
  dsimp -zeta only
  extract_lets x log mode keep ret cleared u v
  rw [hs, if_neg Bool.false_ne_true]
  split
  · next hl =>
    rw [or_oneLane_of_getLsbD hl]
    split
    · exact hin
    · split
      · exact hin.setGroup hg hcl
      · exact ((hin.setGroup hg hcl).congr modGrid_groups).releaseLog _ _ _
  · have hu : RetiredAt gid (g.retiredIdx ||| oneLane l.val) u := ⟨_, group_setGroup _ _ _, rfl⟩
    have hv : RetiredAt gid (g.retiredIdx ||| oneLane l.val) v := hu.congr modGrid_groups
    split
    · exact hv
    · exact hv.releaseLog _ _ _

end

/-! ### The floor (R73) -/

section
variable {l : List (BitVec 128)} {f : BitVec 128}

theorem lowestIdx_cons (a : BitVec 128) (l : List (BitVec 128)) :
    lowestIdx (a :: l) = some (l.foldl (fun x i => if i < x then i else x) a) := by
  unfold lowestIdx
  rw [List.foldl_cons]
  dsimp only
  induction l generalizing a with
  | nil => rfl
  | cons b l ih =>
    rw [List.foldl_cons, List.foldl_cons]
    exact ih _

theorem lowestIdx_eq_none (h : lowestIdx l = none) : l = [] := by
  cases l with
  | nil => rfl
  | cons a l =>
    rw [lowestIdx_cons] at h
    cases h

/-- The lowest of some indices is one of them, and none is lower. -/
theorem lowestIdx_eq_some (h : lowestIdx l = some f) : f ∈ l ∧ ∀ i ∈ l, f ≤ i := by
  cases l with
  | nil => cases h
  | cons a l =>
    rw [lowestIdx_cons] at h
    cases h
    induction l generalizing a with
    | nil => exact ⟨List.mem_cons_self, fun i hi => List.mem_singleton.1 hi ▸ BitVec.le_refl _⟩
    | cons b l ih =>
      have hmin : (if b < a then b else a) ≤ a ∧ (if b < a then b else a) ≤ b ∧ ((if b < a then b else a) = a ∨ (if b < a then b else a) = b) := by
        split
        · next hb => exact ⟨BitVec.le_of_lt hb, BitVec.le_refl _, .inr rfl⟩
        · next hb => exact ⟨BitVec.le_refl _, BitVec.not_lt.1 hb, .inl rfl⟩
      rw [List.foldl_cons]
      generalize (if b < a then b else a) = m at hmin ⊢
      obtain ⟨hla, hlb, hor⟩ := hmin
      obtain ⟨hm, hle⟩ := ih m
      have hhead := hle _ List.mem_cons_self
      constructor
      · rcases List.mem_cons.1 hm with hm | hm
        · rw [hm]
          rcases hor with ho | ho
          · exact ho ▸ List.mem_cons_self
          · rw [ho]
            exact List.mem_cons_of_mem _ List.mem_cons_self
        · exact List.mem_cons_of_mem _ (List.mem_cons_of_mem _ hm)
      · intro i hi
        rcases List.mem_cons.1 hi with rfl | hi
        · exact BitVec.le_trans hhead hla
        · rcases List.mem_cons.1 hi with rfl | hi
          · exact BitVec.le_trans hhead hlb
          · exact hle i (List.mem_cons_of_mem _ hi)

end

section
variable {s : State} {grid : Nat} {gr : Grid}

/-- An index that has not retired, or has an ordered atomic still to perform. -/
def OpenIdx (s : State) (grid : Nat) (gr : Grid) (i : BitVec 128) : Prop :=
  i ∈ gr.liveTasks ∨ (∃ a ∈ s.accs, (∃ op, a.op = .ordered op) ∧ a.grid = grid ∧ a.idx = i) ∨
    (gr.low < gr.record.teams * gr.record.groups * 96 ∧ i = BitVec.ofNat 128 (gr.low * 2 ^ 96))

/-- With no effect held back and no digest kept, the floor is the lowest open index. -/
theorem computeFloor_eq (hl : gr.late = []) (hd : gr.digests = []) :
    ∃ l, computeFloor s grid gr = lowestIdx l ∧ ∀ i, i ∈ l ↔ OpenIdx s grid gr i := by
  refine ⟨_, rfl, fun i => ?_⟩
  have hlow : i ∈ gr.unretired ↔ (gr.low < gr.record.teams * gr.record.groups * 96 ∧ i = BitVec.ofNat 128 (gr.low * 2 ^ 96)) ∨ i ∈ gr.liveTasks := by
    unfold Grid.unretired
    rw [List.mem_append]
    split
    · next h => simp [h]
    · next h => simp [h]
  rw [hl, hd, List.filter_nil, List.filter_nil, List.map_nil, List.map_nil, List.append_nil, List.append_nil, List.mem_append]
  refine (or_congr hlow (?_ : _ ↔ ∃ a ∈ s.accs, (∃ op, a.op = .ordered op) ∧ a.grid = grid ∧ a.idx = i)).trans ?_
  · rw [List.mem_filterMap]
    refine exists_congr fun a => and_congr_right fun _ => ?_
    cases a.op with
    | ordered op => simp
    | _ => simp
  · exact (or_assoc.trans or_comm).trans or_assoc

theorem retryLate_quiet (hl : gr.late = []) : retryLate s grid gr.late = s := by
  rw [hl]
  rfl

theorem settleDigests_quiet (hg : tget s.grids grid = some gr) (hd : gr.digests = []) (ha : gr.again = none) (n : Nat) :
    settleDigests s grid n = s := by
  cases n with
  | zero => rfl
  | succ n =>
    unfold settleDigests
    rw [hg]
    dsimp only
    rw [ha, hd]
    rfl

theorem startReplay_quiet (hg : tget s.grids grid = some gr) (ha : gr.again = none) : startReplay s grid = s := by
  unfold startReplay
  rw [hg]
  dsimp only
  rw [ha]

theorem floorAdvance_quiet (hg : tget s.grids grid = some gr) (hl : gr.late = []) (hd : gr.digests = []) (ha : gr.again = none) :
    exec (.floorAdvance grid) s = .next { s with grids := tset s.grids grid { gr with floor := computeFloor s grid gr } } := by
  have hm : (s.modGrid grid fun g => { g with floor := computeFloor s grid gr }) =
      { s with grids := tset s.grids grid { gr with floor := computeFloor s grid gr } } := by
    unfold State.modGrid
    rw [hg]
  have hg' : tget ({ s with grids := tset s.grids grid { gr with floor := computeFloor s grid gr } } : State).grids grid =
      some { gr with floor := computeFloor s grid gr } := tget_tset_self _ _ _
  rw [exec_floorAdvance]
  unfold execFloorAdvance
  rw [hg]
  dsimp only
  rw [hm, retryLate_quiet hl, settleDigests_quiet hg' hd ha, startReplay_quiet hg' ha]

end

/-! ### Team lanes that retire (R73) -/

/-- Numbers in ascending order, none below `low`. -/
def Ascending (low : Nat) (l : List Nat) : Prop := l.Pairwise (· < ·) ∧ ∀ x ∈ l, low ≤ x

theorem mem_insertSorted (n : Nat) (l : List Nat) (k : Nat) : k ∈ insertSorted n l ↔ k = n ∨ k ∈ l := by
  induction l with
  | nil => simp [insertSorted]
  | cons y r ih =>
    unfold insertSorted
    split
    · exact List.mem_cons
    · split
      · next hy => simp [hy]
      · rw [List.mem_cons, ih, List.mem_cons]
        exact or_left_comm

theorem pairwise_insertSorted (n : Nat) {l : List Nat} (h : l.Pairwise (· < ·)) : (insertSorted n l).Pairwise (· < ·) := by
  induction l with
  | nil => exact List.pairwise_singleton _ _
  | cons y r ih =>
    obtain ⟨hy, hr⟩ := List.pairwise_cons.1 h
    unfold insertSorted
    split
    · next hn => exact List.pairwise_cons.2 ⟨fun k hk => (List.mem_cons.1 hk).elim (· ▸ hn) fun hk => hn.trans (hy k hk), h⟩
    · next hn =>
      split
      · exact h
      · next hne =>
        refine List.pairwise_cons.2 ⟨fun k hk => ?_, ih hr⟩
        rcases (mem_insertSorted n r k).1 hk with rfl | hk
        · omega
        · exact hy k hk

/-- The lanes that have retired are the same after those that follow the first have joined it; the first that has not is kept. -/
theorem foldRetired_spec {low : Nat} {l : List Nat} (h : Ascending low l) :
    (∀ k, (k < (foldRetired low l).1 ∨ k ∈ (foldRetired low l).2) ↔ (k < low ∨ k ∈ l)) ∧ low ≤ (foldRetired low l).1 ∧
      (foldRetired low l).2.Pairwise (· < ·) ∧ ∀ x ∈ (foldRetired low l).2, (foldRetired low l).1 < x := by
  induction l generalizing low with
  | nil => exact ⟨fun _ => Iff.rfl, Nat.le_refl _, List.Pairwise.nil, fun _ hx => nomatch hx⟩
  | cons x r ih =>
    obtain ⟨hp, hle⟩ := h
    obtain ⟨hx, hr⟩ := List.pairwise_cons.1 hp
    unfold foldRetired
    split
    · next he =>
      obtain ⟨hk, hlow, hpw, hlt⟩ := ih (low := low + 1) ⟨hr, fun y hy => he ▸ hx y hy⟩
      refine ⟨fun k => ?_, by omega, hpw, hlt⟩
      rw [hk, List.mem_cons, he, Nat.lt_succ_iff_lt_or_eq, or_assoc]
    · next hne =>
      have hlx : low < x := lt_of_le_of_ne (hle x List.mem_cons_self) (Ne.symm hne)
      exact ⟨fun _ => Iff.rfl, Nat.le_refl _, hp, fun y hy => (List.mem_cons.1 hy).elim (· ▸ hlx) fun hy => hlx.trans (hx y hy)⟩

theorem retire_team (gr : Grid) (r : Retiree) : gr.retire true false r =
    if laneNo r.idx < gr.low ∨ laneNo r.idx ∈ gr.retired then gr
    else { gr with low := (foldRetired gr.low (insertSorted (laneNo r.idx) gr.retired)).1,
                   retired := (foldRetired gr.low (insertSorted (laneNo r.idx) gr.retired)).2 } := by
  unfold Grid.retire
  simp only [if_true, Bool.false_and, Bool.false_eq_true, if_false, List.contains_iff_mem]

theorem retire_team_lanes {gr : Grid} (r : Retiree) (hp : gr.retired.Pairwise (· < ·)) (hlt : ∀ x ∈ gr.retired, gr.low < x) :
    let n := laneNo r.idx
    let t := gr.retire true false r
    (∀ k, (k < t.low ∨ k ∈ t.retired) ↔ (k = n ∨ k < gr.low ∨ k ∈ gr.retired)) ∧ gr.low ≤ t.low ∧
      t.retired.Pairwise (· < ·) ∧ (∀ x ∈ t.retired, t.low < x) ∧ t.liveTasks = gr.liveTasks := by
  intro n t
  subst t
  rw [retire_team]
  split
  · next hin =>
    refine ⟨fun k => ⟨.inr, ?_⟩, Nat.le_refl _, hp, hlt, rfl⟩
    rintro (rfl | hk)
    · exact hin
    · exact hk
  · next hout =>
    have hasc : Ascending gr.low (insertSorted n gr.retired) := by
      refine ⟨pairwise_insertSorted n hp, fun x hx => ?_⟩
      rcases (mem_insertSorted _ _ _).1 hx with rfl | hx
      · exact Nat.not_lt.1 fun hn => hout (.inl hn)
      · exact Nat.le_of_lt (hlt x hx)
    obtain ⟨hk, hlow, hpw, hl⟩ := foldRetired_spec hasc
    refine ⟨fun k => ?_, hlow, hpw, hl, rfl⟩
    rw [hk, mem_insertSorted]
    exact or_left_comm

/-! ### Admission, atomo.fin and leases (R64, R73, R74, R105, R106) -/

section
variable {s : State} {id : Nat} {a : Acc} {op : BitVec 6}

/-- The ordered atomics that the home slice of `a` has admitted. -/
def admittedHere (s : State) (a : Acc) : List Acc := s.accs.filter fun x => x.admitted && decide (accSlice s x = accSlice s a)

/-- The place of `a` in the order in which its core's reserve is given. -/
def claimOf (s : State) (a : Acc) : Claimant := ⟨match s.group? a.gid with | some g => g.quad | none => 0, a.age, a.parent⟩

/-- `a` comes first among the eligible ones of its core (R64). -/
def FirstClaim (s : State) (a : Acc) : Prop :=
  8 ≤ a.age ∧ ∀ c ∈ claimants s a.die a.core, c.id = a.parent ∨ Claimant.before c (claimOf s a) = false

theorem drawsReserve_iff : drawsReserve s a.die a.core (claimOf s a) = true ↔ FirstClaim s a := by
  have hc : (claimOf s a).age = a.age ∧ (claimOf s a).id = a.parent := ⟨rfl, rfl⟩
  unfold drawsReserve FirstClaim
  simp only [hc, Bool.and_eq_true, decide_eq_true_eq, List.all_eq_true, Bool.or_eq_true, Bool.not_eq_true']

/-- The outcomes of an ordered atomic's arrival at its home slice. -/
theorem oabAdmit_eq (he : (s.accs.find? fun x => x.id = id) = some a) (hop : a.op = .ordered op) :
    let atFloor := s.floorOf a.grid = some a.idx
    let twin := ∃ x ∈ admittedHere s a, x.grid = a.grid ∧ x.idx = a.idx
    let general := ((admittedHere s a).filter fun x => !x.inReserve).length < 63
    let room := general ∨ (atFloor ∧ ∀ x ∈ admittedHere s a, x.inReserve = false)
    let entry := a.rejected = false ∨ 0 < (freeEntries s a.die a.core).1 ∨ (FirstClaim s a ∧ 0 < (freeEntries s a.die a.core).2)
    let put := fun f : Acc → Acc => Host.Outcome.next { s with accs := s.accs.map fun x => if x.id = id then f x else x }
    (a.admitted = true ∨ (atFloor ∧ twin) → exec (.oabAdmit id) s = .next s) ∧
    (a.admitted = false → ¬(atFloor ∧ twin) → room → entry → exec (.oabAdmit id) s =
      put fun x => { x with admitted := true, inReserve := !decide general, rejected := false, mse := [], reserve := [], age := 0 }) ∧
    (a.admitted = false → ¬(atFloor ∧ twin) → ¬(room ∧ entry) → exec (.oabAdmit id) s =
      put fun x => { x with rejected := true, mse := [], reserve := [], age := min 15 (x.age + 1) }) := by
  intro atFloor twin general room entry put
  have htwin : (a.admitted || decide (s.floorOf a.grid = some a.idx) &&
      (admittedHere s a).any fun x => decide (x.grid = a.grid) && decide (x.idx = a.idx)) = true ↔ a.admitted = true ∨ (atFloor ∧ twin) := by
    simp only [Bool.or_eq_true, Bool.and_eq_true, decide_eq_true_eq, List.any_eq_true]
    rfl
  have hin : ((decide (((admittedHere s a).filter fun x => !x.inReserve).length < Config.oabEntries - 1) ||
        decide (s.floorOf a.grid = some a.idx) && (admittedHere s a).all fun x => !x.inReserve) &&
      (!a.rejected || decide (0 < (freeEntries s a.die a.core).1) ||
        drawsReserve s a.die a.core (claimOf s a) && decide (0 < (freeEntries s a.die a.core).2))) = true ↔ room ∧ entry := by
    simp only [Bool.and_eq_true, Bool.or_eq_true, decide_eq_true_eq, List.all_eq_true, Bool.not_eq_true', drawsReserve_iff, or_assoc]
    rfl
  rw [exec_oabAdmit]
  unfold execOabAdmit
  rw [he]
  dsimp only
  rw [hop]
  dsimp only
  refine ⟨fun h => if_pos (htwin.2 h), fun ha ht hr hent => ?_, fun ha ht hn => ?_⟩
  · refine (if_neg fun h => (htwin.1 h).elim (fun h => Bool.false_ne_true (ha.symm.trans h)) ht).trans ?_
    exact if_pos (hin.2 ⟨hr, hent⟩)
  · refine (if_neg fun h => (htwin.1 h).elim (fun h => Bool.false_ne_true (ha.symm.trans h)) ht).trans ?_
    exact if_neg fun h => hn (hin.1 h)

end

theorem wordShape_atomoFin {h : Head} {sh : Shape} (hs : wordShape (.atomoFin h) = some sh) : sh.head = h := by
  cases hs
  rfl

/-- Settles O44: admission by `oabAdmit_eq`, retirement by what releasing a log leaves of a group, the floor as the lowest open index. -/
theorem orderedAtomicsAndLeases : Obligations.OrderedAtomicsAndLeases := by
  unfold Obligations.OrderedAtomicsAndLeases
  refine ⟨?admission, ?fin, fun s gid l g hg hs => retireLane_retired hg hs, ?floor, ?lanes, ?leases⟩
  case admission =>
    intro s id a op he hop here atFloor twin put general room free quad first entry
    obtain ⟨hstay, hin, hrej⟩ := oabAdmit_eq he hop
    exact ⟨hin, hrej, hstay⟩
  case fin =>
    intro h
    have hgate : ∀ s, exec (.atomoFin h) s = gate (.atomoFin h) s _ := fun s => exec_atomoFin h s
    refine ⟨completes_of_gate hgate fun s s' gid s1 g sh hs _ hok => ?_, completes_of_gate hgate fun s s' gid s1 g sh hs _ hok => ?_⟩
    · dsimp only
      have hf : finished g (execLanes g (g.slot s1) sh.head) = none := if_pos hok
      rw [← wordShape_atomoFin hs, hf]
      rfl
    · dsimp only
      have hf : finished g (execLanes g (g.slot s1) sh.head) = some (cOrderedAfterFinish, g.lanesAt s1 sh &&& g.retiredIdx) := if_neg hok
      rw [← wordShape_atomoFin hs, hf]
      rfl
  case floor =>
    intro s grid gr hg hl hd ha
    obtain ⟨l, he, hmem⟩ := computeFloor_eq (s := s) (grid := grid) hl hd
    refine ⟨floorAdvance_quiet hg hl hd ha, fun f hf => ?_, fun hf i hi => ?_⟩
    · obtain ⟨hin, hle⟩ := lowestIdx_eq_some (he.symm.trans hf)
      exact ⟨(hmem f).1 hin, fun i hi => hle i ((hmem i).2 hi)⟩
    · have hin := (hmem i).2 hi
      rw [lowestIdx_eq_none (he.symm.trans hf)] at hin
      cases hin
  case lanes =>
    intro gr r hp hlt n t
    obtain ⟨hk, hlow, hpw, hl, htasks⟩ := retire_team_lanes r hp hlt
    refine ⟨hk, fun hin => Nat.lt_irrefl _ (hl _ hin), hlow, hpw, hl, htasks, fun i => ?_⟩
    have he : (gr.retire false false r).liveTasks = gr.liveTasks.filter fun i => i ≠ r.idx := rfl
    rw [he, List.mem_filter, decide_eq_true_eq]
  case leases =>
    intro s die line
    have hany : (s.leases.any fun l => decide (l.line = line) && decide (s.now.toNat < l.expiry)) = true ↔
        ∃ l ∈ s.leases, l.line = line ∧ s.now.toNat < l.expiry := by
      simp only [List.any_eq_true, Bool.and_eq_true, decide_eq_true_eq]
    refine ⟨fun h => ?_, fun h => ?_, ?_⟩
    · rw [exec_leaseExpiry]
      refine if_neg fun hc => ?_
      obtain ⟨l, hl, hline, hlt⟩ := hany.1 hc
      exact Nat.not_lt.2 (h l hl hline) hlt
    · rw [exec_leaseExpiry]
      exact if_pos (hany.2 h)
    · have hdrop (l : Lease) : (decide (l.die = die) && decide (l.line = line) && !leaseLive s l) = true ↔
          l.die = die ∧ l.line = line ∧ ¬(l.copy = true ∧ s.now.toNat + 16 < l.expiry) := by
        have hlive : leaseLive s l = true ↔ l.copy = true ∧ s.now.toNat + 16 < l.expiry := by
          unfold leaseLive
          rw [Bool.and_eq_true, decide_eq_true_eq]
          rfl
        rw [Bool.and_eq_true, Bool.and_eq_true, decide_eq_true_eq, decide_eq_true_eq, Bool.not_eq_true', Bool.eq_false_iff, ne_eq, hlive, and_assoc]
      have hmap : (s.leases.map fun (l : Lease) =>
            if decide (l.die = die) && decide (l.line = line) && !leaseLive s l then { l with copy := false } else l) =
          s.leases.map fun (l : Lease) =>
            if l.die = die ∧ l.line = line ∧ ¬(l.copy = true ∧ s.now.toNat + 16 < l.expiry) then { l with copy := false } else l :=
        List.map_congr_left fun l _ => if_congr (hdrop l) rfl rfl
      rw [exec_leaseCopyDrop, ← hmap]
      rfl

end Sys2Proof.Machine
end

section
namespace Sys2Proof.Machine

/-! ### cpy and the copy-class words as they issue (R69, R76, R77, R111, R303 to R308) -/

/-- A copy joins those under way. -/
def State.begun (s : State) (c : CopyOp) : State := { s with seqNo := s.seqNo + 1, copies := s.copies ++ [c] }

section
variable {i : Instr} {s s' u : State} {gid : Nat} {s1 : Bool} {g : Group} {sl : Slot} {sh : Shape} {c : CopyOp} {cont : Option Addr}
  {h : Head} {dk ak : Triple} {len : Src} {n8 : BitVec 8} {ssp dsp : BitVec 3} {pol : BitVec 2}

theorem cpyIssue_outside (ho : (outside? s c).isSome = true) :
    cpyIssue i s gid s1 g sl sh c cont = .next (trapWord s gid s1 i sh cAddressRange 0#8 (trapLanes g sl sh) true) := if_pos ho

theorem cpyIssue_held (ho : outside? s c = none) (hl : takeLocks s g.die g.core c.locks = none) :
    cpyIssue i s gid s1 g sl sh c cont = .next (s.modSlot gid s1 fun x => { x with wait := .other }) := by
  unfold cpyIssue
  rw [ho, hl]
  rfl

theorem cpyIssue_begins (ho : outside? s c = none) (hl : takeLocks s g.die g.core c.locks = some u) :
    cpyIssue i s gid s1 g sl sh c cont = .next ((u.begun c).setGroup gid (match cont with
      | some dest => g.modSlot s1 fun x => { x with wait := .cpyCont c.id dest }
      | none => (g.ctrUp c.ctr).done s1 sh)) := by
  unfold cpyIssue
  rw [ho, hl]
  cases cont <;> rfl

theorem wordShape_cpy (hs : wordShape (.cpy h dk ak len ssp pol dsp) = some sh) : sh.head = h := by
  cases hs
  rfl

theorem wordShape_cpyCont (hs : wordShape (.cpyCont h dk ak n8 ssp pol dsp) = some sh) : sh.head = h := by
  cases hs
  rfl

theorem cpy_skips : Skips (.cpy h dk ak len ssp pol dsp) := by
  intro s gid s1 g sh s' hp hm
  rw [exec_cpy, execCpy, gate_of_passes _ hp]
  refine if_pos ?_
  rw [← wordShape_cpy hp.2.1]
  exact hm

theorem cpy_issues (hp : Passes (.cpy h dk ak len ssp pol dsp) s gid s1 g sh s') (hm : g.lanesAt s1 sh ≠ 0#96) :
    exec (.cpy h dk ak len ssp pol dsp) s = cpyIssue (.cpy h dk ak len ssp pol dsp) s' gid s1 g (g.slot s1) sh
      (copyOfGroup s' gid s1 g (g.slot s1) h dk ak (readOnce s' g (g.slot s1) (g.lanesAt s1 sh) len 32).toNat ssp dsp pol false) none := by
  have hh := wordShape_cpy hp.2.1
  subst hh
  rw [exec_cpy, execCpy, gate_of_passes _ hp]
  exact if_neg hm

/-- The word at a cpy.cont's slot that the continuation begins at. -/
def contDest (g : Group) (sl : Slot) (n8 : BitVec 8) : Addr := sl.header + (g.kreg sl (n8.toNat + 1)).signExtend 80

theorem cpyCont_eq (hp : Passes (.cpyCont h dk ak n8 ssp pol dsp) s gid s1 g sh s') :
    exec (.cpyCont h dk ak n8 ssp pol dsp) s =
      if (g.kreg (g.slot s1) (n8.toNat + 1)).extractLsb' 0 3 ≠ 0#3 then
        .next (trapWord s' gid s1 (.cpyCont h dk ak n8 ssp pol dsp) sh cIllegalInstruction 0#8 (trapLanes g (g.slot s1) sh) true)
      else if g.lanesAt s1 sh = 0#96 then .next (s'.modSlot gid s1 fun x => x.jump (contDest g (g.slot s1) n8))
      else cpyIssue (.cpyCont h dk ak n8 ssp pol dsp) s' gid s1 g (g.slot s1) sh
        (copyOfGroup s' gid s1 g (g.slot s1) h dk ak (g.kreg (g.slot s1) n8.toNat).toNat ssp dsp pol true) (some (contDest g (g.slot s1) n8)) := by
  have hh := wordShape_cpyCont hp.2.1
  subst hh
  rw [exec_cpyCont, execCpyCont, gate_of_passes _ hp]
  rfl

end

section
variable {s u : State} {pid : Nat} {p : Prog} {c : CopyOp} {locks : List Lock} {i : Instr}

/-- Has the program a collective that has not completed? -/
def Busy (s : State) (pid : Nat) : Prop :=
  ∃ y ∈ s.copies, y.pid = some pid ∧ ∃ o sc tag parts kind root, y.kind = .coll o sc tag parts kind root

theorem inCollective_iff : inCollective s pid = true ↔ Busy s pid := by
  unfold inCollective Busy
  rw [List.any_eq_true]
  refine exists_congr fun y => and_congr_right fun _ => ?_
  rw [Bool.and_eq_true, decide_eq_true_eq]
  refine and_congr_right fun _ => ?_
  cases y.kind with
  | coll o sc tag parts kind root => exact ⟨fun _ => ⟨_, _, _, _, _, _, rfl⟩, fun _ => rfl⟩
  | _ => exact ⟨fun h => absurd h Bool.false_ne_true, fun ⟨_, _, _, _, _, _, h⟩ => nomatch h⟩

/-- What a copy-class word does once its operands are right: with no element it goes on; it holds its program for a collective or a lock; and
else its operation begins. -/
structure IssuesCopy (s : State) (pid : Nat) (p : Prog) (i : Instr) (c : CopyOp) (locks : List Lock) : Prop where
  empty : c.count = 0 → exec i s = .next (s.progOn pid p)
  held : c.count ≠ 0 → Busy s pid ∨ takeLocks s p.die p.core locks = none → exec i s = .next s
  begins : c.count ≠ 0 → ¬ Busy s pid → ∀ u, takeLocks s p.die p.core locks = some u → exec i s = .next ((u.begun c).progOn pid p)

theorem issuesCopy_of (h : exec i s = copyIssue s pid p c locks) : IssuesCopy s pid p i c locks := by
  refine ⟨fun hc => ?_, fun hc hb => ?_, fun hc hb u hu => ?_⟩
  · rw [h]
    exact if_pos hc
  · rw [h, copyIssue, if_neg hc]
    by_cases hB : Busy s pid
    · exact if_pos (inCollective_iff.2 hB)
    · rw [if_neg (mt inCollective_iff.1 hB), hb.resolve_left hB]
  · rw [h, copyIssue, if_neg hc, if_neg (mt inCollective_iff.1 hb), hu]
    rfl

/-- As `IssuesCopy`, after the check that every element lies within its space. -/
structure ChecksCopy (s : State) (pid : Nat) (p : Prog) (i : Instr) (c : CopyOp) : Prop where
  outside : ∀ bad, outside? s c = some bad → exec i s = .next (progFault s pid 0x07#8 bad)
  inside : outside? s c = none → IssuesCopy s pid p i c c.locks

/-- What a copy-class word whose other operands are right does. -/
def checkIssue (s : State) (pid : Nat) (p : Prog) (c : CopyOp) : Out :=
  match outside? s c with
  | some bad => .next (progFault s pid dAddressRange bad)
  | none => copyIssue s pid p c c.locks

theorem checkIssue_inside (ho : outside? s c = none) : checkIssue s pid p c = copyIssue s pid p c c.locks := by
  unfold checkIssue
  rw [ho]

theorem checksCopy_of (h : exec i s = checkIssue s pid p c) : ChecksCopy s pid p i c := by
  refine ⟨fun bad ho => ?_, fun ho => issuesCopy_of ?_⟩
  · rw [h, checkIssue, ho]
    rfl
  · rw [h, checkIssue_inside ho]

end

section
variable {s : State} {pid : Nat} {p : Prog} {w dsp ssp : BitVec 3} {pol : BitVec 2} {d a n x : SReg} {i : Instr} {kind : CopyKind} {tile op scope : BitVec 3}
  (hc : s.cur = .prog pid) (hp : s.prog? pid = some p)
include hc hp

theorem block_checks (h : exec i s = blockWord s w d a n x dsp ssp pol) :
    ChecksCopy s pid p i (copyOfProg s pid p w (.block (rowCount (p.reg x)) (srcPitch (p.reg x)) (dstPitch (p.reg x))) (p.reg n).toNat (p.reg d)
      (p.reg a) 0#80 dsp ssp pol (some [])) :=
  checksCopy_of (h.trans (progGate_of hc hp _))

theorem cfill_checks : ChecksCopy s pid p (.cfill w d a n dsp pol)
    (copyOfProg s pid p w (.fill ((p.reg a).setWidth 64)) (p.reg n).toNat (p.reg d) 0#80 0#80 dsp dsp pol (some [])) :=
  checksCopy_of ((exec_cfill w d a n dsp pol s).trans (progGate_of hc hp _))

/-- The operation that an indexed word names. -/
def indexedOp (s : State) (pid : Nat) (p : Prog) (w : BitVec 3) (kind : CopyKind) (d a n x : SReg) (dsp ssp : BitVec 3) (pol : BitVec 2) : CopyOp :=
  copyOfProg s pid p w kind (p.reg n).toNat (p.reg d) (p.reg a) (p.reg x) dsp ssp pol none

theorem index_outcomes (h : exec i s = indexWord s w kind d a n x dsp ssp pol) :
    let c := indexedOp s pid p w kind d a n x dsp ssp pol
    (c.count ≠ 0 → c.idx.toNat % 4 ≠ 0 → exec i s = .next (progFault s pid 0x08#8 c.idx)) ∧
    (c.idx.toNat % 4 = 0 → (∀ j, j < c.count → inSpace s (p.team.bind (tget s.teams)) p.die p.grid c.sspace (c.idx + BitVec.ofNat 80 (4 * j)) 4 = true) →
      IssuesCopy s pid p i c [listLock c]) := by
  intro c
  have he := h.trans (progGate_of hc hp _)
  refine ⟨fun h0 h4 => he.trans ((if_neg h0).trans (if_pos h4)), fun h4 hin => issuesCopy_of (he.trans ?_)⟩
  by_cases h0 : c.count = 0
  · exact (if_pos h0).trans (if_pos h0).symm
  · refine (if_neg h0).trans ((if_neg (not_not_intro h4)).trans ?_)
    split
    · next j hj =>
      have hout := List.find?_some hj
      rw [Bool.not_eq_true'] at hout
      exact absurd (hin j (List.mem_range.1 (List.mem_of_find?_eq_some hj))) (by rw [← Bool.not_eq_true] at hout; exact hout)
    · rfl

theorem cacc_outcomes :
    let q := ((p.reg a).extractLsb' 8 2).toNat
    let first := ((p.reg a).extractLsb' 0 6).toNat
    let c := copyOfProg s pid p w (.acc tile.toNat first q (p.reg x).toNat) (p.reg n).toNat (p.reg d) 0#80 0#80 dsp ssp pol (some [])
    let legal := (p.reg a).extractLsb' 6 2 = 0#2 ∧ (p.reg a).extractLsb' 10 70 = 0#70 ∧ 1 ≤ c.count ∧ first + c.count ≤ 64 ∧ 384 ≤ (p.reg x).toNat
    (¬ legal → exec (.cacc w d a n x dsp ssp pol tile) s = .next (progFault s pid 0x02#8 0#80)) ∧
    (legal → (p.reg x).toNat % 4 = 0 → (p.reg d).toNat % 4 = 0 → outside? s c = none →
      (p.team = none ∨ (s.quad p.die p.core q).mx.holder ≠ p.team →
        exec (.cacc w d a n x dsp ssp pol tile) s = .next (progFault s pid 0x14#8 0#80)) ∧
      (p.team ≠ none → (s.quad p.die p.core q).mx.holder = p.team → IssuesCopy s pid p (.cacc w d a n x dsp ssp pol tile) c c.locks)) := by
  intro q first c legal
  have he := (exec_cacc w d a n x dsp ssp pol tile s).trans (progGate_of hc hp _)
  have hlegal : ((p.reg a).extractLsb' 6 2 ≠ 0#2 ∨ (p.reg a).extractLsb' 10 70 ≠ 0#70 ∨ c.count < 1 ∨ 64 < c.count ∨ 64 < first + c.count ∨
      (p.reg x).toNat < 384) ↔ ¬ legal := by
    have hnum : (c.count < 1 ∨ 64 < c.count ∨ 64 < first + c.count ∨ (p.reg x).toNat < 384) ↔
        ¬ (1 ≤ c.count ∧ first + c.count ≤ 64 ∧ 384 ≤ (p.reg x).toNat) := by omega
    show _ ↔ ¬ (_ ∧ _ ∧ _)
    rw [not_and_or, not_and_or, hnum]
  refine ⟨fun hl => he.trans (if_pos (hlegal.2 hl)), fun hl h4 hd ho => ?_⟩
  have hk := he.trans ((if_neg (fun hx => hlegal.1 hx hl)).trans ((if_neg (not_not_intro h4)).trans (if_neg (not_not_intro hd))))
  rw [show copyOfProg s pid p w (.acc tile.toNat first q (p.reg x).toNat) (p.reg n).toNat (p.reg d) 0#80 0#80 dsp ssp pol (some []) = c from rfl, ho] at hk
  have hheld : (p.team.isNone || decide ((s.quad p.die p.core q).mx.holder ≠ p.team)) = true ↔
      p.team = none ∨ (s.quad p.die p.core q).mx.holder ≠ p.team := by
    rw [Bool.or_eq_true, Option.isNone_iff_eq_none, decide_eq_true_eq]
  refine ⟨fun hn => hk.trans (if_pos (hheld.2 hn)), fun ht hh => issuesCopy_of (hk.trans (if_neg fun hx => ?_))⟩
  exact (hheld.1 hx).elim ht fun hne => hne hh

theorem ccoll_outcomes :
    let parts := ((p.reg x).extractLsb' 32 8).toNat
    let kind := ((p.reg x).extractLsb' 40 2).toNat
    let c := copyOfProg s pid p w (.coll op scope ((p.reg x).extractLsb' 0 32) parts kind ((p.reg x).extractLsb' 48 11).toNat) (p.reg n).toNat
      (p.reg d) (p.reg a) 0#80 dsp ssp pol (some [])
    let legal := p.eng = 2 ∧ parts ≠ 0 ∧ (scope = 4#3 → parts ≤ 24) ∧ kind ≠ 3 ∧ (p.reg x).extractLsb' 42 6 = 0#6 ∧
      (p.reg x).extractLsb' 59 21 = 0#21 ∧ (op = 4#3 ↔ kind = 2)
    (¬ legal → exec (.ccoll w d a n x dsp ssp pol op scope) s = .next (progFault s pid 0x02#8 0#80)) ∧
    (legal → outside? s c = none → IssuesCopy s pid p (.ccoll w d a n x dsp ssp pol op scope) c c.locks) := by
  intro parts kind c legal
  have he := (exec_ccoll w d a n x dsp ssp pol op scope s).trans (progGate_of hc hp _)
  have hlegal : (p.eng ≠ 2 ∨ parts = 0 ∨ (scope = 4#3 ∧ 24 < parts) ∨ kind = 3 ∨ (p.reg x).extractLsb' 42 6 ≠ 0#6 ∨
      (p.reg x).extractLsb' 59 21 ≠ 0#21 ∨ ((op = 4#3) ≠ (kind = 2))) ↔ ¬ legal := by
    show _ ↔ ¬ (_ ∧ _ ∧ _ ∧ _ ∧ _ ∧ _ ∧ _)
    simp only [not_and_or, ne_eq, eq_iff_iff, Classical.not_imp, not_not, Nat.not_le]
  refine ⟨fun hl => he.trans (if_pos (hlegal.2 hl)), fun hl ho => issuesCopy_of ?_⟩
  exact he.trans ((if_neg (fun hx => hlegal.1 hx hl)).trans (checkIssue_inside ho))

end

end Sys2Proof.Machine
end

section
namespace Sys2Proof.Machine

/-! ### A copy completes (R77, R111, R112) -/

section
variable {s t u : State} {id die core : Nat} {c : CopyOp} {f : PageFault} {va : Addr} {src : List (List Nat)}

theorem cpyComplete_eq (he : (s.copies.find? fun y => y.id = id) = some c) (hp : c.pid = none) (hs : c.stopped = none) :
    exec (.cpyComplete id) s = if stillPending s c.after then .next s else if c.moved then .next (finishCopy s c) else .next (moveAll s c) := by
  rw [exec_cpyComplete, execCpyComplete, he]
  simp only [hp, hs, Option.isSome_none, Bool.false_or]

theorem finishCopy_landed (h : landed s c.die c.id = true) : finishCopy s c = copyDone s c := if_pos h

theorem finishCopy_waits (h : landed s c.die c.id = false) : finishCopy s c = s.modCopy c.id fun x => { x with moved := true } :=
  if_neg fun ht => Bool.false_ne_true (h.symm.trans ht)

/-- Once every source is read, the elements are written from the first. -/
theorem moveAll_reads (hd : c.data = none)
    (hk : (if c.kind.reads then moveKeys s c c.sspace .read (c.moves.map Prod.snd) else (s, .ok [])) = (u, .ok src)) :
    moveAll s c = putMoves ((moveData u c src).1.modCopy c.id fun _ => { c with data := some (moveData u c src).2, wrote := 0 })
      { c with data := some (moveData u c src).2, wrote := 0 } 0 ({ c with data := some (moveData u c src).2, wrote := 0 } : CopyOp).writes := by
  unfold moveAll
  rw [hd, hk]
  rfl

theorem moveAll_stops (hd : c.data = none) (hr : c.kind.reads = true)
    (hk : moveKeys s c c.sspace .read (c.moves.map Prod.snd) = (u, .error (.inr (f, va)))) : moveAll s c = copyStop u c f va := by
  unfold moveAll
  rw [hd, hr, if_pos rfl, hk]
  rfl

theorem moveAll_resumes (hd : c.data.isSome = true) : moveAll s c = putMoves s c c.wrote c.writes := if_pos hd

section
variable {k : Nat} {bs : List Byte} {left : List (Addr × List Byte)} {ks : List Nat}

theorem putMoves_writes
    (h : engineKeys s c.team c.die c.core c.grid c.tenant c.sup c.dspace .write va (elemSize c.w) = (u, .ok ks)) :
    putMoves s c k ((va, bs) :: left) = putMoves (engineStore u c.writer va ks bs) c (k + 1) left := by
  rw [putMoves, h]

theorem putMoves_stops {at_ : Addr}
    (h : engineKeys s c.team c.die c.core c.grid c.tenant c.sup c.dspace .write va (elemSize c.w) = (u, .stop f at_)) :
    putMoves s c k ((va, bs) :: left) = copyStop (u.modCopy c.id fun x => { x with wrote := k }) c f at_ := by
  rw [putMoves, h]

end

/-- No lock of the owner stands in the core's Range-Lock Table. -/
def LocksGone (die core : Nat) (o : LockOwner) (s : State) : Prop := ∀ l ∈ (s.core die core).rlt, l.owner ≠ o

theorem locksGone_dropLocks (s : State) (die core : Nat) (o : LockOwner) : LocksGone die core o (dropLocks s die core o) := by
  intro l hl
  unfold dropLocks at hl
  rw [core_setCore] at hl
  exact of_decide_eq_true (List.mem_filter.1 hl).2

theorem LocksGone.congr {o : LockOwner} (h : LocksGone die core o s) (e : t.cores = s.cores) : LocksGone die core o t := by
  unfold LocksGone State.core at h ⊢
  rwa [e]

/-- What a L1 loses is no lock. -/
theorem LocksGone.l1Invalidate {o : LockOwner} (h : LocksGone die core o s) (d k : Nat) : LocksGone die core o (l1Invalidate s d k) := by
  intro l hl
  refine h l ?_
  unfold Machine.l1Invalidate State.core State.setCore at hl
  dsimp only at hl
  by_cases hk : coreKey die core = coreKey d k
  · rw [hk, tget_tset_self] at hl
    unfold State.core
    rw [hk]
    exact hl
  · rw [tget_tset_ne _ _ _ _ hk] at hl
    exact hl

/-- With no fence to settle, followers alone leave, and the L1s lose shared lines: the copies, the groups and the locks stay. -/
theorem settleFences_noFence (hf : s.fences = []) {o : LockOwner} (h : LocksGone die core o s) :
    (settleFences s).copies = s.copies ∧ (settleFences s).groups = s.groups ∧ LocksGone die core o (settleFences s) := by
  unfold settleFences
  rw [hf, List.foldl_nil]
  refine List.foldlRecOn (motive := fun t : State => t.copies = s.copies ∧ t.groups = s.groups ∧ LocksGone die core o t) _ _ ⟨rfl, rfl, h⟩ ?_
  rintro t ⟨hc, hg, hl⟩ a _
  unfold settleFollower
  split
  · exact ⟨hc, hg, hl⟩
  · dsimp only
    split
    · refine ⟨hc, hg, LocksGone.l1Invalidate ?_ _ _⟩
      exact hl
    · exact ⟨hc, hg, hl⟩

/-- What a slot of a group without a frame becomes where it waits as `p` says. -/
theorem group?_modWaiting {gid : Nat} {g : Group} (hg : s.group? gid = some g) (s1 : Bool) (p : Slot → Bool) (h : Slot → Slot)
    (hw : p (g.slot s1) = true) : ∃ g', (s.modWaiting gid s1 p h).group? gid = some g' ∧ g'.slot s1 = h (g.slot s1) := by
  unfold State.modWaiting
  rw [group?_modGroup, if_pos rfl, hg]
  refine ⟨_, rfl, ?_⟩
  cases s1
  · exact if_pos hw
  · exact if_pos hw

theorem modWaiting_eq (s : State) (gid : Nat) (s1 : Bool) (p : Slot → Bool) (h : Slot → Slot) :
    ∃ gs, s.modWaiting gid s1 p h = { s with groups := gs } := modGroup_eq s gid _

theorem setCtr_slot (g : Group) (ctr : BitVec 2) (n : Nat) (s1 : Bool) : (g.setCtr ctr n).slot s1 = g.slot s1 := by
  unfold Group.setCtr
  split <;> rfl

/-- Does the slot wait for this copy? -/
def Slot.awaitsCopy (id : Nat) (sl : Slot) : Bool := match sl.wait with | .cpyCont t _ => t = id | _ => false

/-- The slot at the continuation that it has waited for. -/
def Slot.continued (sl : Slot) : Slot := match sl.wait with | .cpyCont _ dest => sl.jump dest | _ => sl

/-- A copy has left the list, and its locks have gone. -/
def copyUnlocked (s : State) (c : CopyOp) : State := dropLocks { s with copies := s.copies.filter fun x => x.id ≠ c.id } c.die c.core (.copy c.id)

theorem copyDone_cont_eq (hp : c.pid = none) (hc : c.cont = true) {g : Group} (hg : s.group? c.gid = some g) :
    copyDone s c =
      settleFences (((copyUnlocked s c).ctrDown c.gid c.ctr).modWaiting c.gid c.s1 (Slot.awaitsCopy c.id) Slot.continued) := by
  have hx : (copyUnlocked s c).settleCtr c.gid c.ctr = (copyUnlocked s c).ctrDown c.gid c.ctr := by
    unfold State.settleCtr
    rw [show (copyUnlocked s c).group? c.gid = some g from hg]
  rw [← hx]
  unfold copyDone
  rw [hp, hc]
  rfl

/-- A cpy.cont is over: its locks go, its counter falls, and its slot resumes at the continuation. -/
theorem copyDone_cont (hp : c.pid = none) (hc : c.cont = true) {g : Group} {dest : Addr} (hg : s.group? c.gid = some g)
    (hw : (g.slot c.s1).wait = .cpyCont c.id dest) (hf : s.fences = []) :
    ∃ g', (copyDone s c).copies = s.copies.filter (fun y => y.id ≠ c.id) ∧ (copyDone s c).group? c.gid = some g' ∧
      g'.slot c.s1 = (g.slot c.s1).jump dest ∧ LocksGone c.die c.core (.copy c.id) (copyDone s c) := by
  have hctr : ((copyUnlocked s c).ctrDown c.gid c.ctr).group? c.gid = some (g.ctrDown c.ctr) := by
    unfold State.ctrDown
    rw [group?_modGroup, if_pos rfl]
    exact congrArg (Option.map _) hg
  have hslot : (g.ctrDown c.ctr).slot c.s1 = g.slot c.s1 := setCtr_slot g c.ctr _ c.s1
  have hawait : Slot.awaitsCopy c.id ((g.ctrDown c.ctr).slot c.s1) = true := by
    rw [hslot, Slot.awaitsCopy, hw]
    exact decide_eq_true rfl
  have hgo : Slot.continued (g.slot c.s1) = (g.slot c.s1).jump dest := by
    rw [Slot.continued, hw]
  obtain ⟨g', hg', hs'⟩ := group?_modWaiting hctr c.s1 _ Slot.continued hawait
  obtain ⟨gs, hmod⟩ := modGroup_eq (copyUnlocked s c) c.gid fun g => g.ctrDown c.ctr
  obtain ⟨gs', hmod'⟩ := modWaiting_eq ((copyUnlocked s c).ctrDown c.gid c.ctr) c.gid c.s1 (Slot.awaitsCopy c.id) Slot.continued
  have hz : ((copyUnlocked s c).ctrDown c.gid c.ctr).modWaiting c.gid c.s1 (Slot.awaitsCopy c.id) Slot.continued =
      { copyUnlocked s c with groups := gs' } := by
    refine Eq.trans hmod' ?_
    rw [State.ctrDown, hmod]
  obtain ⟨hcopies, hgroups, hlocks⟩ := settleFences_noFence (s := { copyUnlocked s c with groups := gs' }) hf
    (LocksGone.congr (s := copyUnlocked s c) (locksGone_dropLocks _ c.die c.core (.copy c.id)) rfl)
  rw [hz] at hg'
  rw [copyDone_cont_eq hp hc hg, hz]
  refine ⟨g', hcopies, ?_, hs'.trans (by rw [hslot, hgo]), hlocks⟩
  unfold State.group?
  rw [hgroups]
  exact hg'

end

/-! ### Elements and their locks (R69, R76, R304 to R306) -/

section
variable {c : CopyOp}

theorem moves_block {rows sp dp : Nat} (h : c.kind = .block rows sp dp) : c.moves = (List.range (max rows 1)).flatMap fun i =>
    (List.range c.count).map fun j => (at_ c.dst (i * dp + j * elemSize c.w), at_ c.src (i * sp + j * elemSize c.w)) := by
  unfold CopyOp.moves
  rw [h]

theorem moves_gather {js : List Nat} (h : c.kind = .gather) (hj : c.idxs = some js) :
    c.moves = js.zipIdx.map fun y => (at_ c.dst (y.2 * elemSize c.w), at_ c.src (y.1 * elemSize c.w)) := by
  unfold CopyOp.moves
  rw [h, hj]
  rfl

theorem moves_scatter {js : List Nat} (h : c.kind = .scatter) (hj : c.idxs = some js) :
    c.moves = js.zipIdx.map fun y => (at_ c.dst (y.1 * elemSize c.w), at_ c.src (y.2 * elemSize c.w)) := by
  unfold CopyOp.moves
  rw [h, hj]
  rfl

theorem reads_kinds (h : c.kind.reads = true) : (∀ tile row quad pitch, c.kind ≠ .acc tile row quad pitch) ∧ ∀ v, c.kind ≠ .fill v := by
  refine ⟨fun tile row quad pitch hk => ?_, fun v hk => ?_⟩
  · rw [hk] at h
    cases h
  · rw [hk] at h
    cases h

theorem foldl_min_le (xs : List Addr) (a : Nat) :
    xs.foldl (fun m x => min m x.toNat) a ≤ a ∧ ∀ x ∈ xs, xs.foldl (fun m x => min m x.toNat) a ≤ x.toNat := by
  induction xs generalizing a with
  | nil => exact ⟨Nat.le_refl a, fun _ hx => nomatch hx⟩
  | cons b r ih =>
    obtain ⟨hm, hr⟩ := ih (min a b.toNat)
    rw [List.foldl_cons]
    refine ⟨hm.trans (Nat.min_le_left _ _), fun x hx => ?_⟩
    rcases List.mem_cons.1 hx with rfl | hx
    · exact hm.trans (Nat.min_le_right _ _)
    · exact hr x hx

theorem le_foldl_max (e : Nat) (xs : List Addr) (a : Nat) :
    a ≤ xs.foldl (fun m x => max m (x.toNat + e)) a ∧ ∀ x ∈ xs, x.toNat + e ≤ xs.foldl (fun m x => max m (x.toNat + e)) a := by
  induction xs generalizing a with
  | nil => exact ⟨Nat.le_refl a, fun _ hx => nomatch hx⟩
  | cons b r ih =>
    obtain ⟨hm, hr⟩ := ih (max a (b.toNat + e))
    rw [List.foldl_cons]
    refine ⟨(Nat.le_max_left _ _).trans hm, fun x hx => ?_⟩
    rcases List.mem_cons.1 hx with rfl | hx
    · exact (Nat.le_max_right _ _).trans hm
    · exact hr x hx

/-- The hull of some places covers each of them. -/
theorem hull_covers (e : Nat) {xs : List Addr} {a : Addr} (ha : a ∈ xs) :
    ∃ lo n, hull e xs = some (lo, n) ∧ lo ≤ a.toNat ∧ a.toNat + e ≤ lo + n := by
  cases xs with
  | nil => cases ha
  | cons b r =>
    obtain ⟨hlo, hlor⟩ := foldl_min_le r b.toNat
    obtain ⟨hhi, hhir⟩ := le_foldl_max e r (b.toNat + e)
    have hin : r.foldl (fun m x => min m x.toNat) b.toNat ≤ a.toNat ∧ a.toNat + e ≤ r.foldl (fun m x => max m (x.toNat + e)) (b.toNat + e) := by
      rcases List.mem_cons.1 ha with rfl | ha
      · exact ⟨hlo, hhi⟩
      · exact ⟨hlor a ha, hhir a ha⟩
    refine ⟨_, _, rfl, hin.1, ?_⟩
    omega

/-- The entry that the places `xs` of a copy take, if there are any. -/
def hullLock (c : CopyOp) (sp : Space) (write : Bool) (xs : List Addr) : List Lock :=
  match hull (elemSize c.w) xs with
  | some (lo, n) => [{ owner := .copy c.id, tenant := c.tenant, space := sp, lo := lo, len := n, write := write }]
  | none => []

theorem locks_eq (c : CopyOp) : c.locks =
    (if c.kind.reads then hullLock c c.sspace false (c.moves.map Prod.snd) else []) ++ hullLock c c.dspace true (c.moves.map Prod.fst) := rfl

theorem hullLock_length (c : CopyOp) (sp : Space) (write : Bool) (xs : List Addr) : (hullLock c sp write xs).length ≤ 1 := by
  unfold hullLock
  split
  · exact Nat.le_refl 1
  · exact Nat.zero_le 1

theorem hullLock_covers (sp : Space) (write : Bool) {xs : List Addr} {a : Addr} (ha : a ∈ xs) :
    ∃ l ∈ hullLock c sp write xs, l.owner = .copy c.id ∧ l.space = sp ∧ l.write = write ∧ l.lo ≤ a.toNat ∧ a.toNat + elemSize c.w ≤ l.lo + l.len := by
  obtain ⟨lo, n, hh, hlo, hhi⟩ := hull_covers (elemSize c.w) ha
  unfold hullLock
  rw [hh]
  exact ⟨_, List.mem_singleton.2 rfl, rfl, rfl, rfl, hlo, hhi⟩

theorem locks_length (c : CopyOp) : c.locks.length ≤ 2 := by
  have hw := hullLock_length c c.dspace true (c.moves.map Prod.fst)
  have hr := hullLock_length c c.sspace false (c.moves.map Prod.snd)
  rw [locks_eq, List.length_append]
  split
  · omega
  · rw [List.length_nil]
    omega

theorem locks_cover {m : Move} (hm : m ∈ c.moves) :
    (∃ l ∈ c.locks, l.owner = .copy c.id ∧ l.space = c.dspace ∧ l.write = true ∧ l.lo ≤ m.1.toNat ∧ m.1.toNat + elemSize c.w ≤ l.lo + l.len) ∧
      (c.kind.reads = true →
        ∃ l ∈ c.locks, l.owner = .copy c.id ∧ l.space = c.sspace ∧ l.write = false ∧ l.lo ≤ m.2.toNat ∧ m.2.toNat + elemSize c.w ≤ l.lo + l.len) := by
  rw [locks_eq]
  refine ⟨?_, fun hr => ?_⟩
  · obtain ⟨l, hl, h⟩ := hullLock_covers c.dspace true (List.mem_map_of_mem (f := Prod.fst) hm)
    exact ⟨l, List.mem_append_right _ hl, h⟩
  · obtain ⟨l, hl, h⟩ := hullLock_covers c.sspace false (List.mem_map_of_mem (f := Prod.snd) hm)
    rw [if_pos hr]
    exact ⟨l, List.mem_append_left _ hl, h⟩

end

/-! ### The data of the elements (R110, R114, R304 to R306) -/

section
variable {s u v : State} {c : CopyOp} {agent die k : Nat}

theorem moveData_fill {x : BitVec 64} (h : c.kind = .fill x) (r : List (List Nat)) :
    moveData s c r = (s, List.replicate c.count (toBytes x (elemSize c.w))) := by
  unfold moveData
  rw [h]
  dsimp only
  rw [List.map_const', List.length_range]

theorem moveData_acc {tile row quad pitch : Nat} (h : c.kind = .acc tile row quad pitch) (r : List (List Nat)) :
    moveData s c r = (s, (List.range (96 * c.count)).map fun i => drained c i) := by
  unfold moveData
  rw [h]

theorem moveData_reads (h : c.kind.reads = true) (r : List (List Nat)) : moveData s c r = readMoves s c r := by
  obtain ⟨hacc, hfill⟩ := reads_kinds h
  unfold moveData
  split
  · next hk => exact absurd hk (hacc _ _ _ _)
  · next hk => exact absurd hk (hfill _)
  · rfl

theorem drainNext_acc {tile row quad pitch : Nat} (h : c.kind = .acc tile row quad pitch) :
    let t := (s.quad c.die c.core quad).mx.acc[(Fin.ofNat 8 tile)]
    drainNext s c = if c.count ≤ c.rows.length then none
      else if row + c.rows.length < t.watermark then some (some ((tget t.rows (row + c.rows.length)).getD 0#3072)) else some none := by
  intro t
  unfold drainNext
  rw [h]
  dsimp only
  split
  · rfl
  · exact apply_ite some _ _ _

theorem tget_zip_none {ks : List Nat} {bs : List Byte} (h : k ∉ ks) : tget (ks.zip bs) k = none := by
  induction ks generalizing bs with
  | nil => rfl
  | cons a r ih =>
    obtain ⟨ha, hr⟩ := not_or.1 (mt List.mem_cons.2 h)
    cases bs with
    | nil => rfl
    | cons b bs => rw [List.zip_cons_cons, tget, if_neg (Ne.symm ha), ih hr]

/-- The byte that an engine agent's flits last carry to a key. -/
def flitByte (fs : List Flit) (k : Nat) : Option Byte := fs.foldl (fun o f => (tget (f.keys.zip f.bytes) k).or o) none

theorem flitByte_none {fs : List Flit} (h : ∀ f ∈ fs, k ∉ f.keys) : flitByte fs k = none :=
  List.foldlRecOn (motive := fun o => o = none) _ _ rfl fun o ho f hf => by rw [tget_zip_none (h f hf), ho]; rfl

theorem flitByte_last {fs : List Flit} {f : Flit} {b : Byte} (hf : tget (f.keys.zip f.bytes) k = some b) : flitByte (fs ++ [f]) k = some b := by
  unfold flitByte
  rw [List.foldl_append, List.foldl_cons, List.foldl_nil, hf, Option.some_or]

theorem engineByte_onChip (h : isGlobal k = false) : engineByte s agent die k = memGet s.mem k := by
  unfold engineByte
  rw [h]
  rfl

theorem engineByte_home (h : isGlobal k = true) (hf : ∀ f ∈ s.flits, f.eng = some agent → k ∉ f.keys) :
    engineByte s agent die k = if engineHeld s agent k = true then homeByte s k else dieByte s die k := by
  have hn : flitByte (s.flits.filter fun f => f.eng = some agent) k = none :=
    flitByte_none fun f hm => hf f (List.mem_of_mem_filter hm) (of_decide_eq_true (List.mem_filter.1 hm).2)
  unfold flitByte at hn
  unfold engineByte
  rw [h, hn]
  rfl

theorem engineByte_flit {f : Flit} {b : Byte} (h : isGlobal k = true) (hl : s.flits.getLast? = some f) (he : f.eng = some agent)
    (hb : tget (f.keys.zip f.bytes) k = some b) : engineByte s agent die k = b := by
  obtain ⟨fs, hfs⟩ := List.getLast?_eq_some_iff.1 hl
  have hfilter : (s.flits.filter fun f => f.eng = some agent) = (fs.filter fun f => f.eng = some agent) ++ [f] := by
    rw [hfs, List.filter_append, List.filter_singleton, decide_eq_true he]
    rfl
  have hn : flitByte (s.flits.filter fun f => f.eng = some agent) k = some b := by
    rw [hfilter]
    exact flitByte_last hb
  unfold flitByte at hn
  unfold engineByte
  rw [h, hn]
  rfl

end

end Sys2Proof.Machine
end

section
namespace Sys2Proof.Machine

/-! ### Indices, collectives and the steps of an operation (R190, R304, R305, R308) -/

section
variable {s t u v : State} {c c' : CopyOp} {ks : List (List Nat)} {bs : List (List Byte)} {bad : Addr}

/-- A fault speaks of nothing that its operation has read. -/
theorem copyFault_idxs (s : State) (c : CopyOp) (x : Option (List Nat)) (detail : BitVec 8) (addr : Addr) :
    copyFault s { c with idxs := x } detail addr = copyFault s c detail addr := rfl

/-- The keys of a list of 32-bit indices. -/
def indexKeys (s : State) (c : CopyOp) : State × Except (BitVec 8 × Addr ⊕ PageFault × Addr) (List (List Nat)) :=
  moveKeys s { c with w := 5#3 } c.sspace .read ((List.range c.count).map fun i => at_ c.idx (4 * i))

section
variable (hk : indexKeys s c = (u, .ok ks)) (hr : readMoves u c ks = (v, bs)) (hc : c' = { c with idxs := some (bs.map natOfBytes) })
include hk hr hc

theorem readIndices_outside (ho : outside? v c' = some bad) : readIndices s c = copyFault v c' dAddressRange bad := by
  subst hc
  unfold indexKeys at hk
  rw [copyFault_idxs, readIndices, hk]
  dsimp only
  rw [hr]
  dsimp only
  rw [ho]

theorem readIndices_waits (ho : outside? v c' = none) (hl : takeLocks (dropLocks v c.die c.core (.copy c.id)) c.die c.core c'.locks = none) :
    readIndices s c = s := by
  subst hc
  unfold indexKeys at hk
  rw [readIndices, hk]
  dsimp only
  rw [hr]
  dsimp only
  rw [ho]
  dsimp only
  rw [hl]

theorem readIndices_trades (ho : outside? v c' = none) (hl : takeLocks (dropLocks v c.die c.core (.copy c.id)) c.die c.core c'.locks = some t) :
    readIndices s c = t.modCopy c.id fun _ => c' := by
  subst hc
  unfold indexKeys at hk
  rw [readIndices, hk]
  dsimp only
  rw [hr]
  dsimp only
  rw [ho]
  dsimp only
  rw [hl]

end

end

section
variable {s u v : State} {c : CopyOp} {op scope : BitVec 3} {tag : Word32} {parts kind root : Nat}

theorem mem_participants (hk : c.kind = .coll op scope tag parts kind root) (y : CopyOp) :
    y ∈ participants s c ↔ y ∈ s.copies ∧ y.tenant = c.tenant ∧ y.data = none ∧ ∃ o n k t, y.kind = .coll o scope tag n k t := by
  unfold participants
  rw [hk]
  dsimp only
  rw [List.mem_filter, Bool.and_eq_true, Bool.and_eq_true, decide_eq_true_eq, Option.isNone_iff_eq_none, and_assoc]
  refine and_congr_right fun _ => and_congr_right fun _ => and_congr_right fun _ => ?_
  cases y.kind with
  | coll o sc tg n k t =>
    dsimp only
    rw [Bool.and_eq_true, decide_eq_true_eq, decide_eq_true_eq]
    constructor
    · rintro ⟨rfl, rfl⟩
      exact ⟨o, n, k, t, rfl⟩
    · rintro ⟨_, _, _, _, h⟩
      cases h
      exact ⟨rfl, rfl⟩
  | _ => exact ⟨fun h => absurd h Bool.false_ne_true, fun ⟨_, _, _, _, h⟩ => nomatch h⟩

/-- A collective fails: its participants differ, are too many, or have no root. -/
def CollWrong (s : State) (c : CopyOp) (parts kind root : Nat) : Prop :=
  (∃ y ∈ participants s c, ¬ (y.kind = c.kind ∧ y.w = c.w ∧ y.count = c.count)) ∨ parts < (participants s c).length ∨
    ((participants s c).length = parts ∧ kind ≠ 0 ∧ ∀ y ∈ participants s c, root ≠ y.die)

/-- A collective moves: all of its participants have come, and what their programs did before has been done. -/
def CollReady (s : State) (c : CopyOp) (parts : Nat) : Prop :=
  (participants s c).length = parts ∧ ∀ y ∈ participants s c, y.stopped = none ∧ (∀ z ∈ s.copies, z.pid = y.pid → y.id ≤ z.id) ∧
    agentLanded s Config.dies (y.pid.getD y.id) = true

theorem priorDone_iff (y : CopyOp) : priorDone s y = true ↔
    (∀ z ∈ s.copies, z.pid = y.pid → y.id ≤ z.id) ∧ agentLanded s Config.dies (y.pid.getD y.id) = true := by
  unfold priorDone
  rw [Bool.and_eq_true, Bool.not_eq_true', List.any_eq_false]
  refine and_congr (forall₂_congr fun z _ => ?_) Iff.rfl
  rw [Bool.and_eq_true, decide_eq_true_eq, decide_eq_true_eq, not_and, Nat.not_lt]

/-- The step of a collective's operation. -/
theorem collStep_outcomes (hk : c.kind = .coll op scope tag parts kind root) :
    (CollWrong s c parts kind root → collStep s c = (participants s c).foldl (fun u y => copyFault u y 0x43#8 0#80) s) ∧
    (¬ CollWrong s c parts kind root → ¬ CollReady s c parts → collStep s c = s) ∧
    (¬ CollWrong s c parts kind root → CollReady s c parts → collStep s c = collMove s op kind root (participants s c)) := by
  have hwrong : (((participants s c).any fun x => decide ((⟨x.kind, x.w, x.count⟩ : CollKey) ≠ ⟨c.kind, c.w, c.count⟩)) ||
      decide (parts < (participants s c).length) ||
      (decide ((participants s c).length = parts) && decide (kind ≠ 0) && !((participants s c).any (isRoot root)))) = true ↔
      CollWrong s c parts kind root := by
    have hroot : (!((participants s c).any (isRoot root))) = true ↔ ∀ y ∈ participants s c, root ≠ y.die := by
      rw [Bool.not_eq_true', List.any_eq_false]
      exact forall₂_congr fun y _ => not_congr decide_eq_true_iff
    rw [Bool.or_eq_true, Bool.or_eq_true, Bool.and_eq_true, Bool.and_eq_true, List.any_eq_true, decide_eq_true_eq, decide_eq_true_eq,
      decide_eq_true_eq, hroot, or_assoc, and_assoc]
    refine or_congr (exists_congr fun y => and_congr_right fun _ => ?_) Iff.rfl
    rw [decide_eq_true_eq, ne_eq, CollKey.mk.injEq]
  have hready : (decide ((participants s c).length = parts) && (participants s c).all fun x => x.stopped.isNone && priorDone s x) = true ↔
      CollReady s c parts := by
    rw [Bool.and_eq_true, decide_eq_true_eq, List.all_eq_true]
    refine and_congr_right fun _ => forall₂_congr fun y _ => ?_
    rw [Bool.and_eq_true, Option.isNone_iff_eq_none, priorDone_iff]
  rw [hk] at hwrong
  unfold collStep
  rw [hk]
  dsimp only
  refine ⟨fun hw => ?_, fun hw hr => ?_, fun hw hr => ?_⟩
  · exact if_pos (hwrong.2 hw)
  · exact (if_neg (mt hwrong.1 hw)).trans (if_neg (mt hready.1 hr))
  · exact (if_neg (mt hwrong.1 hw)).trans (if_pos (hready.2 hr))

theorem collMove_takes {ps : List CopyOp} {xs : List (CopyOp × List (List Nat))} {ys : List (CopyOp × List Nat)}
    (hk : collKeys s ps = (u, .ok xs)) (hr : collRead u xs = (v, ys)) :
    collMove s op kind root ps = ps.foldl (fun z c => collTake z kind root (collResult op kind root ys) c) v := by
  unfold collMove
  rw [hk]
  dsimp only
  rw [hr]

theorem collKeys_cons {ps : List CopyOp} {src : List (List Nat)} {ys : List (CopyOp × List (List Nat))}
    (hm : moveKeys s c c.sspace .read (c.moves.map Prod.snd) = (u, .ok src)) (hk : collKeys u ps = (v, .ok ys)) :
    collKeys s (c :: ps) = (v, .ok ((c, src) :: ys)) := by
  rw [collKeys, hm]
  dsimp only
  rw [hk]

theorem collResult_reduces {y : CopyOp × List Nat} {ys : List (CopyOp × List Nat)} {i : Nat} (hi : i < y.1.count) (hk : kind ≠ 2) :
    (collResult op kind root (y :: ys))[i]? = some (reduceElem op (wBits y.1.w) ((y :: ys).map fun z => z.2.getD i 0)) := by
  unfold collResult
  dsimp only
  rw [List.getElem?_map, List.getElem?_range hi, Option.map_some, if_neg hk]

theorem collResult_root {y z : CopyOp × List Nat} {ys : List (CopyOp × List Nat)} {i : Nat} (hi : i < y.1.count)
    (hz : ((y :: ys).find? fun z => decide (root = z.1.die)) = some z) :
    (collResult op 2 root (y :: ys))[i]? = some (z.2.getD i 0, false) := by
  unfold collResult isRoot
  dsimp only
  rw [List.getElem?_map, List.getElem?_range hi, Option.map_some, if_pos rfl, hz]
  rfl

/-- What a participant's program has heard of its result. -/
def collNoted (s : State) (r : List (Nat × Bool)) (c : CopyOp) : State :=
  match c.pid.bind s.prog?, c.pid with
  | some p, some pid => if r.any Prod.snd then s.setProg pid { p with status := p.status ||| 0x10000#32 } else s
  | _, _ => s

theorem collNoted_eq {pid : Nat} {p : Prog} (r : List (Nat × Bool)) (hp : c.pid = some pid) (hprog : s.prog? pid = some p) :
    collNoted s r c = if r.any Prod.snd = true then s.setProg pid { p with status := p.status ||| 0x10000#32 } else s := by
  unfold collNoted
  rw [hp, Option.bind_some, hprog]

/-- A participant as it has taken the result: of a reduction only the root has anything to write. -/
def collTaken (kind root : Nat) (r : List (Nat × Bool)) (c : CopyOp) : CopyOp :=
  { c with data := some (if kind = 1 ∧ root ≠ c.die then [] else r.map fun v => natBytes v.1 (wBits c.w / 8)), wrote := 0 }

theorem collTake_eq (r : List (Nat × Bool)) : collTake s kind root r c =
    putMoves ((collNoted s r c).modCopy c.id fun _ => collTaken kind root r c) (collTaken kind root r c) 0 (collTaken kind root r c).writes := by
  have hbytes : (if (decide (kind = 1) && !isRoot root c) = true then [] else r.map fun v => natBytes v.1 (wBits c.w / 8)) =
      if kind = 1 ∧ root ≠ c.die then [] else r.map fun v => natBytes v.1 (wBits c.w / 8) := by
    refine if_congr ?_ rfl rfl
    rw [Bool.and_eq_true, decide_eq_true_eq, Bool.not_eq_true', isRoot, decide_eq_false_iff_not]
  unfold collTake collTaken
  rw [hbytes]
  rfl

end

/-! #### One element of a reduction (R190) -/

section
variable {w : Nat}

theorem foldl_select {p : Nat → Nat → Prop} [DecidableRel p] (y : Nat) (ys : List Nat) :
    ys.foldl (fun a b => if p a b then a else b) y ∈ y :: ys := by
  induction ys generalizing y with
  | nil => exact List.mem_cons_self
  | cons z r ih =>
    rw [List.foldl_cons]
    rcases List.mem_cons.1 (ih (if p y z then y else z)) with h | h
    · rw [h]
      split
      · exact List.mem_cons_self
      · exact List.mem_cons_of_mem _ List.mem_cons_self
    · exact List.mem_cons_of_mem _ (List.mem_cons_of_mem _ h)

/-- Choosing by a total preorder gives an element that the order puts before every other. -/
theorem foldl_select_first {p : Nat → Nat → Prop} [DecidableRel p] (hrefl : ∀ a, p a a) (htrans : ∀ a b c, p a b → p b c → p a c)
    (htotal : ∀ a b, ¬ p a b → p b a) (y : Nat) (ys : List Nat) : ∀ z ∈ y :: ys, p (ys.foldl (fun a b => if p a b then a else b) y) z := by
  induction ys generalizing y with
  | nil =>
    intro z hz
    rw [List.mem_singleton.1 hz]
    exact hrefl y
  | cons x r ih =>
    intro z hz
    rw [List.foldl_cons]
    have hfirst := ih (if p y x then y else x) _ List.mem_cons_self
    have hyx : p (if p y x then y else x) y ∧ p (if p y x then y else x) x := by
      split
      · next h => exact ⟨hrefl y, h⟩
      · next h => exact ⟨htotal y x h, hrefl x⟩
    rcases List.mem_cons.1 hz with rfl | hz
    · exact htrans _ _ _ hfirst hyx.1
    · rcases List.mem_cons.1 hz with rfl | hz
      · exact htrans _ _ _ hfirst hyx.2
      · exact ih _ z (List.mem_cons_of_mem _ hz)

theorem reduceElem_add (y : Nat) (ys : List Nat) : reduceElem 1#3 w (y :: ys) = ((y :: ys).sum % 2 ^ w, false) := by
  rw [List.sum_eq_foldl]
  rfl

theorem reduceElem_min (y : Nat) (ys : List Nat) :
    (reduceElem 2#3 w (y :: ys)).1 ∈ y :: ys ∧ (reduceElem 2#3 w (y :: ys)).2 = false ∧
      ∀ z ∈ y :: ys, (BitVec.ofNat w (reduceElem 2#3 w (y :: ys)).1).toInt ≤ (BitVec.ofNat w z).toInt :=
  ⟨foldl_select (p := fun a b => (BitVec.ofNat w a).toInt ≤ (BitVec.ofNat w b).toInt) y ys, rfl,
    foldl_select_first (p := fun a b => (BitVec.ofNat w a).toInt ≤ (BitVec.ofNat w b).toInt) (fun _ => Int.le_refl _)
      (fun _ _ _ => Int.le_trans) (fun _ _ h => Int.le_of_lt (Int.not_le.1 h)) y ys⟩

theorem reduceElem_max (y : Nat) (ys : List Nat) :
    (reduceElem 3#3 w (y :: ys)).1 ∈ y :: ys ∧ (reduceElem 3#3 w (y :: ys)).2 = false ∧
      ∀ z ∈ y :: ys, (BitVec.ofNat w z).toInt ≤ (BitVec.ofNat w (reduceElem 3#3 w (y :: ys)).1).toInt :=
  ⟨foldl_select (p := fun a b => (BitVec.ofNat w b).toInt ≤ (BitVec.ofNat w a).toInt) y ys, rfl,
    foldl_select_first (p := fun a b => (BitVec.ofNat w b).toInt ≤ (BitVec.ofNat w a).toInt) (fun _ => Int.le_refl _)
      (fun _ _ _ h h' => Int.le_trans h' h) (fun _ _ h => Int.le_of_lt (Int.not_le.1 h)) y ys⟩

/-- The format of a floating-point reduction. -/
def reduceFormat (w : Nat) : Format := if w = 64 then .f64 else .f32

theorem reduceElem_float (y : Nat) (ys : List Nat) : reduceElem 0#3 w (y :: ys) =
    if ((y :: ys).map (decodeF (reduceFormat w))).any FVal.isNaN = true then
      ((reduceFormat w).canonNaN, ((y :: ys).map (decodeF (reduceFormat w))).any FVal.isSig)
    else if ((((y :: ys).map (decodeF (reduceFormat w))).any fun v => decide (v = .inf false)) &&
        ((y :: ys).map (decodeF (reduceFormat w))).any fun v => decide (v = .inf true)) = true then
      ((reduceFormat w).canonNaN, true)
    else if ((((y :: ys).map (decodeF (reduceFormat w))).any fun v => decide (v = .inf false)) ||
        ((y :: ys).map (decodeF (reduceFormat w))).any fun v => decide (v = .inf true)) = true then
      (packF (reduceFormat w) (((y :: ys).map (decodeF (reduceFormat w))).any fun v => decide (v = .inf true)) (reduceFormat w).infCode, false)
    else (rneTo (reduceFormat w) (exactOf (((y :: ys).map (decodeF (reduceFormat w))).foldl (fun a v => a + v.real) 0)
      (((y :: ys).map (decodeF (reduceFormat w))).all fun v => decide (v = .fin true 0))), false) := rfl

theorem reduceElem_nan (y : Nat) (ys : List Nat) (h : ∃ z ∈ y :: ys, (decodeF (reduceFormat w) z).isNaN = true) :
    reduceElem 0#3 w (y :: ys) =
      ((reduceFormat w).canonNaN, decide (∃ z ∈ y :: ys, (decodeF (reduceFormat w) z).isSig = true)) := by
  have hn : ((y :: ys).map (decodeF (reduceFormat w))).any FVal.isNaN = true := by
    rw [List.any_map, List.any_eq_true]
    exact h
  have hs : ((y :: ys).map (decodeF (reduceFormat w))).any FVal.isSig = decide (∃ z ∈ y :: ys, (decodeF (reduceFormat w) z).isSig = true) := by
    rw [List.any_map, Bool.eq_iff_iff, decide_eq_true_iff]
    exact List.any_eq_true
  rw [reduceElem_float, if_pos hn, hs]

theorem reduceElem_sum (y : Nat) (ys : List Nat) (neg : Bool) (hneg : neg = true ↔ ∀ z ∈ y :: ys, decodeF (reduceFormat w) z = .fin true 0)
    (hfin : ∀ z ∈ y :: ys, ∃ m p, decodeF (reduceFormat w) z = .fin m p) :
    reduceElem 0#3 w (y :: ys) =
      (rneTo (reduceFormat w) (exactOf ((y :: ys).map fun z => (decodeF (reduceFormat w) z).real).sum neg), false) := by
  have hno (q : FVal → Bool) (hq : ∀ m p, q (.fin m p) = false) : ((y :: ys).map (decodeF (reduceFormat w))).any q = false := by
    rw [List.any_map, List.any_eq_false]
    intro z hz
    obtain ⟨m, p, hmp⟩ := hfin z hz
    rw [Function.comp_apply, hmp, hq, Bool.not_eq_true]
  have hall : ((y :: ys).map (decodeF (reduceFormat w))).all (fun v => decide (v = .fin true 0)) = neg := by
    rw [Bool.eq_iff_iff, hneg, List.all_map, List.all_eq_true]
    exact forall₂_congr fun z _ => decide_eq_true_iff
  have hsum : ((y :: ys).map (decodeF (reduceFormat w))).foldl (fun a v => a + v.real) 0 =
      ((y :: ys).map fun z => (decodeF (reduceFormat w) z).real).sum := by
    rw [List.sum_eq_foldl, List.foldl_map, List.foldl_map]
  have hnan := hno FVal.isNaN fun _ _ => rfl
  have hpos := hno (fun v => decide (v = .inf false)) fun _ _ => rfl
  have hinf := hno (fun v => decide (v = .inf true)) fun _ _ => rfl
  rw [reduceElem_float, hnan, hpos, hinf, hsum, hall]
  rfl

end

/-! #### The steps of an engine operation -/

/-- An operation reads its indices, then the rows of a drain as the watermark passes them, and then moves its elements. -/
def elementStep (s : State) (c : CopyOp) : Out :=
  if c.idxs.isNone then .next (readIndices s c)
  else
    match drainNext s c with
    | none => .next (moveAll s c)
    | some none => .next s
    | some (some row) => .next (s.modCopy c.id fun x => { x with rows := x.rows ++ [row] })

section
variable {s : State} {c : CopyOp}

theorem elementStep_indices (hi : c.idxs = none) : elementStep s c = .next (readIndices s c) := by
  unfold elementStep
  rw [hi]
  rfl

theorem elementStep_moves (hi : c.idxs.isSome = true) (hd : drainNext s c = none) : elementStep s c = .next (moveAll s c) := by
  unfold elementStep
  rw [Option.isNone_eq_false_iff.2 hi, if_neg Bool.false_ne_true, hd]

theorem elementStep_waits (hi : c.idxs.isSome = true) (hd : drainNext s c = some none) : elementStep s c = .next s := by
  unfold elementStep
  rw [Option.isNone_eq_false_iff.2 hi, if_neg Bool.false_ne_true, hd]

theorem elementStep_drains {row : BitVec 3072} (hi : c.idxs.isSome = true) (hd : drainNext s c = some (some row)) :
    elementStep s c = .next (s.modCopy c.id fun x => { x with rows := x.rows ++ [row] }) := by
  unfold elementStep
  rw [Option.isNone_eq_false_iff.2 hi, if_neg Bool.false_ne_true, hd]

end

section
variable {s : State} {id pid : Nat} {c : CopyOp} (he : (s.copies.find? fun y => y.id = id) = some c) (hp : c.pid = some pid) (hs : c.stopped = none)
include he hp hs

theorem copyOperation_moved (hm : c.moved = true) : exec (.copyOperationComplete id) s = .next (finishCopy s c) := by
  rw [exec_copyOperationComplete, execCopyOperationComplete, he]
  dsimp only
  rw [hp, hs, hm]
  rfl

theorem copyOperation_coll (hm : c.moved = false) (hd : c.data = none)
    (hk : ∃ o sc tag parts kind root, c.kind = .coll o sc tag parts kind root) :
    exec (.copyOperationComplete id) s = .next (collStep s c) := by
  obtain ⟨o, sc, tag, parts, kind, root, hk⟩ := hk
  rw [exec_copyOperationComplete, execCopyOperationComplete, he]
  dsimp only
  rw [hp, hs, hm, hk, hd]
  rfl

/-- An operation that is no collective with its result still to form goes on with its elements. -/
theorem copyOperation_elements (hm : c.moved = false)
    (hk : (∀ o sc tag parts kind root, c.kind ≠ .coll o sc tag parts kind root) ∨ c.data.isSome = true) :
    exec (.copyOperationComplete id) s = elementStep s c := by
  rw [exec_copyOperationComplete, execCopyOperationComplete, he]
  dsimp only
  rw [hp, hs, hm]
  refine (if_neg Bool.false_ne_true).trans ((if_neg Bool.false_ne_true).trans ?_)
  split
  · next hkind hdata =>
    rcases hk with hk | hk
    · exact absurd hkind (hk _ _ _ _ _ _)
    · rw [hdata] at hk
      cases hk
  · rfl

end

/-- Settles O54: the words as they issue, the elements with their locks and data, and the steps of an operation, each by its own lemma above. -/
theorem copyWords : Obligations.CopyWords := by
  unfold Obligations.CopyWords
  intro h dk ak len ssp dsp w tile op scope pol n8 d a n x mk begun
  refine ⟨cpy_skips, ?cpy, ?cont, ?cpyComplete, fun s c => ⟨finishCopy_landed, finishCopy_waits⟩, fun s u c src => moveAll_reads,
    fun s u c f va => moveAll_stops, fun s c => moveAll_resumes, ?put, ?done, ?words, fun s c tile row quad pitch => drainNext_acc, ?elements, ?data,
    fun s agent die k => ⟨engineByte_onChip, engineByte_home, fun f v => engineByte_flit⟩, ?indices, ?coll,
    fun s u v ps op kind root xs ys => collMove_takes, ?keys, ?result, ?reduce, ?take, ?stop, ?steps⟩
  case cpy =>
    intro s gid s1 g sh s' hp hm i c
    have he := cpy_issues hp hm
    exact ⟨fun ho => he.trans (cpyIssue_outside ho), fun ho hl => he.trans (cpyIssue_held ho hl), fun ho u hu => he.trans (cpyIssue_begins ho hu)⟩
  case cont =>
    intro s gid s1 g sh s' hp i off dest c
    have he := cpyCont_eq hp
    refine ⟨fun ho => he.trans (if_pos ho), fun ho hm => he.trans ((if_neg (not_not_intro ho)).trans (if_pos hm)), fun ho hm hout u hu => ?_⟩
    exact he.trans ((if_neg (not_not_intro ho)).trans ((if_neg hm).trans (cpyIssue_begins hout hu)))
  case cpyComplete =>
    intro s id c hf hp hs
    have he := cpyComplete_eq hf hp hs
    refine ⟨fun hw => he.trans (if_pos hw), fun hw hm => he.trans ?_, fun hw hm => he.trans ?_⟩
    · rw [hw, hm]
      rfl
    · rw [hw, hm]
      rfl
  case put =>
    intro s u c k va bs left
    exact ⟨rfl, fun ks hk => putMoves_writes hk, fun f at_ hk => putMoves_stops hk⟩
  case done =>
    intro s c hp hc g dest hg hframe hw hf
    obtain ⟨g', hcopies, hg', hslot, hlocks⟩ := copyDone_cont hp hc hg hw hf
    exact ⟨_, g', rfl, hcopies, hg', hslot, hlocks⟩
  case words =>
    intro s pid p hcur hprog r op' busy issues checked
    have hissues {i : Instr} {c : CopyOp} {locks : List Lock} (h : IssuesCopy s pid p i c locks) : issues i c locks := ⟨h.empty, h.held, h.begins⟩
    have hchecked {i : Instr} {c : CopyOp} (h : ChecksCopy s pid p i c) : checked i c := ⟨h.outside, fun ho => hissues (h.inside ho)⟩
    refine ⟨?_, hchecked (cfill_checks hcur hprog), ?_, ?_, ?_⟩
    · rintro i (rfl | rfl)
      · exact hchecked (block_checks hcur hprog (exec_cld w d a n x dsp ssp pol s))
      · exact hchecked (block_checks hcur hprog (exec_cst w d a n x dsp ssp pol s))
    · rintro i c (⟨rfl, rfl⟩ | ⟨rfl, rfl⟩)
      · obtain ⟨halign, hin⟩ := index_outcomes hcur hprog (exec_cgth w d a n x dsp ssp pol s)
        exact ⟨halign, fun h4 hi => hissues (hin h4 hi)⟩
      · obtain ⟨halign, hin⟩ := index_outcomes hcur hprog (exec_csct w d a n x dsp ssp pol s)
        exact ⟨halign, fun h4 hi => hissues (hin h4 hi)⟩
    · obtain ⟨hbad, hok⟩ := cacc_outcomes (w := w) (dsp := dsp) (ssp := ssp) (pol := pol) (d := d) (a := a) (n := n) (x := x) (tile := tile) hcur hprog
      refine ⟨hbad, fun hl h4 hd ho => ?_⟩
      obtain ⟨hheld, hissue⟩ := hok hl h4 hd ho
      exact ⟨hheld, fun ht hh => hissues (hissue ht hh)⟩
    · obtain ⟨hbad, hok⟩ := ccoll_outcomes (w := w) (dsp := dsp) (ssp := ssp) (pol := pol) (d := d) (a := a) (n := n) (x := x) (op := op)
        (scope := scope) hcur hprog
      exact ⟨hbad, fun hl ho => hissues (hok hl ho)⟩
  case elements =>
    intro c e put
    exact ⟨fun rows sp dp => moves_block, fun js => moves_gather, fun js => moves_scatter, reads_kinds, locks_length c, fun m => locks_cover⟩
  case data =>
    intro s c ks r
    exact ⟨fun v hk => moveData_fill hk r, fun tile row quad pitch hk => moveData_acc hk r, fun hr => moveData_reads hr r, rfl, rfl⟩
  case indices =>
    intro s u v c ks bs hk hr c'
    exact ⟨fun bad ho => readIndices_outside hk hr rfl ho, readIndices_waits hk hr rfl, fun ho t ht => readIndices_trades hk hr rfl ho ht⟩
  case coll =>
    intro s c op scope tag parts kind root hk ps agrees wrong ready
    exact ⟨mem_participants hk, collStep_outcomes hk⟩
  case keys =>
    intro s c ps kss xs
    exact ⟨rfl, fun u v src ys => collKeys_cons, rfl, rfl⟩
  case result =>
    intro op kind root y ys i hi
    refine ⟨collResult_reduces hi, fun hk z hz => ?_⟩
    subst hk
    exact collResult_root hi hz
  case reduce =>
    intro w y ys
    refine ⟨reduceElem_add y ys, ?_, fun neg => reduceElem_sum y ys neg, reduceElem_nan y ys⟩
    rintro op (rfl | rfl)
    · obtain ⟨hmem, hflag, hle⟩ := reduceElem_min (w := w) y ys
      exact ⟨hmem, hflag, fun z hz => (if_pos rfl).mpr (hle z hz)⟩
    · obtain ⟨hmem, hflag, hle⟩ := reduceElem_max (w := w) y ys
      exact ⟨hmem, hflag, fun z hz => (if_neg (by decide)).mpr (hle z hz)⟩
  case take =>
    intro s c kind root pid p r hp hprog c' u
    rw [collTake_eq, collNoted_eq r hp hprog]
    rfl
  case stop =>
    intro s c f va
    exact ⟨_, _, rfl, rfl⟩
  case steps =>
    intro s id c pid hf hp hs
    refine ⟨copyOperation_moved hf hp hs, copyOperation_coll hf hp hs, fun hm hk => ?_⟩
    have he := copyOperation_elements hf hp hs hm hk
    exact ⟨fun hi => he.trans (elementStep_indices hi), fun hi hd => he.trans (elementStep_moves hi hd), fun hi hd => he.trans (elementStep_waits hi hd),
      fun row hi hd => he.trans (elementStep_drains hi hd)⟩

end Sys2Proof.Machine
end

section
namespace Sys2Proof.Machine

/-! ### What a store at its home leaves to the readers of other dies (R100, R105, R106) -/

/-- A key behind the L2 on whose line a lease runs. -/
def Leased (s : State) (k : Nat) : Prop := k < 2 ^ 56 ∧ ∃ l ∈ s.leases, l.line = lineOf k ∧ s.now.toNat < l.expiry

/-- No lease is given, ended or made longer. -/
def SameLeases (s t : State) : Prop :=
  t.now = s.now ∧ t.leases.map (fun l => (l.line, l.expiry)) = s.leases.map fun l => (l.line, l.expiry)

section
variable {s t u : State} {e : L2Line} {k line tenant d : Nat} {pol : BitVec 2} {v : Byte} {out : Option Resident} {ks : List Nat} {vs : List Byte}
  {w : Writer}

theorem SameLeases.refl (s : State) : SameLeases s s := ⟨rfl, rfl⟩

theorem SameLeases.trans (h : SameLeases s t) (h' : SameLeases t u) : SameLeases s u := ⟨h'.1.trans h.1, h'.2.trans h.2⟩

theorem SameLeases.leased (h : SameLeases s t) (hk : Leased s k) : Leased t k := by
  obtain ⟨hnow, hls⟩ := h
  obtain ⟨hg, l, hl, hline, hexp⟩ := hk
  have hm : (l.line, l.expiry) ∈ t.leases.map fun x => (x.line, x.expiry) := hls ▸ List.mem_map_of_mem hl
  obtain ⟨x, hx, he⟩ := List.mem_map.1 hm
  obtain ⟨hxl, hxe⟩ := Prod.mk.inj he
  exact ⟨hg, x, hx, hxl.trans hline, by rw [hnow, hxe]; exact hexp⟩

theorem sameLeases_l2WriteBack : SameLeases s (l2WriteBack s line) := by
  cases h : s.l2Line? line with
  | none =>
    rw [l2WriteBack_none h]
    exact SameLeases.refl s
  | some e =>
    obtain ⟨ds, hd⟩ := l2WriteBack_some h
    rw [hd]
    exact ⟨rfl, rfl⟩

theorem sameLeases_l2Drop : SameLeases s (l2Drop (l2WriteBack s line) line) := sameLeases_l2WriteBack

/-- A leased copy that leaves its way leaves its lease behind. -/
theorem sameLeases_l2Evict : SameLeases s (l2Evict s d out) := by
  cases out with
  | none => exact SameLeases.refl s
  | some r =>
    unfold l2Evict
    dsimp only
    split
    · refine ⟨rfl, ?_⟩
      rw [List.map_map]
      refine List.map_congr_left fun l _ => ?_
      dsimp only [Function.comp_apply]
      split <;> rfl
    · exact sameLeases_l2Drop

theorem sameLeases_l2Place : SameLeases s (l2Place s tenant pol line) := by
  unfold l2Place
  split
  · exact SameLeases.refl s
  · extract_lets d slice
    split
    · exact SameLeases.refl s
    · exact sameLeases_l2Evict (s := s)

theorem sameLeases_l2Move : SameLeases s (l2Move s tenant e).1 := by
  unfold l2Move
  extract_lets x rest pool
  split
  · split
    · exact sameLeases_l2Evict
    · exact sameLeases_l2Drop
  · exact SameLeases.refl s

theorem sameLeases_homePut : SameLeases s (homePut s tenant pol k v) := by
  unfold homePut
  split
  · extract_lets p
    have hp : SameLeases s p := sameLeases_l2Place
    split
    · next e he =>
      have hm : SameLeases p (l2Move p tenant e).1 := sameLeases_l2Move
      split
      · next q hq =>
        rw [hq] at hm
        exact hp.trans hm
      · next q w hq =>
        rw [hq] at hm
        exact hp.trans hm
    · exact hp
  · exact SameLeases.refl s

theorem sameLeases_storeBy : SameLeases s (storeBy s w ks vs) := by
  unfold storeBy
  extract_lets leased lines hs u
  exact List.foldlRecOn (motive := fun t => SameLeases s t) _ _ (SameLeases.refl s) fun _ h _ _ => h.trans sameLeases_homePut

/-! #### The bytes held back -/

theorem HomeStep.held (h : HomeStep s t) : t.held = s.held := by
  obtain ⟨_, _, _, _, rfl⟩ := h
  rfl

/-- A table filled from a function of its keys. -/
theorem tget_foldl_tset (f : Nat → Byte) (qs : List Nat) (t : List (Nat × Byte)) :
    tget (qs.foldl (fun t q => tset t q (f q)) t) k = if k ∈ qs then some (f k) else tget t k := by
  induction qs generalizing t with
  | nil => rfl
  | cons q r ih =>
    rw [List.foldl_cons, ih]
    by_cases hr : k ∈ r
    · rw [if_pos hr, if_pos (List.mem_cons_of_mem _ hr)]
    · rw [if_neg hr]
      by_cases hq : k = q
      · rw [hq, tget_tset_self, if_pos List.mem_cons_self]
      · rw [tget_tset_ne _ _ _ _ hq, if_neg]
        exact fun hc => (List.mem_cons.1 hc).elim hq hr

/-- What a store holds back from other dies: bytes as they were, and all that it writes under a lease. -/
theorem storeBy_held : ∃ hs, (storeBy s w ks vs).held = s.held ++ hs ∧ (∀ h ∈ hs, ∀ k v, tget h.old k = some v → v = homeByte s k) ∧
    ∀ k ∈ ks, Leased s k → ∃ h ∈ hs, h.line = lineOf k ∧ (tget h.old k).isSome = true := by
  unfold storeBy
  extract_lets leased lines hs u
  refine ⟨hs, homeStep_homePuts.held, ?_, ?_⟩
  · rintro h hh k v hv
    obtain ⟨ln, -, rfl⟩ := List.mem_map.1 hh
    rw [tget_foldl_tset] at hv
    split at hv
    · exact (Option.some.inj hv).symm
    · cases hv
  · rintro k hk ⟨hg, l, hl, hline, hexp⟩
    have hlk : leased k = true := by
      have hany : (s.leases.any fun l => decide (l.line = lineOf k) && decide (s.now.toNat < l.expiry)) = true :=
        List.any_eq_true.2 ⟨l, hl, by simp [hline, hexp]⟩
      simp only [leased, isGlobal, hany, decide_eq_true hg, Bool.true_or, Bool.and_self]
    have hln : lineOf k ∈ lines := List.mem_eraseDups.2 (List.mem_map_of_mem (List.mem_filter.2 ⟨hk, hlk⟩))
    refine ⟨_, List.mem_map_of_mem hln, rfl, ?_⟩
    rw [tget_foldl_tset, if_pos (List.mem_filter.2 ⟨hk, decide_eq_true rfl⟩)]
    rfl

theorem homeByteFrom_congr (hh : t.held = s.held) (hb : homeByte t k = homeByte s k) : homeByteFrom t d k = homeByteFrom s d k := by
  unfold homeByteFrom heldByte?
  rw [hh, hb]

/-- A byte under a lease reads as before at other dies than its home. -/
theorem homeByteFrom_storeBy (f : Nat → Byte) (h : s.Inv) (hd : homeDie k ≠ some d) (hk : Leased s k) :
    homeByteFrom (storeBy s w ks (ks.map f)) d k = homeByteFrom s d k := by
  obtain ⟨hs, hheld, hold, hnew⟩ := storeBy_held (s := s) (w := w) (ks := ks) (vs := ks.map f)
  unfold homeByteFrom
  rw [if_neg hd, if_neg hd]
  unfold heldByte?
  rw [hheld, List.find?_append]
  cases hq : s.held.find? fun x => decide (x.line = lineOf k) && (tget x.old k).isSome with
  | some x =>
    have hx : (tget x.old k).isSome = true := (Bool.and_eq_true_iff.1 (List.find?_some hq :)).2
    obtain ⟨v, hv⟩ := Option.isSome_iff_exists.1 hx
    simp only [Option.some_or, Option.bind_some, hv, Option.getD_some]
  | none =>
    rw [Option.none_or, Option.bind_none, Option.getD_none]
    cases hp : hs.find? fun x => decide (x.line = lineOf k) && (tget x.old k).isSome with
    | some x =>
      have hx : (tget x.old k).isSome = true := (Bool.and_eq_true_iff.1 (List.find?_some hp :)).2
      obtain ⟨v, hv⟩ := Option.isSome_iff_exists.1 hx
      rw [Option.bind_some, hv, Option.getD_some]
      exact hold x (List.mem_of_find?_eq_some hp) k v hv
    | none =>
      have hks : k ∉ ks := fun hc => by
        obtain ⟨x, hx, hl, ho⟩ := hnew k hc hk
        exact List.find?_eq_none.1 hp x hx (by simp [hl, ho])
      rw [Option.bind_none, Option.getD_none, homeByte_storeBy f h, if_neg hks]

/-! #### A store that performs -/

/-- The bytes of `f` are at their homes, at the keys of the list alone, and under a lease other dies read what they read before. -/
structure Performs (f : Nat → Byte) (ks : List Nat) (s t : State) : Prop where
  inv : t.Inv
  byte : ∀ k, homeByte t k = if k ∈ ks then f k else homeByte s k
  lease : SameLeases s t
  old : ∀ d k, homeDie k ≠ some d → Leased s k → homeByteFrom t d k = homeByteFrom s d k

theorem Performs.trans {f : Nat → Byte} {ks' : List Nat} (h : Performs f ks s t) (h' : Performs f ks' t u) : Performs f (ks ++ ks') s u := by
  refine ⟨h'.inv, fun k => ?_, h.lease.trans h'.lease, fun d k hd hk => (h'.old d k hd (h.lease.leased hk)).trans (h.old d k hd hk)⟩
  rw [h'.byte, h.byte]
  by_cases hk : k ∈ ks'
  · rw [if_pos hk, if_pos (List.mem_append_right _ hk)]
  · simp only [hk, if_false, List.mem_append, or_false]

/-- What leaves memory, the L2, the leases and the bytes held back as they are takes nothing from a store. -/
theorem Performs.congr {f : Nat → Byte} (h : Performs f ks s t) (hm : u.mem = t.mem) (hl : u.l2 = t.l2) (hn : u.now = t.now)
    (hls : u.leases = t.leases) (hh : u.held = t.held) : Performs f ks s u := by
  have hb (k : Nat) : homeByte u k = homeByte t k := homeByte_congr hm hl
  exact ⟨inv_of_eq h.inv hm hl, fun k => (hb k).trans (h.byte k), h.lease.trans ⟨hn, by rw [hls]⟩,
    fun d k hd hk => (homeByteFrom_congr hh (hb k)).trans (h.old d k hd hk)⟩

theorem performs_storeBy (f : Nat → Byte) (h : s.Inv) : Performs f ks s (storeBy s w ks (ks.map f)) :=
  ⟨storeBy_inv _ _ _ h, fun _ => homeByte_storeBy f h, sameLeases_storeBy, fun _ _ hd hk => homeByteFrom_storeBy f h hd hk⟩

/-- Without an L1 lane-private stores are written through, each byte for itself (R55, R58). -/
theorem performs_lpPuts (f : Nat → Byte) (h : s.Inv) (hl : hasL1 s w.die w.core = false) :
    Performs f ks s (lpPuts s w ks (ks.map f)) := by
  induction ks generalizing s with
  | nil => exact ⟨h, fun _ => rfl, SameLeases.refl s, fun _ _ _ _ => rfl⟩
  | cons a r ih =>
    have hput : lpPut s w a (f a) = storeBy s w [a] ([a].map f) := by
      unfold lpPut
      rw [hl, if_neg Bool.false_ne_true]
      rfl
    have hone : Performs f [a] s (lpPut s w a (f a)) := hput ▸ performs_storeBy f h
    have hl' : hasL1 (lpPut s w a (f a)) w.die w.core = false := by
      rw [hput]
      unfold hasL1 State.core at hl ⊢
      rw [cores_storeBy]
      exact hl
    exact hone.trans (ih hone.inv hl')

/-- A core's own copy of a line changes its core alone. -/
theorem l1Patch_eq (s : State) (die core k : Nat) (v : Byte) (o : Option Writer) : ∃ cs, l1Patch s die core k v o = { s with cores := cs } := by
  unfold l1Patch
  split
  · exact ⟨_, rfl⟩
  · split
    · exact ⟨_, rfl⟩
    · exact ⟨_, rfl⟩

theorem l1Patches_eq (s : State) (die core : Nat) (ks : List Nat) (vs : List Byte) : ∃ cs, l1Patches s die core ks vs = { s with cores := cs } := by
  refine List.foldlRecOn (motive := fun t : State => ∃ cs, t = { s with cores := cs }) _ _ ⟨_, rfl⟩ fun t ht p _ => ?_
  obtain ⟨cs, rfl⟩ := ht
  exact l1Patch_eq _ die core p.1 p.2 none

theorem hierStep_l1Patch {core : Nat} {o : Option Writer} : HierStep s (l1Patch s d core k v o) := by
  obtain ⟨cs, h⟩ := l1Patch_eq s d core k v o
  exact ⟨_, _, _, _, _, cs, _, h⟩

theorem hierStep_lpPut : HierStep s (lpPut s w k v) := by
  unfold lpPut
  split
  · dsimp only
    split
    · exact hierStep_fetchFor.trans hierStep_l1Patch
    · exact hierStep_fetchFor.trans hierStep_storeBy
  · exact hierStep_storeBy

theorem hierStep_lpPuts : HierStep s (lpPuts s w ks vs) :=
  List.foldlRecOn (motive := fun t => HierStep s t) _ _ (HierStep.refl s) fun _ h _ _ => h.trans hierStep_lpPut

end

/-! ### The slots that fences let go on (R92, R258) -/

/-- A slot is as it was, or has gone on from a word that was over with a fence of the list. -/
def GoesOnly (fs : List FenceRec) (a b : Slot) : Prop := b = a ∨ ∃ f ∈ fs, a.wait = .written f.id ∧ b = a.advance false

/-- Predicates as they were, and slots that fences of the list alone let go on. -/
structure FencesRelease (fs : List FenceRec) (g g' : Group) : Prop where
  preds : g'.preds = g.preds
  s0 : GoesOnly fs g.s0 g'.s0
  s1 : GoesOnly fs g.s1 g'.s1

/-- Each group is still there, and fences of the list alone have let its slots go on. -/
def ReleaseStep (fs : List FenceRec) (s t : State) : Prop :=
  ∀ n g, s.group? n = some g → ∃ g', t.group? n = some g' ∧ FencesRelease fs g g'

section
variable {fs : List FenceRec} {s t u : State}

theorem GoesOnly.refl (a : Slot) : GoesOnly fs a a := .inl rfl

/-- A slot that has gone on waits for no fence. -/
theorem GoesOnly.trans {a b c : Slot} (h : GoesOnly fs a b) (h' : GoesOnly fs b c) : GoesOnly fs a c := by
  rcases h with rfl | ⟨f, hf, hw, rfl⟩
  · exact h'
  · rcases h' with rfl | ⟨f', -, hw', -⟩
    · exact .inr ⟨f, hf, hw, rfl⟩
    · cases hw'

theorem FencesRelease.refl (g : Group) : FencesRelease fs g g := ⟨rfl, .refl _, .refl _⟩

theorem FencesRelease.trans {a b c : Group} (h : FencesRelease fs a b) (h' : FencesRelease fs b c) : FencesRelease fs a c :=
  ⟨h'.preds.trans h.preds, h.s0.trans h'.s0, h.s1.trans h'.s1⟩

theorem fencesRelease_ctrDown (g : Group) (c : BitVec 2) : FencesRelease fs g (g.ctrDown c) :=
  ⟨setCtr_preds g c _, .inl (setCtr_slot g c _ false), .inl (setCtr_slot g c _ true)⟩

theorem fencesRelease_modSlotIn (g : Group) (s1 trap : Bool) {f : Slot → Slot} (hf : ∀ a, GoesOnly fs a (f a)) :
    FencesRelease fs g (g.modSlotIn s1 trap f) := by
  have hm : FencesRelease fs g (g.modSlot s1 f) := by
    cases s1
    · exact ⟨rfl, hf g.s0, .refl g.s1⟩
    · exact ⟨rfl, .refl g.s0, hf g.s1⟩
  unfold Group.modSlotIn
  split
  · split
    · exact hm
    · exact ⟨rfl, .refl g.s0, .refl g.s1⟩
  · exact hm

theorem ReleaseStep.of_groups (h : t.groups = s.groups) : ReleaseStep fs s t := fun n g hn => by
  refine ⟨g, ?_, .refl g⟩
  unfold State.group? at hn ⊢
  rw [h]
  exact hn

theorem ReleaseStep.trans (h : ReleaseStep fs s t) (h' : ReleaseStep fs t u) : ReleaseStep fs s u := fun n g hn => by
  obtain ⟨g1, h1, e1⟩ := h n g hn
  obtain ⟨g2, h2, e2⟩ := h' n g1 h1
  exact ⟨g2, h2, e1.trans e2⟩

theorem releaseStep_fences (xs : List FenceRec) : ReleaseStep fs s { s with fences := xs } := .of_groups rfl

theorem releaseStep_modGroup (gid : Nat) {f : Group → Group} (hf : ∀ g, FencesRelease fs g (f g)) : ReleaseStep fs s (s.modGroup gid f) :=
  fun n g hn => by
    rw [group?_modGroup, hn]
    split
    · exact ⟨f g, rfl, hf g⟩
    · exact ⟨g, rfl, .refl g⟩

theorem releaseStep_ctrDown (gid : Nat) (c : BitVec 2) : ReleaseStep fs s (s.ctrDown gid c) :=
  releaseStep_modGroup gid fun g => fencesRelease_ctrDown g c

theorem releaseStep_release {f : FenceRec} (hf : f ∈ fs) : ReleaseStep fs s (f.release s) := by
  unfold FenceRec.release
  split
  · exact .of_groups rfl
  · refine releaseStep_modGroup _ fun g => fencesRelease_modSlotIn g _ _ fun a => ?_
    split
    · next hw => exact .inr ⟨f, hf, hw, rfl⟩
    · exact .refl a

theorem releaseStep_countFence (f : FenceRec) : ReleaseStep fs s (countFence s f) := by
  unfold countFence
  split
  · exact .of_groups rfl
  · exact (releaseStep_fences _).trans (releaseStep_ctrDown _ _)

theorem releaseStep_endFence {f : FenceRec} (hf : f ∈ fs) : ReleaseStep fs s (endFence s f) := by
  have hr : ReleaseStep fs s (f.release { s with fences := s.fences.filter fun x => x.id ≠ f.id }) :=
    (releaseStep_fences _).trans (releaseStep_release hf)
  unfold endFence
  dsimp only
  split
  · split
    · exact hr.trans (.of_groups rfl)
    · exact hr
  · exact hr

theorem releaseStep_settleFence {f : FenceRec} (hf : f ∈ fs) : ReleaseStep fs s (settleFence s f) := by
  rw [settleFence_eq]
  split
  · exact .of_groups rfl
  · split
    · exact releaseStep_countFence f
    · exact (releaseStep_countFence f).trans (releaseStep_endFence hf)

theorem settleFollower_groups (s : State) (a : Follower) : (settleFollower s a).groups = s.groups := by
  unfold settleFollower
  split
  · rfl
  · dsimp only
    split <;> rfl

theorem releaseStep_settleFences : ReleaseStep s.fences s (settleFences s) := by
  have hf : ReleaseStep s.fences s (s.fences.foldl settleFence s) :=
    List.foldlRecOn (motive := fun t => ReleaseStep s.fences s t) _ _ (.of_groups rfl) fun _ h _ hm => h.trans (releaseStep_settleFence hm)
  exact List.foldlRecOn (motive := fun t => ReleaseStep s.fences s t) _ _ hf fun t h a _ => h.trans (.of_groups (settleFollower_groups t a))

theorem reqDone_fences (s : State) (gid : Nat) (ctr : BitVec 2) (id : Nat) : (s.reqDone gid ctr id).fences = s.fences := by
  unfold State.reqDone
  split
  · rfl
  · obtain ⟨_, h⟩ := modGroup_eq s gid fun g => g.ctrDown ctr
    unfold State.ctrDown
    rw [h]

theorem releaseStep_reqDone (gid : Nat) (ctr : BitVec 2) (id : Nat) : ReleaseStep fs s (s.reqDone gid ctr id) := by
  unfold State.reqDone
  split
  · exact .of_groups rfl
  · exact releaseStep_ctrDown gid ctr

end

/-! ### A store reaches its home (R58, R95, R100, R106) -/

section
variable {s : State} {id : Nat} {r : StoreRec}

/-- The state in which a store of this module has performed: its bytes at their homes or, without an L1, written through. -/
def storePut (s : State) (r : StoreRec) : State :=
  if r.space = .lp then lpPuts s r.writer r.keys r.bytes else l1Patches (storeBy s r.writer r.keys r.bytes) r.die r.core r.keys r.bytes

theorem storeReachHome_here (he : (s.stores.find? fun x => x.id = id) = some r) (hd : storeDue s r = true)
    (hr : isRemote r.keys = false ∨ r.space = .lp ∧ hasL1 s r.die r.core = true) :
    exec (.storeReachHome id) s = .next (settleFences
      ((storePut { s with stores := s.stores.filter fun x => x.id ≠ id } r).reqDone r.gid r.ctr r.parent)) := by
  have hc : ({ s with stores := s.stores.filter fun x => x.id ≠ id } : State).core r.die r.core = s.core r.die r.core := rfl
  have hn : (isRemote r.keys &&
      !(decide (r.space = .lp) && hasL1 { s with stores := s.stores.filter fun x => x.id ≠ id } r.die r.core)) = false := by
    unfold hasL1 at hr ⊢
    rw [hc]
    rcases hr with hr | ⟨hsp, hl⟩
    · rw [hr, Bool.false_and]
    · rw [hl, decide_eq_true hsp, Bool.and_self, Bool.not_true, Bool.and_false]
  rw [exec_storeReachHome]
  unfold execStoreReachHome
  rw [he]
  dsimp only
  rw [hd, Bool.not_true, if_neg Bool.false_ne_true, hn, if_neg Bool.false_ne_true]
  rfl

theorem hierStep_storePut : HierStep s (storePut s r) := by
  unfold storePut
  split
  · exact hierStep_lpPuts
  · obtain ⟨cs, h⟩ := l1Patches_eq (storeBy s r.writer r.keys r.bytes) r.die r.core r.keys r.bytes
    exact hierStep_storeBy.trans ⟨_, _, _, _, _, cs, _, h⟩

/-- A store's byte at a key, where it has one. -/
def StoreRec.byteAt (r : StoreRec) (k : Nat) : Byte := (tget (r.keys.zip r.bytes) k).getD 0#8

theorem performs_storePut (f : Nat → Byte) (h : s.Inv) (hb : r.bytes = r.keys.map f) (hl : ¬(r.space = .lp ∧ hasL1 s r.die r.core = true)) :
    Performs f r.keys s (storePut s r) := by
  unfold storePut
  rw [hb]
  split
  · next hsp =>
    have hno : hasL1 s r.die r.core = false := Bool.eq_false_iff.2 fun hc => hl ⟨hsp, hc⟩
    exact performs_lpPuts f h hno
  · obtain ⟨cs, hc⟩ := l1Patches_eq (storeBy s r.writer r.keys (r.keys.map f)) r.die r.core r.keys (r.keys.map f)
    have hp : Performs f r.keys s (storeBy s r.writer r.keys (r.keys.map f)) := performs_storeBy f h
    rw [hc]
    exact hp.congr rfl rfl rfl rfl rfl

theorem mem_keys_iff_tget_zip {ks : List Nat} {vs : List Byte} {k : Nat} (hl : vs.length = ks.length) :
    k ∈ ks ↔ (tget (ks.zip vs) k).isSome = true := by
  induction ks generalizing vs with
  | nil => simp [tget]
  | cons a r ih =>
    obtain ⟨v, vs, rfl⟩ := List.exists_cons_of_length_eq_add_one hl
    have hr := ih (vs := vs) (by simpa using hl)
    rw [List.zip_cons_cons, tget]
    by_cases ha : a = k
    · simp [ha]
    · rw [if_neg ha, ← hr, List.mem_cons]
      exact or_iff_right (Ne.symm ha)

theorem bytes_eq_map_byteAt (hn : r.keys.Nodup) (hl : r.bytes.length = r.keys.length) : r.bytes = r.keys.map r.byteAt := by
  unfold StoreRec.byteAt
  generalize r.keys = ks at hn hl ⊢
  generalize r.bytes = vs at hl ⊢
  induction ks generalizing vs with
  | nil => exact List.length_eq_zero_iff.1 hl
  | cons a ks ih =>
    obtain ⟨v, vs, rfl⟩ := List.exists_cons_of_length_eq_add_one hl
    obtain ⟨ha, hks⟩ := List.nodup_cons.1 hn
    have htail : vs = ks.map fun k => (tget (ks.zip vs) k).getD 0#8 := ih hks vs (by simpa using hl)
    rw [List.map_cons, List.zip_cons_cons, tget, if_pos rfl, Option.getD_some]
    refine congrArg (v :: ·) (htail.trans (List.map_congr_left fun k hk => ?_))
    rw [tget, if_neg fun hc : a = k => ha (hc ▸ hk)]

/-- What holds of a store whose turn it is: its bytes are at their homes, and no other changes; bytes under a lease read as before at other
dies; and of a group's registers and slots nothing changes but that fences let slots go on. -/
theorem storeReachHome_performs (he : (s.stores.find? fun x => x.id = id) = some r) (hd : storeDue s r = true) (h : s.Inv)
    (hn : r.keys.Nodup) (hb : r.bytes.length = r.keys.length) (hr : isRemote r.keys = false)
    (hl : ¬(r.space = .lp ∧ hasL1 s r.die r.core = true)) :
    ∃ t, exec (.storeReachHome id) s = .next t ∧ (t.stores = s.stores.filter fun x => x.id ≠ id) ∧ t.accs = s.accs ∧
      (∀ k, homeByte t k = (tget (r.keys.zip r.bytes) k).getD (homeByte s k)) ∧
      (∀ d k, homeDie k ≠ some d → Leased s k → homeByteFrom t d k = homeByteFrom s d k) ∧
      ∀ n g, s.group? n = some g → ∃ g', t.group? n = some g' ∧ SameFiles g g' ∧ FencesRelease s.fences g g' := by
  let u : State := { s with stores := s.stores.filter fun x => x.id ≠ id }
  have hu : u.Inv := h
  have hp : Performs r.byteAt r.keys u (storePut u r) := performs_storePut _ hu (bytes_eq_map_byteAt hn hb) hl
  have hput : HierStep u (storePut u r) := hierStep_storePut
  generalize hv : storePut u r = v at hp hput
  have hs : SettleStep v (settleFences (v.reqDone r.gid r.ctr r.parent)) := (settleStep_reqDone _ _ _).trans settleStep_settleFences
  have hf : (v.reqDone r.gid r.ctr r.parent).fences = s.fences := by
    obtain ⟨_, _, _, _, _, _, _, rfl⟩ := hput
    exact reqDone_fences _ _ _ _
  have hg : ReleaseStep s.fences v (settleFences (v.reqDone r.gid r.ctr r.parent)) :=
    (releaseStep_reqDone _ _ _).trans (hf ▸ releaseStep_settleFences)
  refine ⟨_, hv ▸ storeReachHome_here he hd (.inl hr), ?_⟩
  generalize settleFences (v.reqDone r.gid r.ctr r.parent) = t at hs hg
  have ht : Performs r.byteAt r.keys u t := by
    obtain ⟨⟨_, _, _, _, rfl⟩, -⟩ := hs
    exact hp.congr rfl rfl rfl rfl rfl
  refine ⟨?_, ?_, fun k => ?_, fun d k hk hx => ht.old d k hk hx, fun n g hn => ?_⟩
  · obtain ⟨⟨_, _, _, _, rfl⟩, -⟩ := hs
    exact hput.stores
  · obtain ⟨⟨_, _, _, _, rfl⟩, -⟩ := hs
    exact hput.accs
  · have hm := mem_keys_iff_tget_zip (k := k) hb
    rw [ht.byte]
    unfold StoreRec.byteAt
    cases hz : tget (r.keys.zip r.bytes) k with
    | none => exact if_neg fun hk => by simp [hz, hk] at hm
    | some v => exact if_pos (hm.2 (by rw [hz]; rfl))
  · have hn' : v.group? n = some g := by
      unfold State.group?
      rw [hput.groups]
      exact hn
    obtain ⟨g1, h1, e1⟩ := hs.2 n g hn'
    obtain ⟨g2, h2, e2⟩ := hg n g hn'
    cases h1.symm.trans h2
    exact ⟨g1, h1, e1, e2⟩

end

/-! ### A store whose home step lets a slot go on (R92, R95, R258) -/

/-- A core's store of one byte to the module's memory. -/
def fencedStore : StoreRec :=
  { id := 11, parent := 10, gid := 0, agents := 1#96, die := 0, core := 0, tenant := 0, space := .g, pol := 0#2, keys := [64], bytes := [1#8],
    s1 := false, trap := false, va := 0#80, ctr := 0#2, mse := [], reserve := [] }

/-- A group whose slot stands in a word that is over with fence 12. -/
def fencedGroup : Group :=
  { loneGroup State.reset 0x1000#80 with s0 := { (loneGroup State.reset 0x1000#80).s0 with wait := .written 12 } }

/-- The store is on its way, and fence 12 waits for it alone. -/
def fencedState : State :=
  { State.reset with
    groups := [(0, fencedGroup)], stores := [fencedStore],
    fences := [{ id := 12, gid := 0, lanes := BitVec.allOnes 96, succ := 15#4, scope := 2#3, waits := [11], more := [], counted := false, ctr := 0#2,
                 ends := some (false, false) }] }

/-- The store reaches its home, the fence has what it waited for, and the slot goes on. -/
theorem fencedState_slot_released :
    (match exec (.storeReachHome 11) fencedState with
      | .next t => (t.group? 0).map fun g => g.s0.wait
      | _ => none) = some .ready := by
  decide +kernel

/-- The byte of the store is at its home then: the state meets what `storeReachHome_performs` asks for. -/
theorem fencedState_byte_home : ∃ t, exec (.storeReachHome 11) fencedState = .next t ∧ homeByte t 64 = 1#8 := by
  obtain ⟨t, ht, -, -, hbyte, -⟩ := storeReachHome_performs (s := fencedState) (id := 11) (r := fencedStore) (by decide +kernel)
    (by decide +kernel) (inv_of_eq reset_inv rfl rfl) (by decide) rfl (by decide) (by decide)
  exact ⟨t, ht, hbyte 64⟩

/-- Refutes O39, by the frame of groups: the statement leaves the slots of every group as they are, but with the store of `fencedState` the fence
is over for which slot 0 waits, so that the slot goes on to its next word. `storeReachHome_performs` says what holds instead. -/
theorem not_storesReachHome : ¬ Obligations.StoresReachHome := by
  unfold Obligations.StoresReachHome
  intro h
  obtain ⟨hhome, -, -⟩ := h fencedState 11 fencedStore (by decide +kernel) (by decide +kernel)
  obtain ⟨t, ht, -, -, -, -, hgroups⟩ := hhome (inv_of_eq reset_inv rfl rfl) (by decide) rfl (by decide) (by decide)
  obtain ⟨g, hg, -, -, -, -, hs0, -⟩ := hgroups 0 fencedGroup rfl
  have hr := fencedState_slot_released
  rw [ht] at hr
  dsimp only at hr
  rw [hg, Option.map_some, hs0] at hr
  exact absurd hr (by decide)

end Sys2Proof.Machine
end

section
namespace Sys2Proof.Machine

/-! ### The host's accesses (R108, R325) -/

section
variable {s : State} {off n : Nat} {bs : List Byte}

theorem hierStep_posted {t : State} (h : HierStep s t) : t.posted = s.posted := by
  obtain ⟨_, _, _, _, _, _, _, rfl⟩ := h
  rfl

theorem upFrom_length (a n : Nat) : (upFrom a n).length = n := by simp [upFrom]

theorem upFrom_getElem (a n i : Nat) (h : i < (upFrom a n).length) : (upFrom a n)[i] = a + i := by simp [upFrom]

/-- Posted writes that a write before them holds up stay as they are. -/
theorem drainPosted_waits {p : Posted} {rest : List Posted} {n : Nat} (hp : p.id = some n) (hh : ∃ h ∈ s.held, h.w.id = n) :
    drainPosted s (p :: rest) = { s with posted := p :: rest } := by
  have hany : (s.held.any fun h => decide (h.w.id = n)) = true := by simpa using hh
  unfold drainPosted
  simp only [hp, Option.getD_some, hany, if_true]
  rw [← hp]

/-- One write that has just arrived performs at its home, and waits while it is held back from other dies. -/
theorem drainPosted_one (addr : Nat) (bs : List Byte) :
    let b := hostBytes s addr bs
    let u := storeHome { s with seqNo := s.seqNo + 1 } s.seqNo 0 (b.map Prod.fst) (b.map Prod.snd)
    drainPosted s [{ id := none, addr := addr, bytes := bs }] =
      if ∃ h ∈ u.held, h.w.id = s.seqNo then { u with posted := [{ id := some s.seqNo, addr := addr, bytes := bs }] }
      else { u with posted := [] } := by
  intro b u
  unfold drainPosted
  simp only [Option.getD_none, List.any_eq_true, decide_eq_true_eq]
  rfl

theorem hostPostedWrite_outside (h : 2 ^ 36 < off + bs.length) : exec (.hostPostedWrite false off bs) s = .next s := by
  rw [exec_hostPostedWrite]
  unfold execHostPostedWrite
  rw [if_neg Bool.false_ne_true, if_pos h]

theorem hostPostedWrite_inside (h : off + bs.length ≤ 2 ^ 36) : exec (.hostPostedWrite false off bs) s =
    .next (drainPosted s (s.posted ++ [{ id := none, addr := barAddr s.mbox off, bytes := bs }])) := by
  rw [exec_hostPostedWrite]
  unfold execHostPostedWrite
  rw [if_neg Bool.false_ne_true, if_neg (Nat.not_lt.2 h)]

theorem hostPostedWrite_alone (addr : Nat) (bs : List Byte) (hs : s.posted = []) :
    let u := storeHome { s with seqNo := s.seqNo + 1 } s.seqNo 0 ((hostBytes s addr bs).map Prod.fst) ((hostBytes s addr bs).map Prod.snd)
    ((∀ h ∈ u.held, h.w.id ≠ s.seqNo) → drainPosted s (s.posted ++ [{ id := none, addr := addr, bytes := bs }]) = u) ∧
    ((∃ h ∈ u.held, h.w.id = s.seqNo) → drainPosted s (s.posted ++ [{ id := none, addr := addr, bytes := bs }]) =
      { u with posted := [{ id := some s.seqNo, addr := addr, bytes := bs }] }) := by
  intro u
  rw [hs, List.nil_append, drainPosted_one]
  refine ⟨fun hn => ?_, fun hh => if_pos hh⟩
  rw [if_neg fun ⟨h, hm, he⟩ => hn h hm he]
  have hu : u.posted = [] := (hierStep_posted (hierStep_storeBy (s := { s with seqNo := s.seqNo + 1 }))).trans hs
  rw [← hu]

/-- Each byte of a host write is among those that it performs, or lies where the host reaches nothing. -/
theorem mem_hostBytes {pa i : Nat} (h : i < bs.length) :
    (keyOfPhys s (pa + i), bs.getD i 0#8) ∈ hostBytes s pa bs ∨ hostReaches s (pa + i) = false := by
  cases hr : hostReaches s (pa + i) with
  | false => exact .inr rfl
  | true =>
    refine .inl (List.mem_map.2 ⟨(pa + i, bs.getD i 0#8), List.mem_filter.2 ⟨?_, hr⟩, rfl⟩)
    refine List.mem_iff_getElem.2 ⟨i, by simp [upFrom_length, h], ?_⟩
    simp [upFrom_getElem, h]

theorem hostRead_outside (h : 2 ^ 36 < off + n) : exec (.hostRead false off n) s = .next s := by
  rw [exec_hostRead]
  unfold execHostRead
  rw [if_neg Bool.false_ne_true, if_pos h]

/-- The bytes that a host read of module memory returns. -/
def hostByte (s : State) (p : Nat × Nat) : Byte :=
  if hostReaches s p.1 then homeByte s (keyOfPhys s p.1) else (Config.freeValue (s.fresh + p.2)).setWidth 8

theorem hostByte_reached {pa i : Nat} (h : hostReaches s pa = true) : hostByte s (pa, i) = homeByte s (keyOfPhys s pa) := if_pos h

/-- Byte `i` of what a host read returns. -/
theorem hostBytes_getD {pa i : Nat} (h : i < n) : ((upFrom pa n).zipIdx.map (hostByte s)).getD i 0#8 = hostByte s (pa + i, i) := by
  simp [upFrom_length, upFrom_getElem, h]

theorem hostRead_inside (h : off + n ≤ 2 ^ 36) : exec (.hostRead false off n) s = .next { s with
    hostData := s.hostData ++ [(upFrom (barAddr s.mbox off) n).zipIdx.map (hostByte s)], fresh := s.fresh + n } := by
  rw [exec_hostRead]
  unfold execHostRead
  rw [if_neg Bool.false_ne_true, if_neg (Nat.not_lt.2 h)]
  rfl

theorem hostRead_bytes (h : off + n ≤ 2 ^ 36) : ∃ bs : List Byte, bs.length = n ∧
    exec (.hostRead false off n) s = .next { s with hostData := s.hostData ++ [bs], fresh := s.fresh + n } ∧
    ∀ i, i < n → hostReaches s (barAddr s.mbox off + i) = true →
      bs.getD i 0#8 = homeByte s (keyOfPhys s (barAddr s.mbox off + i)) :=
  ⟨_, by simp [upFrom_length], hostRead_inside h, fun _ hi hr => (hostBytes_getD hi).trans (hostByte_reached hr)⟩

theorem hostReaches_iff (s : State) (pa : Nat) : hostReaches s pa = true ↔ ownMemory s pa = true ∨ 2 ≤ window pa := by
  simp [hostReaches]

end

/-! ### The fabric (R109, R327) -/

/-- A flit that has been acknowledged or given up is gone. -/
def State.withoutFlit (s : State) (id : Nat) : State := { s with flits := s.flits.filter fun x => x.id ≠ id }

/-- A lease of ours, or an earlier store of the agent to the byte, delays a flit's acknowledgement. -/
def FlitLate (s : State) (f : Flit) : Prop :=
  (∃ l ∈ s.leases, s.now.toNat < l.expiry ∧ ∃ k ∈ f.keys, lineOf k = l.line) ∨
    ∃ q ∈ s.flits, q.id < f.id ∧ ((f.eng.isSome = true ∧ q.eng = f.eng ∧ ∃ k ∈ q.keys, k ∈ f.keys) ∨
      samePlace f.gid f.agents f.parent f.keys q.gid q.agents q.parent q.keys = true)

theorem flitDue_iff (s : State) (f : Flit) : flitDue s f = true ↔ ¬ FlitLate s f := by
  unfold flitDue FlitLate
  rw [not_or, Bool.and_eq_true, Bool.not_eq_true', Bool.not_eq_true', ← Bool.not_eq_true, ← Bool.not_eq_true, List.any_eq_true, List.any_eq_true]
  simp only [Bool.and_eq_true, Bool.or_eq_true, decide_eq_true_eq, List.any_eq_true, List.contains_iff_mem, and_assoc]

section
variable {s : State} {id : Nat} {f : Flit}

theorem fabricAck_absent (h : ∀ f ∈ s.flits, f.id ≠ id) : exec (.fabricAck id) s = .next s := by
  have hf : (s.flits.find? fun f => f.id = id) = none := by simpa using h
  show execFabricAck id s = _
  unfold execFabricAck
  rw [hf]

theorem fabricRetransmit_absent (h : ∀ f ∈ s.flits, f.id ≠ id) : exec (.fabricRetransmit id) s = .next s := by
  have hf : (s.flits.find? fun f => f.id = id) = none := by simpa using h
  show execFabricRetransmit id s = _
  unfold execFabricRetransmit
  rw [hf]

section
variable (hf : (s.flits.find? fun x => x.id = id) = some f)
include hf

theorem fabricAck_late (hl : FlitLate s f) : exec (.fabricAck id) s = .next s := by
  have hd : flitDue s f = false := by rw [← Bool.not_eq_true, flitDue_iff, not_not]; exact hl
  show execFabricAck id s = _
  unfold execFabricAck
  simp only [hf, hd, Bool.not_false, if_true]

/-- What an acknowledgement that nothing delays does. -/
theorem fabricAck_due (hl : ¬ FlitLate s f) : exec (.fabricAck id) s =
    match s.accs.find? fun a => a.id = id with
    | some a => .next (accAnswered (s.withoutFlit id) a)
    | none =>
      if f.eng.isNone && f.bytes.isEmpty then waitAnswered (s.withoutFlit id) f
      else
        let u := { s.withoutFlit id with mem := memPuts s.mem f.keys f.bytes }
        .next (settleFences (if f.eng.isSome then l1Shed u f.die f.core f.keys
          else (l1Patches u f.die f.core f.keys f.bytes).reqDone f.gid f.ctr f.parent)) := by
  have hd : flitDue s f = true := (flitDue_iff s f).2 hl
  show execFabricAck id s = _
  unfold execFabricAck
  simp only [hf, hd, Bool.not_true, Bool.false_eq_true, if_false]
  rfl

theorem fabricAck_store (hl : ¬ FlitLate s f) (ha : (s.accs.find? fun a => a.id = id) = none) (he : f.eng = none) (hb : f.bytes ≠ []) :
    exec (.fabricAck id) s = .next (settleFences
      ((l1Patches { s.withoutFlit id with mem := memPuts s.mem f.keys f.bytes } f.die f.core f.keys f.bytes).reqDone f.gid f.ctr f.parent)) := by
  rw [fabricAck_due hf hl, ha]
  simp [he, hb]

theorem fabricAck_engineStore (hl : ¬ FlitLate s f) (ha : (s.accs.find? fun a => a.id = id) = none) (he : f.eng ≠ none) :
    exec (.fabricAck id) s = .next (settleFences
      (l1Shed { s.withoutFlit id with mem := memPuts s.mem f.keys f.bytes } f.die f.core f.keys)) := by
  obtain ⟨a, he⟩ := Option.ne_none_iff_exists'.1 he
  rw [fabricAck_due hf hl, ha]
  simp [he]

theorem fabricAck_wait (hl : ¬ FlitLate s f) (ha : (s.accs.find? fun a => a.id = id) = none) (he : f.eng = none) (hb : f.bytes = []) :
    exec (.fabricAck id) s = waitAnswered (s.withoutFlit id) f := by
  rw [fabricAck_due hf hl, ha]
  simp [he, hb]

theorem fabricAck_access {a : Acc} (hl : ¬ FlitLate s f) (ha : (s.accs.find? fun a => a.id = id) = some a) :
    exec (.fabricAck id) s = .next (accAnswered (s.withoutFlit id) a) := by
  rw [fabricAck_due hf hl, ha]

end

theorem accAnswered_atomic {a : Acc} {op : BitVec 6} (h : a.op = .atomic op ∨ a.op = .ordered op) : accAnswered s a = atomDone s a op := by
  unfold accAnswered
  rcases h with h | h <;> rw [h]

/-- No word of the flit's slot waits for it: the answer is noted for an effect that may wait. -/
theorem waitAnswered_other (hr : ∀ g, s.group? f.gid = some g → ∀ r, (g.slotIn f.s1 f.trap).req = some r → r.id ≠ f.id) :
    waitAnswered s f = .next (s.modFlit f.id fun e => some { e with flit := some (f.id, true) }) := by
  unfold waitAnswered
  extract_lets mine u
  have hg : u.group? f.gid = s.group? f.gid := rfl
  rw [hg]
  cases hs : s.group? f.gid with
  | none => rfl
  | some g =>
    have hm : mine (g.slotIn f.s1 f.trap) = false := by
      dsimp only [mine]
      split
      · next r hq => exact decide_eq_false (hr g hs r hq)
      · rfl
    dsimp only
    rw [hm]
    rfl

/-- A change of a slot looks at that slot alone. -/
theorem modSlotIn_congr {g : Group} {s1 trap : Bool} {f h : Slot → Slot} (he : f (g.slotIn s1 trap) = h (g.slotIn s1 trap)) :
    g.modSlotIn s1 trap f = g.modSlotIn s1 trap h := by
  have hslot (hs : f (g.slot s1) = h (g.slot s1)) : g.modSlot s1 f = g.modSlot s1 h := by
    cases s1
    · exact congrArg (fun x => { g with s0 := x }) hs
    · exact congrArg (fun x => { g with s1 := x }) hs
  unfold Group.slotIn at he
  unfold Group.modSlotIn
  cases hfr : g.frame with
  | none =>
    rw [hfr] at he
    exact hslot he
  | some fr =>
    simp only [hfr] at he ⊢
    split
    · next ht =>
      rw [if_pos ht] at he
      exact hslot he
    · next ht =>
      rw [if_neg ht] at he
      cases s1
      · exact congrArg (fun x => { g with frame := some { fr with s0 := x } }) he
      · exact congrArg (fun x => { g with frame := some { fr with s1 := x } }) he

/-- A slot's word is answered: it goes on in the mode in which it was issued. -/
theorem waitAnswered_mine {g : Group} {r : MemReq} (hg : s.group? f.gid = some g) (hr : (g.slotIn f.s1 f.trap).req = some r) (hi : r.id = f.id) :
    let told := s.modFlit f.id fun e => some { e with flit := some (f.id, true) }
    let u := told.setGroup f.gid (g.modSlotIn f.s1 f.trap fun sl => { sl with req := some { r with acked := true } })
    waitAnswered s f = if f.trap = g.trapMode then resumeWait u f.gid f.s1 else .next u := by
  intro told u
  have hput : (g.modSlotIn f.s1 f.trap fun sl => { sl with req := sl.req.map fun (r : MemReq) => { r with acked := true } }) =
      g.modSlotIn f.s1 f.trap fun sl => { sl with req := some { r with acked := true } } := by
    refine modSlotIn_congr ?_
    rw [hr]
    rfl
  unfold waitAnswered
  extract_lets mine
  have hv : (s.modFlit f.id fun e => some { e with flit := some (f.id, true) }).group? f.gid = some g := hg
  have hm : mine (g.slotIn f.s1 f.trap) = true := by
    dsimp only [mine]
    rw [hr]
    exact decide_eq_true hi
  rw [hv]
  simp only [hm, hput, Bool.not_true, Bool.false_eq_true, if_false]
  rfl

theorem waitFailed_mine {g : Group} {r : MemReq} (hg : s.group? f.gid = some g) (hr : (g.slotIn f.s1 f.trap).req = some r) (hi : r.id = f.id) :
    waitFailed s f = failWait (s.modFlit f.id fun _ => none) f.gid f.s1 f.trap r := by
  unfold waitFailed
  extract_lets u
  have hu : u.group? f.gid = some g := hg
  rw [hu, Option.bind_some, hr]
  exact if_pos hi

/-- The fault of an access that every attempt has failed (R109, log entry 54). -/
def failedFault (s : State) (f : Flit) (handle : Word32) : EngineFault :=
  { gid := f.gid, s1 := f.s1, detail := 0x41#8, addr := f.va, handle := handle, ctr := f.ctr, cont := false, trap := f.trap,
    die := f.die, core := f.core, tenant := f.tenant, place := match s.group? f.gid with | some g => placeByte g false f.s1 | none => 0#8 }

/-- The flit is given up, and its group is told. -/
def State.flitFailed (s : State) (id : Nat) (f : Flit) (handle : Word32) : State :=
  { s.withoutFlit id with fresh := s.fresh + 1, efaults := s.efaults ++ [failedFault s f handle] }

section
variable (hf : (s.flits.find? fun x => x.id = id) = some f)
include hf

theorem fabricRetransmit_again (h : f.retries < 8) : exec (.fabricRetransmit id) s =
    .next { s with flits := s.flits.map fun x => if x.id = id then { x with retries := x.retries + 1 } else x } := by
  rw [exec_fabricRetransmit]
  unfold execFabricRetransmit
  rw [hf]
  exact if_pos h

theorem fabricRetransmit_engine {agent : Nat} (h : 8 ≤ f.retries) (he : f.eng = some agent) :
    exec (.fabricRetransmit id) s = .next (settleFences (agentFault (s.withoutFlit id) agent f.va)) := by
  rw [exec_fabricRetransmit]
  unfold execFabricRetransmit
  rw [hf]
  dsimp only
  rw [if_neg (Nat.not_lt.2 h), he]
  rfl

theorem fabricRetransmit_group (h : 8 ≤ f.retries) (he : f.eng = none) : exec (.fabricRetransmit id) s =
    let u := s.flitFailed id f ((Config.freeValue s.fresh).setWidth 32)
    match s.accs.find? fun a => a.id = id with
    | some a => .next (accDone { u with fresh := s.fresh + 2 } a (Config.freeValue (s.fresh + 1)))
    | none => .next (settleFences ((if f.bytes.isEmpty then waitFailed u f else u).reqDone f.gid f.ctr f.parent)) := by
  rw [exec_fabricRetransmit]
  unfold execFabricRetransmit
  rw [hf]
  dsimp only
  rw [if_neg (Nat.not_lt.2 h), he]
  rfl

theorem fabricRetransmit_word (h : 8 ≤ f.retries) (he : f.eng = none) (ha : (s.accs.find? fun a => a.id = id) = none) :
    ∃ handle, exec (.fabricRetransmit id) s = .next (settleFences (State.reqDone
      (if f.bytes = [] then waitFailed (s.flitFailed id f handle) f else s.flitFailed id f handle) f.gid f.ctr f.parent)) := by
  refine ⟨(Config.freeValue s.fresh).setWidth 32, ?_⟩
  rw [fabricRetransmit_group hf h he, ha]
  simp only [List.isEmpty_iff]

theorem fabricRetransmit_access {a : Acc} (h : 8 ≤ f.retries) (he : f.eng = none) (ha : (s.accs.find? fun a => a.id = id) = some a) :
    ∃ handle v, exec (.fabricRetransmit id) s = .next (accDone { s.flitFailed id f handle with fresh := s.fresh + 2 } a v) := by
  refine ⟨(Config.freeValue s.fresh).setWidth 32, Config.freeValue (s.fresh + 1), ?_⟩
  rw [fabricRetransmit_group hf h he, ha]

end

/-! #### The fault of an engine's access (R109, R299) -/

section
variable {agent : Nat} {va : Addr}

theorem agentFault_prog {p : Prog} (h : s.prog? agent = some p) : agentFault s agent va = progFault s agent 0x41#8 va := by
  unfold agentFault
  rw [h]
  rfl

theorem agentFault_copy {c : CopyOp} (hp : s.prog? agent = none) (h : (s.copies.find? fun x => x.id = agent) = some c) :
    agentFault s agent va = copyFault s c 0x41#8 va := by
  unfold agentFault
  rw [hp, h]
  rfl

theorem agentFault_run {c : Nat × StepCtx} (hp : s.prog? agent = none) (hc : ∀ x ∈ s.copies, x.id ≠ agent)
    (h : (s.ctxs.find? fun x => x.2.agent = agent) = some c) : agentFault s agent va = stopRun s c.1 0x09#8 0xFF#8 := by
  have hn : (s.copies.find? fun x => x.id = agent) = none := by simpa using hc
  unfold agentFault
  rw [hp, hn, h]

end
end

/-! #### Other modules' accesses (R109) -/

/-- The bytes that an access of another module names. -/
def remoteLen : RemoteAccess → Nat
  | .read len => len
  | .write bs => bs.length
  | .atomic _ w _ _ => elemSize w

/-- An access of another module lies within the exported window, at homes of this module's memory. -/
def RemoteInside (s : State) (addr n : Nat) : Prop := addr + n ≤ s.expSize ∧ ∀ x ∈ upFrom (s.expBase + addr) n, ownMemory s x = true

section
variable {s : State} {addr n : Nat}

theorem remoteRefused_iff : (decide (s.expSize < addr + n) || !(upFrom (s.expBase + addr) n).all (ownMemory s)) = true ↔
    ¬ RemoteInside s addr n := by
  unfold RemoteInside
  rw [Bool.or_eq_true, decide_eq_true_eq, Bool.not_eq_true', ← Bool.not_eq_true, List.all_eq_true, not_and_or, Nat.not_le]

theorem fabricRemoteAccess_outside {a : RemoteAccess} (h : ¬ RemoteInside s addr (remoteLen a)) :
    exec (.fabricRemoteAccess a addr) s = .next s := if_pos (remoteRefused_iff.2 h)

/-- The keys of an access of another module. -/
def remoteKeys (s : State) (addr n : Nat) : List Nat := (upFrom (s.expBase + addr) n).map (keyOfPhys s)

theorem fabricRemoteAccess_read (h : RemoteInside s addr n) :
    let leased := (remoteKeys s addr n).foldl (fun s k => leaseFetch s outsideDie 0 0#2 k) s
    exec (.fabricRemoteAccess (.read n) addr) s =
      .next { leased with remoteData := leased.remoteData ++ [(remoteKeys s addr n).map (homeByteFrom s outsideDie)] } :=
  if_neg (remoteRefused_iff.not.2 (not_not.2 h))

theorem fabricRemoteAccess_write {bs : List Byte} (h : RemoteInside s addr bs.length) : exec (.fabricRemoteAccess (.write bs) addr) s =
    .next (remoteStored (storeHome { s with seqNo := s.seqNo + 1 } s.seqNo 0 (remoteKeys s addr bs.length) bs) s.seqNo) :=
  if_neg (remoteRefused_iff.not.2 (not_not.2 h))

theorem fabricRemoteAccess_atomic {op : BitVec 6} {w : BitVec 3} {b b2 : BitVec 64} (h : RemoteInside s addr (elemSize w)) :
    let r := applyAtom { s with seqNo := s.seqNo + 1 } { Writer.device s.seqNo 0 with die := outsideDie } op w
      (remoteKeys s addr (elemSize w)) b b2
    exec (.fabricRemoteAccess (.atomic op w b b2) addr) s =
      .next (remoteStored { r.2 with remoteData := r.2.remoteData ++ [toBytes r.1 (elemSize w)] } s.seqNo) :=
  if_neg (remoteRefused_iff.not.2 (not_not.2 h))

end

end Sys2Proof.Machine
end

section
namespace Sys2Proof.Machine

/-! ### The mailbox (R326) -/

section
variable {m : Mailbox} {s : State} {off n : Nat} {bs : List Byte}

theorem mboxAligned_iff : mboxAligned off n = true ↔ (n = 4 ∨ n = 8) ∧ off % n = 0 := by simp [mboxAligned]

/-! #### The message area -/

theorem tget_tdel_ne {α : Type} (t : Tab α) {k o : Nat} (h : o ≠ k) : tget (tdel t k) o = tget t o := by
  induction t with
  | nil => rfl
  | cons p r ih =>
    obtain ⟨x, v⟩ := p
    unfold tdel at ih ⊢
    by_cases hx : x = k
    · have hxo : ¬ x = o := fun e => h (e.symm.trans hx)
      rw [List.filter_cons_of_neg (by simp [hx]), ih]
      exact (if_neg hxo).symm
    · rw [List.filter_cons_of_pos (by simp [hx])]
      unfold tget
      rw [ih]

/-- A byte written into the area, where only bytes other than 0 are listed. -/
theorem getD_putArea (t : Tab Byte) (k o : Nat) (v : Byte) :
    (tget (putArea t (k, v)) o).getD 0#8 = if o = k then v else (tget t o).getD 0#8 := by
  unfold putArea
  by_cases ho : o = k
  · subst ho
    by_cases hv : v = 0#8
    · simp [hv, tget_tdel_self]
    · simp [hv]
  · rw [if_neg ho]
    split
    · rw [tget_tdel_ne t ho]
    · rw [tget_tset_ne t k o v ho]

/-- Bytes written into the area from an offset on. -/
theorem getD_foldl_putArea (bs : List Byte) (off j : Nat) (t : Tab Byte) (o : Nat) :
    (tget ((bs.zipIdx j).foldl (fun t b => putArea t (off + b.2, b.1)) t) o).getD 0#8 =
      if off + j ≤ o ∧ o < off + j + bs.length then bs.getD (o - (off + j)) 0#8 else (tget t o).getD 0#8 := by
  induction bs generalizing j t with
  | nil =>
    rw [if_neg (by simp)]
    rfl
  | cons b r ih =>
    rw [List.zipIdx_cons, List.foldl_cons, ih, getD_putArea, List.length_cons]
    by_cases ho : o = off + j
    · rw [if_neg (by omega), if_pos ho, if_pos (by omega), ho, Nat.sub_self]
      rfl
    · by_cases hr : off + (j + 1) ≤ o ∧ o < off + (j + 1) + r.length
      · rw [if_pos hr, if_pos (by omega), show o - (off + j) = o - (off + (j + 1)) + 1 by omega, List.getD_cons_succ]
      · rw [if_neg hr, if_neg ho, if_neg (by omega)]

theorem getD_foldl_putArea_map (bs : List Byte) (off : Nat) (t : Tab Byte) (o : Nat) :
    (tget ((bs.zipIdx.map fun (b : Byte × Nat) => (off + b.2, b.1)).foldl putArea t) o).getD 0#8 =
      if off ≤ o ∧ o < off + bs.length then bs.getD (o - off) 0#8 else (tget t o).getD 0#8 := by
  rw [List.foldl_map]
  exact getD_foldl_putArea bs off 0 t o

theorem mboxArea_put (m : Mailbox) (h : off + bs.length ≤ 0x8000) (o : Nat) :
    mboxArea (m.put off bs) o = if off ≤ o ∧ o < off + bs.length then bs.getD (o - off) 0#8 else mboxArea m o := by
  unfold Mailbox.put
  rw [List.take_of_length_le (by omega)]
  exact getD_foldl_putArea bs off 0 m.area o

/-! #### Host writes -/

theorem mboxWrite_unaligned (h : ¬ ((bs.length = 4 ∨ bs.length = 8) ∧ off % bs.length = 0)) : mboxWrite s off bs = s := by
  have ha : mboxAligned off bs.length = false := by rwa [← Bool.not_eq_true, mboxAligned_iff]
  unfold mboxWrite
  rw [ha]
  rfl

theorem mboxWrite_aligned (h : (bs.length = 4 ∨ bs.length = 8) ∧ off % bs.length = 0) : mboxWrite s off bs =
    if 0x1000 ≤ off ∧ off < 0x9000 then { s with mbox := { s.mbox with
      area := ((bs.zipIdx).map fun (b : Byte × Nat) => (off - 0x1000 + b.2, b.1)).foldl putArea s.mbox.area } }
    else mboxPut s (off / 8 * 8) (ofBytes (List.replicate (off % 8) 0#8 ++ bs) 64)
      (if bs.length = 8 then 0#64 else if off % 8 = 0 then 0xFFFFFFFF00000000#64 else 0xFFFFFFFF#64) := by
  unfold mboxWrite
  simp only [mboxAligned_iff.2 h, Bool.not_true, Bool.false_eq_true, if_false]

theorem mboxWrite_area (h : (bs.length = 4 ∨ bs.length = 8) ∧ off % bs.length = 0) (hlo : 0x1000 ≤ off) (hhi : off < 0x9000) :
    ∃ t, mboxWrite s off bs = t ∧ t = { s with mbox := { s.mbox with area := t.mbox.area } } ∧
      ∀ o, mboxArea t.mbox o =
        if off - 0x1000 ≤ o ∧ o < off - 0x1000 + bs.length then bs.getD (o - (off - 0x1000)) 0#8 else mboxArea s.mbox o := by
  refine ⟨_, (mboxWrite_aligned h).trans (if_pos ⟨hlo, hhi⟩), rfl, fun o => ?_⟩
  exact getD_foldl_putArea_map bs (off - 0x1000) s.mbox.area o

/-- A write below or past the message area is one of a register. -/
theorem mboxWrite_reg (h : (bs.length = 4 ∨ bs.length = 8) ∧ off % bs.length = 0) (ho : off < 0x1000 ∨ 0x9000 ≤ off) :
    mboxWrite s off bs = mboxPut s (off / 8 * 8) (ofBytes (List.replicate (off % 8) 0#8 ++ bs) 64)
      (if bs.length = 8 then 0#64 else if off % 8 = 0 then 0xFFFFFFFF00000000#64 else 0xFFFFFFFF#64) :=
  (mboxWrite_aligned h).trans (if_neg (by omega))

theorem mboxPut_other {v keep : Word64} (h : off ∉ [0x8, 0x10, 0x18, 0x20, 0x28, 0x30, 0x80, 0x88]) : mboxPut s off v keep = s := by
  unfold mboxPut
  extract_lets m x put
  split
  case h_9 => rfl
  all_goals exact absurd h (by decide)

/-- The number that a value's bytes hold. -/
theorem natOfBytes_toBytes {w : Nat} (x : BitVec w) (n : Nat) : natOfBytes (toBytes x n) = x.toNat % 256 ^ n := by
  induction n generalizing x with
  | zero => simp [toBytes, natOfBytes, Nat.mod_one]
  | succ n ih =>
    have hc : toBytes x (n + 1) = x.extractLsb' 0 8 :: toBytes (x >>> 8) n := by
      unfold toBytes
      rw [List.range_succ_eq_map, List.map_cons, List.map_map]
      refine congrArg _ (List.map_congr_left fun i _ => ?_)
      have hb := byte_shift x 1 i
      rw [Nat.add_comm 1 i] at hb
      exact hb.symm
    rw [hc]
    unfold natOfBytes
    rw [ih, BitVec.extractLsb'_toNat, BitVec.toNat_ushiftRight, Nat.shiftRight_zero, Nat.shiftRight_eq_div_pow,
      show 256 ^ (n + 1) = 2 ^ (8 * 1) * 256 ^ n from Nat.pow_succ', Nat.mod_mul]
    rfl

theorem ofBytes_toBytes (v : Word64) : ofBytes (toBytes v 8) 64 = v := by
  have hv := v.isLt
  unfold ofBytes
  rw [natOfBytes_toBytes, Nat.mod_eq_of_lt (by simpa using hv), BitVec.ofNat_toNat, BitVec.setWidth_eq]

/-- A whole register is written. -/
theorem mboxWrite_word (v : Word64) (h : off < 0x1000) (h0 : off % 8 = 0) : mboxWrite s off (toBytes v 8) = mboxPut s off v 0#64 := by
  have hl : (toBytes v 8).length = 8 := toBytes_length v 8
  rw [mboxWrite_reg ⟨.inr hl, by rw [hl]; exact h0⟩ (.inl h), h0, hl, List.replicate_zero, List.nil_append, ofBytes_toBytes, if_pos rfl,
    Nat.div_mul_cancel (Nat.dvd_of_mod_eq_zero h0)]

theorem not_keep_none (v : Word64) : v &&& ~~~0#64 = v := BitVec.and_allOnes

/-- With no bit left alone a register holds what is written. -/
theorem keep_none (x v : Word64) : x &&& 0#64 ||| v &&& ~~~0#64 = v := by rw [not_keep_none, BitVec.and_zero, BitVec.zero_or]

theorem mboxPut_winBase (v : Word64) : mboxPut s 0x8 v 0#64 = { s with mbox := { s.mbox with winBase := v.extractLsb' 36 20 } } :=
  congrArg (fun x : Word64 => { s with mbox := { s.mbox with winBase := x.extractLsb' 36 20 } }) (keep_none _ v)

/-- A write of the command register: go is a bit that is set and never cleared here, and clears done. -/
theorem mboxPut_command (v keep : Word64) (code : BitVec 16) (hk : keep.extractLsb' 0 16 = 0#16) (hv : v.extractLsb' 0 16 = code)
    (h31 : keep.getLsbD 31 = false) : mboxPut s 0x10 v keep = { s with
      mbox := if v.getLsbD 31 then { s.mbox with command := code, go := true, done := false } else { s.mbox with command := code } } := by
  have hcode : (mboxReg s.mbox 0x10 &&& keep ||| v &&& ~~~keep).extractLsb' 0 16 = code := by
    have hn : (~~~keep).extractLsb' 0 16 = BitVec.allOnes 16 := by
      rw [BitVec.extractLsb'_not_of_lt (by decide), hk]
      rfl
    rw [BitVec.extractLsb'_or, BitVec.extractLsb'_and, BitVec.extractLsb'_and, hk, hn, hv, BitVec.and_zero, BitVec.zero_or,
      BitVec.and_allOnes]
  have hgo : (v &&& ~~~keep).getLsbD 31 = v.getLsbD 31 := by
    rw [BitVec.getLsbD_and, BitVec.getLsbD_not, h31, Bool.not_false, Bool.and_true, decide_eq_true (by decide : 31 < 64), Bool.and_true]
  rw [← hcode, ← hgo]
  rfl

theorem mboxPut_arg (v : Word64) (k : Fin 4) : mboxPut s (0x18 + 8 * k.val) v 0#64 = { s with mbox := { s.mbox with args := s.mbox.args.set k v } } := by
  have h : mboxPut s (0x18 + 8 * k.val) v 0#64 =
      { s with mbox := { s.mbox with args := s.mbox.args.set k (mboxReg s.mbox (0x18 + 8 * k.val) &&& 0#64 ||| v &&& ~~~0#64) } } := by
    fin_cases k <;> rfl
  rw [h, keep_none]

theorem mboxPut_cause (v : Word64) : mboxPut s 0x80 v 0#64 = { s with mbox := { s.mbox with cause := s.mbox.cause &&& ~~~v } } :=
  congrArg (fun x : Word64 => { s with mbox := { s.mbox with cause := s.mbox.cause &&& ~~~x } }) (not_keep_none v)

theorem mboxPut_mask (v : Word64) : mboxPut s 0x88 v 0#64 = { s with mbox := s.mbox.setMask v } :=
  congrArg (fun x : Word64 => { s with mbox := s.mbox.setMask x }) (keep_none _ v)

theorem mboxSubmit_eq (code : BitVec 16) : mboxSubmit s code = { s with mbox := { s.mbox with command := code, go := true, done := false } } := by
  have hc : (0x80000000#64 ||| code.setWidth 64).extractLsb' 0 16 = code := by
    rw [BitVec.extractLsb'_or]
    simp [BitVec.extractLsb'_setWidth_of_le]
  unfold mboxSubmit
  rw [mboxPut_command _ _ code (by decide) hc (by decide), if_pos (by simp)]

/-! #### Host reads -/

theorem mboxRead_unaligned (h : ¬ ((n = 4 ∨ n = 8) ∧ off % n = 0)) : mboxRead m off n = List.replicate n 0#8 := by
  have ha : mboxAligned off n = false := by rwa [← Bool.not_eq_true, mboxAligned_iff]
  unfold mboxRead
  rw [ha]
  rfl

theorem mboxRead_area (hn : n = 4 ∨ n = 8) (h0 : off % n = 0) (hlo : 0x1000 ≤ off) (hhi : off < 0x9000) :
    mboxRead m off n = (List.range n).map fun k => mboxArea m (off - 0x1000 + k) := by
  unfold mboxRead
  rw [mboxAligned_iff.2 ⟨hn, h0⟩]
  simp only [Bool.not_true, Bool.false_eq_true, if_false, hlo, hhi, and_self, if_true, upFrom, List.map_map]
  rfl

theorem mboxRead_reg (hn : n = 4 ∨ n = 8) (h0 : off % n = 0) (ho : off < 0x1000 ∨ 0x9000 ≤ off) :
    mboxRead m off n = ((toBytes (mboxReg m (off / 8 * 8)) 8).drop (off % 8)).take n := by
  unfold mboxRead
  rw [mboxAligned_iff.2 ⟨hn, h0⟩, if_neg (by decide), if_neg (by omega)]

theorem mboxRead_word (h : off < 0x1000) (h0 : off % 8 = 0) : mboxRead m off 8 = toBytes (mboxReg m off) 8 := by
  rw [mboxRead_reg (.inr rfl) h0 (.inl h), h0, Nat.div_mul_cancel (Nat.dvd_of_mod_eq_zero h0), List.drop_zero,
    List.take_of_length_le (toBytes_length _ 8).le]

theorem mboxReg_other (h : off ∉ [0x0, 0x8, 0x10, 0x18, 0x20, 0x28, 0x30, 0x40, 0x80, 0x88]) : mboxReg m off = 0#64 := by
  unfold mboxReg
  split
  case h_11 => rfl
  all_goals exact absurd h (by decide)

theorem mboxRead_other (hn : n = 4 ∨ n = 8) (h0 : off % n = 0) (ho : off < 0x1000 ∨ 0x9000 ≤ off)
    (h : off / 8 * 8 ∉ [0x0, 0x8, 0x10, 0x18, 0x20, 0x28, 0x30, 0x40, 0x80, 0x88]) : mboxRead m off n = List.replicate n 0#8 := by
  have hz : toBytes 0#64 8 = List.replicate 8 0#8 := by decide
  have hd : off % 8 + n ≤ 8 := by rcases hn with rfl | rfl <;> omega
  rw [mboxRead_reg hn h0 ho, mboxReg_other h, hz, List.drop_replicate, List.take_replicate, Nat.min_eq_left (by omega)]

theorem mboxRead_version : mboxRead m 0x0 4 = [0#8, 0#8, 1#8, 0#8] := by
  have hr : mboxReg m (0x0 / 8 * 8) = 0x10000#64 := rfl
  rw [mboxRead_reg (.inl rfl) rfl (.inl (by decide)), hr]
  decide

theorem mboxReg_arg (k : Fin 4) : mboxReg m (0x18 + 8 * k.val) = m.args[k] := by
  fin_cases k <;> rfl

/-- A field of 16 bits below what stands above it. -/
theorem or_setWidth_eq_append {x : Word64} {k : BitVec 48} (c : BitVec 16) (h : x = k ++ 0#16) : x ||| c.setWidth 64 = k ++ c := by
  have hx : x.toNat = k.toNat <<< 16 ||| 0 := by
    rw [h]
    exact BitVec.toNat_append k 0#16
  have hc := c.isLt
  have ha : (k ++ c).toNat = k.toNat <<< 16 ||| c.toNat := BitVec.toNat_append k c
  apply BitVec.eq_of_toNat_eq
  rw [BitVec.toNat_or, hx, Nat.or_zero, BitVec.toNat_setWidth, Nat.mod_eq_of_lt (by omega)]
  exact ha.symm

theorem mboxReg_winBase : mboxReg m 0x8 = 0#8 ++ m.winBase ++ 0#36 := by
  have ha : (0#8 ++ m.winBase ++ 0#36).toNat = (0 <<< 20 ||| m.winBase.toNat) <<< 36 ||| 0 := by
    rw [BitVec.toNat_append, BitVec.toNat_append]
    rfl
  have hw := m.winBase.isLt
  have hl : (m.winBase.setWidth 64 <<< 36 : Word64).toNat = m.winBase.toNat <<< 36 := by
    rw [BitVec.toNat_shiftLeft, BitVec.toNat_setWidth, Nat.mod_eq_of_lt (a := m.winBase.toNat) (by omega), Nat.shiftLeft_eq]
    omega
  apply BitVec.eq_of_toNat_eq
  refine hl.trans (Eq.trans ?_ ha.symm)
  rw [Nat.zero_shiftLeft, Nat.zero_or, Nat.or_zero]

theorem mboxReg_command : mboxReg m 0x10 = 0#32 ++ (if m.go then 1#1 else 0#1) ++ 0#15 ++ m.command :=
  or_setWidth_eq_append m.command (by cases m.go <;> rfl)

theorem mboxReg_status : mboxReg m 0x40 = 0#32 ++ (if m.done then 1#1 else 0#1) ++ (if m.error then 1#1 else 0#1) ++ 0#14 ++ m.result :=
  or_setWidth_eq_append m.result (by cases m.done <;> cases m.error <;> rfl)

end

end Sys2Proof.Machine
end

section
namespace Sys2Proof.Machine

/-! #### Signals, reports and the firmware -/

section
variable {m : Mailbox} {s : State}

theorem signal_cause (m : Mailbox) (v : Word64) : (m.signal v).cause = m.cause ||| v := rfl

theorem mem_vectors (a b : Word64) (x : Nat) :
    (x ∈ (List.range 64).filter fun i => (a &&& ~~~b).getLsbD i) ↔ x < 64 ∧ a.getLsbD x = true ∧ b.getLsbD x = false := by
  rw [List.mem_filter, List.mem_range]
  refine and_congr_right fun hx => ?_
  rw [BitVec.getLsbD_and, BitVec.getLsbD_not, decide_eq_true hx, Bool.true_and, Bool.and_eq_true, Bool.not_eq_true']

theorem mem_signal (m : Mailbox) (v : Word64) (x : Nat) : x ∈ (m.signal v).vectors ↔
    x ∈ m.vectors ∨ (x < 64 ∧ v.getLsbD x = true ∧ m.mask.getLsbD x = false) :=
  List.mem_append.trans (or_congr_right (mem_vectors v m.mask x))

theorem mem_setMask (m : Mailbox) (v : Word64) (x : Nat) : x ∈ (m.setMask v).vectors ↔
    x ∈ m.vectors ∨ (x < 64 ∧ m.heldBack.getLsbD x = true ∧ m.cause.getLsbD x = true ∧ v.getLsbD x = false) := by
  refine List.mem_append.trans (or_congr_right ((mem_vectors _ v x).trans ?_))
  rw [BitVec.getLsbD_and, Bool.and_eq_true, and_assoc]

theorem toBytes_getD {w : Nat} (x : BitVec w) {n i : Nat} (h : i < n) : (toBytes x n).getD i 0#8 = x.extractLsb' (8 * i) 8 := by
  simp [toBytes, h]

/-- Byte `i` of value `k` of a row of values. -/
theorem flatMap_toBytes_getD (xs : List (BitVec 512)) (k : Nat) (hk : k < xs.length) {i : Nat} (h : i < 64) :
    (xs.flatMap fun x => toBytes x 64).getD (64 * k + i) 0#8 = xs[k].extractLsb' (8 * i) 8 := by
  induction xs generalizing k with
  | nil => exact absurd hk (Nat.not_lt_zero k)
  | cons x r ih =>
    have hl : (toBytes x 64).length = 64 := toBytes_length x 64
    rw [List.flatMap_cons]
    cases k with
    | zero => rw [Nat.mul_zero, Nat.zero_add, List.getD_append _ _ _ _ (by omega), toBytes_getD x h, List.getElem_cons_zero]
    | succ k =>
      rw [List.getD_append_right _ _ _ _ (by omega), hl, show 64 * (k + 1) + i - 64 = 64 * k + i by omega, List.getElem_cons_succ]
      exact ih k (Nat.lt_of_succ_lt_succ hk)

/-- The measurements' bytes in an attestation report (R329). -/
def measuredBytes (measured : Vector (BitVec 512) 4) : List Byte := measured.toList.flatMap fun x => toBytes x 64

theorem measuredBytes_length (measured : Vector (BitVec 512) 4) : (measuredBytes measured).length = 256 := by
  simp [measuredBytes, List.length_flatMap, toBytes_length]

theorem measuredBytes_getD (measured : Vector (BitVec 512) 4) (k : Fin 4) {i : Nat} (h : i < 64) :
    (measuredBytes measured).getD (64 * k.val + i) 0#8 = measured[k].extractLsb' (8 * i) 8 :=
  flatMap_toBytes_getD measured.toList k.val (by simp) h

/-- Where a report holds the measurements (log entry 53). -/
def reportPlace (n : Nat) : Nat := (Config.freeValue n).toNat % (0x8000 - 256 + 1)

theorem mboxFill_attest (m : Mailbox) (measured : Vector (BitVec 512) 4) (n : Nat) (h : m.command = 1#16) :
    mboxFill m measured n = (m.put 0 (Config.freeBytes n)).put (reportPlace n) (measuredBytes measured) := by
  unfold mboxFill reportPlace
  rw [if_pos h, ← measuredBytes_length measured]
  rfl

theorem mboxFill_other (m : Mailbox) (measured : Vector (BitVec 512) 4) (n : Nat) (h1 : m.command ≠ 1#16) (h2 : m.command ≠ 2#16) :
    mboxFill m measured n = m := by
  unfold mboxFill
  rw [if_neg h1, if_neg h2]

/-- A report changes the message area alone. -/
theorem mboxFill_eq (m : Mailbox) (measured : Vector (BitVec 512) 4) (n : Nat) :
    mboxFill m measured n = { m with area := (mboxFill m measured n).area } := by
  unfold mboxFill
  dsimp only
  split
  · rfl
  · split <;> rfl

/-- An attestation report holds the measurements. -/
theorem mboxFill_measured (m : Mailbox) (measured : Vector (BitVec 512) 4) (n : Nat) (h : m.command = 1#16) :
    ∃ p, p + 256 ≤ 0x8000 ∧ ∀ (k : Fin 4) (i : Nat), i < 64 →
      mboxArea (mboxFill m measured n) (p + 64 * k.val + i) = measured[k].extractLsb' (8 * i) 8 := by
  have hp : reportPlace n < 0x8000 - 256 + 1 := Nat.mod_lt _ (by decide)
  refine ⟨reportPlace n, by omega, fun k i hi => ?_⟩
  have hk := k.isLt
  rw [mboxFill_attest m measured n h, mboxArea_put _ (by rw [measuredBytes_length]; omega), measuredBytes_length, if_pos (by omega),
    show reportPlace n + 64 * k.val + i - reportPlace n = 64 * k.val + i by omega]
  exact measuredBytes_getD measured k hi

theorem mboxDone_takes (result : BitVec 16) (error : Bool) (vectors : Word64) (h : s.mbox.taken = false) :
    exec (.mboxDone result error vectors []) s =
      .next { s with mbox := { s.mbox.signal (vectors &&& ~~~1#64) with go := false, taken := s.mbox.go } } := by
  have ht : (s.mbox.signal (vectors &&& ~~~1#64)).taken ≠ true := by
    show s.mbox.taken ≠ true
    rw [h]
    decide
  exact if_neg ht

theorem mboxDone_ends (result : BitVec 16) (error : Bool) (vectors : Word64) (h : s.mbox.taken = true) :
    let m := s.mbox
    let bad := 3 ≤ m.command.toNat ∧ m.command.toNat < 0x100
    let ended := { mboxFill (m.signal (vectors &&& ~~~1#64)) s.measured s.fresh with
      taken := false, done := !m.go, error := decide bad || error, result := if bad then 0xFFFF#16 else result }
    exec (.mboxDone result error vectors []) s = .next { s with mbox := ended.signal 1#64, fresh := s.fresh + 1 } := by
  intro m bad ended
  have ht : (m.signal (vectors &&& ~~~1#64)).taken = true := h
  have he : ended = { mboxFill (m.signal (vectors &&& ~~~1#64)) s.measured s.fresh with
      taken := false, done := !m.go, error := decide bad || error, result := if decide bad = true then 0xFFFF#16 else result } := by
    simp only [ended, decide_eq_true_eq]
  rw [he]
  exact if_pos ht

end

/-! ### Each completes in every state -/

section
variable {s : State} {gid : Nat} {s1 : Bool}

theorem execRingWaitResume_next : ∃ t, execRingWaitResume gid s1 s = .next t := by
  unfold execRingWaitResume
  split
  · exact ⟨_, rfl⟩
  · dsimp only
    repeat' split
    all_goals exact ⟨_, rfl⟩

theorem execFutWaitWake_next : ∃ t, execFutWaitWake gid s1 s = .next t := by
  unfold execFutWaitWake
  split
  · exact ⟨_, rfl⟩
  · dsimp only
    repeat' split
    all_goals exact ⟨_, rfl⟩

theorem execPendingRetry_next : ∃ t, execPendingRetry gid s1 s = .next t := by
  unfold execPendingRetry
  split
  · exact ⟨_, rfl⟩
  · dsimp only
    repeat' split
    all_goals exact ⟨_, rfl⟩

/-- A word that another module answers goes on: none of its three ways ends in a stop. -/
theorem resumeWait_next : ∃ t, resumeWait s gid s1 = .next t := by
  unfold resumeWait
  split
  · exact ⟨_, rfl⟩
  · next g _ =>
    cases (g.slot s1).wait with
    | ringPush _ | ringPop _ => exact execRingWaitResume_next
    | futWait => exact execFutWaitWake_next
    | pending => exact execPendingRetry_next
    | _ => exact ⟨_, rfl⟩

theorem waitAnswered_next (f : Flit) : ∃ t, waitAnswered s f = .next t := by
  unfold waitAnswered
  dsimp only
  split
  · exact ⟨_, rfl⟩
  · split
    · exact ⟨_, rfl⟩
    · split
      · exact resumeWait_next
      · exact ⟨_, rfl⟩

theorem fabricAck_next (s : State) (id : Nat) : ∃ t, exec (.fabricAck id) s = .next t := by
  cases hf : s.flits.find? fun x => x.id = id with
  | none => exact ⟨s, fabricAck_absent (by simpa using hf)⟩
  | some f =>
    by_cases hl : FlitLate s f
    · exact ⟨s, fabricAck_late hf hl⟩
    · rw [fabricAck_due hf hl]
      split
      · exact ⟨_, rfl⟩
      · split
        · exact waitAnswered_next f
        · exact ⟨_, rfl⟩

theorem fabricRetransmit_next (s : State) (id : Nat) : ∃ t, exec (.fabricRetransmit id) s = .next t := by
  cases hf : s.flits.find? fun x => x.id = id with
  | none => exact ⟨s, fabricRetransmit_absent (by simpa using hf)⟩
  | some f =>
    by_cases hr : f.retries < 8
    · exact ⟨_, fabricRetransmit_again hf hr⟩
    · cases he : f.eng with
      | some agent => exact ⟨_, fabricRetransmit_engine hf (Nat.not_lt.1 hr) he⟩
      | none =>
        rw [fabricRetransmit_group hf (Nat.not_lt.1 hr) he]
        dsimp only
        split
        all_goals exact ⟨_, rfl⟩

theorem hostPostedWrite_next (s : State) (mbox : Bool) (off : Nat) (bs : List Byte) : ∃ t, exec (.hostPostedWrite mbox off bs) s = .next t := by
  cases mbox with
  | true => exact ⟨_, rfl⟩
  | false =>
    rcases Nat.lt_or_ge (2 ^ 36) (off + bs.length) with h | h
    · exact ⟨_, hostPostedWrite_outside h⟩
    · exact ⟨_, hostPostedWrite_inside h⟩

theorem hostRead_next (s : State) (mbox : Bool) (off n : Nat) : ∃ t, exec (.hostRead mbox off n) s = .next t := by
  cases mbox with
  | true => exact ⟨_, rfl⟩
  | false =>
    rcases Nat.lt_or_ge (2 ^ 36) (off + n) with h | h
    · exact ⟨_, hostRead_outside h⟩
    · exact ⟨_, hostRead_inside h⟩

theorem fabricRemoteAccess_next (s : State) (a : RemoteAccess) (addr : Nat) : ∃ t, exec (.fabricRemoteAccess a addr) s = .next t := by
  by_cases h : RemoteInside s addr (remoteLen a)
  · cases a with
    | read n => exact ⟨_, fabricRemoteAccess_read h⟩
    | write bs => exact ⟨_, fabricRemoteAccess_write h⟩
    | atomic op w b b2 => exact ⟨_, fabricRemoteAccess_atomic h⟩
  · exact ⟨s, fabricRemoteAccess_outside h⟩

theorem mboxDone_next (s : State) (result : BitVec 16) (error : Bool) (vectors : Word64) (put : List (Nat × Byte)) :
    ∃ t, exec (.mboxDone result error vectors put) s = .next t := by
  rw [exec_mboxDone]
  unfold execMboxDone
  dsimp only
  split
  all_goals exact ⟨_, rfl⟩

/-- The device's steps of this section. -/
theorem outside_next (s : State) (i : Instr)
    (hi : (∃ b off bs, i = .hostPostedWrite b off bs) ∨ (∃ b off n, i = .hostRead b off n) ∨ (∃ id, i = .fabricAck id) ∨
      (∃ id, i = .fabricRetransmit id) ∨ (∃ x a, i = .fabricRemoteAccess x a) ∨ i = .mboxNop ∨ i = .mboxAttest ∨ i = .mboxTelemetry ∨
      (∃ c, i = .mboxFirmwareCmd c) ∨ (∃ r e v p, i = .mboxDone r e v p) ∨ (∃ v, i = .mboxWindowBase v) ∨ (∃ v, i = .mboxIntCauseClear v)) :
    ∃ t, exec i s = .next t := by
  rcases hi with ⟨b, off, bs, rfl⟩ | ⟨b, off, n, rfl⟩ | ⟨id, rfl⟩ | ⟨id, rfl⟩ | ⟨x, a, rfl⟩ | rfl | rfl | rfl | ⟨c, rfl⟩ | ⟨r, e, v, p, rfl⟩ |
    ⟨v, rfl⟩ | ⟨v, rfl⟩
  · exact hostPostedWrite_next s b off bs
  · exact hostRead_next s b off n
  · exact fabricAck_next s id
  · exact fabricRetransmit_next s id
  · exact fabricRemoteAccess_next s x a
  · exact ⟨_, rfl⟩
  · exact ⟨_, rfl⟩
  · exact ⟨_, rfl⟩
  · exact ⟨_, rfl⟩
  · exact mboxDone_next s r e v p
  · exact ⟨_, rfl⟩
  · exact ⟨_, rfl⟩

end

/-- Settles O60: the host's accesses, the fabric and the mailbox each by their own lemmas above. -/
theorem hostFabricAndMailbox : Obligations.HostFabricAndMailbox := by
  unfold Obligations.HostFabricAndMailbox
  refine ⟨fun s off bs => ⟨hostPostedWrite_outside, fun h => ⟨_, hostPostedWrite_inside h, ?_, ?_⟩, fun i hi => mem_hostBytes hi,
      fun n => hostRead_outside, fun n => hostRead_bytes⟩, hostReaches_iff, fun s id f hf => ?_,
    fun s id h => ⟨fabricAck_absent h, fabricRetransmit_absent h⟩, fun s f g r => waitFailed_mine,
    fun s agent va => ⟨fun p => agentFault_prog, fun c => agentFault_copy, fun c => agentFault_run⟩, fun s addr access => ⟨?_, ?_⟩,
    fun s off bs n => ?_, ?_, ?_, ?_, ?_, outside_next⟩
  · exact hostPostedWrite_alone _ bs
  · intro p n hp hn hh
    obtain ⟨rest, hs⟩ := List.head?_eq_some_iff.1 hp
    rw [hs, List.cons_append]
    exact drainPosted_waits hn hh
  · obtain rfl : f.id = id := of_decide_eq_true (List.find?_some hf :)
    refine ⟨fabricAck_late hf, fabricAck_store hf, fabricAck_engineStore hf, fun hl ha he hb => ⟨?_, ?_⟩, fun a op hl ha ho => ?_, fun a hl ha ho => ?_,
      fabricRetransmit_again hf, fun agent => fabricRetransmit_engine hf, fabricRetransmit_word hf, fun a => fabricRetransmit_access hf⟩
    · intro hr
      rw [fabricAck_wait hf hl ha he hb]
      exact waitAnswered_other (s := s.withoutFlit f.id) hr
    · intro g r hg hr hi
      rw [fabricAck_wait hf hl ha he hb]
      exact waitAnswered_mine (s := s.withoutFlit f.id) hg hr hi
    · rw [fabricAck_access hf hl ha, accAnswered_atomic ho]
      rfl
    · rw [fabricAck_access hf hl ha, accAnswered_load fun op => by rw [ho]; exact ⟨nofun, nofun⟩]
      rfl
  · exact fabricRemoteAccess_outside
  · intro h
    cases access with
    | read n => exact fabricRemoteAccess_read h
    | write bs => exact fabricRemoteAccess_write h
    | atomic op w b b2 => exact ⟨_, _, rfl, fabricRemoteAccess_atomic h⟩
  · refine ⟨fun h => congrArg _ (mboxWrite_unaligned h), fun h ho hr => congrArg _ ((mboxWrite_reg h ho).trans (mboxPut_other hr)), ?_,
      fun v => ⟨?_, ?_, ?_, ?_, ?_, ?_⟩, rfl, mboxRead_unaligned, ?_, ?_, ?_, ?_, mboxRead_area, mboxRead_other, ?_, ?_, ?_⟩
    · intro h hlo hhi
      obtain ⟨t, ht, he⟩ := mboxWrite_area (s := s) h hlo hhi
      exact ⟨t, congrArg _ ht, he⟩
    · exact congrArg _ ((mboxWrite_word v (by decide) rfl).trans (mboxPut_winBase v))
    · intro h
      refine congrArg _ ((mboxWrite_word v (by decide) rfl).trans ((mboxPut_command v 0#64 _ rfl rfl rfl).trans ?_))
      rw [h]
      rfl
    · intro h
      refine congrArg _ ((mboxWrite_word v (by decide) rfl).trans ((mboxPut_command v 0#64 _ rfl rfl rfl).trans ?_))
      rw [h]
      rfl
    · intro k
      exact congrArg _ ((mboxWrite_word v (by omega) (by omega)).trans (mboxPut_arg v k))
    · exact congrArg _ ((mboxWrite_word v (by decide) rfl).trans (mboxPut_cause v))
    · exact congrArg _ ((mboxWrite_word v (by decide) rfl).trans (mboxPut_mask v))
    · exact mboxRead_version
    · exact mboxRead_word (by decide) rfl
    · exact mboxRead_word (by decide) rfl
    · intro k
      rw [mboxRead_word (by omega) (by omega), mboxReg_arg]
    · rw [mboxRead_word (by decide) rfl, mboxReg_winBase]
    · rw [mboxRead_word (by decide) rfl, mboxReg_command]
    · rw [mboxRead_word (by decide) rfl, mboxReg_status]
  · exact fun s code v => ⟨congrArg _ (mboxSubmit_eq 0#16), congrArg _ (mboxSubmit_eq 1#16), congrArg _ (mboxSubmit_eq 2#16),
      congrArg _ (mboxSubmit_eq code), congrArg _ (mboxPut_winBase v), congrArg _ (mboxPut_cause v)⟩
  · exact fun s result error vectors => ⟨mboxDone_takes result error vectors, mboxDone_ends result error vectors⟩
  · exact fun m measured n => ⟨mboxFill_eq m measured n, mboxFill_other m measured n, mboxFill_measured m measured n⟩
  · exact fun m v => ⟨signal_cause m v, mem_signal m v, mem_setMask m v⟩

end Sys2Proof.Machine
end

section
namespace Sys2Proof.Machine

/-! ### What a step word does for its team (R238, R339) -/

/-- It is a step word's turn, it acts, and its team's context is `x`, of number `c`. -/
def StepActs (i : Instr) (engine : Bool) (s u : State) (gid : Nat) (s1 : Bool) (g : Group) (sh : Shape) (c : Nat) (x : StepCtx) : Prop :=
  ∃ s' tid t, Passes i s gid s1 g sh s' ∧ g.lanesAt s1 sh ≠ 0#96 ∧ g.team = some tid ∧ tget s'.teams tid = some t ∧
    (engine = true → stillPending s' (pendingOf s' gid (g.slot s1).owned) = false) ∧ takeCtx s' tid t g = some (u, c, x)

/-- The word traps with a cause of its own. -/
def StepTraps (i : Instr) (s u : State) (gid : Nat) (s1 : Bool) (g : Group) (sh : Shape) (c : BitVec 8) : Prop :=
  exec i s = .next (trapWord u gid s1 i sh c 0#8 (trapLanes g (g.slot s1) sh) true)

/-- An instruction of head `h` that does what it does behind the checks of `stepWord`. -/
def IsStep (i : Instr) (h : Head) (engine : Bool) : Prop :=
  (∀ sh, wordShape i = some sh → sh.head = h) ∧ ∃ k, ∀ s, exec i s = stepWord i h engine s k

section
variable {i : Instr} {h : Head} {engine : Bool} {k : State → Nat → Bool → Group → Slot → Shape → Nat → StepCtx → Out} {s s' u : State} {gid c : Nat}
  {s1 : Bool} {g : Group} {sh : Shape} {x : StepCtx}

section
variable (hh : ∀ sh, wordShape i = some sh → sh.head = h) (hp : Passes i s gid s1 g sh s') (hl : g.lanesAt s1 sh ≠ 0#96)
include hh hp hl

theorem stepWord_noTeam (ht : g.team = none) :
    stepWord i h engine s k = .next (trapWord s' gid s1 i sh 0x12#8 0#8 (trapLanes g (g.slot s1) sh) true) := by
  have hx : ¬ execLanes g (g.slot s1) h = 0#96 := hh sh hp.2.1 ▸ hl
  rw [stepWord, gate_of_passes _ hp, if_neg hx]
  dsimp only
  rw [ht]
  rfl

/-- With a lane and a team, the word looks for its accesses and its context. -/
theorem stepWord_team {tid : Nat} {t : Team} (ht : g.team = some tid) (htt : tget s'.teams tid = some t) : stepWord i h engine s k =
    if (engine && stillPending s' (pendingOf s' gid (g.slot s1).owned)) = true then .next (s'.modSlot gid s1 fun y => { y with wait := .other })
    else
      match takeCtx s' tid t g with
      | none => .next (s'.modSlot gid s1 fun y => { y with wait := .other })
      | some (u, c, x) => k u gid s1 g (g.slot s1) sh c x := by
  have hx : ¬ execLanes g (g.slot s1) h = 0#96 := hh sh hp.2.1 ▸ hl
  have hof : s'.teamOf g = some t := by
    unfold State.teamOf
    rw [ht]
    exact htt
  rw [stepWord, gate_of_passes _ hp, if_neg hx]
  dsimp only
  rw [ht, hof] <;> rfl

theorem stepWord_holds {tid : Nat} {t : Team} (ht : g.team = some tid) (htt : tget s'.teams tid = some t)
    (hw : (engine = true ∧ stillPending s' (pendingOf s' gid (g.slot s1).owned) = true) ∨ takeCtx s' tid t g = none) :
    stepWord i h engine s k = .next (s'.modSlot gid s1 fun y => { y with wait := .other }) := by
  rw [stepWord_team hh hp hl ht htt]
  rcases hw with ⟨he, hs⟩ | hc
  · rw [he, hs]
    rfl
  · rw [hc]
    exact ite_self _

end

theorem stepWord_acts (hh : ∀ sh, wordShape i = some sh → sh.head = h) (ha : StepActs i engine s u gid s1 g sh c x) :
    stepWord i h engine s k = k u gid s1 g (g.slot s1) sh c x := by
  obtain ⟨s', tid, t, hp, hl, ht, htt, hpend, hctx⟩ := ha
  rw [stepWord_team hh hp hl ht htt, if_neg, hctx]
  rw [Bool.and_eq_true]
  rintro ⟨he, hs⟩
  rw [hpend he] at hs
  cases hs

theorem stepWord_skips (hi : IsStep i h engine) : Skips i := by
  obtain ⟨hh, k, he⟩ := hi
  exact completes_of_gate he fun _ s' gid s1 g sh hsh _ hm => if_pos (by rw [← hh sh hsh]; exact hm)

/-- Before it acts a step word skips, traps without a team, or holds. -/
theorem IsStep.starts (hi : IsStep i h engine) : Skips i ∧ ∀ s gid s1 g sh s', Passes i s gid s1 g sh s' → g.lanesAt s1 sh ≠ 0#96 →
    (g.team = none → StepTraps i s s' gid s1 g sh 0x12#8) ∧
    ∀ tid t, g.team = some tid → tget s'.teams tid = some t →
      (engine = true ∧ stillPending s' (pendingOf s' gid (g.slot s1).owned) = true) ∨ takeCtx s' tid t g = none →
      exec i s = .next (s'.modSlot gid s1 fun y => { y with wait := .other }) := by
  refine ⟨stepWord_skips hi, fun s gid s1 g sh s' hp hl => ⟨fun ht => ?_, fun tid t ht htt hw => ?_⟩⟩
  · obtain ⟨hh, k, he⟩ := hi
    exact (he s).trans (stepWord_noTeam hh hp hl ht)
  · obtain ⟨hh, k, he⟩ := hi
    exact (he s).trans (stepWord_holds hh hp hl ht htt hw)

theorem StepActs.lanes (ha : StepActs i engine s u gid s1 g sh c x) (hi : IsStep i h engine) : g.lanesAt s1 sh = execLanes g (g.slot s1) h := by
  obtain ⟨_, _, _, hp, -⟩ := ha
  rw [← hi.1 sh hp.2.1]
  rfl

/-- A context that is taken is the team's, or one of its cluster that no team holds. -/
theorem takeCtx_some {tid : Nat} {t : Team} (he : takeCtx s tid t g = some (u, c, x)) : s.group? gid = u.group? gid ∧ tget u.ctxs c = some x ∧
    (t.ctx = none → (t.die * 8 + t.clu) * 4 ≤ c ∧ c < (t.die * 8 + t.clu) * 4 + 4 ∧ tget s.ctxs c = none) := by
  unfold takeCtx at he
  split at he
  · next n hn =>
    obtain ⟨y, hy, hyx⟩ := Option.map_eq_some_iff.1 he
    cases hyx
    exact ⟨rfl, hy, fun h0 => by rw [hn] at h0; cases h0⟩
  · dsimp only at he
    split at he
    · cases he
    · next n hn =>
      cases he
      have hm := List.mem_of_find?_eq_some hn
      have hp := List.find?_some hn
      obtain ⟨j, hj, rfl⟩ := List.mem_map.1 hm
      have hj4 := List.mem_range.1 hj
      exact ⟨rfl, tget_tset_self _ _ _, fun _ => ⟨by omega, by omega, by simpa using hp⟩⟩

end

/-! #### ldtab, bind and run (R239 to R244, R309) -/

section
variable {s u v w : State} {gid c : Nat} {s1 : Bool} {g : Group} {sh : Shape} {x : StepCtx} {i : Instr} {sl : Slot} {at_ : Addr} {n : Nat} {sp : BitVec 3}
  {f : State → List Byte → Out} {bs : List Byte}

theorem stepReading_running (hx : x.st = .running) :
    stepReading u gid s1 i g sl sh x sp at_ n f = .next (trapWord u gid s1 i sh 0x15#8 0#8 (trapLanes g sl sh) true) := if_pos hx

theorem stepReading_misaligned (hx : x.st ≠ .running) (hm : at_.toNat % 8 ≠ 0) :
    stepReading u gid s1 i g sl sh x sp at_ n f = .next (trapWord u gid s1 i sh 0x08#8 0#8 (trapLanes g sl sh) true) := by
  unfold stepReading stepRead
  rw [if_neg hx, if_pos hm]
  rfl

theorem stepReading_ok (hx : x.st ≠ .running) (hr : stepRead u gid g sl.uniMask (Space.ofCode sp) at_ n = (v, .ok bs)) :
    stepReading u gid s1 i g sl sh x sp at_ n f = f v bs := by
  unfold stepReading
  rw [if_neg hx, hr]

end

section
variable {h : Head} {a : Triple} {b : Src} {sp : BitVec 3} {s u v w : State} {gid c : Nat} {s1 : Bool} {g : Group} {sh : Shape} {x : StepCtx}
  {bs hd r : List Byte}

theorem isStep_ldtab : IsStep (.stepLdtab h a sp) h true :=
  ⟨head_of_shapeM rfl, _, fun s => (exec_stepLdtab h a sp s).trans (by unfold execStepLdtab; rfl)⟩
theorem isStep_bind : IsStep (.stepBind h a sp) h true :=
  ⟨head_of_shapeM rfl, _, fun s => (exec_stepBind h a sp s).trans (by unfold execStepBind; rfl)⟩
theorem isStep_run : IsStep (.stepRun h a sp) h true :=
  ⟨head_of_shapeM rfl, _, fun s => (exec_stepRun h a sp s).trans (by unfold execStepRun; rfl)⟩
theorem isStep_wait : IsStep (.stepWait h) h false :=
  ⟨head_of_shapeM rfl, _, fun s => (exec_stepWait h s).trans (by unfold execStepWait; rfl)⟩
theorem isStep_done : IsStep (.stepDone h) h false :=
  ⟨head_of_shapeM rfl, _, fun s => (exec_stepDone h s).trans (by unfold execStepDone; rfl)⟩
theorem isStep_qry : IsStep (.stepQry h a b) h true :=
  ⟨head_of_shapeM rfl, _, fun s => (exec_stepQry h a b s).trans (by unfold execStepQry; rfl)⟩
theorem isStep_stat : IsStep (.stepStat h a sp) h true :=
  ⟨head_of_shapeM rfl, _, fun s => (exec_stepStat h a sp s).trans (by unfold execStepStat; rfl)⟩
theorem isStep_stop : IsStep (.stepStop h) h true :=
  ⟨head_of_shapeM rfl, _, fun s => (exec_stepStop h s).trans (by unfold execStepStop; rfl)⟩

/-- The words that read a record of their context read it first at the address that their operand names. -/
def StepReads (i : Instr) (h : Head) (a : Triple) (sp : BitVec 3) : Prop := (∀ sh, wordShape i = some sh → sh.head = h) ∧
  ∃ (n : Nat) (f : Nat → Bool → Group → Slot → Shape → Nat → StepCtx → State → List Byte → Out), ∀ s,
    exec i s = stepWord i h true s fun s gid s1 g sl sh c x =>
    stepReading s gid s1 i g sl sh x sp (readTriple g sl a) n (f gid s1 g sl sh c x)

theorem stepReads_ldtab : StepReads (.stepLdtab h a sp) h a sp :=
  ⟨head_of_shapeM rfl, _, _, fun s => (exec_stepLdtab h a sp s).trans (by unfold execStepLdtab; rfl)⟩
theorem stepReads_bind : StepReads (.stepBind h a sp) h a sp :=
  ⟨head_of_shapeM rfl, _, _, fun s => (exec_stepBind h a sp s).trans (by unfold execStepBind; rfl)⟩
theorem stepReads_run : StepReads (.stepRun h a sp) h a sp :=
  ⟨head_of_shapeM rfl, _, _, fun s => (exec_stepRun h a sp s).trans (by unfold execStepRun; rfl)⟩

theorem StepReads.traps {i : Instr} (hi : StepReads i h a sp) (ha : StepActs i true s u gid s1 g sh c x) :
    (x.st = .running → StepTraps i s u gid s1 g sh 0x15#8) ∧
    (x.st ≠ .running → (readTriple g (g.slot s1) a).toNat % 8 ≠ 0 → StepTraps i s u gid s1 g sh 0x08#8) := by
  obtain ⟨hh, n, f, he⟩ := hi
  exact ⟨fun hx => (he s).trans ((stepWord_acts hh ha).trans (stepReading_running hx)),
    fun hx hm => (he s).trans ((stepWord_acts hh ha).trans (stepReading_misaligned hx hm))⟩

/-! ##### ldtab (R239 to R241) -/

/-- The tableau that ldtab keeps: a legal one. -/
def keptTab (hd bs : List Byte) : Option Tableau :=
  if (mkTableau hd (words64 bs)).legal (words64 bs) then some (mkTableau hd (words64 bs)) else none

/-- The context after ldtab, with its status (R239). -/
def StepCtx.withTab (x : StepCtx) (tab : Option Tableau) : StepCtx := { x.fresh (if tab.isSome then 0#8 else 0x10#8) with tab := tab }

section
variable (ha : StepActs (.stepLdtab h a sp) true s u gid s1 g sh c x) (hx : x.st ≠ .running)
  (hr : stepRead u gid g (g.slot s1).uniMask (Space.ofCode sp) (readTriple g (g.slot s1) a) 8 = (v, .ok hd))
include ha hx hr

theorem ldtab_badHeader (hk : headerOk hd = false) :
    exec (.stepLdtab h a sp) s = .next ((setCtx v c { x.fresh 0x10#8 with tab := none }).goesOn gid s1 sh g) := by
  rw [exec_stepLdtab, execStepLdtab, stepWord_acts isStep_ldtab.1 ha, stepReading_ok hx hr, hk]
  rfl

/-- With its coefficients read, ldtab keeps a legal tableau. -/
theorem ldtab_reads (hk : headerOk hd = true)
    (hw : stepRead v gid g (g.slot s1).uniMask (Space.ofCode sp) (readTriple g (g.slot s1) a + 8#80) (8 * descWords hd) = (w, .ok bs)) :
    exec (.stepLdtab h a sp) s = .next ((setCtx w c (x.withTab (keptTab hd bs))).goesOn gid s1 sh g) := by
  rw [exec_stepLdtab, execStepLdtab, stepWord_acts isStep_ldtab.1 ha, stepReading_ok hx hr, hk, Bool.not_true, if_neg Bool.false_ne_true,
    stepReading_ok hx hw]
  rfl

end

theorem withTab_legal (hl : (mkTableau hd (words64 bs)).legal (words64 bs) = true) :
    x.withTab (keptTab hd bs) = { x.fresh 0#8 with tab := some (mkTableau hd (words64 bs)) } := by
  unfold keptTab
  rw [if_pos hl]
  rfl

theorem withTab_illegal (hl : (mkTableau hd (words64 bs)).legal (words64 bs) = false) :
    x.withTab (keptTab hd bs) = { x.fresh 0x10#8 with tab := none } := by
  unfold keptTab
  rw [if_neg (ne_true_of_eq_false hl)]
  rfl

/-! ##### bind (R242, R243) -/

theorem bind_reads (ha : StepActs (.stepBind h a sp) true s u gid s1 g sh c x) (hx : x.st ≠ .running)
    (hr : stepRead u gid g (g.slot s1).uniMask (Space.ofCode sp) (readTriple g (g.slot s1) a) 80 = (v, .ok r)) :
    let roles := match v.teamOf g with | some t => t.roles | none => 0
    let bd := mkBinding roles (fun a n => inSpace v (v.teamOf g) g.die g.grid .cl a n) r
    exec (.stepBind h a sp) s = .next ((setCtx v c { x.fresh (if bd = none then 0x11#8 else 0#8) with bind := bd }).goesOn gid s1 sh g) := by
  intro roles bd
  have hstatus : (if bd = none then 0x11#8 else 0#8) = if bd.isSome then 0#8 else 0x11#8 := by
    cases bd <;> rfl
  rw [hstatus, exec_stepBind, execStepBind, stepWord_acts isStep_bind.1 ha, stepReading_ok hx hr]
  rfl

/-! ##### run (R244, R309) -/

/-- Start, end and first step size of a run's record. -/
abbrev runStart (r : List Byte) : Word64 := (words64 r).getD 0 0#64
abbrev runEnd (r : List Byte) : Word64 := (words64 r).getD 1 0#64
abbrev runSize (r : List Byte) : Word64 := (words64 r).getD 2 0#64

/-- The locks of a run on the regions of its binding. -/
def regionLocks (bd : Binding) (t : Tableau) (c tenant : Nat) : List Lock :=
  (bd.regions t.slots).map fun q => { owner := .step c, tenant := tenant, space := bd.space, lo := q.1.toNat, len := q.2, write := true }

theorem runLocks_eq {t : Tableau} {bd : Binding} (ht : x.tab = some t) (hb : x.bind = some bd) (tenant : Nat) :
    x.runLocks c tenant = regionLocks bd t c tenant := by
  unfold StepCtx.runLocks
  rw [ht, hb]
  rfl

theorem takeLocks_none {die core : Nat} {ls : List Lock}
    (hk : 64 < (v.core die core).rlt.length + ls.length ∨ ls.any (lockMeets v die core) = true) : takeLocks v die core ls = none := by
  unfold takeLocks
  refine if_pos ?_
  rw [Bool.or_eq_true, decide_eq_true_eq]
  exact hk.symm

theorem takeLocks_room {die core : Nat} {ls : List Lock} (hn : (v.core die core).rlt.length + ls.length ≤ 64)
    (hk : ls.any (lockMeets v die core) = false) :
    takeLocks v die core ls = some (v.setCore die core { v.core die core with rlt := (v.core die core).rlt ++ ls }) := by
  unfold takeLocks
  refine if_neg ?_
  rw [Bool.or_eq_true, decide_eq_true_eq, hk]
  exact fun hc => hc.elim Bool.false_ne_true (Nat.not_lt.2 hn)

section
variable (ha : StepActs (.stepRun h a sp) true s u gid s1 g sh c x) (hx : x.st ≠ .running)
  (hr : stepRead u gid g (g.slot s1).uniMask (Space.ofCode sp) (readTriple g (g.slot s1) a) 32 = (v, .ok r))
include ha hx hr

theorem run_illegal (hl : runLegal v g x r = false) : exec (.stepRun h a sp) s =
    .next ((stopRun (setCtx v c (x.fresh 0#8)) c 0x12#8 0xFF#8).modGroup gid fun g => g.done s1 sh) := by
  rw [exec_stepRun, execStepRun, stepWord_acts isStep_run.1 ha, stepReading_ok hx hr]
  dsimp only
  rw [hl]
  rfl

section
variable (hl : runLegal v g x r = true)
include hl

theorem run_empty (he : rat64 (runEnd r) = rat64 (runStart r)) : exec (.stepRun h a sp) s =
    .next ((stopRun (setCtx v c { x.fresh 0#8 with t := runStart r, h := runSize r }) c 0x02#8 0xFF#8).modGroup gid fun g => g.done s1 sh) := by
  rw [exec_stepRun, execStepRun, stepWord_acts isStep_run.1 ha, stepReading_ok hx hr]
  dsimp only
  rw [hl, Bool.not_true, if_neg Bool.false_ne_true, if_pos he]

variable {t : Tableau} {bd : Binding} (he : rat64 (runEnd r) ≠ rat64 (runStart r)) (ht : x.tab = some t) (hb : x.bind = some bd)
include he ht hb

theorem run_locked (hk : 64 < (v.core g.die g.core).rlt.length + 5 ∨ (regionLocks bd t c g.tenant).any (lockMeets v g.die g.core) = true) :
    exec (.stepRun h a sp) s = .next (v.modSlot gid s1 fun y => { y with wait := .other }) := by
  rw [exec_stepRun, execStepRun, stepWord_acts isStep_run.1 ha, stepReading_ok hx hr]
  dsimp only
  rw [hl, Bool.not_true, if_neg Bool.false_ne_true, if_neg he, runLocks_eq ht hb, takeLocks_none (ls := regionLocks bd t c g.tenant) hk, ht, hb]

/-- The context of a run that begins. -/
def StepCtx.begun (x : StepCtx) (r : List Byte) (gid : Nat) (s1 : Bool) (g : Group) : StepCtx :=
  { x.fresh 1#8 with st := .running, t := runStart r, tEnd := runEnd r, h := runSize r, limit := BitVec.ofNat 32 (bytesNat r 24 4),
                     run := some (g.core, gid, s1), place := placeByte g false s1 }

theorem run_begins (hn : (v.core g.die g.core).rlt.length + 5 ≤ 64) (hk : (regionLocks bd t c g.tenant).any (lockMeets v g.die g.core) = false) :
    let co := v.core g.die g.core
    exec (.stepRun h a sp) s = .next (beginAttempt (checkRoles ((setCtx (v.setCore g.die g.core { co with rlt := co.rlt ++ regionLocks bd t c g.tenant })
      c (x.begun r gid s1 g)).modGroup gid fun g => g.done s1 sh) x.team bd.role) c (x.begun r gid s1 g) t) := by
  rw [exec_stepRun, execStepRun, stepWord_acts isStep_run.1 ha, stepReading_ok hx hr]
  dsimp only
  rw [hl, Bool.not_true, if_neg Bool.false_ne_true, if_neg he, runLocks_eq ht hb, takeLocks_room (ls := regionLocks bd t c g.tenant) hn hk, ht, hb]
  rfl

end

end

/-! ##### wait and done (R115, R250) -/

theorem wrongRole_eq_true : wrongRole x g = true ↔ ¬ ∀ bd, x.bind = some bd → bd.role = g.role := by
  unfold wrongRole
  cases x.bind <;> simp

theorem wrongRole_eq_false (hs : ∀ bd, x.bind = some bd → bd.role = g.role) : wrongRole x g = false := by
  rw [← Bool.not_eq_true, wrongRole_eq_true, not_not]
  exact hs

theorem putCall_place (g : Group) (s1 : Bool) (ks : List Word32) (hi : Word32) (h' g' : Word64) :
    (putCall g s1 ks hi h' g').die = g.die ∧ (putCall g s1 ks hi h' g').core = g.core := by
  have hw (g : Group) (n : Nat) (v : Word32) : (g.kwrite s1 n v).die = g.die ∧ (g.kwrite s1 n v).core = g.core := by
    have hr := (kwrite_eq g s1 n v).rest
    have hd := congrArg Group.die hr
    have hc := congrArg Group.core hr
    exact ⟨hd, hc⟩
  exact List.foldlRecOn (motive := fun y : Group => y.die = g.die ∧ y.core = g.core) _ _ ⟨rfl, rfl⟩
    fun y hy p _ => ⟨(hw y _ _).1.trans hy.1, (hw y _ _).2.trans hy.2⟩

section
variable (ha : StepActs (.stepWait h) false s u gid s1 g sh c x)
include ha

theorem wait_traps (hs : ¬ ∀ bd, x.bind = some bd → bd.role = g.role) : StepTraps (.stepWait h) s u gid s1 g sh 0x15#8 := by
  unfold StepTraps
  rw [exec_stepWait, execStepWait, stepWord_acts isStep_wait.1 ha]
  dsimp only
  rw [if_pos (wrongRole_eq_true.2 hs)]
  rfl

section
variable (hs : ∀ bd, x.bind = some bd → bd.role = g.role)
include hs

theorem wait_idle (hx : x.st = .idle) :
    exec (.stepWait h) s = .next ((u.modSlot gid s1 fun y => { y with wait := .step, wctr := h.ctr }).ctrUp gid h.ctr) := by
  rw [exec_stepWait, execStepWait, stepWord_acts isStep_wait.1 ha]
  dsimp only
  rw [wrongRole_eq_false hs, hx]
  rfl

/-- A word that takes what is there goes on with acquire order. -/
def takenCall (s : State) (gid : Nat) (s1 : Bool) (sh : Shape) (g : Group) : State := l1Invalidate (s.setGroup gid (g.done s1 sh)) g.die g.core

theorem wait_over (hx : x.st = .stopped) : exec (.stepWait h) s = .next (takenCall u gid s1 sh (putOver g s1)) := by
  obtain ⟨hd, hc⟩ := putCall_place g s1 [3#32, 0#32, 0#32, 0#32, 0#32, 0#32, 0#32, 0#32] 0#32 0#64 0#64
  unfold takenCall putOver
  rw [hd, hc, exec_stepWait, execStepWait, stepWord_acts isStep_wait.1 ha]
  dsimp only
  rw [wrongRole_eq_false hs, hx]
  rfl

theorem wait_combines (hx : x.st = .running) (hp : ∀ k, x.phase ≠ .out k) :
    exec (.stepWait h) s = .next ((u.modSlot gid s1 fun y => { y with wait := .step, wctr := h.ctr }).ctrUp gid h.ctr) := by
  rw [exec_stepWait, execStepWait, stepWord_acts isStep_wait.1 ha]
  dsimp only
  rw [wrongRole_eq_false hs, hx]
  cases hph : x.phase with
  | out k => exact absurd hph (hp k)
  | _ => rfl

section
variable (hx : x.st = .running) {k : StepCall} {t : Tableau} {bd : Binding} (hp : x.phase = .out k) (ht : x.tab = some t) (hb : x.bind = some bd)
include hx hp ht hb

theorem wait_taken (hk : gid ∉ x.toTake) :
    exec (.stepWait h) s = .next ((u.modSlot gid s1 fun y => { y with wait := .step, wctr := h.ctr }).ctrUp gid h.ctr) := by
  rw [exec_stepWait, execStepWait, stepWord_acts isStep_wait.1 ha]
  dsimp only
  rw [wrongRole_eq_false hs, hx, hp, ht, hb]
  exact if_neg (List.contains_iff_mem.not.2 hk)

theorem wait_takes (hk : gid ∈ x.toTake) : exec (.stepWait h) s =
    .next (takenCall (setCtx u c { x with toTake := x.toTake.filter fun y => y ≠ gid }) gid s1 sh (putRecordOf c x (callInfo x t bd k) s1 g)) := by
  obtain ⟨hd, hc⟩ := putCall_place g s1 (callWords (c % 4) x (callInfo x t bd k))
    ((callInfo x t bd k).output.extractLsb' 64 16 ++ (callInfo x t bd k).input.extractLsb' 64 16) x.hs (callInfo x t bd k).g
  unfold takenCall putRecordOf
  rw [hd, hc, exec_stepWait, execStepWait, stepWord_acts isStep_wait.1 ha]
  dsimp only
  rw [wrongRole_eq_false hs, hx, hp, ht, hb]
  exact if_pos (List.contains_iff_mem.2 hk)

end

end

end

/-- The group may say that it has done the call. -/
def MayDo (x : StepCtx) (gid : Nat) (g : Group) : Prop :=
  (∀ bd, x.bind = some bd → bd.role = g.role) ∧ x.st = .running ∧ gid ∈ x.owing ∧ gid ∉ x.toTake

theorem done_refused_iff : (wrongRole x g || decide (x.st ≠ .running) || !(x.owing.contains gid) || x.toTake.contains gid) = true ↔
    ¬ MayDo x gid g := by
  have hs := wrongRole_eq_true (x := x) (g := g)
  unfold MayDo
  rw [Bool.or_eq_true, Bool.or_eq_true, Bool.or_eq_true, hs, decide_eq_true_eq, Bool.not_eq_true', ← Bool.not_eq_true, List.contains_iff_mem,
    List.contains_iff_mem]
  tauto

section
variable (ha : StepActs (.stepDone h) false s u gid s1 g sh c x)
include ha

theorem done_traps (hd : ¬ MayDo x gid g) : StepTraps (.stepDone h) s u gid s1 g sh 0x15#8 := by
  unfold StepTraps
  rw [exec_stepDone, execStepDone, stepWord_acts isStep_done.1 ha]
  exact if_pos (done_refused_iff.2 hd)

theorem done_counts (hd : MayDo x gid g) : exec (.stepDone h) s = .next ((setCtx u c { x with
    owing := x.owing.filter fun y => y ≠ gid, settling := x.settling ++ fenceWaits u gid (BitVec.allOnes 96) 14#4 }).goesOn gid s1 sh g) := by
  rw [exec_stepDone, execStepDone, stepWord_acts isStep_done.1 ha]
  exact if_neg (done_refused_iff.not.2 (not_not.2 hd))

end

/-! ##### qry and stat (R252, R255, R258) -/

/-- The t of a query, read once (R258). -/
def queryAt (u : State) (g : Group) (s1 : Bool) (sh : Shape) (b : Src) : Word64 :=
  readSrc u g (g.slot s1) ((lowest? (g.lanesAt s1 sh)).getD (g.slot s1).uniLane) b 64

/-- A destination of a query is no vector of its context's space, or meets a region (R258). -/
def QueryBad (u : State) (g : Group) (t : Tableau) (bd : Binding) (dst : Addr) : Prop :=
  dst.toNat % bd.e ≠ 0 ∨ inSpace u (u.teamOf g) g.die g.grid bd.space dst (bd.n * bd.e) = false ∨
    ¬ ∀ q ∈ bd.regions t.slots, meets dst.toNat (bd.n * bd.e) q.1.toNat q.2 = false

theorem queryBad_iff {t : Tableau} {bd : Binding} {dst : Addr} :
    (dst.toNat % bd.e ≠ 0 ∨ (!inSpace u (u.teamOf g) g.die g.grid bd.space dst (bd.n * bd.e)) = true ∨
      ((bd.regions t.slots).any fun q => meets dst.toNat (bd.n * bd.e) q.1.toNat q.2) = true) ↔ QueryBad u g t bd dst := by
  unfold QueryBad
  rw [Bool.not_eq_true', List.any_eq_true]
  simp only [not_forall, exists_prop, Bool.not_eq_false]

/-- A query has a θ only of a step that is retained. -/
theorem retained_of_queryTheta {t : Tableau} {y : Word64} {th : Option Rat} (hq : queryTheta x t y = some th) : ∃ r, x.retained = some r := by
  unfold queryTheta at hq
  split at hq
  · cases hq
  · next r hr => exact ⟨r, hr⟩

/-- What a query writes: the stored y, or dense values. -/
def queryAsg (x : StepCtx) (t : Tableau) (bd : Binding) (dst : Addr) : Option Rat → Asg
  | none => .copy dst bd.state
  | some th => .lin dst (denseTerms t bd (bd.vec bd.work 2) (match x.retained with | some r => r.hs | none => 0#64) th)

section
variable (ha : StepActs (.stepQry h a b) true s u gid s1 g sh c x)
include ha

theorem qry_empty (hx : x.tab = none ∨ x.bind = none) : StepTraps (.stepQry h a b) s u gid s1 g sh 0x15#8 := by
  unfold StepTraps
  rw [exec_stepQry, execStepQry, stepWord_acts isStep_qry.1 ha]
  dsimp only
  cases ht : x.tab with
  | none => rfl
  | some t =>
    rw [hx.resolve_left (by rw [ht]; nofun)]
    rfl

section
variable {t : Tableau} {bd : Binding} (ht : x.tab = some t) (hb : x.bind = some bd)
include ht hb

theorem qry_noTheta (hq : queryTheta x t (queryAt u g s1 sh b) = none) : StepTraps (.stepQry h a b) s u gid s1 g sh 0x15#8 := by
  unfold StepTraps
  rw [exec_stepQry, execStepQry, stepWord_acts isStep_qry.1 ha]
  dsimp only
  rw [ht, hb]
  dsimp only
  rw [← ha.lanes isStep_qry, readOnce, ← queryAt, hq]
  rfl

theorem qry_bad {th : Option Rat} (hq : queryTheta x t (queryAt u g s1 sh b) = some th)
    (hd : QueryBad u g t bd (readTriple g (g.slot s1) a)) : StepTraps (.stepQry h a b) s u gid s1 g sh 0x15#8 := by
  unfold StepTraps
  rw [exec_stepQry, execStepQry, stepWord_acts isStep_qry.1 ha]
  dsimp only
  rw [ht, hb]
  dsimp only
  rw [← ha.lanes isStep_qry, readOnce, ← queryAt, hq]
  exact if_pos (queryBad_iff.2 hd)

theorem qry_writes {th : Option Rat} (hq : queryTheta x t (queryAt u g s1 sh b) = some th)
    (hd : ¬ QueryBad u g t bd (readTriple g (g.slot s1) a))
    (hr : runAsg u gid c g.core x bd (queryAsg x t bd (readTriple g (g.slot s1) a) th) = (v, .ok ())) :
    exec (.stepQry h a b) s = .next (stepAcquire v gid g h.ctr (if bd.space = .cl then 2#3 else 4#3) x.agent u.seqNo (some s1)) := by
  have hsc : (if bd.space = .cl then 2#3 else 4#3) = BitVec.ofNat 3 bd.scope := by
    unfold Binding.scope
    split <;> rfl
  rw [hsc, exec_stepQry, execStepQry, stepWord_acts isStep_qry.1 ha]
  dsimp only
  rw [ht, hb]
  dsimp only
  rw [← ha.lanes isStep_qry, readOnce, ← queryAt, hq]
  dsimp only
  rw [if_neg (queryBad_iff.not.2 hd)]
  cases th with
  | none =>
    dsimp only [queryAsg] at hr ⊢
    rw [hr]
  | some th =>
    obtain ⟨r, hre⟩ := retained_of_queryTheta hq
    dsimp only [queryAsg] at hr ⊢
    rw [hre] at hr ⊢
    dsimp only at hr ⊢
    rw [hr]

end

end

theorem statRecord_eq (x : StepCtx) : statRecord x =
    [if x.st = .running then 1#8 else x.status, if x.st = .stopped then x.event else 0xFF#8, 0#8, 0#8] ++ toBytes x.accepted 4 ++
      toBytes x.rejected 4 ++ toBytes x.calls 4 ++ toBytes x.t 8 ++ toBytes (if x.st = .running then x.hs else x.h) 8 := by
  simp only [statRecord, decide_eq_true_eq]

section
variable (ha : StepActs (.stepStat h a sp) true s u gid s1 g sh c x)
include ha

theorem stat_outside (hd : inSpace u (u.teamOf g) g.die g.grid (Space.ofCode sp) (readTriple g (g.slot s1) a) 32 = false) :
    StepTraps (.stepStat h a sp) s u gid s1 g sh 0x07#8 := by
  unfold StepTraps
  rw [exec_stepStat, execStepStat, stepWord_acts isStep_stat.1 ha]
  dsimp only
  rw [hd]
  rfl

section
variable (hin : inSpace u (u.teamOf g) g.die g.grid (Space.ofCode sp) (readTriple g (g.slot s1) a) 32 = true)
include hin

theorem stat_misaligned (hm : (readTriple g (g.slot s1) a).toNat % 8 ≠ 0) : StepTraps (.stepStat h a sp) s u gid s1 g sh 0x08#8 := by
  unfold StepTraps
  rw [exec_stepStat, execStepStat, stepWord_acts isStep_stat.1 ha]
  dsimp only
  rw [hin]
  exact if_pos hm

theorem stat_writes {ks : List Nat} (hm : (readTriple g (g.slot s1) a).toNat % 8 = 0)
    (hk : laneKeys u g (Space.ofCode sp) .write 0 (readTriple g (g.slot s1) a) 32 = (v, .ok ks)) :
    exec (.stepStat h a sp) s = .next (stepAcquire ((engineStore { v with seqNo := v.seqNo + 1 } (x.writer v.seqNo gid c g.core)
      (readTriple g (g.slot s1) a) ks (statRecord x)).goesOn gid s1 sh g) gid g h.ctr 2#3 x.agent v.seqNo none) := by
  rw [exec_stepStat, execStepStat, stepWord_acts isStep_stat.1 ha]
  dsimp only
  rw [hin, Bool.not_true, if_neg Bool.false_ne_true, if_neg (not_not.2 hm), hk]
  rfl

end

end

section
variable (ha : StepActs (.stepStop h) true s u gid s1 g sh c x)
include ha

theorem stop_notRunning (hx : x.st ≠ .running) : exec (.stepStop h) s = .next (u.goesOn gid s1 sh g) := by
  rw [exec_stepStop, execStepStop, stepWord_acts isStep_stop.1 ha]
  exact if_pos hx

theorem stop_calls (hx : x.st = .running) (hp : ∃ k, x.phase = .out k) :
    exec (.stepStop h) s = .next (setCtx (u.goesOn gid s1 sh g) c { x with stopReq := true }) := by
  obtain ⟨k, hp⟩ := hp
  rw [exec_stepStop, execStepStop, stepWord_acts isStep_stop.1 ha]
  dsimp only
  rw [if_neg (not_not.2 hx), hp]
  rfl

theorem stop_stops (hx : x.st = .running) (hp : ∀ k, x.phase ≠ .out k) :
    exec (.stepStop h) s = .next (stopRun (u.goesOn gid s1 sh g) c 0x04#8 0xFF#8) := by
  rw [exec_stepStop, execStepStop, stepWord_acts isStep_stop.1 ha]
  dsimp only
  rw [if_neg (not_not.2 hx)]
  cases hph : x.phase with
  | out k => exact absurd hph (hp k)
  | _ => rfl

end

end

end Sys2Proof.Machine
end

section
namespace Sys2Proof.Machine

/-! ### The stepper's own steps (R115, R249, R250) -/

section
variable {s v w : State} {c : Nat} {x : StepCtx} {t : Tableau} {bd : Binding}

section
variable (hc : tget s.ctxs c = some x) (ht : x.tab = some t) (hb : x.bind = some bd)
include hc ht hb

/-- The unretired groups of the serving role. -/
def servingGroups (s : State) (team : Team) (bd : Binding) : List Nat :=
  team.groups.filter fun gid => match s.group? gid with | some g => g.role = bd.role | none => false

/-- The context with its call outstanding to the groups, of which those that wait have it at once. -/
def StepCtx.called (x : StepCtx) (bd : Binding) (k : StepCall) (q : CallInfo) (gs : List Nat) (now : List (Nat × Bool × Bool)) : StepCtx :=
  { x with phase := .out k, owing := gs, toTake := gs.filter fun n => !now.any fun w => w.1 = n, settling := [],
           calls := x.calls + 1#32, openIn := some (q.input, bd.n * bd.e), openOut := some (q.output, q.outN * bd.e) }

section
variable {k : StepCall} {team : Team} (hp : x.phase = .call k) (hteam : tget s.teams x.team = some team)
include hp hteam

theorem callDeliver_eq : exec (.stepCallDeliver c) s =
    let gs := servingGroups s team bd
    if gs.isEmpty then .next (stopRun s c 0x08#8 0xFF#8)
    else if !agentLanded s (ctxDie c) x.agent then .next s
    else
      let now := takers (stepWaiters s x.team) gs
      let x' := x.called bd k (callInfo x t bd k) gs now
      .next (now.foldl (fun y w => giveCall y w.1 w.2 (putRecordOf c x' (callInfo x t bd k) w.2.1)) (setCtx s c x')) := by
  rw [exec_stepCallDeliver, execStepCallDeliver, hc]
  dsimp only
  split
  · next hp' ht' hb' hteam' =>
    cases hp.symm.trans hp'
    cases ht.symm.trans ht'
    cases hb.symm.trans hb'
    cases hteam.symm.trans hteam'
    rfl
  · next hno => exact absurd hteam (hno k t bd team hp ht hb)

theorem callDeliver_nobody (hg : servingGroups s team bd = []) : exec (.stepCallDeliver c) s = .next (stopRun s c 0x08#8 0xFF#8) := by
  rw [callDeliver_eq hc ht hb hp hteam, hg]
  rfl

section
variable (hg : servingGroups s team bd ≠ [])
include hg

theorem callDeliver_waits (hl : agentLanded s (ctxDie c) x.agent = false) : exec (.stepCallDeliver c) s = .next s := by
  rw [callDeliver_eq hc ht hb hp hteam]
  dsimp only
  rw [if_neg (mt List.isEmpty_iff.1 hg), hl]
  rfl

theorem callDeliver_calls (hl : agentLanded s (ctxDie c) x.agent = true) :
    let gs := servingGroups s team bd
    let now := takers (stepWaiters s x.team) gs
    let x' := x.called bd k (callInfo x t bd k) gs now
    exec (.stepCallDeliver c) s =
      .next (now.foldl (fun y w => giveCall y w.1 w.2 (putRecordOf c x' (callInfo x t bd k) w.2.1)) (setCtx s c x')) := by
  rw [callDeliver_eq hc ht hb hp hteam]
  dsimp only
  rw [if_neg (mt List.isEmpty_iff.1 hg), hl]
  rfl

end

end

section
variable {r : Nat × Nat × Bool} (hr : x.run = some r) (hs : x.stopped = none) (hx : x.st = .running)
include hr hs hx

theorem combinationDone_formed {o : StepOp} {y : List Nat} (hp : x.phase = .comb o) (hy : readVec s c r.1 x bd bd.state bd.n = (v, .ok y))
    (ha : runAsgs v x.runner c r.1 x bd (planOf x t bd o) = (w, .ok ())) :
    exec (.stepCombinationDone c) s = .next (afterComb w c r.1 x t bd y o) := by
  rw [exec_stepCombinationDone, execStepCombinationDone, hc]
  dsimp only
  rw [ht, hb, hr, hs, hx, hp]
  dsimp only
  rw [hy]
  dsimp only
  rw [ha]
  rfl

section
variable {k : StepCall} (hp : x.phase = .out k)
include hp

theorem combinationDone_out : exec (.stepCombinationDone c) s =
    if (x.owing.isEmpty && x.settling.all (performed s (ctxDie c) bd.scope)) = true then .next (afterCall s c r.1 x t bd k) else .next s := by
  rw [exec_stepCombinationDone, execStepCombinationDone, hc]
  dsimp only
  rw [ht, hb, hr, hs, hx, hp]
  rfl

theorem combinationDone_called (ho : x.owing = []) (hl : x.settling.all (performed s (ctxDie c) bd.scope) = true) :
    exec (.stepCombinationDone c) s = .next (afterCall s c r.1 x t bd k) := by
  rw [combinationDone_out hc ht hb hr hs hx hp, ho, hl]
  rfl

theorem combinationDone_owed (ho : x.owing ≠ []) : exec (.stepCombinationDone c) s = .next s := by
  rw [combinationDone_out hc ht hb hr hs hx hp, if_neg]
  rw [Bool.and_eq_true, List.isEmpty_iff]
  exact fun hc => ho hc.1

end

end

end

end

/-! ### A legal run, and the θ of a query (R244, R258) -/

theorem fin64_iff {v : Word64} : fin64 v = true ↔ ∃ m p, val64 v = .fin m p := by
  unfold fin64
  cases val64 v <;> simp

theorem regionsMeet_iff (l : List (Addr × Nat)) :
    regionsMeet l = false ↔ l.Pairwise fun p q => meets p.1.toNat p.2 q.1.toNat q.2 = false := by
  induction l with
  | nil => simp [regionsMeet]
  | cons r rs ih => rw [regionsMeet, Bool.or_eq_false_iff, ih, List.pairwise_cons, List.any_eq_false]; simp only [Bool.not_eq_true]

theorem runLegal_iff (s : State) (g : Group) (x : StepCtx) (r : List Byte) : runLegal s g x r = true ↔ ∃ t bd, x.tab = some t ∧ x.bind = some bd ∧
    (bd.regions t.slots).Pairwise (fun p q => meets p.1.toNat p.2 q.1.toNat q.2 = false) ∧
    (bd.space = .cl → ∀ q ∈ bd.regions t.slots, q.2 = 0 ∨ inSpace s (s.teamOf g) g.die g.grid .cl q.1 q.2 = true) ∧
    (∀ v ∈ [runStart r, runEnd r, runSize r], ∃ m p, val64 v = .fin m p) ∧ zero64 (runSize r) = false ∧
    (rat64 (runEnd r) ≠ rat64 (runStart r) → (neg64 (runSize r) = true ↔ rat64 (runEnd r) < rat64 (runStart r))) ∧
    (bd.m = 0 ∨ t.d ≠ 0) ∧ bytesNat r 28 4 = 0 := by
  unfold runLegal
  cases ht : x.tab with
  | none => simp
  | some t =>
    cases hb : x.bind with
    | none => simp
    | some bd =>
      have hcl : (bd.space ≠ .cl ∨ ∀ q ∈ bd.regions t.slots, q.2 = 0 ∨ inSpace s (s.teamOf g) g.die g.grid .cl q.1 q.2 = true) ↔
          (bd.space = .cl → ∀ q ∈ bd.regions t.slots, q.2 = 0 ∨ inSpace s (s.teamOf g) g.die g.grid .cl q.1 q.2 = true) := imp_iff_not_or.symm
      have hdir : (rat64 (runEnd r) = rat64 (runStart r) ∨ neg64 (runSize r) = decide (rat64 (runEnd r) < rat64 (runStart r))) ↔
          (rat64 (runEnd r) ≠ rat64 (runStart r) → (neg64 (runSize r) = true ↔ rat64 (runEnd r) < rat64 (runStart r))) := by
        rw [Bool.eq_iff_iff, decide_eq_true_eq, ne_eq, or_iff_not_imp_left]
      simp only [Bool.and_eq_true, Bool.not_eq_true', Bool.or_eq_true, decide_eq_true_eq, regionsMeet_iff, List.all_eq_true, List.forall_mem_cons,
        ← fin64_iff, Option.some.injEq, exists_and_left, exists_eq_left', hcl, hdir, and_assoc, List.not_mem_nil, false_implies, implies_true,
        true_and]

theorem queryTheta_none {x : StepCtx} {t : Tableau} {y : Word64}
    (h : x.retained = none ∨ x.st = .running ∨ t.d = 0 ∨ (∀ m p, val64 y ≠ .fin m p)) : queryTheta x t y = none := by
  unfold queryTheta
  split
  · rfl
  · next r hr =>
    refine if_pos ?_
    rw [Bool.or_eq_true, Bool.or_eq_true, decide_eq_true_eq, decide_eq_true_eq, Bool.not_eq_true', ← Bool.not_eq_true, fin64_iff]
    rcases h with h | h | h | h
    · rw [hr] at h
      cases h
    · exact .inl (.inl h)
    · exact .inl (.inr h)
    · exact .inr fun ⟨m, p, hv⟩ => h m p hv

/-- The θ of a time in the retained step. -/
def thetaAt (r : Retained) (y : Word64) : Rat := (rat64 y - rat64 r.ts) / rat64 r.hs

section
variable {x : StepCtx} {t : Tableau} {y : Word64} {r : Retained} {m : Bool} {p : Rat} (hr : x.retained = some r) (hx : x.st ≠ .running) (hd : t.d ≠ 0)
  (hv : val64 y = .fin m p)
include hr hx hd hv

theorem queryTheta_eq : queryTheta x t y =
    if rat64 y = rat64 r.tEnd then some none
    else if thetaAt r y < 0 ∨ rat64 r.thetaMax < thetaAt r y then none else some (some (thetaAt r y)) := by
  have hf : fin64 y = true := fin64_iff.2 ⟨m, p, hv⟩
  unfold queryTheta
  rw [hr]
  dsimp only
  rw [hf, decide_eq_false hx, decide_eq_false hd]
  rfl

theorem queryTheta_end (he : rat64 y = rat64 r.tEnd) : queryTheta x t y = some none := by
  rw [queryTheta_eq hr hx hd hv, if_pos he]

theorem queryTheta_inside (he : rat64 y ≠ rat64 r.tEnd) (h0 : 0 ≤ thetaAt r y) (h1 : thetaAt r y ≤ rat64 r.thetaMax) :
    queryTheta x t y = some (some (thetaAt r y)) := by
  rw [queryTheta_eq hr hx hd hv, if_neg he, if_neg]
  rw [not_or, not_lt, not_lt]
  exact ⟨h0, h1⟩

theorem queryTheta_outside (he : rat64 y ≠ rat64 r.tEnd) (ho : thetaAt r y < 0 ∨ rat64 r.thetaMax < thetaAt r y) : queryTheta x t y = none := by
  rw [queryTheta_eq hr hx hd hv, if_neg he, if_pos ho]

end

end Sys2Proof.Machine
end

section
namespace Sys2Proof.Machine

/-! ### Exact values (R180, R182, R246) -/

theorem real_fvalRat (q : Rat) : (fvalRat q).real = q := by
  unfold fvalRat FVal.real
  rcases lt_or_ge q 0 with h | h
  · have ha : q.abs = -q := if_neg (not_le.2 h)
    simp only [decide_eq_true h, if_true, ha, neg_neg]
  · simp only [decide_eq_false (not_lt.2 h), Bool.false_eq_true, if_false, Rat.abs_of_nonneg h]

theorem mulV_fin (m n : Bool) (p q : Rat) : mulV (.fin m p) (.fin n q) = .fin (m != n) (p * q) := rfl

theorem real_mulV_fin (m n : Bool) (p q : Rat) : (mulV (.fin m p) (.fin n q)).real = (FVal.fin m p).real * (FVal.fin n q).real := by
  rw [mulV_fin]
  cases m <;> cases n <;> simp [FVal.real]

theorem isNaN_mulV {a b : FVal} (h : b.isNaN = true) : (mulV a b).isNaN = true := by
  cases b with
  | nan => cases a <;> rfl
  | inf => cases h
  | fin => cases h

/-- A finite value. -/
def FVal.isFin : FVal → Bool | .fin _ _ => true | _ => false

theorem isFin_iff {v : FVal} : v.isFin = true ↔ ∃ m p, v = .fin m p := by
  cases v <;> simp [FVal.isFin]

theorem isFin_mulV {a b : FVal} (ha : a.isFin = true) (hb : b.isFin = true) : (mulV a b).isFin = true := by
  obtain ⟨m, p, rfl⟩ := isFin_iff.1 ha
  obtain ⟨n, q, rfl⟩ := isFin_iff.1 hb
  rfl

theorem real_mulV {a b : FVal} (ha : a.isFin = true) (hb : b.isFin = true) : (mulV a b).real = a.real * b.real := by
  obtain ⟨m, p, rfl⟩ := isFin_iff.1 ha
  obtain ⟨n, q, rfl⟩ := isFin_iff.1 hb
  exact real_mulV_fin m n p q

theorem coef_zero (hs : Word64) : coef hs 0 = .fin false 0 := rfl

theorem isFin_coef {hs : Word64} (h : (val64 hs).isFin = true) (q : Rat) : (coef hs q).isFin = true := by
  unfold coef
  split
  · rfl
  · exact isFin_mulV h rfl

theorem real_coef {hs : Word64} (h : (val64 hs).isFin = true) (q : Rat) : (coef hs q).real = rat64 hs * q := by
  unfold coef
  split
  · next hq => rw [real_fvalRat, hq, mul_zero]
  · rw [real_mulV h rfl, real_fvalRat, rat64]

/-- A sum of finite values is exact. -/
theorem sumV_fin {xs : List FVal} (h : ∀ x ∈ xs, x.isFin = true) :
    sumV xs = exactOf (xs.map FVal.real).sum (xs.all fun x => x.isZero && x.neg?) := by
  have hno (p : FVal → Bool) (hp : ∀ m q, p (.fin m q) = false) : xs.any p = false := by
    rw [List.any_eq_false]
    intro x hx
    obtain ⟨m, q, rfl⟩ := isFin_iff.1 (h x hx)
    rw [hp]
    exact Bool.false_ne_true
  unfold sumV
  dsimp only
  rw [hno _ fun _ _ => rfl, hno _ fun _ _ => rfl, hno _ fun _ _ => rfl, List.sum_eq_foldl, List.foldl_map]
  rfl

theorem sumV_nan {xs : List FVal} (h : ∃ x ∈ xs, x.isNaN = true) : sumV xs = .nan := by
  have hn : xs.any FVal.isNaN = true := List.any_eq_true.2 h
  unfold sumV
  dsimp only
  rw [hn]
  rfl

theorem exactOf_ne {x : Rat} (h : x ≠ 0) (a b : Bool) : exactOf x a = exactOf x b := by
  unfold exactOf
  rw [if_neg h, if_neg h]

theorem zero64_round64_zero (b : Bool) : zero64 (round64 (exactOf 0 b)) = true := by
  cases b <;> decide +kernel

/-! #### The elements of a combination (R246) -/

/-- Terms that count: those whose coefficient is not zero. -/
def liveTerms (ts : List (FVal × List Nat)) : List (FVal × List Nat) := ts.filter fun q => !q.1.isZero

/-- Element `i` of a term's vector. -/
def termElem (f : Format) (i : Nat) (q : FVal × List Nat) : FVal := decodeF f (q.2.getD i 0)

section
variable {f : Format} {ts : List (FVal × List Nat)} {i : Nat}

theorem combElem_eq (f : Format) (ts : List (FVal × List Nat)) (i : Nat) : combElem f ts i =
    if liveTerms ts = [] then 0 else rneTo f (sumV ((liveTerms ts).map fun q => mulV q.1 (termElem f i q))) := by
  unfold combElem liveTerms termElem
  dsimp only
  rw [List.isEmpty_map]
  simp only [List.isEmpty_iff]

theorem combElem_none (h : liveTerms ts = []) : combElem f ts i = 0 := by
  rw [combElem_eq, if_pos h]

theorem coef_ne_zero {q : FVal × List Nat} (h : q ∈ liveTerms ts) : q.1.isZero = false := by
  simpa using (List.mem_filter.1 h).2

/-- A product of finite values is a zero of negative sign where one is a zero and the signs differ. -/
theorem negZero_mulV {a b : FVal} (ha : a.isFin = true) (hb : b.isFin = true) (hz : a.isZero = false) :
    ((mulV a b).isZero && (mulV a b).neg?) = true ↔ b.isZero = true ∧ a.neg? ≠ b.neg? := by
  obtain ⟨m, p, rfl⟩ := isFin_iff.1 ha
  obtain ⟨n, q, rfl⟩ := isFin_iff.1 hb
  have hp : p ≠ 0 := by simpa [FVal.isZero] using hz
  rw [mulV_fin]
  simp [FVal.isZero, FVal.neg?, hp]

theorem combElem_fin {neg : Bool} (hl : liveTerms ts ≠ []) (hf : ∀ q ∈ liveTerms ts, q.1.isFin = true ∧ (termElem f i q).isFin = true)
    (hn : neg = true ↔ ∀ q ∈ liveTerms ts, (termElem f i q).isZero = true ∧ q.1.neg? ≠ (termElem f i q).neg?) :
    combElem f ts i = rneTo f (exactOf ((liveTerms ts).map fun q => q.1.real * (termElem f i q).real).sum neg) := by
  have hfin : ∀ x ∈ (liveTerms ts).map fun q => mulV q.1 (termElem f i q), x.isFin = true := by
    intro x hx
    obtain ⟨q, hq, rfl⟩ := List.mem_map.1 hx
    exact isFin_mulV (hf q hq).1 (hf q hq).2
  have hsum : (((liveTerms ts).map fun q => mulV q.1 (termElem f i q)).map FVal.real) =
      (liveTerms ts).map fun q => q.1.real * (termElem f i q).real := by
    rw [List.map_map]
    exact List.map_congr_left fun q hq => real_mulV (hf q hq).1 (hf q hq).2
  have hneg : (((liveTerms ts).map fun q => mulV q.1 (termElem f i q)).all fun x => x.isZero && x.neg?) = neg := by
    rw [Bool.eq_iff_iff, hn, List.all_map, List.all_eq_true]
    exact forall₂_congr fun q hq => negZero_mulV (hf q hq).1 (hf q hq).2 (coef_ne_zero hq)
  rw [combElem_eq, if_neg hl, sumV_fin hfin, hsum, hneg]

theorem combElem_nan (h : ∃ q ∈ liveTerms ts, (termElem f i q).isNaN = true) : combElem f ts i = f.canonNaN := by
  obtain ⟨q, hq, hn⟩ := h
  rw [combElem_eq, if_neg (List.ne_nil_of_mem hq), sumV_nan ⟨_, List.mem_map_of_mem hq, isNaN_mulV hn⟩]
  rfl

end

end Sys2Proof.Machine
end

section
namespace Sys2Proof.Machine

/-! ### Norms, the controller and the Newton iteration (R247, R248, R254) -/

section
variable {e w : Word64}

theorem normU_zero (w : Word64) (h : zero64 e = true) : normU e w = 0#64 := if_pos h

theorem normU_weightless (he : zero64 e = false) (hw : zero64 w = true) : normU e w = 0x7FF0000000000000#64 := by
  unfold normU
  rw [he, hw]
  rfl

theorem normU_fin {m n : Bool} {p q : Rat} (he : val64 e = .fin m p) (hw : val64 w = .fin n q) (hp : p ≠ 0) (hq : q ≠ 0) :
    normU e w = rne64 (p * p / (q * q)) := by
  have hze : zero64 e = false := by simp [zero64, he, FVal.isZero, hp]
  have hzw : zero64 w = false := by simp [zero64, hw, FVal.isZero, hq]
  unfold normU
  rw [hze, hzw, he, hw, ← div_mul_div_comm]
  rfl

/-- The sign of a zero does not count in a norm. -/
theorem normU_exactOf (x : Rat) (b : Bool) (w : Word64) : normU (round64 (exactOf x b)) w = normU (rne64 x) w := by
  by_cases hx : x = 0
  · rw [hx, normU_zero w (zero64_round64_zero b), rne64, normU_zero w (zero64_round64_zero false)]
  · rw [rne64, exactOf_ne hx b false]

end

/-- FP64 values that are finite. -/
theorem isFin_val64 {v : Word64} : (val64 v).isFin = fin64 v := by
  unfold fin64 FVal.isFin
  cases val64 v <;> rfl

/-- A sum beside a value that is not negative is no negative zero. -/
theorem add64_fin {v w : Word64} (hv : fin64 v = true) (hw : fin64 w = true) (hn : neg64 v = false) : add64 v w = rne64 (rat64 v + rat64 w) := by
  obtain ⟨m, p, hp⟩ := fin64_iff.1 hv
  obtain ⟨n, q, hq⟩ := fin64_iff.1 hw
  have hm : m = false := by
    unfold neg64 at hn
    rw [hp] at hn
    exact hn
  subst hm
  have hz : (if false = n ∧ p = 0 ∧ q = 0 then false else decide (RMode.rne = .rd)) = false := by
    split <;> rfl
  unfold add64 rne64 rat64
  rw [hp, hq, fAdd, hz]

/-! #### Sums in blocks -/

theorem pairSums_getD (l : List Word64) (i : Nat) (h : 2 * i + 1 < l.length) :
    (pairSums l).getD i 0#64 = add64 (l.getD (2 * i) 0#64) (l.getD (2 * i + 1) 0#64) := by
  induction i generalizing l with
  | zero =>
    match l, h with
    | a :: b :: r, _ => rfl
  | succ i ih =>
    match l, h with
    | a :: b :: r, h =>
      have hr : 2 * i + 1 < r.length := by
        simp only [List.length_cons] at h
        omega
      exact ih r hr

theorem pairSums_length (l : List Word64) (n : Nat) (h : l.length = 2 * n) : (pairSums l).length = n := by
  induction n generalizing l with
  | zero =>
    match l, h with
    | [], _ => rfl
  | succ n ih =>
    match l, h with
    | a :: b :: r, h =>
      have hr : r.length = 2 * n := by
        simp only [List.length_cons] at h
        omega
      exact congrArg (· + 1) (ih r hr)

/-- The sums of a block after `m` levels. -/
def sumLevel (us : List Word64) : Nat → List Word64
  | 0 => us ++ List.replicate (64 - us.length) 0#64
  | m + 1 => pairSums (sumLevel us m)

theorem sumLevel_length {us : List Word64} (h : us.length ≤ 64) {m : Nat} (hm : m ≤ 6) : (sumLevel us m).length = 2 ^ (6 - m) := by
  induction m with
  | zero =>
    unfold sumLevel
    rw [List.length_append, List.length_replicate]
    omega
  | succ m ih =>
    refine pairSums_length _ _ ((ih (by omega)).trans ?_)
    rw [show 6 - m = (6 - (m + 1)) + 1 by omega, Nat.pow_succ']

theorem blockSum_tree {us : List Word64} (h : us.length ≤ 64) : ∃ v : Nat → Nat → Word64, (∀ i, i < 64 → v 0 i = us.getD i 0#64) ∧
    (∀ m i, m < 6 → i < 2 ^ (5 - m) → v (m + 1) i = add64 (v m (2 * i)) (v m (2 * i + 1))) ∧ blockSum us = v 6 0 := by
  refine ⟨fun m i => (sumLevel us m).getD i 0#64, fun i hi => ?_, fun m i hm hi => ?_, ?_⟩
  · show (us ++ List.replicate (64 - us.length) 0#64).getD i 0#64 = _
    rcases Nat.lt_or_ge i us.length with hu | hu
    · exact List.getD_append _ _ _ _ hu
    · rw [List.getD_append_right _ _ _ _ hu, List.getD_replicate _ (by omega), List.getD_eq_default _ _ hu]
  · refine pairSums_getD _ i ?_
    rw [sumLevel_length h (by omega), show 6 - m = (5 - m) + 1 by omega, Nat.pow_succ']
    omega
  · have hhead (l : List Word64) : l.headD 0#64 = l.getD 0 0#64 := by
      cases l <;> rfl
    exact hhead (sumLevel us 6)

/-- The sum of the first blocks. -/
def blocksSum (us : List Word64) (n : Nat) : Word64 :=
  (List.range n).foldl (fun a i => add64 a (blockSum ((us.drop (64 * i)).take 64))) 0#64

theorem blocksSum_succ (us : List Word64) (n : Nat) : blocksSum us (n + 1) = add64 (blocksSum us n) (blockSum ((us.drop (64 * n)).take 64)) := by
  unfold blocksSum
  rw [List.range_succ, List.foldl_append]
  rfl

section
variable {us : List Word64}

theorem normOf_nan (h : nan64 (blocksSum us ((us.length + 63) / 64)) = true) : normOf us = 0x7FF8000000000000#64 := by
  unfold nan64 at h
  unfold normOf
  dsimp only
  rw [← blocksSum]
  cases hv : val64 (blocksSum us ((us.length + 63) / 64)) with
  | nan => rfl
  | inf => rw [hv] at h; cases h
  | fin => rw [hv] at h; cases h

theorem normOf_inf (h : inf64 (blocksSum us ((us.length + 63) / 64)) = true) : normOf us = 0x7FF0000000000000#64 := by
  unfold inf64 at h
  unfold normOf
  dsimp only
  rw [← blocksSum]
  cases hv : val64 (blocksSum us ((us.length + 63) / 64)) with
  | nan => rw [hv] at h; cases h
  | inf => rfl
  | fin => rw [hv] at h; cases h

theorem normOf_fin {m : Bool} {q : Rat} (h : val64 (blocksSum us ((us.length + 63) / 64)) = .fin m q) :
    normOf us = round64 (.real false (sqrtRat (q / (us.length : Rat))).1 (sqrtRat (q / (us.length : Rat))).2) := by
  unfold normOf
  dsimp only
  rw [← blocksSum, h]

end

/-! #### The norms of a step -/

theorem weightOf_fin {bd : Binding} {q : Rat} (ha : fin64 bd.atol = true) (hr : fin64 bd.rtol = true)
    (h : rat64 bd.atol + rat64 bd.rtol * q ≠ 0) : weightOf bd (.fin false q) = rne64 (rat64 bd.atol + rat64 bd.rtol * q) := by
  have hA : (val64 bd.atol).isFin = true := isFin_val64.trans ha
  have hR : (val64 bd.rtol).isFin = true := isFin_val64.trans hr
  have hq : (mulV (val64 bd.rtol) (.fin false q)).real = rat64 bd.rtol * q := real_mulV hR rfl
  have hall : ∀ x ∈ [val64 bd.atol, mulV (val64 bd.rtol) (.fin false q)], x.isFin = true :=
    List.forall_mem_cons.2 ⟨hA, List.forall_mem_singleton.2 (isFin_mulV hR rfl)⟩
  have hsum : ([val64 bd.atol, mulV (val64 bd.rtol) (.fin false q)].map FVal.real).sum = rat64 bd.atol + rat64 bd.rtol * q := by
    rw [List.map_cons, List.map_cons, List.map_nil, List.sum_cons, List.sum_cons, List.sum_nil, add_zero, hq]
    rfl
  unfold weightOf rne64
  rw [sumV_fin hall, hsum, exactOf_ne h]

/-- The entries of a list made of the numbers below `n`. -/
theorem getElem?_map_range {α : Type} (f : Nat → α) {n i : Nat} (h : i < n) : ((List.range n).map f)[i]? = some (f i) := by
  rw [List.getElem?_map, List.getElem?_range h, Option.map_some]

/-- The measure of a Newton correction's element (R254). -/
def newtonU (bd : Binding) (d y : List Nat) (i : Nat) : Word64 :=
  normU (match decodeF bd.fmt (d.getD i 0) with | .nan _ => 0x7FF8000000000000#64 | v => round64 (sumV [v]))
    (weightOf bd (maxMagV (decodeF bd.fmt (y.getD i 0)) (decodeF bd.fmt (y.getD i 0))))

theorem newtonNorm_eq (bd : Binding) (d y : List Nat) : newtonNorm bd d y = normOf ((List.range bd.n).map (newtonU bd d y)) := rfl

theorem sumV_singleton (m : Bool) (p : Rat) : ∃ b, sumV [.fin m p] = exactOf (if m then -p else p) b := by
  refine ⟨[FVal.fin m p].all fun x => x.isZero && x.neg?, (sumV_fin (List.forall_mem_singleton.2 rfl)).trans ?_⟩
  rw [List.map_cons, List.map_nil, List.sum_cons, List.sum_nil, add_zero]
  rfl

theorem newtonU_fin {bd : Binding} {d y : List Nat} {i : Nat} {m n : Bool} {p q : Rat} (hd : decodeF bd.fmt (d.getD i 0) = .fin m p)
    (hy : decodeF bd.fmt (y.getD i 0) = .fin n q) (ha : fin64 bd.atol = true) (hr : fin64 bd.rtol = true)
    (h : rat64 bd.atol + rat64 bd.rtol * q ≠ 0) :
    newtonU bd d y i = normU (rne64 (if m then -p else p)) (rne64 (rat64 bd.atol + rat64 bd.rtol * q)) := by
  obtain ⟨b, hs⟩ := sumV_singleton m p
  unfold newtonU
  rw [hd, hy, maxMagV, max_self, weightOf_fin ha hr h]
  dsimp only
  rw [hs, normU_exactOf]

/-- The error estimate of an element (R247). -/
def errU (t : Tableau) (bd : Binding) (hs : Word64) (ks : List (List Nat)) (y z : List Nat) (i : Nat) : Word64 :=
  normU (round64 (sumV ((List.range t.slots).map fun j => mulV (coef hs (t.DB (j % t.s))) (decodeF bd.fmt ((ks.getD j []).getD i 0)))))
    (weightOf bd (maxMagV (decodeF bd.fmt (y.getD i 0)) (decodeF bd.fmt (z.getD i 0))))

theorem errNorm_eq (t : Tableau) (bd : Binding) (hs : Word64) (ks : List (List Nat)) (y z : List Nat) :
    errNorm t bd hs ks y z = normOf ((List.range bd.n).map (errU t bd hs ks y z)) := rfl

theorem errU_fin {t : Tableau} {bd : Binding} {hs : Word64} {ks : List (List Nat)} {y z : List Nat} {i : Nat} {m n : Bool} {p q : Rat}
    (hy : decodeF bd.fmt (y.getD i 0) = .fin m p) (hz : decodeF bd.fmt (z.getD i 0) = .fin n q) (hh : fin64 hs = true)
    (hk : ∀ j, j < t.slots → ∃ m p, decodeF bd.fmt ((ks.getD j []).getD i 0) = .fin m p) (ha : fin64 bd.atol = true) (hr : fin64 bd.rtol = true)
    (h : rat64 bd.atol + rat64 bd.rtol * max p q ≠ 0) : errU t bd hs ks y z i = normU
      (rne64 ((List.range t.slots).map fun j => rat64 hs * t.DB (j % t.s) * (decodeF bd.fmt ((ks.getD j []).getD i 0)).real).sum)
      (rne64 (rat64 bd.atol + rat64 bd.rtol * max p q)) := by
  have hH : (val64 hs).isFin = true := isFin_val64.trans hh
  have hK {j : Nat} (hj : j ∈ List.range t.slots) : (decodeF bd.fmt ((ks.getD j []).getD i 0)).isFin = true :=
    isFin_iff.2 (hk j (List.mem_range.1 hj))
  have hfin : ∀ v ∈ (List.range t.slots).map fun j => mulV (coef hs (t.DB (j % t.s))) (decodeF bd.fmt ((ks.getD j []).getD i 0)), v.isFin = true := by
    intro v hv
    obtain ⟨j, hj, rfl⟩ := List.mem_map.1 hv
    exact isFin_mulV (isFin_coef hH _) (hK hj)
  have hsum : (((List.range t.slots).map fun j => mulV (coef hs (t.DB (j % t.s))) (decodeF bd.fmt ((ks.getD j []).getD i 0))).map FVal.real) =
      (List.range t.slots).map fun j => rat64 hs * t.DB (j % t.s) * (decodeF bd.fmt ((ks.getD j []).getD i 0)).real := by
    rw [List.map_map]
    refine List.map_congr_left fun j hj => ?_
    rw [Function.comp_apply, real_mulV (isFin_coef hH _) (hK hj), real_coef hH]
  unfold errU
  rw [hy, hz, maxMagV, weightOf_fin ha hr h, sumV_fin hfin, hsum, normU_exactOf]

/-! #### The controller (R248) -/

/-- The step-size factor's root, rounded. -/
def errRoot (err : Word64) (q : Nat) : Word64 := round64 (.real false (rootRat (q + 1) (1 / rat64 err)).1 (rootRat (q + 1) (1 / rat64 err)).2)

section
variable {err hs : Word64} {q : Nat}

theorem control_notFinite (h : nan64 err = true ∨ inf64 err = true) : control err hs q = (false, scaled hs (rat64 0x3FC999999999999A#64)) := by
  unfold control
  rw [if_pos (Bool.or_eq_true_iff.2 h)]
  rfl

/-- A finite value is no NaN and no infinity. -/
theorem finite_of_fin {v : FVal} (h : v.isFin = true) : v.isNaN = false ∧ v.isInf = false := by
  obtain ⟨m, p, rfl⟩ := isFin_iff.1 h
  exact ⟨rfl, rfl⟩

theorem zero_fin {v : FVal} (h : v.isZero = true) : v.isFin = true ∧ v.real = 0 := by
  cases v with
  | nan => cases h
  | inf => cases h
  | fin m p =>
    have hp : p = 0 := of_decide_eq_true h
    subst hp
    refine ⟨rfl, ?_⟩
    cases m <;> rfl

theorem control_zero (h : zero64 err = true) : control err hs q = (true, scaled hs 4) := by
  obtain ⟨hf, h0⟩ := zero_fin h
  obtain ⟨hn, hi⟩ := finite_of_fin hf
  have hle : rat64 err ≤ 1 := by
    rw [rat64, h0]
    exact zero_le_one
  unfold control
  rw [nan64, inf64, hn, hi, h, decide_eq_true hle]
  rfl

theorem control_fin (hf : fin64 err = true) (hz : zero64 err = false) (hr : inf64 (errRoot err q) = false)
    (hw : inf64 (rne64 (rat64 0x3FECCCCCCCCCCCCD#64 * rat64 (errRoot err q))) = false) : control err hs q =
      (decide (rat64 err ≤ 1),
        scaled hs (min 4 (max (rat64 0x3FC999999999999A#64) (rat64 (rne64 (rat64 0x3FECCCCCCCCCCCCD#64 * rat64 (errRoot err q))))))) := by
  obtain ⟨hn, hi⟩ := finite_of_fin (isFin_val64.trans hf)
  unfold control
  rw [nan64, inf64, hn, hi, hz]
  dsimp only
  rw [← errRoot, c09, c02, hr, hw]
  rfl

end

/-! #### The Newton iteration (R254) -/

/-- What an iteration decides that has come to no verdict. -/
def newtonLast (m : Nat) : Newton := if 15 ≤ m then .fail else .more

section
variable {m : Nat} {prev : Option Word64} {nrm p : Word64}

theorem newtonNext_nan (h : nan64 nrm = true) : newtonNext m prev nrm = .fail := if_pos h

section
variable (hn : nan64 nrm = false)
include hn

theorem newtonNext_zero (hz : zero64 nrm = true) : newtonNext m prev nrm = .converged := by
  unfold newtonNext
  rw [hn, if_neg Bool.false_ne_true, if_pos hz]

section
variable (hz : zero64 nrm = false)
include hz

theorem newtonNext_first (h : m < 2 ∨ prev = none ∨ ∃ p, prev = some p ∧ inf64 p = true) : newtonNext m prev nrm = newtonLast m := by
  unfold newtonNext
  rw [hn, hz, if_neg Bool.false_ne_true, if_neg Bool.false_ne_true]
  cases prev with
  | none => rfl
  | some p =>
    refine if_pos ?_
    rw [Bool.or_eq_true, decide_eq_true_eq]
    rcases h with h | h | ⟨p', h, hi⟩
    · exact .inl h
    · cases h
    · cases h
      exact .inr hi

/-- The rate of convergence. -/
def newtonRate (nrm p : Word64) : Word64 := rne64 (rat64 nrm / rat64 p)

/-- The correction that is still to come, as the rate promises. -/
def newtonRest (nrm p : Word64) : Word64 := rne64 (rat64 (newtonRate nrm p) * rat64 nrm / (1 - rat64 (newtonRate nrm p)))

section
variable (hm : 2 ≤ m) (hp : inf64 p = false)
include hm hp

theorem newtonNext_rate : newtonNext m (some p) nrm =
    if inf64 nrm = true then .fail
    else if (inf64 (newtonRate nrm p) || decide (1 ≤ rat64 (newtonRate nrm p))) = true then .fail
    else if (!inf64 (newtonRest nrm p) && decide (rat64 (newtonRest nrm p) ≤ rat64 0x3F9EB851EB851EB8#64)) = true then .converged
    else newtonLast m := by
  unfold newtonNext
  rw [hn, hz, if_neg Bool.false_ne_true, if_neg Bool.false_ne_true]
  dsimp only
  rw [hp, decide_eq_false (Nat.not_lt.2 hm)]
  rfl

theorem newtonNext_diverges (h : inf64 nrm = true ∨ inf64 (newtonRate nrm p) = true ∨ 1 ≤ rat64 (newtonRate nrm p)) :
    newtonNext m (some p) nrm = .fail := by
  rw [newtonNext_rate hn hz hm hp]
  split
  · rfl
  · next hi =>
    refine if_pos ?_
    rw [Bool.or_eq_true, decide_eq_true_eq]
    exact h.resolve_left hi

section
variable (hi : inf64 nrm = false) (hr : inf64 (newtonRate nrm p) = false) (h1 : rat64 (newtonRate nrm p) < 1)
include hi hr h1

theorem newtonNext_converging : newtonNext m (some p) nrm =
    if (!inf64 (newtonRest nrm p) && decide (rat64 (newtonRest nrm p) ≤ rat64 0x3F9EB851EB851EB8#64)) = true then .converged else newtonLast m := by
  rw [newtonNext_rate hn hz hm hp, hi, hr, decide_eq_false (not_le.2 h1)]
  rfl

theorem newtonNext_close (hv : inf64 (newtonRest nrm p) = false) (hk : rat64 (newtonRest nrm p) ≤ rat64 0x3F9EB851EB851EB8#64) :
    newtonNext m (some p) nrm = .converged := by
  rw [newtonNext_converging hn hz hm hp hi hr h1, hv, decide_eq_true hk]
  rfl

theorem newtonNext_far (hv : inf64 (newtonRest nrm p) = true ∨ rat64 0x3F9EB851EB851EB8#64 < rat64 (newtonRest nrm p)) :
    newtonNext m (some p) nrm = newtonLast m := by
  rw [newtonNext_converging hn hz hm hp hi hr h1, if_neg]
  rw [Bool.and_eq_true, Bool.not_eq_true', decide_eq_true_eq]
  rintro ⟨hf, hle⟩
  rcases hv with hv | hv
  · rw [hf] at hv
    cases hv
  · exact absurd hle (not_le.2 hv)

end

end

end

end

end

end Sys2Proof.Machine
end

section
namespace Sys2Proof.Machine

/-! ### What follows a combination (R245, R248, R254, R257, R261) -/

section
variable {s u v : State} {c core i m : Nat} {x : StepCtx} {t : Tableau} {bd : Binding} {y d z : List Nat} {ks : List (FVal × List Nat)}

/-- A code is no finite value of the binding's format. -/
theorem notFin_iff {f : Format} {e : Nat} : (match decodeF f e with | .fin _ _ => false | _ => true) = true ↔ ∀ m p, decodeF f e ≠ .fin m p := by
  cases decodeF f e <;> simp

theorem acceptPhase_eq : acceptPhase x bd =
    if bd.m = 0 then .comb .accept else if x.gref = none then .call .eventRef else .call .eventCand := by
  unfold acceptPhase
  simp only [Option.isNone_iff_eq_none]

theorem afterComb_slot : afterComb s c core x t bd y (.slot i) =
    setCtx s c { x with phase := if t.kind = 2 then .comb (.implInput i) else nextStage t i } := by
  unfold afterComb
  dsimp only
  split <;> rfl

section
variable (hd : readVec s c core x bd (bd.vec bd.deriv (t.slot i)) bd.n = (v, .ok d))
include hd

theorem afterComb_converged (hn : newtonNext m x.nrm (newtonNorm bd d y) = .converged) : afterComb s c core x t bd y (.update i m) =
    setCtx v c { x with nrm := some (newtonNorm bd d y), phase := .comb (.slot i) } := by
  unfold afterComb
  dsimp only
  rw [hd]
  dsimp only
  rw [hn]

theorem afterComb_more (hn : newtonNext m x.nrm (newtonNorm bd d y) = .more) : afterComb s c core x t bd y (.update i m) =
    setCtx v c { x with nrm := some (newtonNorm bd d y), phase := .comb (.newtonInput i (m + 1)) } := by
  unfold afterComb
  dsimp only
  rw [hd]
  dsimp only
  rw [hn]

theorem afterComb_fail (hn : newtonNext m x.nrm (newtonNorm bd d y) = .fail) :
    afterComb s c core x t bd y (.update i m) = rejectStep v c x t (scaled x.hs (1 / 2)) := by
  unfold afterComb
  dsimp only
  rw [hd]
  dsimp only
  rw [hn]

end

section
variable (hk : readVecs s c core x bd ((List.range t.slots).map fun j => (one, bd.vec bd.deriv j)) = (u, .ok ks))
  (hz : readVec u c core x bd (bd.vec bd.work 0) bd.n = (v, .ok z))
include hk hz

/-- Without an error estimate a candidate is accepted where it is finite. -/
theorem afterComb_unbounded (hq : t.q = 0) (hb : ∃ e ∈ z, ∀ m p, decodeF bd.fmt e ≠ .fin m p) :
    afterComb s c core x t bd y .candidate = stopRun v c 0x07#8 0xFF#8 := by
  obtain ⟨e, he, hn⟩ := hb
  unfold afterComb
  dsimp only
  rw [hk]
  dsimp only
  rw [hz]
  dsimp only
  rw [if_pos hq]
  exact if_pos (List.any_eq_true.2 ⟨e, he, notFin_iff.2 hn⟩)

theorem afterComb_accepted (hq : t.q = 0) (hb : ¬ ∃ e ∈ z, ∀ m p, decodeF bd.fmt e ≠ .fin m p) :
    afterComb s c core x t bd y .candidate = setCtx v c { x with phase := acceptPhase x bd } := by
  unfold afterComb
  dsimp only
  rw [hk]
  dsimp only
  rw [hz]
  dsimp only
  rw [if_pos hq]
  refine if_neg fun ha => hb ?_
  obtain ⟨e, he, hn⟩ := List.any_eq_true.1 ha
  exact ⟨e, he, notFin_iff.1 hn⟩

theorem afterComb_controlled (hq : t.q ≠ 0) (ha : (control (errNorm t bd x.hs (ks.map Prod.snd) y z) x.hs t.q).1 = true) :
    afterComb s c core x t bd y .candidate =
      setCtx v c { x with h := (control (errNorm t bd x.hs (ks.map Prod.snd) y z) x.hs t.q).2, phase := acceptPhase x bd } := by
  unfold afterComb
  dsimp only
  rw [hk]
  dsimp only
  rw [hz]
  dsimp only
  rw [if_neg hq, if_pos ha]

theorem afterComb_rejected (hq : t.q ≠ 0) (ha : (control (errNorm t bd x.hs (ks.map Prod.snd) y z) x.hs t.q).1 = false) :
    afterComb s c core x t bd y .candidate = rejectStep v c x t (control (errNorm t bd x.hs (ks.map Prod.snd) y z) x.hs t.q).2 := by
  unfold afterComb
  dsimp only
  rw [hk]
  dsimp only
  rw [hz]
  dsimp only
  rw [if_neg hq, if_neg (ne_true_of_eq_false ha)]

end

/-- The context of an accepted step. -/
def StepCtx.stepped (x : StepCtx) : StepCtx :=
  { x with accepted := x.accepted + 1#32, t := stepEnd x, first := false, prevRejected := false,
           retained := some { ts := x.t, hs := x.hs, tEnd := stepEnd x, thetaMax := 0x3FF0000000000000#64 } }

theorem afterComb_finished (h : rat64 (stepEnd x) = rat64 x.tEnd) :
    afterComb s c core x t bd y .accept = stopRun (setCtx s c x.stepped) c 0x02#8 0xFF#8 := if_pos h

/-- The steps of the run have reached its limit. -/
def PastLimit (x : StepCtx) : Prop := x.limit ≠ 0#32 ∧ x.limit.toNat ≤ (x.accepted + 1#32).toNat

section
variable (h : rat64 (stepEnd x) ≠ rat64 x.tEnd)
include h

theorem afterComb_limited (hl : PastLimit x) : afterComb s c core x t bd y .accept = stopRun (setCtx s c x.stepped) c 0x06#8 0xFF#8 :=
  (if_neg h).trans (if_pos hl)

theorem afterComb_goesOn (hl : ¬ PastLimit x) : afterComb s c core x t bd y .accept = beginAttempt s c x.stepped t :=
  (if_neg h).trans (if_neg hl)

end

/-! #### An attempt begins (R245) -/

/-- The attempt would reach or pass the end of the run. -/
def Reaches (x : StepCtx) : Prop := inf64 x.h = true ∨
  (if rat64 x.t < rat64 x.tEnd then rat64 x.tEnd ≤ rat64 x.t + rat64 x.h else rat64 x.t + rat64 x.h ≤ rat64 x.tEnd)

theorem reach_eq {clamp : Bool} (h : clamp = true ↔ Reaches x) : (inf64 x.h || (if decide (rat64 x.t < rat64 x.tEnd) = true then
    decide (rat64 x.tEnd ≤ rat64 x.t + rat64 x.h) else decide (rat64 x.t + rat64 x.h ≤ rat64 x.tEnd))) = clamp := by
  rw [Bool.eq_iff_iff, h, Reaches, Bool.or_eq_true]
  refine or_congr_right ?_
  simp only [decide_eq_true_eq]
  split <;> exact decide_eq_true_iff

/-- The step size of an attempt. -/
def attemptSize (x : StepCtx) (clamp : Bool) : Word64 := if clamp then rne64 (rat64 x.tEnd - rat64 x.t) else x.h

/-- The context of an attempt, before its first phase. -/
def StepCtx.attempt (x : StepCtx) (clamp : Bool) : StepCtx :=
  { x with hs := attemptSize x clamp, hOld := x.h, clamped := clamp, nrm := none, ill := none }

/-- A step that would not move t. -/
def Still (x : StepCtx) (clamp : Bool) : Prop :=
  inf64 (stepTime x.t (attemptSize x clamp) 1) = false ∧ rat64 (stepTime x.t (attemptSize x clamp) 1) = rat64 x.t

/-- The first phase of an attempt. -/
def firstPhase (x : StepCtx) (t : Tableau) : StepPhase :=
  if t.fsal = true ∧ x.first = false then (if x.prevRejected = true then nextStage t 0 else .comb .fsal) else stagePhase t 0

section
variable {clamp : Bool}

theorem still_iff : (!inf64 (stepTime x.t (attemptSize x clamp) 1) &&
    decide (rat64 (stepTime x.t (attemptSize x clamp) 1) = rat64 x.t)) = true ↔ Still x clamp := by
  rw [Bool.and_eq_true, Bool.not_eq_true', decide_eq_true_eq]
  rfl

theorem firstPhase_eq : (if (t.fsal && !x.first) = true then (if x.prevRejected = true then nextStage t 0 else .comb .fsal) else stagePhase t 0) =
    firstPhase x t := by
  unfold firstPhase
  simp only [Bool.and_eq_true, Bool.not_eq_true']

variable (h : clamp = true ↔ Reaches x)
include h

theorem beginAttempt_eq : beginAttempt s c x t =
    if (!inf64 (stepTime x.t (attemptSize x clamp) 1) && decide (rat64 (stepTime x.t (attemptSize x clamp) 1) = rat64 x.t)) = true then
      stopRun (setCtx s c (x.attempt clamp)) c 0x05#8 0xFF#8
    else setCtx s c { x.attempt clamp with phase :=
      if (t.fsal && !x.first) = true then (if x.prevRejected = true then nextStage t 0 else .comb .fsal) else stagePhase t 0 } := by
  unfold beginAttempt
  dsimp only
  rw [reach_eq h]
  rfl

theorem beginAttempt_still (hs : Still x clamp) : beginAttempt s c x t = stopRun (setCtx s c (x.attempt clamp)) c 0x05#8 0xFF#8 := by
  rw [beginAttempt_eq h, if_pos (still_iff.2 hs)]

theorem beginAttempt_moves (hs : ¬ Still x clamp) : beginAttempt s c x t = setCtx s c { x.attempt clamp with phase := firstPhase x t } := by
  rw [beginAttempt_eq h, if_neg (still_iff.not.2 hs), firstPhase_eq]

end

/-! #### A call has completed (R245, R254, R257, R259, R260) -/

/-- The context without the outstanding call. -/
def StepCtx.answered (x : StepCtx) : StepCtx := { x with openIn := none, openOut := none, settling := [] }

theorem afterCall_stopped (k : StepCall) (h : x.stopReq = true) : afterCall s c core x t bd k = stopRun s c 0x04#8 0xFF#8 := if_pos h

section
variable (h : x.stopReq = false)
include h

theorem afterCall_newton (part : Nat) (hm : m ≠ 0) :
    afterCall s c core x t bd (.rhs i part m) = setCtx s c { x.answered with phase := .comb (.residual i m) } :=
  (if_neg (ne_true_of_eq_false h)).trans (if_pos hm)

theorem afterCall_split : afterCall s c core x t bd (.rhs i 2 0) = setCtx s c { x.answered with phase := .call (.rhs i 1 0) } :=
  if_neg (ne_true_of_eq_false h)

theorem afterCall_stage {part : Nat} (hp : part ≠ 2) :
    afterCall s c core x t bd (.rhs i part 0) = setCtx s c { x.answered with phase := nextStage t i } :=
  (if_neg (ne_true_of_eq_false h)).trans ((if_neg (not_not.2 rfl)).trans (if_neg hp))

theorem afterCall_solve : afterCall s c core x t bd (.solve i m) = setCtx s c { x.answered with phase := .comb (.update i m) } :=
  if_neg (ne_true_of_eq_false h)

section
variable {es : List Nat} (hr : readVec s c core x bd bd.event bd.m = (v, .ok es))
include hr

theorem afterCall_events {k : StepCall} {th : Word64} (hk : k ∈ [.eventRef, .eventCand, .eventTrial th])
    (hn : (eventValues bd es).any nan64 = true) : afterCall s c core x t bd k = stopRun v c 0x07#8 0xFF#8 := by
  refine (if_neg (ne_true_of_eq_false h)).trans ?_
  dsimp only
  rw [hr]
  dsimp only
  rw [hn]
  simp only [List.mem_cons, List.not_mem_nil, or_false] at hk
  rcases hk with rfl | rfl | rfl
  · rfl
  · rfl
  · rfl

section
variable (hn : (eventValues bd es).any nan64 = false)
include hn

theorem afterCall_eventRef : afterCall s c core x t bd .eventRef =
    setCtx v c { x.answered with gref := some (eventValues bd es), phase := .call .eventCand } := by
  refine (if_neg (ne_true_of_eq_false h)).trans ?_
  dsimp only
  rw [hr]
  dsimp only
  rw [hn]
  rfl

/-- The reference values after an accepted step without a sign change. -/
def nextRef (ref g : List Word64) : List Word64 :=
  (List.range ref.length).map fun e => if zero64 (g.getD e 0#64) then ref.getD e 0#64 else g.getD e 0#64

theorem afterCall_noEvent (hl : lowestChange (x.gref.getD []) (x.gref.getD []) (eventValues bd es) = none) :
    afterCall s c core x t bd .eventCand = setCtx v c { x.answered with
      gref := some (nextRef (x.gref.getD []) (eventValues bd es)), gnew := eventValues bd es, phase := .comb .accept } := by
  refine (if_neg (ne_true_of_eq_false h)).trans ?_
  dsimp only
  rw [hr]
  dsimp only
  rw [hn, hl]
  rfl

theorem afterCall_event (hl : (lowestChange (x.gref.getD []) (x.gref.getD []) (eventValues bd es)).isSome = true) :
    afterCall s c core x t bd .eventCand = setCtx v c (locate { x.answered with gnew := eventValues bd es }
      { ta := 0#64, tb := 0x3FF0000000000000#64, ga := x.gref.getD [], gb := eventValues bd es, wa := 0, wb := 0, lastB := none, trials := 0 }) := by
  obtain ⟨e, he⟩ := Option.isSome_iff_exists.1 hl
  refine (if_neg (ne_true_of_eq_false h)).trans ?_
  dsimp only
  rw [hr]
  dsimp only
  rw [hn, he]
  rfl

theorem afterCall_trial {l : Illinois} (th : Word64) (hi : x.ill = some l) :
    afterCall s c core x t bd (.eventTrial th) = setCtx v c (afterTrial x.answered l th (eventValues bd es)) := by
  refine (if_neg (ne_true_of_eq_false h)).trans ?_
  dsimp only
  rw [hr]
  dsimp only
  rw [if_neg (ne_true_of_eq_false hn)]
  split
  · next l' hl =>
    cases hi.symm.trans hl
    rfl
  · next hl => cases hi.symm.trans hl

end

end

end

end

end Sys2Proof.Machine
end

section
namespace Sys2Proof.Machine

/-! ### Sign changes, and the search for a root (R259, R260) -/

theorem changes_iff (r u v : Word64) :
    changes r u v = true ↔ zero64 r = false ∧ zero64 u = false ∧ (zero64 v = true ∨ neg64 v ≠ neg64 u) := by
  unfold changes armed
  rw [Bool.and_eq_true, Bool.and_eq_true, Bool.not_eq_true', Bool.not_eq_true', Bool.or_eq_true, bne_iff_ne, and_assoc]

/-- The function of number `e` changes its sign. -/
def ChangesAt (ref a b : List Word64) (e : Nat) : Prop := e < ref.length ∧ changes (ref.getD e 0#64) (a.getD e 0#64) (b.getD e 0#64) = true

theorem lowestChange_eq_some (ref u v : List Word64) (e : Nat) : lowestChange ref u v = some e ↔ e < ref.length ∧
    changes (ref.getD e 0#64) (u.getD e 0#64) (v.getD e 0#64) = true ∧
    ∀ d, d < e → changes (ref.getD d 0#64) (u.getD d 0#64) (v.getD d 0#64) = false := by
  unfold lowestChange
  rw [List.find?_range_eq_some, List.mem_range, and_left_comm]
  simp only [Bool.not_eq_true']

theorem lowestChange_eq_none {ref u v : List Word64} : lowestChange ref u v = none ↔ ∀ e, ¬ ChangesAt ref u v e := by
  unfold lowestChange ChangesAt
  rw [List.find?_eq_none]
  simp only [List.mem_range, not_and]

/-! #### The head of the search -/

theorem pow2_neg (n : Nat) : pow2 (-(n : Int)) = 1 / 2 ^ n := by
  cases n with
  | zero => simp [pow2]
  | succ n =>
    rw [pow2, if_neg (by omega), neg_neg, Int.toNat_natCast, Rat.mkRat_eq_div]
    push_cast
    rfl

theorem half_mul (n : Nat) (q : Rat) : half n * q = q / 2 ^ n := by
  rw [half, pow2_neg, one_div_mul_eq_div]

/-- The search for the root ends. -/
def SearchEnds (l : Illinois) : Prop := l.trials ≥ 64 ∨ rat64 l.tb - rat64 l.ta ≤ 1 / 2 ^ 40

theorem searchEnds_iff (l : Illinois) : (64 ≤ l.trials ∨ rat64 l.tb - rat64 l.ta ≤ pow2 (-40)) ↔ SearchEnds l := by
  rw [show pow2 (-40) = 1 / 2 ^ 40 from pow2_neg 40]
  rfl

section
variable {x : StepCtx} {l : Illinois}

theorem locate_ends (h : SearchEnds l) : locate x l =
    { x with ill := some l, event := BitVec.ofNat 8 ((lowestChange (x.gref.getD []) l.ga l.gb).getD 0), phase := .comb (.truncate l.tb) } :=
  if_pos ((searchEnds_iff l).2 h)

/-- A function that the secant can use: it changes, and its values are finite. -/
def Usable (x : StepCtx) (l : Illinois) (e : Nat) : Prop := e < (x.gref.getD []).length ∧
  changes ((x.gref.getD []).getD e 0#64) (l.ga.getD e 0#64) (l.gb.getD e 0#64) = true ∧
  fin64 (l.ga.getD e 0#64) = true ∧ fin64 (l.gb.getD e 0#64) = true

/-- Where the secant of function `e` meets zero. -/
def cutAt (l : Illinois) (e : Nat) : Word64 :=
  rne64 (rat64 l.ta + (rat64 l.tb - rat64 l.ta) * (rat64 (l.ga.getD e 0#64) / 2 ^ l.wa) /
    (rat64 (l.ga.getD e 0#64) / 2 ^ l.wa - rat64 (l.gb.getD e 0#64) / 2 ^ l.wb))

theorem secant_eq (l : Illinois) (e : Nat) : secant l (l.ga.getD e 0#64) (l.gb.getD e 0#64) = cutAt l e := by
  unfold secant cutAt
  dsimp only
  rw [half_mul, half_mul]

/-- The cuts of the usable functions. -/
def cuts (x : StepCtx) (l : Illinois) : List Word64 :=
  ((List.range (x.gref.getD []).length).filter fun e =>
    changes ((x.gref.getD []).getD e 0#64) (l.ga.getD e 0#64) (l.gb.getD e 0#64) && fin64 (l.ga.getD e 0#64) && fin64 (l.gb.getD e 0#64)).map
  fun e => secant l (l.ga.getD e 0#64) (l.gb.getD e 0#64)

theorem mem_cuts {v : Word64} : v ∈ cuts x l ↔ ∃ e, Usable x l e ∧ cutAt l e = v := by
  unfold cuts Usable
  rw [List.mem_map]
  simp only [List.mem_filter, List.mem_range, Bool.and_eq_true, secant_eq, and_assoc]

/-- The lesser of the cuts so far and one more. -/
def lesser (m : Option Word64) (v : Word64) : Option Word64 :=
  match m with
  | none => some v
  | some w => if rat64 v < rat64 w then some v else some w

/-- The least of a first cut and more. -/
theorem foldl_lesser (cs : List Word64) (w : Word64) : ∃ v, cs.foldl lesser (some w) = some v ∧ v ∈ w :: cs ∧ ∀ u ∈ w :: cs, rat64 v ≤ rat64 u := by
  induction cs generalizing w with
  | nil => exact ⟨w, rfl, List.mem_singleton_self w, List.forall_mem_singleton.2 le_rfl⟩
  | cons b cs ih =>
    by_cases hb : rat64 b < rat64 w
    · obtain ⟨v, hv, hm, hle⟩ := ih b
      refine ⟨v, ?_, List.mem_cons_of_mem w hm, List.forall_mem_cons.2 ⟨(hle b List.mem_cons_self).trans hb.le, hle⟩⟩
      rw [List.foldl_cons, lesser, if_pos hb, hv]
    · obtain ⟨v, hv, hm, hle⟩ := ih w
      obtain ⟨hw, hcs⟩ := List.forall_mem_cons.1 hle
      refine ⟨v, ?_, List.mem_cons.2 ((List.mem_cons.1 hm).imp_right (List.mem_cons_of_mem b)),
        List.forall_mem_cons.2 ⟨hw, List.forall_mem_cons.2 ⟨hw.trans (not_lt.1 hb), hcs⟩⟩⟩
      rw [List.foldl_cons, lesser, if_neg hb, hv]

/-- The least cut, where there is one. -/
def leastCut (x : StepCtx) (l : Illinois) : Option Word64 := (cuts x l).foldl lesser none

theorem leastCut_none (h : ∀ e, ¬ Usable x l e) : leastCut x l = none := by
  have hn : cuts x l = [] := List.eq_nil_iff_forall_not_mem.2 fun v hv => by
    obtain ⟨e, he, -⟩ := mem_cuts.1 hv
    exact h e he
  rw [leastCut, hn]
  rfl

/-- The least cut is one of the value of any cut that none undercuts. -/
theorem leastCut_some {e : Nat} (he : Usable x l e) (hle : ∀ d, Usable x l d → rat64 (cutAt l e) ≤ rat64 (cutAt l d)) :
    ∃ v, leastCut x l = some v ∧ rat64 v = rat64 (cutAt l e) := by
  have hmem : cutAt l e ∈ cuts x l := mem_cuts.2 ⟨e, he, rfl⟩
  unfold leastCut
  cases hc : cuts x l with
  | nil =>
    rw [hc] at hmem
    cases hmem
  | cons w cs =>
    obtain ⟨v, hv, hm, hv'⟩ := foldl_lesser cs w
    rw [← hc] at hm hv'
    obtain ⟨d, hd, rfl⟩ := mem_cuts.1 hm
    exact ⟨_, hv, le_antisymm (hv' _ hmem) (hle d hd)⟩

/-- The midpoint of the bracket. -/
def midpoint64 (l : Illinois) : Word64 := rne64 ((rat64 l.ta + rat64 l.tb) / 2)

/-- The next trial of a search. -/
def nextTrial (l : Illinois) : Option Word64 → Word64
  | none => midpoint64 l
  | some v => if rat64 v ≤ rat64 l.ta ∨ rat64 l.tb ≤ rat64 v then midpoint64 l else v

/-- The context of a trial. -/
def StepCtx.tried (x : StepCtx) (l : Illinois) (u : Word64) : StepCtx :=
  { x with ill := some { l with trials := l.trials + 1 }, phase := .comb (.trial u) }

section
variable (h : ¬ SearchEnds l)
include h

theorem locate_tries : locate x l = x.tried l (nextTrial l (leastCut x l)) := by
  refine (if_neg ((searchEnds_iff l).not.2 h)).trans ?_
  unfold nextTrial
  rfl

theorem locate_unusable (hu : ∀ e, ¬ Usable x l e) : locate x l = x.tried l (midpoint64 l) := by
  rw [locate_tries h, leastCut_none hu]
  rfl

section
variable {e : Nat} (he : Usable x l e) (hle : ∀ d, Usable x l d → rat64 (cutAt l e) ≤ rat64 (cutAt l d))
include he hle

theorem locate_inside (hi : rat64 l.ta < rat64 (cutAt l e) ∧ rat64 (cutAt l e) < rat64 l.tb) :
    ∃ u, rat64 u = rat64 (cutAt l e) ∧ locate x l = x.tried l u := by
  obtain ⟨v, hv, hr⟩ := leastCut_some he hle
  refine ⟨v, hr, ?_⟩
  rw [locate_tries h, hv, nextTrial, if_neg]
  rw [hr, not_or, not_le, not_le]
  exact hi

theorem locate_outside (ho : rat64 (cutAt l e) ≤ rat64 l.ta ∨ rat64 l.tb ≤ rat64 (cutAt l e)) : locate x l = x.tried l (midpoint64 l) := by
  obtain ⟨v, hv, hr⟩ := leastCut_some he hle
  rw [locate_tries h, hv, nextTrial, if_pos]
  rw [hr]
  exact ho

end

end

end

/-! #### After a trial -/

section
variable {x : StepCtx} {l : Illinois} {tc : Word64} {gc : List Word64}

/-- The functions that change up to the trial. -/
def hits (x : StepCtx) (l : Illinois) (gc : List Word64) : List Nat :=
  (List.range (x.gref.getD []).length).filter fun e => changes ((x.gref.getD []).getD e 0#64) (l.ga.getD e 0#64) (gc.getD e 0#64)

theorem mem_hits {e : Nat} : e ∈ hits x l gc ↔ ChangesAt (x.gref.getD []) l.ga gc e := by
  unfold hits ChangesAt
  rw [List.mem_filter, List.mem_range]

theorem head?_hits : (hits x l gc).head? = lowestChange (x.gref.getD []) l.ga gc := List.head?_filter ..

theorem crosses_iff : ((hits x l gc).any fun e => !zero64 (gc.getD e 0#64)) = true ↔
    ∃ e, ChangesAt (x.gref.getD []) l.ga gc e ∧ zero64 (gc.getD e 0#64) = false := by
  rw [List.any_eq_true]
  simp only [mem_hits, Bool.not_eq_true']

theorem afterTrial_crosses (h : ∃ e, ChangesAt (x.gref.getD []) l.ga gc e ∧ zero64 (gc.getD e 0#64) = false) : afterTrial x l tc gc = locate x
    { l with tb := tc, gb := gc, wa := if l.lastB = some true then l.wa + 1 else l.wa, wb := 0, lastB := some true } :=
  if_pos (crosses_iff.2 h)

section
variable (h : ¬ ∃ e, ChangesAt (x.gref.getD []) l.ga gc e ∧ zero64 (gc.getD e 0#64) = false)
include h

theorem afterTrial_root {e : Nat} (he : lowestChange (x.gref.getD []) l.ga gc = some e) :
    afterTrial x l tc gc = { x with event := BitVec.ofNat 8 e, phase := .comb (.truncate tc) } := by
  obtain ⟨r, hr⟩ := List.head?_eq_some_iff.1 (head?_hits.trans he)
  refine (if_neg (crosses_iff.not.2 h)).trans ?_
  rw [← hits, hr]

theorem afterTrial_before (he : lowestChange (x.gref.getD []) l.ga gc = none) : afterTrial x l tc gc = locate x
    { l with ta := tc, ga := gc, wb := if l.lastB = some false then l.wb + 1 else l.wb, wa := 0, lastB := some false } := by
  have hr : hits x l gc = [] := List.head?_eq_none_iff.1 (head?_hits.trans he)
  refine (if_neg (crosses_iff.not.2 h)).trans ?_
  rw [← hits, hr]

end

end

/-! ### The assignments of a combination (R246) -/

section
variable {s u : State} {gid c core : Nat} {x : StepCtx} {bd : Binding} (d : Addr)

theorem runAsg_copy {src : Addr} {v : List Nat} (h : readVec s c core x bd src bd.n = (u, .ok v)) :
    runAsg s gid c core x bd (.copy d src) = writeVec u gid c core x bd d v := by
  unfold runAsg
  dsimp only
  rw [h]

theorem runAsg_lin {ts : List (FVal × Addr)} {vs : List (FVal × List Nat)} (h : readVecs s c core x bd ts = (u, .ok vs)) :
    runAsg s gid c core x bd (.lin d ts) = writeVec u gid c core x bd d ((List.range bd.n).map (combElem bd.fmt vs)) := by
  unfold runAsg
  dsimp only
  rw [h]

end

end Sys2Proof.Machine
end

section
namespace Sys2Proof.Machine

/-! ### The statement -/

/-- The words of a stepper, each with whether it waits for the accesses of its slot. -/
def stepWords (h : Head) (a : Triple) (sp : BitVec 3) (b : Src) : List (Instr × Bool) :=
  [(.stepLdtab h a sp, true), (.stepBind h a sp, true), (.stepRun h a sp, true), (.stepWait h, false), (.stepDone h, false),
    (.stepQry h a b, true), (.stepStat h a sp, true), (.stepStop h, true)]

theorem isStep_of_mem {h : Head} {a : Triple} {sp : BitVec 3} {b : Src} : ∀ p ∈ stepWords h a sp b, IsStep p.1 h p.2 := by
  simp only [stepWords, List.forall_mem_cons]
  exact ⟨isStep_ldtab, isStep_bind, isStep_run, isStep_wait, isStep_done, isStep_qry, isStep_stat, isStep_stop, List.forall_mem_nil _⟩

theorem stepReads_traps {h : Head} {a : Triple} {sp : BitVec 3} {s u : State} {gid c : Nat} {s1 : Bool} {g : Group} {sh : Shape} {x : StepCtx} :
    ∀ i ∈ [Instr.stepLdtab h a sp, .stepBind h a sp, .stepRun h a sp], StepActs i true s u gid s1 g sh c x →
    (x.st = .running → StepTraps i s u gid s1 g sh 0x15#8) ∧
    (x.st ≠ .running → (readTriple g (g.slot s1) a).toNat % 8 ≠ 0 → StepTraps i s u gid s1 g sh 0x08#8) := by
  simp only [List.forall_mem_cons]
  exact ⟨stepReads_ldtab.traps, stepReads_bind.traps, stepReads_run.traps, List.forall_mem_nil _⟩

/-- Settles O55: what each word does is said behind `stepWord`'s checks, what follows a combination or a call by the phases of `afterComb` and
`afterCall`, and the numbers by the exact sums of finite values. -/
theorem stepperWords : Obligations.StepperWords := by
  unfold Obligations.StepperWords
  intro h a sp b acts kept trap waits lands all
  refine ⟨?_, ?_, ?_, ?_, ?_, ?_, ?_, ?_, ?_, ?_, ?_, ?_, runLegal_iff, ?_, ?_, coef_zero, ?_, ?_, ?_, ?_, ?_, ?_, ?_, ?_, ?_, ?_, ?_,
    changes_iff, lowestChange_eq_some, ?_⟩
  · exact fun p hp => (isStep_of_mem p hp).starts
  · exact fun _ _ _ _ _ _ _ _ he => takeCtx_some he
  · exact fun p hp _ _ _ _ _ _ _ _ ha => stepReads_traps p hp ha
  · intro s u gid s1 g sh c x v hd ha hx addr hr
    refine ⟨ldtab_badHeader ha hx hr, fun hk w bs hw => ⟨fun hl => ?_, fun hl => ?_⟩⟩
    · rw [ldtab_reads ha hx hr hk hw, withTab_legal hl]
      rfl
    · rw [ldtab_reads ha hx hr hk hw, withTab_illegal hl]
      rfl
  · exact fun s u gid s1 g sh c x v r ha hx hr => bind_reads ha hx hr
  · intro s u gid s1 g sh c x v r ha hx hr t0 te h0 ends
    refine ⟨run_illegal ha hx hr, run_empty ha hx hr, fun hl he t bd ht hb => ⟨?_, ?_⟩⟩
    · exact run_locked ha hx hr hl he ht hb
    · exact run_begins ha hx hr hl he ht hb
  · intro s u gid s1 g sh c x ha served ends
    refine ⟨wait_traps ha, wait_idle ha, wait_over ha, fun hs hx k t bd hp ht hb => ⟨?_, ?_⟩, wait_combines ha⟩
    · exact wait_taken ha hs hx hp ht hb
    · exact wait_takes ha hs hx hp ht hb
  · exact fun s u gid s1 g sh c x ha => ⟨done_traps ha, done_counts ha⟩
  · intro s u gid s1 g sh c x ha dst at_
    refine ⟨qry_empty ha, fun t bd ht hb => ⟨qry_noTheta ha ht hb, fun th hq => ⟨qry_bad ha ht hb hq, fun v hm hin hap hr => ?_⟩⟩⟩
    have hgood : ¬ QueryBad u g t bd dst := by
      unfold QueryBad
      rw [not_or, not_or, not_not, not_not, hin]
      exact ⟨hm, Bool.noConfusion, hap⟩
    refine qry_writes ha ht hb hq hgood ?_
    cases th with
    | none => exact hr
    | some th => exact hr
  · intro s u gid s1 g sh c x ha dst
    refine ⟨stat_outside ha, fun hin => ⟨stat_misaligned ha hin, fun v ks hm hk => ?_⟩⟩
    have hs := stat_writes ha hin hm hk
    rw [statRecord_eq] at hs
    exact hs
  · exact fun s u gid s1 g sh c x ha => ⟨stop_notRunning ha, stop_calls ha, stop_stops ha⟩
  · intro s c x t bd hc ht hb
    refine ⟨fun k team hp hteam => ⟨?_, ?_, ?_⟩, fun r hr hs hx => ⟨fun o v y w => ?_, fun k hp => ?_, fun k hp => ?_⟩⟩
    · exact callDeliver_nobody hc ht hb hp hteam
    · exact callDeliver_waits hc ht hb hp hteam
    · exact callDeliver_calls hc ht hb hp hteam
    · exact combinationDone_formed hc ht hb hr hs hx
    · exact combinationDone_called hc ht hb hr hs hx hp
    · exact combinationDone_owed hc ht hb hr hs hx hp
  · refine fun x t v => ⟨queryTheta_none, fun r m p hr hx hd hv => ⟨queryTheta_end hr hx hd hv, fun he hi => ?_, queryTheta_outside hr hx hd hv⟩⟩
    exact queryTheta_inside hr hx hd hv he hi.1 hi.2
  · intro hs q m p hv
    have hf : (val64 hs).isFin = true := isFin_iff.2 ⟨m, p, hv⟩
    exact ⟨isFin_iff.1 (isFin_coef hf q), real_coef hf q⟩
  · refine fun f ts i => ⟨combElem_none, fun neg hl hf hn => combElem_fin hl (fun q hq => ?_) hn, combElem_nan⟩
    exact (hf q hq).imp isFin_iff.2 isFin_iff.2
  · exact fun s u gid c core x bd d => ⟨fun _ _ => runAsg_copy d, fun _ _ => runAsg_lin d⟩
  · exact fun e w => ⟨normU_zero w, normU_weightless, fun _ _ _ _ => normU_fin⟩
  · exact fun v w => add64_fin
  · exact fun us => blockSum_tree
  · exact fun us => ⟨blocksSum us, rfl, blocksSum_succ us, normOf_nan, normOf_inf, fun m q => normOf_fin⟩
  · intro bd d y i hi
    refine ⟨_, newtonNorm_eq bd d y, by rw [List.length_map, List.length_range], fun m p n q hd hy ha hr hw => ?_⟩
    rw [getElem?_map_range _ hi, newtonU_fin hd hy ha hr hw]
  · intro t bd hs ks y z i hi
    refine ⟨_, errNorm_eq t bd hs ks y z, by rw [List.length_map, List.length_range], ?_⟩
    intro k diff m p n q hy hz hh hk ha hr hw
    rw [getElem?_map_range _ hi, errU_fin hy hz hh hk ha hr hw]
    rfl
  · exact fun err hs q => ⟨control_notFinite, control_zero, control_fin⟩
  · intro m prev nrm last
    refine ⟨newtonNext_nan, newtonNext_zero, fun hn hz => ⟨newtonNext_first hn hz, ?_⟩⟩
    rintro p hm rfl hp
    exact ⟨newtonNext_diverges hn hz hm hp, fun hi hr h1 => ⟨newtonNext_close hn hz hm hp hi hr h1, newtonNext_far hn hz hm hp hi hr h1⟩⟩
  · intro s c core x t bd y i m th w k own entry gamma sums plus hist weight dense stage next goes whole accepts retries fin
    have hacc : acceptPhase x bd = accepts := acceptPhase_eq
    refine ⟨fun _ _ _ => rfl, rfl, rfl, rfl, rfl, rfl, rfl, rfl, rfl, rfl, rfl, rfl, rfl, afterComb_slot, rfl, rfl, rfl, rfl, rfl, rfl, rfl, ?_, ?_, ?_, rfl,
      ⟨fun _ => rfl, rfl, rfl, rfl, rfl⟩, ?_, ?_⟩
    · exact fun v d hd => ⟨afterComb_converged hd, afterComb_more hd, afterComb_fail hd⟩
    · intro u ks v z hk hz bad d
      rw [← hacc]
      exact ⟨afterComb_unbounded hk hz, afterComb_accepted hk hz, afterComb_controlled hk hz, afterComb_rejected hk hz⟩
    · exact ⟨afterComb_finished, afterComb_limited, afterComb_goesOn⟩
    · intro reach clamp hc hs t1 x' still
      exact ⟨beginAttempt_still hc, beginAttempt_moves hc⟩
    · intro x'
      refine ⟨afterCall_stopped, fun h => ⟨afterCall_newton h, afterCall_split h, fun part => afterCall_stage h, afterCall_solve h, ?_⟩⟩
      intro v es hr g ref
      exact ⟨fun k hk => afterCall_events h hr hk,
        fun hn => ⟨afterCall_eventRef h hr hn, afterCall_noEvent h hr hn, afterCall_event h hr hn, fun l => afterCall_trial h hr hn th⟩⟩
  · intro x l tc gc ref at_ ends usable cut mid tries hit
    refine ⟨locate_ends, fun he hu => ⟨_, rfl, locate_unusable he hu⟩, fun e he hu hle => ⟨?_, ?_⟩, afterTrial_crosses, ?_, ?_⟩
    · exact locate_inside he hu hle
    · exact fun ho => ⟨_, rfl, locate_outside he hu hle ho⟩
    · intro e he hlow hz
      refine afterTrial_root ?_ ((lowestChange_eq_some _ _ _ e).2 ⟨he.1, he.2, fun d hd => ?_⟩)
      · rintro ⟨d, hd, hne⟩
        exact absurd (hz d hd) (ne_true_of_eq_false hne)
      · exact eq_false_of_ne_true fun hc => hlow d hd ⟨hd.trans he.1, hc⟩
    · exact fun hno => afterTrial_before (fun ⟨d, hd, _⟩ => hno d hd) (lowestChange_eq_none.2 hno)
end Sys2Proof.Machine
end
